-- ==== Sys2Proof/Word.lean ====
section
/-! DEFINITION. The word types of the machine and their plainest arithmetic (spec/00_scope.md, spec/03_formats.md). -/

namespace Sys2Proof

/-- A byte of memory. -/
abbrev Byte := BitVec 8

/-- The 32 bits of one lane of a register row, R11. -/
abbrev Word := BitVec 32

end Sys2Proof
end

