-- ==== Sys2Proof/Syntax.lean ====
section
/-! DEFINITION. The instructions and device events of the Lanielm 880: one constructor for each row of
spec/opcode_table.json. The encoded instructions carry the fields of their word (spec/04_opcode_map.md, R43 to R51);
the events, which have no word, carry the objects they strike (spec/95_what_each_step_holds.md). -/

namespace Sys2Proof

/-- The common fields of a 32-bit word, R27: guard predicate, guard sense, guard enable, END. -/
structure Ctl where
  gp : BitVec 4
  n : Bool
  g : Bool
  e : Bool
  deriving DecidableEq, Repr

/-- The task-ending codes, R378. -/
inductive EndCode where
  | lease | matrixOperand | extentRevoked | worldPoison | handlerFault | leaseDenied | relaunchLimit
  deriving DecidableEq, Repr

/-- Why the distributor sets PREEMPT (spec/24, Pre-emption; R432): to make room in a class, for a checkpoint, for a
world stop or a partition change. -/
inductive PreemptWhy where
  | room (cls : Nat) | checkpoint | worldStop
  deriving DecidableEq, Repr

/-- What the hub ROM finds in each stage of the bring-up, R410, R206, R12. -/
structure BootReport where
  romOk : Bool
  imageOk : Bool
  ids : List Nat
  hbmOk : Bool
  diesOk : Bool
  slices : List Nat
  deriving DecidableEq, Repr

/-- The fields of a world's configuration block, spec/12, Configuration and the TDISP states; R199, R200, R201. -/
inductive CfgField where
  | partitions (mask : BitVec 40)
  | bindQueue (queue base k : Nat)
  | root (pa : Nat)
  | vectors (v : List Nat)
  | scopepol (v : BitVec 32)
  | quota (n : Nat)
  | share (frame : Nat) (worlds : List Nat)
  | confidential (b : Bool)
  deriving DecidableEq, Repr

/-- The privileged registers that have no row of their own, R203, R236, R411; `readOnly` stands for BOOTST, FEATOFFER,
PMTWAIT, PMTDIE and the status words, whose writes are ignored (R3, the RO access code). -/
inductive RegName where
  | erasecap (stack : Nat) | aliasctl (die : Nat) | retrain | readOnly
  deriving DecidableEq, Repr

/-- A permit may be granted to a matrix pass, or to the copies and landings of a die, R135, R417. -/
inductive PermitSite where
  | engine (quad : Nat) | ferry (die : Nat)
  deriving DecidableEq, Repr

/-- What the ferry does next for a copy, R226, R247: it takes the copy up or reads elements (`dest` is none), or writes elements at one
destination; `count` of them, or all that are left where it is 0. -/
structure CopyTurn where
  op : Nat
  dest : Option Nat
  count : Nat
  deriving DecidableEq, Repr

/-- What an engine reads next for a request, R149: one sector ahead, or all that is left of its operands. -/
structure OperandTurn where
  req : Nat
  sector : Option Nat
  deriving DecidableEq, Repr

/-- The units of the fault log, R403. -/
inductive UnitKind where
  | hbm | die | hubCore | slice | crossing | poolPort | hostPort
  deriving DecidableEq, Repr

/-- Where an uncorrectable error strikes, R387. -/
inductive ErrSite where
  | line (pa : Nat) | scratch (gang la : Nat) | row (crew reg : Nat) | ringTile (gang quad tile : Nat)
  | portEntry (thread : Nat) (dir : BitVec 2) | operand (req : Nat) | image (gang : Nat)
  | translation (task : Nat) | aliasEntry (entry : Nat) | frameTag (task : Nat)
  deriving DecidableEq, Repr

/-- A host access through world `world`'s function (R195, R262): a write of `data`, or a read of `data.length` bytes; or a loader's
fix-ups, the granules of `data.length` bytes that firmware is to mint (R424). -/
structure HostAccess where
  world : Nat
  write : Bool
  fixup : Bool
  pa : Nat
  data : List (BitVec 8)
  deriving DecidableEq, Repr

/-- A block arriving on a bounce-buffer channel, R205. -/
structure IdeBlock where
  ctr : BitVec 64
  ideOk : Bool
  pa : Nat
  data : List (BitVec 8)
  deriving DecidableEq, Repr

/-- One constructor for each row of spec/opcode_table.json, in the table's order, but for the events that only the world outside
the device or a faulty word brings about, which stand last. -/
inductive Instr where
  /-- `ADD`, R61. -/
  | add (d : BitVec 5) (a : BitVec 5) (s : BitVec 5) (l : Bool) (ct : Ctl)
  /-- `SUB`, R61. -/
  | sub (d : BitVec 5) (a : BitVec 5) (s : BitVec 5) (l : Bool) (ct : Ctl)
  /-- `MUL`, R61. -/
  | mul (d : BitVec 5) (a : BitVec 5) (s : BitVec 5) (l : Bool) (ct : Ctl)
  /-- `MULH`, R61. -/
  | mulh (d : BitVec 5) (a : BitVec 5) (s : BitVec 5) (l : Bool) (ct : Ctl)
  /-- `MULHU`, R61. -/
  | mulhu (d : BitVec 5) (a : BitVec 5) (s : BitVec 5) (l : Bool) (ct : Ctl)
  /-- `MAD`, R61. -/
  | mad (d : BitVec 5) (a : BitVec 5) (s : BitVec 5) (l : Bool) (ct : Ctl)
  /-- `MIN`, R61. -/
  | min (d : BitVec 5) (a : BitVec 5) (s : BitVec 5) (l : Bool) (ct : Ctl)
  /-- `MAX`, R61. -/
  | max (d : BitVec 5) (a : BitVec 5) (s : BitVec 5) (l : Bool) (ct : Ctl)
  /-- `MINU`, R61. -/
  | minu (d : BitVec 5) (a : BitVec 5) (s : BitVec 5) (l : Bool) (ct : Ctl)
  /-- `MAXU`, R61. -/
  | maxu (d : BitVec 5) (a : BitVec 5) (s : BitVec 5) (l : Bool) (ct : Ctl)
  /-- `AND`, R61. -/
  | and (d : BitVec 5) (a : BitVec 5) (s : BitVec 5) (l : Bool) (ct : Ctl)
  /-- `OR`, R61. -/
  | or (d : BitVec 5) (a : BitVec 5) (s : BitVec 5) (l : Bool) (ct : Ctl)
  /-- `XOR`, R61. -/
  | xor (d : BitVec 5) (a : BitVec 5) (s : BitVec 5) (l : Bool) (ct : Ctl)
  /-- `ANDN`, R61. -/
  | andn (d : BitVec 5) (a : BitVec 5) (s : BitVec 5) (l : Bool) (ct : Ctl)
  /-- `SHL`, R61. -/
  | shl (d : BitVec 5) (a : BitVec 5) (s : BitVec 5) (l : Bool) (ct : Ctl)
  /-- `SHR`, R61. -/
  | shr (d : BitVec 5) (a : BitVec 5) (s : BitVec 5) (l : Bool) (ct : Ctl)
  /-- `SRA`, R61. -/
  | sra (d : BitVec 5) (a : BitVec 5) (s : BitVec 5) (l : Bool) (ct : Ctl)
  /-- `ROTL`, R61. -/
  | rotl (d : BitVec 5) (a : BitVec 5) (s : BitVec 5) (l : Bool) (ct : Ctl)
  /-- `POPC`, R61. -/
  | popc (d : BitVec 5) (a : BitVec 5) (l : Bool) (ct : Ctl)
  /-- `CLZ`, R61. -/
  | clz (d : BitVec 5) (a : BitVec 5) (l : Bool) (ct : Ctl)
  /-- `BREV`, R61. -/
  | brev (d : BitVec 5) (a : BitVec 5) (l : Bool) (ct : Ctl)
  /-- `ADDS`, R61. -/
  | adds (d : BitVec 5) (a : BitVec 5) (s : BitVec 5) (l : Bool) (ct : Ctl)
  /-- `SUBS`, R61. -/
  | subs (d : BitVec 5) (a : BitVec 5) (s : BitVec 5) (l : Bool) (ct : Ctl)
  /-- `ABSD`, R61. -/
  | absd (d : BitVec 5) (a : BitVec 5) (s : BitVec 5) (l : Bool) (ct : Ctl)
  /-- `BFX`, R61. -/
  | bfx (d : BitVec 5) (a : BitVec 5) (s : BitVec 5) (l : Bool) (ct : Ctl)
  /-- `BFI`, R61. -/
  | bfi (d : BitVec 5) (a : BitVec 5) (s : BitVec 5) (l : Bool) (ct : Ctl)
  /-- `MOV`, R61. -/
  | mov (d : BitVec 5) (a : BitVec 5) (l : Bool) (ct : Ctl)
  /-- `SHFL`, R62. -/
  | shfl (d : BitVec 5) (a : BitVec 5) (s : BitVec 5) (l : Bool) (ct : Ctl)
  /-- `BALLOT`, R63. -/
  | ballot (d : BitVec 5) (a : BitVec 5) (l : Bool) (ct : Ctl)
  /-- `MOV_16`, R26. -/
  | mov16 (d : BitVec 5) (s : BitVec 5) (e : Bool)
  /-- `ADD_16`, R26. -/
  | add16 (d : BitVec 5) (s : BitVec 5) (e : Bool)
  /-- `SUB_16`, R26. -/
  | sub16 (d : BitVec 5) (s : BitVec 5) (e : Bool)
  /-- `AND_16`, R26. -/
  | and16 (d : BitVec 5) (s : BitVec 5) (e : Bool)
  /-- `OR_16`, R26. -/
  | or16 (d : BitVec 5) (s : BitVec 5) (e : Bool)
  /-- `XOR_16`, R26. -/
  | xor16 (d : BitVec 5) (s : BitVec 5) (e : Bool)
  /-- `SHL_16`, R26. -/
  | shl16 (d : BitVec 5) (s : BitVec 5) (e : Bool)
  /-- `SHR_16`, R26. -/
  | shr16 (d : BitVec 5) (s : BitVec 5) (e : Bool)
  /-- `SRA_16`, R26. -/
  | sra16 (d : BitVec 5) (s : BitVec 5) (e : Bool)
  /-- `MUL_16`, R26. -/
  | mul16 (d : BitVec 5) (s : BitVec 5) (e : Bool)
  /-- `FADD_16`, R26. -/
  | fadd16 (d : BitVec 5) (s : BitVec 5) (e : Bool)
  /-- `FSUB_16`, R26. -/
  | fsub16 (d : BitVec 5) (s : BitVec 5) (e : Bool)
  /-- `FMUL_16`, R26. -/
  | fmul16 (d : BitVec 5) (s : BitVec 5) (e : Bool)
  /-- `FMIN_16`, R26. -/
  | fmin16 (d : BitVec 5) (s : BitVec 5) (e : Bool)
  /-- `FMAX_16`, R26. -/
  | fmax16 (d : BitVec 5) (s : BitVec 5) (e : Bool)
  /-- `ADDI_16`, R26. -/
  | addi16 (d : BitVec 5) (i : BitVec 5) (e : Bool)
  /-- `FADD`, R114. -/
  | fadd (d : BitVec 5) (a : BitVec 5) (s : BitVec 5) (l : Bool) (ct : Ctl)
  /-- `FSUB`, R114. -/
  | fsub (d : BitVec 5) (a : BitVec 5) (s : BitVec 5) (l : Bool) (ct : Ctl)
  /-- `FMUL`, R114. -/
  | fmul (d : BitVec 5) (a : BitVec 5) (s : BitVec 5) (l : Bool) (ct : Ctl)
  /-- `FFMA`, R114. -/
  | ffma (d : BitVec 5) (a : BitVec 5) (s : BitVec 5) (l : Bool) (ct : Ctl)
  /-- `FMIN`, R114. -/
  | fmin (d : BitVec 5) (a : BitVec 5) (s : BitVec 5) (l : Bool) (ct : Ctl)
  /-- `FMAX`, R114. -/
  | fmax (d : BitVec 5) (a : BitVec 5) (s : BitVec 5) (l : Bool) (ct : Ctl)
  /-- `FDIV`, R114. -/
  | fdiv (d : BitVec 5) (a : BitVec 5) (s : BitVec 5) (l : Bool) (ct : Ctl)
  /-- `FSQRT`, R114. -/
  | fsqrt (d : BitVec 5) (a : BitVec 5) (l : Bool) (ct : Ctl)
  /-- `DADD`, R114. -/
  | dadd (d : BitVec 5) (a : BitVec 5) (s : BitVec 5) (l : Bool) (ct : Ctl)
  /-- `DSUB`, R114. -/
  | dsub (d : BitVec 5) (a : BitVec 5) (s : BitVec 5) (l : Bool) (ct : Ctl)
  /-- `DMUL`, R114. -/
  | dmul (d : BitVec 5) (a : BitVec 5) (s : BitVec 5) (l : Bool) (ct : Ctl)
  /-- `DFMA`, R114. -/
  | dfma (d : BitVec 5) (a : BitVec 5) (s : BitVec 5) (l : Bool) (ct : Ctl)
  /-- `DMIN`, R114. -/
  | dmin (d : BitVec 5) (a : BitVec 5) (s : BitVec 5) (l : Bool) (ct : Ctl)
  /-- `DMAX`, R114. -/
  | dmax (d : BitVec 5) (a : BitVec 5) (s : BitVec 5) (l : Bool) (ct : Ctl)
  /-- `DDIV`, R114. -/
  | ddiv (d : BitVec 5) (a : BitVec 5) (s : BitVec 5) (l : Bool) (ct : Ctl)
  /-- `DSQRT`, R114. -/
  | dsqrt (d : BitVec 5) (a : BitVec 5) (l : Bool) (ct : Ctl)
  /-- `HADD`, R114. -/
  | hadd (d : BitVec 5) (a : BitVec 5) (s : BitVec 5) (l : Bool) (ct : Ctl)
  /-- `HSUB`, R114. -/
  | hsub (d : BitVec 5) (a : BitVec 5) (s : BitVec 5) (l : Bool) (ct : Ctl)
  /-- `HMUL`, R114. -/
  | hmul (d : BitVec 5) (a : BitVec 5) (s : BitVec 5) (l : Bool) (ct : Ctl)
  /-- `HFMA`, R114. -/
  | hfma (d : BitVec 5) (a : BitVec 5) (s : BitVec 5) (l : Bool) (ct : Ctl)
  /-- `HMIN`, R114. -/
  | hmin (d : BitVec 5) (a : BitVec 5) (s : BitVec 5) (l : Bool) (ct : Ctl)
  /-- `HMAX`, R114. -/
  | hmax (d : BitVec 5) (a : BitVec 5) (s : BitVec 5) (l : Bool) (ct : Ctl)
  /-- `FCVT`, R119. -/
  | fcvt (d : BitVec 5) (a : BitVec 5) (s : BitVec 5) (l : Bool) (ct : Ctl)
  /-- `FCPYS`, R116. -/
  | fcpys (d : BitVec 5) (a : BitVec 5) (s : BitVec 5) (l : Bool) (ct : Ctl)
  /-- `FNEG`, R116. -/
  | fneg (d : BitVec 5) (a : BitVec 5) (l : Bool) (ct : Ctl)
  /-- `FABS`, R116. -/
  | fabs (d : BitVec 5) (a : BitVec 5) (l : Bool) (ct : Ctl)
  /-- `LMUL`, R121. -/
  | lmul (d : BitVec 5) (a : BitVec 5) (s : BitVec 5) (l : Bool) (ct : Ctl)
  /-- `LDOT`, R122. -/
  | ldot (d : BitVec 5) (a : BitVec 5) (s : BitVec 5) (l : Bool) (ct : Ctl)
  /-- `FCLASS`, R117. -/
  | fclass (d : BitVec 5) (a : BitVec 5) (l : Bool) (ct : Ctl)
  /-- `FRND`, R118. -/
  | frnd (d : BitVec 5) (a : BitVec 5) (m : BitVec 5) (l : Bool) (ct : Ctl)
  /-- `ADDI`, R65. -/
  | addi (d : BitVec 5) (a : BitVec 5) (i : BitVec 8) (ct : Ctl)
  /-- `ANDI`, R65. -/
  | andi (d : BitVec 5) (a : BitVec 5) (i : BitVec 8) (ct : Ctl)
  /-- `ORI`, R65. -/
  | ori (d : BitVec 5) (a : BitVec 5) (i : BitVec 8) (ct : Ctl)
  /-- `XORI`, R65. -/
  | xori (d : BitVec 5) (a : BitVec 5) (i : BitVec 8) (ct : Ctl)
  /-- `SHLI`, R65. -/
  | shli (d : BitVec 5) (a : BitVec 5) (i : BitVec 8) (ct : Ctl)
  /-- `SHRI`, R65. -/
  | shri (d : BitVec 5) (a : BitVec 5) (i : BitVec 8) (ct : Ctl)
  /-- `SRAI`, R65. -/
  | srai (d : BitVec 5) (a : BitVec 5) (i : BitVec 8) (ct : Ctl)
  /-- `MULI`, R65. -/
  | muli (d : BitVec 5) (a : BitVec 5) (i : BitVec 8) (ct : Ctl)
  /-- `MOVI`, R66. -/
  | movi (d : BitVec 5) (i : BitVec 16) (ct : Ctl)
  /-- `MOVHI`, R66. -/
  | movhi (d : BitVec 5) (i : BitVec 16) (ct : Ctl)
  /-- `LDB`, R69. -/
  | ldb (d : BitVec 5) (c : BitVec 3) (o : BitVec 8) (l : Bool) (ct : Ctl)
  /-- `LDBU`, R69. -/
  | ldbu (d : BitVec 5) (c : BitVec 3) (o : BitVec 8) (l : Bool) (ct : Ctl)
  /-- `LDH`, R69. -/
  | ldh (d : BitVec 5) (c : BitVec 3) (o : BitVec 8) (l : Bool) (ct : Ctl)
  /-- `LDHU`, R69. -/
  | ldhu (d : BitVec 5) (c : BitVec 3) (o : BitVec 8) (l : Bool) (ct : Ctl)
  /-- `LDW`, R69. -/
  | ldw (d : BitVec 5) (c : BitVec 3) (o : BitVec 8) (l : Bool) (ct : Ctl)
  /-- `LDD`, R69. -/
  | ldd (d : BitVec 5) (c : BitVec 3) (o : BitVec 8) (l : Bool) (ct : Ctl)
  /-- `STB`, R70. -/
  | stb (d : BitVec 5) (c : BitVec 3) (o : BitVec 8) (l : Bool) (ct : Ctl)
  /-- `STH`, R70. -/
  | sth (d : BitVec 5) (c : BitVec 3) (o : BitVec 8) (l : Bool) (ct : Ctl)
  /-- `STW`, R70. -/
  | stw (d : BitVec 5) (c : BitVec 3) (o : BitVec 8) (l : Bool) (ct : Ctl)
  /-- `STD`, R70. -/
  | std (d : BitVec 5) (c : BitVec 3) (o : BitVec 8) (l : Bool) (ct : Ctl)
  /-- `LDC`, R189. -/
  | ldc (d : BitVec 5) (c : BitVec 3) (o : BitVec 8) (l : Bool) (ct : Ctl)
  /-- `STC`, R190. -/
  | stc (d : BitVec 5) (c : BitVec 3) (o : BitVec 8) (l : Bool) (ct : Ctl)
  /-- `PREF`, R286. -/
  | pref (h : BitVec 5) (c : BitVec 3) (o : BitVec 8) (l : Bool) (ct : Ctl)
  /-- `CFLUSH`, R287. -/
  | cflush (p : BitVec 5) (c : BitVec 3) (s : BitVec 3) (l : Bool) (ct : Ctl)
  /-- `CMPEQ`, R74. -/
  | cmpeq (p : BitVec 4) (a : BitVec 5) (s : BitVec 5) (m : BitVec 2) (ct : Ctl)
  /-- `CMPNE`, R74. -/
  | cmpne (p : BitVec 4) (a : BitVec 5) (s : BitVec 5) (m : BitVec 2) (ct : Ctl)
  /-- `CMPLT`, R74. -/
  | cmplt (p : BitVec 4) (a : BitVec 5) (s : BitVec 5) (m : BitVec 2) (ct : Ctl)
  /-- `CMPLE`, R74. -/
  | cmple (p : BitVec 4) (a : BitVec 5) (s : BitVec 5) (m : BitVec 2) (ct : Ctl)
  /-- `CMPLTU`, R74. -/
  | cmpltu (p : BitVec 4) (a : BitVec 5) (s : BitVec 5) (m : BitVec 2) (ct : Ctl)
  /-- `CMPLEU`, R74. -/
  | cmpleu (p : BitVec 4) (a : BitVec 5) (s : BitVec 5) (m : BitVec 2) (ct : Ctl)
  /-- `FCMPEQ`, R124. -/
  | fcmpeq (p : BitVec 4) (a : BitVec 5) (s : BitVec 5) (m : BitVec 2) (ct : Ctl)
  /-- `FCMPLT`, R124. -/
  | fcmplt (p : BitVec 4) (a : BitVec 5) (s : BitVec 5) (m : BitVec 2) (ct : Ctl)
  /-- `FCMPLE`, R124. -/
  | fcmple (p : BitVec 4) (a : BitVec 5) (s : BitVec 5) (m : BitVec 2) (ct : Ctl)
  /-- `FCMPUN`, R124. -/
  | fcmpun (p : BitVec 4) (a : BitVec 5) (s : BitVec 5) (m : BitVec 2) (ct : Ctl)
  /-- `PSET`, R75. -/
  | pset (p : BitVec 4) (a : BitVec 4) (b : BitVec 4) (t : BitVec 4) (ct : Ctl)
  /-- `PMOV`, R76. -/
  | pmov (v : BitVec 5) (r : Bool) (ct : Ctl)
  /-- `BRA`, R77. -/
  | bra (o : BitVec 16) (ct : Ctl)
  /-- `CALL`, R78. -/
  | call (o : BitVec 16) (ct : Ctl)
  /-- `JMPR`, R79. -/
  | jmpr (a : BitVec 5) (ct : Ctl)
  /-- `EXIT`, R80. -/
  | exit (ct : Ctl)
  /-- `NOP`, R81. -/
  | nop (ct : Ctl)
  /-- `RDSR`, R82. -/
  | rdsr (d : BitVec 5) (s : BitVec 8) (ct : Ctl)
  /-- `WRSR`, R84. -/
  | wrsr (a : BitVec 5) (s : BitVec 8) (ct : Ctl)
  /-- `TAG`, R85. -/
  | tag (d : BitVec 5) (f : BitVec 4) (k : BitVec 7) (ct : Ctl)
  /-- `TAGRD`, R86. -/
  | tagrd (d : BitVec 5) (a : BitVec 5) (ct : Ctl)
  /-- `WAIT`, R90. -/
  | wait (l : BitVec 4) (s : BitVec 4) (c : BitVec 4) (t : BitVec 4) (ct : Ctl)
  /-- `YIELD`, R91. -/
  | yield (ct : Ctl)
  /-- `SVC`, R353. -/
  | svc (u : BitVec 8) (ct : Ctl)
  /-- `TRAP`, R394. -/
  | trap (c : BitVec 16) (ct : Ctl)
  /-- `BAR`, R342. -/
  | bar (b : BitVec 2) (ct : Ctl)
  /-- `CAPR`, R187. -/
  | capr (d : BitVec 5) (c : BitVec 3) (f : BitVec 4) (ct : Ctl)
  /-- `CADD`, R186. -/
  | cadd (d : BitVec 3) (f : BitVec 3) (v : BitVec 5) (ct : Ctl)
  /-- `CBND`, R186. -/
  | cbnd (d : BitVec 3) (f : BitVec 3) (v : BitVec 5) (x : Bool) (ct : Ctl)
  /-- `CPRM`, R186. -/
  | cprm (d : BitVec 3) (f : BitVec 3) (m : BitVec 7) (ct : Ctl)
  /-- `CMOV`, R186. -/
  | cmov (d : BitVec 3) (f : BitVec 3) (ct : Ctl)
  /-- `CTST`, R188. -/
  | ctst (p : BitVec 4) (c : BitVec 3) (v : BitVec 5) (t : BitVec 4) (ct : Ctl)
  /-- `LDT`, R126. -/
  | ldt (d : BitVec 5) (c : BitVec 3) (m : BitVec 4) (k : BitVec 3) (l : Bool) (ct : Ctl)
  /-- `STT`, R127. -/
  | stt (s : BitVec 5) (c : BitVec 3) (m : BitVec 4) (k : BitVec 3) (t : Bool) (ct : Ctl)
  /-- `AADD`, R271. -/
  | aadd (d : BitVec 5) (c : BitVec 3) (s : BitVec 5) (o : BitVec 3) (ct : Ctl)
  /-- `AMIN`, R271. -/
  | amin (d : BitVec 5) (c : BitVec 3) (s : BitVec 5) (o : BitVec 3) (ct : Ctl)
  /-- `AMAX`, R271. -/
  | amax (d : BitVec 5) (c : BitVec 3) (s : BitVec 5) (o : BitVec 3) (ct : Ctl)
  /-- `AMINU`, R271. -/
  | aminu (d : BitVec 5) (c : BitVec 3) (s : BitVec 5) (o : BitVec 3) (ct : Ctl)
  /-- `AMAXU`, R271. -/
  | amaxu (d : BitVec 5) (c : BitVec 3) (s : BitVec 5) (o : BitVec 3) (ct : Ctl)
  /-- `AAND`, R271. -/
  | aand (d : BitVec 5) (c : BitVec 3) (s : BitVec 5) (o : BitVec 3) (ct : Ctl)
  /-- `AOR`, R271. -/
  | aor (d : BitVec 5) (c : BitVec 3) (s : BitVec 5) (o : BitVec 3) (ct : Ctl)
  /-- `AXOR`, R271. -/
  | axor (d : BitVec 5) (c : BitVec 3) (s : BitVec 5) (o : BitVec 3) (ct : Ctl)
  /-- `AXCHG`, R271. -/
  | axchg (d : BitVec 5) (c : BitVec 3) (s : BitVec 5) (o : BitVec 3) (ct : Ctl)
  /-- `ACAS`, R271. -/
  | acas (d : BitVec 5) (c : BitVec 3) (s : BitVec 5) (o : BitVec 3) (ct : Ctl)
  /-- `AFADD`, R271. -/
  | afadd (d : BitVec 5) (c : BitVec 3) (s : BitVec 5) (o : BitVec 3) (ct : Ctl)
  /-- `AADD_D`, R271. -/
  | aaddD (d : BitVec 5) (c : BitVec 3) (s : BitVec 5) (o : BitVec 3) (ct : Ctl)
  /-- `ACAS_D`, R271. -/
  | acasD (d : BitVec 5) (c : BitVec 3) (s : BitVec 5) (o : BitVec 3) (ct : Ctl)
  /-- `FENCE`, R274. -/
  | fence (o : BitVec 3) (k : BitVec 2) (ct : Ctl)
  /-- `CPY`, R275. -/
  | cpy (d : BitVec 3) (f : BitVec 3) (v : BitVec 5) (o : BitVec 3) (x : Bool) (ct : Ctl)
  /-- `TCPY`, R277. -/
  | tcpy (t : BitVec 3) (b : BitVec 3) (v : BitVec 5) (o : BitVec 3) (x : Bool) (ct : Ctl)
  /-- `AQRY`, R284. -/
  | aqry (d : BitVec 5) (c : BitVec 3) (ct : Ctl)
  /-- `AMAT`, R285. -/
  | amat (c : BitVec 3) (v : BitVec 5) (o : BitVec 3) (ct : Ctl)
  /-- `MMS`, R153. -/
  | mms (c : BitVec 3) (r : BitVec 2) (ct : Ctl)
  /-- `MMP`, R153. -/
  | mmp (c : BitVec 3) (r : BitVec 2) (ct : Ctl)
  /-- `RLD`, R159. -/
  | rld (d : BitVec 5) (o : BitVec 3) (v : BitVec 5) (ct : Ctl)
  /-- `RST`, R159. -/
  | rst (s : BitVec 5) (o : BitVec 3) (v : BitVec 5) (ct : Ctl)
  /-- `RREL`, R160. -/
  | rrel (ct : Ctl)
  /-- `REPI`, R162. -/
  | repi (c : BitVec 3) (ct : Ctl)
  /-- `RPOS`, R161. -/
  | rpos (d : BitVec 5) (ct : Ctl)
  /-- `RCLR`, R160. -/
  | rclr (ct : Ctl)
  /-- `BINIT`, R343. -/
  | binit (c : BitVec 3) (v : BitVec 5) (ct : Ctl)
  /-- `BARV`, R343. -/
  | barv (c : BitVec 3) (v : BitVec 5) (p : BitVec 4) (ct : Ctl)
  /-- `BEXP`, R343. -/
  | bexp (c : BitVec 3) (v : BitVec 5) (ct : Ctl)
  /-- `BWAIT`, R344. -/
  | bwait (c : BitVec 3) (v : BitVec 5) (p : BitVec 4) (t : BitVec 4) (ct : Ctl)
  /-- `BACQ`, R345. -/
  | bacq (c : BitVec 3) (d : BitVec 5) (ct : Ctl)
  /-- `BREL`, R345. -/
  | brel (c : BitVec 3) (d : BitVec 5) (ct : Ctl)
  /-- `BGET`, R345. -/
  | bget (c : BitVec 3) (d : BitVec 5) (ct : Ctl)
  /-- `BPUT`, R345. -/
  | bput (c : BitVec 3) (d : BitVec 5) (ct : Ctl)
  /-- `PSEND`, R346. -/
  | psend (r : BitVec 2) (v : BitVec 5) (ct : Ctl)
  /-- `PRECV`, R346. -/
  | precv (r : BitVec 2) (v : BitVec 5) (ct : Ctl)
  /-- `PSTAT`, R346. -/
  | pstat (r : BitVec 2) (v : BitVec 5) (ct : Ctl)
  /-- `FETCHW`, R351. -/
  | fetchw (c : BitVec 3) (v : BitVec 5) (ct : Ctl)
  /-- `TLAUNCH`, R348. -/
  | tlaunch (c : BitVec 3) (d : BitVec 5) (ct : Ctl)
  /-- `TRET`, R375. -/
  | tret (ct : Ctl)
  /-- `PARK`, R397. -/
  | park (ct : Ctl)
  /-- `CTXSV`, R399. -/
  | ctxsv (c : BitVec 3) (ct : Ctl)
  /-- `CTXLD`, R399. -/
  | ctxld (c : BitVec 3) (ct : Ctl)
  /-- `HALT`, R400. -/
  | halt (ct : Ctl)
  /-- `SWEEP`, R401. -/
  | sweep (c : BitVec 3) (ct : Ctl)
  /-- `SVCGET`, R402. -/
  | svcget (c : BitVec 3) (ct : Ctl)
  /-- `SVCPUT`, R402. -/
  | svcput (c : BitVec 3) (ct : Ctl)
  /-- `FLTRD`, R403. -/
  | fltrd (d : BitVec 5) (ct : Ctl)
  /-- `ISSUE_GRANT`, R302. -/
  | issueGrant (quarter : Nat)
  /-- `ISSUE_AGEING`, R302. -/
  | issueAgeing (thread : Nat)
  /-- `REGISTER_SPILL`, R304. -/
  | registerSpill (quarter crew : Nat)
  /-- `PARK_WAKE`, R36. -/
  | parkWake (thread : Nat)
  /-- `LOAD_DATA_RETURN`, R69. -/
  | loadDataReturn (op : Nat)
  /-- `STORE_PERFORMED`, R254. -/
  | storePerformed (op : Nat)
  /-- `LINE_FILL`, R254. -/
  | lineFill (unit line : Nat)
  /-- `WRITE_BACK`, R223. -/
  | writeBack (unit line : Nat)
  /-- `CLEAN_DISCARD`, R254. -/
  | cleanDiscard (unit line : Nat)
  /-- `ATOMIC_PERFORM`, R272. -/
  | atomicPerform (op : Nat)
  /-- `FENCE_COMPLETE`, R256. -/
  | fenceComplete (op : Nat)
  /-- `CFLUSH_COMPLETE`, R287. -/
  | cflushComplete (op : Nat)
  /-- `TLB_WALK_COMPLETE`, R220. -/
  | tlbWalkComplete (core task va : Nat)
  /-- `COPY_RECORDING`, R237. -/
  | copyRecording (op : Nat)
  /-- `EAGER_COPY`, R247. -/
  | eagerCopy (op : CopyTurn)
  /-- `FERRY_DELIVERY`, R282. -/
  | ferryDelivery (op team bytes : Nat)
  /-- `FERRY_BUFFER_PUT`, R328. -/
  | ferryBufferPut (op : Nat)
  /-- `HOT_LANDING`, R245. -/
  | hotLanding (entry : Nat)
  /-- `CHECKPOINT_LANDING`, R252. -/
  | checkpointLanding (world line : Nat)
  /-- `AMAT_LANDING`, R285. -/
  | amatLanding (op : Nat)
  /-- `AQRY_RESULT`, R284. -/
  | aqryResult (op : Nat)
  /-- `FRAME_EVICTION`, R218. -/
  | frameEviction (page : Nat)
  /-- `PAGE_REENCIPHER`, R219. -/
  | pageReencipher (page : Nat) (done : Bool)
  /-- `FRAME_SWEEP`, R203. -/
  | frameSweep (frame : Nat)
  /-- `REVOCATION_WALK`, R181. -/
  | revocationWalk (world : Nat)
  /-- `SWEEP_COMPLETE`, R182. -/
  | sweepComplete (world : Nat)
  /-- `MATRIX_GRANT`, R134. -/
  | matrixGrant (quad : Nat)
  /-- `MATRIX_ENTRY_AGEING`, R134. -/
  | matrixEntryAgeing (req : Nat)
  /-- `CURRENT_PERMIT`, R135. -/
  | currentPermit (site : PermitSite) (cycles : Nat)
  /-- `OPERANDS_CONSUMED`, R156. -/
  | operandsConsumed (req : OperandTurn)
  /-- `MATRIX_REQUEST_COMPLETE`, R156. -/
  | matrixRequestComplete (req : Nat)
  /-- `EPILOGUE`, R146. -/
  | epilogue (req : Nat)
  /-- `RREL_EFFECT`, R160. -/
  | rrelEffect (req : Nat)
  /-- `RCLR_EFFECT`, R160. -/
  | rclrEffect (req : Nat)
  /-- `MATRIX_OPERAND_FAULT`, R151. -/
  | matrixOperandFault (req : Nat)
  /-- `BWAIT_TIMEOUT`, R321. -/
  | bwaitTimeout (thread : Nat)
  /-- `PORT_ENTRY_ARRIVAL`, R332. -/
  | portEntryArrival (thread : Nat) (dir : BitVec 2)
  /-- `SVC_BATCH_SEND`, R353. -/
  | svcBatchSend (batch : Nat)
  /-- `TLAUNCH_SUBMIT`, R348. -/
  | tlaunchSubmit (op : Nat)
  /-- `FETCHW_REGISTERED`, R351. -/
  | fetchwRegistered (thread : Nat)
  /-- `FETCHW_ANSWER`, R312. -/
  | fetchwAnswer (request : Nat)
  /-- `WINDOW_ENTRY`, R308. -/
  | windowEntry (queue : Nat)
  /-- `LEASE_ESTABLISH`, R211. -/
  | leaseEstablish (task : Nat)
  /-- `PLACE_GANG`, R310. -/
  | placeGang (world : Nat)
  /-- `PREEMPT`, R432. -/
  | preempt (gang : Nat) (why : PreemptWhy)
  /-- `COOPERATIVE_SAVE_DONE`, R382. -/
  | cooperativeSaveDone (gang : Nat)
  /-- `HARDWARE_SAVE`, R384. -/
  | hardwareSave (gang : Nat)
  /-- `SWAP_OUT`, R314. -/
  | swapOut (gang : Nat)
  /-- `SWAP_WAKE`, R314. -/
  | swapWake (gang : Nat)
  /-- `TEAM_RETIRE`, R305. -/
  | teamRetire (gang team : Nat)
  /-- `GANG_RETIRE`, R305. -/
  | gangRetire (gang : Nat)
  /-- `TASK_COMPLETION`, R306. -/
  | taskCompletion (task : Nat)
  /-- `TASK_END`, R379. -/
  | taskEnd (task : Nat) (code : EndCode)
  /-- `SHOOTDOWN`, R215. -/
  | shootdown (world page : Nat)
  /-- `STOP_INTERFACE`, R198. -/
  | stopInterface (world : Nat)
  /-- `GRACE_EXPIRY`, R216. -/
  | graceExpiry (extent : Nat)
  /-- `CHECKPOINT_TIMER`, R390. -/
  | checkpointTimer (world : Nat)
  /-- `CHECKPOINT_STEP_COUNT`, R390. -/
  | checkpointStepCount (world : Nat)
  /-- `CHECKPOINT`, R391. -/
  | checkpoint (world : Nat)
  /-- `SNAPSHOT_DURABLE`, R391. -/
  | snapshotDurable (world : Nat)
  /-- `RESTORE`, R392. -/
  | restore (world : Nat)
  /-- `RETRAIN_TIMER`, R411. -/
  | retrainTimer (chan : Nat)
  /-- `DEVICE_RESET`, R410. -/
  | deviceReset (report : BootReport)
  /-- `FEATACCEPT_WRITE`, R412. -/
  | featacceptWrite (value : BitVec 128) (frameN : Nat)
  /-- `NOTIFY_WRITE`, R414. -/
  | notifyWrite (world queue : Nat) (tail : BitVec 16)
  /-- `LOCK_INTERFACE`, R198. -/
  | lockInterface (world : Nat)
  /-- `START_INTERFACE`, R198. -/
  | startInterface (world : Nat)
  /-- `CONFIG_WRITE`, R198. -/
  | configWrite (world : Nat) (field : CfgField)
  /-- `LOCKED_REGISTER_WRITE`, R199. -/
  | lockedRegisterWrite (world : Nat)
  /-- `QUEUE_SETTINGS_WRITE`, R311. -/
  | queueSettingsWrite (world queue : Nat) (value : BitVec 128)
  /-- `CKPTCTL_WRITE`, R390. -/
  | ckptctlWrite (world : Nat) (value : BitVec 32)
  /-- `REGISTER_WRITE`, R3. -/
  | registerWrite (world : Nat) (reg : RegName) (value : BitVec 32)
  /-- `FRAME_ASSIGN`, R197. -/
  | frameAssign (world frame : Nat)
  /-- `FRAME_RETURN`, R203. -/
  | frameReturn (world frame : Nat)
  /-- `EXTENT_ADD`, R409. -/
  | extentAdd (world base size : Nat)
  /-- `EXTENT_REVOKE`, R216. -/
  | extentRevoke (extent grace : Nat)
  /-- `HOST_ACCESS`, R262. -/
  | hostAccess (access : HostAccess)
  /-- `CHANNEL_KEYING`, R205. -/
  | channelKeying (world chan : Nat)
  /-- `CHANNEL_BLOCK`, R205. -/
  | channelBlock (world chan : Nat) (block : IdeBlock)
  /-- `ERROR_THRESHOLD_WARNING`, R390. -/
  | errorThresholdWarning (unit : UnitKind) (index : Nat)
  /-- `UNCORRECTABLE_ERROR`, R387. -/
  | uncorrectableError (site : ErrSite)
  /-- `CORRECTABLE_ERROR`, R387. -/
  | correctableError (unit : UnitKind) (index : Nat)
  /-- `SERVICE_LINE_POISON`, R389. -/
  | serviceLinePoison (world : Nat)
  /-- `FIRMWARE_UPDATE`, R393. -/
  | firmwareUpdate (image : Nat) (verifies : Bool)
  /-- `UNASSIGNED_FUNCTION_CODE`, R42. -/
  | unassignedFunctionCode (word : BitVec 32)
  /-- `ILLEGAL_RUN`, R35. -/
  | illegalRun (word : BitVec 32)
  /-- `FIRMWARE_DOORBELL`, R400. -/
  | firmwareDoorbell (die : Nat)
  deriving DecidableEq, Repr

end Sys2Proof
end

