-- ==== Sys2Proof/WellFormed.lean ====
section
/-! DEFINITION. What a well-formed instruction is: the field values that the opcode map assigns (step 3 of R56) and END
where R35 and R50 require it (step 4 of R56). -/

namespace Sys2Proof

namespace WellFormed

/-- The guard fields: with G = 0, N and GP are 0 (R27). -/
def guard (c : Ctl) : Bool := c.g || (!c.n && c.gp == 0)

/-- A pair field holds an even number (R29). -/
def even (r : BitVec 5) : Bool := r.toNat % 2 == 0

/-- A group of `n` consecutive registers does not pass `v31` (R29). -/
def fits (r : BitVec 5) (n : Nat) : Bool := decide (r.toNat + n ≤ 32)

/-- A SCOPE field holds 0 to 5 (R49). -/
def scope (s : BitVec 3) : Bool := decide (s.toNat ≤ 5)

/-- The destination and source groups of each `fcvt` selector (R44); a pair is even, a group of n does not pass v31. -/
def fcvtGroups (s d a : BitVec 5) : Bool :=
  match s.toNat with
  | 0 | 1 | 2 | 3 | 8 | 9 | 10 | 11 => true
  | 4 | 7 => even a
  | 5 | 6 => even d
  | 12 | 13 => even a
  | 14 | 15 | 16 | 17 | 22 => fits a 4
  | 18 | 19 | 23 => fits d 4
  | 20 => fits a 5
  | 21 => fits d 5
  | _ => false

/-- The FMT and SCL fields of `tag` (R53). -/
def tagField (f : BitVec 4) (k : BitVec 7) : Bool :=
  decide (f.toNat ≤ 10) && (decide (6 ≤ f.toNat) || k == 0)

/-- The legal pairs of MF and CV of a typed access (R51). -/
def typed (m : BitVec 4) (k : BitVec 3) : Bool :=
  decide (1 ≤ m.toNat) && decide (m.toNat ≤ 10) &&
  (match k.toNat with
   | 0 => decide (m.toNat ≤ 8)
   | 1 | 2 | 3 => true
   | 4 => m == 1 || m == 2 || m == 9 || m == 10
   | _ => false)

/-- The number of elements in a 32-bit word of memory format MF (R125). -/
def typedCount (m : BitVec 4) : Nat :=
  match m.toNat with
  | 1 | 2 | 3 | 4 => 4
  | 5 => 5
  | 6 | 7 | 9 | 10 => 2
  | _ => 1

/-- The registers of a typed access (R125): one for CV 0, one per element for CV 1 and 4, one per two elements for CV 2
and 3. -/
def typedGroup (m : BitVec 4) (k : BitVec 3) : Nat :=
  match k.toNat with
  | 0 => 1
  | 2 | 3 => (typedCount m + 1) / 2
  | _ => typedCount m

/-- SAT = 1 is legal only with an FP8 memory format and CV 1 to 3 (R51). -/
def satField (m : BitVec 4) (k : BitVec 3) (t : Bool) : Bool :=
  !t || ((m == 3 || m == 4) && (k == 1 || k == 2 || k == 3))

/-- Step 3 of R56 without the feature gate: every field holds a value the opcode map assigns. -/
def fields : Instr → Bool
  | .add _ _ _ _ ct => guard ct
  | .sub _ _ _ _ ct => guard ct
  | .mul _ _ _ _ ct => guard ct
  | .mulh _ _ _ _ ct => guard ct
  | .mulhu _ _ _ _ ct => guard ct
  | .mad _ _ _ _ ct => guard ct
  | .min _ _ _ _ ct => guard ct
  | .max _ _ _ _ ct => guard ct
  | .minu _ _ _ _ ct => guard ct
  | .maxu _ _ _ _ ct => guard ct
  | .and _ _ _ _ ct => guard ct
  | .or _ _ _ _ ct => guard ct
  | .xor _ _ _ _ ct => guard ct
  | .andn _ _ _ _ ct => guard ct
  | .shl _ _ _ _ ct => guard ct
  | .shr _ _ _ _ ct => guard ct
  | .sra _ _ _ _ ct => guard ct
  | .rotl _ _ _ _ ct => guard ct
  | .popc _ _ _ ct => guard ct
  | .clz _ _ _ ct => guard ct
  | .brev _ _ _ ct => guard ct
  | .adds _ _ _ _ ct => guard ct
  | .subs _ _ _ _ ct => guard ct
  | .absd _ _ _ _ ct => guard ct
  | .bfx _ _ _ _ ct => guard ct
  | .bfi _ _ _ _ ct => guard ct
  | .mov _ _ _ ct => guard ct
  | .shfl _ _ _ _ ct => guard ct
  | .ballot _ _ _ ct => guard ct
  | .mov16 d s e => d ≠ 0 || s ≠ 0 || e
  | .fadd _ _ _ _ ct => guard ct
  | .fsub _ _ _ _ ct => guard ct
  | .fmul _ _ _ _ ct => guard ct
  | .ffma _ _ _ _ ct => guard ct
  | .fmin _ _ _ _ ct => guard ct
  | .fmax _ _ _ _ ct => guard ct
  | .fdiv _ _ _ _ ct => guard ct
  | .fsqrt _ _ _ ct => guard ct
  | .dadd d a s _ ct => guard ct && even d && even a && even s
  | .dsub d a s _ ct => guard ct && even d && even a && even s
  | .dmul d a s _ ct => guard ct && even d && even a && even s
  | .dfma d a s _ ct => guard ct && even d && even a && even s
  | .dmin d a s _ ct => guard ct && even d && even a && even s
  | .dmax d a s _ ct => guard ct && even d && even a && even s
  | .ddiv d a s _ ct => guard ct && even d && even a && even s
  | .dsqrt d a _ ct => guard ct && even d && even a
  | .hadd _ _ _ _ ct => guard ct
  | .hsub _ _ _ _ ct => guard ct
  | .hmul _ _ _ _ ct => guard ct
  | .hfma _ _ _ _ ct => guard ct
  | .hmin _ _ _ _ ct => guard ct
  | .hmax _ _ _ _ ct => guard ct
  | .fcvt d a s _ ct => guard ct && fcvtGroups s d a
  | .fcpys _ _ _ _ ct => guard ct
  | .fneg _ _ _ ct => guard ct
  | .fabs _ _ _ ct => guard ct
  | .lmul _ _ _ _ ct => guard ct
  | .ldot _ _ _ _ ct => guard ct
  | .fclass _ _ _ ct => guard ct
  | .frnd _ _ m _ ct => guard ct && m.toNat ≤ 4
  | .addi _ _ _ ct => guard ct
  | .andi _ _ _ ct => guard ct
  | .ori _ _ _ ct => guard ct
  | .xori _ _ _ ct => guard ct
  | .shli _ _ _ ct => guard ct
  | .shri _ _ _ ct => guard ct
  | .srai _ _ _ ct => guard ct
  | .muli _ _ _ ct => guard ct
  | .movi _ _ ct => guard ct
  | .movhi _ _ ct => guard ct
  | .ldb _ _ _ _ ct => guard ct
  | .ldbu _ _ _ _ ct => guard ct
  | .ldh _ _ _ _ ct => guard ct
  | .ldhu _ _ _ _ ct => guard ct
  | .ldw _ _ _ _ ct => guard ct
  | .ldd d _ _ _ ct => guard ct && even d
  | .stb _ _ _ _ ct => guard ct
  | .sth _ _ _ _ ct => guard ct
  | .stw _ _ _ _ ct => guard ct
  | .std d _ _ _ ct => guard ct && even d
  | .ldc d _ _ _ ct => guard ct && d.toNat % 4 = 0
  | .stc d _ _ _ ct => guard ct && d.toNat % 4 = 0
  | .pref h _ _ _ ct => guard ct && h.toNat ≤ 3
  | .cflush p _ s _ ct => guard ct && p.toNat ≤ 2 && scope s
  | .cmpeq _ _ _ m ct => guard ct && m.toNat ≠ 3
  | .cmpne _ _ _ m ct => guard ct && m.toNat ≠ 3
  | .cmplt _ _ _ m ct => guard ct && m.toNat ≠ 3
  | .cmple _ _ _ m ct => guard ct && m.toNat ≠ 3
  | .cmpltu _ _ _ m ct => guard ct && m.toNat ≠ 3
  | .cmpleu _ _ _ m ct => guard ct && m.toNat ≠ 3
  | .fcmpeq _ _ _ m ct => guard ct && m.toNat ≠ 3
  | .fcmplt _ _ _ m ct => guard ct && m.toNat ≠ 3
  | .fcmple _ _ _ m ct => guard ct && m.toNat ≠ 3
  | .fcmpun _ _ _ m ct => guard ct && m.toNat ≠ 3
  | .pset _ _ _ _ ct => guard ct
  | .pmov _ _ ct => guard ct
  | .bra _ ct => guard ct
  | .call _ ct => guard ct
  | .jmpr _ ct => guard ct
  | .exit ct => guard ct
  | .nop ct => guard ct
  | .rdsr _ _ ct => guard ct
  | .wrsr _ _ ct => guard ct
  | .tag _ f k ct => guard ct && tagField f k
  | .tagrd _ _ ct => guard ct
  | .wait _ _ _ _ ct => guard ct
  | .yield ct => guard ct
  | .svc _ ct => guard ct
  | .trap _ ct => guard ct
  | .bar b ct => guard ct && b.toNat ≤ 1
  | .capr _ _ f ct => guard ct && f.toNat ≤ 8
  | .cadd _ _ _ ct => guard ct
  | .cbnd _ _ _ _ ct => guard ct
  | .cprm _ _ _ ct => guard ct
  | .cmov _ _ ct => guard ct
  | .ctst _ _ _ t ct => guard ct && t.toNat ≤ 4
  | .ldt d _ m k _ ct => guard ct && typed m k && fits d (typedGroup m k)
  | .stt s _ m k t ct => guard ct && typed m k && fits s (typedGroup m k) && satField m k t
  | .aadd _ _ _ o ct => guard ct && scope o
  | .amin _ _ _ o ct => guard ct && scope o
  | .amax _ _ _ o ct => guard ct && scope o
  | .aminu _ _ _ o ct => guard ct && scope o
  | .amaxu _ _ _ o ct => guard ct && scope o
  | .aand _ _ _ o ct => guard ct && scope o
  | .aor _ _ _ o ct => guard ct && scope o
  | .axor _ _ _ o ct => guard ct && scope o
  | .axchg _ _ _ o ct => guard ct && scope o
  | .acas _ _ _ o ct => guard ct && scope o
  | .afadd _ _ _ o ct => guard ct && scope o
  | .aaddD d _ s o ct => guard ct && scope o && even d && even s
  | .acasD d _ s o ct => guard ct && scope o && even d && even s
  | .fence o k ct => guard ct && scope o && (k.toNat ≠ 3 || o.toNat = 1)
  | .cpy _ _ _ o _ ct => guard ct && scope o
  | .tcpy _ _ v o _ ct => guard ct && scope o && fits v 4
  | .aqry _ _ ct => guard ct
  | .amat _ _ o ct => guard ct && scope o
  | .mms _ _ ct => guard ct
  | .mmp _ _ ct => guard ct
  | .rld _ _ _ ct => guard ct
  | .rst _ _ _ ct => guard ct
  | .rrel ct => guard ct
  | .repi _ ct => guard ct
  | .rpos _ ct => guard ct
  | .rclr ct => guard ct
  | .binit _ _ ct => guard ct
  | .barv _ _ _ ct => guard ct
  | .bexp _ _ ct => guard ct
  | .bwait _ _ _ _ ct => guard ct
  | .bacq _ _ ct => guard ct
  | .brel _ _ ct => guard ct
  | .bget _ _ ct => guard ct
  | .bput _ _ ct => guard ct
  | .psend _ _ ct => guard ct
  | .precv _ _ ct => guard ct
  | .pstat _ _ ct => guard ct
  | .fetchw _ v ct => guard ct && even v
  | .tlaunch _ d ct => guard ct && even d
  | .tret ct => guard ct
  | .park ct => guard ct
  | .ctxsv _ ct => guard ct
  | .ctxld _ ct => guard ct
  | .halt ct => guard ct
  | .sweep _ ct => guard ct
  | .svcget _ ct => guard ct
  | .svcput _ ct => guard ct
  | .fltrd _ ct => guard ct
  | _ => true

/-- Step 4 of R56: the instructions of R35 carry END. -/
def ending : Instr → Bool
  | .bra _ ct => ct.e
  | .call _ ct => ct.e
  | .jmpr _ ct => ct.e
  | .exit ct => ct.e
  | .wait _ _ _ _ ct => ct.e
  | .yield ct => ct.e
  | .bar _ ct => ct.e
  | .bwait _ _ _ _ ct => ct.e
  | .trap _ ct => ct.e
  | .svc _ ct => ct.e
  | .fetchw _ _ ct => ct.e
  | .tlaunch _ _ ct => ct.e
  | .tret ct => ct.e
  | .park ct => ct.e
  | .halt ct => ct.e
  | _ => true

/-- The words that the L6 feature gates (R54). -/
def l6Gated : Instr → Bool
  | .lmul _ _ _ _ _ => true
  | .ldot _ _ _ _ _ => true
  | .fcvt _ _ s _ _ => s == 20 || s == 21
  | .ldt _ _ m _ _ _ => m == 5
  | .stt _ _ m _ _ _ => m == 5
  | _ => false

end WellFormed

/-- A well-formed instruction: assigned field values, and END where it is required. -/
def wellFormed (i : Instr) : Bool := WellFormed.fields i && WellFormed.ending i

end Sys2Proof
end

