-- ==== Sys2Proof/Decode.lean ====
section
/-! DEFINITION. The decoder, total on any bytes, and after it the encoder, both written from the encoding tables of
spec/03_formats.md and spec/04_opcode_map.md (R22 to R29, R42 to R51, R56). -/

namespace Sys2Proof

/-- The two decode faults of R56 and, for the byte decoder, too few bytes. -/
inductive DecodeFault where
  | illegalOp | illegalRun | short
  deriving DecidableEq, Repr

namespace Decode

/-- The common fields of a 32-bit word, R27. -/
def ctlOf (w : BitVec 32) : Ctl :=
  ⟨w.extractLsb' 4 4, w.getLsbD 3, w.getLsbD 2, w.getLsbD 1⟩

/-- A word whose must-be-zero bits are zero decodes; any other is refused (R28). -/
def zeroIn (ok : Bool) (i : Instr) : Option Instr := if ok then some i else none

/-- Class 0, integer, R43. -/
def rawInt (w : BitVec 32) : Option Instr :=
  match (w.extractLsb' 24 5).toNat with
  | 0 => some (.add (w.extractLsb' 19 5) (w.extractLsb' 14 5) (w.extractLsb' 9 5) (w.getLsbD 8) (ctlOf w))
  | 1 => some (.sub (w.extractLsb' 19 5) (w.extractLsb' 14 5) (w.extractLsb' 9 5) (w.getLsbD 8) (ctlOf w))
  | 2 => some (.mul (w.extractLsb' 19 5) (w.extractLsb' 14 5) (w.extractLsb' 9 5) (w.getLsbD 8) (ctlOf w))
  | 3 => some (.mulh (w.extractLsb' 19 5) (w.extractLsb' 14 5) (w.extractLsb' 9 5) (w.getLsbD 8) (ctlOf w))
  | 4 => some (.mulhu (w.extractLsb' 19 5) (w.extractLsb' 14 5) (w.extractLsb' 9 5) (w.getLsbD 8) (ctlOf w))
  | 5 => some (.mad (w.extractLsb' 19 5) (w.extractLsb' 14 5) (w.extractLsb' 9 5) (w.getLsbD 8) (ctlOf w))
  | 6 => some (.min (w.extractLsb' 19 5) (w.extractLsb' 14 5) (w.extractLsb' 9 5) (w.getLsbD 8) (ctlOf w))
  | 7 => some (.max (w.extractLsb' 19 5) (w.extractLsb' 14 5) (w.extractLsb' 9 5) (w.getLsbD 8) (ctlOf w))
  | 8 => some (.minu (w.extractLsb' 19 5) (w.extractLsb' 14 5) (w.extractLsb' 9 5) (w.getLsbD 8) (ctlOf w))
  | 9 => some (.maxu (w.extractLsb' 19 5) (w.extractLsb' 14 5) (w.extractLsb' 9 5) (w.getLsbD 8) (ctlOf w))
  | 10 => some (.and (w.extractLsb' 19 5) (w.extractLsb' 14 5) (w.extractLsb' 9 5) (w.getLsbD 8) (ctlOf w))
  | 11 => some (.or (w.extractLsb' 19 5) (w.extractLsb' 14 5) (w.extractLsb' 9 5) (w.getLsbD 8) (ctlOf w))
  | 12 => some (.xor (w.extractLsb' 19 5) (w.extractLsb' 14 5) (w.extractLsb' 9 5) (w.getLsbD 8) (ctlOf w))
  | 13 => some (.andn (w.extractLsb' 19 5) (w.extractLsb' 14 5) (w.extractLsb' 9 5) (w.getLsbD 8) (ctlOf w))
  | 14 => some (.shl (w.extractLsb' 19 5) (w.extractLsb' 14 5) (w.extractLsb' 9 5) (w.getLsbD 8) (ctlOf w))
  | 15 => some (.shr (w.extractLsb' 19 5) (w.extractLsb' 14 5) (w.extractLsb' 9 5) (w.getLsbD 8) (ctlOf w))
  | 16 => some (.sra (w.extractLsb' 19 5) (w.extractLsb' 14 5) (w.extractLsb' 9 5) (w.getLsbD 8) (ctlOf w))
  | 17 => some (.rotl (w.extractLsb' 19 5) (w.extractLsb' 14 5) (w.extractLsb' 9 5) (w.getLsbD 8) (ctlOf w))
  | 18 => zeroIn (w.extractLsb' 9 5 == 0#5) (.popc (w.extractLsb' 19 5) (w.extractLsb' 14 5) (w.getLsbD 8) (ctlOf w))
  | 19 => zeroIn (w.extractLsb' 9 5 == 0#5) (.clz (w.extractLsb' 19 5) (w.extractLsb' 14 5) (w.getLsbD 8) (ctlOf w))
  | 20 => zeroIn (w.extractLsb' 9 5 == 0#5) (.brev (w.extractLsb' 19 5) (w.extractLsb' 14 5) (w.getLsbD 8) (ctlOf w))
  | 21 => some (.adds (w.extractLsb' 19 5) (w.extractLsb' 14 5) (w.extractLsb' 9 5) (w.getLsbD 8) (ctlOf w))
  | 22 => some (.subs (w.extractLsb' 19 5) (w.extractLsb' 14 5) (w.extractLsb' 9 5) (w.getLsbD 8) (ctlOf w))
  | 23 => some (.absd (w.extractLsb' 19 5) (w.extractLsb' 14 5) (w.extractLsb' 9 5) (w.getLsbD 8) (ctlOf w))
  | 24 => some (.bfx (w.extractLsb' 19 5) (w.extractLsb' 14 5) (w.extractLsb' 9 5) (w.getLsbD 8) (ctlOf w))
  | 25 => some (.bfi (w.extractLsb' 19 5) (w.extractLsb' 14 5) (w.extractLsb' 9 5) (w.getLsbD 8) (ctlOf w))
  | 26 => zeroIn (w.extractLsb' 9 5 == 0#5) (.mov (w.extractLsb' 19 5) (w.extractLsb' 14 5) (w.getLsbD 8) (ctlOf w))
  | 27 => some (.shfl (w.extractLsb' 19 5) (w.extractLsb' 14 5) (w.extractLsb' 9 5) (w.getLsbD 8) (ctlOf w))
  | 28 => zeroIn (w.extractLsb' 9 5 == 0#5) (.ballot (w.extractLsb' 19 5) (w.extractLsb' 14 5) (w.getLsbD 8) (ctlOf w))
  | _ => none

/-- Class 1, floating point, R44. -/
def rawFloat (w : BitVec 32) : Option Instr :=
  match (w.extractLsb' 24 5).toNat with
  | 0 => some (.fadd (w.extractLsb' 19 5) (w.extractLsb' 14 5) (w.extractLsb' 9 5) (w.getLsbD 8) (ctlOf w))
  | 1 => some (.fsub (w.extractLsb' 19 5) (w.extractLsb' 14 5) (w.extractLsb' 9 5) (w.getLsbD 8) (ctlOf w))
  | 2 => some (.fmul (w.extractLsb' 19 5) (w.extractLsb' 14 5) (w.extractLsb' 9 5) (w.getLsbD 8) (ctlOf w))
  | 3 => some (.ffma (w.extractLsb' 19 5) (w.extractLsb' 14 5) (w.extractLsb' 9 5) (w.getLsbD 8) (ctlOf w))
  | 4 => some (.fmin (w.extractLsb' 19 5) (w.extractLsb' 14 5) (w.extractLsb' 9 5) (w.getLsbD 8) (ctlOf w))
  | 5 => some (.fmax (w.extractLsb' 19 5) (w.extractLsb' 14 5) (w.extractLsb' 9 5) (w.getLsbD 8) (ctlOf w))
  | 6 => some (.fdiv (w.extractLsb' 19 5) (w.extractLsb' 14 5) (w.extractLsb' 9 5) (w.getLsbD 8) (ctlOf w))
  | 7 => zeroIn (w.extractLsb' 9 5 == 0#5) (.fsqrt (w.extractLsb' 19 5) (w.extractLsb' 14 5) (w.getLsbD 8) (ctlOf w))
  | 8 => some (.dadd (w.extractLsb' 19 5) (w.extractLsb' 14 5) (w.extractLsb' 9 5) (w.getLsbD 8) (ctlOf w))
  | 9 => some (.dsub (w.extractLsb' 19 5) (w.extractLsb' 14 5) (w.extractLsb' 9 5) (w.getLsbD 8) (ctlOf w))
  | 10 => some (.dmul (w.extractLsb' 19 5) (w.extractLsb' 14 5) (w.extractLsb' 9 5) (w.getLsbD 8) (ctlOf w))
  | 11 => some (.dfma (w.extractLsb' 19 5) (w.extractLsb' 14 5) (w.extractLsb' 9 5) (w.getLsbD 8) (ctlOf w))
  | 12 => some (.dmin (w.extractLsb' 19 5) (w.extractLsb' 14 5) (w.extractLsb' 9 5) (w.getLsbD 8) (ctlOf w))
  | 13 => some (.dmax (w.extractLsb' 19 5) (w.extractLsb' 14 5) (w.extractLsb' 9 5) (w.getLsbD 8) (ctlOf w))
  | 14 => some (.ddiv (w.extractLsb' 19 5) (w.extractLsb' 14 5) (w.extractLsb' 9 5) (w.getLsbD 8) (ctlOf w))
  | 15 => zeroIn (w.extractLsb' 9 5 == 0#5) (.dsqrt (w.extractLsb' 19 5) (w.extractLsb' 14 5) (w.getLsbD 8) (ctlOf w))
  | 16 => some (.hadd (w.extractLsb' 19 5) (w.extractLsb' 14 5) (w.extractLsb' 9 5) (w.getLsbD 8) (ctlOf w))
  | 17 => some (.hsub (w.extractLsb' 19 5) (w.extractLsb' 14 5) (w.extractLsb' 9 5) (w.getLsbD 8) (ctlOf w))
  | 18 => some (.hmul (w.extractLsb' 19 5) (w.extractLsb' 14 5) (w.extractLsb' 9 5) (w.getLsbD 8) (ctlOf w))
  | 19 => some (.hfma (w.extractLsb' 19 5) (w.extractLsb' 14 5) (w.extractLsb' 9 5) (w.getLsbD 8) (ctlOf w))
  | 20 => some (.hmin (w.extractLsb' 19 5) (w.extractLsb' 14 5) (w.extractLsb' 9 5) (w.getLsbD 8) (ctlOf w))
  | 21 => some (.hmax (w.extractLsb' 19 5) (w.extractLsb' 14 5) (w.extractLsb' 9 5) (w.getLsbD 8) (ctlOf w))
  | 22 => some (.fcvt (w.extractLsb' 19 5) (w.extractLsb' 14 5) (w.extractLsb' 9 5) (w.getLsbD 8) (ctlOf w))
  | 23 => some (.fcpys (w.extractLsb' 19 5) (w.extractLsb' 14 5) (w.extractLsb' 9 5) (w.getLsbD 8) (ctlOf w))
  | 24 => zeroIn (w.extractLsb' 9 5 == 0#5) (.fneg (w.extractLsb' 19 5) (w.extractLsb' 14 5) (w.getLsbD 8) (ctlOf w))
  | 25 => zeroIn (w.extractLsb' 9 5 == 0#5) (.fabs (w.extractLsb' 19 5) (w.extractLsb' 14 5) (w.getLsbD 8) (ctlOf w))
  | 26 => some (.lmul (w.extractLsb' 19 5) (w.extractLsb' 14 5) (w.extractLsb' 9 5) (w.getLsbD 8) (ctlOf w))
  | 27 => some (.ldot (w.extractLsb' 19 5) (w.extractLsb' 14 5) (w.extractLsb' 9 5) (w.getLsbD 8) (ctlOf w))
  | 28 => zeroIn (w.extractLsb' 9 5 == 0#5) (.fclass (w.extractLsb' 19 5) (w.extractLsb' 14 5) (w.getLsbD 8) (ctlOf w))
  | 29 => some (.frnd (w.extractLsb' 19 5) (w.extractLsb' 14 5) (w.extractLsb' 9 5) (w.getLsbD 8) (ctlOf w))
  | _ => none

/-- Class 2, immediates, R45. -/
def rawImm (w : BitVec 32) : Option Instr :=
  match (w.extractLsb' 26 3).toNat with
  | 0 => some (.addi (w.extractLsb' 21 5) (w.extractLsb' 16 5) (w.extractLsb' 8 8) (ctlOf w))
  | 1 => some (.andi (w.extractLsb' 21 5) (w.extractLsb' 16 5) (w.extractLsb' 8 8) (ctlOf w))
  | 2 => some (.ori (w.extractLsb' 21 5) (w.extractLsb' 16 5) (w.extractLsb' 8 8) (ctlOf w))
  | 3 => some (.xori (w.extractLsb' 21 5) (w.extractLsb' 16 5) (w.extractLsb' 8 8) (ctlOf w))
  | 4 => some (.shli (w.extractLsb' 21 5) (w.extractLsb' 16 5) (w.extractLsb' 8 8) (ctlOf w))
  | 5 => some (.shri (w.extractLsb' 21 5) (w.extractLsb' 16 5) (w.extractLsb' 8 8) (ctlOf w))
  | 6 => some (.srai (w.extractLsb' 21 5) (w.extractLsb' 16 5) (w.extractLsb' 8 8) (ctlOf w))
  | 7 => some (.muli (w.extractLsb' 21 5) (w.extractLsb' 16 5) (w.extractLsb' 8 8) (ctlOf w))
  | _ => none

/-- Class 5, memory, R46. -/
def rawMem (w : BitVec 32) : Option Instr :=
  match (w.extractLsb' 25 4).toNat with
  | 0 => some (.ldb (w.extractLsb' 20 5) (w.extractLsb' 17 3) (w.extractLsb' 9 8) (w.getLsbD 8) (ctlOf w))
  | 1 => some (.ldbu (w.extractLsb' 20 5) (w.extractLsb' 17 3) (w.extractLsb' 9 8) (w.getLsbD 8) (ctlOf w))
  | 2 => some (.ldh (w.extractLsb' 20 5) (w.extractLsb' 17 3) (w.extractLsb' 9 8) (w.getLsbD 8) (ctlOf w))
  | 3 => some (.ldhu (w.extractLsb' 20 5) (w.extractLsb' 17 3) (w.extractLsb' 9 8) (w.getLsbD 8) (ctlOf w))
  | 4 => some (.ldw (w.extractLsb' 20 5) (w.extractLsb' 17 3) (w.extractLsb' 9 8) (w.getLsbD 8) (ctlOf w))
  | 5 => some (.ldd (w.extractLsb' 20 5) (w.extractLsb' 17 3) (w.extractLsb' 9 8) (w.getLsbD 8) (ctlOf w))
  | 6 => some (.stb (w.extractLsb' 20 5) (w.extractLsb' 17 3) (w.extractLsb' 9 8) (w.getLsbD 8) (ctlOf w))
  | 7 => some (.sth (w.extractLsb' 20 5) (w.extractLsb' 17 3) (w.extractLsb' 9 8) (w.getLsbD 8) (ctlOf w))
  | 8 => some (.stw (w.extractLsb' 20 5) (w.extractLsb' 17 3) (w.extractLsb' 9 8) (w.getLsbD 8) (ctlOf w))
  | 9 => some (.std (w.extractLsb' 20 5) (w.extractLsb' 17 3) (w.extractLsb' 9 8) (w.getLsbD 8) (ctlOf w))
  | 10 => some (.ldc (w.extractLsb' 20 5) (w.extractLsb' 17 3) (w.extractLsb' 9 8) (w.getLsbD 8) (ctlOf w))
  | 11 => some (.stc (w.extractLsb' 20 5) (w.extractLsb' 17 3) (w.extractLsb' 9 8) (w.getLsbD 8) (ctlOf w))
  | 12 => some (.pref (w.extractLsb' 20 5) (w.extractLsb' 17 3) (w.extractLsb' 9 8) (w.getLsbD 8) (ctlOf w))
  | 13 => zeroIn (w.extractLsb' 12 5 == 0#5) (.cflush (w.extractLsb' 20 5) (w.extractLsb' 17 3) (w.extractLsb' 9 3) (w.getLsbD 8) (ctlOf w))
  | _ => none

/-- Class 6, the X group, R47, R48. -/
def rawX (w : BitVec 32) : Option Instr :=
  match (w.extractLsb' 24 5).toNat with
  | 0 => some (.cmpeq (w.extractLsb' 20 4) (w.extractLsb' 15 5) (w.extractLsb' 10 5) (w.extractLsb' 8 2) (ctlOf w))
  | 1 => some (.cmpne (w.extractLsb' 20 4) (w.extractLsb' 15 5) (w.extractLsb' 10 5) (w.extractLsb' 8 2) (ctlOf w))
  | 2 => some (.cmplt (w.extractLsb' 20 4) (w.extractLsb' 15 5) (w.extractLsb' 10 5) (w.extractLsb' 8 2) (ctlOf w))
  | 3 => some (.cmple (w.extractLsb' 20 4) (w.extractLsb' 15 5) (w.extractLsb' 10 5) (w.extractLsb' 8 2) (ctlOf w))
  | 4 => some (.cmpltu (w.extractLsb' 20 4) (w.extractLsb' 15 5) (w.extractLsb' 10 5) (w.extractLsb' 8 2) (ctlOf w))
  | 5 => some (.cmpleu (w.extractLsb' 20 4) (w.extractLsb' 15 5) (w.extractLsb' 10 5) (w.extractLsb' 8 2) (ctlOf w))
  | 6 => some (.fcmpeq (w.extractLsb' 20 4) (w.extractLsb' 15 5) (w.extractLsb' 10 5) (w.extractLsb' 8 2) (ctlOf w))
  | 7 => some (.fcmplt (w.extractLsb' 20 4) (w.extractLsb' 15 5) (w.extractLsb' 10 5) (w.extractLsb' 8 2) (ctlOf w))
  | 8 => some (.fcmple (w.extractLsb' 20 4) (w.extractLsb' 15 5) (w.extractLsb' 10 5) (w.extractLsb' 8 2) (ctlOf w))
  | 9 => some (.fcmpun (w.extractLsb' 20 4) (w.extractLsb' 15 5) (w.extractLsb' 10 5) (w.extractLsb' 8 2) (ctlOf w))
  | 10 => some (.pset (w.extractLsb' 20 4) (w.extractLsb' 16 4) (w.extractLsb' 12 4) (w.extractLsb' 8 4) (ctlOf w))
  | 11 => zeroIn (w.extractLsb' 8 10 == 0#10) (.pmov (w.extractLsb' 19 5) (w.getLsbD 18) (ctlOf w))
  | 12 => some (.bra (w.extractLsb' 8 16) (ctlOf w))
  | 13 => some (.call (w.extractLsb' 8 16) (ctlOf w))
  | 14 => zeroIn (w.extractLsb' 8 11 == 0#11) (.jmpr (w.extractLsb' 19 5) (ctlOf w))
  | 15 => zeroIn (w.extractLsb' 8 16 == 0#16) (.exit (ctlOf w))
  | 16 => zeroIn (w.extractLsb' 8 16 == 0#16) (.nop (ctlOf w))
  | 17 => zeroIn (w.extractLsb' 8 3 == 0#3) (.rdsr (w.extractLsb' 19 5) (w.extractLsb' 11 8) (ctlOf w))
  | 18 => zeroIn (w.extractLsb' 8 3 == 0#3) (.wrsr (w.extractLsb' 19 5) (w.extractLsb' 11 8) (ctlOf w))
  | 19 => some (.tag (w.extractLsb' 19 5) (w.extractLsb' 15 4) (w.extractLsb' 8 7) (ctlOf w))
  | 20 => zeroIn (w.extractLsb' 8 6 == 0#6) (.tagrd (w.extractLsb' 19 5) (w.extractLsb' 14 5) (ctlOf w))
  | 21 => some (.wait (w.extractLsb' 20 4) (w.extractLsb' 16 4) (w.extractLsb' 12 4) (w.extractLsb' 8 4) (ctlOf w))
  | 22 => zeroIn (w.extractLsb' 8 16 == 0#16) (.yield (ctlOf w))
  | 23 => zeroIn (w.extractLsb' 8 8 == 0#8) (.svc (w.extractLsb' 16 8) (ctlOf w))
  | 24 => some (.trap (w.extractLsb' 8 16) (ctlOf w))
  | 25 => zeroIn (w.extractLsb' 8 14 == 0#14) (.bar (w.extractLsb' 22 2) (ctlOf w))
  | 26 => zeroIn (w.extractLsb' 8 4 == 0#4) (.capr (w.extractLsb' 19 5) (w.extractLsb' 16 3) (w.extractLsb' 12 4) (ctlOf w))
  | 27 => zeroIn (w.extractLsb' 8 5 == 0#5) (.cadd (w.extractLsb' 21 3) (w.extractLsb' 18 3) (w.extractLsb' 13 5) (ctlOf w))
  | 28 => zeroIn (w.extractLsb' 8 4 == 0#4) (.cbnd (w.extractLsb' 21 3) (w.extractLsb' 18 3) (w.extractLsb' 13 5) (w.getLsbD 12) (ctlOf w))
  | 29 => zeroIn (w.extractLsb' 17 1 == 0#1 && w.extractLsb' 8 2 == 0#2) (.cprm (w.extractLsb' 21 3) (w.extractLsb' 18 3) (w.extractLsb' 10 7) (ctlOf w))
  | 30 => zeroIn (w.extractLsb' 8 10 == 0#10) (.cmov (w.extractLsb' 21 3) (w.extractLsb' 18 3) (ctlOf w))
  | 31 => some (.ctst (w.extractLsb' 20 4) (w.extractLsb' 17 3) (w.extractLsb' 12 5) (w.extractLsb' 8 4) (ctlOf w))
  | _ => none

/-- The sub-operations of byte 0xF6, R50. -/
def rawRing (w : BitVec 32) : Option Instr :=
  match (w.extractLsb' 21 3).toNat with
  | 0 => some (.rld (w.extractLsb' 16 5) (w.extractLsb' 13 3) (w.extractLsb' 8 5) (ctlOf w))
  | 1 => some (.rst (w.extractLsb' 16 5) (w.extractLsb' 13 3) (w.extractLsb' 8 5) (ctlOf w))
  | 2 => zeroIn (w.extractLsb' 8 13 == 0#13) (.rrel (ctlOf w))
  | 3 => zeroIn (w.extractLsb' 8 10 == 0#10) (.repi (w.extractLsb' 18 3) (ctlOf w))
  | 4 => zeroIn (w.extractLsb' 8 8 == 0#8) (.rpos (w.extractLsb' 16 5) (ctlOf w))
  | 5 => zeroIn (w.extractLsb' 8 13 == 0#13) (.rclr (ctlOf w))
  | _ => none

/-- The sub-operations of byte 0xFB, R50. -/
def rawBuf (w : BitVec 32) : Option Instr :=
  match (w.extractLsb' 19 2).toNat with
  | 0 => zeroIn (w.extractLsb' 8 6 == 0#6) (.bacq (w.extractLsb' 21 3) (w.extractLsb' 14 5) (ctlOf w))
  | 1 => zeroIn (w.extractLsb' 8 6 == 0#6) (.brel (w.extractLsb' 21 3) (w.extractLsb' 14 5) (ctlOf w))
  | 2 => zeroIn (w.extractLsb' 8 6 == 0#6) (.bget (w.extractLsb' 21 3) (w.extractLsb' 14 5) (ctlOf w))
  | _ => zeroIn (w.extractLsb' 8 6 == 0#6) (.bput (w.extractLsb' 21 3) (w.extractLsb' 14 5) (ctlOf w))

/-- The sub-operations of byte 0xFC, R50. -/
def rawPort (w : BitVec 32) : Option Instr :=
  match (w.extractLsb' 22 2).toNat with
  | 0 => zeroIn (w.extractLsb' 8 7 == 0#7) (.psend (w.extractLsb' 20 2) (w.extractLsb' 15 5) (ctlOf w))
  | 1 => zeroIn (w.extractLsb' 8 7 == 0#7) (.precv (w.extractLsb' 20 2) (w.extractLsb' 15 5) (ctlOf w))
  | 2 => zeroIn (w.extractLsb' 8 7 == 0#7) (.pstat (w.extractLsb' 20 2) (w.extractLsb' 15 5) (ctlOf w))
  | _ => none

/-- The sub-operations of byte 0xFF, R50. -/
def rawSys (w : BitVec 32) : Option Instr :=
  match (w.extractLsb' 20 4).toNat with
  | 0 => zeroIn (w.extractLsb' 8 12 == 0#12) (.tret (ctlOf w))
  | 1 => zeroIn (w.extractLsb' 8 12 == 0#12) (.park (ctlOf w))
  | 2 => zeroIn (w.extractLsb' 8 9 == 0#9) (.ctxsv (w.extractLsb' 17 3) (ctlOf w))
  | 3 => zeroIn (w.extractLsb' 8 9 == 0#9) (.ctxld (w.extractLsb' 17 3) (ctlOf w))
  | 4 => zeroIn (w.extractLsb' 8 12 == 0#12) (.halt (ctlOf w))
  | 5 => zeroIn (w.extractLsb' 8 9 == 0#9) (.sweep (w.extractLsb' 17 3) (ctlOf w))
  | 6 => zeroIn (w.extractLsb' 8 9 == 0#9) (.svcget (w.extractLsb' 17 3) (ctlOf w))
  | 7 => zeroIn (w.extractLsb' 8 9 == 0#9) (.svcput (w.extractLsb' 17 3) (ctlOf w))
  | 8 => zeroIn (w.extractLsb' 8 7 == 0#7) (.fltrd (w.extractLsb' 15 5) (ctlOf w))
  | _ => none

/-- Class 7, the W group, R49. -/
def rawW (w : BitVec 32) : Option Instr :=
  match (w.extractLsb' 24 5).toNat with
  | 0 => some (.ldt (w.extractLsb' 19 5) (w.extractLsb' 16 3) (w.extractLsb' 12 4) (w.extractLsb' 9 3) (w.getLsbD 8) (ctlOf w))
  | 1 => some (.stt (w.extractLsb' 19 5) (w.extractLsb' 16 3) (w.extractLsb' 12 4) (w.extractLsb' 9 3) (w.getLsbD 8) (ctlOf w))
  | 2 => some (.aadd (w.extractLsb' 19 5) (w.extractLsb' 16 3) (w.extractLsb' 11 5) (w.extractLsb' 8 3) (ctlOf w))
  | 3 => some (.amin (w.extractLsb' 19 5) (w.extractLsb' 16 3) (w.extractLsb' 11 5) (w.extractLsb' 8 3) (ctlOf w))
  | 4 => some (.amax (w.extractLsb' 19 5) (w.extractLsb' 16 3) (w.extractLsb' 11 5) (w.extractLsb' 8 3) (ctlOf w))
  | 5 => some (.aminu (w.extractLsb' 19 5) (w.extractLsb' 16 3) (w.extractLsb' 11 5) (w.extractLsb' 8 3) (ctlOf w))
  | 6 => some (.amaxu (w.extractLsb' 19 5) (w.extractLsb' 16 3) (w.extractLsb' 11 5) (w.extractLsb' 8 3) (ctlOf w))
  | 7 => some (.aand (w.extractLsb' 19 5) (w.extractLsb' 16 3) (w.extractLsb' 11 5) (w.extractLsb' 8 3) (ctlOf w))
  | 8 => some (.aor (w.extractLsb' 19 5) (w.extractLsb' 16 3) (w.extractLsb' 11 5) (w.extractLsb' 8 3) (ctlOf w))
  | 9 => some (.axor (w.extractLsb' 19 5) (w.extractLsb' 16 3) (w.extractLsb' 11 5) (w.extractLsb' 8 3) (ctlOf w))
  | 10 => some (.axchg (w.extractLsb' 19 5) (w.extractLsb' 16 3) (w.extractLsb' 11 5) (w.extractLsb' 8 3) (ctlOf w))
  | 11 => some (.acas (w.extractLsb' 19 5) (w.extractLsb' 16 3) (w.extractLsb' 11 5) (w.extractLsb' 8 3) (ctlOf w))
  | 12 => some (.afadd (w.extractLsb' 19 5) (w.extractLsb' 16 3) (w.extractLsb' 11 5) (w.extractLsb' 8 3) (ctlOf w))
  | 13 => some (.aaddD (w.extractLsb' 19 5) (w.extractLsb' 16 3) (w.extractLsb' 11 5) (w.extractLsb' 8 3) (ctlOf w))
  | 14 => some (.acasD (w.extractLsb' 19 5) (w.extractLsb' 16 3) (w.extractLsb' 11 5) (w.extractLsb' 8 3) (ctlOf w))
  | 15 => zeroIn (w.extractLsb' 8 11 == 0#11) (.fence (w.extractLsb' 21 3) (w.extractLsb' 19 2) (ctlOf w))
  | 16 => zeroIn (w.extractLsb' 8 1 == 0#1) (.cpy (w.extractLsb' 21 3) (w.extractLsb' 18 3) (w.extractLsb' 13 5) (w.extractLsb' 10 3) (w.getLsbD 9) (ctlOf w))
  | 17 => zeroIn (w.extractLsb' 8 1 == 0#1) (.tcpy (w.extractLsb' 21 3) (w.extractLsb' 18 3) (w.extractLsb' 13 5) (w.extractLsb' 10 3) (w.getLsbD 9) (ctlOf w))
  | 18 => zeroIn (w.extractLsb' 8 8 == 0#8) (.aqry (w.extractLsb' 19 5) (w.extractLsb' 16 3) (ctlOf w))
  | 19 => zeroIn (w.extractLsb' 8 5 == 0#5) (.amat (w.extractLsb' 21 3) (w.extractLsb' 16 5) (w.extractLsb' 13 3) (ctlOf w))
  | 20 => zeroIn (w.extractLsb' 8 11 == 0#11) (.mms (w.extractLsb' 21 3) (w.extractLsb' 19 2) (ctlOf w))
  | 21 => zeroIn (w.extractLsb' 8 11 == 0#11) (.mmp (w.extractLsb' 21 3) (w.extractLsb' 19 2) (ctlOf w))
  | 22 => rawRing w
  | 23 => zeroIn (w.extractLsb' 8 8 == 0#8) (.binit (w.extractLsb' 21 3) (w.extractLsb' 16 5) (ctlOf w))
  | 24 => zeroIn (w.extractLsb' 8 4 == 0#4) (.barv (w.extractLsb' 21 3) (w.extractLsb' 16 5) (w.extractLsb' 12 4) (ctlOf w))
  | 25 => zeroIn (w.extractLsb' 8 8 == 0#8) (.bexp (w.extractLsb' 21 3) (w.extractLsb' 16 5) (ctlOf w))
  | 26 => some (.bwait (w.extractLsb' 21 3) (w.extractLsb' 16 5) (w.extractLsb' 12 4) (w.extractLsb' 8 4) (ctlOf w))
  | 27 => rawBuf w
  | 28 => rawPort w
  | 29 => zeroIn (w.extractLsb' 8 8 == 0#8) (.fetchw (w.extractLsb' 21 3) (w.extractLsb' 16 5) (ctlOf w))
  | 30 => zeroIn (w.extractLsb' 8 8 == 0#8) (.tlaunch (w.extractLsb' 21 3) (w.extractLsb' 16 5) (ctlOf w))
  | 31 => rawSys w
  | _ => none

/-- The body of a 32-bit word by CLASS, R28, R42; `none` where a function code, sub-operation or must-be-zero field is
not assigned. -/
def raw32 (w : BitVec 32) : Option Instr :=
  match (w.extractLsb' 29 3).toNat with
  | 0 => rawInt w
  | 1 => rawFloat w
  | 2 => rawImm w
  | 3 => some (.movi (w.extractLsb' 24 5) (w.extractLsb' 8 16) (ctlOf w))
  | 4 => some (.movhi (w.extractLsb' 24 5) (w.extractLsb' 8 16) (ctlOf w))
  | 5 => rawMem w
  | 6 => rawX w
  | _ => rawW w

/-- The sixteen forms of R26. -/
def raw16 (h : BitVec 16) : Instr :=
  match (h.extractLsb' 12 4).toNat with
  | 0 => .mov16 (h.extractLsb' 7 5) (h.extractLsb' 2 5) (h.getLsbD 1)
  | 1 => .add16 (h.extractLsb' 7 5) (h.extractLsb' 2 5) (h.getLsbD 1)
  | 2 => .sub16 (h.extractLsb' 7 5) (h.extractLsb' 2 5) (h.getLsbD 1)
  | 3 => .and16 (h.extractLsb' 7 5) (h.extractLsb' 2 5) (h.getLsbD 1)
  | 4 => .or16 (h.extractLsb' 7 5) (h.extractLsb' 2 5) (h.getLsbD 1)
  | 5 => .xor16 (h.extractLsb' 7 5) (h.extractLsb' 2 5) (h.getLsbD 1)
  | 6 => .shl16 (h.extractLsb' 7 5) (h.extractLsb' 2 5) (h.getLsbD 1)
  | 7 => .shr16 (h.extractLsb' 7 5) (h.extractLsb' 2 5) (h.getLsbD 1)
  | 8 => .sra16 (h.extractLsb' 7 5) (h.extractLsb' 2 5) (h.getLsbD 1)
  | 9 => .mul16 (h.extractLsb' 7 5) (h.extractLsb' 2 5) (h.getLsbD 1)
  | 10 => .fadd16 (h.extractLsb' 7 5) (h.extractLsb' 2 5) (h.getLsbD 1)
  | 11 => .fsub16 (h.extractLsb' 7 5) (h.extractLsb' 2 5) (h.getLsbD 1)
  | 12 => .fmul16 (h.extractLsb' 7 5) (h.extractLsb' 2 5) (h.getLsbD 1)
  | 13 => .fmin16 (h.extractLsb' 7 5) (h.extractLsb' 2 5) (h.getLsbD 1)
  | 14 => .fmax16 (h.extractLsb' 7 5) (h.extractLsb' 2 5) (h.getLsbD 1)
  | _ => .addi16 (h.extractLsb' 7 5) (h.extractLsb' 2 5) (h.getLsbD 1)

/-- Steps 3 and 4 of R56 on a parsed instruction, the feature gate apart (R54 depends on FEATACCEPT and is applied by
the fetch of `Step.lean`). -/
def accept (i : Instr) : Except DecodeFault Instr :=
  if !WellFormed.fields i then .error .illegalOp
  else if !WellFormed.ending i then .error .illegalRun
  else .ok i

/-- A 32-bit word, R42, R56. -/
def word32 (w : BitVec 32) : Except DecodeFault Instr :=
  match raw32 w with
  | none => .error .illegalOp
  | some i => accept i

/-- A 16-bit halfword, R23, R42. -/
def half16 (h : BitVec 16) : Except DecodeFault Instr := accept (raw16 h)

/-- The length in bytes that bit 0 of the first halfword gives, R22. -/
def length (h : BitVec 16) : Nat := if h.getLsbD 0 then 4 else 2

/-- The instruction at the head of a byte stream and the bytes after it, R22: little-endian halfwords. -/
def bytes : List (BitVec 8) → Except DecodeFault (Instr × List (BitVec 8))
  | b0 :: b1 :: rest =>
    if (b1 ++ b0).getLsbD 0 then
      match rest with
      | b2 :: b3 :: rest' => (word32 (b3 ++ b2 ++ b1 ++ b0)).map (·, rest')
      | _ => .error .short
    else (half16 (b1 ++ b0)).map (·, rest)
  | _ => .error .short

end Decode

/-- The bytes of a number, least significant first. -/
def bytesOf : Nat → Nat → List (BitVec 8)
  | 0, _ => []
  | k + 1, w => BitVec.ofNat 8 w :: bytesOf k (w / 256)

/-- The instruction that the decoder reads from the table's numbering of a word: bit 0 of `w` is bit 0 of the first
halfword; bits above `nbits` are zero up to the four bytes of the longest instruction. -/
def decodeTableWord (nbits w : Nat) : Option Instr :=
  match Decode.bytes (bytesOf 4 (w % 2 ^ nbits)) with
  | .ok (i, _) => some i
  | .error _ => none

/-! The encoder. -/

namespace Encode

/-- One bit. -/
def bit (b : Bool) : BitVec 1 := BitVec.ofBool b

/-- Bits [7:0] of a 32-bit word, R27. -/
def ctl (c : Ctl) : BitVec 8 := c.gp ++ bit c.n ++ bit c.g ++ bit c.e ++ 1#1

/-- The 32-bit word of an instruction that has one. -/
def word32 : Instr → Option (BitVec 32)
  | .add d a s l ct => some (0x0#8 ++ d ++ a ++ s ++ bit l ++ ctl ct)
  | .sub d a s l ct => some (0x1#8 ++ d ++ a ++ s ++ bit l ++ ctl ct)
  | .mul d a s l ct => some (0x2#8 ++ d ++ a ++ s ++ bit l ++ ctl ct)
  | .mulh d a s l ct => some (0x3#8 ++ d ++ a ++ s ++ bit l ++ ctl ct)
  | .mulhu d a s l ct => some (0x4#8 ++ d ++ a ++ s ++ bit l ++ ctl ct)
  | .mad d a s l ct => some (0x5#8 ++ d ++ a ++ s ++ bit l ++ ctl ct)
  | .min d a s l ct => some (0x6#8 ++ d ++ a ++ s ++ bit l ++ ctl ct)
  | .max d a s l ct => some (0x7#8 ++ d ++ a ++ s ++ bit l ++ ctl ct)
  | .minu d a s l ct => some (0x8#8 ++ d ++ a ++ s ++ bit l ++ ctl ct)
  | .maxu d a s l ct => some (0x9#8 ++ d ++ a ++ s ++ bit l ++ ctl ct)
  | .and d a s l ct => some (0xA#8 ++ d ++ a ++ s ++ bit l ++ ctl ct)
  | .or d a s l ct => some (0xB#8 ++ d ++ a ++ s ++ bit l ++ ctl ct)
  | .xor d a s l ct => some (0xC#8 ++ d ++ a ++ s ++ bit l ++ ctl ct)
  | .andn d a s l ct => some (0xD#8 ++ d ++ a ++ s ++ bit l ++ ctl ct)
  | .shl d a s l ct => some (0xE#8 ++ d ++ a ++ s ++ bit l ++ ctl ct)
  | .shr d a s l ct => some (0xF#8 ++ d ++ a ++ s ++ bit l ++ ctl ct)
  | .sra d a s l ct => some (0x10#8 ++ d ++ a ++ s ++ bit l ++ ctl ct)
  | .rotl d a s l ct => some (0x11#8 ++ d ++ a ++ s ++ bit l ++ ctl ct)
  | .popc d a l ct => some (0x12#8 ++ d ++ a ++ 0x0#5 ++ bit l ++ ctl ct)
  | .clz d a l ct => some (0x13#8 ++ d ++ a ++ 0x0#5 ++ bit l ++ ctl ct)
  | .brev d a l ct => some (0x14#8 ++ d ++ a ++ 0x0#5 ++ bit l ++ ctl ct)
  | .adds d a s l ct => some (0x15#8 ++ d ++ a ++ s ++ bit l ++ ctl ct)
  | .subs d a s l ct => some (0x16#8 ++ d ++ a ++ s ++ bit l ++ ctl ct)
  | .absd d a s l ct => some (0x17#8 ++ d ++ a ++ s ++ bit l ++ ctl ct)
  | .bfx d a s l ct => some (0x18#8 ++ d ++ a ++ s ++ bit l ++ ctl ct)
  | .bfi d a s l ct => some (0x19#8 ++ d ++ a ++ s ++ bit l ++ ctl ct)
  | .mov d a l ct => some (0x1A#8 ++ d ++ a ++ 0x0#5 ++ bit l ++ ctl ct)
  | .shfl d a s l ct => some (0x1B#8 ++ d ++ a ++ s ++ bit l ++ ctl ct)
  | .ballot d a l ct => some (0x1C#8 ++ d ++ a ++ 0x0#5 ++ bit l ++ ctl ct)
  | .fadd d a s l ct => some (0x20#8 ++ d ++ a ++ s ++ bit l ++ ctl ct)
  | .fsub d a s l ct => some (0x21#8 ++ d ++ a ++ s ++ bit l ++ ctl ct)
  | .fmul d a s l ct => some (0x22#8 ++ d ++ a ++ s ++ bit l ++ ctl ct)
  | .ffma d a s l ct => some (0x23#8 ++ d ++ a ++ s ++ bit l ++ ctl ct)
  | .fmin d a s l ct => some (0x24#8 ++ d ++ a ++ s ++ bit l ++ ctl ct)
  | .fmax d a s l ct => some (0x25#8 ++ d ++ a ++ s ++ bit l ++ ctl ct)
  | .fdiv d a s l ct => some (0x26#8 ++ d ++ a ++ s ++ bit l ++ ctl ct)
  | .fsqrt d a l ct => some (0x27#8 ++ d ++ a ++ 0x0#5 ++ bit l ++ ctl ct)
  | .dadd d a s l ct => some (0x28#8 ++ d ++ a ++ s ++ bit l ++ ctl ct)
  | .dsub d a s l ct => some (0x29#8 ++ d ++ a ++ s ++ bit l ++ ctl ct)
  | .dmul d a s l ct => some (0x2A#8 ++ d ++ a ++ s ++ bit l ++ ctl ct)
  | .dfma d a s l ct => some (0x2B#8 ++ d ++ a ++ s ++ bit l ++ ctl ct)
  | .dmin d a s l ct => some (0x2C#8 ++ d ++ a ++ s ++ bit l ++ ctl ct)
  | .dmax d a s l ct => some (0x2D#8 ++ d ++ a ++ s ++ bit l ++ ctl ct)
  | .ddiv d a s l ct => some (0x2E#8 ++ d ++ a ++ s ++ bit l ++ ctl ct)
  | .dsqrt d a l ct => some (0x2F#8 ++ d ++ a ++ 0x0#5 ++ bit l ++ ctl ct)
  | .hadd d a s l ct => some (0x30#8 ++ d ++ a ++ s ++ bit l ++ ctl ct)
  | .hsub d a s l ct => some (0x31#8 ++ d ++ a ++ s ++ bit l ++ ctl ct)
  | .hmul d a s l ct => some (0x32#8 ++ d ++ a ++ s ++ bit l ++ ctl ct)
  | .hfma d a s l ct => some (0x33#8 ++ d ++ a ++ s ++ bit l ++ ctl ct)
  | .hmin d a s l ct => some (0x34#8 ++ d ++ a ++ s ++ bit l ++ ctl ct)
  | .hmax d a s l ct => some (0x35#8 ++ d ++ a ++ s ++ bit l ++ ctl ct)
  | .fcvt d a s l ct => some (0x36#8 ++ d ++ a ++ s ++ bit l ++ ctl ct)
  | .fcpys d a s l ct => some (0x37#8 ++ d ++ a ++ s ++ bit l ++ ctl ct)
  | .fneg d a l ct => some (0x38#8 ++ d ++ a ++ 0x0#5 ++ bit l ++ ctl ct)
  | .fabs d a l ct => some (0x39#8 ++ d ++ a ++ 0x0#5 ++ bit l ++ ctl ct)
  | .lmul d a s l ct => some (0x3A#8 ++ d ++ a ++ s ++ bit l ++ ctl ct)
  | .ldot d a s l ct => some (0x3B#8 ++ d ++ a ++ s ++ bit l ++ ctl ct)
  | .fclass d a l ct => some (0x3C#8 ++ d ++ a ++ 0x0#5 ++ bit l ++ ctl ct)
  | .frnd d a m l ct => some (0x3D#8 ++ d ++ a ++ m ++ bit l ++ ctl ct)
  | .addi d a i ct => some (0x10#6 ++ d ++ a ++ i ++ ctl ct)
  | .andi d a i ct => some (0x11#6 ++ d ++ a ++ i ++ ctl ct)
  | .ori d a i ct => some (0x12#6 ++ d ++ a ++ i ++ ctl ct)
  | .xori d a i ct => some (0x13#6 ++ d ++ a ++ i ++ ctl ct)
  | .shli d a i ct => some (0x14#6 ++ d ++ a ++ i ++ ctl ct)
  | .shri d a i ct => some (0x15#6 ++ d ++ a ++ i ++ ctl ct)
  | .srai d a i ct => some (0x16#6 ++ d ++ a ++ i ++ ctl ct)
  | .muli d a i ct => some (0x17#6 ++ d ++ a ++ i ++ ctl ct)
  | .movi d i ct => some (0x3#3 ++ d ++ i ++ ctl ct)
  | .movhi d i ct => some (0x4#3 ++ d ++ i ++ ctl ct)
  | .ldb d c o l ct => some (0x50#7 ++ d ++ c ++ o ++ bit l ++ ctl ct)
  | .ldbu d c o l ct => some (0x51#7 ++ d ++ c ++ o ++ bit l ++ ctl ct)
  | .ldh d c o l ct => some (0x52#7 ++ d ++ c ++ o ++ bit l ++ ctl ct)
  | .ldhu d c o l ct => some (0x53#7 ++ d ++ c ++ o ++ bit l ++ ctl ct)
  | .ldw d c o l ct => some (0x54#7 ++ d ++ c ++ o ++ bit l ++ ctl ct)
  | .ldd d c o l ct => some (0x55#7 ++ d ++ c ++ o ++ bit l ++ ctl ct)
  | .stb d c o l ct => some (0x56#7 ++ d ++ c ++ o ++ bit l ++ ctl ct)
  | .sth d c o l ct => some (0x57#7 ++ d ++ c ++ o ++ bit l ++ ctl ct)
  | .stw d c o l ct => some (0x58#7 ++ d ++ c ++ o ++ bit l ++ ctl ct)
  | .std d c o l ct => some (0x59#7 ++ d ++ c ++ o ++ bit l ++ ctl ct)
  | .ldc d c o l ct => some (0x5A#7 ++ d ++ c ++ o ++ bit l ++ ctl ct)
  | .stc d c o l ct => some (0x5B#7 ++ d ++ c ++ o ++ bit l ++ ctl ct)
  | .pref h c o l ct => some (0x5C#7 ++ h ++ c ++ o ++ bit l ++ ctl ct)
  | .cflush p c s l ct => some (0x5D#7 ++ p ++ c ++ 0x0#5 ++ s ++ bit l ++ ctl ct)
  | .cmpeq p a s m ct => some (0xC0#8 ++ p ++ a ++ s ++ m ++ ctl ct)
  | .cmpne p a s m ct => some (0xC1#8 ++ p ++ a ++ s ++ m ++ ctl ct)
  | .cmplt p a s m ct => some (0xC2#8 ++ p ++ a ++ s ++ m ++ ctl ct)
  | .cmple p a s m ct => some (0xC3#8 ++ p ++ a ++ s ++ m ++ ctl ct)
  | .cmpltu p a s m ct => some (0xC4#8 ++ p ++ a ++ s ++ m ++ ctl ct)
  | .cmpleu p a s m ct => some (0xC5#8 ++ p ++ a ++ s ++ m ++ ctl ct)
  | .fcmpeq p a s m ct => some (0xC6#8 ++ p ++ a ++ s ++ m ++ ctl ct)
  | .fcmplt p a s m ct => some (0xC7#8 ++ p ++ a ++ s ++ m ++ ctl ct)
  | .fcmple p a s m ct => some (0xC8#8 ++ p ++ a ++ s ++ m ++ ctl ct)
  | .fcmpun p a s m ct => some (0xC9#8 ++ p ++ a ++ s ++ m ++ ctl ct)
  | .pset p a b t ct => some (0xCA#8 ++ p ++ a ++ b ++ t ++ ctl ct)
  | .pmov v r ct => some (0xCB#8 ++ v ++ bit r ++ 0x0#10 ++ ctl ct)
  | .bra o ct => some (0xCC#8 ++ o ++ ctl ct)
  | .call o ct => some (0xCD#8 ++ o ++ ctl ct)
  | .jmpr a ct => some (0xCE#8 ++ a ++ 0x0#11 ++ ctl ct)
  | .exit ct => some (0xCF0000#24 ++ ctl ct)
  | .nop ct => some (0xD00000#24 ++ ctl ct)
  | .rdsr d s ct => some (0xD1#8 ++ d ++ s ++ 0x0#3 ++ ctl ct)
  | .wrsr a s ct => some (0xD2#8 ++ a ++ s ++ 0x0#3 ++ ctl ct)
  | .tag d f k ct => some (0xD3#8 ++ d ++ f ++ k ++ ctl ct)
  | .tagrd d a ct => some (0xD4#8 ++ d ++ a ++ 0x0#6 ++ ctl ct)
  | .wait l s c t ct => some (0xD5#8 ++ l ++ s ++ c ++ t ++ ctl ct)
  | .yield ct => some (0xD60000#24 ++ ctl ct)
  | .svc u ct => some (0xD7#8 ++ u ++ 0x0#8 ++ ctl ct)
  | .trap c ct => some (0xD8#8 ++ c ++ ctl ct)
  | .bar b ct => some (0xD9#8 ++ b ++ 0x0#14 ++ ctl ct)
  | .capr d c f ct => some (0xDA#8 ++ d ++ c ++ f ++ 0x0#4 ++ ctl ct)
  | .cadd d f v ct => some (0xDB#8 ++ d ++ f ++ v ++ 0x0#5 ++ ctl ct)
  | .cbnd d f v x ct => some (0xDC#8 ++ d ++ f ++ v ++ bit x ++ 0x0#4 ++ ctl ct)
  | .cprm d f m ct => some (0xDD#8 ++ d ++ f ++ 0x0#1 ++ m ++ 0x0#2 ++ ctl ct)
  | .cmov d f ct => some (0xDE#8 ++ d ++ f ++ 0x0#10 ++ ctl ct)
  | .ctst p c v t ct => some (0xDF#8 ++ p ++ c ++ v ++ t ++ ctl ct)
  | .ldt d c m k l ct => some (0xE0#8 ++ d ++ c ++ m ++ k ++ bit l ++ ctl ct)
  | .stt s c m k t ct => some (0xE1#8 ++ s ++ c ++ m ++ k ++ bit t ++ ctl ct)
  | .aadd d c s o ct => some (0xE2#8 ++ d ++ c ++ s ++ o ++ ctl ct)
  | .amin d c s o ct => some (0xE3#8 ++ d ++ c ++ s ++ o ++ ctl ct)
  | .amax d c s o ct => some (0xE4#8 ++ d ++ c ++ s ++ o ++ ctl ct)
  | .aminu d c s o ct => some (0xE5#8 ++ d ++ c ++ s ++ o ++ ctl ct)
  | .amaxu d c s o ct => some (0xE6#8 ++ d ++ c ++ s ++ o ++ ctl ct)
  | .aand d c s o ct => some (0xE7#8 ++ d ++ c ++ s ++ o ++ ctl ct)
  | .aor d c s o ct => some (0xE8#8 ++ d ++ c ++ s ++ o ++ ctl ct)
  | .axor d c s o ct => some (0xE9#8 ++ d ++ c ++ s ++ o ++ ctl ct)
  | .axchg d c s o ct => some (0xEA#8 ++ d ++ c ++ s ++ o ++ ctl ct)
  | .acas d c s o ct => some (0xEB#8 ++ d ++ c ++ s ++ o ++ ctl ct)
  | .afadd d c s o ct => some (0xEC#8 ++ d ++ c ++ s ++ o ++ ctl ct)
  | .aaddD d c s o ct => some (0xED#8 ++ d ++ c ++ s ++ o ++ ctl ct)
  | .acasD d c s o ct => some (0xEE#8 ++ d ++ c ++ s ++ o ++ ctl ct)
  | .fence o k ct => some (0xEF#8 ++ o ++ k ++ 0x0#11 ++ ctl ct)
  | .cpy d f v o x ct => some (0xF0#8 ++ d ++ f ++ v ++ o ++ bit x ++ 0x0#1 ++ ctl ct)
  | .tcpy t b v o x ct => some (0xF1#8 ++ t ++ b ++ v ++ o ++ bit x ++ 0x0#1 ++ ctl ct)
  | .aqry d c ct => some (0xF2#8 ++ d ++ c ++ 0x0#8 ++ ctl ct)
  | .amat c v o ct => some (0xF3#8 ++ c ++ v ++ o ++ 0x0#5 ++ ctl ct)
  | .mms c r ct => some (0xF4#8 ++ c ++ r ++ 0x0#11 ++ ctl ct)
  | .mmp c r ct => some (0xF5#8 ++ c ++ r ++ 0x0#11 ++ ctl ct)
  | .rld d o v ct => some (0x7B0#11 ++ d ++ o ++ v ++ ctl ct)
  | .rst s o v ct => some (0x7B1#11 ++ s ++ o ++ v ++ ctl ct)
  | .rrel ct => some (0xF64000#24 ++ ctl ct)
  | .repi c ct => some (0x7B3#11 ++ c ++ 0x0#10 ++ ctl ct)
  | .rpos d ct => some (0x7B4#11 ++ d ++ 0x0#8 ++ ctl ct)
  | .rclr ct => some (0xF6A000#24 ++ ctl ct)
  | .binit c v ct => some (0xF7#8 ++ c ++ v ++ 0x0#8 ++ ctl ct)
  | .barv c v p ct => some (0xF8#8 ++ c ++ v ++ p ++ 0x0#4 ++ ctl ct)
  | .bexp c v ct => some (0xF9#8 ++ c ++ v ++ 0x0#8 ++ ctl ct)
  | .bwait c v p t ct => some (0xFA#8 ++ c ++ v ++ p ++ t ++ ctl ct)
  | .bacq c d ct => some (0xFB#8 ++ c ++ 0x0#2 ++ d ++ 0x0#6 ++ ctl ct)
  | .brel c d ct => some (0xFB#8 ++ c ++ 0x1#2 ++ d ++ 0x0#6 ++ ctl ct)
  | .bget c d ct => some (0xFB#8 ++ c ++ 0x2#2 ++ d ++ 0x0#6 ++ ctl ct)
  | .bput c d ct => some (0xFB#8 ++ c ++ 0x3#2 ++ d ++ 0x0#6 ++ ctl ct)
  | .psend r v ct => some (0x3F0#10 ++ r ++ v ++ 0x0#7 ++ ctl ct)
  | .precv r v ct => some (0x3F1#10 ++ r ++ v ++ 0x0#7 ++ ctl ct)
  | .pstat r v ct => some (0x3F2#10 ++ r ++ v ++ 0x0#7 ++ ctl ct)
  | .fetchw c v ct => some (0xFD#8 ++ c ++ v ++ 0x0#8 ++ ctl ct)
  | .tlaunch c d ct => some (0xFE#8 ++ c ++ d ++ 0x0#8 ++ ctl ct)
  | .tret ct => some (0xFF0000#24 ++ ctl ct)
  | .park ct => some (0xFF1000#24 ++ ctl ct)
  | .ctxsv c ct => some (0xFF2#12 ++ c ++ 0x0#9 ++ ctl ct)
  | .ctxld c ct => some (0xFF3#12 ++ c ++ 0x0#9 ++ ctl ct)
  | .halt ct => some (0xFF4000#24 ++ ctl ct)
  | .sweep c ct => some (0xFF5#12 ++ c ++ 0x0#9 ++ ctl ct)
  | .svcget c ct => some (0xFF6#12 ++ c ++ 0x0#9 ++ ctl ct)
  | .svcput c ct => some (0xFF7#12 ++ c ++ 0x0#9 ++ ctl ct)
  | .fltrd d ct => some (0xFF8#12 ++ d ++ 0x0#7 ++ ctl ct)
  | _ => none

/-- The halfword of a 16-bit form, R26. -/
def half16 : Instr → Option (BitVec 16)
  | .mov16 d s e => some (0x0#4 ++ d ++ s ++ bit e ++ 0#1)
  | .add16 d s e => some (0x1#4 ++ d ++ s ++ bit e ++ 0#1)
  | .sub16 d s e => some (0x2#4 ++ d ++ s ++ bit e ++ 0#1)
  | .and16 d s e => some (0x3#4 ++ d ++ s ++ bit e ++ 0#1)
  | .or16 d s e => some (0x4#4 ++ d ++ s ++ bit e ++ 0#1)
  | .xor16 d s e => some (0x5#4 ++ d ++ s ++ bit e ++ 0#1)
  | .shl16 d s e => some (0x6#4 ++ d ++ s ++ bit e ++ 0#1)
  | .shr16 d s e => some (0x7#4 ++ d ++ s ++ bit e ++ 0#1)
  | .sra16 d s e => some (0x8#4 ++ d ++ s ++ bit e ++ 0#1)
  | .mul16 d s e => some (0x9#4 ++ d ++ s ++ bit e ++ 0#1)
  | .fadd16 d s e => some (0xA#4 ++ d ++ s ++ bit e ++ 0#1)
  | .fsub16 d s e => some (0xB#4 ++ d ++ s ++ bit e ++ 0#1)
  | .fmul16 d s e => some (0xC#4 ++ d ++ s ++ bit e ++ 0#1)
  | .fmin16 d s e => some (0xD#4 ++ d ++ s ++ bit e ++ 0#1)
  | .fmax16 d s e => some (0xE#4 ++ d ++ s ++ bit e ++ 0#1)
  | .addi16 d i e => some (0xF#4 ++ d ++ i ++ bit e ++ 0#1)
  | _ => none

end Encode

/-- The halfwords of an instruction, lowest address first (R22); an event has none. -/
def encode (i : Instr) : List (BitVec 16) :=
  match Encode.half16 i, Encode.word32 i with
  | some h, _ => [h]
  | none, some w => [w.extractLsb' 0 16, w.extractLsb' 16 16]
  | none, none => []

/-- The bytes of an instruction, lowest address first: little-endian halfwords, R22. -/
def encodeBytes (i : Instr) : List (BitVec 8) := (encode i).flatMap fun h => [h.extractLsb' 0 8, h.extractLsb' 8 8]

/-- A row with a word of its own: an encoded instruction, not a device event. -/
def hasWord (i : Instr) : Bool := !(encode i).isEmpty

end Sys2Proof
end

