-- ==== Sys2Proof/Config.lean ====
section
/-! DEFINITION. What the specification leaves open (free values without a body) and the constants of the part. -/

namespace Sys2Proof.Config

/-- The undefined values of R6: what a read of a pending register (R38) or of a ring slot in use (R148) yields. Nothing
constrains it (log entry 1). -/
opaque freeWord : Nat → BitVec 32

/-- The line size, R12. -/
def lineBytes : Nat := 128

/-- The page and block size of leases and frames, R197, R210. -/
def frameBytes : Nat := 65536

/-- Quads of the device, R9. -/
def quads : Nat := 192

/-- Cores of the device, R9. -/
def cores : Nat := 768

/-- Rows of one quarter, R11. -/
def quarterRows : Nat := 512

/-- Scratchpad bytes of one core, R11. -/
def coreSpad : Nat := 393216

/-- Alias entries of one slice, R234. -/
def sliceEntries : Nat := 1024

/-- Alias entries of the device, R201. -/
def aliasTotal : Nat := 524288

/-- Ring tiles of one quad, R11. -/
def ringTiles : Nat := 16

/-- The longest run, R34. -/
def runLimit : Nat := 24

end Sys2Proof.Config
end

