-- ==== Sys2Proof/Machine/Flags.lean ====
section
/-! DEFINITION. FCTL: its fields and the sticky flags (R98, R99), and the integer relations that the compares name. -/

namespace Sys2Proof.Machine

namespace Flags

/-- NV, invalid operation. -/
def nv : BitVec 32 := 0x40
/-- DZ, division by zero. -/
def dz : BitVec 32 := 0x20
/-- OF, overflow. -/
def of : BitVec 32 := 0x10
/-- UF, underflow. -/
def uf : BitVec 32 := 0x08
/-- NX, inexact. -/
def nx : BitVec 32 := 0x04

/-- A flag when a condition holds. -/
def when (c : Bool) (f : BitVec 32) : BitVec 32 := if c then f else 0

end Flags

/-- FCTL.RM, R98. -/
def fctlRm (f : BitVec 32) : Nat := f.toNat % 4

/-- FCTL.CVS as a signed number, R98. -/
def fctlCvs (f : BitVec 32) : Int := (f.extractLsb' 8 7).toInt

/-- FCTL.CVS as it stands in a tag. -/
def fctlScl (f : BitVec 32) : BitVec 7 := f.extractLsb' 8 7

/-- A write to FCTL: reserved bits are ignored, R84, R98. -/
def fctlWrite (v : BitVec 32) : BitVec 32 := v &&& 0x00007F7F

/-- Flags are only ever set, R99. -/
def fctlRaise (f flags : BitVec 32) : BitVec 32 := f ||| (flags &&& 0x7C)

/-- COMB of a compare, R74: replace, and, or. -/
def combine (m : BitVec 2) (old c : Bool) : Bool :=
  match m.toNat with
  | 0 => c
  | 1 => old && c
  | _ => old || c

end Sys2Proof.Machine
end

