-- ==== Sys2Proof/Machine/Num.lean ====
section
/-! DEFINITION. Exact values and the roundings of spec/06: binary formats, FP8, L6 and integers. An exact value is a sign,
a natural significand and a power of two; where a quotient or a root is not exact, its significand carries one more low bit
that is 1, far below the last bit any format keeps. -/

namespace Sys2Proof.Machine

/-- The value of a floating-point operand, R108. -/
inductive Val where
  | nan (signalling : Bool)
  | inf (s : Bool)
  | fin (s : Bool) (m : Nat) (e : Int)
  deriving DecidableEq, Repr

/-- A binary format: fraction bits and exponent bits, R100. -/
structure BinFmt where
  fb : Nat
  eb : Nat
  deriving DecidableEq, Repr

/-- FP64. -/
def f64 : BinFmt := ⟨52, 11⟩
/-- FP32. -/
def f32 : BinFmt := ⟨23, 8⟩
/-- FP16. -/
def f16 : BinFmt := ⟨10, 5⟩
/-- BF16. -/
def b16 : BinFmt := ⟨7, 8⟩

namespace BinFmt

/-- The exponent bias, R100. -/
def bias (F : BinFmt) : Int := 2 ^ (F.eb - 1) - 1

/-- The exponent of the least subnormal. -/
def ulpMin (F : BinFmt) : Int := 1 - F.bias - F.fb

/-- The bits of +∞. -/
def infBits (F : BinFmt) : Nat := (2 ^ F.eb - 1) * 2 ^ F.fb

/-- The canonical NaN, R100, R101. -/
def canon (F : BinFmt) : Nat := F.infBits + 2 ^ (F.fb - 1)

/-- The sign bit's weight. -/
def signBit (F : BinFmt) : Nat := 2 ^ (F.fb + F.eb)

/-- The value that a bit pattern holds, R100. -/
def dec (F : BinFmt) (b : Nat) : Val :=
  let s := b / F.signBit % 2 == 1
  let x := b / 2 ^ F.fb % 2 ^ F.eb
  let m := b % 2 ^ F.fb
  if x = 2 ^ F.eb - 1 then
    if m = 0 then .inf s else .nan (m / 2 ^ (F.fb - 1) % 2 == 0)
  else if x = 0 then .fin s m F.ulpMin
  else .fin s (m + 2 ^ F.fb) (F.ulpMin + (x - 1))

/-- Whether a pattern is a NaN. -/
def isNan (F : BinFmt) (b : Nat) : Bool := match F.dec b with | .nan _ => true | _ => false

end BinFmt

/-- A significand divided by a power of two and rounded to an integer, by mode 0 RNE, 1 RTZ, 2 RDN, 3 RUP. -/
def roundMant (m sh : Nat) (s : Bool) (rm : Nat) : Nat :=
  let q := m / 2 ^ sh
  let r := m % 2 ^ sh
  let up := match rm with
    | 0 => decide (2 ^ sh < 2 * r) || (decide (2 * r = 2 ^ sh) && q % 2 == 1)
    | 1 => false
    | 2 => s && r != 0
    | _ => !s && r != 0
  if up && sh != 0 then q + 1 else q

/-- A significand `m × 2^e` as a multiple of `2^q`, rounded. -/
def atQuantum (m : Nat) (e q : Int) (s : Bool) (rm : Nat) : Nat :=
  if q ≤ e then m * 2 ^ (e - q).toNat else roundMant m (q - e).toNat s rm

/-- Whether `m × 2^e` is a multiple of `2^q`. -/
def exactAt (m : Nat) (e q : Int) : Bool := decide (q ≤ e) || m % 2 ^ (q - e).toNat == 0

/-- The exponent of the leading bit of a nonzero significand. -/
def leadExp (m : Nat) (e : Int) : Int := e + Nat.log2 m

/-- RoundF64, RoundF32, RoundF16 and RoundB16, R101: bits and flags. A NaN gives the canonical NaN and no flag. -/
def BinFmt.round (F : BinFmt) (rm : Nat) (v : Val) : Nat × BitVec 32 :=
  match v with
  | .nan _ => (F.canon, 0)
  | .inf s => ((if s then F.signBit else 0) + F.infBits, 0)
  | .fin s 0 _ => (if s then F.signBit else 0, 0)
  | .fin s m e =>
    let sb := if s then F.signBit else 0
    let q := max (leadExp m e - F.fb) F.ulpMin
    let r := atQuantum m e q s rm
    let mag := (q - F.ulpMin).toNat * 2 ^ F.fb + r
    let exact := exactAt m e q
    if F.infBits ≤ mag then
      let big := match rm with | 0 => true | 1 => false | 2 => s | _ => !s
      (sb + (if big then F.infBits else F.infBits - 1), Flags.of ||| Flags.nx)
    else
      let uq := leadExp m e - F.fb
      let u := atQuantum m e uq s rm
      let tiny := decide (leadExp u uq < 1 - F.bias)
      (sb + mag, Flags.when (!exact) Flags.nx ||| Flags.when (tiny && !exact) Flags.uf)

namespace Val

/-- Whether a value is a NaN. -/
def isNan : Val → Bool | .nan _ => true | _ => false
/-- Whether a value is a signalling NaN. -/
def isSig : Val → Bool | .nan s => s | _ => false
/-- NV for a signalling operand, R101. -/
def sigFlag (vs : List Val) : BitVec 32 := Flags.when (vs.any isSig) Flags.nv

/-- The sign flipped. -/
def neg : Val → Val
  | .nan s => .nan s
  | .inf s => .inf !s
  | .fin s m e => .fin (!s) m e

/-- Multiplied by a power of two. -/
def scale (k : Int) : Val → Val
  | .fin s m e => .fin s m (e + k)
  | v => v

/-- The integer `m` with its sign. -/
def ofInt (i : Int) : Val := .fin (decide (i < 0)) i.natAbs 0

/-- A signed significand at a common exponent. -/
def at_ (s : Bool) (m : Nat) (e q : Int) : Int :=
  let x : Int := (m * 2 ^ (e - q).toNat : Nat)
  if s then -x else x

/-- The exact sum, with the zero rule of R101. -/
def addFin (rm : Nat) (s1 : Bool) (m1 : Nat) (e1 : Int) (s2 : Bool) (m2 : Nat) (e2 : Int) : Val :=
  let q := min e1 e2
  let t := at_ s1 m1 e1 q + at_ s2 m2 e2 q
  if t = 0 then .fin (if s1 = s2 then s1 else rm == 2) 0 0
  else .fin (decide (t < 0)) t.natAbs q

/-- Sum, R114, R115: value and NV. -/
def add (rm : Nat) (a b : Val) : Val × BitVec 32 :=
  match a, b with
  | .fin s1 m1 e1, .fin s2 m2 e2 => (addFin rm s1 m1 e1 s2 m2 e2, 0)
  | .inf s, .inf t => if s = t then (.inf s, 0) else (.nan false, Flags.nv)
  | .inf s, .fin _ _ _ => (.inf s, 0)
  | .fin _ _ _, .inf s => (.inf s, 0)
  | x, y => (.nan false, sigFlag [x, y])

/-- Product, R114, R115. -/
def mul (a b : Val) : Val × BitVec 32 :=
  match a, b with
  | .fin s1 m1 e1, .fin s2 m2 e2 => (.fin (s1 ^^ s2) (m1 * m2) (e1 + e2), 0)
  | .inf s, .inf t => (.inf (s ^^ t), 0)
  | .inf s, .fin t m _ => if m = 0 then (.nan false, Flags.nv) else (.inf (s ^^ t), 0)
  | .fin t m _, .inf s => if m = 0 then (.nan false, Flags.nv) else (.inf (s ^^ t), 0)
  | x, y => (.nan false, sigFlag [x, y])

/-- Fused multiply and add, R114, R115: one rounding is left to the caller. -/
def fma (rm : Nat) (a b d : Val) : Val × BitVec 32 :=
  if a.isNan || b.isNan then (.nan false, sigFlag [a, b, d])
  else
    let (p, f) := mul a b
    if p.isNan then (.nan false, f)
    else if d.isNan then (.nan false, sigFlag [d])
    else add rm p d

/-- Quotient, R114, R115. -/
def div (a b : Val) : Val × BitVec 32 :=
  match a, b with
  | .fin s1 m1 e1, .fin s2 m2 e2 =>
    if m2 = 0 then
      if m1 = 0 then (.nan false, Flags.nv) else (.inf (s1 ^^ s2), Flags.dz)
    else
      let n := m1 * 2 ^ 128
      (.fin (s1 ^^ s2) (2 * (n / m2) + (if n % m2 = 0 then 0 else 1)) (e1 - e2 - 129), 0)
  | .inf _, .inf _ => (.nan false, Flags.nv)
  | .inf s, .fin t _ _ => (.inf (s ^^ t), 0)
  | .fin s _ _, .inf t => (.fin (s ^^ t) 0 0, 0)
  | x, y => (.nan false, sigFlag [x, y])

/-- The integer square root by its bits, from bit `k - 1` down. -/
def isqrt (n : Nat) : Nat → Nat → Nat
  | 0, r => r
  | k + 1, r => isqrt n k (if (r + 2 ^ k) * (r + 2 ^ k) ≤ n then r + 2 ^ k else r)

/-- Square root, R114, R115. -/
def sqrt (a : Val) : Val × BitVec 32 :=
  match a with
  | .fin s 0 _ => (.fin s 0 0, 0)
  | .fin true _ _ => (.nan false, Flags.nv)
  | .fin false m e =>
    let odd := e % 2 == 1
    let n := (if odd then 2 * m else m) * 2 ^ 128
    let h := if odd then e - 1 else e
    let r := isqrt n 96 0
    (.fin false (2 * r + (if r * r = n then 0 else 1)) (h / 2 - 65), 0)
  | .inf false => (.inf false, 0)
  | .inf true => (.nan false, Flags.nv)
  | .nan s => (.nan false, Flags.when s Flags.nv)

/-- Whether one value is below another; neither is a NaN, and −0 equals +0. -/
def lt (a b : Val) : Bool :=
  match a, b with
  | .nan _, _ => false
  | _, .nan _ => false
  | .inf s, .inf t => s && !t
  | .inf s, .fin _ _ _ => s
  | .fin _ _ _, .inf t => !t
  | .fin s1 m1 e1, .fin s2 m2 e2 =>
    let q := min e1 e2
    decide (at_ s1 m1 e1 q < at_ s2 m2 e2 q)

/-- Whether two values are equal; a NaN equals nothing, and −0 equals +0. -/
def eq (a b : Val) : Bool := !a.isNan && !b.isNan && !lt a b && !lt b a

/-- Below in the order that puts −0 below +0, R115. -/
def ltSigned (a b : Val) : Bool :=
  lt a b || (eq a b && (match a, b with
    | .fin true _ _, .fin false _ _ => true
    | _, _ => false))

end Val

/-- The 8-bit formats, R104. -/
inductive Fp8 where
  | e4m3 | e5m2
  deriving DecidableEq, Repr

namespace Fp8

/-- Fraction bits. -/
def fb : Fp8 → Nat | e4m3 => 3 | e5m2 => 2
/-- The exponent of the least subnormal. -/
def ulpMin : Fp8 → Int | e4m3 => -9 | e5m2 => -16
/-- The bits of the largest finite magnitude. -/
def largest : Fp8 → Nat | e4m3 => 0x7E | e5m2 => 0x7B
/-- What infinity mode writes for a magnitude too large. -/
def infinite : Fp8 → Nat | e4m3 => 0x7F | e5m2 => 0x7C
/-- The NaN written from a NaN input. -/
def nan : Fp8 → Nat | e4m3 => 0x7F | e5m2 => 0x7E

/-- The value of an element; an FP8 NaN is neither quiet nor signalling and sets no flag, R104. -/
def dec (F : Fp8) (b : Nat) : Val :=
  let s := b / 128 % 2 == 1
  let x := b % 128
  let sub := 2 ^ F.fb
  if F = e4m3 ∧ x = 0x7F then .nan false
  else if F = e5m2 ∧ 0x7C < x then .nan false
  else if F = e5m2 ∧ x = 0x7C then .inf s
  else if x / sub = 0 then .fin s x F.ulpMin
  else .fin s (x % sub + sub) (F.ulpMin + (x / sub - 1))

/-- ToFP8, R109, R110: the element and its flags. -/
def ofVal (F : Fp8) (sat : Bool) (cvs : Int) (v : Val) : Nat × BitVec 32 :=
  let big (s : Bool) := (if s then 128 else 0) + (if sat then F.largest else F.infinite)
  match v with
  | .nan sig => (F.nan, Flags.when sig Flags.nv)
  | .inf s => (big s, 0)
  | .fin s 0 _ => (if s then 128 else 0, 0)
  | .fin s m e0 =>
    let e := e0 - cvs
    let q := max (leadExp m e - F.fb) F.ulpMin
    let r := atQuantum m e q s 0
    let mag := (q - F.ulpMin).toNat * 2 ^ F.fb + r
    if F.largest < mag then (big s, Flags.of ||| Flags.nx)
    else
      let exact := exactAt m e q
      ((if s then 128 else 0) + mag,
        Flags.when (!exact) Flags.nx ||| Flags.when (!exact && decide (mag < 2 ^ F.fb)) Flags.uf)

end Fp8

namespace L6

/-- T[f] of R105. -/
def table (f : Nat) : Nat :=
  match f with
  | 0 => 32768
  | 1 => 38968
  | 2 => 46341
  | _ => 55109

/-- LOG of a code as a signed number. -/
def log (c : BitVec 6) : Int := (c.extractLsb' 0 5).toInt

/-- The sign of a code. -/
def sign (c : BitVec 6) : Bool := c.getLsbD 5

/-- Whether a code is zero. -/
def isZero (c : BitVec 6) : Bool := c.extractLsb' 0 5 == 16

/-- The magnitude of a logarithm, as significand and exponent, R105. -/
def mag (k : Int) : Nat × Int := (table (k % 4).toNat, k / 4 - 15)

/-- The value of an element, R105. -/
def dec (c : BitVec 6) : Val :=
  if isZero c then .fin false 0 0
  else .fin (sign c) (mag (log c)).1 (mag (log c)).2

/-- A magnitude in units of 2^−60. -/
def units (k : Int) : Nat := (mag k).1 * 2 ^ ((mag k).2 + 60).toNat

/-- The code of a sign and a logarithm. -/
def code (s : Bool) (k : Int) : BitVec 6 := (if s then 0x20#6 else 0) ||| (BitVec.ofInt 5 k).setWidth 6

/-- The search of ToL6: from `k`, upwards while twice the magnitude reaches the sum of two neighbours. `m` and `e` give
the magnitude `m × 2^e`. -/
def search (atLeast : Nat → Bool) : Nat → Int → Int
  | 0, k => k
  | n + 1, k => if atLeast (units k + units (k + 1)) then search atLeast n (k + 1) else k

/-- ToL6, R109: the code and its flags. -/
def ofVal (cvs : Int) (v : Val) : BitVec 6 × BitVec 32 :=
  match v with
  | .nan _ => (0x10, Flags.nv)
  | .inf s => (code s 15, 0)
  | .fin _ 0 _ => (0x10, 0)
  | .fin s m e0 =>
    let e := e0 - cvs
    -- 2·m·2^e against n·2^-60
    let ge (n : Nat) : Bool :=
      if -61 ≤ e then decide (n ≤ m * 2 ^ (e + 61).toNat) else decide (n * 2 ^ (-61 - e).toNat ≤ m)
    let gt (n : Nat) : Bool :=
      if -61 ≤ e then decide (n < m * 2 ^ (e + 61).toNat) else decide (n * 2 ^ (-61 - e).toNat < m)
    if ge (2 * units 15) then
      (code s 15, Flags.when (gt (2 * units 15)) (Flags.of ||| Flags.nx))
    else if !ge (units (-15)) then (0x10, Flags.uf ||| Flags.nx)
    else
      let k := search ge 30 (-15)
      let exact := ge (2 * units k) && !gt (2 * units k)
      (code s k, Flags.when (!exact) Flags.nx ||| Flags.when (!exact && !ge (2 * units (-15))) Flags.uf)

/-- The product as an element, R106, R121: the code and its flags. -/
def mulElem (a b : BitVec 6) : BitVec 6 × BitVec 32 :=
  if isZero a || isZero b then (0x10, 0)
  else
    let p := log a + log b
    let s := sign a ^^ sign b
    if 15 < p then (code s 15, Flags.of ||| Flags.nx)
    else if p < -15 then (code s (-15), Flags.uf ||| Flags.nx)
    else (code s p, 0)

/-- The product as a term of a sum, in units of 2^−23, R106. -/
def term (a b : BitVec 6) : Int :=
  if isZero a || isZero b then 0
  else
    let p := log a + log b
    let t : Int := (table (p % 4).toNat * 2 ^ (p / 4 + 8).toNat : Nat)
    if sign a ^^ sign b then -t else t

end L6

/-- ToInt, R109, R110: the integer and its flags. -/
def toInt (lo hi : Int) (flt : Bool) (v : Val) : Int × BitVec 32 :=
  match v with
  | .nan _ => (0, Flags.nv)
  | .inf s => (if s then lo else hi, Flags.when flt Flags.nv)
  | .fin s m e =>
    let t : Int := if 0 ≤ e then (m * 2 ^ e.toNat : Nat) else (m / 2 ^ (-e).toNat : Nat)
    let t := if s then -t else t
    if t < lo then (lo, Flags.when flt Flags.nv)
    else if hi < t then (hi, Flags.when flt Flags.nv)
    else (t, Flags.when (flt && decide (e < 0) && m % 2 ^ (-e).toNat != 0) Flags.nx)

end Sys2Proof.Machine
end

