-- ==== Sys2Proof/Machine/Convert.lean ====
section
/-! DEFINITION. The conversions of spec/06 between memory formats (codes MF of R51) and exact values: typed accesses,
convert transforms of the ferry and of aliases, and the packing of elements in a word (R103). -/

namespace Sys2Proof.Machine

namespace Fmt

/-- The bits of one element of memory format MF, R51, R125. -/
def bits (mf : Nat) : Nat :=
  match mf with
  | 1 | 2 | 3 | 4 => 8
  | 5 => 6
  | 8 => 32
  | _ => 16

/-- Elements in a word, R125. -/
def count (mf : Nat) : Nat :=
  match mf with
  | 1 | 2 | 3 | 4 => 4
  | 5 => 5
  | 8 => 1
  | _ => 2

/-- Whether a memory format is scaled, R107. -/
def scaled (mf : Nat) : Bool := decide (1 ≤ mf) && decide (mf ≤ 5)

/-- Whether a memory format is an integer format. -/
def integer (mf : Nat) : Bool := mf == 1 || mf == 2 || mf == 9 || mf == 10

/-- A signed reading of `n` bits. -/
def signed (n b : Nat) : Int := (BitVec.ofNat n b).toInt

/-- The value of an element as stored, before any scale, R108. -/
def dec (mf b : Nat) : Val :=
  match mf with
  | 1 => .ofInt (signed 8 b)
  | 2 => .ofInt (b : Nat)
  | 3 => Fp8.e4m3.dec b
  | 4 => Fp8.e5m2.dec b
  | 5 => L6.dec (BitVec.ofNat 6 b)
  | 6 => f16.dec b
  | 7 => b16.dec b
  | 8 => f32.dec b
  | 9 => .ofInt (signed 16 b)
  | _ => .ofInt (b : Nat)

/-- The value of a memory element read with the scale CVS, R108. -/
def decScaled (mf : Nat) (cvs : Int) (b : Nat) : Val := if scaled mf then (dec mf b).scale cvs else dec mf b

/-- Bits of an integer result. -/
def intBits (n : Nat) (r : Int × BitVec 32) : Nat × BitVec 32 := ((BitVec.ofInt n r.1).toNat, r.2)

/-- A value rounded to a binary format, NV for a signalling NaN, R109. -/
def binary (F : BinFmt) (rm : Nat) (v : Val) : Nat × BitVec 32 := ((F.round rm v).1, (F.round rm v).2 ||| Val.sigFlag [v])

/-- A value converted into memory format MF, R109, R127: element bits and flags. `flt` says that the source is a float. -/
def enc (mf : Nat) (sat : Bool) (rm : Nat) (cvs : Int) (flt : Bool) (v : Val) : Nat × BitVec 32 :=
  match mf with
  | 1 => intBits 8 (toInt (-128) 127 flt (v.scale (-cvs)))
  | 2 => intBits 8 (toInt 0 255 flt (v.scale (-cvs)))
  | 3 => Fp8.e4m3.ofVal sat cvs v
  | 4 => Fp8.e5m2.ofVal sat cvs v
  | 5 => ((L6.ofVal cvs v).1.toNat, (L6.ofVal cvs v).2)
  | 6 => binary f16 rm v
  | 7 => binary b16 rm v
  | 8 => binary f32 rm v
  | 9 => intBits 16 (toInt (-32768) 32767 flt v)
  | _ => intBits 16 (toInt 0 65535 flt v)

/-- The convert transform of R281 and of R241: one element from one format to another of the ferry; nearest even, no
flags. -/
def transform (sf df : Nat) (sat : Bool) (cvs : Int) (b : Nat) : Nat :=
  (enc df sat 0 cvs (!integer sf) (decScaled sf cvs b)).1

/-- Element `i` of a word, R103. -/
def elem (mf : Nat) (w : BitVec 32) (i : Nat) : Nat := w.toNat / 2 ^ (bits mf * i) % 2 ^ bits mf

/-- A word from its elements, element 0 lowest, R103. -/
def pack (n : Nat) (es : List Nat) : BitVec 32 :=
  BitVec.ofNat 32 (es.foldr (fun e acc => acc * 2 ^ n + e % 2 ^ n) 0)

/-- The packed register tag of a memory format, R51. -/
def packedTag (mf : Nat) : BitVec 4 :=
  match mf with
  | 1 => 0x9
  | 2 => 0xA
  | 3 => 0x6
  | 4 => 0x7
  | 5 => 0x8
  | 6 => 0x4
  | 7 => 0x5
  | _ => 0x2

/-- Two elements in a word of 16-bit halves. -/
def halves (es : List (Nat × BitVec 32)) : List (BitVec 32) :=
  match es with
  | [] => []
  | [a] => [pack 16 [a.1]]
  | a :: b :: rest => pack 16 [a.1, b.1] :: halves rest

/-- The flags of two elements that share a word. -/
def halfFlags (es : List (Nat × BitVec 32)) : List (BitVec 32) :=
  match es with
  | [] => []
  | [a] => [a.2]
  | a :: b :: rest => (a.2 ||| b.2) :: halfFlags rest

/-- What a converting typed load writes: for each register of the group its value, and the flags of its elements, R99, R126. -/
def load (mf cv : Nat) (rm : Nat) (cvs : Int) (w : BitVec 32) : List (BitVec 32) × List (BitVec 32) :=
  let vs := (List.range (count mf)).map fun i => decScaled mf cvs (elem mf w i)
  let es := match cv with
    | 1 => vs.map (binary f32 rm)
    | 2 => vs.map (binary f16 rm)
    | 3 => vs.map (binary b16 rm)
    | _ => vs.map fun v => intBits 32 (toInt (-2147483648) 2147483647 false v)
  if cv = 2 ∨ cv = 3 then (halves es, halfFlags es) else (es.map fun e => BitVec.ofNat 32 e.1, es.map (·.2))

/-- The tag a typed load writes, R125, R126. -/
def loadTag (mf cv : Nat) (cvs : BitVec 7) : BitVec 4 × BitVec 7 :=
  match cv with
  | 0 => (packedTag mf, if scaled mf then cvs else 0)
  | 1 => (0x2, 0)
  | 2 => (0x4, 0)
  | 3 => (0x5, 0)
  | _ => (0x1, 0)

/-- The value that source register group `rs` gives for element `i` of a converting store, R127. -/
def storeVal (cv : Nat) (rs : List (BitVec 32)) (i : Nat) : Val :=
  match cv with
  | 1 => f32.dec (rs.getD i 0).toNat
  | 2 => f16.dec ((rs.getD (i / 2) 0).toNat / 2 ^ (16 * (i % 2)) % 2 ^ 16)
  | 3 => b16.dec ((rs.getD (i / 2) 0).toNat / 2 ^ (16 * (i % 2)) % 2 ^ 16)
  | _ => .ofInt (rs.getD i 0).toInt

/-- The word that a typed store writes, and its flags, R127. -/
def store (mf cv : Nat) (sat : Bool) (rm : Nat) (cvs : Int) (rs : List (BitVec 32)) : BitVec 32 × BitVec 32 :=
  if cv = 0 then (if mf = 5 then rs.getD 0 0 &&& 0x3FFFFFFF else rs.getD 0 0, 0)
  else
    let es := (List.range (count mf)).map fun i => enc mf sat rm cvs (cv != 4) (storeVal cv rs i)
    (pack (bits mf) (es.map (·.1)), es.foldl (fun f e => f ||| e.2) 0)

end Fmt

end Sys2Proof.Machine
end

