-- ==== Sys2Proof/Machine/FMap.lean ====
section
/-! DEFINITION. Finite maps from numbers to plain data: lists of key and value pairs with strictly rising keys. Memory,
registers, threads and every table of the device are held in this one form. -/

namespace Sys2Proof.Machine

/-- A finite map: pairs with strictly rising keys. -/
abbrev FMap (α : Type) := List (Nat × α)

namespace FMap

variable {α : Type}

/-- The value at a key, if one is listed. -/
def find? : FMap α → Nat → Option α
  | [], _ => none
  | (k', v) :: m, k => if k' = k then some v else find? m k

/-- The value at a key, `d` where none is listed. -/
def get (d : α) (m : FMap α) (k : Nat) : α := (find? m k).getD d

/-- Lists a value at a key, in place. -/
def put : FMap α → Nat → α → FMap α
  | [], k, v => [(k, v)]
  | (k', v') :: m, k, v =>
    if k' = k then (k, v) :: m
    else if k < k' then (k, v) :: (k', v') :: m
    else (k', v') :: put m k v

/-- Removes every listing of a key. -/
def erase : FMap α → Nat → FMap α
  | [], _ => []
  | (k', v') :: m, k => if k' = k then erase m k else (k', v') :: erase m k

/-- Writes a value in a map whose unlisted keys read as `d`: writing `d` removes the listing. -/
def set [DecidableEq α] (d : α) (m : FMap α) (k : Nat) (v : α) : FMap α :=
  if v = d then erase m k else put m k v

/-- The listed keys. -/
def keys (m : FMap α) : List Nat := m.map (·.1)

/-- The listed values. -/
def values (m : FMap α) : List α := m.map (·.2)

/-- Rewrites every listed value. -/
def mapVals (f : Nat → α → α) : FMap α → FMap α
  | [] => []
  | (k, v) :: m => (k, f k v) :: mapVals f m

/-- Keeps the listings a test accepts. -/
def keep (p : Nat → α → Bool) (m : FMap α) : FMap α := m.filter fun kv => p kv.1 kv.2

/-- Applies `f` to the value at a key where one is listed. -/
def adjust (m : FMap α) (k : Nat) (f : α → α) : FMap α :=
  match find? m k with
  | some v => put m k (f v)
  | none => m

/-- Keys strictly rising from a lower bound. -/
def rising : Option Nat → FMap α → Bool
  | _, [] => true
  | b, (k, _) :: m => (match b with | none => true | some b => decide (b < k)) && rising (some k) m

/-- The canonical form of a map whose unlisted keys read as `d`: keys strictly rising and no listing equal to `d`. -/
def wf [DecidableEq α] (d : α) (m : FMap α) : Bool := rising none m && m.all fun kv => decide (kv.2 ≠ d)

end FMap

/-- Memory: the listed bytes; an unlisted address reads as 0 (log entry 5). -/
abbrev Memory := FMap (BitVec 8)

/-- The canonical form of a memory: addresses strictly rising, no byte listed that an unlisted address reads as. -/
def Memory.wf (m : Memory) : Bool := FMap.wf 0 m

end Sys2Proof.Machine
end

