-- ==== Sys2Proof/Machine/State.lean ====
section
/-! DEFINITION. The state of the device as plain data: every register, memory, queue and table that spec/ names
(INVENTORY.md, State, lists each with its rule), the moves still to come, and the state right after reset. -/

namespace Sys2Proof.Machine

/-! Identifiers. A gang has a number; team `t` of gang `g` is `g * 16 + t`; crew `c` of that team is
`(g * 16 + t) * 32 + c`; the thread in lane `l` of a crew is `crew * 32 + l`; register `v` of a crew is
`crew * 32 + v`; capability group `k` is `crew * 8 + k`. Quads are numbered die * 24 + quad (0 to 191), cores
quad * 4 + core (0 to 767), quarters core * 4 + quarter (0 to 3071). -/

/-- 128 bits of a capability with the tag that travels with them, R166, R171. -/
structure TCap where
  bits : BitVec 128
  tag : Bool
  deriving DecidableEq, Repr

/-- An operation that will write a register lane, with the tag the register held when it issued, R38. -/
structure Pend where
  op : Nat
  fmt : BitVec 4
  scl : BitVec 7
  deriving DecidableEq, Repr

/-- One register of a crew: 32 lanes, one tag, a liveness bit and the pending operations of each lane, R11, R32, R38,
R94; `spilled` while the row stands in the spill region, R304. -/
structure Row where
  fmt : BitVec 4
  scl : BitVec 7
  vals : FMap (BitVec 32)
  live : BitVec 32
  pend : FMap (List Pend)
  spilled : Bool
  deriving DecidableEq, Repr

/-- A register no lane has written: RAW, 0, dead, R32. -/
def Row.empty : Row := ⟨0, 0, [], 0, [], false⟩

/-- What a parked thread waits for, R36, R327, R333. -/
inductive ParkWhy where
  | send (dir : BitVec 2) | recv (dir : BitVec 2) | acquire (la : Nat) | take (la : Nat)
  deriving DecidableEq, Repr

/-- Where a thread stands, R301. `woken` is a parked thread whose condition has cleared and whose instruction is still to
be executed again (R36, R327). `bwait` holds the object, the phase last seen, the predicate and the bound; `svc` the
batch; `fetchw` the mailbox and handle; `saved` is a thread that parked in its save handler (R397); `stopped` one that
pre-emption holds at a run boundary (R381). -/
inductive TStat where
  | ready
  | wait (ld st cp tl : BitVec 4)
  | bar (gang : Bool)
  | bwait (la : Nat) (phase pd : BitVec 4) (bound : Option Nat)
  | parked (why : ParkWhy)
  | woken (why : ParkWhy)
  | svc (batch : Nat)
  | fetchw (la : Nat) (handle : BitVec 64)
  | halted
  | saved
  | stopped
  | exited
  deriving DecidableEq, Repr

/-- One thread: PC, predicates, FCTL, the four counters, trap registers, and the state of its run; when it parked, which orders the waiters
at a buffer (R327), the TPC with which it entered its save handler (R397), and whether it has entered a restore handler, in user mode (R383,
R396). -/
structure Thread where
  pc : Nat
  preds : BitVec 16
  fctl : BitVec 32
  ld : Nat
  st : Nat
  cp : Nat
  tl : Nat
  tpc : BitVec 32
  tcause : BitVec 32
  tval : BitVec 32
  handling : Bool
  inSave : Bool
  resume : Bool
  clkHi : BitVec 32
  drops : BitVec 16
  hints : BitVec 32
  stat : TStat
  cont : Nat
  runLen : Nat
  runStart : Nat
  since : Nat
  age : Nat
  seen : Nat
  parkedAt : Nat
  saveTpc : BitVec 32
  user : Bool
  deriving DecidableEq, Repr

/-- A thread at a run entry with every register of R82 to R98 at its value at task entry. -/
def Thread.fresh (pc : Nat) : Thread :=
  ⟨pc, 0, 0, 0, 0, 0, 0, 0, 0, 0, false, false, false, 0, 0, 0, .ready, 0, 0, pc, 0, 0, 0, 0, 0, false⟩

/-- A resident crew's place, R9, R302; `retired` once its last thread has exited, R305. -/
structure Crew where
  quarter : Nat
  slot : Nat
  placed : Nat
  retired : Bool
  deriving DecidableEq, Repr

/-- The issue group that holds a quarter's slot, with its run's length and first address, R33 to R36; `held` while its
instruction is held at issue by a counter at 63, by an earlier fence or for a row (R89, R256, R304), and `short` the rows it is then held
for. -/
structure Group where
  crew : Nat
  lanes : BitVec 32
  count : Nat
  start : Nat
  held : Bool
  short : Nat
  deriving DecidableEq, Repr

/-- An entry of a port queue, R332. -/
structure PortEntry where
  bits : BitVec 32
  fmt : BitVec 4
  scl : BitVec 7
  deriving DecidableEq, Repr

/-- A sent entry on its way, with the fences it is held behind, R261, R332. -/
structure Flight where
  from_ : Nat
  dest : Nat
  dir : BitVec 2
  entry : PortEntry
  fences : List Nat
  deriving DecidableEq, Repr

/-- Where a gang stands, R298, R312, R314, R382 to R385. `image` is a hardware save or a swap-out, `residue` a cooperative
save. -/
inductive GStat where
  | pending | resident | image | residue | swapped | adopted (by_ : Nat) | retired
  deriving DecidableEq, Repr

/-- The phase change or bound that wakes a swapped gang, R314. -/
structure WakeOn where
  la : Nat
  phase : BitVec 4
  bound : Option Nat
  deriving DecidableEq, Repr

/-- A weight plane and its owner, R132. -/
structure Plane where
  owner : Option Nat
  fmt : Nat
  rows : List (List (BitVec 64))
  deriving DecidableEq, Repr

/-- A gang. `cores` gives each team's core at its latest placement; `preempt` is set by the distributor, with `true` for the
cooperative path (R380); `planes` are those of its image, each with its crew and whether it was active (R384). -/
structure Gang where
  task : Nat
  gx : Nat
  gy : Nat
  gz : Nat
  stat : GStat
  cores : FMap Nat
  rings : Nat
  preempt : Option Bool
  adopts : List Nat
  deadTeams : BitVec 16
  wake : Option WakeOn
  planes : List (Nat × Bool × Plane)
  placed : Nat
  placedAt : Nat
  deriving DecidableEq, Repr

/-- The 128 bits of a capability, R166; Ops.lean reads its fields. -/
structure Cap where
  bits : BitVec 128
  deriving DecidableEq, Repr

/-- A task record as the device reads it, R299. -/
structure TaskRec where
  code : TCap
  param : TCap
  entry : Nat
  handler : Nat
  save : Nat
  restore : Nat
  ngx : Nat
  ngy : Nat
  ngz : Nat
  teams : Nat
  crews : Nat
  floor : Nat
  peak : Nat
  spad : Nat
  ring : Nat
  prio : Nat
  flags : BitVec 16
  gridH : Nat
  gridW : Nat
  edges : BitVec 8
  rlimit : Nat
  queue : Nat
  done : TCap
  nreg : Nat
  regs : List (TCap × Nat)
  deriving DecidableEq, Repr

/-- The stages of a task (spec/01, One task from submission to completion). -/
inductive Stage where
  | queued | window | leased | completed
  deriving DecidableEq, Repr

/-- One 64 KiB block of a lease, whether it admits writes, and the translation under which the lease stands until a
shootdown: the frame, whether it may be fetched from, and the blocks of its page, R210 to R212, R215, R220. -/
structure LeaseBlk where
  block : Nat
  write : Bool
  frame : Nat
  exec : Bool
  leaf : Nat
  deriving DecidableEq, Repr

/-- A task. `at_` is the address of its record; `next` counts the gangs taken from the grid so far; `gangs` lists the gangs that exist;
`pins` the Pool pages its lease holds; `doomed` a code that stands once its other gangs have retired (R151); `fault` the cause, TPC and TVAL
of the fault that ended it, R374. -/
structure Task where
  record : TaskRec
  at_ : Nat
  world : Nat
  queue : Nat
  handle : BitVec 64
  cls : Nat
  stage : Stage
  lease : List LeaseBlk
  pins : List Nat
  relaunches : Nat
  code : Option EndCode
  doomed : Option EndCode
  fault : Option (BitVec 32 × BitVec 32 × BitVec 32)
  next : Nat
  gangs : List Nat
  deriving DecidableEq, Repr

/-- A queue: its ring, the tasks that wait in it and when the first of them became so (R308), its scheduling settings (R311), its deficit in
1/64 core-cycles (R309), its status block (R416), and the gangs that go ahead of its pending ones (R310). -/
structure Queue where
  world : Nat
  base : Nat
  size : Nat
  tail : BitVec 16
  consumed : BitVec 32
  denied : BitVec 16
  seq : BitVec 32
  waiting : List Nat
  headAt : Nat
  ahead : List Nat
  deficit : Int
  quantum : BitVec 32
  swapthr : BitVec 32
  domain : BitVec 12
  lasth : BitVec 64
  image : BitVec 32
  tval : BitVec 32
  tpc : BitVec 32
  cause : BitVec 8
  code : BitVec 8
  deriving DecidableEq, Repr

/-- The TDISP states, R198. -/
inductive Tdisp where
  | unlocked | locked | run | error
  deriving DecidableEq, Repr

/-- A world: its interface state, its configuration block, its dependence window, its alias entries in use, its rotating
placement pointer, the queue it served last and its checkpoint counters, R194 to R201, R308, R310, R390; `stopping` while a
STOP_INTERFACE waits for its end (R198), `restoring` while the world is quiesced for a restore (R389, R392); `refused` counts the
error responses that its interface has given (R198, R199), and `restored` is the checkpoint that its last restore report names
(R392). -/
structure World where
  tdisp : Tdisp
  mask : BitVec 40
  queues : List Nat
  root : Nat
  vectors : List Nat
  sysScope : Bool
  devScope : Bool
  quota : Nat
  used : Nat
  conf : Bool
  measure : Option (List Nat)
  pointer : Option Nat
  lastQ : Nat
  window : List Nat
  completions : Nat
  trigger : Bool
  stopping : Bool
  restoring : Bool
  refused : Nat
  restored : Option Nat
  deriving DecidableEq, Repr

/-- A world right after reset, R198, R200; the values the spec does not state are log entry 6. -/
def World.fresh : World := ⟨.unlocked, 0, [], 0, [], false, false, 0, 0, false, none, none, 0, [], 0, false, false, false, 0, none⟩

/-- Whether an interface accepts submissions and its gangs may run, R198. -/
def World.running (w : World) : Bool := decide (w.tdisp = .run) && !w.stopping

/-- A byte held by an L1 or a quad cache, R223, R254: listed means valid. -/
structure CByte where
  val : BitVec 8
  dirty : Bool
  deriving DecidableEq, Repr

/-- The world tag, granule tags and poison that a cached line carries, R171, R195, R224. -/
structure CMeta where
  world : Nat
  tags : BitVec 8
  poison : Bool
  deriving DecidableEq, Repr

/-- The metadata word of a line, R224; `since` tells when poison last came to a poisoned line, for a copy that writes the line in pieces
(R388). -/
structure LineMeta where
  poison : Bool
  shadow : Bool
  alias_ : Bool
  tags : BitVec 8
  since : Nat
  deriving DecidableEq, Repr

/-- A line's metadata after erasure, R224. -/
def LineMeta.clear : LineMeta := ⟨false, false, false, 0, 0⟩

/-- An alias entry, R234; `len` is DLENM1 + 1 and `state` 0 FREE, 1 LIVE, 2 LANDING. -/
structure AliasEntry where
  landed : BitVec 64
  state : BitVec 2
  world : Nat
  hot : Nat
  convert : Bool
  xp : BitVec 16
  link : Option Nat
  doff : Nat
  len : Nat
  dblk : Nat
  src : Nat
  depth : Nat
  tc : Bool
  deriving DecidableEq, Repr

/-- A translation held for a task by a core's TLB, R212, R220: `leaf` blocks from `block`, whose frames rise from `pa`. -/
structure TlbEntry where
  core : Nat
  task : Nat
  block : Nat
  pa : Nat
  write : Bool
  leaf : Nat
  deriving DecidableEq, Repr

/-- A translation in the walk-ahead TLB of a quad's ferry, R214: the frame of a block, none for a denied entry. -/
structure AheadEntry where
  quad : Nat
  task : Nat
  block : Nat
  write : Bool
  frame : Option Nat
  deriving DecidableEq, Repr

/-- A Pool page cached in an HBM frame, R218. -/
structure FrameEntry where
  pins : Nat
  used : Nat
  owner : Nat
  deriving DecidableEq, Repr

/-- A Pool extent, R216, R409, or one that was given up (R196). -/
structure Extent where
  world : Nat
  base : Nat
  size : Nat
  revoking : Option Nat
  deriving DecidableEq, Repr

/-- The place an access reaches: a physical address, or a local address of a gang, R207. -/
inductive Place where
  | global (pa : Nat)
  | scratch (gang la : Nat)
  deriving DecidableEq, Repr

/-- The thirteen atomics, R271. -/
inductive AtomFn where
  | add | smin | smax | umin | umax | and | or | xor | xchg | cas | fadd | addD | casD
  deriving DecidableEq, Repr

/-- How returned load data is turned into register values, R69, R126, R189. -/
inductive LoadFn where
  | plain (size : Nat) (sext : Bool)
  | typed (mf : BitVec 4) (cv : BitVec 3) (rm : BitVec 2) (cvs : BitVec 7)
  | cap (lc : Bool)
  deriving DecidableEq, Repr

/-- A transfer: two capabilities, the addresses of each element, and what the record asks for, R275, R278, R281. -/
structure Xfer where
  src : Cap
  dst : Cap
  pairs : List (Int × Int)
  ssize : Nat
  dsize : Nat
  xform : Nat
  xp : BitVec 16
  contig : Bool
  lazy : Bool
  dbuf : Bool
  mcast : BitVec 16
  deriving DecidableEq, Repr

/-- A byte that the ferry has read for a destination byte: its value and poison, the place it was copied from, whether that
granule was tagged, and the reading it belongs to, R179, R247. -/
structure ReadByte where
  val : BitVec 8
  poison : Bool
  from_ : Option Place
  tag : Bool
  turn : Nat
  deriving DecidableEq, Repr

/-- A byte of a compressed stream: past the end of what may be read, outside the lease, or there, R227, R230. -/
inductive StreamByte where
  | past | denied | here (b : BitVec 8) (poison : Bool)
  deriving DecidableEq, Repr

/-- An eager transfer under way, R226, R247, R282: the bytes of a compressed stream read so far; the elements read so far, in order (no
bytes for one outside its region); the readings so far; the slot of a buffer; the elements written for each destination; the bytes
written there and not yet counted; and the lines of which it has written some bytes, as long as no poison has come to them since, each
with the poison that it then had (R388). -/
structure Moving where
  x : Xfer
  raw : List StreamByte
  got : List (Option (List ReadByte))
  turns : Nat
  slot : Option Nat
  wrote : FMap Nat
  due : FMap Nat
  begun : FMap Nat
  deriving DecidableEq, Repr

/-- How far a copy has come, R292, R247, R282. `recording` holds the virtual ranges, the convert transform, whether tags may
be carried, the next destination block, and the entries reserved (R233); `waiting` a transfer, its record read, into a buffer without a
free slot (R277, R328); `moving` an eager transfer; `filling` the slot of a buffer that is to be put. -/
inductive JobStage where
  | accepted
  | waiting (x : Xfer)
  | recording (sva dva size : Nat) (xp : Option (BitVec 16)) (tc : Bool) (next : Nat) (held : List Nat)
  | moving (m : Moving)
  | filling (slot : Nat)
  deriving DecidableEq, Repr

/-- A copy in flight: `cpy`, or `tcpy` with its tile coordinates and object (R275 to R282). -/
structure Job where
  src : BitVec 128
  dst : BitVec 128
  size : Nat
  scope : Nat
  eager : Bool
  record : Option (BitVec 128)
  object : Nat
  tile : List Nat
  cvs : BitVec 7
  stage : JobStage
  deriving DecidableEq, Repr

/-- The counter-tracked operations and fences in flight, R38, R87, R256. A record that crosses a 64 KiB block has two parts; the
first `skip` bytes of a batch record are those whose place has been lost (R216); a ring access has its tile and the count that it
named, and a ring load is `undef` where a request has targeted that count since it was made (R148). -/
inductive OpKind where
  | load (fn : LoadFn) (at_ : Place) (size : Nat) (regs : List Nat)
  | store (at_ : Place) (data : List (BitVec 8)) (tag : Bool)
  | atomic (fn : AtomFn) (scope : Nat) (at_ : Place) (size : Nat) (regs : List Nat) (s e : BitVec 64) (rm : BitVec 2)
  | query (pa : Nat) (reg : Nat)
  | ringLoad (quad tile slot reg count : Nat) (undef : Bool)
  | ringStore (quad tile slot count : Nat) (data : BitVec 32)
  | fence (kind scope : Nat)
  | flush (fn scope : Nat) (at_ : Place)
  | copy (job : Job)
  | materialise (va size scope : Nat)
  | launch (va : Nat) (reg : Nat)
  | contextStore (parts : List (Place × List (BitVec 8)))
  | contextLoad (parts : List (Place × Nat))
  | batchGet (parts : List (Place × Nat)) (batch : Option Nat) (skip : Nat)
  | batchPut (parts : List (Place × Nat))
  deriving DecidableEq, Repr

/-- An operation in flight: its thread and the instruction stamp it shares with the other lanes. -/
structure Op where
  thread : Nat
  insn : Nat
  kind : OpKind
  deriving DecidableEq, Repr

/-- The lanes a counter-tracked instruction has written in one row so far, and the tag they agree on, R97. -/
structure Acc where
  lanes : BitVec 32
  tag : Option (BitVec 4 × BitVec 7)
  poison : Bool
  deriving DecidableEq, Repr

/-- The parameter block of a matrix request, R154. -/
structure Block where
  op : Nat
  afmt : Nat
  bfmt : Nat
  acc : Bool
  sat : Bool
  newTile : Bool
  swap : Bool
  epi : Bool
  m : Nat
  n : Nat
  k : Nat
  scla : Int
  sclb : Int
  tile : Nat
  qtr : Nat
  aoff : Nat
  astr : Nat
  aswz : Nat
  boff : Nat
  bstr : Nat
  bswz : Nat
  consumed : Nat
  done : Nat
  deriving DecidableEq, Repr

/-- An epilogue block, R163. -/
structure EpiBlock where
  scale : BitVec 32
  bias : Nat
  lo : BitVec 32
  hi : BitVec 32
  outfmt : Nat
  outscl : Int
  sat : Bool
  rel : Bool
  out : Nat
  ostr : Nat
  deriving DecidableEq, Repr

/-- What an entry of a gang's request stream asks for, R133, R160, R162. `pos` is the target count fixed at issue.
`restore` loads a saved plane (R384). -/
inductive ReqKind where
  | load (b : Block)
  | pass (b : Block) (pos : Nat) (epi : Option EpiBlock)
  | drain (e : EpiBlock)
  | release
  | clear (pos : Nat) (none_ : Bool)
  | restore (p : Plane) (act : Bool)
  deriving DecidableEq, Repr

/-- An entry of a request stream, R133, R134, R156. `granted` holds the place in the engine's order of grants, `fed` that the
operands have been read (`aBits`, `bBits`: A and B row by row; `bias`: the words of its epilogue's bias range that could be
read), `sectors` the 64-byte sectors read before that, by address (R149); `spoilt` the slots, each with its count, that an `rst` has left
undefined (R148); `passed` that the result is in the ring, `epiNo` the place of its epilogue in the order of R146. -/
structure Req where
  gang : Nat
  quad : Nat
  thread : Nat
  kind : ReqKind
  prio : Nat
  tabled : Bool
  readyAt : Option Nat
  aged : Bool
  permit : Bool
  granted : Option Nat
  fed : Bool
  passed : Bool
  aBits : List (List (BitVec 64))
  bBits : List (List (BitVec 64))
  bias : List (Option (BitVec 32))
  sectors : FMap (List (BitVec 8))
  spoilt : List (Nat × Nat)
  epiNo : Option Nat
  deriving DecidableEq, Repr

/-- The recorded kind and extent of a ring tile, R138: kind 0 none, 1 F32, 2 I32, 3 F64. -/
structure Tile where
  kind : Nat
  rows : Nat
  cols : Nat
  poison : Bool
  deriving DecidableEq, Repr

/-- A tile of zeros with no kind, R136. -/
def Tile.clear : Tile := ⟨0, 0, 0, false⟩

/-- A service batch, R353, R355, R402: the calling lanes with their TIDs and arguments, its place in the order of arrival,
and the thread and record address it is bound to; `aborted` once its service context has failed and its callers are still to be told. -/
structure Batch where
  num : BitVec 8
  world : Nat
  die : Nat
  task : BitVec 64
  crew : Nat
  callers : List (Nat × Nat × List (BitVec 32))
  sent : Option Nat
  bound : Option (Nat × Nat)
  aborted : Bool
  deriving DecidableEq, Repr

/-- A registered `fetchw` request, R351. -/
structure Fetch where
  gang : Nat
  la : Nat
  handle : BitVec 64
  deriving DecidableEq, Repr

/-- A bounce-buffer channel, R205. -/
structure Chan where
  last : BitVec 64
  state : Nat
  cause : Nat
  deriving DecidableEq, Repr

/-- A revocation sweep of a world: the marked ranges, the descriptors that report it with their dies, its restarts, and
whether the walk has covered everything, R180 to R182, R400, R401. -/
structure Sweep where
  ranges : List (Nat × Nat)
  descs : List (Nat × Nat)
  restarts : Nat
  walked : Bool
  deriving DecidableEq, Repr

/-- A checkpoint of a world, R252, R391, R392: its number, the frames of its snapshot area, the lines not yet shipped (each with its
line in the area), the lines shipped to the buddy with what the buddy holds, and the saved gangs, queues, calls of services and firmware
record of its recording point. -/
structure Snapshot where
  number : Nat
  frames : List Nat
  todo : List (Nat × Nat)
  shipped : List Nat
  mem : Memory
  meta_ : FMap LineMeta
  world : World
  queues : FMap Queue
  tasks : FMap Task
  gangs : FMap Gang
  rows : FMap Row
  valid : FMap (BitVec 32)
  threads : FMap Thread
  ports : FMap (List PortEntry)
  spad : Memory
  spadTag : FMap Bool
  spadPoison : FMap Bool
  ringH : FMap Nat
  ringT : FMap Nat
  ring : FMap (BitVec 32)
  tiles : FMap Tile
  epi : FMap EpiBlock
  revoked : List (Nat × Nat)
  batches : FMap Batch
  fetches : FMap Fetch
  deriving DecidableEq, Repr

/-- A forwarding entry that a gang's team left at a core: the copies still in flight to its scratchpad, R315. -/
structure Fwd where
  core : Nat
  gang : Nat
  team : Nat
  ops : List Nat
  deriving DecidableEq, Repr

/-- The start-up registers of the device, R12, R206, R209, R393, R410, R412. -/
structure Boot where
  stage : Nat
  halt : Nat
  recovery : Bool
  featOffer : BitVec 128
  featAccept : BitVec 128
  accepted : Bool
  image : Nat
  imageOk : Bool
  cert : List Nat
  slices : FMap Nat
  frameN : Nat
  deriving DecidableEq, Repr

/-- The privileged registers and counters of the device, R135, R203, R236, R390, R403, R411, R417. -/
structure DevRegs where
  eraseCap : FMap (BitVec 4)
  aliasHot : FMap (BitVec 6)
  ckptCtl : BitVec 32
  ckptSince : Nat
  ckptBase : FMap Nat
  retrain : BitVec 16
  pmtWait : FMap (BitVec 64)
  pmtDie : FMap (BitVec 64)
  corrected : FMap Nat
  faultLog : FMap (List (BitVec 32))
  faultLost : FMap Bool
  evtSeq : FMap Nat
  svcTurn : FMap Nat
  deriving DecidableEq, Repr

/-- What moves: a device event, or the group that holds a quarter's slot; an empty move lets time pass. -/
inductive Act where
  | event (i : Instr)
  | run (quarter : Nat)
  | idle
  deriving DecidableEq, Repr

/-- A move and the device-clock cycles it takes (log entry 2). -/
structure Move where
  act : Act
  cycles : Nat
  deriving DecidableEq, Repr

/-- The whole device. INVENTORY.md gives the rule of each field. -/
structure State where
  boot : Boot
  regs : DevRegs
  clock : Nat
  mem : Memory
  poolMem : Memory
  meta_ : FMap LineMeta
  cbytes : FMap CByte
  cmeta : FMap CMeta
  owner : FMap Nat
  shared : FMap (List Nat)
  unswept : List Nat
  frames : FMap FrameEntry
  poolCtr : FMap (BitVec 56)
  reenc : List Nat
  rewaits : FMap Nat
  keyVer : FMap Nat
  extents : FMap Extent
  past : List Extent
  tlb : List TlbEntry
  ahead : List AheadEntry
  alias_ : FMap AliasEntry
  spad : Memory
  spadTag : FMap Bool
  spadPoison : FMap Bool
  ops : FMap Op
  accs : FMap Acc
  crews : FMap Crew
  rows : FMap Row
  valid : FMap (BitVec 32)
  threads : FMap Thread
  slots : FMap Group
  yielded : FMap Group
  ports : FMap (List PortEntry)
  flights : List Flight
  gangs : FMap Gang
  ringH : FMap Nat
  ringT : FMap Nat
  ring : FMap (BitVec 32)
  tiles : FMap Tile
  epi : FMap EpiBlock
  reqs : FMap Req
  active : FMap Plane
  shadow : FMap Plane
  resv : FMap Nat
  tasks : FMap Task
  queues : FMap Queue
  worlds : FMap World
  sweeps : FMap Sweep
  batches : FMap Batch
  fetches : FMap Fetch
  chans : FMap Chan
  fwds : List Fwd
  snaps : FMap Snapshot
  durable : FMap Snapshot
  agenda : List Move
  cur : Nat
  freeCtr : Nat
  nextId : Nat
  deriving DecidableEq, Repr

/-- The start-up registers after reset, R410, R412; the values the spec does not state are log entry 6. -/
def Boot.reset : Boot :=
  ⟨1, 0, false, 0x3F, 0, false, 0, true, [0, 1, 2, 3, 4, 5, 6, 7, 8], [], 0⟩

/-- The privileged registers after reset, R203, R236, R390, R411: maps list only what differs from the reset value. -/
def DevRegs.reset : DevRegs := ⟨[], [], 0x00000401, 0, [], 16, [], [], [], [], [], [], []⟩

/-- The machine right after reset. -/
def State.reset : State :=
  ⟨Boot.reset, DevRegs.reset, 0, [], [], [], [], [], [], [], [], [], [], [], [], [], [], [], [], [], [], [], [], [], [], [], [], [],
   [], [], [], [], [], [], [], [], [], [], [], [], [], [], [], [], [], [], [], [], [], [], [], [], [], [], [], 0, 0, 1⟩

/-- The machine stops with a fault: no transition of this device does; the spec gives every fault a next state
(spec/24). Kept for the interface. Safe: nothing raises it. -/
inductive Fault where
  /-- Raised by nothing. Safe. -/
  | none
  deriving DecidableEq, Repr

/-- An instruction without a meaning. -/
inductive Refusal where
  /-- An instruction that has no meaning yet, by its mnemonic; raised by `exec`. Safe: the run ends there. -/
  | notModelled (mnemonic : String)
  deriving DecidableEq, Repr

end Sys2Proof.Machine
end

