-- ==== Sys2Proof/Machine/Mem.lean ====
section
/-! DEFINITION. Memory: the home slices with their metadata, the redirected reads and landings of spec/14, the L1s and quad
caches of spec/13 and spec/15, scratchpads, and translation under a lease. -/

namespace Sys2Proof.Machine

/-! ## Bytes and words -/

/-- The little-endian number that bytes hold. -/
def leNat : List (BitVec 8) → Nat
  | [] => 0
  | b :: bs => b.toNat + 256 * leNat bs

/-- `n` little-endian bytes of a number. -/
def leBytes : Nat → Nat → List (BitVec 8)
  | 0, _ => []
  | n + 1, v => BitVec.ofNat 8 v :: leBytes n (v / 256)

/-- `n` consecutive numbers from `a`. -/
def span : Nat → Nat → List Nat
  | _, 0 => []
  | a, n + 1 => a :: span (a + 1) n

/-- What is reached through `next` from some numbers that are seen, those seen among them; the first argument bounds the steps. -/
def reach (next : Nat → List Nat) : Nat → List Nat → List Nat → List Nat
  | 0, seen, _ => seen
  | n + 1, seen, front =>
    match (front.flatMap next).eraseDups.filter fun x => !seen.contains x with
    | [] => seen
    | y :: ys => reach next n (seen ++ y :: ys) (y :: ys)

/-- A bit of a mask set or cleared. -/
def setBit {w : Nat} (x : BitVec w) (i : Nat) (b : Bool) : BitVec w :=
  if b then x ||| BitVec.twoPow w i else x &&& ~~~ BitVec.twoPow w i

namespace FMap

variable {α : Type}

/-- Replaces every listing with a key in `[lo, hi)` by `new`, whose keys lie there and rise. -/
def splice (m : FMap α) (lo hi : Nat) (new : FMap α) : FMap α :=
  (m.filter fun kv => decide (kv.1 < lo)) ++ new ++ (m.filter fun kv => decide (hi ≤ kv.1))

/-- The listings with a key in `[lo, hi)`. -/
def slice (m : FMap α) (lo hi : Nat) : FMap α := m.filter fun kv => decide (lo ≤ kv.1) && decide (kv.1 < hi)

end FMap

/-- What one line holds at a level: 128 bytes, granule tags, poison. -/
structure LineData where
  bytes : List (BitVec 8)
  tags : BitVec 8
  poison : Bool
  deriving DecidableEq, Repr

/-! ## The home slices -/

/-- Whether a physical address lies in Pool memory, R208. -/
def isPool (pa : Nat) : Bool := pa / 2 ^ 51 % 2 == 1

/-- The live side-cache slices of a die, R12. -/
def State.liveSlices (s : State) (die : Nat) : Nat := s.boot.slices.get 64 die

/-- The home die of a physical address, R208. -/
def homeDie (pa : Nat) : Nat := pa / 65536 % 8

/-- The side-cache slice of an address's line on its home die, R224. -/
def State.homeSlice (s : State) (pa : Nat) : Nat := pa / 128 % s.liveSlices (homeDie pa)

/-- The set of an address's line in its slice, R204, R224. -/
def State.homeSet (s : State) (pa : Nat) : Nat :=
  pa / 128 / s.liveSlices (homeDie pa) % 64 + 64 * (pa / 2 ^ 19 % 16)

/-- A byte at its home slice. -/
def State.homeByte (s : State) (pa : Nat) : BitVec 8 := s.mem.get 0 pa

/-- The metadata of a line, R224. -/
def State.lineMeta (s : State) (x : Nat) : LineMeta := s.meta_.get LineMeta.clear x

/-- Rewrites the metadata of a line. -/
def State.setMeta (s : State) (x : Nat) (f : LineMeta → LineMeta) : State :=
  { s with meta_ := s.meta_.set LineMeta.clear x (f (s.lineMeta x)) }

/-- Poison set, or cleared where `b` is false, R387, R388. -/
def LineMeta.setPoison (m : LineMeta) (b : Bool) (now : Nat) : LineMeta := { m with poison := b, since := if b then now else 0 }

/-- A line marked poisoned at its home slice, R387. -/
def State.markPoison (s : State) (x : Nat) : State := s.setMeta x fun m => m.setPoison true (s.freeCtr + 1)

/-- Bytes written at the home slices, with no other effect. -/
def State.rawWrite (s : State) (pa : Nat) (bs : List (BitVec 8)) : State :=
  { s with mem := (bs.foldl (fun (am : Nat × FMap (BitVec 8)) b => (am.1 + 1, am.2.set 0 am.1 b)) (pa, s.mem)).2 }

/-- A number held at the home slices, with no redirect. -/
def State.homeNat (s : State) (pa n : Nat) : Nat := leNat ((span pa n).map s.homeByte)

/-! ## Aliases, spec/14 -/

namespace AliasEntry

/-- The first destination byte. -/
def start (e : AliasEntry) : Nat := e.dblk * 4096 + e.doff

/-- Whether a byte is in an entry's destination range. -/
def inRange (e : AliasEntry) (pa : Nat) : Bool := decide (e.start ≤ pa) && decide (pa < e.start + e.len)

/-- Whether an entry still supplies a byte: in its range, in a sector not landed, R241. -/
def supplies (e : AliasEntry) (pa : Nat) : Bool :=
  e.state != 0 && e.inRange pa && !e.landed.getLsbD (pa % 4096 / 64)

/-- The source byte of a destination byte. -/
def srcOf (e : AliasEntry) (pa : Nat) : Nat := e.src + (pa - e.start)

/-- The bytes of an element of a convert entry's source; 1 for identity. -/
def unit (e : AliasEntry) : Nat := if e.convert then Fmt.bits (e.xp.extractLsb' 12 4).toNat / 8 else 1

/-- The source bytes that a destination byte is made from: those of its whole element, R234. -/
def srcsOf (e : AliasEntry) (pa : Nat) : List Nat := span (e.src + (pa - e.start) / e.unit * e.unit) e.unit

/-- Whether an entry covers some byte of a line, LANDED or not. -/
def covers (e : AliasEntry) (x : Nat) : Bool :=
  e.state != 0 && decide (e.start < (x + 1) * 128) && decide (x * 128 < e.start + e.len)

/-- Whether an entry covers some byte of a line that has not landed. -/
def shows (e : AliasEntry) (x : Nat) : Bool := (span (x * 128) 128).any e.supplies

/-- Whether an entry still takes a byte in `[a, a + n)` as a source. -/
def takes (e : AliasEntry) (a n : Nat) : Bool :=
  (span e.start e.len).any fun pa => e.supplies pa && (e.srcsOf pa).any fun b => decide (a ≤ b) && decide (b < a + n)

end AliasEntry

/-- The entry that supplies a byte, if one does: no byte has two (R239). -/
def State.supplier (s : State) (pa : Nat) : Option AliasEntry := s.alias_.values.find? fun e => e.supplies pa

/-- The value of a byte as a read at its home slice returns it, R241. -/
def State.aliasByte : Nat → State → Nat → BitVec 8
  | 0, s, pa => s.homeByte pa
  | n + 1, s, pa =>
    match s.supplier pa with
    | none => s.homeByte pa
    | some e =>
      if e.convert then
        let sf := (e.xp.extractLsb' 12 4).toNat
        let df := (e.xp.extractLsb' 8 4).toNat
        let v := leNat ((e.srcsOf pa).map (State.aliasByte n s))
        let r := Fmt.transform sf df (e.xp.getLsbD 7) (e.xp.extractLsb' 0 7).toInt v
        BitVec.ofNat 8 (r / 256 ^ ((pa - e.start) % e.unit))
      else State.aliasByte n s (e.srcOf pa)

/-- The lines that an entry still takes bytes of a line from. -/
def State.sources (s : State) (x : Nat) : List Nat :=
  (s.alias_.values.flatMap fun e => ((span (x * 128) 128).filter e.supplies).flatMap fun pa => (e.srcsOf pa).map (· / 128)).eraseDups

/-- A bound on the steps of a chain of lines: each but the last is a destination line of some entry, which covers at most 33. -/
def State.chainBound (s : State) : Nat := s.alias_.length * 33 + 1

/-- A line, and the lines that a read of it reads through redirects, R241: each once, however long the chain and wherever its parts have
landed (R244). -/
def State.feeders (s : State) (x : Nat) : List Nat := reach s.sources s.chainBound [x] [x]

/-- Whether a line is returned poisoned, R241: it, or a line that it is read through, is poisoned and gives a byte of its own. -/
def State.aliasPoison (s : State) (x : Nat) : Bool :=
  (s.feeders x).any fun y => (s.lineMeta y).poison && (span (y * 128) 128).any fun pa => (s.supplier pa).isNone

/-- The G permission of the capability that a granule's bytes hold (PERM bit 5 is bit 117). -/
def capG (bs : List (BitVec 8)) : Bool := leNat bs / 2 ^ 117 % 2 == 1

/-- The BASE that 16 bytes of a granule hold, R166. -/
def capBaseOf (bs : List (BitVec 8)) : Nat := leNat bs / 2 ^ 40 % 2 ^ 56

/-- Whether a running sweep of a world marks a base, R180, R181. -/
def State.marked (s : State) (w base : Nat) : Bool :=
  match s.sweeps.find? w with
  | none => false
  | some sw => sw.ranges.any fun r => decide (r.1 ≤ base) && decide (base < r.1 + r.2)

/-- Whether a running sweep of a world marks the capability that 16 bytes hold; a LOCAL one has no global base. -/
def State.marksCap (s : State) (w : Nat) (bs : List (BitVec 8)) : Bool :=
  leNat bs / 2 ^ 120 % 16 != 1 && s.marked w (capBaseOf bs)

/-- Whether a frame belongs to a snapshot area, R252. -/
def State.inArea (s : State) (frame : Nat) : Bool := s.snaps.any fun kp => kp.2.frames.contains frame

/-- A byte as a read at its home slice returns it: no chain has more entries than there are, R240, R241. -/
def State.aliasRead (s : State) (pa : Nat) : BitVec 8 := State.aliasByte s.alias_.length s pa

/-- The tag of the granule at `g * 16` as a read or a landing gives it, R248; a snapshot has every tag of its sources, R252 (log
entry 19). -/
def State.aliasTag : Nat → State → Nat → Bool
  | 0, s, g => (s.lineMeta (g / 8)).tags.getLsbD (g % 8)
  | n + 1, s, g =>
    if s.alias_.isEmpty then (s.lineMeta (g / 8)).tags.getLsbD (g % 8)
    else match (span (g * 16) 16).filterMap s.supplier with
      | [] => (s.lineMeta (g / 8)).tags.getLsbD (g % 8)
      | e :: _ =>
        let bs := (span (e.srcOf (g * 16)) 16).map s.aliasRead
        e.tc && e.inRange (g * 16) && e.inRange (g * 16 + 15) && State.aliasTag n s (e.srcOf (g * 16) / 16) && (capG bs || s.inArea (e.dblk / 16))
          && !s.marksCap e.world bs

/-- A granule's tag as a read at its home slice returns it. -/
def State.readTag (s : State) (g : Nat) : Bool := State.aliasTag s.alias_.length s g

/-- ReadAliased, R241: what a line returns at its home slice. -/
def State.readAliased (s : State) (x : Nat) : LineData :=
  ⟨(span (x * 128) 128).map s.aliasRead,
   (span 0 8).foldl (fun t i => setBit t i (s.readTag (x * 8 + i))) 0,
   s.aliasPoison x⟩

/-- The die whose table holds an entry; a die has 64 slices of 1,024 entries, R234. -/
def aliasDie (k : Nat) : Nat := k / 65536

/-- One redirected read of a line, R241: for each aliased line that it reads, HOT rises in every entry that covers the line. -/
def State.raiseHot (s : State) (x : Nat) : State :=
  if !(s.lineMeta x).alias_ then s
  else
    let read := (s.feeders x).filter fun y => (s.lineMeta y).alias_
    { s with alias_ := s.alias_.mapVals fun _ e => { e with hot := min (e.hot + read.countP e.covers) 63 } }

/-- Whether an entry is hot: its HOT has reached the threshold of its die, R235, R236. -/
def State.isHot (s : State) (k : Nat) (e : AliasEntry) : Bool :=
  let th := (s.regs.aliasHot.get 16 (aliasDie k)).toNat
  e.state == 1 && th != 0 && decide (th ≤ e.hot)

/-- Entries that leave the table return to their worlds' quotas, R235. -/
def State.refund (s : State) (es : List AliasEntry) : State :=
  { s with worlds := es.foldl (fun (m : FMap World) e => m.adjust e.world fun w => { w with used := w.used - 1 }) s.worlds }

/-- The LANDED bits of a line's two sectors set in every entry that covers it; entries with LANDED all 1 return to FREE,
R235, R242. -/
def State.markLanded (s : State) (x : Nat) : State :=
  let hit := s.alias_.mapVals fun _ e =>
    if e.covers x then
      { e with landed := setBit (setBit e.landed (x * 128 % 4096 / 64) true) (x * 128 % 4096 / 64 + 1) true }
    else e
  let full (e : AliasEntry) : Bool := e.landed == BitVec.allOnes 64
  { s with alias_ := hit.keep fun _ e => !full e }.refund (hit.values.filter full)

/-- The destination lines that some entry takes from bytes of a line, R242. -/
def State.dependents (s : State) (x : Nat) : List Nat :=
  (s.alias_.values.flatMap fun e => (span e.start e.len).filterMap fun pa =>
    if e.supplies pa && (e.srcsOf pa).any (fun b => b / 128 == x) then some (pa / 128) else none).eraseDups

/-- A line, and the lines that land with it: those that depend on it, and those that depend on them, R242. -/
def State.landers (s : State) (x : Nat) : List Nat := reach s.dependents s.chainBound [x] [x]

/-- What a landing writes: bytes, tags and poison; LANDED set and ALIAS cleared, R242. -/
def State.putLanded (s : State) (x : Nat) (d : LineData) : State :=
  ((s.rawWrite (x * 128) d.bytes).setMeta x fun m =>
    { m.setPoison d.poison (s.freeCtr + 1) with tags := d.tags, alias_ := false }).markLanded x

/-- Landing a line, R242: it and its dependents take what ReadAliased returns for each before any of them has landed, which is what they
return as a chain lands from its far end inward (R243, R244). The reads of a landing raise no HOT (log entry 62). -/
def State.landLine (s : State) (x : Nat) : State :=
  ((s.landers x).map fun y => (y, s.readAliased y)).foldl (fun s yd => s.putLanded yd.1 yd.2) s

/-- What a write lands before it acts on a line, R242: the line itself if ALIAS is set, and every dependent if SHADOW is
set; SHADOW is then clear. -/
def State.beforeWrite (s : State) (x : Nat) : State :=
  let s1 := if (s.lineMeta x).alias_ then s.landLine x else s
  if (s1.lineMeta x).shadow then
    ((s1.dependents x).foldl State.landLine s1).setMeta x fun m => { m with shadow := false }
  else s1

/-- Granule tags of a line after bytes `[o, o + n)` of it are written; a written granule is tagged as `tag` says when all
its bytes are written, and is untagged otherwise, R171. -/
def tagsAfter (t : BitVec 8) (o n : Nat) (tag : Bool) : BitVec 8 :=
  (span 0 8).foldl (fun t i =>
    if o < i * 16 + 16 ∧ i * 16 < o + n then setBit t i (tag && decide (o ≤ i * 16) && decide (i * 16 + 16 ≤ o + n))
    else t) t

/-- A write that reaches a line's home slice, bytes within one line, R223, R242, R388. -/
def State.homeWrite1 (s : State) (pa : Nat) (bs : List (BitVec 8)) (tag : Bool) : State :=
  let x := pa / 128
  (((s.beforeWrite x).rawWrite pa bs).setMeta x fun m =>
    { m.setPoison (m.poison && decide (bs.length ≠ 128)) m.since with tags := tagsAfter m.tags (pa % 128) bs.length tag })

/-- The pieces of a byte range at line boundaries. -/
def pieces : Nat → Nat → List (BitVec 8) → List (Nat × List (BitVec 8))
  | 0, _, _ => []
  | _, _, [] => []
  | n + 1, pa, bs =>
    let k := 128 - pa % 128
    (pa, bs.take k) :: pieces n (pa + k) (bs.drop k)

/-- A write at the home slices of any length. -/
def State.homeWrite (s : State) (pa : Nat) (bs : List (BitVec 8)) (tag : Bool) : State :=
  (pieces (bs.length + 1) pa bs).foldl (fun s p => s.homeWrite1 p.1 p.2 tag) s

/-- A read at the home slices: bytes and poison, redirected, R241. -/
def State.homeRead (s : State) (pa n : Nat) : List (BitVec 8) × Bool :=
  ((span pa n).map s.aliasRead, (span pa n).any fun a => s.aliasPoison (a / 128))

/-- Whether a Pool line differs from what the memory behind the pool port holds. -/
def State.poolDirty (s : State) (x : Nat) : Bool := (span (x * 128) 128).any fun a => s.poolMem.get 0 a != s.homeByte a

/-- A write of a line to the pool counts in its counter, up to the last value, R204 (Ciphers). -/
def State.countLine (s : State) (x : Nat) : State :=
  let c := s.poolCtr.get 0 x
  { s with poolCtr := s.poolCtr.set 0 x (if c = BitVec.allOnes 56 then c else c + 1) }

/-- A Pool line's bytes written through to the memory behind the pool port, R225, R256. -/
def State.poolPush (s : State) (x : Nat) : State :=
  if isPool (x * 128) && s.poolDirty x then
    { s.countLine x with poolMem := (span (x * 128) 128).foldl (fun m a => m.set 0 a (s.homeByte a)) s.poolMem }
  else s

/-- Whether writes to the page of an address wait for its re-enciphering, R213, R219. -/
def State.rewriting (s : State) (pa : Nat) : Bool := isPool pa && s.reenc.contains (pa / 65536)

/-- Whether a write to a line must wait for a re-enciphering: the line's page, or that of a line which the write lands first, R219,
R242. -/
def State.lineHeld (s : State) (x : Nat) : Bool := !s.reenc.isEmpty && (s.landers x).any fun y => s.rewriting (y * 128)

/-- A use of a Pool page's frame, for the choice of R218. -/
def State.useFrame (s : State) (pa : Nat) : State :=
  if isPool pa then { s with frames := s.frames.adjust (pa / 65536) fun f => { f with used := s.clock } } else s

/-! ## The L1s and quad caches -/

/-- The quad cache of a core, as a cache unit: L1s are units 0 to 767. -/
def quadUnit (core : Nat) : Nat := Config.cores + core / 4

/-- The key of a cached byte. -/
def cKey (u pa : Nat) : Nat := u * 2 ^ 52 + pa

/-- Whether some cache holds a dirty byte that cannot reach home before a re-enciphering is over, R219. -/
def State.dirtyRewriting (s : State) : Bool :=
  !s.reenc.isEmpty && s.cbytes.any fun kc => kc.2.dirty && s.lineHeld (kc.1 % 2 ^ 52 / 128)

/-- The key of a cached line's metadata. -/
def mKey (u x : Nat) : Nat := u * 2 ^ 45 + x

/-- The metadata of a line that a cache does not hold. -/
def CMeta.none : CMeta := ⟨0, 0, false⟩

/-- The bytes of a line that a cache holds valid, keyed. -/
def State.heldBytes (s : State) (u x : Nat) : FMap CByte := s.cbytes.slice (cKey u (x * 128)) (cKey u (x * 128) + 128)

/-- A valid byte of a cache. -/
def State.held? (s : State) (u pa : Nat) : Option CByte := s.cbytes.find? (cKey u pa)

/-- Whether a cache holds every byte of a list. -/
def State.holds (s : State) (u : Nat) (as : List Nat) : Bool := as.all fun a => (s.held? u a).isSome

/-- The lines that a cache holds. -/
def State.linesOf (s : State) (u : Nat) : List Nat :=
  (s.cbytes.filterMap fun kv => if kv.1 / 2 ^ 52 = u then some (kv.1 % 2 ^ 52 / 128) else none).eraseDups

/-- The world tag of a line for a requester: 63 in a frame that firmware shared, R195, R196, R199. -/
def State.lineTag (s : State) (w pa : Nat) : Nat :=
  if (s.shared.find? (pa / 65536)).isSome then 63 else w

/-- Rewrites the metadata of a cached line; a line with no valid byte keeps none. -/
def State.setCMeta (s : State) (u x : Nat) (f : CMeta → CMeta) : State :=
  let m := f (s.cmeta.get CMeta.none (mKey u x))
  if (s.heldBytes u x).isEmpty then { s with cmeta := s.cmeta.erase (mKey u x) }
  else { s with cmeta := s.cmeta.put (mKey u x) m }

/-- Granules of a line with some byte in `keys`. -/
def touched (x : Nat) (as : List Nat) (i : Nat) : Bool := as.any fun a => decide (a / 16 = x * 8 + i)

/-- Granules of a line with every byte in `keys`. -/
def wholly (x : Nat) (as : List Nat) (i : Nat) : Bool := (span ((x * 8 + i) * 16) 16).all fun a => as.contains a

/-- Groups of consecutive addresses with their bytes. -/
def runs : List (Nat × BitVec 8) → List (Nat × List (BitVec 8))
  | [] => []
  | (a, b) :: rest =>
    match runs rest with
    | (a', bs) :: more => if a' = a + 1 then (a, b :: bs) :: more else (a, [b]) :: (a', bs) :: more
    | [] => [(a, [b])]

/-- Dirty bytes of one line reach the home slice: the line is landed first if it must be, then the bytes merge, R223,
R242. `tags` are the sender's granule tags; its poison comes with a part of a line, R387, R388. -/
def State.mergeHome (s : State) (x : Nat) (ds : List (Nat × BitVec 8)) (tags : BitVec 8) (poison : Bool) : State :=
  let as := ds.map (·.1)
  let s1 := (runs ds).foldl (fun s r => s.rawWrite r.1 r.2) (s.beforeWrite x)
  (s1.setMeta x fun m =>
    { m.setPoison ((m.poison || poison) && decide (ds.length ≠ 128)) (if poison then s.freeCtr + 1 else m.since) with
      tags := (span 0 8).foldl (fun t i =>
        if touched x as i then setBit t i (wholly x as i && tags.getLsbD i) else t) m.tags }).useFrame (x * 128)

/-- Dirty bytes of one line reach a quad cache and become dirty there. -/
def State.mergeCache (s : State) (u x w : Nat) (ds : List (Nat × BitVec 8)) (tags : BitVec 8) (poison : Bool) : State :=
  let as := ds.map (·.1)
  let s1 := { s with cbytes := ds.foldl (fun (m : FMap CByte) (d : Nat × BitVec 8) => m.put (cKey u d.1) ⟨d.2, true⟩) s.cbytes }
  s1.setCMeta u x fun m =>
    { m with
      world := w
      tags := (span 0 8).foldl (fun t i =>
        if touched x as i then setBit t i (wholly x as i && tags.getLsbD i) else t) m.tags
      poison := (m.poison || poison) && decide (ds.length ≠ 128) }

/-- The dirty bytes of one line that `p` selects, lowest first. -/
def State.dirtyOf (p : Nat → Bool) (s : State) (u x : Nat) : List (Nat × BitVec 8) :=
  (s.heldBytes u x).filterMap fun kv => if kv.2.dirty && p (kv.1 % 2 ^ 52) then some (kv.1 % 2 ^ 52, kv.2.val) else none

/-- Bytes of a line that are dirty in a cache become clean there; a whole line's write-back leaves no poison, R388. -/
def State.cleanLine (s : State) (u x : Nat) (ds : List (Nat × BitVec 8)) : State :=
  let s1 := { s with cbytes := ds.foldl (fun (c : FMap CByte) (d : Nat × BitVec 8) => c.put (cKey u d.1) ⟨d.2, false⟩) s.cbytes }
  s1.setCMeta u x fun c => { c with poison := c.poison && decide (ds.length ≠ 128) }

/-- The dirty bytes of a quad cache's line that `p` selects move to the home slice, R223, R254. -/
def State.pushQuad (p : Nat → Bool) (s : State) (u x : Nat) : State :=
  let ds := State.dirtyOf p s u x
  if ds.isEmpty then s
  else
    let m := s.cmeta.get CMeta.none (mKey u x)
    (s.cleanLine u x ds).mergeHome x ds m.tags m.poison

/-- A line of a quad cache gives way to another: its dirty bytes are written home and the line is zeroed, R196. -/
def State.yieldQuad (s : State) (u x : Nat) : State :=
  let s1 := State.pushQuad (fun _ => true) s u x
  { s1 with cbytes := s1.cbytes.splice (cKey u (x * 128)) (cKey u (x * 128) + 128) []
            cmeta := s1.cmeta.erase (mKey u x) }

/-- The lines that a cache can hold, R11: 128 KiB in an L1, 2 MiB in a quad cache. -/
def capacity (u : Nat) : Nat := if u < Config.cores then 1024 else 16384

/-- The line that leaves a full cache for another: the lowest of those that may (log entry 49). -/
def State.leaverIf (s : State) (quits : Nat → Bool) (u : Nat) : Option Nat :=
  let m := s.cmeta.slice (mKey u 0) (mKey (u + 1) 0)
  if m.length < capacity u then none else (m.keys.map (· % 2 ^ 45)).find? quits

/-- Whether a cache can take a line under a tag: it holds it so, has room, or a line that may leave for it. -/
def State.takesIf (s : State) (quits : Nat → Bool) (u x tag : Nat) : Bool :=
  match s.cmeta.find? (mKey u x) with
  | none => decide ((s.cmeta.slice (mKey u 0) (mKey (u + 1) 0)).length < capacity u) || (s.leaverIf quits u).isSome
  | some m => m.world == tag || quits x

/-- Whether a line may leave a quad cache now: it has no dirty byte there, or no re-enciphering holds its write, R219. -/
def State.quitsQuad (s : State) (u x : Nat) : Bool :=
  s.reenc.isEmpty || (State.dirtyOf (fun _ => true) s u x).isEmpty || !s.lineHeld x

/-- Whether a quad cache can take a line under a tag. -/
def State.quadTakes (s : State) (u x tag : Nat) : Bool := s.reenc.isEmpty || s.takesIf (s.quitsQuad u) u x tag

/-- Whether a line may leave a cache now: as it may leave a quad cache; or it moves to a quad cache that can take it. -/
def State.quits (s : State) (u x : Nat) : Bool :=
  s.quitsQuad u x ||
    (decide (u < Config.cores) && s.quadTakes (quadUnit u) x (s.cmeta.get CMeta.none (mKey u x)).world)

/-- The line that leaves a full cache for another, R11. -/
def State.leaver (s : State) (u : Nat) : Option Nat := s.leaverIf (s.quits u) u

/-- Whether a cache can take a line under a tag, R11, R219. -/
def State.takes (s : State) (u x tag : Nat) : Bool := s.reenc.isEmpty || s.takesIf (s.quits u) u x tag

/-- Room for one more line in a quad cache, R11. -/
def State.roomQuad (s : State) (u : Nat) : State :=
  match s.leaver u with
  | none => s
  | some x => s.yieldQuad u x

/-- A quad cache's line under another tag than `tag` gives way, R196; one more line needs room. -/
def State.claimQuad (s : State) (u x tag : Nat) : State :=
  match s.cmeta.find? (mKey u x) with
  | none => s.roomQuad u
  | some m => if m.world = tag then s else s.yieldQuad u x

/-- Write-back of the dirty bytes of one line that `p` selects, to the next level down, R223, R254; a quad cache full of bytes that a
re-enciphering holds takes no more, and bytes that it does not hold pass it by (R11, R219). -/
def State.pushLine (p : Nat → Bool) (s : State) (u x : Nat) : State :=
  if u < Config.cores then
    let ds := State.dirtyOf p s u x
    let m := s.cmeta.get CMeta.none (mKey u x)
    if ds.isEmpty then s
    else if s.quadTakes (quadUnit u) x m.world then
      ((s.cleanLine u x ds).claimQuad (quadUnit u) x m.world).mergeCache (quadUnit u) x m.world ds m.tags m.poison
    else if s.lineHeld x then s
    else (s.cleanLine u x ds).mergeHome x ds m.tags m.poison
  else State.pushQuad p s u x

/-- The clean bytes of one line that `p` selects become invalid, R254. -/
def State.discardLine (p : Nat → Bool) (s : State) (u x : Nat) : State :=
  let lo := cKey u (x * 128)
  ({ s with cbytes := s.cbytes.filter fun kv =>
      !(decide (lo ≤ kv.1) && decide (kv.1 < lo + 128) && !kv.2.dirty && p (kv.1 % 2 ^ 52)) }).setCMeta u x id

/-- Every dirty byte of a cache moves down one level. -/
def State.pushUnit (s : State) (u : Nat) : State := (s.linesOf u).foldl (State.pushLine (fun _ => true) · u) s

/-- Every clean byte of a cache becomes invalid. -/
def State.discardUnit (s : State) (u : Nat) : State := (s.linesOf u).foldl (State.discardLine (fun _ => true) · u) s

/-- A line of a cache gives way to another: its dirty bytes are written back and the line is zeroed, R196. -/
def State.yieldLine (s : State) (u x : Nat) : State :=
  let s1 := State.pushLine (fun _ => true) s u x
  { s1 with cbytes := s1.cbytes.splice (cKey u (x * 128)) (cKey u (x * 128) + 128) []
            cmeta := s1.cmeta.erase (mKey u x) }

/-- Room for one more line in a cache, R11. -/
def State.room (s : State) (u : Nat) : State :=
  match s.leaver u with
  | none => s
  | some x => s.yieldLine u x

/-- A lookup of a line under another world's tag is a miss: the line gives way, R196; a line that the cache does not hold needs room. -/
def State.claim (s : State) (u x w : Nat) : State :=
  match s.cmeta.find? (mKey u x) with
  | none => s.room u
  | some m => if m.world = s.lineTag w (x * 128) then s else s.yieldLine u x

/-- A fill with what `d` brings: every byte of the line that is not dirty takes the value from below and is clean, and one that the
fill does not bring is invalid, R254. A granule with a dirty byte keeps its tag where the cache held it whole; one that mixes the two
has none, R171. -/
def State.install (s : State) (u x w : Nat) (bytes : List (Option (BitVec 8))) (tags : BitVec 8) (poison : Bool) : State :=
  let old := s.heldBytes u x
  let new := (bytes.foldl (fun (am : Nat × List (Nat × CByte)) b =>
    (am.1 + 1, (match old.find? (cKey u am.1), b with
      | some c, some v => (cKey u am.1, if c.dirty then c else ⟨v, false⟩) :: am.2
      | some c, none => if c.dirty then (cKey u am.1, c) :: am.2 else am.2
      | none, some v => (cKey u am.1, ⟨v, false⟩) :: am.2
      | none, none => am.2))) (x * 128, [])).2.reverse
  let dirty := old.filterMap fun kv => if kv.2.dirty then some (kv.1 % 2 ^ 52) else none
  ({ s with cbytes := s.cbytes.splice (cKey u (x * 128)) (cKey u (x * 128) + 128) new }).setCMeta u x fun m =>
    ⟨s.lineTag w (x * 128), (span 0 8).foldl (fun t i =>
      setBit t i (if touched x dirty i then m.tags.getLsbD i && wholly x (old.keys.map (· % 2 ^ 52)) i else tags.getLsbD i)) 0,
     poison || (m.poison && !dirty.isEmpty)⟩

/-- A fill of a quad cache from the home slice, R241, R254. -/
def State.fillQuad (s : State) (u x w : Nat) : State :=
  let d := s.readAliased x
  ((s.raiseHot x).useFrame (x * 128)).install u x w (d.bytes.map some) d.tags d.poison

/-- A quad cache that holds bytes `as` of a line for a world: it fills if it lacks one of them. -/
def State.readyQuad (s : State) (u w x : Nat) (as : List Nat) : State :=
  let s1 := s.claim u x w
  if s1.holds u as then s1 else s1.fillQuad u x w

/-- A fill of an L1 from its quad cache, for an access to bytes `as` of a line: the quad cache fills first if it lacks one of them, and
what it does not hold becomes invalid in the L1 (log entry 42). -/
def State.fillL1 (s : State) (core w x : Nat) (as : List Nat) : State :=
  let q := quadUnit core
  let s1 := s.readyQuad q w x as
  let m := s1.cmeta.get CMeta.none (mKey q x)
  s1.install core x w ((span (x * 128) 128).map fun a => (s1.held? q a).map (·.val)) m.tags m.poison

/-- An L1 that holds bytes `as` of a line for a world: it fills if it lacks one of them, R254. -/
def State.readyL1 (s : State) (core w x : Nat) (as : List Nat) : State :=
  let s1 := s.claim core x w
  if s1.holds core as then s1 else s1.fillL1 core w x as

/-- Whether a core's caches have room for lines that an access of a world brings in one after the other, R11: a page that is being
re-enciphered keeps its dirty bytes where they are (R219). -/
def State.roomFor (s : State) (core w : Nat) : List Nat → Bool
  | [] => true
  | x :: xs =>
    s.takes core x (s.lineTag w (x * 128)) && (s.claim core x w).takes (quadUnit core) x (s.lineTag w (x * 128)) &&
      (s.readyL1 core w x (span (x * 128) 128)).roomFor core w xs

/-- A load at a core, R254: bytes, poison, and the tag of the granule of the first byte. The access lies in one line. -/
def State.cacheLoad (s : State) (core w pa n : Nat) : State × List (BitVec 8) × Bool × Bool :=
  let s1 := s.readyL1 core w (pa / 128) (span pa n)
  let m := s1.cmeta.get CMeta.none (mKey core (pa / 128))
  (s1, (span pa n).map fun a => ((s1.held? core a).map (·.val)).getD 0, m.poison, m.tags.getLsbD (pa % 128 / 16))

/-- Bytes written into a cache, valid and dirty, in one line; a granule written whole takes `tag`, R171, R254. -/
def State.cacheWrite (s : State) (u w pa : Nat) (bs : List (BitVec 8)) (tag : Bool) : State :=
  let x := pa / 128
  let s1 := s.claim u x w
  let s2 := { s1 with cbytes :=
    (bs.foldl (fun (am : Nat × FMap CByte) b => (am.1 + 1, am.2.put (cKey u am.1) ⟨b, true⟩)) (pa, s1.cbytes)).2 }
  s2.setCMeta u x fun m =>
    { m with world := s.lineTag w pa, tags := tagsAfter m.tags (pa % 128) bs.length tag }

/-- The caches below a scope's point on a core's path, nearest first, R256. -/
def below (core scope : Nat) : List Nat :=
  match scope with
  | 0 => []
  | 1 => [core]
  | _ => [core, quadUnit core]

/-- A push at a scope, R256. -/
def State.push (s : State) (core scope : Nat) : State :=
  let s1 := (below core scope).foldl State.pushUnit s
  if scope = 5 then
    let lines (m : Memory) : List Nat := m.filterMap fun kv => if isPool kv.1 then some (kv.1 / 128) else none
    ((lines s1.mem ++ lines s1.poolMem).eraseDups).foldl State.poolPush s1
  else s1

/-- A discard at a scope, R256. -/
def State.discard (s : State) (core scope : Nat) : State := (below core scope).foldl State.discardUnit s

/-- The dirty bytes of one line reach the home slices from a core's path, R237. -/
def State.pushLineHome (s : State) (core x : Nat) : State :=
  State.pushLine (fun _ => true) (State.pushLine (fun _ => true) s core x) (quadUnit core) x

/-! ## Scratchpads -/

/-- The key of a scratchpad byte. -/
def spadKey (gang la : Nat) : Nat := gang * 2 ^ 24 + la

/-- A byte of a scratchpad. -/
def State.spadByte (s : State) (gang la : Nat) : BitVec 8 := s.spad.get 0 (spadKey gang la)

/-- Bytes, poison and granule tag of a scratchpad access, R222, R387. -/
def State.spadLoad (s : State) (gang la n : Nat) : List (BitVec 8) × Bool × Bool :=
  ((span la n).map (s.spadByte gang), (span la n).any fun a => s.spadPoison.get false (spadKey gang a / 16),
   s.spadTag.get false (spadKey gang la / 16))

/-- A number held in a scratchpad. -/
def State.spadNat (s : State) (gang la n : Nat) : Nat := leNat ((span la n).map (s.spadByte gang))

/-- Bytes performed at a scratchpad: tags of written granules are cleared, or set as `tag` says for a granule written whole;
a granule written whole is unmarked, R171, R388. -/
def State.spadWrite (s : State) (gang la : Nat) (bs : List (BitVec 8)) (tag : Bool) : State :=
  let gs := ((span la bs.length).map fun a => spadKey gang a / 16).eraseDups
  let whole (g : Nat) : Bool := decide (spadKey gang la ≤ g * 16) && decide (g * 16 + 16 ≤ spadKey gang la + bs.length)
  { s with
    spad := (bs.foldl (fun (am : Nat × FMap (BitVec 8)) b => (am.1 + 1, am.2.set 0 (spadKey gang am.1) b)) (la, s.spad)).2
    spadTag := gs.foldl (fun m g => m.set false g (tag && whole g)) s.spadTag
    spadPoison := gs.foldl (fun m g => if whole g then m.set false g false else m) s.spadPoison }

/-! ## Translation and leases -/

/-- LOCALTOP, R209. -/
def State.localTop (s : State) : Nat :=
  16 * (50734301184 - s.boot.frameN * 8589934592 - s.boot.frameN * 1048576)

/-- Whether a physical address exists, R208, R209. -/
def State.present (s : State) (pa : Nat) : Bool :=
  decide (7 ≤ s.boot.stage) &&
  (if isPool pa then decide (s.boot.frameN ≠ 0) && pa / 2 ^ 46 % 32 == 0 else decide (pa < s.localTop))

/-- The world that owns the frame of a physical address, R197: a Pool page takes the owner of its extent, and has none where no
extent holds it. -/
def State.frameOwner (s : State) (pa : Nat) : Option Nat :=
  if isPool pa then (s.extents.values.find? fun e => decide (e.base ≤ pa) && decide (pa < e.base + e.size)).map (·.world)
  else some (s.owner.get 0 (pa / 65536))

/-- Whether a frame is a world's own or lists it, R197, R199. -/
def State.listed (s : State) (w pa : Nat) : Bool :=
  s.frameOwner pa == some w || ((s.frameOwner pa).isSome && (s.shared.get [] (pa / 65536)).contains w)

/-- Whether a world may use a frame, R197, R199: not between its return and its sweep, R203. -/
def State.mayUse (s : State) (w pa : Nat) : Bool := s.listed w pa && !s.unswept.contains (pa / 65536)

/-- A translation-table entry's fields, R413: V, W, X, LEAF and the address bits. -/
structure PtEntry where
  v : Bool
  w : Bool
  x : Bool
  leaf : Bool
  bits : Nat
  deriving DecidableEq, Repr

/-- Reads an entry for a world, redirected as any read at a home slice, R241, R244: one in a frame that the world may not use reads as
zeros, R196, R197 (log entry 53). -/
def State.ptEntry (s : State) (w pa : Nat) : PtEntry :=
  let n := if s.mayUse w pa then leNat ((span pa 8).map s.aliasRead) else 0
  ⟨n % 2 == 1, n / 2 % 2 == 1, n / 4 % 2 == 1, n / 8 % 2 == 1, n⟩

/-- One level of a walk: index position, leaf size (0 where no leaf is allowed), and the size of the next table. -/
structure PtLevel where
  shift : Nat
  count : Nat
  leafSize : Nat
  nextSize : Nat
  deriving DecidableEq, Repr

/-- The four levels of R413. -/
def ptLevels : List PtLevel :=
  [⟨43, 8192, 0, 65536⟩, ⟨30, 8192, 1073741824, 4096⟩, ⟨21, 512, 2097152, 256⟩, ⟨16, 32, 65536, 0⟩]

/-- What a walk finds: the physical address, the write and execute permissions, and the bytes of the leaf's page. -/
structure Walked where
  pa : Nat
  w : Bool
  x : Bool
  size : Nat
  deriving DecidableEq, Repr

/-- The walk of R413: none where an entry is treated as absent. -/
def State.walkFrom (s : State) (w va : Nat) : Nat → List PtLevel → Option Walked
  | _, [] => none
  | table, l :: ls =>
    let e := s.ptEntry w (table + va / 2 ^ l.shift % l.count * 8)
    if !e.v || e.bits / 2 ^ 52 != 0 then none
    else if e.leaf then
      let pa := e.bits / 65536 % 2 ^ 36 * 65536
      if l.leafSize = 0 ∨ e.bits / 16 % 4096 ≠ 0 ∨ pa % l.leafSize ≠ 0 then none
      else
        let a := pa + va % l.leafSize
        if s.present a then some ⟨a, e.w, e.x, l.leafSize⟩ else none
    else
      let next := e.bits / 256 % 2 ^ 44 * 256
      if l.nextSize = 0 ∨ e.bits / 16 % 16 ≠ 0 ∨ next % l.nextSize ≠ 0 then none
      else s.walkFrom w va next ls

/-- The walk from a world's root. -/
def State.walk (s : State) (w va : Nat) : Option Walked :=
  match s.worlds.find? w with
  | none => none
  | some wd => if 2 ^ 56 ≤ va then none else s.walkFrom w va wd.root ptLevels

/-- The lines that the walk of an address reads for a world, from the root down. -/
def State.walkLines (s : State) (w va : Nat) : Nat → List PtLevel → List Nat
  | _, [] => []
  | table, l :: ls =>
    let pa := table + va / 2 ^ l.shift % l.count * 8
    let e := s.ptEntry w pa
    (if s.mayUse w pa then [pa / 128] else []) ++ (if !e.v || e.leaf then [] else s.walkLines w va (e.bits / 256 % 2 ^ 44 * 256) ls)

/-- The reads of a walk raise HOT where they are redirected, R241. -/
def State.walkHot (s : State) (w va : Nat) : State :=
  match s.worlds.find? w with
  | none => s
  | some wd => if s.alias_.isEmpty then s else (s.walkLines w va wd.root ptLevels).foldl State.raiseHot s

/-- The tasks whose leases bound a gang's accesses: its own and those it has adopted from, R212, R312. -/
def State.leaseTasks (s : State) (gang : Nat) : List Nat :=
  match s.gangs.find? gang with
  | none => []
  | some g => g.task :: g.adopts

/-- The leased block that admits an access of a gang, R212. -/
def State.leaseBlock (s : State) (gang block : Nat) (write : Bool) : Option LeaseBlk :=
  (s.leaseTasks gang).findSome? fun t =>
    (s.tasks.find? t).bind fun tk => tk.lease.find? fun b => b.block == block && (!write || b.write)

/-- Whether a block is covered by a gang's leases in a mode that admits the access, R212. -/
def State.leased (s : State) (gang block : Nat) (write : Bool) : Bool := (s.leaseBlock gang block write).isSome

/-- The world of a gang's task. -/
def State.gangWorld (s : State) (gang : Nat) : Nat :=
  match s.gangs.find? gang with
  | none => 0
  | some g => match s.tasks.find? g.task with
    | none => 0
    | some t => t.world

/-- Whether a core's TLB holds for a task the translation under which its lease of a block stands, R212, R215. -/
def State.tlbHit (s : State) (core task : Nat) (b : LeaseBlk) : Bool :=
  s.tlb.any fun e => e.core == core && e.task == task && e.write == b.write && decide (e.block ≤ b.block) &&
    decide (b.block < e.block + e.leaf) && e.pa + (b.block - e.block) == b.frame

/-- The translation of a leased block filled into a core's TLB, which holds 512 entries of all page sizes and gives up its oldest,
R212, R220. -/
def State.fillTlb (s : State) (core task : Nat) (b : LeaseBlk) : State :=
  let e : TlbEntry := ⟨core, task, b.block - b.block % b.leaf, b.frame - b.block % b.leaf, b.write, b.leaf⟩
  let mine := s.tlb.filter fun x => x.core == core
  { s with tlb := e :: mine.take 511 ++ s.tlb.filter fun x => x.core != core }

/-- The translation of a global access at issue, R212, R213, R215, R220: from a TLB entry, or else from a walk, which fills one; both
give the translation under which the lease stands. None is an access outside the lease, or to a frame that the world may not use. -/
def State.translate (s : State) (core gang va : Nat) (write : Bool) : State × Option Nat :=
  let task := ((s.gangs.find? gang).map (·.task)).getD 0
  let w := s.gangWorld gang
  match s.leaseBlock gang (va / 65536) write with
  | none => (s, none)
  | some b =>
    let pa := b.frame * 65536 + va % 65536
    if !s.mayUse w pa then (s, none)
    else (if s.tlbHit core task b then s else (s.walkHot w va).fillTlb core task b, some pa)

end Sys2Proof.Machine
end

