-- ==== Sys2Proof/Machine/Ops.lean ====
section
/-! DEFINITION. The named operations over threads, registers, counters and groups: reading and writing registers with
their tags (R32, R38, R58, R97, R303, R304), the capability helpers (R169), the driver that executes one instruction for the
lanes of an issue group (R31, R36, R60), taking an exception and returning from one (R373, R375), the end of a run, of a
thread, of a gang and of a task (R80, R151, R305, R374, R379). -/

namespace Sys2Proof.Machine

/-! ## Numbers of things -/

/-- The crew of a thread. -/
def crewOf (t : Nat) : Nat := t / 32
/-- The lane of a thread. -/
def laneOf (t : Nat) : Nat := t % 32
/-- The team of a thread, device-wide. -/
def teamOf (t : Nat) : Nat := t / 1024
/-- The gang of a thread. -/
def gangOf (t : Nat) : Nat := t / 16384
/-- A thread's index in its team, R82. -/
def tidOf (t : Nat) : Nat := t % 1024
/-- A thread's team index in its gang. -/
def teamIdx (t : Nat) : Nat := t / 1024 % 16

namespace State

/-- A thread's record; a thread that is not there reads as exited. -/
def thread (s : State) (t : Nat) : Thread := s.threads.get { Thread.fresh 0 with stat := .exited } t

/-- Rewrites a thread that is there. -/
def updThread (s : State) (t : Nat) (f : Thread → Thread) : State := { s with threads := s.threads.adjust t f }

/-- Rewrites a gang that is there. -/
def updGang (s : State) (g : Nat) (f : Gang → Gang) : State := { s with gangs := s.gangs.adjust g f }

/-- Rewrites a task that is there. -/
def updTask (s : State) (k : Nat) (f : Task → Task) : State := { s with tasks := s.tasks.adjust k f }

/-- Rewrites a queue that is there. -/
def updQueue (s : State) (q : Nat) (f : Queue → Queue) : State := { s with queues := s.queues.adjust q f }

/-- Rewrites a world that is there. -/
def updWorld (s : State) (w : Nat) (f : World → World) : State := { s with worlds := s.worlds.adjust w f }

/-- The task of a thread's gang. -/
def taskOf (s : State) (t : Nat) : Nat := ((s.gangs.find? (gangOf t)).map (·.task)).getD 0

/-- The task record of a thread, if its gang and task are there. -/
def recordOf (s : State) (t : Nat) : Option TaskRec := (s.tasks.find? (s.taskOf t)).map (·.record)

/-- The world of a thread. -/
def worldOf (s : State) (t : Nat) : Nat := s.gangWorld (gangOf t)

/-- Whether a thread is in kernel mode: its task record sets KERNEL, R299, and it has entered no restore handler, R383. -/
def kernel (s : State) (t : Nat) : Bool := match s.recordOf t with | none => false | some r => r.flags.getLsbD 3 && !(s.thread t).user

/-- The core a thread runs on, 0 to 767. -/
def coreOf (s : State) (t : Nat) : Nat := ((s.gangs.find? (gangOf t)).map fun g => g.cores.get 0 (teamIdx t)).getD 0

/-- A predicate of a thread. -/
def pred (s : State) (t : Nat) (p : BitVec 4) : Bool := (s.thread t).preds.getLsbD p.toNat

/-- Writes a predicate. -/
def setPred (s : State) (t : Nat) (p : BitVec 4) (b : Bool) : State :=
  s.updThread t fun h => { h with preds := setBit h.preds p.toNat b }

/-- Raises flags in a thread's FCTL, R99. -/
def raise (s : State) (t : Nat) (fl : BitVec 32) : State :=
  if fl = 0 then s else s.updThread t fun h => { h with fctl := fctlRaise h.fctl fl }

/-! ## Registers -/

/-- A register row of a crew. -/
def row (s : State) (crew v : Nat) : Row := s.rows.get Row.empty (crew * 32 + v)

/-- Stores a row; a row with no live and no pending lane returns to the pool, R32, R303. -/
def setRow (s : State) (crew v : Nat) (r : Row) : State :=
  if r.live = 0 ∧ r.pend.isEmpty then { s with rows := s.rows.erase (crew * 32 + v) }
  else { s with rows := s.rows.put (crew * 32 + v) r }

/-- The operations that will write a lane of a row. -/
def pending (s : State) (t v : Nat) : List Pend := (s.row (crewOf t) v).pend.get [] (laneOf t)

/-- The tag a lane sees: the row's, RAW for a dead lane, and the tag at issue for a pending one, R32, R38, R96. -/
def tagOf (s : State) (t v : Nat) : BitVec 4 × BitVec 7 :=
  match s.pending t v with
  | p :: _ => (p.fmt, p.scl)
  | [] =>
    let r := s.row (crewOf t) v
    if r.live.getLsbD (laneOf t) then (r.fmt, r.scl) else (0, 0)

/-- The 32 bits a lane reads: 0 for a dead lane, an undefined value for a pending one, R32, R38 (log entry 1). -/
def reg (s : State) (t v : Nat) : BitVec 32 :=
  match s.pending t v with
  | _ :: _ => Config.freeWord (s.freeCtr * 65536 + laneOf t * 32 + v)
  | [] =>
    let r := s.row (crewOf t) v
    if r.live.getLsbD (laneOf t) then r.vals.get 0 (laneOf t) else 0

/-- The validity bit of a capability group in a lane, R170. -/
def validBit (s : State) (t k : Nat) : Bool := (s.valid.get 0 (crewOf t * 8 + k)).getLsbD (laneOf t)

/-- Writes a validity bit. -/
def setValid (s : State) (t k : Nat) (b : Bool) : State :=
  { s with valid := s.valid.set 0 (crewOf t * 8 + k) (setBit (s.valid.get 0 (crewOf t * 8 + k)) (laneOf t) b) }

end State

/-- A lane's write to a register: lane, register, bits, FMT and SCL. -/
structure RegWrite where
  lane : Nat
  reg : Nat
  val : BitVec 32
  fmt : BitVec 4
  scl : BitVec 7
  deriving DecidableEq, Repr

/-- The one tag of a write whose lanes deliver several, R97. -/
def mergeTag (ts : List (BitVec 4 × BitVec 7)) : BitVec 4 × BitVec 7 :=
  if ts.any (fun t => t.1 == 15) then (15, 0)
  else match ts with
    | [] => (0, 0)
    | t :: rest => if rest.all (· == t) then t else (0, 0)

/-- The row's tag after a write, R97: `live` after the write, the lanes written, the old and the written tag. -/
def tagAfter (live lanes : BitVec 32) (old new : BitVec 4 × BitVec 7) : BitVec 4 × BitVec 7 :=
  if live &&& ~~~lanes = 0 then new
  else if old = new then old
  else if old.1 = 15 ∨ new.1 = 15 then (15, 0)
  else if old.1 = 11 then (11, 0)
  else (0, 0)

/-- The mask of a list of lanes. -/
def laneMask (ls : List Nat) : BitVec 32 := ls.foldl (fun m l => setBit m l true) 0

/-- The registers that an operation in flight is to write, R38. -/
def OpKind.dests (k : OpKind) : List Nat :=
  match k with
  | .load _ _ _ regs | .atomic _ _ _ _ regs _ _ _ => regs
  | .query _ reg | .ringLoad _ _ _ reg _ _ => [reg]
  | .launch _ reg => [reg, reg + 1]
  | .contextLoad _ => span 0 32
  | _ => []

/-- One write to one row by the lanes of an instruction, R58, R97: pending operations of those lanes are superseded (R39). -/
def Row.write (r : Row) (ws : List RegWrite) : Row :=
  let lanes := laneMask (ws.map (·.lane))
  let live := r.live ||| lanes
  let tag := tagAfter live lanes (r.fmt, r.scl) (mergeTag (ws.map fun w => (w.fmt, w.scl)))
  { r with
    fmt := tag.1
    scl := tag.2
    vals := ws.foldl (fun m w => m.put w.lane w.val) r.vals
    live := live
    pend := ws.foldl (fun m w => m.erase w.lane) r.pend }

/-- A row with a lane killed, R32, R39. -/
def Row.kill (r : Row) (lane : Nat) : Row :=
  { r with vals := r.vals.erase lane, live := setBit r.live lane false, pend := r.pend.erase lane }

namespace State

/-- The writes of an instruction to one register; the writing lanes' validity of its capability group is cleared, R59. -/
def writeReg (s : State) (crew v : Nat) (ws : List RegWrite) : State :=
  let s1 := s.setRow crew v ((s.row crew v).write ws)
  let k := crew * 8 + v / 4
  { s1 with valid := s1.valid.set 0 k (s1.valid.get 0 k &&& ~~~laneMask (ws.map (·.lane))) }

/-- All register writes of an instruction. -/
def writeRegs (s : State) (crew : Nat) (ws : List RegWrite) : State :=
  ((ws.map (·.reg)).eraseDups).foldl (fun s v => s.writeReg crew v (ws.filter fun w => w.reg == v)) s

/-- Kills lanes of registers, for the last-read bit, R32. -/
def killRegs (s : State) (t : Nat) (vs : List Nat) : State :=
  vs.foldl (fun s v =>
    if (s.rows.find? (crewOf t * 32 + v)).isSome then s.setRow (crewOf t) v ((s.row (crewOf t) v).kill (laneOf t)) else s) s

/-- The registers that operations of a crew are to write. -/
def owing (s : State) (crew : Nat) : List Nat :=
  ((s.ops.values.filter fun o => crewOf o.thread == crew).flatMap fun o => o.kind.dests).eraseDups

/-- The registers of a crew with no live and no pending lane whose rows wait for data that is to be discarded, R39, R303. -/
def owedRegs (s : State) (crew : Nat) : List Nat := (s.owing crew).filter fun v => (s.rows.find? (crew * 32 + v)).isNone

/-- The registers a crew holds, spilled or not, R303. -/
def heldRegs (s : State) (crew : Nat) : List Nat :=
  ((s.rows.slice (crew * 32) (crew * 32 + 32)).map fun kv => kv.1 - crew * 32) ++ s.owedRegs crew

/-- The rows of a crew that stand in its quarter's pool. -/
def poolRows (s : State) (crew : Nat) : Nat :=
  ((s.rows.slice (crew * 32) (crew * 32 + 32)).filter fun kv => !kv.2.spilled).length + (s.owedRegs crew).length

/-- Peak and floor of a crew's task record, R299. -/
def peakOf (s : State) (crew : Nat) : Nat := ((s.recordOf (crew * 32)).map (·.peak)).getD 32
/-- Floor. -/
def floorOf (s : State) (crew : Nat) : Nat := ((s.recordOf (crew * 32)).map (·.floor)).getD 0

/-- The crews that stand on a quarter. -/
def crewsOn (s : State) (quarter : Nat) : List Nat :=
  s.crews.filterMap fun kv => if kv.2.quarter = quarter ∧ kv.2.retired = false then some kv.1 else none

/-- Rows of a quarter's pool that are free above every floor, R303, R304. -/
def freeRows (s : State) (quarter : Nat) : Nat :=
  Config.quarterRows - ((s.crewsOn quarter).map fun c => max (s.floorOf c) (s.poolRows c)).sum

/-- The quarter of a crew. -/
def quarterOf (s : State) (crew : Nat) : Nat := ((s.crews.find? crew).map (·.quarter)).getD 0

/-- Whether an instruction must wait for rows: it needs `n` rows above the floor and fewer are free, R304. -/
def rowsShort (s : State) (crew n : Nat) : Bool :=
  let have_ := s.poolRows crew
  decide (s.freeRows (s.quarterOf crew) < (have_ + n) - max (s.floorOf crew) have_)

/-- The registers of a destination that need a new row. -/
def newRows (s : State) (crew : Nat) (vs : List Nat) : List Nat :=
  vs.eraseDups.filter fun v => (s.rows.find? (crew * 32 + v)).isNone && !(s.owedRegs crew).contains v

/-! ## Capabilities in registers -/

end State

namespace Cap

/-- KIND. -/
def kind (c : Cap) : Nat := (c.bits.extractLsb' 120 4).toNat
/-- PERM. -/
def perm (c : Cap) : BitVec 8 := c.bits.extractLsb' 112 8
/-- LE. -/
def le (c : Cap) : Nat := (c.bits.extractLsb' 106 6).toNat
/-- LM. -/
def lm (c : Cap) : Nat := (c.bits.extractLsb' 96 10).toNat
/-- BASE. -/
def base (c : Cap) : Nat := (c.bits.extractLsb' 40 56).toNat
/-- OFFSET. -/
def offset (c : Cap) : Nat := (c.bits.extractLsb' 0 40).toNat
/-- The cursor, R168. -/
def cursor (c : Cap) : Nat := c.base + c.offset
/-- CapLength, R169. -/
def length (c : Cap) : Nat := c.lm * 2 ^ c.le
/-- The end of the region. -/
def top (c : Cap) : Nat := c.base + c.length
/-- The bits of a capability that could be valid, R166, R169. -/
def sound (c : Cap) : Bool :=
  c.bits.extractLsb' 124 4 == 0 && decide (c.kind ≤ 4) && !c.perm.getLsbD 7
/-- A permission by its bit number. -/
def has (c : Cap) (i : Nat) : Bool := c.perm.getLsbD i
/-- R. -/
def r (c : Cap) : Bool := c.has 0
/-- W. -/
def w (c : Cap) : Bool := c.has 1
/-- X. -/
def x (c : Cap) : Bool := c.has 2
/-- LC. -/
def lc (c : Cap) : Bool := c.has 3
/-- SC. -/
def sc (c : Cap) : Bool := c.has 4
/-- G. -/
def g (c : Cap) : Bool := c.has 5
/-- E. -/
def e (c : Cap) : Bool := c.has 6

/-- A capability from its fields. -/
def make (kind : Nat) (perm : BitVec 8) (le lm base offset : Nat) : BitVec 128 :=
  BitVec.ofNat 128 (offset % 2 ^ 40 + base % 2 ^ 56 * 2 ^ 40 + lm % 2 ^ 10 * 2 ^ 96 + le % 2 ^ 6 * 2 ^ 106
    + perm.toNat * 2 ^ 112 + kind % 16 * 2 ^ 120)

end Cap

/-- The search of RoundLen, from exponent `e`, with `n` exponents left, R169. -/
def roundLenFrom (len : Nat) : Nat → Nat → Nat × Nat
  | 0, e => ((len + 2 ^ e - 1) / 2 ^ e, e)
  | n + 1, e => if len ≤ 1023 * 2 ^ e then ((len + 2 ^ e - 1) / 2 ^ e, e) else roundLenFrom len n (e + 1)

/-- RoundLen, R169: (LM, LE). -/
def roundLen (len : Nat) : Nat × Nat := roundLenFrom len 63 0

namespace State

/-- CapGroup, R169. -/
def capGroup (s : State) (t k : Nat) : Cap :=
  ⟨s.reg t (4 * k + 3) ++ s.reg t (4 * k + 2) ++ s.reg t (4 * k + 1) ++ s.reg t (4 * k)⟩

/-- CapValid, R169; a pending register makes it false, R38. -/
def capValid (s : State) (t k : Nat) : Bool :=
  s.validBit t k && (span (4 * k) 4).all (fun v => (s.pending t v).isEmpty && (s.tagOf t v).1 == 11)
    && (s.capGroup t k).sound

/-- Marked of R185: a sweep of the thread's world marks the base of a capability that is not LOCAL. -/
def capMarked (s : State) (t : Nat) (c : Cap) : Bool := c.kind != 1 && s.marked (s.worldOf t) c.base

/-- The scratchpad bytes of a team of a gang, 0 where there is none: a team that has retired has none, R176, R305. They are the bytes that
the record declares, also where placement takes 128-byte units (R310; log entry 66). -/
def spadSize (s : State) (gang team : Nat) : Nat :=
  match s.gangs.find? gang with
  | none => 0
  | some g =>
    if g.deadTeams.getLsbD team then 0
    else match s.tasks.find? g.task with
      | none => 0
      | some k => if team < k.record.teams then k.record.spad else 0

/-- Whether `n` bytes from a local address lie in an allocated scratchpad; no bytes always do, R176. -/
def allocated (s : State) (gang la n : Nat) : Bool :=
  (span la n).all fun a => decide (a < 2 ^ 24) && decide (a % 2 ^ 20 < s.spadSize gang (a / 2 ^ 20))

/-- The bounds check of R68, R175, R176 over `n` bytes at `ea`. -/
def inBounds (s : State) (t : Nat) (c : Cap) (ea : Int) (n : Nat) : Bool :=
  decide ((c.base : Int) ≤ ea) && decide (ea + n ≤ c.top) && (c.kind != 1 || s.allocated (gangOf t) ea.toNat n)

end State

/-! ## What one lane does -/

/-- What an instruction does for one lane that completes it. -/
structure Done where
  /-- Register writes: register, bits, FMT, SCL. -/
  writes : List (Nat × BitVec 32 × BitVec 4 × BitVec 7)
  /-- Validity to set after the writes: group and bit. -/
  caps : List (Nat × Bool)
  /-- Registers the last-read bit kills. -/
  kills : List Nat
  /-- Where the thread goes, if not to the next sequential instruction. -/
  next : Option Nat
  /-- Where the thread then stands. -/
  stat : TStat
  deriving DecidableEq, Repr

/-- A lane that changes nothing of its own and goes on. -/
def Done.nothing : Done := ⟨[], [], [], none, .ready⟩

/-- The outcome of an instruction for one lane. -/
inductive LaneRes where
  /-- It completes. -/
  | done (d : Done)
  /-- A deliverable fault with its cause and TVAL, R370. -/
  | fault (cause : BitVec 32) (tval : BitVec 32)
  /-- It parks, R36. -/
  | park (why : ParkWhy)
  /-- The instruction is held at issue for the whole group, R89, or for so many rows, R304. -/
  | hold (rows : Nat)
  /-- The access ends the task, R213. -/
  | ends (code : EndCode)
  deriving DecidableEq, Repr

/-- Whether a lane's instruction is held at issue. -/
def LaneRes.isHold (r : LaneRes) : Bool := match r with | .hold _ => true | _ => false

namespace Cause

/-- ILLEGAL_OP, R370. -/
def illegalOp : BitVec 32 := 0x01
/-- ILLEGAL_RUN. -/
def illegalRun : BitVec 32 := 0x02
/-- RUN_LENGTH. -/
def runLength : BitVec 32 := 0x03
/-- FORMAT. -/
def format : BitVec 32 := 0x04
/-- CAP_TAG. -/
def capTag : BitVec 32 := 0x05
/-- CAP_BOUNDS. -/
def capBounds : BitVec 32 := 0x06
/-- CAP_PERM. -/
def capPerm : BitVec 32 := 0x07
/-- CAP_KIND. -/
def capKind : BitVec 32 := 0x08
/-- MISALIGN. -/
def misalign : BitVec 32 := 0x09
/-- PRIVILEGE. -/
def privilege : BitVec 32 := 0x0A
/-- SCOPE_DENIED. -/
def scopeDenied : BitVec 32 := 0x0B
/-- BARRIER_OVERRUN. -/
def barrierOverrun : BitVec 32 := 0x0C
/-- PORT_EDGE. -/
def portEdge : BitVec 32 := 0x0D
/-- POISON. -/
def poison : BitVec 32 := 0x0E
/-- SOFTWARE. -/
def software : BitVec 32 := 0x0F
/-- PREEMPT. -/
def preempt : BitVec 32 := 0x10

end Cause

/-- A number of a task-ending code, R378. -/
def EndCode.num : EndCode → Nat
  | .lease => 0x20
  | .matrixOperand => 0x21
  | .extentRevoked => 0x22
  | .worldPoison => 0x23
  | .handlerFault => 0x24
  | .leaseDenied => 0x25
  | .relaunchLimit => 0x26

/-- The row test of R303, the last execution check, and the hold of R304, for destination registers `vs`: none where the
rows are there or can be had. -/
def State.rowCheck (s : State) (t : Nat) (vs : List Nat) : Option LaneRes :=
  let crew := crewOf t
  let new := s.newRows crew vs
  let room := s.peakOf crew - (s.heldRegs crew).length
  match new.drop room with
  | v :: _ => some (.fault Cause.format (BitVec.ofNat 32 (0x100 ||| v)))
  | [] => if s.rowsShort crew new.length then some (.hold new.length) else none

/-- A lane that writes registers, with the row test last. -/
def State.finishLane (s : State) (t : Nat) (d : Done) : LaneRes :=
  match s.rowCheck t (d.writes.map (·.1)) with
  | some r => r
  | none => .done d

/-! ## Barriers, waits and parked threads -/

namespace State

/-- The threads of a gang that are there. -/
def gangThreads (s : State) (gang : Nat) : List (Nat × Thread) := s.threads.slice (gang * 16384) ((gang + 1) * 16384)

/-- Makes a thread ready at a run entry, R33, R301. -/
def enter (s : State) (t pc : Nat) : State :=
  s.updThread t fun h => { h with pc := pc, stat := .ready, cont := 0, runLen := 0, since := s.clock, age := 0 }

/-- Whether a thread has an incomplete fence, R256, R257. -/
def fencing (s : State) (t : Nat) : Bool :=
  s.ops.values.any fun o => o.thread == t && (match o.kind with | .fence _ _ => true | _ => false)

/-- Whether an incomplete ACQ or FULL of a thread holds back every later memory operation of it, R256. -/
def acquiring (s : State) (t : Nat) : Bool :=
  s.ops.values.any fun o => o.thread == t && (match o.kind with | .fence k _ => k == 0 || k == 2 | _ => false)

/-- Whether an earlier release of a thread, REL or FULL, is incomplete: its barrier and buffer operations wait for nothing else, R256,
R341. -/
def releasing (s : State) (t : Nat) : Bool :=
  s.ops.values.any fun o => o.thread == t && (match o.kind with | .fence k _ => decide (k ≤ 1) | _ => false)

/-- A thread leaves its `wait` once its counts are met, R90. -/
def settleWait (s : State) (t : Nat) : State :=
  let h := s.thread t
  match h.stat with
  | .wait l st c tl =>
    let met (n : Nat) (lim : BitVec 4) : Bool := lim == 15 || decide (n ≤ lim.toNat)
    if met h.ld l && met h.st st && met h.cp c && met h.tl tl then s.enter t (h.pc + 4) else s
  | _ => s

/-- Whether a thread stands in a barrier of the given reach. -/
def inBar (h : Thread) (gang : Bool) : Bool := match h.stat with | .bar g => g == gang | _ => false

/-- A generation of a barrier completes when every thread of `ts` that has not exited stands in it, at least one does, and
their fences are complete, R257, R318. -/
def settleBarOf (s : State) (ts : List (Nat × Thread)) (gang : Bool) : State :=
  let here := ts.filter fun th => th.2.stat != .exited
  if here.isEmpty || !here.all (fun th => inBar th.2 gang && !s.fencing th.1) then s
  else here.foldl (fun s th => s.enter th.1 (th.2.pc + 4)) s

/-- The team and gang barriers of a gang. -/
def settleBars (s : State) (gang : Nat) : State :=
  let s1 := (span 0 16).foldl (fun s i =>
    s.settleBarOf ((s.gangThreads gang).filter fun th => teamIdx th.1 == i) false) s
  s1.settleBarOf (s1.gangThreads gang) true

/-- Whether one of the two granules from a local address is marked poisoned, R431. -/
def granulesPoisoned (s : State) (gang la size : Nat) : Bool :=
  (span la size).any fun a => s.spadPoison.get false (spadKey gang a / 16)

/-- PHASE of the object at a local address, R319. -/
def objPhase (s : State) (gang la : Nat) : BitVec 4 := (s.spadByte gang la).extractLsb' 0 4

/-- A thread in `bwait` returns when the phase differs from the one it named, with its predicate clear where the bound had passed
before, or when the object's team has retired, R321, R344. -/
def settleBwait (s : State) (t : Nat) : State :=
  let h := s.thread t
  match h.stat with
  | .bwait la ph pd bound =>
    if !s.allocated (gangOf t) la 16 then (s.setPred t pd false).enter t (h.pc + 4)
    else if s.granulesPoisoned (gangOf t) la 16 then
      -- the thread re-examines the object by executing its `bwait` again, and faults there, R431
      s.enter t h.pc
    else if s.objPhase (gangOf t) la != ph then (s.setPred t pd (!bound.any fun b => decide (b < s.clock))).enter t (h.pc + 4)
    else s
  | _ => s

/-- Every thread of a gang that stands in a `bwait` re-examines its object, R321. -/
def settleObjects (s : State) (gang : Nat) : State :=
  (s.gangThreads gang).foldl (fun s th => s.settleBwait th.1) s

/-! ## Taking an exception -/

/-- The PCC of a thread, R178. -/
def pccOf (s : State) (t : Nat) : Cap := ⟨((s.recordOf t).map fun r => r.code.bits).getD 0⟩

/-- The offset of an address from PCC.BASE, [31:0], R373. -/
def pcOffset (s : State) (t pc : Nat) : BitVec 32 := BitVec.ofInt 32 ((pc : Int) - (s.pccOf t).base)

/-- The byte that a fetch returns: under the lease's translation, redirected as any read, R24, R25, R215. It is the byte that the
home slice holds now, of those that R25 allows (log entry 44). -/
def codeByte (s : State) (t va : Nat) : BitVec 8 :=
  match s.leaseBlock (gangOf t) (va / 65536) false with
  | some b => s.aliasRead (b.frame * 65536 + va % 65536)
  | none => 0

/-- Whether the whole instruction at an address lies within a PCC, R24; `none` where it does, or else the first byte
address outside. The second halfword counts when bit 0 of the first is 1. -/
def outsidePcc (s : State) (t : Nat) (pc : Nat) : Option Nat :=
  let c := s.pccOf t
  let inside (a : Nat) : Bool := decide (c.base ≤ a) && decide (a < c.top)
  if !inside pc then some pc
  else if !inside (pc + 1) then some (pc + 1)
  else if (s.codeByte t pc).getLsbD 0 then
    (if !inside (pc + 2) then some (pc + 2) else if !inside (pc + 3) then some (pc + 3) else none)
  else none

/-- The same test for a control transfer to a target that may lie anywhere, R24. -/
def targetOutside (s : State) (t : Nat) (target : Int) : Bool :=
  decide (target < 0) || (s.outsidePcc t target.toNat).isSome

/-- Whether a declared handler can be entered, R372. -/
def handlerOk (s : State) (t off : Nat) : Bool :=
  off % 2 == 0 && (s.outsidePcc t ((s.pccOf t).base + off)).isNone

/-! ## The end of a crew, of a gang, of a task -/

/-- A crew whose last thread has exited retires: its rows, slot and port queues are freed and its shadow reservation ends,
R132, R305. -/
def retireCrew (s : State) (crew : Nat) : State :=
  { s with
    crews := s.crews.adjust crew fun c => { c with retired := true }
    rows := s.rows.splice (crew * 32) (crew * 32 + 32) []
    valid := s.valid.splice (crew * 8) (crew * 8 + 8) []
    ports := s.ports.splice (crew * 128) (crew * 128 + 128) []
    resv := s.resv.keep fun _ c => c != crew }

/-- Whether every thread of a crew has exited. -/
def crewDone (s : State) (crew : Nat) : Bool := (span (crew * 32) 32).all fun t => (s.thread t).stat == .exited

/-- The slot of each group of a gang is given up. -/
def dropSlots (s : State) (gang : Nat) : State :=
  { s with
    slots := s.slots.keep fun _ g => g.crew / 512 != gang
    yielded := s.yielded.keep fun _ g => g.crew / 512 != gang }

/-- Whether an operation is discarded when its gang is stopped: loads, queries and ring loads are; stores, atomics, copies
and what is already under way complete, R151. -/
def dies (o : Op) : Bool :=
  match o.kind with
  | .load _ _ _ _ | .query _ _ | .ringLoad _ _ _ _ _ _ | .contextLoad _ => true
  | _ => false

/-- What a gang holds is freed and erased: crews, rows, validity, port queues, scratchpads, ring tiles, requests, epilogue
blocks, plane ownership and reservations, R136, R202, R305. -/
def freeGang (s : State) (gang : Nat) : State :=
  let inGang (crew : Nat) : Bool := crew / 512 == gang
  { s.dropSlots gang with
    crews := s.crews.keep fun c _ => !inGang c
    rows := s.rows.splice (gang * 16384) ((gang + 1) * 16384) []
    valid := s.valid.splice (gang * 4096) ((gang + 1) * 4096) []
    threads := s.threads.splice (gang * 16384) ((gang + 1) * 16384) []
    ports := s.ports.splice (gang * 65536) ((gang + 1) * 65536) []
    flights := s.flights.filter fun f => gangOf f.dest != gang
    spad := s.spad.splice (gang * 2 ^ 24) ((gang + 1) * 2 ^ 24) []
    spadTag := s.spadTag.splice (gang * 2 ^ 20) ((gang + 1) * 2 ^ 20) []
    spadPoison := s.spadPoison.splice (gang * 2 ^ 20) ((gang + 1) * 2 ^ 20) []
    ringH := s.ringH.keep fun k _ => k / 192 != gang
    ringT := s.ringT.keep fun k _ => k / 192 != gang
    tiles := s.tiles.keep fun k _ => k / 3072 != gang
    ring := s.ring.keep fun k _ => k / 50331648 != gang
    epi := s.epi.keep fun k _ => k / 192 != gang
    reqs := s.reqs.keep fun _ r => r.gang != gang
    active := s.active.mapVals fun _ p => if p.owner.any inGang then { p with owner := none } else p
    shadow := s.shadow.mapVals fun _ p => if p.owner.any inGang then { p with owner := none } else p
    resv := s.resv.keep fun _ c => !inGang c }

/-- What a departing team is charged, R309: its resident time in cycles by its occupancy in 1/64-core units. -/
def occupancy (r : TaskRec) : Nat :=
  max r.crews (max ((r.crews * r.floor + 31) / 32) ((r.spad + 6143) / 6144))

/-- D saturates at 48 bits, R309. -/
def clampD (d : Int) : Int := max (-(2 ^ 47)) (min (2 ^ 47 - 1) d)

/-- Charges a queue for `n` teams of a gang that leave their cores now, R309. -/
def charge (s : State) (gang n : Nat) : State :=
  match s.gangs.find? gang with
  | none => s
  | some g => match s.tasks.find? g.task with
    | none => s
    | some k =>
      let c : Int := ((s.clock - g.placedAt) * occupancy k.record * n : Nat)
      s.updQueue k.queue fun q => { q with deficit := clampD (q.deficit - c) }

/-- The teams of a gang that have not retired. -/
def liveTeams (s : State) (gang : Nat) : Nat :=
  match s.gangs.find? gang with
  | none => 0
  | some g => match s.tasks.find? g.task with
    | none => 0
    | some k => ((span 0 k.record.teams).filter fun i => !g.deadTeams.getLsbD i).length

/-- The batches that threads of a service context have bound are to be answered with ABORTED, R402. -/
def abortBatches (s : State) (p : Nat → Bool) : State :=
  { s with batches := s.batches.mapVals fun _ b =>
      if b.bound.any fun x => p x.1 then { b with bound := none, sent := none, aborted := true } else b }

/-- Operations dropped, with what the instructions of which none is left had still to settle, R97, R151. -/
def dropOps (s : State) (p : Op → Bool) : State :=
  let ops := s.ops.keep fun _ o => !p o
  let left (n : Nat) : Bool := ops.values.any fun o => o.insn == n
  { s with ops := ops, accs := s.accs.keep fun k _ => left (k / 32) }

/-- A gang is stopped as an operand fault stops it, with no relaunch, R151, R213: its loads are discarded, its issued
stores and copies complete, its image or residue is discarded, all it holds is freed. A batch that it has sent stays with its die's
service team (R316, R402). -/
def killGang (s : State) (gang : Nat) : State :=
  let s0 := match s.gangs.find? gang with
    | some g => if g.stat = GStat.resident then s.charge gang (s.liveTeams gang) else s
    | none => s
  let s1 := ((s0.freeGang gang).abortBatches fun t => gangOf t == gang).dropOps fun o => gangOf o.thread == gang && dies o
  let s2 := { s1 with
    fetches := s1.fetches.keep fun _ f => f.gang != gang
    batches := s1.batches.keep fun _ b => b.crew / 512 != gang || b.sent.isSome }
  s2.updGang gang fun g => { g with stat := .retired, preempt := none, wake := none }

/-- A task is ended by the first ending event, R379: the code stands, and its gangs are stopped as R213 states; one that another gang
has adopted retires with its adopter, R312. A task that has its code WORLD_POISON already, from its interface's entry to ERROR, keeps it
(R198). -/
def endTask (s : State) (task : Nat) (code : EndCode) (why : Option (BitVec 32 × BitVec 32 × BitVec 32)) : State :=
  match s.tasks.find? task with
  | none => s
  | some k =>
    if (k.code.isSome ∧ k.code ≠ some .worldPoison) ∨ k.stage = .completed then s
    else
      let s1 := if k.code.isSome then s else s.updTask task fun k => { k with code := some code, fault := why }
      let s2 := k.gangs.foldl (fun s g =>
        match s.gangs.find? g with
        | none => s
        | some x => match x.stat with
          | .retired => s
          | .adopted _ => s
          | _ => s.killGang g) s1
      { s2 with queues := s2.queues.mapVals fun _ q => { q with ahead := q.ahead.filter fun g => !k.gangs.contains g } }

/-- Enters a handler at an offset from PCC.BASE, R373; the entry begins a run (R33). -/
def enterHandler (s : State) (t off pc : Nat) (cause tval : BitVec 32) : State :=
  (s.updThread t fun h =>
    { h with tpc := s.pcOffset t pc, tcause := cause, tval := tval, handling := true }).enter t ((s.pccOf t).base + off)

/-- A thread stops for pre-emption at `pc`, R381, R382: on the cooperative path it enters the save handler. -/
def stopThread (s : State) (t pc : Nat) (coop : Bool) : State :=
  if coop then
    match s.recordOf t with
    | none => s
    | some r =>
      if s.handlerOk t r.save then
        (s.enterHandler t r.save pc Cause.preempt 0).updThread t fun h => { h with inSave := true, saveTpc := h.tpc }
      else s.endTask (s.taskOf t) .handlerFault (some (Cause.preempt, s.pcOffset t pc, 0))
  else s.updThread t fun h => { h with pc := pc, stat := .stopped, cont := 0, runLen := 0 }

/-- PREEMPT as a thread's gang has it. -/
def preemptOf (s : State) (t : Nat) : Option Bool := (s.gangs.find? (gangOf t)).bind (·.preempt)

/-- Taking an exception, R373, R374, R381: with PREEMPT set the thread stops at the instruction instead; without a handler,
inside one or inside a save handler (R382, R396), or where the handler cannot be entered, the task ends with HANDLER_FAULT. -/
def trapEntry (s : State) (t pc : Nat) (cause tval : BitVec 32) : State :=
  let h := s.thread t
  match (if h.inSave then none else s.preemptOf t) with
  | some coop => s.stopThread t pc coop
  | none =>
    match s.recordOf t with
    | none => s
    | some r =>
      if h.handling || h.inSave || r.handler == 0xFFFFFFFF || !s.handlerOk t r.handler then
        s.endTask (s.taskOf t) .handlerFault (some (cause, s.pcOffset t pc, tval))
      else s.enterHandler t r.handler pc cause tval

/-- Return from an exception, R375: HANDLING is clear, TPC, TCAUSE and TVAL stay, and PC comes from TPC; the second
component is where the thread goes on. An odd address stands as it is, and a TPC outside the PCC faults at the fetch, not here (log
entry 51). User mode of a restore handler ends with it (log entry 37). -/
def trapReturn (s : State) (t : Nat) : State × Nat :=
  (s.updThread t fun h => { h with handling := false, user := false }, (s.pccOf t).base + (s.thread t).tpc.toNat)

/-- A thread reaches the end of its run and stands at `pc`, R33; with PREEMPT set it stops there, R381. -/
def boundary (s : State) (t pc : Nat) : State :=
  match (if (s.thread t).inSave then none else s.preemptOf t) with
  | some coop => s.stopThread t pc coop
  | none => s.enter t pc

/-- A register lane that no longer waits for operation `id`, R303. -/
def unpend (s : State) (t id v : Nat) : State :=
  let r := s.row (crewOf t) v
  let left := (s.pending t v).filter fun p => p.op != id
  if (s.pending t v).isEmpty then s
  else s.setRow (crewOf t) v { r with pend := if left.isEmpty then r.pend.erase (laneOf t) else r.pend.put (laneOf t) left }

/-- Results delivered to the callers of a batch, R353: one write of `v8` and `v9`, tagged RAW, for those that have a result; the callers
are ready at the instruction after their `svc`, and their clean bytes below TENANT are discarded. A caller that no entry names keeps its
`v8` and `v9`, and one whose gang is away has the reply in its image, R315, R316, R402. -/
def reply (s : State) (id : Nat) (b : Batch) (res : Nat → Option (BitVec 32 × BitVec 32)) : State :=
  let here := (b.callers.map (·.1)).filter fun l => (s.thread (b.crew * 32 + l)).stat == .svc id
  let s1 := s.writeRegs b.crew (here.flatMap fun l => match res l with
    | some r => [⟨l, 8, r.1, 0, 0⟩, ⟨l, 9, r.2, 0, 0⟩]
    | none => [])
  let home := (s1.gangs.find? (b.crew / 512)).any fun g => decide (g.stat = GStat.resident)
  here.foldl (fun s l =>
    let t := b.crew * 32 + l
    let s2 := (s.unpend t id 8).unpend t id 9
    (if home then s2.discard (s2.coreOf t) 3 else s2).boundary t (s.thread t).pc) s1

/-- A thread exits, R80: its liveness bits are cleared, pending data will be discarded, its own port queues are emptied,
and a crew, a barrier generation or a batch that waited for it goes on. -/
def exitThread (s : State) (t : Nat) : State :=
  let s1 := s.updThread t fun h => { h with stat := .exited, cont := 0 }
  let s2 := s1.killRegs t (span 0 32)
  let s3 := { s2 with ports := s2.ports.splice (t * 4) (t * 4 + 4) [] }
  let s4 := s3.abortBatches (· == t)
  let s5 := if s4.crewDone (crewOf t) then s4.retireCrew (crewOf t) else s4
  s5.settleBars (gangOf t)

/-! ## Executing an instruction for a group -/

/-- The number of the last service event of the device, R400. -/
def lastEvent (s : State) : Nat := s.regs.evtSeq.values.foldl max 0

/-- A service event for a die, R400: events are numbered over the device, and every halted thread of the die goes on. -/
def serviceEvent (s : State) (die : Nat) : State :=
  let n := s.lastEvent + 1
  let s1 := { s with regs := { s.regs with evtSeq := s.regs.evtSeq.put die n } }
  s1.threads.foldl (fun s th =>
    if th.2.stat == .halted && s.coreOf th.1 / 96 == die then
      (s.updThread th.1 fun h => { h with seen := n }).boundary th.1 (th.2.pc + 4)
    else s) s1

/-- The lanes of a group, ascending. -/
def lanesOf (g : Group) : List Nat := (span 0 32).filter fun l => g.lanes.getLsbD l

/-- Whether a thread is guarded off, R31. -/
def guardedOff (s : State) (t : Nat) (ct : Ctl) : Bool := ct.g && (s.pred t ct.gp == ct.n)

/-- Runs a lane operation over threads in ascending order. -/
def runLanes (op : State → Nat → State × LaneRes) : State → List Nat → State × List (Nat × LaneRes)
  | s, [] => (s, [])
  | s, t :: ts =>
    let (s1, r) := op s t
    let (s2, rs) := runLanes op s1 ts
    (s2, (t, r) :: rs)

/-- The register writes of the lanes that complete. -/
def allWrites (rs : List (Nat × LaneRes)) : List RegWrite :=
  rs.flatMap fun tr => match tr.2 with
    | .done d => d.writes.map fun w => ⟨laneOf tr.1, w.1, w.2.1, w.2.2.1, w.2.2.2⟩
    | _ => []

/-- Registers killed, written and given validity, in that order, R32, R97, R185. -/
def writeBack (s : State) (crew : Nat) (rs : List (Nat × LaneRes)) : State :=
  let s1 := rs.foldl (fun s tr => match tr.2 with | .done d => s.killRegs tr.1 d.kills | _ => s) s
  let s2 := s1.writeRegs crew (allWrites rs)
  rs.foldl (fun s tr => match tr.2 with
    | .done d => d.caps.foldl (fun s c => s.setValid tr.1 c.1 c.2) s
    | _ => s) s2

/-- A thread's registers wait for no operation any more: what returns for them is discarded, R39, R397. -/
def dropPends (s : State) (t : Nat) : State :=
  (span 0 32).foldl (fun s v =>
    if (s.pending t v).isEmpty then s
    else
      let r := s.row (crewOf t) v
      s.setRow (crewOf t) v { r with pend := r.pend.erase (laneOf t) }) s

/-- Where a thread that completed stands: it goes on in its group, or its run ends. One that parks in its save handler keeps its registers
until the gang's resources are freed, R397. -/
def settleLane (s : State) (endBit : Bool) (len : Nat) (t : Nat) (d : Done) : State :=
  let pc := d.next.getD ((s.thread t).pc + len)
  match d.stat with
  | .ready => if endBit then s.boundary t pc else s.updThread t fun h => { h with pc := pc, stat := .ready }
  | .exited => s.exitThread t
  | .saved => (s.updThread t fun h => { h with stat := .saved }).dropPends t
  | .stopped => s
  | st =>
    let s1 := s.updThread t fun h => { h with pc := pc, stat := st, cont := 0, runLen := 0, since := s.clock }
    -- a thread that would stand here with PREEMPT set stops instead, R381
    match (if (s1.thread t).inSave then none else s1.preemptOf t) with
    | some coop => (match st with
        | .svc _ | .fetchw _ _ => s1
        | _ => s1.stopThread t pc coop)
    | none => s1

/-- Whether some lane parks. -/
def anyPark (rs : List (Nat × LaneRes)) : Bool := rs.any fun tr => match tr.2 with | .park _ => true | _ => false

/-- The lanes that complete, with what they did. -/
def donesOf (rs : List (Nat × LaneRes)) : List (Nat × Done) :=
  rs.filterMap fun tr => match tr.2 with | .done d => some (tr.1, d) | _ => none

/-- The lanes that go on in the same run: those guarded off and those that completed ready. -/
def stayers (off : List Nat) (rs : List (Nat × LaneRes)) : List Nat :=
  off ++ (donesOf rs).filterMap fun td => if td.2.stat = .ready then some td.1 else none

/-- A thread parks with its run: the instruction is counted once, R33, R36; one that was woken and finds its condition gone keeps its place
among the waiters, R327; with PREEMPT set it stops instead, R381. -/
def parkLane (s : State) (g : Group) (t : Nat) (why : ParkWhy) : State :=
  let s1 := s.updThread t fun h =>
    { h with
      stat := .parked why, cont := 2 * s.nextId, runLen := g.count - 1, runStart := g.start, since := s.clock,
      parkedAt := match h.stat with | .woken _ => h.parkedAt | _ => s.clock }
  match (if (s1.thread t).inSave then none else s1.preemptOf t) with
  | some coop => s1.stopThread t (s1.thread t).pc coop
  | none => s1

/-- A lane that parks. -/
def parkStep (g : Group) (s : State) (tr : Nat × LaneRes) : State :=
  match tr.2 with
  | .park why => s.parkLane g tr.1 why
  | _ => s

/-- A lane that faults leaves the group at the instruction, R36. -/
def faultStep (s : State) (tr : Nat × LaneRes) : State :=
  match tr.2 with
  | .fault cause tval => s.trapEntry tr.1 (s.thread tr.1).pc cause tval
  | _ => s

/-- A lane whose access ends its task, R213. -/
def endStep (s : State) (tr : Nat × LaneRes) : State :=
  match tr.2 with
  | .ends code => s.endTask (s.taskOf tr.1) code none
  | _ => s

/-- The threads that go on keep the run beside the parked ones, R36. -/
def splitRun (s : State) (g : Group) (stay : List Nat) : State :=
  stay.foldl (fun s t => s.updThread t fun h =>
    { h with cont := 2 * s.nextId + 1, runLen := g.count, runStart := g.start, since := s.clock }) s

/-- What becomes of the group's slot: given up at the end of a run, at a split, and when no lane is left, R33, R36. -/
def leaveSlot (s : State) (quarter : Nat) (g : Group) (e : Bool) (parks : Bool) (stay : List Nat) (rs : List (Nat × LaneRes)) : State :=
  if e then { s with slots := s.slots.erase quarter, nextId := if parks then s.nextId + 1 else s.nextId }
  else if parks then
    let s1 := s.splitRun g stay
    { s1 with slots := s1.slots.erase quarter, nextId := s1.nextId + 1 }
  else
    let lanes := g.lanes &&& ~~~laneMask (rs.filterMap fun tr => if stay.contains tr.1 then none else some (laneOf tr.1))
    if lanes = 0 then { s with slots := s.slots.erase quarter }
    else { s with slots := s.slots.put quarter { g with lanes := lanes, held := false } }

/-- Ends an instruction for a group: writes, the threads that go on, those that park, the slot, task ends
and then the faults that are still to be delivered, R371. -/
def finish (s : State) (quarter : Nat) (g : Group) (ct : Ctl) (len : Nat) (off : List Nat) (rs : List (Nat × LaneRes)) :
    State :=
  let s1 := s.writeBack g.crew rs
  let s2 := off.foldl (fun s t => s.settleLane ct.e len t Done.nothing) s1
  let s3 := (donesOf rs).foldl (fun s td => s.settleLane ct.e len td.1 td.2) s2
  let s4 := rs.foldl (parkStep g) s3
  let s5 := s4.leaveSlot quarter g ct.e (anyPark rs) (stayers off rs) rs
  rs.foldl faultStep (rs.foldl endStep s5)

/-- The rows for which the lanes of an instruction are held, R304. -/
def rowsHeldFor (rs : List (Nat × LaneRes)) : Nat := rs.foldl (fun m tr => match tr.2 with | .hold n => max m n | _ => m) 0

/-- Executes an instruction of `len` bytes for the group that holds the current quarter's slot: `op` acts for each thread
that is not guarded off, in ascending lane order; without a group nothing happens. -/
def issue (s : State) (ct : Ctl) (len : Nat) (op : State → Nat → State × LaneRes) : State :=
  match s.slots.find? s.cur with
  | none => s
  | some g =>
    let ts := (lanesOf g).map fun l => g.crew * 32 + l
    let off := ts.filter fun t => s.guardedOff t ct
    let on := ts.filter fun t => !s.guardedOff t ct
    let (s1, rs) := runLanes op s on
    if rs.any (fun tr => tr.2.isHold) then { s with slots := s.slots.put s.cur { g with held := true, short := rowsHeldFor rs } }
    else s1.finish s.cur g ct len off rs

/-- An operation that reads the state and changes only registers, predicates through `post`, or the place of its lane. -/
def pureLane (f : State → Nat → LaneRes) : State → Nat → State × LaneRes := fun s t => (s, f s t)

/-- The controls of a 16-bit form: unguarded, R26. -/
def ctl16 (e : Bool) : Ctl := ⟨0, false, false, e⟩

end State

end Sys2Proof.Machine
end

