-- ==== Sys2Proof/Machine/Operands.lean ====
section
/-! DEFINITION. Operand reads and checks that the instructions share: ReadSrc with its accepted sets (R58, R96), pairs and
groups (R102), the capability checks of R68, R175 and R340, the scope check of R200, and the issue of a counter-tracked
operation with its pending registers (R38, R87). -/

namespace Sys2Proof.Machine

/-- A read or a check: a value, or the outcome that ends the lane's instruction. -/
abbrev Rd (α : Type) := Except LaneRes α

/-- The word of an instruction as TVAL reports it, R56. -/
def insnWord (i : Instr) : BitVec 32 :=
  match encode i with
  | [] => 0
  | [a] => a.setWidth 32
  | a :: b :: _ => b ++ a

namespace Acc

/-- INT: RAW, I32. -/
def int (f : BitVec 4) : Bool := f == 0 || f == 1
/-- ANY: every tag except POISON. -/
def any (_ : BitVec 4) : Bool := true
/-- RAW, F32. -/
def f32 (f : BitVec 4) : Bool := f == 0 || f == 2
/-- RAW, F64. -/
def f64 (f : BitVec 4) : Bool := f == 0 || f == 3
/-- RAW, F16x2. -/
def f16 (f : BitVec 4) : Bool := f == 0 || f == 4
/-- RAW, B16x2. -/
def b16 (f : BitVec 4) : Bool := f == 0 || f == 5
/-- RAW, F16x2, B16x2. -/
def packed (f : BitVec 4) : Bool := f == 0 || f == 4 || f == 5
/-- RAW, or one format. -/
def only (x f : BitVec 4) : Bool := f == 0 || f == x

end Acc

/-- Ends the lane with a deliverable fault. -/
def fail {α : Type} (cause tval : BitVec 32) : Rd α := .error (.fault cause tval)

/-- Ends the lane with a fault when a condition holds. -/
def failIf (c : Bool) (cause tval : BitVec 32) : Rd Unit := if c then fail cause tval else .ok ()

/-- A register number as TVAL holds it. -/
def regNo (v : Nat) : BitVec 32 := BitVec.ofNat 32 v

namespace State

/-- The FMT of a register after CAP is read as RAW, R58. -/
def fmtOf (s : State) (t v : Nat) : BitVec 4 := if (s.tagOf t v).1 = 11 then 0 else (s.tagOf t v).1

/-- ReadSrc, R58. -/
def readSrc (s : State) (t v : Nat) (acc : BitVec 4 → Bool) : Rd (BitVec 32) :=
  if (s.tagOf t v).1 = 15 then fail Cause.poison (regNo v)
  else if acc (s.fmtOf t v) then .ok (s.reg t v)
  else fail Cause.format (regNo v)

/-- A pair, even register first, R102. -/
def readPair (s : State) (t v : Nat) (acc : BitVec 4 → Bool) : Rd (BitVec 64) := do
  let lo ← s.readSrc t v acc
  let hi ← s.readSrc t (v + 1) acc
  .ok (hi ++ lo)

/-- A group of `n` consecutive registers. -/
def readGroup (s : State) (t : Nat) (acc : BitVec 4 → Bool) : Nat → Nat → Rd (List (BitVec 32))
  | _, 0 => .ok []
  | v, n + 1 => do
    let x ← s.readSrc t v acc
    let xs ← s.readGroup t acc (v + 1) n
    .ok (x :: xs)

/-- The POISON check on the rows of a capability group, R68. -/
def capPoison (s : State) (t k : Nat) : Rd Unit :=
  match (span (4 * k) 4).find? fun v => (s.tagOf t v).1 == 15 with
  | some v => fail Cause.poison (regNo v)
  | none => .ok ()

/-- The checks of R175 after POISON: CAP_TAG, CAP_KIND, CAP_PERM, CAP_BOUNDS over `n` bytes at `ea`, MISALIGN. -/
def capChecks (s : State) (t k : Nat) (kind : Nat → Bool) (perm : Cap → Bool) (ea : Int) (n align : Nat)
    (tval : BitVec 32) : Rd Unit := do
  let c := s.capGroup t k
  failIf (!s.capValid t k) Cause.capTag tval
  failIf (!kind c.kind) Cause.capKind tval
  failIf (!perm c) Cause.capPerm tval
  failIf (!s.inBounds t c ea n) Cause.capBounds tval
  failIf (ea % align != 0) Cause.misalign tval

/-- GLOBAL or LOCAL. -/
def memKind (k : Nat) : Bool := k == 0 || k == 1

/-- The effective address of R68. -/
def effAddr (s : State) (t k : Nat) (off : Int) : Int := ((s.capGroup t k).cursor : Int) + off

/-- An address as TVAL holds it. -/
def addrNo (ea : Int) : BitVec 32 := BitVec.ofInt 32 ea

/-- PlainAccess after the POISON check of its group, R68: the address. -/
def plainAccess (s : State) (t k : Nat) (off : Int) (size : Nat) (perm : Cap → Bool) : Rd Int := do
  let ea := s.effAddr t k off
  s.capChecks t k memKind perm ea size size (addrNo ea)
  .ok ea

/-- The scope check of R200, for scope codes 4 and 5. -/
def scopeCheck (s : State) (t : Nat) (scope : BitVec 3) (word : BitVec 32) : Rd Unit :=
  let w := s.worldOf t
  let wd := (s.worlds.find? w).getD World.fresh
  failIf (w != 0 && ((scope == 4 && !wd.devScope) || (scope == 5 && !wd.sysScope))) Cause.scopeDenied word

/-- The kernel-mode check, R395. -/
def kernelCheck (s : State) (t : Nat) (word : BitVec 32) : Rd Unit := failIf (!s.kernel t) Cause.privilege word

/-- ObjRef, R340: the local address of a scratchpad structure, after `sources` have been read. -/
def objRef {α : Type} (s : State) (t k size : Nat) (sources : Rd α) : Rd (Nat × α) := do
  s.capPoison t k
  let x ← sources
  let ea := s.effAddr t k 0
  s.capChecks t k (· == 1) (fun c => c.r && c.w) ea size 16 (addrNo ea)
  .ok (ea.toNat, x)

/-- R431: a structure with a poisoned granule. -/
def objPoison (s : State) (t la size : Nat) : Rd Unit :=
  failIf (s.granulesPoisoned (gangOf t) la size) Cause.poison (regNo la)

/-- The last row test and the hold of R304, as a check. -/
def rowsFor (s : State) (t : Nat) (vs : List Nat) : Rd Unit :=
  match s.rowCheck t vs with
  | some r => .error r
  | none => .ok ()

/-- A counter at 63 holds the instruction, R89. -/
def roomIn (n : Nat) : Rd Unit := if n < 63 then .ok () else .error (.hold 0)

/-- The place that an access reaches, R207: a local address, or the translation of a global one; none outside the lease. -/
def place (s : State) (t : Nat) (c : Cap) (ea : Nat) (write : Bool) : State × Option Place :=
  if c.kind = 1 then (s, some (.scratch (gangOf t) ea))
  else
    let (s1, pa) := s.translate (s.coreOf t) (gangOf t) ea write
    (s1, pa.map .global)

/-- Numbers an operation of the current instruction and lists it. -/
def addOp (s : State) (t : Nat) (k : OpKind) : State :=
  { s with ops := s.ops.put s.nextId ⟨t, s.freeCtr, k⟩, nextId := s.nextId + 1 }

/-- Makes a register lane pending for the operation with number `op`, R38. -/
def pend (s : State) (t : Nat) (op : Nat) (v : Nat) : State :=
  let tag := s.tagOf t v
  let r := s.row (crewOf t) v
  s.setRow (crewOf t) v { r with
    fmt := if r.live = 0 ∧ r.pend.isEmpty then 0 else r.fmt
    scl := if r.live = 0 ∧ r.pend.isEmpty then 0 else r.scl
    pend := r.pend.put (laneOf t) (s.pending t v ++ [⟨op, tag.1, tag.2⟩]) }

/-- LOADS rises. -/
def incLd (s : State) (t : Nat) : State := s.updThread t fun h => { h with ld := h.ld + 1 }
/-- STORES rises. -/
def incSt (s : State) (t : Nat) : State := s.updThread t fun h => { h with st := h.st + 1 }
/-- COPIES rises. -/
def incCp (s : State) (t : Nat) : State := s.updThread t fun h => { h with cp := h.cp + 1 }
/-- TILES rises. -/
def incTl (s : State) (t : Nat) : State := s.updThread t fun h => { h with tl := h.tl + 1 }

/-- A counter falls, and a thread at a `wait` whose counts are then met goes on, R87, R90. -/
def decLd (s : State) (t : Nat) : State := (s.updThread t fun h => { h with ld := h.ld - 1 }).settleWait t
/-- STORES falls. -/
def decSt (s : State) (t : Nat) : State := (s.updThread t fun h => { h with st := h.st - 1 }).settleWait t
/-- COPIES falls. -/
def decCp (s : State) (t : Nat) : State := (s.updThread t fun h => { h with cp := h.cp - 1 }).settleWait t
/-- TILES falls. -/
def decTl (s : State) (t : Nat) : State := (s.updThread t fun h => { h with tl := h.tl - 1 }).settleWait t

/-- Issues a load-like operation: registers `kills` die first (L), then those of the group are pending, LOADS rises, R69. -/
def issueLoad (s : State) (t : Nat) (kills : List Nat) (k : OpKind) (vs : List Nat) : State :=
  let s1 := s.killRegs t kills
  let s2 := vs.foldl (fun s' v => s'.pend t s.nextId v) s1
  (s2.addOp t k).incLd t

/-- The outcome of a read as a lane's outcome. -/
def lane (r : Rd LaneRes) : LaneRes :=
  match r with
  | .ok x => x
  | .error e => e

/-- The outcome of a lane operation that changes the state only when its checks pass. -/
def laneS (s : State) (r : Rd (State × LaneRes)) : State × LaneRes :=
  match r with
  | .ok x => x
  | .error e => (s, e)

/-- The registers of a capability group. -/
def groupRegs (k : Nat) : List Nat := span (4 * k) 4

end State

end Sys2Proof.Machine
end

