-- ==== Sys2Proof/Machine/Int.lean ====
section
/-! DEFINITION. Class 0, the integer register forms (R61 to R64), class 2 to 4, the immediate forms (R65, R66), and the
16-bit integer forms (R26). -/

namespace Sys2Proof.Machine

/-- The result of an instruction's meaning. -/
abbrev Out := Host.Outcome State Fault Refusal

/-! ## The operations of R61 -/

namespace Alu

/-- The high half of the signed product. -/
def mulh (a s : BitVec 32) : BitVec 32 := ((a.signExtend 64) * (s.signExtend 64)).extractLsb' 32 32
/-- The high half of the unsigned product. -/
def mulhu (a s : BitVec 32) : BitVec 32 := ((a.setWidth 64) * (s.setWidth 64)).extractLsb' 32 32
/-- Signed minimum. -/
def min (a s : BitVec 32) : BitVec 32 := if s.slt a then s else a
/-- Signed maximum. -/
def max (a s : BitVec 32) : BitVec 32 := if a.slt s then s else a
/-- Unsigned minimum. -/
def minu (a s : BitVec 32) : BitVec 32 := if s.ult a then s else a
/-- Unsigned maximum. -/
def maxu (a s : BitVec 32) : BitVec 32 := if a.ult s then s else a
/-- The amount of a shift, s[4:0]. -/
def amount (s : BitVec 32) : Nat := s.toNat % 32
/-- Shift left. -/
def shl (a s : BitVec 32) : BitVec 32 := a <<< amount s
/-- Shift right, zeros in. -/
def shr (a s : BitVec 32) : BitVec 32 := a >>> amount s
/-- Shift right, sign bit in. -/
def sra (a s : BitVec 32) : BitVec 32 := a.sshiftRight (amount s)
/-- Rotate left. -/
def rotl (a s : BitVec 32) : BitVec 32 := a.rotateLeft (amount s)
/-- The number of 1 bits. -/
def popc (a : BitVec 32) : BitVec 32 := BitVec.ofNat 32 ((span 0 32).filter fun i => a.getLsbD i).length
/-- The number of leading 0 bits. -/
def clz (a : BitVec 32) : BitVec 32 := BitVec.ofNat 32 (if a = 0 then 32 else 31 - Nat.log2 a.toNat)
/-- Bit i moved to bit 31 − i. -/
def brev (a : BitVec 32) : BitVec 32 := (span 0 32).foldl (fun r i => setBit r (31 - i) (a.getLsbD i)) 0
/-- A signed sum or difference clamped to 32 bits. -/
def clamp (x : Int) : BitVec 32 := BitVec.ofInt 32 (Max.max (-(2 ^ 31)) (Min.min (2 ^ 31 - 1) x))
/-- Saturating add. -/
def adds (a s : BitVec 32) : BitVec 32 := clamp (a.toInt + s.toInt)
/-- Saturating subtract. -/
def subs (a s : BitVec 32) : BitVec 32 := clamp (a.toInt - s.toInt)
/-- The absolute difference. -/
def absd (a s : BitVec 32) : BitVec 32 := BitVec.ofNat 32 (a.toInt - s.toInt).natAbs
/-- pos of a bit field. -/
def pos (s : BitVec 32) : Nat := s.toNat % 32
/-- len of a bit field, clipped. -/
def len (s : BitVec 32) : Nat := Min.min (s.toNat / 256 % 64) (32 - pos s)
/-- A mask of `n` low bits. -/
def ones (n : Nat) : BitVec 32 := BitVec.ofNat 32 (2 ^ n - 1)
/-- Bit-field extract. -/
def bfx (a s : BitVec 32) : BitVec 32 := (a >>> pos s) &&& ones (len s)
/-- Bit-field insert. -/
def bfi (a s d : BitVec 32) : BitVec 32 :=
  (d &&& ~~~(ones (len s) <<< pos s)) ||| ((a &&& ones (len s)) <<< pos s)

end Alu

/-- A lane that writes one register and, with L, kills the registers it read. -/
def oneReg (d : Nat) (v : BitVec 32) (fmt : BitVec 4) (scl : BitVec 7) (l : Bool) (srcs : List Nat) : Done :=
  ⟨[(d, v, fmt, scl)], [], if l then srcs else [], none, .ready⟩

/-- A one-source form of R61. -/
def alu1 (acc : BitVec 4 → Bool) (fmt : BitVec 4) (f : BitVec 32 → BitVec 32) (d a : BitVec 5) (l : Bool) (ct : Ctl)
    (len : Nat) (s : State) : State :=
  s.issue ct len (State.pureLane fun s t => State.lane do
    let x ← s.readSrc t a.toNat acc
    .ok (s.finishLane t (oneReg d.toNat (f x) fmt 0 l [a.toNat])))

/-- A two-source form of R61. -/
def alu2 (acc : BitVec 4 → Bool) (fmt : BitVec 4) (f : BitVec 32 → BitVec 32 → BitVec 32) (d a b : BitVec 5) (l : Bool)
    (ct : Ctl) (len : Nat) (s : State) : State :=
  s.issue ct len (State.pureLane fun s t => State.lane do
    let x ← s.readSrc t a.toNat acc
    let y ← s.readSrc t b.toNat acc
    .ok (s.finishLane t (oneReg d.toNat (f x y) fmt 0 l [a.toNat, b.toNat])))

/-- A form of R61 that also reads D. -/
def alu3 (acc : BitVec 4 → Bool) (fmt : BitVec 4) (f : BitVec 32 → BitVec 32 → BitVec 32 → BitVec 32) (d a b : BitVec 5)
    (l : Bool) (ct : Ctl) (s : State) : State :=
  s.issue ct 4 (State.pureLane fun s t => State.lane do
    let x ← s.readSrc t a.toNat acc
    let y ← s.readSrc t b.toNat acc
    let z ← s.readSrc t d.toNat acc
    .ok (s.finishLane t (oneReg d.toNat (f x y z) fmt 0 l [a.toNat, b.toNat, d.toNat])))

/-- A form of R65: the class 0 counterpart with the sign-extended immediate. -/
def aluI (acc : BitVec 4 → Bool) (fmt : BitVec 4) (f : BitVec 32 → BitVec 32 → BitVec 32) (d a : BitVec 5)
    (imm : BitVec 32) (ct : Ctl) (len : Nat) (s : State) : State :=
  alu1 acc fmt (fun x => f x imm) d a false ct len s

/-- `mov`, R61: bits, tag and SCL of A; a CAP tag is copied with validity clear. -/
def movReg (d a : BitVec 5) (l : Bool) (ct : Ctl) (len : Nat) (s : State) : State :=
  s.issue ct len (State.pureLane fun s t => State.lane do
    let x ← s.readSrc t a.toNat Acc.any
    let tag := s.tagOf t a.toNat
    .ok (s.finishLane t (oneReg d.toNat x tag.1 tag.2 l [a.toNat])))

/-- Whether a crew lane belongs to the group that holds the slot, R62. -/
def inGroup (s : State) (t j : Nat) : Bool :=
  match s.slots.find? s.cur with
  | none => false
  | some g => g.crew == crewOf t && g.lanes.getLsbD j

/-- Whether a lane's register is live or pending. -/
def liveOrPending (s : State) (t v : Nat) : Bool :=
  (s.row (crewOf t) v).live.getLsbD (laneOf t) || !(s.pending t v).isEmpty

/-- One lane of `shfl`, R62. -/
def shflLane (d a b : Nat) (l : Bool) (s : State) (t : Nat) : Rd LaneRes := do
  let y ← s.readSrc t b Acc.any
  let j := y.toNat % 32
  let u := crewOf t * 32 + j
  let got := inGroup s t j && liveOrPending s u a
  let r := s.row (crewOf t) a
  failIf (got && r.fmt == 15) Cause.poison (regNo a)
  .ok (s.finishLane t (oneReg d (if got then s.reg u a else 0) (if got then r.fmt else 0) (if got then r.scl else 0) l
    [a, b]))

/-- The mask of R63. -/
def ballotMask (a : Nat) (ct : Ctl) (s : State) (t : Nat) : BitVec 32 :=
  (span 0 32).foldl (fun m i =>
    let u := crewOf t * 32 + i
    setBit m i (inGroup s t i && !s.guardedOff u ct && (s.tagOf u a).1 != 15 && s.reg u a != 0)) 0

/-- `add`. -/
def execAdd (d a s : BitVec 5) (l : Bool) (ct : Ctl) (st : State) : Out := .next (alu2 Acc.int 1 (· + ·) d a s l ct 4 st)
/-- `sub`. -/
def execSub (d a s : BitVec 5) (l : Bool) (ct : Ctl) (st : State) : Out := .next (alu2 Acc.int 1 (· - ·) d a s l ct 4 st)
/-- `mul`. -/
def execMul (d a s : BitVec 5) (l : Bool) (ct : Ctl) (st : State) : Out := .next (alu2 Acc.int 1 (· * ·) d a s l ct 4 st)
/-- `mulh`. -/
def execMulh (d a s : BitVec 5) (l : Bool) (ct : Ctl) (st : State) : Out := .next (alu2 Acc.int 1 Alu.mulh d a s l ct 4 st)
/-- `mulhu`. -/
def execMulhu (d a s : BitVec 5) (l : Bool) (ct : Ctl) (st : State) : Out :=
  .next (alu2 Acc.int 1 Alu.mulhu d a s l ct 4 st)
/-- `mad`. -/
def execMad (d a s : BitVec 5) (l : Bool) (ct : Ctl) (st : State) : Out :=
  .next (alu3 Acc.int 1 (fun x y z => z + x * y) d a s l ct st)
/-- `min`. -/
def execMin (d a s : BitVec 5) (l : Bool) (ct : Ctl) (st : State) : Out := .next (alu2 Acc.int 1 Alu.min d a s l ct 4 st)
/-- `max`. -/
def execMax (d a s : BitVec 5) (l : Bool) (ct : Ctl) (st : State) : Out := .next (alu2 Acc.int 1 Alu.max d a s l ct 4 st)
/-- `minu`. -/
def execMinu (d a s : BitVec 5) (l : Bool) (ct : Ctl) (st : State) : Out := .next (alu2 Acc.int 1 Alu.minu d a s l ct 4 st)
/-- `maxu`. -/
def execMaxu (d a s : BitVec 5) (l : Bool) (ct : Ctl) (st : State) : Out := .next (alu2 Acc.int 1 Alu.maxu d a s l ct 4 st)
/-- `and`. -/
def execAnd (d a s : BitVec 5) (l : Bool) (ct : Ctl) (st : State) : Out := .next (alu2 Acc.any 0 (· &&& ·) d a s l ct 4 st)
/-- `or`. -/
def execOr (d a s : BitVec 5) (l : Bool) (ct : Ctl) (st : State) : Out := .next (alu2 Acc.any 0 (· ||| ·) d a s l ct 4 st)
/-- `xor`. -/
def execXor (d a s : BitVec 5) (l : Bool) (ct : Ctl) (st : State) : Out := .next (alu2 Acc.any 0 (· ^^^ ·) d a s l ct 4 st)
/-- `andn`. -/
def execAndn (d a s : BitVec 5) (l : Bool) (ct : Ctl) (st : State) : Out :=
  .next (alu2 Acc.any 0 (fun x y => x &&& ~~~y) d a s l ct 4 st)
/-- `shl`. -/
def execShl (d a s : BitVec 5) (l : Bool) (ct : Ctl) (st : State) : Out := .next (alu2 Acc.any 0 Alu.shl d a s l ct 4 st)
/-- `shr`. -/
def execShr (d a s : BitVec 5) (l : Bool) (ct : Ctl) (st : State) : Out := .next (alu2 Acc.any 0 Alu.shr d a s l ct 4 st)
/-- `sra`. -/
def execSra (d a s : BitVec 5) (l : Bool) (ct : Ctl) (st : State) : Out := .next (alu2 Acc.any 0 Alu.sra d a s l ct 4 st)
/-- `rotl`. -/
def execRotl (d a s : BitVec 5) (l : Bool) (ct : Ctl) (st : State) : Out := .next (alu2 Acc.any 0 Alu.rotl d a s l ct 4 st)
/-- `popc`. -/
def execPopc (d a : BitVec 5) (l : Bool) (ct : Ctl) (st : State) : Out := .next (alu1 Acc.any 1 Alu.popc d a l ct 4 st)
/-- `clz`. -/
def execClz (d a : BitVec 5) (l : Bool) (ct : Ctl) (st : State) : Out := .next (alu1 Acc.any 1 Alu.clz d a l ct 4 st)
/-- `brev`. -/
def execBrev (d a : BitVec 5) (l : Bool) (ct : Ctl) (st : State) : Out := .next (alu1 Acc.any 0 Alu.brev d a l ct 4 st)
/-- `adds`. -/
def execAdds (d a s : BitVec 5) (l : Bool) (ct : Ctl) (st : State) : Out := .next (alu2 Acc.int 1 Alu.adds d a s l ct 4 st)
/-- `subs`. -/
def execSubs (d a s : BitVec 5) (l : Bool) (ct : Ctl) (st : State) : Out := .next (alu2 Acc.int 1 Alu.subs d a s l ct 4 st)
/-- `absd`. -/
def execAbsd (d a s : BitVec 5) (l : Bool) (ct : Ctl) (st : State) : Out := .next (alu2 Acc.int 1 Alu.absd d a s l ct 4 st)
/-- `bfx`. -/
def execBfx (d a s : BitVec 5) (l : Bool) (ct : Ctl) (st : State) : Out := .next (alu2 Acc.any 0 Alu.bfx d a s l ct 4 st)
/-- `bfi`. -/
def execBfi (d a s : BitVec 5) (l : Bool) (ct : Ctl) (st : State) : Out := .next (alu3 Acc.any 0 Alu.bfi d a s l ct st)
/-- `mov`. -/
def execMov (d a : BitVec 5) (l : Bool) (ct : Ctl) (st : State) : Out := .next (movReg d a l ct 4 st)
/-- `shfl`, R62. -/
def execShfl (d a s : BitVec 5) (l : Bool) (ct : Ctl) (st : State) : Out :=
  .next (st.issue ct 4 (State.pureLane fun st t => State.lane (shflLane d.toNat a.toNat s.toNat l st t)))
/-- `ballot`, R63. -/
def execBallot (d a : BitVec 5) (l : Bool) (ct : Ctl) (st : State) : Out :=
  .next (st.issue ct 4 (State.pureLane fun st t => State.lane do
    let _ ← st.readSrc t a.toNat Acc.any
    .ok (st.finishLane t (oneReg d.toNat (ballotMask a.toNat ct st t) 0 0 l [a.toNat]))))

/-! ## Immediate forms, R65, R66 -/

/-- `addi`. -/
def execAddi (d a : BitVec 5) (i : BitVec 8) (ct : Ctl) (st : State) : Out :=
  .next (aluI Acc.int 1 (· + ·) d a (i.signExtend 32) ct 4 st)
/-- `andi`. -/
def execAndi (d a : BitVec 5) (i : BitVec 8) (ct : Ctl) (st : State) : Out :=
  .next (aluI Acc.any 0 (· &&& ·) d a (i.signExtend 32) ct 4 st)
/-- `ori`. -/
def execOri (d a : BitVec 5) (i : BitVec 8) (ct : Ctl) (st : State) : Out :=
  .next (aluI Acc.any 0 (· ||| ·) d a (i.signExtend 32) ct 4 st)
/-- `xori`. -/
def execXori (d a : BitVec 5) (i : BitVec 8) (ct : Ctl) (st : State) : Out :=
  .next (aluI Acc.any 0 (· ^^^ ·) d a (i.signExtend 32) ct 4 st)
/-- `shli`. -/
def execShli (d a : BitVec 5) (i : BitVec 8) (ct : Ctl) (st : State) : Out :=
  .next (aluI Acc.any 0 Alu.shl d a (i.signExtend 32) ct 4 st)
/-- `shri`. -/
def execShri (d a : BitVec 5) (i : BitVec 8) (ct : Ctl) (st : State) : Out :=
  .next (aluI Acc.any 0 Alu.shr d a (i.signExtend 32) ct 4 st)
/-- `srai`. -/
def execSrai (d a : BitVec 5) (i : BitVec 8) (ct : Ctl) (st : State) : Out :=
  .next (aluI Acc.any 0 Alu.sra d a (i.signExtend 32) ct 4 st)
/-- `muli`. -/
def execMuli (d a : BitVec 5) (i : BitVec 8) (ct : Ctl) (st : State) : Out :=
  .next (aluI Acc.int 1 (· * ·) d a (i.signExtend 32) ct 4 st)
/-- `movi`. -/
def execMovi (d : BitVec 5) (i : BitVec 16) (ct : Ctl) (st : State) : Out :=
  .next (st.issue ct 4 (State.pureLane fun st t => st.finishLane t (oneReg d.toNat (i.signExtend 32) 0 0 false [])))
/-- `movhi`. -/
def execMovhi (d : BitVec 5) (i : BitVec 16) (ct : Ctl) (st : State) : Out :=
  .next (alu1 Acc.any 0 (fun x => i ++ x.extractLsb' 0 16) d d false ct 4 st)

/-! ## 16-bit forms, R26 -/

/-- `mov`, 16 bits. -/
def execMov16 (d s : BitVec 5) (e : Bool) (st : State) : Out := .next (movReg d s false (State.ctl16 e) 2 st)
/-- `add`, 16 bits. -/
def execAdd16 (d s : BitVec 5) (e : Bool) (st : State) : Out :=
  .next (alu2 Acc.int 1 (· + ·) d d s false (State.ctl16 e) 2 st)
/-- `sub`, 16 bits. -/
def execSub16 (d s : BitVec 5) (e : Bool) (st : State) : Out :=
  .next (alu2 Acc.int 1 (· - ·) d d s false (State.ctl16 e) 2 st)
/-- `and`, 16 bits. -/
def execAnd16 (d s : BitVec 5) (e : Bool) (st : State) : Out :=
  .next (alu2 Acc.any 0 (· &&& ·) d d s false (State.ctl16 e) 2 st)
/-- `or`, 16 bits. -/
def execOr16 (d s : BitVec 5) (e : Bool) (st : State) : Out :=
  .next (alu2 Acc.any 0 (· ||| ·) d d s false (State.ctl16 e) 2 st)
/-- `xor`, 16 bits. -/
def execXor16 (d s : BitVec 5) (e : Bool) (st : State) : Out :=
  .next (alu2 Acc.any 0 (· ^^^ ·) d d s false (State.ctl16 e) 2 st)
/-- `shl`, 16 bits. -/
def execShl16 (d s : BitVec 5) (e : Bool) (st : State) : Out :=
  .next (alu2 Acc.any 0 Alu.shl d d s false (State.ctl16 e) 2 st)
/-- `shr`, 16 bits. -/
def execShr16 (d s : BitVec 5) (e : Bool) (st : State) : Out :=
  .next (alu2 Acc.any 0 Alu.shr d d s false (State.ctl16 e) 2 st)
/-- `sra`, 16 bits. -/
def execSra16 (d s : BitVec 5) (e : Bool) (st : State) : Out :=
  .next (alu2 Acc.any 0 Alu.sra d d s false (State.ctl16 e) 2 st)
/-- `mul`, 16 bits. -/
def execMul16 (d s : BitVec 5) (e : Bool) (st : State) : Out :=
  .next (alu2 Acc.int 1 (· * ·) d d s false (State.ctl16 e) 2 st)
/-- `addi`, 16 bits. -/
def execAddi16 (d : BitVec 5) (i : BitVec 5) (e : Bool) (st : State) : Out :=
  .next (aluI Acc.int 1 (· + ·) d d (i.signExtend 32) (State.ctl16 e) 2 st)

end Sys2Proof.Machine
end

