-- ==== Sys2Proof/Machine/Float.lean ====
section
/-! DEFINITION. Class 1, floating point, packed and L6 arithmetic and the conversions (R113 to R123), the 16-bit float forms
(R26), and the compares of class 6 (R74, R124). -/

namespace Sys2Proof.Machine

/-! ## Binary arithmetic, R114, R115 -/

/-- An operation on exact values: rounding mode, a, s, d; the value and the flags it sets by itself. -/
abbrev FOp := Nat → Val → Val → Val → Val × BitVec 32

namespace FOp

/-- a + s. -/
def add : FOp := fun rm a s _ => Val.add rm a s
/-- a − s. -/
def sub : FOp := fun rm a s _ => Val.add rm a s.neg
/-- a × s. -/
def mul : FOp := fun _ a s _ => Val.mul a s
/-- a × s + d. -/
def fma : FOp := fun rm a s d => Val.fma rm a s d
/-- minimumNumber. -/
def min : FOp := fun _ a s _ =>
  (if a.isNan then s else if s.isNan then a else if Val.ltSigned s a then s else a, Val.sigFlag [a, s])
/-- maximumNumber. -/
def max : FOp := fun _ a s _ =>
  (if a.isNan then s else if s.isNan then a else if Val.ltSigned a s then s else a, Val.sigFlag [a, s])
/-- a ÷ s. -/
def div : FOp := fun _ a s _ => Val.div a s
/-- √a. -/
def sqrt : FOp := fun _ a _ _ => Val.sqrt a

end FOp

/-- An element of R114: bits and flags. -/
def fElem (F : BinFmt) (op : FOp) (rm a s d : Nat) : Nat × BitVec 32 :=
  let r := op rm (F.dec a) (F.dec s) (F.dec d)
  ((F.round rm r.1).1, r.2 ||| (F.round rm r.1).2)

/-- A lane that completes with flags: they are set when it does, R99. -/
def flagLane (s : State) (t : Nat) (r : Rd (Done × BitVec 32)) : State × LaneRes :=
  match r with
  | .error e => (s, e)
  | .ok (d, fl) =>
    match s.finishLane t d with
    | .done d => (s.raise t fl, .done d)
    | x => (s, x)

/-- The rounding mode in force for a thread. -/
def rmOf (s : State) (t : Nat) : Nat := fctlRm (s.thread t).fctl

/-- An F32 form; `reads` says whether S and D are read. -/
def f32Form (op : FOp) (useS useD : Bool) (d a b : Nat) (l : Bool) (s : State) (t : Nat) : Rd (Done × BitVec 32) := do
  let x ← s.readSrc t a Acc.f32
  let y ← if useS then s.readSrc t b Acc.f32 else .ok 0
  let z ← if useD then s.readSrc t d Acc.f32 else .ok 0
  let r := fElem f32 op (rmOf s t) x.toNat y.toNat z.toNat
  let srcs := [a] ++ (if useS then [b] else []) ++ (if useD then [d] else [])
  .ok (oneReg d (BitVec.ofNat 32 r.1) 2 0 l srcs, r.2)

/-- Writes of a pair: low word in the even register, R102. -/
def pairWrites (d : Nat) (v : BitVec 64) (fmt : BitVec 4) : List (Nat × BitVec 32 × BitVec 4 × BitVec 7) :=
  [(d, v.extractLsb' 0 32, fmt, 0), (d + 1, v.extractLsb' 32 32, fmt, 0)]

/-- An F64 form. -/
def f64Form (op : FOp) (useS useD : Bool) (d a b : Nat) (l : Bool) (s : State) (t : Nat) : Rd (Done × BitVec 32) := do
  let x ← s.readPair t a Acc.f64
  let y ← if useS then s.readPair t b Acc.f64 else .ok 0
  let z ← if useD then s.readPair t d Acc.f64 else .ok 0
  let r := fElem f64 op (rmOf s t) x.toNat y.toNat z.toNat
  let srcs := [a, a + 1] ++ (if useS then [b, b + 1] else []) ++ (if useD then [d, d + 1] else [])
  .ok (⟨pairWrites d (BitVec.ofNat 64 r.1) 3, [], if l then srcs else [], none, .ready⟩, r.2)

/-- A packed source: POISON, then FORMAT with the agreement of R96; the format fixed so far, if any. -/
def readPacked (s : State) (t v : Nat) (sofar : Option (BitVec 4)) : Rd (BitVec 32 × Option (BitVec 4)) := do
  let x ← s.readSrc t v Acc.packed
  let f := s.fmtOf t v
  if f = 0 then .ok (x, sofar)
  else match sofar with
    | none => .ok (x, some f)
    | some g => if f = g then .ok (x, some g) else fail Cause.format (regNo v)

/-- Element `i` of a word of two halves. -/
def half (x : BitVec 32) (i : Nat) : Nat := x.toNat / 2 ^ (16 * i) % 2 ^ 16

/-- A packed 16-bit form. -/
def packedForm (op : FOp) (useD : Bool) (d a b : Nat) (l : Bool) (s : State) (t : Nat) : Rd (Done × BitVec 32) := do
  let (x, f1) ← readPacked s t a none
  let (y, f2) ← readPacked s t b f1
  let (z, f3) ← if useD then readPacked s t d f2 else .ok (0, f2)
  let fmt := f3.getD 4
  let F := if fmt = 5 then b16 else f16
  let e (i : Nat) := fElem F op (rmOf s t) (half x i) (half y i) (half z i)
  let srcs := [a, b] ++ (if useD then [d] else [])
  .ok (oneReg d (Fmt.pack 16 [(e 0).1, (e 1).1]) fmt 0 l srcs, (e 0).2 ||| (e 1).2)

/-- An F32 instruction. -/
def fExec (op : FOp) (useS useD : Bool) (d a b : BitVec 5) (l : Bool) (ct : Ctl) (len : Nat) (st : State) : State :=
  st.issue ct len fun s t => flagLane s t (f32Form op useS useD d.toNat a.toNat b.toNat l s t)

/-- An F64 instruction. -/
def dExec (op : FOp) (useS useD : Bool) (d a b : BitVec 5) (l : Bool) (ct : Ctl) (st : State) : State :=
  st.issue ct 4 fun s t => flagLane s t (f64Form op useS useD d.toNat a.toNat b.toNat l s t)

/-- A packed instruction. -/
def hExec (op : FOp) (useD : Bool) (d a b : BitVec 5) (l : Bool) (ct : Ctl) (st : State) : State :=
  st.issue ct 4 fun s t => flagLane s t (packedForm op useD d.toNat a.toNat b.toNat l s t)

/-- `fadd`. -/
def execFadd (d a s : BitVec 5) (l : Bool) (ct : Ctl) (st : State) : Out := .next (fExec FOp.add true false d a s l ct 4 st)
/-- `fsub`. -/
def execFsub (d a s : BitVec 5) (l : Bool) (ct : Ctl) (st : State) : Out := .next (fExec FOp.sub true false d a s l ct 4 st)
/-- `fmul`. -/
def execFmul (d a s : BitVec 5) (l : Bool) (ct : Ctl) (st : State) : Out := .next (fExec FOp.mul true false d a s l ct 4 st)
/-- `ffma`. -/
def execFfma (d a s : BitVec 5) (l : Bool) (ct : Ctl) (st : State) : Out := .next (fExec FOp.fma true true d a s l ct 4 st)
/-- `fmin`. -/
def execFmin (d a s : BitVec 5) (l : Bool) (ct : Ctl) (st : State) : Out := .next (fExec FOp.min true false d a s l ct 4 st)
/-- `fmax`. -/
def execFmax (d a s : BitVec 5) (l : Bool) (ct : Ctl) (st : State) : Out := .next (fExec FOp.max true false d a s l ct 4 st)
/-- `fdiv`. -/
def execFdiv (d a s : BitVec 5) (l : Bool) (ct : Ctl) (st : State) : Out := .next (fExec FOp.div true false d a s l ct 4 st)
/-- `fsqrt`. -/
def execFsqrt (d a : BitVec 5) (l : Bool) (ct : Ctl) (st : State) : Out := .next (fExec FOp.sqrt false false d a 0 l ct 4 st)
/-- `dadd`. -/
def execDadd (d a s : BitVec 5) (l : Bool) (ct : Ctl) (st : State) : Out := .next (dExec FOp.add true false d a s l ct st)
/-- `dsub`. -/
def execDsub (d a s : BitVec 5) (l : Bool) (ct : Ctl) (st : State) : Out := .next (dExec FOp.sub true false d a s l ct st)
/-- `dmul`. -/
def execDmul (d a s : BitVec 5) (l : Bool) (ct : Ctl) (st : State) : Out := .next (dExec FOp.mul true false d a s l ct st)
/-- `dfma`. -/
def execDfma (d a s : BitVec 5) (l : Bool) (ct : Ctl) (st : State) : Out := .next (dExec FOp.fma true true d a s l ct st)
/-- `dmin`. -/
def execDmin (d a s : BitVec 5) (l : Bool) (ct : Ctl) (st : State) : Out := .next (dExec FOp.min true false d a s l ct st)
/-- `dmax`. -/
def execDmax (d a s : BitVec 5) (l : Bool) (ct : Ctl) (st : State) : Out := .next (dExec FOp.max true false d a s l ct st)
/-- `ddiv`. -/
def execDdiv (d a s : BitVec 5) (l : Bool) (ct : Ctl) (st : State) : Out := .next (dExec FOp.div true false d a s l ct st)
/-- `dsqrt`. -/
def execDsqrt (d a : BitVec 5) (l : Bool) (ct : Ctl) (st : State) : Out := .next (dExec FOp.sqrt false false d a 0 l ct st)
/-- `hadd`. -/
def execHadd (d a s : BitVec 5) (l : Bool) (ct : Ctl) (st : State) : Out := .next (hExec FOp.add false d a s l ct st)
/-- `hsub`. -/
def execHsub (d a s : BitVec 5) (l : Bool) (ct : Ctl) (st : State) : Out := .next (hExec FOp.sub false d a s l ct st)
/-- `hmul`. -/
def execHmul (d a s : BitVec 5) (l : Bool) (ct : Ctl) (st : State) : Out := .next (hExec FOp.mul false d a s l ct st)
/-- `hfma`. -/
def execHfma (d a s : BitVec 5) (l : Bool) (ct : Ctl) (st : State) : Out := .next (hExec FOp.fma true d a s l ct st)
/-- `hmin`. -/
def execHmin (d a s : BitVec 5) (l : Bool) (ct : Ctl) (st : State) : Out := .next (hExec FOp.min false d a s l ct st)
/-- `hmax`. -/
def execHmax (d a s : BitVec 5) (l : Bool) (ct : Ctl) (st : State) : Out := .next (hExec FOp.max false d a s l ct st)

/-- `fadd`, 16 bits. -/
def execFadd16 (d s : BitVec 5) (e : Bool) (st : State) : Out :=
  .next (fExec FOp.add true false d d s false (State.ctl16 e) 2 st)
/-- `fsub`, 16 bits. -/
def execFsub16 (d s : BitVec 5) (e : Bool) (st : State) : Out :=
  .next (fExec FOp.sub true false d d s false (State.ctl16 e) 2 st)
/-- `fmul`, 16 bits. -/
def execFmul16 (d s : BitVec 5) (e : Bool) (st : State) : Out :=
  .next (fExec FOp.mul true false d d s false (State.ctl16 e) 2 st)
/-- `fmin`, 16 bits. -/
def execFmin16 (d s : BitVec 5) (e : Bool) (st : State) : Out :=
  .next (fExec FOp.min true false d d s false (State.ctl16 e) 2 st)
/-- `fmax`, 16 bits. -/
def execFmax16 (d s : BitVec 5) (e : Bool) (st : State) : Out :=
  .next (fExec FOp.max true false d d s false (State.ctl16 e) 2 st)

/-! ## Sign, class and rounding forms, R116 to R118 -/

/-- The width check of R55: each field holds an even number; a pair at an even register never passes `v31`. The fields are taken in the
order in which R55 lists them, D, A, S (log entry 52). -/
def widthCheck : List Nat → Rd Unit
  | [] => .ok ()
  | v :: vs => if v % 2 = 1 then fail Cause.format (regNo v) else widthCheck vs

/-- `fneg` and `fabs`: `f` acts on the sign bit, R116, R55. -/
def signForm (f : Bool → Bool) (d a : Nat) (l : Bool) (s : State) (t : Nat) : Rd LaneRes := do
  let x ← s.readSrc t a fun f => f == 0 || f == 2 || f == 3 || f == 4 || f == 5
  let fmt := s.fmtOf t a
  let flip (x : BitVec 32) (i : Nat) := setBit x i (f (x.getLsbD i))
  if fmt = 3 then do
    widthCheck [d, a]
    let y ← s.readSrc t (a + 1) Acc.f64
    .ok (s.finishLane t ⟨[(d, x, 3, 0), (d + 1, flip y 31, 3, 0)], [], if l then [a, a + 1] else [], none, .ready⟩)
  else if fmt = 4 ∨ fmt = 5 then .ok (s.finishLane t (oneReg d (flip (flip x 15) 31) fmt 0 l [a]))
  else .ok (s.finishLane t (oneReg d (flip x 31) 2 0 l [a]))

/-- `fcpys`. -/
def execFcpys (d a s : BitVec 5) (l : Bool) (ct : Ctl) (st : State) : Out :=
  .next (alu2 Acc.f32 2 (fun x y => y.extractLsb' 31 1 ++ x.extractLsb' 0 31) d a s l ct 4 st)
/-- `fneg`. -/
def execFneg (d a : BitVec 5) (l : Bool) (ct : Ctl) (st : State) : Out :=
  .next (st.issue ct 4 (State.pureLane fun s t => State.lane (signForm (fun b => !b) d.toNat a.toNat l s t)))
/-- `fabs`. -/
def execFabs (d a : BitVec 5) (l : Bool) (ct : Ctl) (st : State) : Out :=
  .next (st.issue ct 4 (State.pureLane fun s t => State.lane (signForm (fun _ => false) d.toNat a.toNat l s t)))

/-- The class mask of R117. -/
def classMask (x : BitVec 32) : BitVec 32 :=
  let bit (i : Nat) : BitVec 32 := BitVec.twoPow 32 i
  match f32.dec x.toNat with
  | .nan true => bit 8
  | .nan false => bit 9
  | .inf true => bit 0
  | .inf false => bit 7
  | .fin s m _ =>
    if m = 0 then (if s then bit 3 else bit 4)
    else if m < 2 ^ 23 then (if s then bit 2 else bit 5)
    else (if s then bit 1 else bit 6)

/-- `fclass`. -/
def execFclass (d a : BitVec 5) (l : Bool) (ct : Ctl) (st : State) : Out := .next (alu1 Acc.f32 1 classMask d a l ct 4 st)

/-- An F32 value rounded to an integral value, R118: bits and flags. -/
def roundIntegral (rm : Nat) (x : BitVec 32) : Nat × BitVec 32 :=
  match f32.dec x.toNat with
  | .nan sig => (f32.canon, Flags.when sig Flags.nv)
  | .fin s m e =>
    let n := atQuantum m e 0 s rm
    ((f32.round 0 (.fin s n 0)).1, Flags.when (!exactAt m e 0) Flags.nx)
  | .inf _ => (x.toNat, 0)

/-- `frnd`. -/
def execFrnd (d a m : BitVec 5) (l : Bool) (ct : Ctl) (st : State) : Out :=
  .next (st.issue ct 4 fun s t => flagLane s t do
    let x ← s.readSrc t a.toNat Acc.f32
    let r := roundIntegral (if m.toNat = 4 then rmOf s t else m.toNat) x
    .ok (oneReg d.toNat (BitVec.ofNat 32 r.1) 2 0 l [a.toNat], r.2))

/-! ## Conversions, R119, R120 -/

/-- The scale of a source row read as a scaled format: its SCL, or 0 for RAW. -/
def sclOf (s : State) (t v : Nat) : Int := if s.fmtOf t v = 0 then 0 else (s.tagOf t v).2.toInt

/-- The union of flags. -/
def flagsOf (rs : List (Nat × BitVec 32)) : BitVec 32 := rs.foldl (fun f r => f ||| r.2) 0

/-- Writes of a group of registers. -/
def groupWrites (d : Nat) (vs : List Nat) (fmt : BitVec 4) : List (Nat × BitVec 32 × BitVec 4 × BitVec 7) :=
  (vs.zipIdx).map fun vi => (d + vi.2, BitVec.ofNat 32 vi.1, fmt, 0)

/-- What an `fcvt` selector reads and writes: the writes, the registers read and the flags. -/
def cvtForm (sel d a : Nat) (s : State) (t : Nat) :
    Rd (List (Nat × BitVec 32 × BitVec 4 × BitVec 7) × List Nat × BitVec 32) :=
  let rm := rmOf s t
  let cvs := fctlCvs (s.thread t).fctl
  let scl := fctlScl (s.thread t).fctl
  let one (r : Nat × BitVec 32) (fmt : BitVec 4) := [(d, BitVec.ofNat 32 r.1, fmt, (0 : BitVec 7))]
  let toI (lo hi : Int) (v : Val) := Fmt.intBits 32 (toInt lo hi true v)
  match sel with
  | 0 => do
    let x ← s.readSrc t a Acc.int
    let r := Fmt.binary f32 rm (.ofInt x.toInt)
    .ok (one r 2, [a], r.2)
  | 1 => do
    let x ← s.readSrc t a Acc.int
    let r := Fmt.binary f32 rm (.ofInt (x.toNat : Nat))
    .ok (one r 2, [a], r.2)
  | 2 => do
    let x ← s.readSrc t a Acc.f32
    let r := toI (-(2 ^ 31)) (2 ^ 31 - 1) (f32.dec x.toNat)
    .ok (one r 1, [a], r.2)
  | 3 => do
    let x ← s.readSrc t a Acc.f32
    let r := toI 0 (2 ^ 32 - 1) (f32.dec x.toNat)
    .ok (one r 0, [a], r.2)
  | 4 => do
    let x ← s.readPair t a Acc.f64
    let r := Fmt.binary f32 rm (f64.dec x.toNat)
    .ok (one r 2, [a, a + 1], r.2)
  | 5 => do
    let x ← s.readSrc t a Acc.f32
    let r := Fmt.binary f64 rm (f32.dec x.toNat)
    .ok (pairWrites d (BitVec.ofNat 64 r.1) 3, [a], r.2)
  | 6 => do
    let x ← s.readSrc t a Acc.int
    let r := Fmt.binary f64 rm (.ofInt x.toInt)
    .ok (pairWrites d (BitVec.ofNat 64 r.1) 3, [a], r.2)
  | 7 => do
    let x ← s.readPair t a Acc.f64
    let r := toI (-(2 ^ 31)) (2 ^ 31 - 1) (f64.dec x.toNat)
    .ok (one r 1, [a, a + 1], r.2)
  | 8 | 9 => do
    let x ← s.readSrc t a Acc.f16
    let r := Fmt.binary f32 rm (f16.dec (half x (sel - 8)))
    .ok (one r 2, [a], r.2)
  | 10 | 11 => do
    let x ← s.readSrc t a Acc.b16
    let r := Fmt.binary f32 rm (b16.dec (half x (sel - 10)))
    .ok (one r 2, [a], r.2)
  | 12 | 13 => do
    let xs ← s.readGroup t Acc.f32 a 2
    let rs := xs.map fun x => Fmt.binary (if sel = 12 then f16 else b16) rm (f32.dec x.toNat)
    .ok ([(d, Fmt.pack 16 (rs.map (·.1)), if sel = 12 then 4 else 5, 0)], [a, a + 1], flagsOf rs)
  | 14 | 15 | 16 | 17 => do
    let xs ← s.readGroup t Acc.f32 a 4
    let F := if sel < 16 then Fp8.e4m3 else Fp8.e5m2
    let rs := xs.map fun x => F.ofVal (sel % 2 == 1) cvs (f32.dec x.toNat)
    .ok ([(d, Fmt.pack 8 (rs.map (·.1)), if sel < 16 then 6 else 7, scl)], span a 4, flagsOf rs)
  | 18 | 19 => do
    let x ← s.readSrc t a (Acc.only (if sel = 18 then 6 else 7))
    let F := if sel = 18 then Fp8.e4m3 else Fp8.e5m2
    let rs := (span 0 4).map fun i => Fmt.binary f32 rm ((F.dec (Fmt.elem 1 x i)).scale (sclOf s t a))
    .ok (groupWrites d (rs.map (·.1)) 2, [a], flagsOf rs)
  | 20 => do
    let xs ← s.readGroup t Acc.f32 a 5
    let rs := xs.map fun x => let r := L6.ofVal cvs (f32.dec x.toNat); (r.1.toNat, r.2)
    .ok ([(d, Fmt.pack 6 (rs.map (·.1)), 8, scl)], span a 5, flagsOf rs)
  | 21 => do
    let x ← s.readSrc t a (Acc.only 8)
    let rs := (span 0 5).map fun i =>
      Fmt.binary f32 rm ((L6.dec (BitVec.ofNat 6 (Fmt.elem 5 x i))).scale (sclOf s t a))
    .ok (groupWrites d (rs.map (·.1)) 2, [a], flagsOf rs)
  | 22 => do
    let xs ← s.readGroup t Acc.int a 4
    let rs := xs.map fun x => Fmt.intBits 8 (toInt (-128) 127 false ((Val.ofInt x.toInt).scale (-cvs)))
    .ok ([(d, Fmt.pack 8 (rs.map (·.1)), 9, scl)], span a 4, flagsOf rs)
  | _ => do
    let x ← s.readSrc t a (Acc.only 9)
    let rs := (span 0 4).map fun i =>
      Fmt.intBits 32 (toInt (-(2 ^ 31)) (2 ^ 31 - 1) false ((Fmt.dec 1 (Fmt.elem 1 x i)).scale (sclOf s t a)))
    .ok (groupWrites d (rs.map (·.1)) 1, [a], flagsOf rs)

/-- `fcvt`. -/
def execFcvt (d a s : BitVec 5) (l : Bool) (ct : Ctl) (st : State) : Out :=
  .next (st.issue ct 4 fun st t => flagLane st t do
    let (ws, srcs, fl) ← cvtForm s.toNat d.toNat a.toNat st t
    .ok (⟨ws, [], if l then srcs else [], none, .ready⟩, fl))

/-! ## L6 arithmetic, R121, R122 -/

/-- Element `i` of an L6x5 row; bits [31:30] are ignored, R103. -/
def l6Elem (x : BitVec 32) (i : Nat) : BitVec 6 := BitVec.ofNat 6 (Fmt.elem 5 x i)

/-- `lmul`. -/
def execLmul (d a s : BitVec 5) (l : Bool) (ct : Ctl) (st : State) : Out :=
  .next (st.issue ct 4 fun st t => flagLane st t do
    let x ← st.readSrc t a.toNat (Acc.only 8)
    let y ← st.readSrc t s.toNat (Acc.only 8)
    let k := sclOf st t a.toNat + sclOf st t s.toNat
    failIf (decide (k < -64) || decide (63 < k)) Cause.format (regNo a.toNat)
    let rs := (span 0 5).map fun i => let r := L6.mulElem (l6Elem x i) (l6Elem y i); (r.1.toNat, r.2)
    .ok (oneReg d.toNat (Fmt.pack 6 (rs.map (·.1))) 8 (BitVec.ofInt 7 k) l [a.toNat, s.toNat], flagsOf rs))

/-- The result of `ldot`, R122: two roundings to nearest even. -/
def ldotBits (x y z : BitVec 32) (k : Int) : Nat × BitVec 32 :=
  let acc := (span 0 5).foldl (fun acc i => acc + L6.term (l6Elem x i) (l6Elem y i)) (0 : Int)
  let p := f32.round 0 ((Val.ofInt acc).scale (-23))
  let q := Val.add 0 ((f32.dec p.1).scale k) (f32.dec z.toNat)
  let r := f32.round 0 q.1
  (r.1, p.2 ||| q.2 ||| r.2)

/-- `ldot`. -/
def execLdot (d a s : BitVec 5) (l : Bool) (ct : Ctl) (st : State) : Out :=
  .next (st.issue ct 4 fun st t => flagLane st t do
    let x ← st.readSrc t a.toNat (Acc.only 8)
    let y ← st.readSrc t s.toNat (Acc.only 8)
    let z ← st.readSrc t d.toNat Acc.f32
    let r := ldotBits x y z (sclOf st t a.toNat + sclOf st t s.toNat)
    .ok (oneReg d.toNat (BitVec.ofNat 32 r.1) 2 0 l [a.toNat, s.toNat, d.toNat], r.2))

/-! ## Compares, R74, R124 -/

/-- A lane that writes one predicate, combined as COMB says, and flags. -/
def predLane (p : BitVec 4) (m : BitVec 2) (s : State) (t : Nat) (r : Rd (Bool × BitVec 32)) : State × LaneRes :=
  match r with
  | .error e => (s, e)
  | .ok (c, fl) => ((s.setPred t p (combine m (s.pred t p) c)).raise t fl, .done Done.nothing)

/-- An integer compare. -/
def cmpExec (acc : BitVec 4 → Bool) (f : BitVec 32 → BitVec 32 → Bool) (p : BitVec 4) (a b : BitVec 5) (m : BitVec 2)
    (ct : Ctl) (st : State) : State :=
  st.issue ct 4 fun s t => predLane p m s t do
    let x ← s.readSrc t a.toNat acc
    let y ← s.readSrc t b.toNat acc
    .ok (f x y, 0)

/-- `cmpeq`. -/
def execCmpeq (p : BitVec 4) (a s : BitVec 5) (m : BitVec 2) (ct : Ctl) (st : State) : Out :=
  .next (cmpExec Acc.any (fun x y => x == y) p a s m ct st)
/-- `cmpne`. -/
def execCmpne (p : BitVec 4) (a s : BitVec 5) (m : BitVec 2) (ct : Ctl) (st : State) : Out :=
  .next (cmpExec Acc.any (fun x y => x != y) p a s m ct st)
/-- `cmplt`. -/
def execCmplt (p : BitVec 4) (a s : BitVec 5) (m : BitVec 2) (ct : Ctl) (st : State) : Out :=
  .next (cmpExec Acc.int (fun x y => x.slt y) p a s m ct st)
/-- `cmple`. -/
def execCmple (p : BitVec 4) (a s : BitVec 5) (m : BitVec 2) (ct : Ctl) (st : State) : Out :=
  .next (cmpExec Acc.int (fun x y => x.sle y) p a s m ct st)
/-- `cmpltu`. -/
def execCmpltu (p : BitVec 4) (a s : BitVec 5) (m : BitVec 2) (ct : Ctl) (st : State) : Out :=
  .next (cmpExec Acc.int (fun x y => x.ult y) p a s m ct st)
/-- `cmpleu`. -/
def execCmpleu (p : BitVec 4) (a s : BitVec 5) (m : BitVec 2) (ct : Ctl) (st : State) : Out :=
  .next (cmpExec Acc.int (fun x y => x.ule y) p a s m ct st)

/-- The operands of an `fcmp`, at the width of A's tag, R55, R124. -/
def fcmpOperands (s : State) (t a b : Nat) : Rd (Val × Val) := do
  let x ← s.readSrc t a fun f => f == 0 || f == 2 || f == 3
  if s.fmtOf t a = 3 then do
    widthCheck [a, b]
    let xh ← s.readSrc t (a + 1) Acc.f64
    let y ← s.readPair t b Acc.f64
    .ok (f64.dec (xh ++ x).toNat, f64.dec y.toNat)
  else do
    let y ← s.readSrc t b Acc.f32
    .ok (f32.dec x.toNat, f32.dec y.toNat)

/-- A floating-point compare; `quiet` says that only a signalling NaN sets NV. -/
def fcmpExec (quiet : Bool) (f : Val → Val → Bool) (p : BitVec 4) (a b : BitVec 5) (m : BitVec 2) (ct : Ctl) (st : State) :
    State :=
  st.issue ct 4 fun s t => predLane p m s t do
    let (x, y) ← fcmpOperands s t a.toNat b.toNat
    .ok (f x y, if quiet then Val.sigFlag [x, y] else Flags.when (x.isNan || y.isNan) Flags.nv)

/-- `fcmpeq`. -/
def execFcmpeq (p : BitVec 4) (a s : BitVec 5) (m : BitVec 2) (ct : Ctl) (st : State) : Out :=
  .next (fcmpExec true Val.eq p a s m ct st)
/-- `fcmplt`. -/
def execFcmplt (p : BitVec 4) (a s : BitVec 5) (m : BitVec 2) (ct : Ctl) (st : State) : Out :=
  .next (fcmpExec false Val.lt p a s m ct st)
/-- `fcmple`. -/
def execFcmple (p : BitVec 4) (a s : BitVec 5) (m : BitVec 2) (ct : Ctl) (st : State) : Out :=
  .next (fcmpExec false (fun x y => Val.lt x y || Val.eq x y) p a s m ct st)
/-- `fcmpun`. -/
def execFcmpun (p : BitVec 4) (a s : BitVec 5) (m : BitVec 2) (ct : Ctl) (st : State) : Out :=
  .next (fcmpExec true (fun x y => x.isNan || y.isNan) p a s m ct st)

end Sys2Proof.Machine
end

