-- ==== Sys2Proof/Machine/Control.lean ====
section
/-! DEFINITION. Predicates, control transfer, special registers, tags, `wait` and `yield` (R75 to R91), and the traps and
kernel instructions that move a thread: `trap`, `tret`, `park`, `halt` (R394 to R397, R400). -/

namespace Sys2Proof.Machine

/-- A lane that only goes somewhere. -/
def goTo (pc : Nat) : Done := ⟨[], [], [], some pc, .ready⟩

/-- A lane that stands at `pc` in a waiting place. -/
def standAt (pc : Nat) (st : TStat) : Done := ⟨[], [], [], some pc, st⟩

/-- `pset`, R75. -/
def execPset (p a b t : BitVec 4) (ct : Ctl) (st : State) : Out :=
  .next (st.issue ct 4 fun s th =>
    let i := (if s.pred th a then 2 else 0) + (if s.pred th b then 1 else 0)
    (s.setPred th p (t.getLsbD i), .done Done.nothing))

/-- `pmov`, R76: `r` is DIR. -/
def execPmov (v : BitVec 5) (r : Bool) (ct : Ctl) (st : State) : Out :=
  .next (st.issue ct 4 fun s t =>
    if r then State.laneS s do
      let x ← s.readSrc t v.toNat Acc.any
      .ok (s.updThread t fun h => { h with preds := x.extractLsb' 0 16 }, .done Done.nothing)
    else (s, s.finishLane t (oneReg v.toNat ((s.thread t).preds.setWidth 32) 0 0 false [])))

/-- The target of a branch, R40. -/
def branchTarget (s : State) (t : Nat) (o : BitVec 16) : Int := ((s.thread t).pc : Int) + 2 * o.toInt

/-- `bra`, R77. -/
def execBra (o : BitVec 16) (ct : Ctl) (st : State) : Out :=
  .next (st.issue ct 4 (State.pureLane fun s t => State.lane do
    let target := branchTarget s t o
    failIf (s.targetOutside t target) Cause.capBounds (State.addrNo target)
    .ok (.done (goTo target.toNat))))

/-- `call`, R78. -/
def execCall (o : BitVec 16) (ct : Ctl) (st : State) : Out :=
  .next (st.issue ct 4 (State.pureLane fun s t => State.lane do
    let target := branchTarget s t o
    failIf (s.targetOutside t target) Cause.capBounds (State.addrNo target)
    let link := s.pcOffset t ((s.thread t).pc + 4)
    .ok (s.finishLane t ⟨[(30, link, 1, 0)], [], [], some target.toNat, .ready⟩)))

/-- `jmpr`, R79. -/
def execJmpr (a : BitVec 5) (ct : Ctl) (st : State) : Out :=
  .next (st.issue ct 4 (State.pureLane fun s t => State.lane do
    let x ← s.readSrc t a.toNat Acc.any
    failIf (x.getLsbD 0) Cause.misalign x
    let target := (s.pccOf t).base + x.toNat
    failIf (s.targetOutside t target) Cause.capBounds (State.addrNo target)
    .ok (.done (goTo target))))

/-- `exit`, R80. -/
def execExit (ct : Ctl) (st : State) : Out :=
  .next (st.issue ct 4 (State.pureLane fun _ _ => .done ⟨[], [], [], none, .exited⟩))

/-- `nop`, R81. -/
def execNop (ct : Ctl) (st : State) : Out := .next (st.issue ct 4 (State.pureLane fun _ _ => .done Done.nothing))

/-! ## Special registers, R82 to R84, R88, R335 -/

/-- The rank of a thread on its port grid, R331. -/
def rankOf (s : State) (t : Nat) : Nat :=
  match s.recordOf t with
  | none => 0
  | some r => teamIdx t * (r.crews * 32) + tidOf t

/-- CNT, R88. -/
def cntOf (h : Thread) : BitVec 32 := BitVec.ofNat 32 (h.ld + h.st * 2 ^ 8 + h.cp * 2 ^ 16 + h.tl * 2 ^ 24)

/-- The value of a special register by its number, R52, R82. -/
def sreg (s : State) (t n : Nat) : BitVec 32 :=
  let h := s.thread t
  let num (k : Nat) : BitVec 32 := BitVec.ofNat 32 k
  let rec_ (f : TaskRec → Nat) : BitVec 32 := num (((s.recordOf t).map f).getD 0)
  let gang (f : Gang → Nat) : BitVec 32 := num (((s.gangs.find? (gangOf t)).map f).getD 0)
  let core := s.coreOf t
  match n with
  | 0x00 => num (tidOf t)
  | 0x01 => num (laneOf t)
  | 0x02 => num (tidOf t / 32)
  | 0x03 => num (teamIdx t)
  | 0x04 => gang (·.gx)
  | 0x05 => gang (·.gy)
  | 0x06 => gang (·.gz)
  | 0x07 => rec_ (·.crews)
  | 0x08 => rec_ (·.teams)
  | 0x09 => rec_ (·.ngx)
  | 0x0A => rec_ (·.ngy)
  | 0x0B => rec_ (·.ngz)
  | 0x0C => rec_ fun r => if r.gridH = 0 ∨ r.gridW = 0 then 0 else rankOf s t / r.gridW
  | 0x0D => rec_ fun r => if r.gridH = 0 ∨ r.gridW = 0 then 0 else rankOf s t % r.gridW
  | 0x0E => num (core % 4)
  | 0x0F => num (core / 4 % 24)
  | 0x10 => num (core / 96)
  | 0x11 => num (s.worldOf t)
  | 0x12 => num s.clock
  | 0x13 => h.clkHi
  | 0x14 => h.fctl
  | 0x15 => cntOf h
  | 0x16 => h.drops.setWidth 32
  | 0x17 => h.hints
  | 0x18 => h.tpc
  | 0x19 => h.tcause
  | 0x1A => h.tval
  | 0x1B => num (if h.resume then 1 else 0)
  | _ => 0

/-- `rdsr`: CLKLO latches the high half of the clock, R82, R83. -/
def execRdsr (d : BitVec 5) (s : BitVec 8) (ct : Ctl) (st : State) : Out :=
  .next (st.issue ct 4 fun st t =>
    match st.finishLane t (oneReg d.toNat (sreg st t s.toNat) 1 0 false []) with
    | .done x =>
      (if s = 0x12 then st.updThread t fun h => { h with clkHi := BitVec.ofNat 32 (st.clock / 2 ^ 32) } else st, .done x)
    | r => (st, r))

/-- `wrsr`, R84. -/
def execWrsr (a : BitVec 5) (s : BitVec 8) (ct : Ctl) (st : State) : Out :=
  .next (st.issue ct 4 fun st t => State.laneS st do
    failIf (s != 0x14 && !st.kernel t) Cause.privilege (insnWord (.wrsr a s ct))
    let x ← st.readSrc t a.toNat Acc.any
    .ok (if s = 0x14 then st.updThread t fun h => { h with fctl := fctlWrite x } else st, .done Done.nothing))

/-- `tag`, R85. -/
def execTag (d : BitVec 5) (f : BitVec 4) (k : BitVec 7) (ct : Ctl) (st : State) : Out :=
  .next (st.issue ct 4 (State.pureLane fun s t => State.lane do
    let x ← s.readSrc t d.toNat Acc.any
    .ok (s.finishLane t (oneReg d.toNat x f k false []))))

/-- `tagrd`, R86. -/
def execTagrd (d a : BitVec 5) (ct : Ctl) (st : State) : Out :=
  .next (st.issue ct 4 (State.pureLane fun s t =>
    let tag := s.tagOf t a.toNat
    s.finishLane t (oneReg d.toNat ((tag.2 ++ tag.1).setWidth 32) 1 0 false [])))

/-! ## `wait`, `yield`, traps -/

/-- The threads of the group that holds the current slot. -/
def slotThreads (s : State) : List Nat :=
  match s.slots.find? s.cur with
  | none => []
  | some g => (State.lanesOf g).map fun l => g.crew * 32 + l

/-- `wait`, R90: the thread stands there, and goes on at once if its counts are met. -/
def execWait (l s c t : BitVec 4) (ct : Ctl) (st : State) : Out :=
  .next ((slotThreads st).foldl State.settleWait
    (st.issue ct 4 (State.pureLane fun st th => .done (standAt (st.thread th).pc (.wait l s c t)))))

/-- `yield`, R91: the group is passed over at the next grant. -/
def execYield (ct : Ctl) (st : State) : Out :=
  let s1 := st.issue ct 4 (State.pureLane fun _ _ => .done Done.nothing)
  .next (match st.slots.find? st.cur with
    | none => s1
    | some g =>
      let on := (State.lanesOf g).filter fun l => !st.guardedOff (g.crew * 32 + l) ct
      if on.isEmpty then s1 else { s1 with yielded := s1.yielded.put st.cur { g with lanes := laneMask on } })

/-- `trap`, R394. -/
def execTrap (c : BitVec 16) (ct : Ctl) (st : State) : Out :=
  .next (st.issue ct 4 (State.pureLane fun _ _ => .fault Cause.software (c.setWidth 32)))

/-- `tret`, R375, R396. -/
def execTret (ct : Ctl) (st : State) : Out :=
  .next (st.issue ct 4 fun s t => State.laneS s do
    failIf (!(s.thread t).handling || (s.thread t).inSave) Cause.illegalOp (insnWord (.tret ct))
    let r := s.trapReturn t
    .ok (r.1, .done (goTo r.2)))

/-- `park`, R397. -/
def execPark (ct : Ctl) (st : State) : Out :=
  .next (st.issue ct 4 (State.pureLane fun s t => State.lane do
    failIf (!(s.thread t).inSave) Cause.illegalOp (insnWord (.park ct))
    .ok (.done ⟨[], [], [], none, .saved⟩)))

/-- `halt`, R400: it returns at once when an event has arrived since the thread's last `halt` returned. -/
def execHalt (ct : Ctl) (st : State) : Out :=
  .next (st.issue ct 4 fun s t => State.laneS s do
    s.kernelCheck t (insnWord (.halt ct))
    let n := s.regs.evtSeq.get 0 (s.coreOf t / 96)
    if (s.thread t).seen < n then .ok (s.updThread t fun h => { h with seen := s.lastEvent }, .done Done.nothing)
    else .ok (s, .done (standAt (s.thread t).pc .halted)))

end Sys2Proof.Machine
end

