-- ==== Sys2Proof/Machine/Access.lean ====
section
/-! DEFINITION. The instructions that issue memory operations: plain and capability loads and stores (R68 to R73, R189,
R190), typed accesses (R125 to R128), atomics (R271, R272), `fence` (R274), `pref`, `cflush`, `aqry` and `amat` (R284 to
R287). What happens when an operation is performed is in Perform.lean. -/

namespace Sys2Proof.Machine

/-- A lane that completes and kills registers. -/
def killing (vs : List Nat) : LaneRes := .done ⟨[], [], vs, none, .ready⟩

/-- The issue of an access once its checks have passed: outside the lease the task ends, R72, R213. -/
def atPlace (s : State) (t : Nat) (c : Cap) (ea : Nat) (write : Bool) (k : State → Place → State × LaneRes) :
    State × LaneRes :=
  match s.place t c ea write with
  | (s1, some p) => k s1 p
  | (s1, none) => (s1, .ends .lease)

/-- A lane of a load-like instruction at `off` from the cursor of group `c`, into registers `vs`, R68, R69. -/
def loadLane (c : Nat) (off : Int) (size : Nat) (l : Bool) (vs : List Nat) (fn : State → Nat → LoadFn) (s : State) (t : Nat) :
    State × LaneRes :=
  State.laneS s do
    s.capPoison t c
    let ea ← s.plainAccess t c off size (·.r)
    s.rowsFor t vs
    State.roomIn (s.thread t).ld
    .ok (atPlace s t (s.capGroup t c) ea.toNat false fun s p =>
      (s.issueLoad t (if l then State.groupRegs c else []) (.load (fn s t) p size vs) vs, .done Done.nothing))

/-- A lane of a store: `data` gives the bytes and the granule tag once read; `srcs` are the registers it reads, R68, R70. -/
def storeLane (c : Nat) (off : Int) (size : Nat) (l : Bool) (srcs : List Nat) (data : State → Nat → Rd (List (BitVec 8) × BitVec 32))
    (s : State) (t : Nat) : State × LaneRes :=
  State.laneS s do
    s.capPoison t c
    let d ← data s t
    let ea ← s.plainAccess t c off size (·.w)
    State.roomIn (s.thread t).st
    .ok (atPlace s t (s.capGroup t c) ea.toNat true fun s p =>
      (((s.addOp t (.store p d.1 false)).incSt t).raise t d.2, killing (if l then State.groupRegs c ++ srcs else [])))

/-- The byte offset of class 5, R46. -/
def memOff (o : BitVec 8) (size : Nat) : Int := o.toInt * size

/-- A plain load, R69. -/
def loadExec (size : Nat) (sext : Bool) (d : BitVec 5) (c : BitVec 3) (o : BitVec 8) (l : Bool) (ct : Ctl) (st : State) :
    State :=
  st.issue ct 4 (loadLane c.toNat (memOff o size) size l (if size = 8 then [d.toNat, d.toNat + 1] else [d.toNat])
    fun _ _ => .plain size sext)

/-- A plain store, R70. -/
def storeExec (size : Nat) (d : BitVec 5) (c : BitVec 3) (o : BitVec 8) (l : Bool) (ct : Ctl) (st : State) : State :=
  let srcs := if size = 8 then [d.toNat, d.toNat + 1] else [d.toNat]
  st.issue ct 4 (storeLane c.toNat (memOff o size) size l srcs fun s t => do
    let xs ← s.readGroup t Acc.any d.toNat srcs.length
    .ok ((xs.flatMap fun x => leBytes 4 x.toNat).take size, 0))

/-- `ldb`. -/
def execLdb (d : BitVec 5) (c : BitVec 3) (o : BitVec 8) (l : Bool) (ct : Ctl) (st : State) : Out :=
  .next (loadExec 1 true d c o l ct st)
/-- `ldbu`. -/
def execLdbu (d : BitVec 5) (c : BitVec 3) (o : BitVec 8) (l : Bool) (ct : Ctl) (st : State) : Out :=
  .next (loadExec 1 false d c o l ct st)
/-- `ldh`. -/
def execLdh (d : BitVec 5) (c : BitVec 3) (o : BitVec 8) (l : Bool) (ct : Ctl) (st : State) : Out :=
  .next (loadExec 2 true d c o l ct st)
/-- `ldhu`. -/
def execLdhu (d : BitVec 5) (c : BitVec 3) (o : BitVec 8) (l : Bool) (ct : Ctl) (st : State) : Out :=
  .next (loadExec 2 false d c o l ct st)
/-- `ldw`. -/
def execLdw (d : BitVec 5) (c : BitVec 3) (o : BitVec 8) (l : Bool) (ct : Ctl) (st : State) : Out :=
  .next (loadExec 4 false d c o l ct st)
/-- `ldd`. -/
def execLdd (d : BitVec 5) (c : BitVec 3) (o : BitVec 8) (l : Bool) (ct : Ctl) (st : State) : Out :=
  .next (loadExec 8 false d c o l ct st)
/-- `stb`. -/
def execStb (d : BitVec 5) (c : BitVec 3) (o : BitVec 8) (l : Bool) (ct : Ctl) (st : State) : Out :=
  .next (storeExec 1 d c o l ct st)
/-- `sth`. -/
def execSth (d : BitVec 5) (c : BitVec 3) (o : BitVec 8) (l : Bool) (ct : Ctl) (st : State) : Out :=
  .next (storeExec 2 d c o l ct st)
/-- `stw`. -/
def execStw (d : BitVec 5) (c : BitVec 3) (o : BitVec 8) (l : Bool) (ct : Ctl) (st : State) : Out :=
  .next (storeExec 4 d c o l ct st)
/-- `std`. -/
def execStd (d : BitVec 5) (c : BitVec 3) (o : BitVec 8) (l : Bool) (ct : Ctl) (st : State) : Out :=
  .next (storeExec 8 d c o l ct st)

/-- `ldc`, R189: LC of the capability used is that at issue. -/
def execLdc (d : BitVec 5) (c : BitVec 3) (o : BitVec 8) (l : Bool) (ct : Ctl) (st : State) : Out :=
  .next (st.issue ct 4 (loadLane c.toNat (memOff o 16) 16 l (span d.toNat 4)
    fun s t => .cap (s.capGroup t c.toNat).lc))

/-- `stc`, R190. -/
def execStc (d : BitVec 5) (c : BitVec 3) (o : BitVec 8) (l : Bool) (ct : Ctl) (st : State) : Out :=
  .next (st.issue ct 4 fun s t => State.laneS s do
    let k := d.toNat / 4
    s.capPoison t c.toNat
    s.capPoison t k
    let ea ← s.plainAccess t c.toNat (memOff o 16) 16 (·.w)
    let dst := s.capGroup t c.toNat
    let v := s.capGroup t k
    let ok := s.capValid t k
    failIf (ok && !dst.sc) Cause.capPerm (State.addrNo ea)
    failIf (ok && dst.kind == 0 && !v.g) Cause.capPerm (State.addrNo ea)
    State.roomIn (s.thread t).st
    .ok (atPlace s t dst ea.toNat true fun s p =>
      ((s.addOp t (.store p (leBytes 16 v.bits.toNat) (ok && !s.capMarked t v))).incSt t,
       killing (if l then State.groupRegs c.toNat ++ State.groupRegs k else []))))

/-! ## Typed accesses, R125 to R127 -/

/-- `ldt`: RM and CVS are taken at issue. -/
def execLdt (d : BitVec 5) (c : BitVec 3) (m : BitVec 4) (k : BitVec 3) (l : Bool) (ct : Ctl) (st : State) : Out :=
  .next (st.issue ct 4 (loadLane c.toNat 0 4 l (span d.toNat (WellFormed.typedGroup m k))
    fun s t => .typed m k (BitVec.ofNat 2 (rmOf s t)) (fctlScl (s.thread t).fctl)))

/-- The tags that a typed store accepts, R127. -/
def sttAccept (m : BitVec 4) (k : BitVec 3) : BitVec 4 → Bool :=
  match k.toNat with
  | 0 => Acc.only (Fmt.packedTag m.toNat)
  | 1 => Acc.f32
  | 2 => Acc.f16
  | 3 => Acc.b16
  | _ => Acc.int

/-- `stt`: the word is converted and captured at issue, and its flags are set with it. -/
def execStt (r : BitVec 5) (c : BitVec 3) (m : BitVec 4) (k : BitVec 3) (sat : Bool) (ct : Ctl) (st : State) : Out :=
  .next (st.issue ct 4 (storeLane c.toNat 0 4 false [] fun s t => do
    let xs ← s.readGroup t (sttAccept m k) r.toNat (WellFormed.typedGroup m k)
    let w := Fmt.store m.toNat k.toNat sat (rmOf s t) (fctlCvs (s.thread t).fctl) xs
    .ok (leBytes 4 w.1.toNat, w.2)))

/-! ## Atomics, R271, R272 -/

/-- The size of an atomic on words. -/
def atomPair (fn : AtomFn) : Bool := match fn with | .addD | .casD => true | _ => false

/-- The tags that an atomic accepts. -/
def atomAccept (fn : AtomFn) : BitVec 4 → Bool :=
  match fn with
  | .and | .or | .xor | .xchg | .cas | .casD => Acc.any
  | .fadd => fun f => f == 0 || f == 2 || f == 3
  | .add | .smin | .smax | .umin | .umax | .addD => Acc.int

/-- The operands of an atomic: s, e, and whether it is 8 bytes wide, R55, R271. -/
def atomOperands (fn : AtomFn) (d v : Nat) (s : State) (t : Nat) : Rd (BitVec 64 × BitVec 64 × Bool) :=
  match fn with
  | .cas => do
    let x ← s.readSrc t v Acc.any
    let e ← s.readSrc t d Acc.any
    .ok (x.setWidth 64, e.setWidth 64, false)
  | .casD => do
    let x ← s.readPair t v Acc.any
    let e ← s.readPair t d Acc.any
    .ok (x, e, true)
  | .addD => do
    let x ← s.readPair t v Acc.int
    .ok (x, 0, true)
  | .fadd => do
    let x ← s.readSrc t v (atomAccept .fadd)
    if s.fmtOf t v = 3 then do
      widthCheck [d, v]
      let y ← s.readSrc t (v + 1) Acc.f64
      .ok (y ++ x, 0, true)
    else .ok (x.setWidth 64, 0, false)
  | .add | .smin | .smax | .umin | .umax | .and | .or | .xor | .xchg => do
    let x ← s.readSrc t v (atomAccept fn)
    .ok (x.setWidth 64, 0, false)

/-- One lane of an atomic, R272. -/
def atomLane (fn : AtomFn) (d c v : Nat) (o : BitVec 3) (word : BitVec 32) (s : State) (t : Nat) : State × LaneRes :=
  State.laneS s do
    s.scopeCheck t o word
    s.capPoison t c
    let (x, e, wide) ← atomOperands fn d v s t
    let size := if wide then 8 else 4
    let ea ← s.plainAccess t c 0 size fun c => c.r && c.w
    let vs := if wide then [d, d + 1] else [d]
    s.rowsFor t vs
    State.roomIn (s.thread t).ld
    .ok (atPlace s t (s.capGroup t c) ea.toNat true fun s p =>
      (s.issueLoad t [] (.atomic fn o.toNat p size vs x e (BitVec.ofNat 2 (rmOf s t))) vs, .done Done.nothing))

/-- An atomic. -/
def atomExec (fn : AtomFn) (d : BitVec 5) (c : BitVec 3) (v : BitVec 5) (o : BitVec 3) (ct : Ctl) (word : BitVec 32)
    (st : State) : State :=
  st.issue ct 4 (atomLane fn d.toNat c.toNat v.toNat o word)

/-- `aadd`. -/
def execAadd (d : BitVec 5) (c : BitVec 3) (s : BitVec 5) (o : BitVec 3) (ct : Ctl) (st : State) : Out :=
  .next (atomExec .add d c s o ct (insnWord (.aadd d c s o ct)) st)
/-- `amin`. -/
def execAmin (d : BitVec 5) (c : BitVec 3) (s : BitVec 5) (o : BitVec 3) (ct : Ctl) (st : State) : Out :=
  .next (atomExec .smin d c s o ct (insnWord (.amin d c s o ct)) st)
/-- `amax`. -/
def execAmax (d : BitVec 5) (c : BitVec 3) (s : BitVec 5) (o : BitVec 3) (ct : Ctl) (st : State) : Out :=
  .next (atomExec .smax d c s o ct (insnWord (.amax d c s o ct)) st)
/-- `aminu`. -/
def execAminu (d : BitVec 5) (c : BitVec 3) (s : BitVec 5) (o : BitVec 3) (ct : Ctl) (st : State) : Out :=
  .next (atomExec .umin d c s o ct (insnWord (.aminu d c s o ct)) st)
/-- `amaxu`. -/
def execAmaxu (d : BitVec 5) (c : BitVec 3) (s : BitVec 5) (o : BitVec 3) (ct : Ctl) (st : State) : Out :=
  .next (atomExec .umax d c s o ct (insnWord (.amaxu d c s o ct)) st)
/-- `aand`. -/
def execAand (d : BitVec 5) (c : BitVec 3) (s : BitVec 5) (o : BitVec 3) (ct : Ctl) (st : State) : Out :=
  .next (atomExec .and d c s o ct (insnWord (.aand d c s o ct)) st)
/-- `aor`. -/
def execAor (d : BitVec 5) (c : BitVec 3) (s : BitVec 5) (o : BitVec 3) (ct : Ctl) (st : State) : Out :=
  .next (atomExec .or d c s o ct (insnWord (.aor d c s o ct)) st)
/-- `axor`. -/
def execAxor (d : BitVec 5) (c : BitVec 3) (s : BitVec 5) (o : BitVec 3) (ct : Ctl) (st : State) : Out :=
  .next (atomExec .xor d c s o ct (insnWord (.axor d c s o ct)) st)
/-- `axchg`. -/
def execAxchg (d : BitVec 5) (c : BitVec 3) (s : BitVec 5) (o : BitVec 3) (ct : Ctl) (st : State) : Out :=
  .next (atomExec .xchg d c s o ct (insnWord (.axchg d c s o ct)) st)
/-- `acas`. -/
def execAcas (d : BitVec 5) (c : BitVec 3) (s : BitVec 5) (o : BitVec 3) (ct : Ctl) (st : State) : Out :=
  .next (atomExec .cas d c s o ct (insnWord (.acas d c s o ct)) st)
/-- `afadd`. -/
def execAfadd (d : BitVec 5) (c : BitVec 3) (s : BitVec 5) (o : BitVec 3) (ct : Ctl) (st : State) : Out :=
  .next (atomExec .fadd d c s o ct (insnWord (.afadd d c s o ct)) st)
/-- `aadd.d`. -/
def execAaddD (d : BitVec 5) (c : BitVec 3) (s : BitVec 5) (o : BitVec 3) (ct : Ctl) (st : State) : Out :=
  .next (atomExec .addD d c s o ct (insnWord (.aaddD d c s o ct)) st)
/-- `acas.d`. -/
def execAcasD (d : BitVec 5) (c : BitVec 3) (s : BitVec 5) (o : BitVec 3) (ct : Ctl) (st : State) : Out :=
  .next (atomExec .casD d c s o ct (insnWord (.acasD d c s o ct)) st)

/-! ## `fence`, `pref`, `cflush`, `aqry`, `amat` -/

/-- `fence`, R256, R274: it takes its place among the thread's operations. -/
def execFence (o : BitVec 3) (k : BitVec 2) (ct : Ctl) (st : State) : Out :=
  .next (st.issue ct 4 fun s t => State.laneS s do
    s.scopeCheck t o (insnWord (.fence o k ct))
    .ok (s.addOp t (.fence k.toNat o.toNat), .done Done.nothing))

/-- The checks of a hint, R286: the place of its line, if none fails. -/
def hintPlace (s : State) (t c : Nat) (ea : Int) : State × Option Place :=
  match (do
    s.capPoison t c
    s.capChecks t c State.memKind (·.r) ea 1 1 0 : Rd Unit) with
  | .error _ => (s, none)
  | .ok _ => s.place t (s.capGroup t c) ea.toNat false

/-- What a hint does at its line, R286: nothing where a cache has no room for the line (R11). -/
def hintAct (s : State) (t h pa : Nat) : State :=
  let core := s.coreOf t
  let w := s.worldOf t
  match h with
  | 0 => if s.roomFor core w [pa / 128] then s.readyL1 core w (pa / 128) [pa] else s
  | 1 => if s.takes (quadUnit core) (pa / 128) (s.lineTag w pa) then s.readyQuad (quadUnit core) w (pa / 128) [pa] else s
  | 3 => s.useFrame pa
  | _ => s

/-- `pref`, R286: a dropped hint counts in HINTDROP. -/
def execPref (h : BitVec 5) (c : BitVec 3) (o : BitVec 8) (l : Bool) (ct : Ctl) (st : State) : Out :=
  .next (st.issue ct 4 fun s t =>
    let r := match hintPlace s t c.toNat (s.effAddr t c.toNat (memOff o 128)) with
      | (s1, some (.global pa)) => hintAct s1 t h.toNat pa
      | (s1, some (.scratch _ _)) => s1
      | (s1, none) => s1.updThread t fun h => { h with hints := h.hints + 1 }
    (r, killing (if l then State.groupRegs c.toNat else [])))

/-- `cflush`, R287: the flush is counted by STORES. -/
def execCflush (p : BitVec 5) (c : BitVec 3) (s : BitVec 3) (l : Bool) (ct : Ctl) (st : State) : Out :=
  .next (st.issue ct 4 fun st t => State.laneS st do
    st.scopeCheck t s (insnWord (.cflush p c s l ct))
    st.capPoison t c.toNat
    let ea := st.effAddr t c.toNat 0
    st.capChecks t c.toNat State.memKind (fun c => c.r || c.w) ea 1 1 (State.addrNo ea)
    State.roomIn (st.thread t).st
    .ok (atPlace st t (st.capGroup t c.toNat) ea.toNat false fun st pl =>
      ((st.addOp t (.flush p.toNat s.toNat pl)).incSt t, killing (if l then State.groupRegs c.toNat else []))))

/-- `aqry`, R284. -/
def execAqry (d : BitVec 5) (c : BitVec 3) (ct : Ctl) (st : State) : Out :=
  .next (st.issue ct 4 fun s t => State.laneS s do
    s.capPoison t c.toNat
    let ea := s.effAddr t c.toNat 0
    s.capChecks t c.toNat (· == 0) (·.r) ea 1 1 (State.addrNo ea)
    s.rowsFor t [d.toNat]
    State.roomIn (s.thread t).ld
    .ok (atPlace s t (s.capGroup t c.toNat) ea.toNat false fun s p =>
      let pa := match p with | .global pa => pa | .scratch _ la => la
      (s.issueLoad t [] (.query pa d.toNat) [d.toNat], .done Done.nothing)))

/-- `amat`, R285. -/
def execAmat (c : BitVec 3) (v : BitVec 5) (o : BitVec 3) (ct : Ctl) (st : State) : Out :=
  .next (st.issue ct 4 fun s t => State.laneS s do
    s.scopeCheck t o (insnWord (.amat c v o ct))
    s.capPoison t c.toNat
    let n ← s.readSrc t v.toNat Acc.int
    let ea := s.effAddr t c.toNat 0
    s.capChecks t c.toNat (· == 0) (·.r) ea n.toNat 1 (State.addrNo ea)
    State.roomIn (s.thread t).cp
    .ok ((s.addOp t (.materialise ea.toNat n.toNat o.toNat)).incCp t, .done Done.nothing))

end Sys2Proof.Machine
end

