-- ==== Sys2Proof/Machine/Objects.lean ====
section
/-! DEFINITION. Barrier objects and circular buffers in scratchpad (spec/20, R319 to R330, R431): the steps of R320 and
R327 as functions of an object or header, and their reads and writes at the owning scratchpad. -/

namespace Sys2Proof.Machine

/-! ## Barrier objects -/

/-- The fields of a barrier object, R319. -/
structure BarObj where
  bytes : Int
  pend : Nat
  expect : Nat
  txerr : Bool
  ovr : Bool
  phase : Nat
  deriving DecidableEq, Repr

namespace BarObj

/-- Reads an object from its 16 bytes. -/
def dec (b : BitVec 128) : BarObj :=
  ⟨(b.extractLsb' 40 48).toInt, (b.extractLsb' 24 16).toNat, (b.extractLsb' 8 16).toNat, b.getLsbD 5, b.getLsbD 4,
   (b.extractLsb' 0 4).toNat⟩

/-- The 16 bytes of an object; reserved bits are written as 0. -/
def enc (o : BarObj) : BitVec 128 :=
  0#40 ++ BitVec.ofInt 48 o.bytes ++ BitVec.ofNat 16 o.pend ++ BitVec.ofNat 16 o.expect ++ 0#2 ++ BitVec.ofBool o.txerr
    ++ BitVec.ofBool o.ovr ++ BitVec.ofNat 4 o.phase

/-- `Settle`, R320: the object and whether the phase completed. -/
def settle (o : BarObj) : BarObj × Bool :=
  if o.pend = 0 ∧ o.bytes = 0 then ({ o with phase := (o.phase + 1) % 16, pend := o.expect }, true) else (o, false)

/-- `ObjInit`, R320, for a legal count. -/
def init (n : Nat) : BarObj := ⟨0, n, n, false, false, 0⟩

/-- `ObjArrive`, R320: none where the arrival is refused. -/
def arrive (o : BarObj) (n : Nat) : Option (BarObj × Bool) :=
  if o.pend < n then none else some (settle { o with pend := o.pend - n })

/-- `ObjExpect`, R320: none where the expectation is refused. -/
def expecting (o : BarObj) (m : Nat) : Option BarObj :=
  if 2 ^ 47 - 1 < o.bytes + m then none else some (settle { o with bytes := o.bytes + m }).1

/-- `ObjDeliver`, R320. -/
def deliver (o : BarObj) (m : Nat) : BarObj :=
  if o.bytes - m < -2 ^ 47 then { o with ovr := true } else (settle { o with bytes := o.bytes - m }).1

end BarObj

/-! ## Buffer headers -/

/-- A buffer header, R325: the first three words as they stand, then the fields that the operations change. -/
structure Hdr where
  w0 : BitVec 32
  w1 : BitVec 32
  w2 : BitVec 32
  rsv : BitVec 8
  pheld : Nat
  tail : Nat
  head : Nat
  filled : Nat
  free : Nat
  puts : BitVec 32
  rels : BitVec 32
  deriving DecidableEq, Repr

namespace Hdr

/-- Reads a header from its eight words. -/
def dec (w : Nat → BitVec 32) : Hdr :=
  ⟨w 0, w 1, w 2, (w 3).extractLsb' 24 8, ((w 3).extractLsb' 16 8).toNat, ((w 3).extractLsb' 8 8).toNat,
   ((w 3).extractLsb' 0 8).toNat, (w 4).toNat, (w 5).toNat, w 6, w 7⟩

/-- The eight words of a header; reserved bits are kept. -/
def enc (h : Hdr) : List (BitVec 32) :=
  [h.w0, h.w1, h.w2, h.rsv ++ BitVec.ofNat 8 h.pheld ++ BitVec.ofNat 8 h.tail ++ BitVec.ofNat 8 h.head,
   BitVec.ofNat 32 h.filled, BitVec.ofNat 32 h.free, h.puts, h.rels]

/-- BASE. -/
def base (h : Hdr) : Nat := (h.w0.extractLsb' 0 24).toNat
/-- SLOTB. -/
def slotb (h : Hdr) : Nat := (h.w1.extractLsb' 0 24).toNat
/-- NSLOT. -/
def nslot (h : Hdr) : Nat := (h.w2.extractLsb' 0 8).toNat
/-- ERR set. -/
def withErr (h : Hdr) : Hdr := { h with w2 := setBit h.w2 31 true }

/-- The byte offset of the first failing field of R326; a condition on several fields fails at the first of them, and the
offsets are those of the Bits column of R325 (log entry 14). -/
def firstBad (h : Hdr) : Option Nat :=
  let n := h.nslot
  if h.base % 16 ≠ 0 ∨ 2 ^ 24 < h.base + n * h.slotb then some 0
  else if h.slotb = 0 ∨ h.slotb % 16 ≠ 0 then some 4
  else if n = 0 ∨ 32 < n then some 8
  else if n ≤ h.head ∨ n ≤ h.tail ∨ n < h.free + h.filled + h.pheld then some 12
  else if 2 ^ n ≤ h.puts.toNat then some 24
  else if 2 ^ n ≤ h.rels.toNat then some 28
  else none

/-- The local address of a slot. -/
def slotAt (h : Hdr) (i : Nat) : Nat := h.base + i * h.slotb

/-- `SlotOf`, R327. -/
def slotOf (h : Hdr) (a : Nat) : Option Nat := (span 0 h.nslot).find? fun i => h.slotAt i == a

/-- `BufGet`, R327, where FREE is not 0. -/
def get (h : Hdr) : Hdr × Nat :=
  ({ h with tail := (h.tail + 1) % h.nslot, free := h.free - 1, pheld := h.pheld + 1 }, h.slotAt h.tail)

/-- `BufAcq`, R327, where FILLED is not 0. -/
def acq (h : Hdr) : Hdr × Nat := ({ h with head := (h.head + 1) % h.nslot, filled := h.filled - 1 }, h.slotAt h.head)

/-- The distance of a slot past a point of the ring. -/
def past (h : Hdr) (i k : Nat) : Nat := (i + 2 * h.nslot - k % h.nslot) % h.nslot

/-- The loop of `BufPut`. -/
def putLoop : Nat → Hdr → Hdr
  | 0, h => h
  | n + 1, h =>
    let i := (h.head + h.filled) % h.nslot
    if 0 < h.pheld ∧ h.puts.getLsbD i then
      putLoop n { h with puts := setBit h.puts i false, filled := h.filled + 1, pheld := h.pheld - 1 }
    else h

/-- `BufPut`, R327: none where it is refused. -/
def put (h : Hdr) (a : Nat) : Option Hdr :=
  match h.slotOf a with
  | none => none
  | some i =>
    if h.puts.getLsbD i ∨ h.pheld ≤ h.past i (h.head + h.filled) then none
    else some (putLoop 33 { h with puts := setBit h.puts i true })

/-- The loop of `BufRel`. -/
def relLoop : Nat → Hdr → Hdr
  | 0, h => h
  | n + 1, h =>
    let i := (h.tail + h.free) % h.nslot
    if h.rels.getLsbD i then relLoop n { h with rels := setBit h.rels i false, free := h.free + 1 } else h

/-- `BufRel`, R327: none where it is refused. -/
def rel (h : Hdr) (a : Nat) : Option Hdr :=
  match h.slotOf a with
  | none => none
  | some i =>
    let c := h.nslot - h.free - h.filled - h.pheld
    if h.rels.getLsbD i ∨ c ≤ h.past i (h.tail + h.free) then none
    else some (relLoop 33 { h with rels := setBit h.rels i true })

end Hdr

namespace State

/-! ## At the owning scratchpad -/

/-- The object at a local address. -/
def objAt (s : State) (gang la : Nat) : BarObj := BarObj.dec (BitVec.ofNat 128 (s.spadNat gang la 16))

/-- Writes an object; its waiters re-examine it, R321. -/
def setObj (s : State) (gang la : Nat) (o : BarObj) : State :=
  (s.spadWrite gang la (leBytes 16 o.enc.toNat) false).settleObjects gang

/-- An arrival of the matrix engine, R156, R320, R431: refused at PEND = 0, dropped at a poisoned object, and at one of a team that has
retired since the issue (log entry 46). -/
def engineArrive (s : State) (gang la : Nat) : State :=
  if la = 0 ∨ !s.allocated gang la 16 ∨ s.granulesPoisoned gang la 16 then s
  else
    let o := s.objAt gang la
    match o.arrive 1 with
    | some r => s.setObj gang la r.1
    | none => s.setObj gang la { o with ovr := true }

/-- The ferry's subtraction of delivered bytes, R282, R320, R431. -/
def ferryArrive (s : State) (gang la m : Nat) : State :=
  if !s.allocated gang la 16 ∨ s.granulesPoisoned gang la 16 then s
  else s.setObj gang la ((s.objAt gang la).deliver m)

/-- TXERR of an object, R280, R281; a poisoned object keeps its bits, R431. -/
def setTxerr (s : State) (gang la : Nat) : State :=
  if !s.allocated gang la 16 ∨ s.granulesPoisoned gang la 16 then s
  else s.setObj gang la { s.objAt gang la with txerr := true }

/-- The header at a local address. -/
def hdrAt (s : State) (gang la : Nat) : Hdr := Hdr.dec fun i => BitVec.ofNat 32 (s.spadNat gang (la + 4 * i) 4)

/-- Writes a header. -/
def setHdr (s : State) (gang la : Nat) (h : Hdr) : State :=
  (s.spadWrite gang la (h.enc.flatMap fun w => leBytes 4 w.toNat) false).settleObjects gang

/-- The threads of a gang that wait at a buffer for the same thing, parked or woken. -/
def waitersAt (s : State) (gang : Nat) (why : ParkWhy) : List (Nat × Thread) :=
  (s.gangThreads gang).filter fun th => th.2.stat == .parked why || th.2.stat == .woken why

end State

end Sys2Proof.Machine
end

