-- ==== Sys2Proof/Machine/Ring.lean ====
section
/-! DEFINITION. The accumulator ring of a gang on a quad: counts, tiles, slots, and the targets of the requests in its
stream (spec/08, R136 to R138, R148). -/

namespace Sys2Proof.Machine

/-- The key of a gang's ring on a quad. -/
def ringKey (gang quad : Nat) : Nat := gang * 192 + quad

/-- The key of tile `i` of a ring. -/
def tileKey (gang quad i : Nat) : Nat := ringKey gang quad * 16 + i

/-- The key of slot `n` of a tile, R138. -/
def slotKey (gang quad i n : Nat) : Nat := tileKey gang quad i * 16384 + n

/-- The key of a gang's captured epilogue block, R162. -/
def epiKey (gang : Nat) : Nat := gang * 192

/-- Whether two positions are wanted by a pass: an F64 pass with N above 64, R138. -/
def Block.wide (b : Block) : Nat := if b.afmt = 3 ∧ 64 < b.n then 1 else 0

/-- The positions that a request targets, R137, R138, R160. -/
def ReqKind.targets : ReqKind → List Nat
  | .pass b pos _ => span pos (b.wide + 1)
  | .clear pos none_ => if none_ then [] else [pos]
  | _ => []

/-- Whether an entry is a request to the array: load-stationary (also of a saved plane), pass or
load-then-pass. -/
def ReqKind.array : ReqKind → Bool
  | .load _ => true
  | .pass _ _ _ => true
  | .restore _ _ => true
  | _ => false

namespace State

/-- C of a gang, R136. -/
def ringC (s : State) (gang : Nat) : Nat := ((s.gangs.find? gang).map (·.rings)).getD 0

/-- H. -/
def ringHead (s : State) (gang quad : Nat) : Nat := s.ringH.get 0 (ringKey gang quad)

/-- T. -/
def ringTail (s : State) (gang quad : Nat) : Nat := s.ringT.get 0 (ringKey gang quad)

/-- The quad of a thread, device-wide. -/
def quadOf (s : State) (t : Nat) : Nat := s.coreOf t / 4

/-- A tile's record at a count. -/
def tileAt (s : State) (gang quad count : Nat) : Tile := s.tiles.get Tile.clear (tileKey gang quad (count % s.ringC gang))

/-- Rewrites a tile's record. -/
def setTile (s : State) (gang quad count : Nat) (f : Tile → Tile) : State :=
  { s with tiles := s.tiles.set Tile.clear (tileKey gang quad (count % s.ringC gang)) (f (s.tileAt gang quad count)) }

/-- A slot of the tile at a count. -/
def slot (s : State) (gang quad count n : Nat) : BitVec 32 := s.ring.get 0 (slotKey gang quad (count % s.ringC gang) n)

/-- Writes a slot. -/
def setSlot (s : State) (gang quad count n : Nat) (v : BitVec 32) : State :=
  { s with ring := s.ring.set 0 (slotKey gang quad (count % s.ringC gang) n) v }

/-- Zeroes the tile at a count and clears its kind and extent, R136. -/
def zeroTile (s : State) (gang quad count : Nat) : State :=
  let k := slotKey gang quad (count % s.ringC gang) 0
  { s with
    ring := s.ring.splice k (k + 16384) []
    tiles := s.tiles.erase (tileKey gang quad (count % s.ringC gang)) }

/-- Zeroes the tail tile and advances T, R147, R160. -/
def releaseTail (s : State) (gang quad : Nat) : State :=
  let t := s.ringTail gang quad
  let s1 := s.zeroTile gang quad t
  { s1 with ringT := s1.ringT.set 0 (ringKey gang quad) (t + 1) }

/-- The entries of a gang's stream on a quad, in stream order. -/
def stream (s : State) (gang quad : Nat) : FMap Req := s.reqs.keep fun _ r => r.gang == gang && r.quad == quad

/-- Whether a request that has not completed targets the tile at a count, R148. -/
def tileTargeted (s : State) (gang quad count : Nat) : Bool :=
  (s.stream gang quad).values.any fun r => (match r.kind with | .pass _ _ _ => r.kind.targets.contains count | _ => false)

end State

end Sys2Proof.Machine
end

