-- ==== Sys2Proof/Machine/Perform.lean ====
section
/-! DEFINITION. Performing the operations in flight: the returns of loads, stores, atomics, flushes, queries and fences, and
the movements of cache lines (R69, R70, R71, R126, R189, R223, R254 to R258, R272, R273, R284, R287, R399). An event that
its rules do not yet allow changes nothing. -/

namespace Sys2Proof.Machine

/-! ## Which operations may perform -/

/-- The places an operation touches: place, bytes, and whether it writes. -/
def OpKind.ranges (k : OpKind) : List (Place × Nat × Bool) :=
  match k with
  | .load _ p n _ => [(p, n, false)]
  | .store p d _ => [(p, d.length, true)]
  | .atomic _ _ p n _ _ _ _ => [(p, n, true)]
  | .contextStore ps => ps.map fun p => (p.1, p.2.length, true)
  | .contextLoad ps => ps.map fun p => (p.1, p.2, false)
  | .batchGet ps _ _ => ps.map fun p => (p.1, p.2, true)
  | .batchPut ps => ps.map fun p => (p.1, p.2, true)
  | _ => []

/-- Whether two places with their sizes share a byte. -/
def overlaps (p : Place) (n : Nat) (q : Place) (m : Nat) : Bool :=
  match p, q with
  | .global a, .global b => decide (a < b + m) && decide (b < a + n)
  | .scratch g a, .scratch h b => g == h && decide (a < b + m) && decide (b < a + n)
  | _, _ => false

/-- Whether an operation touches global memory in `[lo, hi)`. -/
def OpKind.touches (lo hi : Nat) (k : OpKind) : Bool :=
  (match k with
   | .query pa _ | .flush _ _ (.global pa) => decide (lo ≤ pa) && decide (pa < hi)
   | _ => false) || k.ranges.any fun r => overlaps (.global lo) (hi - lo) r.1 r.2.1

/-- Whether an operation in flight touches global memory in `[lo, hi)`: a range changes hands only when none does, R196, R197, R203 (log
entry 53). -/
def State.rangeBusy (s : State) (lo hi : Nat) : Bool := s.ops.values.any fun o => o.kind.touches lo hi

/-- The ring slot an operation touches, and whether it writes. -/
def OpKind.ringAt (k : OpKind) : Option (Nat × Nat × Nat × Bool) :=
  match k with
  | .ringLoad q i n _ _ _ => some (q, i, n, false)
  | .ringStore q i n _ _ => some (q, i, n, true)
  | _ => none

/-- Whether two operations are lanes of one atomic instruction, which are performed together, R273, R289. -/
def oneAtomic (x o : Op) : Bool :=
  x.insn == o.insn && (match x.kind, o.kind with
    | .atomic _ _ _ _ _ _ _ _, .atomic _ _ _ _ _ _ _ _ => true
    | _, _ => false)

/-- Whether two operations are lanes of one load instruction that read one place: one access, whose data returns to them together (log
entry 22). -/
def oneLoad (x o : Op) : Bool :=
  x.insn == o.insn && (match x.kind, o.kind with
    | .load _ p n _, .load _ q m _ => p == q && n == m
    | _, _ => false)

/-- Whether an earlier operation `x` of the same thread, or of a lower lane of the same instruction, holds back `o` because
they touch a common byte or ring slot, R71, R159, R273. -/
def samePlace (x o : Op) : Bool :=
  (x.thread == o.thread || x.insn == o.insn) && !oneAtomic x o &&
  ((x.kind.ranges.any fun a => o.kind.ranges.any fun b =>
      (a.2.2 || b.2.2 || x.thread == o.thread) && overlaps a.1 a.2.1 b.1 b.2.1) ||
   (match x.kind.ringAt, o.kind.ringAt with
   | some (q, i, n, w), some (q', i', n', v) => (w || v) && q == q' && i == i' && n == n'
   | _, _ => false))

/-- Whether an earlier fence of the thread holds back an operation, R256: FULL (0) and ACQ (2) hold back every later memory
operation, REL (1) stores, atomics and copies, MM (3) copies. -/
def heldByFence (fence o : OpKind) : Bool :=
  match fence with
  | .fence 1 _ => (match o with
    | .store _ _ _ | .atomic _ _ _ _ _ _ _ _ | .copy _ | .materialise _ _ _ | .contextStore _ | .batchPut _ => true
    | _ => false)
  | .fence 3 _ => (match o with | .copy _ => true | _ => false)
  | .fence _ _ => (match o with
    | .load _ _ _ _ | .store _ _ _ | .atomic _ _ _ _ _ _ _ _ | .flush _ _ _ | .copy _ | .materialise _ _ _
    | .launch _ _ | .contextStore _ | .contextLoad _ | .batchGet _ _ _ | .batchPut _ => true
    | _ => false)
  | _ => false

/-- The operations that a fence waits for, R256: loads and atomics, stores and flushes, and earlier fences; an ACQ waits for the stores too
(log entry 50). -/
def fenceWaits (o : OpKind) : Bool :=
  match o with
  | .load _ _ _ _ | .atomic _ _ _ _ _ _ _ _ | .store _ _ _ | .flush _ _ _ | .fence _ _ | .contextStore _ | .contextLoad _
  | .batchGet _ _ _ | .batchPut _ => true
  | _ => false

/-- The key of a place among the bytes of one space. -/
def placeKey (p : Place) : Nat :=
  match p with
  | .global pa => pa
  | .scratch g la => spadKey g la

/-- Whether a place is global. -/
def isGlobal (p : Place) : Bool := match p with | .global _ => true | .scratch _ _ => false

/-- The stores and atomics of a line that a flush waits for, R287. -/
def flushWaits (p : Place) (o : OpKind) : Bool :=
  o.ranges.any fun r => r.2.2 &&
    (match p with
     | .global a => overlaps (.global (a / 128 * 128)) 128 r.1 r.2.1
     | .scratch g a => overlaps (.scratch g (a / 128 * 128)) 128 r.1 r.2.1)

namespace State

/-- Whether the thread's own earlier stores or atomics still have to reach some of `n` bytes of its scratchpad, or, before it writes
there, its earlier loads still have to read them, R71. -/
def ownPending (s : State) (t la n : Nat) (write : Bool) : Bool :=
  s.ops.values.any fun o => o.thread == t &&
    o.kind.ranges.any fun r => (write || r.2.2) && overlaps r.1 r.2.1 (.scratch (gangOf t) la) n

/-- The operations before number `id`. -/
def earlier (s : State) (id : Nat) : List Op := (s.ops.filter fun kv => decide (kv.1 < id)).map (·.2)

/-- The lines that an operation touches in global memory. -/
def linesOfOp (o : Op) : List Nat :=
  (o.kind.ranges.flatMap fun r => match r.1 with
    | .global pa => span (pa / 128) ((pa + r.2.1 - 1) / 128 + 1 - pa / 128)
    | .scratch _ _ => []).eraseDups

/-- Whether the memory of a Pool page that is being re-enciphered lags behind its home slices, so that a push through the pool port must
wait, R219, R256. -/
def poolRewriting (s : State) : Bool := s.reenc.any fun p => (span (p * 512) 512).any s.poolDirty

/-- Whether an operation waits for the writes that a re-enciphering of a page has held and that were issued before it, but for those of its
own atomic instruction, with which it is performed, R219, R289. -/
def rewaitHolds (s : State) (id : Nat) : Bool :=
  (s.rewaits.find? id).any fun p => s.rewaits.any fun w =>
    w.2 == p && decide (w.1 < id) && !(s.ops.find? w.1).any fun x => (s.ops.find? id).any (oneAtomic x ·)

/-- Whether an operation waits for a page that is being re-enciphered, R213, R219: a write to it, a push of dirty bytes, or an access for
which caches full of such bytes have no room (R11); and, once that is over, for the writes that were held before it. -/
def rewriteHolds (s : State) (id : Nat) (o : Op) : Bool :=
  (!s.reenc.isEmpty && (match o.kind with
    | .fence 2 _ => false
    | .fence _ scope | .flush _ scope _ => s.dirtyRewriting || (scope == 5 && s.poolRewriting)
    | .launch _ _ => s.dirtyRewriting
    | k => (k.ranges.any fun r => r.2.2 && (match r.1 with | .global pa => s.lineHeld (pa / 128) | .scratch _ _ => false)) ||
      !s.roomFor (s.coreOf o.thread) (s.worldOf o.thread) (linesOfOp o))) ||
  s.rewaitHolds id

/-- Whether an operation may be performed now, R71, R213, R256, R273, R287, R348. -/
def mayPerform (s : State) (id : Nat) (o : Op) : Bool :=
  !s.rewriteHolds id o && (s.earlier id).all fun x =>
    !samePlace x o && !(x.thread == o.thread && heldByFence x.kind o.kind) &&
    (match o.kind with
     | .fence _ _ => !(x.thread == o.thread && fenceWaits x.kind)
     | .launch _ _ => !(x.thread == o.thread && fenceWaits x.kind)
     | .flush _ _ p => !(x.thread == o.thread && flushWaits p x.kind)
     | _ => true)

/-- An operation is over; a forwarding entry that counted it counts it no longer and is released at zero, R315. -/
def dropOp (s : State) (id : Nat) : State :=
  { s with
    ops := s.ops.erase id
    rewaits := s.rewaits.erase id
    fwds := (s.fwds.map fun f => { f with ops := f.ops.filter (· != id) }).filter fun f => !f.ops.isEmpty }

/-! ## Reading and writing at a place -/

/-- Bytes of memory as a thread's load takes them, with poison and the granule tag of the first byte. -/
def memRead (s : State) (t : Nat) (p : Place) (n : Nat) : State × List (BitVec 8) × Bool × Bool :=
  match p with
  | .scratch g la => let r := s.spadLoad g la n; (s, r.1, r.2.1, r.2.2)
  | .global pa =>
    let first := min n (128 - pa % 128)
    let core := s.coreOf t
    let w := s.worldOf t
    let (s1, b1, p1, g1) := s.cacheLoad core w pa first
    if n ≤ first then (s1, b1, p1, g1)
    else
      let second := min (n - first) 128
      let (s2, b2, p2, _) := s1.cacheLoad core w (pa + first) second
      if n ≤ first + second then (s2, b1 ++ b2, p1 || p2, g1)
      else
        let (s3, b3, p3, _) := s2.cacheLoad core w (pa + first + second) (n - first - second)
        (s3, b1 ++ b2 ++ b3, p1 || p2 || p3, g1)

/-- Bytes of a record in parts. -/
def readParts (s : State) (t : Nat) (ps : List (Place × Nat)) : State × List (BitVec 8) × Bool :=
  ps.foldl (fun (a : State × List (BitVec 8) × Bool) p =>
    (pieces (p.2 + 1) (match p.1 with | .global pa => pa | .scratch _ la => la) (List.replicate p.2 0)).foldl
      (fun (a : State × List (BitVec 8) × Bool) q =>
        let at_ : Place := match p.1 with | .global _ => .global q.1 | .scratch g _ => .scratch g q.1
        let r := a.1.memRead t at_ q.2.length
        (r.1, a.2.1 ++ r.2.1, a.2.2 || r.2.2.1)) a) (s, [], false)

/-- A store performed: at the thread's L1, or at the owning scratchpad, whose waiters re-examine their objects, R70, R321. -/
def memWrite (s : State) (t : Nat) (p : Place) (bs : List (BitVec 8)) (tag : Bool) : State :=
  match p with
  | .scratch g la => (s.spadWrite g la bs tag).settleObjects g
  | .global pa =>
    (pieces (bs.length + 1) pa bs).foldl (fun s q => s.cacheWrite (s.coreOf t) (s.worldOf t) q.1 q.2 tag) s

/-- A record written in parts. -/
def writeParts (s : State) (t : Nat) (ps : List (Place × Nat)) (bs : List (BitVec 8)) : State :=
  (ps.foldl (fun (a : State × List (BitVec 8)) p => (a.1.memWrite t p.1 (a.2.take p.2) false, a.2.drop p.2)) (s, bs)).1

/-! ## Delivering data to registers -/

/-- Whether an operation still targets a register lane, R39. -/
def targets (s : State) (t id v : Nat) : Bool := (s.pending t v).any fun p => p.op == id

/-- Registers as poisoned data writes them: tagged POISON, with the lane's bits as they are (log entry 22). -/
def poisoned (s : State) (t : Nat) (vs : List Nat) : List (Nat × BitVec 32 × BitVec 4 × BitVec 7) :=
  vs.map fun v => (v, (s.row (crewOf t) v).vals.get 0 (laneOf t), 15, 0)

/-- One register lane of a returning operation: written if the operation still targets it, else discarded, R39. -/
def deliverReg (s : State) (t id insn : Nat) (w : Nat × BitVec 32 × BitVec 4 × BitVec 7) : State × Bool :=
  let crew := crewOf t
  let lane := laneOf t
  let r := s.row crew w.1
  let ps := s.pending t w.1
  if s.targets t id w.1 then
    let left := ps.filter fun p => decide (id < p.op)
    let r' := { r with
      vals := r.vals.put lane w.2.1
      live := setBit r.live lane true
      pend := if left.isEmpty then r.pend.erase lane else r.pend.put lane left }
    let a := s.accs.get ⟨0, none, false⟩ (insn * 32 + w.1)
    let tag := match a.tag with
      | none => (w.2.2.1, w.2.2.2)
      | some g => if g = (w.2.2.1, w.2.2.2) then g else (0, 0)
    let s1 := s.setRow crew w.1 r'
    let a' : Acc := ⟨setBit a.lanes lane true, some tag, a.poison || w.2.2.1 == 15⟩
    ({ s1 with accs := s1.accs.put (insn * 32 + w.1) a' }.setValid t (w.1 / 4) false, true)
  else (s, false)

/-- The registers of a returning operation; how many were written. -/
def deliver (s : State) (t id insn : Nat) (ws : List (Nat × BitVec 32 × BitVec 4 × BitVec 7)) : State × Nat :=
  ws.foldl (fun (sn : State × Nat) w =>
    let r := sn.1.deliverReg t id insn w
    (r.1, sn.2 + (if r.2 then 1 else 0))) (s, 0)

/-- The validity of a crew's capability group cleared in some lanes. -/
def dropValid (s : State) (k : Nat) (lanes : BitVec 32) : State := { s with valid := s.valid.set 0 k (s.valid.get 0 k &&& ~~~lanes) }

/-- When the last lane of a counter-tracked instruction is done, each row it wrote takes its tag, R97; where that is not CAP, no lane it
wrote has a valid capability there, R170, R399. -/
def settleTags (s : State) (crew insn : Nat) : State :=
  if s.ops.values.any (fun o => o.insn == insn) then s
  else
    (s.accs.slice (insn * 32) (insn * 32 + 32)).foldl (fun s ka =>
      let v := ka.1 % 32
      let r := s.row crew v
      let new := if ka.2.poison then (15, 0) else ka.2.tag.getD (0, 0)
      let tag := tagAfter r.live ka.2.lanes (r.fmt, r.scl) new
      let s1 := { s with accs := s.accs.erase ka.1 }
      let s2 := if tag.1 = 11 then s1 else s1.dropValid (crew * 8 + v / 4) ka.2.lanes
      if (s2.rows.find? (crew * 32 + v)).isSome then s2.setRow crew v { r with fmt := tag.1, scl := tag.2 } else s2) s

/-- The end of a lane of a load-like instruction: LOADS falls for its thread, R69, R87, R272; the rows take their tags with the last lane,
R97. -/
def endLoad (s : State) (id : Nat) (o : Op) : State := ((s.dropOp id).settleTags (crewOf o.thread) o.insn).decLd o.thread

/-- A register lane that a context record leaves dead, R32, R39, R399: a later operation's data may still come. -/
def deliverDead (s : State) (t id v : Nat) : State :=
  if s.targets t id v then
    let lane := laneOf t
    let r := s.row (crewOf t) v
    let left := (s.pending t v).filter fun p => decide (id < p.op)
    let k := r.kill lane
    (s.setRow (crewOf t) v { k with pend := if left.isEmpty then k.pend else k.pend.put lane left }).setValid t (v / 4) false
  else s

/-- The tag that a context record gives a register: a reserved code is RAW, and only scaled formats keep a scale, R94, R95 (log
entry 45). -/
def recordTag (k : Nat) : BitVec 4 × BitVec 7 :=
  let f := k % 16
  if 12 ≤ f ∧ f ≤ 14 then (0, 0) else (BitVec.ofNat 4 f, if 6 ≤ f ∧ f ≤ 10 then BitVec.ofNat 7 (k / 16) else 0)

/-- A context record written to a thread, R399: each register that the operation still targets (R39), the validity of the groups that it
writes whole, and the trap registers of a thread that has not parked or exited. -/
def restoreContext (s : State) (t id insn : Nat) (bs : List (BitVec 8)) (poison : Bool) : State :=
  let at_ (o n : Nat) : Nat := leNat ((bs.drop o).take n)
  let tagk (k : Nat) : Nat := at_ (128 + 2 * k) 2
  if poison then
    (s.deliver t id insn (s.poisoned t (span 0 32))).1
  else
    let whole := (span 0 8).filter fun k => (groupRegs k).all fun v => s.targets t id v
    let s1 := (span 0 32).foldl (fun s v =>
      if tagk v / 2 ^ 11 % 2 = 1 then
        let g := recordTag (tagk v)
        (s.deliverReg t id insn (v, BitVec.ofNat 32 (at_ (4 * v) 4), g.1, g.2)).1
      else s.deliverDead t id v) s
    let flags := at_ 192 4
    let s2 := whole.foldl (fun s k =>
      let c : Cap := ⟨BitVec.ofNat 128 (at_ (16 * k) 16)⟩
      let cap := (groupRegs k).all fun v => tagk v / 2 ^ 11 % 2 == 1 && tagk v % 16 == 11
      s.setValid t k (flags / 2 ^ (16 + k) % 2 == 1 && cap && c.sound && !s.capMarked t c)) s1
    s2.updThread t fun h =>
      if h.stat = .exited ∨ h.stat = .saved then h
      else
        { h with
          tpc := BitVec.ofNat 32 (at_ 200 4)
          tcause := BitVec.ofNat 32 (at_ 204 4)
          tval := BitVec.ofNat 32 (at_ 208 4)
          handling := flags / 2 ^ 24 % 2 == 1 }

/-- The extended value of a plain load, R69. -/
def extend (size : Nat) (sext : Bool) (bs : List (BitVec 8)) : BitVec 32 :=
  let n := leNat bs
  if sext then BitVec.ofInt 32 (BitVec.ofNat (8 * size) n).toInt else BitVec.ofNat 32 n

/-- What returned data does, R69, R126, R189. -/
def loadReturn (s : State) (id : Nat) (o : Op) (fn : LoadFn) (regs : List Nat) (bs : List (BitVec 8)) (poison tag : Bool) :
    State :=
  let t := o.thread
  match fn with
  | .plain size sext =>
    if poison then (s.deliver t id o.insn (s.poisoned t regs)).1
    else
      let ws := regs.zipIdx.map fun vi => (vi.1, extend (min size 4) sext ((bs.drop (4 * vi.2)).take 4), (0 : BitVec 4), (0 : BitVec 7))
      (s.deliver t id o.insn ws).1
  | .typed mf cv rm cvs =>
    if poison then (s.deliver t id o.insn (s.poisoned t regs)).1
    else
      let w : BitVec 32 := BitVec.ofNat 32 (leNat bs)
      let r := if cv = 0 then ([w], []) else Fmt.load mf.toNat cv.toNat rm.toNat cvs.toInt w
      let g := Fmt.loadTag mf.toNat cv.toNat cvs
      -- a conversion whose register was rewritten sets no flag, R99
      let fl := regs.zipIdx.foldl (fun f vi => if s.targets t id vi.1 then f ||| r.2.getD vi.2 0 else f) (0 : BitVec 32)
      (s.deliver t id o.insn (regs.zipIdx.map fun vi => (vi.1, r.1.getD vi.2 0, g.1, g.2))).1.raise t fl
  | .cap lc =>
    if poison then (s.deliver t id o.insn (s.poisoned t regs)).1
    else
      let ws := regs.zipIdx.map fun vi =>
        (vi.1, BitVec.ofNat 32 (leNat ((bs.drop (4 * vi.2)).take 4)), (11 : BitVec 4), (0 : BitVec 7))
      let (s1, n) := s.deliver t id o.insn ws
      if n = 4 then s1.setValid t (regs.headD 0 / 4) (tag && lc && !s.capMarked t ⟨BitVec.ofNat 128 (leNat bs)⟩) else s1

/-! ## Atomics -/

end State

/-- The result of an atomic, R271: the value written, if any, the flags, and the tag of D. -/
def atomResult (fn : AtomFn) (wide : Bool) (old s e : BitVec 64) (rm : Nat) : Option (BitVec 64) × BitVec 32 × BitVec 4 :=
  let o32 : BitVec 32 := old.setWidth 32
  let s32 : BitVec 32 := s.setWidth 32
  let w (x : BitVec 32) : Option (BitVec 64) := some (x.setWidth 64)
  match fn with
  | .add => (w (o32 + s32), 0, 1)
  | .smin => (w (Alu.min o32 s32), 0, 1)
  | .smax => (w (Alu.max o32 s32), 0, 1)
  | .umin => (w (Alu.minu o32 s32), 0, 1)
  | .umax => (w (Alu.maxu o32 s32), 0, 1)
  | .and => (w (o32 &&& s32), 0, 0)
  | .or => (w (o32 ||| s32), 0, 0)
  | .xor => (w (o32 ^^^ s32), 0, 0)
  | .xchg => (w s32, 0, 0)
  | .cas => (if o32 = e.setWidth 32 then w s32 else none, 0, 0)
  | .fadd =>
    let F := if wide then f64 else f32
    let r := fElem F FOp.add rm old.toNat s.toNat 0
    (some (BitVec.ofNat 64 r.1), r.2, if wide then 3 else 2)
  | .addD => (some (old + s), 0, 1)
  | .casD => (if old = e then some s else none, 0, 0)

namespace State

/-- An atomic's point made ready for some bytes of a line, R258: what the caches above it hold of them is pushed and discarded; a cache
that is the point holds them; a home slice has landed what a write of the line lands (R242), and has pushed a Pool line where the
point is the pool's memory. -/
def atomReady (s : State) (core w scope x : Nat) (as : List Nat) : State :=
  let s1 := (below core scope).foldl (fun s u => discardLine as.contains (pushLine as.contains s u x) u x) s
  match scope with
  | 0 => s1.readyL1 core w x as
  | 1 => s1.readyQuad (quadUnit core) w x as
  | 5 => ((s1.beforeWrite x).poolPush x).useFrame (x * 128)
  | _ => (s1.beforeWrite x).useFrame (x * 128)

/-- The bytes that an atomic reads at its point, with their poison, R258, R272. -/
def atomRead (s : State) (t scope : Nat) (p : Place) (n : Nat) : List (BitVec 8) × Bool :=
  match p with
  | .scratch g la => let r := s.spadLoad g la n; (r.1, r.2.1)
  | .global pa =>
    let at_ (u : Nat) : List (BitVec 8) × Bool :=
      ((span pa n).map fun a => ((s.held? u a).map (·.val)).getD 0, (s.cmeta.get CMeta.none (mKey u (pa / 128))).poison)
    match scope with
    | 0 => at_ (s.coreOf t)
    | 1 => at_ (quadUnit (s.coreOf t))
    | _ => s.homeRead pa n

/-- The write step of an atomic at its point. -/
def atomWrite (s : State) (t scope : Nat) (p : Place) (bs : List (BitVec 8)) : State :=
  match p with
  | .scratch g la => (s.spadWrite g la bs false).settleObjects g
  | .global pa =>
    let core := s.coreOf t
    let w := s.worldOf t
    match scope with
    | 0 => s.cacheWrite core w pa bs false
    | 1 => s.cacheWrite (quadUnit core) w pa bs false
    | 5 => (s.homeWrite pa bs false).poolPush (pa / 128)
    | _ => s.homeWrite pa bs false

/-- One lane's step of an atomic at a point that is ready, R272. -/
def atomStep (s : State) (id : Nat) (o : Op) (fn : AtomFn) (scope : Nat) (p : Place) (n : Nat) (regs : List Nat)
    (x e : BitVec 64) (rm : BitVec 2) : State :=
  let t := o.thread
  let (bs, poison) := s.atomRead t scope p n
  if poison then (s.deliver t id o.insn (s.poisoned t regs)).1.endLoad id o
  else
    let old := BitVec.ofNat 64 (leNat bs)
    let r := atomResult fn (n == 8) old x e rm.toNat
    let s2 := match r.1 with
      | none => s
      | some v => s.atomWrite t scope p (leBytes n v.toNat)
    let ws := regs.zipIdx.map fun vi => (vi.1, (old.extractLsb' (32 * vi.2) 32 : BitVec 32), r.2.2, (0 : BitVec 7))
    let (s3, k) := s2.deliver t id o.insn ws
    (if k = 0 then s3 else s3.raise t r.2.1).endLoad id o

/-- Whether two places stand in one line. -/
def sameLine (p q : Place) : Bool :=
  match p, q with
  | .global a, .global b => a / 128 == b / 128
  | .scratch g a, .scratch h b => g == h && a / 128 == b / 128
  | _, _ => false

/-- The lanes of an atomic instruction that act on the line of `p`, in ascending order, R289. -/
def atomGroup (s : State) (o : Op) (p : Place) : List (Nat × Op) :=
  s.ops.filter fun x => oneAtomic x.2 o && (match x.2.kind with | .atomic _ _ q _ _ _ _ _ => sameLine q p | _ => false)

/-- The lanes of an atomic instruction on one line performed together: the line is made ready once, and the lanes take their steps in
ascending order, R272, R273, R289. -/
def performAtomics (s : State) (o : Op) (scope : Nat) (p : Place) : State :=
  let xs := s.atomGroup o p
  let s1 := match p with
    | .scratch _ _ => s
    | .global pa =>
      let as := (xs.flatMap fun x => x.2.kind.ranges.flatMap fun r =>
        match r.1 with | .global a => span a r.2.1 | .scratch _ _ => []).eraseDups
      s.atomReady (s.coreOf o.thread) (s.worldOf o.thread) scope (pa / 128) as
  xs.foldl (fun s x => match x.2.kind with
    | .atomic fn _ q n regs a e rm => s.atomStep x.1 x.2 fn scope q n regs a e rm
    | _ => s) s1

/-! ## Fences and flushes -/

/-- The effect of a fence at its completion, R256. -/
def fenceEffect (s : State) (core kind scope : Nat) : State :=
  match kind with
  | 0 => (s.push core scope).discard core scope
  | 1 => s.push core scope
  | 2 => s.discard core scope
  | _ => s.push core 1

/-- A flush at its scope, R287. -/
def flushEffect (s : State) (core fn scope pa : Nat) : State :=
  let x := pa / 128
  let units := below core scope
  let pushed := if fn = 1 then s else
    let s1 := units.foldl (fun s u => pushLine (fun _ => true) s u x) s
    if scope = 5 then s1.poolPush x else s1
  if fn = 0 then pushed else units.foldl (fun s u => discardLine (fun _ => true) s u x) pushed

/-- The alias entries that a world may still take, R201; world 0 has what no locked or running tenant world holds, R252. -/
def freeQuota (s : State) (w : Nat) : Nat :=
  let wd := (s.worlds.find? w).getD World.fresh
  if w = 0 then
    Config.aliasTotal - wd.used - ((s.worlds.filter fun kw => kw.1 != 0 &&
      (kw.2.tdisp == .locked || kw.2.tdisp == .run)).map fun kw => kw.2.quota).sum
  else wd.quota - wd.used

/-- The word of R284: an entry covers a line until the line has landed, so that no line has three (R233, R251, log entry 35). -/
def queryWord (s : State) (t pa : Nat) : BitVec 32 :=
  let x := pa / 128
  let es := s.alias_.values.filter fun e => e.shows x
  let m := s.lineMeta x
  BitVec.ofNat 32 (s.freeQuota (s.worldOf t) * 2 ^ 12 + (if es.any (·.state == 2) then 2 ^ 10 else 0) + es.length % 4 * 2 ^ 8
    + (es.foldl (fun h e => max h e.hot) 0) * 2 ^ 2 + (if m.shadow then 2 else 0) + (if m.alias_ then 1 else 0))

/-- The lanes of a load that read one place with it, R69 (log entry 22). -/
def loadGroup (s : State) (o : Op) : List (Nat × Op) := s.ops.filter fun x => oneLoad x.2 o

/-- Whether an operation's data may return now: it, and for a load every lane that returns with it, may be performed. -/
def mayReturn (s : State) (id : Nat) (o : Op) : Bool := s.mayPerform id o && (s.loadGroup o).all fun x => s.mayPerform x.1 x.2

/-- The kind of an operation in flight. -/
def opKind (s : State) (id : Nat) : Option OpKind := (s.ops.find? id).map (·.kind)

/-- The bytes of a line that an operation reads at a core or quad, R225, R254. -/
def bytesAt (s : State) (u x : Nat) (o : Op) : List Nat :=
  let core := s.coreOf o.thread
  match o.kind with
  | .load _ (.global pa) n _ => if core == u || quadUnit core == u then (span pa n).filter fun a => a / 128 == x else []
  | .atomic _ scope (.global pa) n _ _ _ _ =>
    if pa / 128 == x && ((scope == 0 && core == u) || (decide (scope ≤ 1) && quadUnit core == u)) then span pa n else []
  | _ => []

/-- The oldest operation that may be performed now and lacks bytes of a line at a core or quad, so that it brings about a fill there,
R254. -/
def fillOp (s : State) (u x : Nat) : Option Nat :=
  ((s.ops.filter fun ko => !s.holds u (s.bytesAt u x ko.2) && s.mayReturn ko.1 ko.2).head?).map (·.1)

/-- The oldest operation that lacks bytes of a line at a core or quad while a fence of its thread holds it back. Its line may be filled
before the fence completes: what lies below the fence's point is then discarded (R256), and towards the agents beyond it, which the
scope does not cover, the fence orders nothing (R253; log entry 50). -/
def fencedOp (s : State) (u x : Nat) : Option Op :=
  ((s.ops.filter fun ko => !s.holds u (s.bytesAt u x ko.2) && !s.rewriteHolds ko.1 ko.2 &&
    (s.earlier ko.1).any fun e => e.thread == ko.2.thread && heldByFence e.kind ko.2.kind).head?).map (·.2)

/-- A core or quad that holds bytes `as` of a line for a world. -/
def readyAt (s : State) (u w x : Nat) (as : List Nat) : State := if u < 768 then s.readyL1 u w x as else s.readyQuad u w x as

end State

/-- The record of a batch, R355; zeros where there is none. -/
def batchBytes (b : Option Batch) : List (BitVec 8) :=
  match b with
  | none => List.replicate 1568 0
  | some b =>
    let head := [BitVec.setWidth 8 b.num, BitVec.ofNat 8 b.callers.length, BitVec.ofNat 8 b.world, BitVec.ofNat 8 b.die]
      ++ leBytes 4 (laneMask (b.callers.map (·.1))).toNat ++ leBytes 8 b.task.toNat ++ leBytes 16 0
    let body := b.callers.flatMap fun c =>
      leBytes 4 c.1 ++ leBytes 4 c.2.1 ++ c.2.2.flatMap (fun a => leBytes 4 a.toNat) ++ leBytes 8 0
    (head ++ body ++ List.replicate 1568 0).take 1568

/-- `LOAD_DATA_RETURN`: a load, a context load, a ring load or the record of an `svcget` is performed and its data is
written, R69, R126, R159, R189, R399, R402. A load returns with the other lanes that read its place (log entry 22). -/
def execLoadDataReturn (op : Nat) (s : State) : Out :=
  .next (match s.ops.find? op with
    | none => s
    | some o =>
      if !s.mayReturn op o then s
      else match o.kind with
        | .load _ p n _ =>
          let (s1, bs, poison, tag) := s.memRead o.thread p n
          (s.loadGroup o).foldl (fun s x => match x.2.kind with
            | .load fn _ _ regs => (s.loadReturn x.1 x.2 fn regs bs poison tag).endLoad x.1 x.2
            | _ => s) s1
        | .ringLoad quad tile slot reg _ undef =>
          let g := gangOf o.thread
          let tl := s.tiles.get Tile.clear (tileKey g quad tile)
          let bits :=
            if undef then Config.freeWord (s.freeCtr * 65536 + laneOf o.thread * 32 + reg)
            else s.ring.get 0 (slotKey g quad tile slot)
          let fmt : BitVec 4 := if tl.poison then 15 else if tl.kind = 2 then 1 else if tl.kind = 1 then 2 else 0
          ((s.deliver o.thread op o.insn (if tl.poison then s.poisoned o.thread [reg] else [(reg, bits, fmt, 0)])).1).endLoad op o
        | .contextLoad ps =>
          let (s1, bs, poison) := s.readParts o.thread ps
          (s1.restoreContext o.thread op o.insn bs poison).endLoad op o
        | .batchGet ps batch skip =>
          (s.writeParts o.thread ps ((batchBytes (batch.bind s.batches.find?)).drop skip)).endLoad op o
        | _ => s)

/-- `STORE_PERFORMED`, R70, R159, R254, R402. A ring store writes the tile at the count it names, and none once that has been released
(log entry 46). -/
def execStorePerformed (op : Nat) (s : State) : Out :=
  .next (match s.ops.find? op with
    | none => s
    | some o =>
      if !s.mayPerform op o then s
      else match o.kind with
        | .store p data tag => ((s.memWrite o.thread p data tag).dropOp op).decSt o.thread
        | .ringStore quad tile slot count data =>
          let g := gangOf o.thread
          let s1 := if count < s.ringTail g quad then s else { s with ring := s.ring.set 0 (slotKey g quad tile slot) data }
          (s1.dropOp op).decSt o.thread
        | .contextStore ps =>
          ((ps.foldl (fun s p => s.memWrite o.thread p.1 p.2 false) s).dropOp op).decSt o.thread
        | .batchPut ps => ((s.writeParts o.thread ps (batchBytes none)).dropOp op).decSt o.thread
        | _ => s)

/-- `WRITE_BACK`, R223: the line's dirty bytes move one level down, unless a re-enciphering holds them (R219). -/
def execWriteBack (unit line : Nat) (s : State) : Out :=
  .next (if decide (Config.cores ≤ unit) && s.lineHeld line then s else State.pushLine (fun _ => true) s unit line)

/-- `CLEAN_DISCARD`, R254. -/
def execCleanDiscard (unit line : Nat) (s : State) : Out := .next (State.discardLine (fun _ => true) s unit line)

/-- `ATOMIC_PERFORM`, R272, R273, R289: with the other lanes of its instruction on the line, once each of them may be performed. -/
def execAtomicPerform (op : Nat) (s : State) : Out :=
  .next (match s.ops.find? op with
    | none => s
    | some o => match o.kind with
      | .atomic _ scope p _ _ _ _ _ =>
        if (s.atomGroup o p).all fun x => s.mayPerform x.1 x.2 then s.performAtomics o scope p else s
      | _ => s)

/-- `LINE_FILL`, R254: a fill is part of the performing of an access that lacks bytes of the line there, or comes before it where a fence
holds the access back. -/
def execLineFill (unit line : Nat) (s : State) : Out :=
  match s.fillOp unit line with
  | none => .next (match s.fencedOp unit line with
    | none => s
    | some o => s.readyAt unit (s.worldOf o.thread) line (s.bytesAt unit line o))
  | some id => match s.opKind id with
    | some (.atomic _ _ _ _ _ _ _ _) => execAtomicPerform id s
    | _ => execLoadDataReturn id s

/-- `FENCE_COMPLETE`, R256, R257. -/
def execFenceComplete (op : Nat) (s : State) : Out :=
  .next (match s.ops.find? op with
    | none => s
    | some o =>
      if !s.mayPerform op o then s
      else match o.kind with
        | .fence kind scope =>
          ((s.fenceEffect (s.coreOf o.thread) kind scope).dropOp op).settleBars (gangOf o.thread)
        | _ => s)

/-- `CFLUSH_COMPLETE`, R287. -/
def execCflushComplete (op : Nat) (s : State) : Out :=
  .next (match s.ops.find? op with
    | none => s
    | some o =>
      if !s.mayPerform op o then s
      else match o.kind with
        | .flush fn scope p =>
          let s1 := match p with
            | .global pa => s.flushEffect (s.coreOf o.thread) fn scope pa
            | .scratch _ _ => s
          (s1.dropOp op).decSt o.thread
        | _ => s)

/-- `TLB_WALK_COMPLETE`, R212, R220: the walk for an access of a task at a core installs its translation. An access outside
the lease ends the task only when it is made. -/
def execTlbWalkComplete (core task va : Nat) (s : State) : Out :=
  .next (match s.tasks.find? task with
    | none => s
    | some k =>
      match k.gangs.find? fun g => s.gangWorld g == k.world && s.leased g (va / 65536) false with
      | none => s
      | some g => (s.translate core g va false).1)

/-- `AQRY_RESULT`, R284. -/
def execAqryResult (op : Nat) (s : State) : Out :=
  .next (match s.ops.find? op with
    | none => s
    | some o => match o.kind with
      | .query pa reg =>
        ((s.deliver o.thread op o.insn [(reg, s.queryWord o.thread pa, 0, 0)]).1).endLoad op o
      | _ => s)

end Sys2Proof.Machine
end

