-- ==== Sys2Proof/Machine/Records.lean ====
section
/-! DEFINITION. Task records, handles and queues: the fields of a record as the device reads it (R299), the check of R300,
the coverage of a lease (R210), the entry of a task into a queue (R347 to R349, R414, R415) and the gangs of its grid. -/

namespace Sys2Proof.Machine

/-- A little-endian field of bytes. -/
def byteField (bs : List (BitVec 8)) (o n : Nat) : Nat := leNat ((bs.drop o).take n)

namespace TCap

/-- The fields of a capability. -/
def cap (c : TCap) : Cap := ⟨c.bits⟩

/-- A valid capability of a kind, R171, R299. -/
def ok (c : TCap) (kind : Nat) : Bool := c.tag && c.cap.sound && c.cap.kind == kind

end TCap

/-- A task record from its 640 bytes and the tags of its granules, R299; offset bits [15:5] of FLAGS and RESUME are dropped. -/
def TaskRec.dec (bs : List (BitVec 8)) (tag : Nat → Bool) : TaskRec :=
  let f := byteField bs
  let cap (o : Nat) : TCap := ⟨BitVec.ofNat 128 (f o 16), tag (o / 16)⟩
  { code := cap 0, param := cap 0x10, entry := f 0x20 4, handler := f 0x24 4, save := f 0x28 4, restore := f 0x2C 4,
    ngx := f 0x30 4, ngy := f 0x34 4, ngz := f 0x38 4, teams := f 0x3C 1, crews := f 0x3D 1, floor := f 0x3E 1,
    peak := f 0x3F 1, spad := f 0x40 4, ring := f 0x44 1, prio := f 0x45 1 % 8, flags := BitVec.ofNat 16 (f 0x46 2 % 16),
    gridH := f 0x48 2, gridW := f 0x4A 2, edges := BitVec.ofNat 8 (f 0x4C 1), rlimit := f 0x4D 1, queue := f 0x4E 2,
    done := cap 0x50, nreg := f 0x60 1,
    regs := (span 0 (min (f 0x60 1) 16)).map fun i => (cap (0x80 + 32 * i), f (0x90 + 32 * i) 1) }

namespace TaskRec

/-- RELAUNCH. -/
def relaunch (r : TaskRec) : Bool := r.flags.getLsbD 0
/-- SPAN. -/
def isSpan (r : TaskRec) : Bool := r.flags.getLsbD 1
/-- SPREAD. -/
def isSpread (r : TaskRec) : Bool := r.flags.getLsbD 2
/-- KERNEL. -/
def isKernel (r : TaskRec) : Bool := r.flags.getLsbD 3

/-- Gangs of the grid. -/
def gangCount (r : TaskRec) : Nat := r.ngx * r.ngy * r.ngz

/-- The coordinates of gang `n` in ascending GX, then GY, then GZ, R309. -/
def coords (r : TaskRec) (n : Nat) : Nat × Nat × Nat := (n / r.ngz / r.ngy, n / r.ngz % r.ngy, n % r.ngz)

/-- The number of a gang in that order. -/
def gangNo (r : TaskRec) (g : Gang) : Nat := (g.gx * r.ngy + g.gy) * r.ngz + g.gz

/-- Whether the code capability can become a PCC, R178. -/
def codeOk (r : TaskRec) : Bool := r.code.ok 2 && r.code.cap.x

/-- Whether the completion object is usable, R210, R306. -/
def doneOk (r : TaskRec) : Bool :=
  r.done.ok 0 && r.done.cap.r && r.done.cap.w && r.done.cap.cursor % 16 == 0 &&
  decide (r.done.cap.cursor + 16 ≤ r.done.cap.top)

/-- Whether the declared region slots are admissible, R210. -/
def regsOk (r : TaskRec) : Bool :=
  decide (r.nreg ≤ 16) && r.regs.all fun c => c.1.ok 0 && decide (1 ≤ c.2) && decide (c.2 ≤ 3)

/-- The 64 KiB blocks of `n` bytes at `a`. -/
def blocks (a n : Nat) : List Nat := if n = 0 then [] else span (a / 65536) ((a + n - 1) / 65536 + 1 - a / 65536)

/-- The blocks that a lease covers, with whether each admits writes, R210. -/
def cover (r : TaskRec) : List (Nat × Bool) :=
  let of (c : Cap) (w : Bool) : List (Nat × Bool) := (blocks c.base c.length).map fun b => (b, w)
  (r.regs.flatMap fun c => of c.1.cap (decide (2 ≤ c.2))) ++ of r.code.cap false
    ++ (if r.param.ok 0 then of r.param.cap false else [])
    ++ (if r.doneOk then (blocks r.done.cap.cursor 16).map fun b => (b, true) else [])

/-- The declared regions with whether each may be written, for dependences, R308. -/
def regions (r : TaskRec) : List (Nat × Nat × Bool) :=
  r.regs.map fun c => (c.1.cap.base, c.1.cap.length, decide (2 ≤ c.2))

/-- Whether two tasks' regions conflict, R308: some byte is in both, and one of them may write it. -/
def conflicts (a b : TaskRec) : Bool :=
  a.regions.any fun x => b.regions.any fun y =>
    (x.2.2 || y.2.2) && decide (max x.1 y.1 < min (x.1 + x.2.1) (y.1 + y.2.1))

end TaskRec

namespace State

/-- A byte of a world's global space outside any lease, for records and code: none where there is no translation that the
world may use, R348. -/
def worldByte (s : State) (w va : Nat) : Option (BitVec 8) :=
  match s.walk w va with
  | none => none
  | some x => if s.mayUse w x.pa then some (s.aliasRead x.pa) else none

/-- The tag of the granule of a world's address; a poisoned line has none. -/
def worldTag (s : State) (w va : Nat) : Bool :=
  match s.walk w va with
  | none => false
  | some x => s.readTag (x.pa / 16) && !s.aliasPoison (x.pa / 128)

/-- A record at a global address of a world, R299, R348; none where a page of it has no translation the world may use. -/
def readRecord (s : State) (w va : Nat) : Option TaskRec :=
  let bs := (span va 640).map (s.worldByte w)
  if bs.all (·.isSome) then some (TaskRec.dec (bs.map fun b => b.getD 0) fun i => s.worldTag w (va + 16 * i)) else none

/-- The reads of a record, and of the tables that translate it, raise HOT where they are redirected, R241. -/
def recordHot (s : State) (w va : Nat) : State :=
  if s.alias_.isEmpty then s
  else
    let s1 := (TaskRec.blocks va 640).foldl (fun s b => s.walkHot w (b * 65536)) s
    (((span va 640).filterMap fun a => (s.walk w a).map fun x => x.pa / 128).eraseDups).foldl State.raiseHot s1

/-- The read of a task's first instruction byte, for the check of R300, raises HOT where it is redirected, R241. -/
def entryHot (s : State) (w : Nat) (r : TaskRec) : State :=
  let pc := r.code.cap.base + r.entry
  if s.alias_.isEmpty || !r.code.ok 2 then s
  else match s.walk w pc with
    | some x => if s.mayUse w x.pa then (s.walkHot w pc).raiseHot (x.pa / 128) else s.walkHot w pc
    | none => s.walkHot w pc

/-- Whether a task's first instruction lies wholly within its code capability, R24, R300. -/
def entryInside (s : State) (w : Nat) (r : TaskRec) : Bool :=
  let c := r.code.cap
  let pc := c.base + r.entry
  let wide := ((s.worldByte w pc).getD 0).getLsbD 0
  decide (pc + (if wide then 4 else 2) ≤ c.top)

/-- Whether a record fails the check of R300; `w` is the world of its queue. -/
def recordBad (s : State) (w : Nat) (r : TaskRec) : Bool :=
  r.teams == 0 || decide (16 < r.teams) || r.crews == 0 || decide (32 < r.crews) ||
  decide (r.peak < r.floor) || decide (32 < r.peak) || decide (393216 < r.spad) || decide (16 < r.ring) ||
  r.gangCount == 0 || (decide (4 < r.teams) && !r.isSpan && !r.isSpread) ||
  (r.isSpan && (!s.boot.featAccept.getLsbD 2 || r.isSpread)) || (r.isKernel && w != 0) ||
  r.entry % 2 != 0 || (r.code.ok 2 && !s.entryInside w r)

/-- Tasks of a queue that have not completed. -/
def openTasks (s : State) (q : Nat) : Nat :=
  (s.tasks.values.filter fun k => k.queue == q && k.stage != .completed).length

/-- A task joins the tail of a queue, R347, R348, R414, from a record at `va`: its handle, and its failing check, if any, as a code
that stands. -/
def submit (s : State) (q va : Nat) (r : TaskRec) (cls : Nat) : State × BitVec 64 :=
  match s.queues.find? q with
  | none => (s, 0)
  | some qu =>
    let n := if qu.seq + 1 = 0 then 1 else qu.seq + 1
    let handle : BitVec 64 := BitVec.ofNat 32 q ++ n
    let bad := s.recordBad qu.world r
    let k : Task :=
      { record := r, at_ := va, world := qu.world, queue := q, handle := handle, cls := cls, stage := .queued, lease := [], pins := [],
        relaunches := 0, code := if bad then some .leaseDenied else none, doomed := none, fault := none, next := 0,
        gangs := [] }
    let s1 := { s.entryHot qu.world r with tasks := s.tasks.put s.nextId k, nextId := s.nextId + 1 }
    (s1.updQueue q fun x =>
      { x with seq := n, waiting := x.waiting ++ [s.nextId], headAt := if x.waiting.isEmpty then s.nextId else x.headAt },
     handle)

/-- A task of a world by its handle, R347: the newest where SEQ has wrapped. -/
def byHandle (s : State) (w : Nat) (h : BitVec 64) : Option (Nat × Task) :=
  (s.tasks.filter fun kt => kt.2.handle == h && kt.2.world == w).getLast?

/-- Makes the next gang of a task's grid, R309, with a given standing: the state and its number. -/
def takeGang (s : State) (task : Nat) (st : GStat) : State × Nat :=
  match s.tasks.find? task with
  | none => (s, 0)
  | some k =>
    let c := k.record.coords k.next
    let g : Gang :=
      { task := task, gx := c.1, gy := c.2.1, gz := c.2.2, stat := st, cores := [], rings := k.record.ring, preempt := none,
        adopts := [], deadTeams := 0, wake := none, planes := [], placed := 0, placedAt := 0 }
    let n := s.nextId
    let s1 := { s with gangs := s.gangs.put n g, nextId := n + 1 }
    (s1.updTask task fun k => { k with next := k.next + 1, gangs := k.gangs ++ [n] }, n)

/-- A task's gangs that are queued again from its record, R151. -/
def requeued (s : State) (k : Task) : List Nat :=
  k.gangs.filter fun g => (s.gangs.find? g).any fun x => decide (x.stat = GStat.pending)

/-- Whether a gang counts as retired, R305, R312; one that waits to be launched again counts so in a task that is to end with the
code of an operand fault, which does not place it, R151 (log entry 48). -/
def gangOver (s : State) (g : Nat) : Bool :=
  match s.gangs.find? g with
  | none => true
  | some x => match x.stat with
    | .retired => true
    | .adopted by_ => (s.gangs.find? by_).all fun y => decide (y.stat = GStat.retired)
    | .pending => (s.tasks.find? x.task).any (·.doomed.isSome)
    | _ => false

end State

end Sys2Proof.Machine
end

