-- ==== Sys2Proof/Machine/Ferry.lean ====
section
/-! DEFINITION. Copies: `cpy` and `tcpy` at issue, and the events by which a copy is recorded in the alias tables, moved by
the ferry, or landed (spec/14; R227 to R230, R275 to R283, R285, R292, R328). -/

namespace Sys2Proof.Machine

/-! ## At issue -/

/-- The checks that R275 and R277 make on one capability; TVAL is its cursor. -/
def copyCap (s : State) (t k : Nat) (kind : Nat → Bool) (perm : Cap → Bool) (n align : Nat) : Rd Unit :=
  let cur := (s.capGroup t k).cursor
  s.capChecks t k kind perm cur n align (State.addrNo cur)

/-- `cpy`, R275. -/
def execCpy (d f : BitVec 3) (v : BitVec 5) (o : BitVec 3) (x : Bool) (ct : Ctl) (st : State) : Out :=
  .next (st.issue ct 4 fun s t => State.laneS s do
    s.scopeCheck t o (insnWord (.cpy d f v o x ct))
    s.capPoison t d.toNat
    s.capPoison t f.toNat
    let n ← s.readSrc t v.toNat Acc.int
    copyCap s t f.toNat State.memKind (fun c => c.r && c.e) n.toNat 1
    copyCap s t d.toNat State.memKind (fun c => c.w && c.e) n.toNat 1
    State.roomIn (s.thread t).cp
    let j : Job :=
      { src := (s.capGroup t f.toNat).bits, dst := (s.capGroup t d.toNat).bits, size := n.toNat, scope := o.toNat, eager := x,
        record := none, object := 0, tile := [], cvs := 0, stage := .accepted }
    .ok ((s.addOp t (.copy j)).incCp t, .done Done.nothing))

/-- `tcpy`, R277. -/
def execTcpy (t b : BitVec 3) (v : BitVec 5) (o : BitVec 3) (x : Bool) (ct : Ctl) (st : State) : Out :=
  .next (st.issue ct 4 fun s th => State.laneS s do
    s.scopeCheck th o (insnWord (.tcpy t b v o x ct))
    s.capPoison th t.toNat
    s.capPoison th b.toNat
    let tile ← s.readGroup th Acc.int v.toNat 4
    copyCap s th t.toNat (· == 3) (·.r) 384 16
    copyCap s th b.toNat (· == 1) (fun c => c.r && c.w && c.e) 16 16
    State.roomIn (s.thread th).cp
    let j : Job :=
      { src := 0, dst := 0, size := 0, scope := o.toNat, eager := x, record := some (s.capGroup th t.toNat).bits,
        object := (s.capGroup th b.toNat).cursor, tile := tile.map (·.toNat), cvs := fctlScl (s.thread th).fctl,
        stage := .accepted }
    .ok ((s.addOp th (.copy j)).incCp th, .done Done.nothing))

/-! ## Transfers -/

/-- A tensor record as the ferry reads it, R278: each dimension's extent, source stride and destination stride. -/
structure Tensor where
  src : TCap
  dst : TCap
  ndim : Nat
  ebytes : Nat
  sfmt : Nat
  dfmt : Nat
  xform : Nat
  sat : Nat
  lazy : Nat
  dbuf : Nat
  mcast : BitVec 16
  tside : Nat
  dims : List (Nat × Int × Int)
  deriving DecidableEq, Repr

/-- The record from its 384 bytes and the tags of its first two granules. -/
def Tensor.dec (bs : List (BitVec 8)) (tag : Nat → Bool) : Tensor :=
  let f := byteField bs
  let cap (o : Nat) : TCap := ⟨BitVec.ofNat 128 (f o 16), tag (o / 16)⟩
  let stride (o : Nat) : Int := (BitVec.ofNat 64 (f o 8)).toInt
  { src := cap 0, dst := cap 16, ndim := f 32 1, ebytes := f 33 1, sfmt := f 34 1, dfmt := f 35 1, xform := f 36 1,
    sat := f 37 1, lazy := f 38 1, dbuf := f 39 1, mcast := BitVec.ofNat 16 (f 40 2), tside := f 42 1,
    dims := (span 0 (f 32 1)).map fun d => (f (64 + 20 * d) 4, stride (68 + 20 * d), stride (76 + 20 * d)) }

/-- The memory formats that a convert transform admits, R279. -/
def convertible (mf : Nat) : Bool := [1, 2, 3, 4, 6, 7, 8, 9, 10].contains mf

namespace Tensor

/-- The bytes of a destination element. -/
def dsize (x : Tensor) : Nat := if x.xform = 1 then Fmt.bits x.dfmt / 8 else x.ebytes

/-- Whether a record is malformed apart from poison, R278, R279; `multicast` says that the feature was accepted. -/
def bad (x : Tensor) (multicast : Bool) (teams : Nat) : Bool :=
  !((x.src.ok 0 || x.src.ok 1) && x.src.cap.r && x.src.cap.e) || !((x.dst.ok 0 || x.dst.ok 1) && x.dst.cap.w && x.dst.cap.e) ||
  x.ndim == 0 || decide (16 < x.ndim) || !([1, 2, 4, 8].contains x.ebytes) || decide (3 < x.xform) || decide (1 < x.sat) ||
  decide (1 < x.lazy) || decide (1 < x.dbuf) || decide (2 < x.tside) || (x.dbuf == 1 && x.dst.cap.kind != 1) ||
  (x.xform == 1 && (!convertible x.sfmt || !convertible x.dfmt || x.ebytes != Fmt.bits x.sfmt / 8)) ||
  (x.xform == 2 && decide (x.ndim < 2)) || (x.dbuf == 1 && x.mcast != 0) ||
  (x.mcast != 0 && (!multicast || x.dst.cap.kind != 1 || decide (2 ^ teams ≤ x.mcast.toNat)))

/-- The elements' indices, dimension 0 innermost, in ascending order. -/
def indices : List Nat → List (List Nat)
  | [] => [[]]
  | e :: es => (indices es).flatMap fun rest => (span 0 e).map fun i => i :: rest

/-- A sum of products of indices and strides. -/
def dot (is : List Nat) (strides : List Int) : Int := ((is.zip strides).map fun p => (p.1 : Int) * p.2).sum

/-- Whether strides are those of a contiguous array, R231. -/
def packed : Int → List (Nat × Int) → Bool
  | _, [] => true
  | size, (e, st) :: ds => st == size && packed (size * e) ds

/-- The transfer that a record asks for with tile coordinates, R281; the stride of a decompressed source counts for
nothing. -/
def xfer (x : Tensor) (tile : List Nat) (cvs : BitVec 7) (eager : Bool) : Xfer :=
  let ext := x.dims.map (·.1)
  let sst := x.dims.map (·.2.1)
  let dst := x.dims.map (·.2.2)
  let steps := (tile.zip ext).map fun p => p.1 * p.2
  let s0 : Int := x.src.cap.cursor + (if (x.tside = 0 ∨ x.tside = 2) ∧ x.xform ≠ 3 then dot steps sst else 0)
  let d0 : Int := x.dst.cap.cursor + (if x.tside = 1 ∨ x.tside = 2 then dot steps dst else 0)
  let turn (is : List Nat) : List Nat := match x.xform, is with
    | 2, a :: b :: rest => b :: a :: rest
    | _, is => is
  { src := x.src.cap, dst := x.dst.cap,
    pairs := (indices ext).map fun is => (s0 + dot is sst, d0 + dot (turn is) dst),
    ssize := x.ebytes, dsize := x.dsize, xform := x.xform,
    xp := BitVec.ofNat 4 x.sfmt ++ BitVec.ofNat 4 x.dfmt ++ BitVec.ofNat 1 x.sat ++ cvs,
    contig := packed x.ebytes (ext.zip sst) && packed x.dsize (ext.zip dst),
    lazy := !eager && x.lazy == 1, dbuf := x.dbuf == 1, mcast := x.mcast }

end Tensor

/-- The transfer of a `cpy`. -/
def Job.xfer (j : Job) : Xfer :=
  let s0 := (⟨j.src⟩ : Cap).cursor
  let d0 := (⟨j.dst⟩ : Cap).cursor
  { src := ⟨j.src⟩, dst := ⟨j.dst⟩, pairs := (span 0 j.size).map fun i => ((s0 + i : Int), (d0 + i : Int)), ssize := 1,
    dsize := 1, xform := 0, xp := 0, contig := true, lazy := !j.eager, dbuf := false, mcast := 0 }

/-! ## Reaching bytes -/

namespace State

/-- Whether a quad's walk-ahead TLB holds an entry, denied or not, of a block for a task and a kind of access, R214. -/
def aheadHit (s : State) (quad task block : Nat) (write : Bool) : Bool :=
  s.ahead.any fun e => e.quad == quad && e.task == task && e.block == block && e.write == write

/-- The frame of a block that a thread's leases admit and its world may use, R212, R197. -/
def leaseFrame (s : State) (t block : Nat) (write : Bool) : Option Nat :=
  (s.leaseBlock (gangOf t) block write).bind fun b => if s.mayUse (s.worldOf t) (b.frame * 65536) then some b.frame else none

/-- The place of a byte that the ferry reaches for a thread: none outside its leases as they stand, R212, R213. An entry that the
walk-ahead TLB holds as denied ends no task whose leases have come to cover it (R214, R312). -/
def ferryPlace (s : State) (t : Nat) (c : Cap) (a : Nat) (write : Bool) : Option Place :=
  if c.kind = 1 then some (.scratch (gangOf t) a)
  else (s.leaseFrame t (a / 65536) write).map fun f => .global (f * 65536 + a % 65536)

/-- The blocks that a transfer reads and writes in global memory, with the kind of access. -/
def xferBlocks (x : Xfer) : List (Nat × Bool) :=
  let of (c : Cap) (write : Bool) (as : List Int) (n : Nat) : List (Nat × Bool) :=
    if c.kind = 1 then []
    else (as.flatMap fun (a : Int) => [(a.toNat / 65536, write), ((a + n - 1).toNat / 65536, write)]).eraseDups
  of x.src false (x.pairs.map (·.1)) x.ssize ++ of x.dst true (x.pairs.map (·.2)) x.dsize

/-- The pages of a tensor record's transfer translated ahead of the tiles that use them: 256 entries for each quad, those outside the
lease kept as denied, R214. -/
def walkAhead (s : State) (t : Nat) (x : Xfer) : State :=
  let quad := s.quadOf t
  let task := s.taskOf t
  (xferBlocks x).foldl (fun s p =>
    if s.aheadHit quad task p.1 p.2 then s
    else
      let mine := s.ahead.filter fun e => e.quad == quad
      { s.walkHot (s.worldOf t) (p.1 * 65536) with
        ahead := ⟨quad, task, p.1, p.2, s.leaseFrame t p.1 p.2⟩ :: mine.take 255 ++ s.ahead.filter fun e => e.quad != quad }) s

/-- The walks of a plain copy's transfer raise HOT where they are redirected, R241. -/
def walkFor (s : State) (t : Nat) (x : Xfer) : State :=
  if s.alias_.isEmpty then s else (xferBlocks x).foldl (fun s p => s.walkHot (s.worldOf t) (p.1 * 65536)) s

/-- A byte with its poison, as the ferry reads it, R247. -/
def ferryByte (s : State) (p : Place) : BitVec 8 × Bool :=
  match p with
  | .global pa => (s.aliasRead pa, s.aliasPoison (pa / 128))
  | .scratch g la => (s.spadByte g la, s.spadPoison.get false (spadKey g la / 16))

end State

/-- All values, or none where one is missing. -/
def allSome {α : Type} : List (Option α) → Option (List α)
  | [] => some []
  | none :: _ => none
  | some x :: xs => (allSome xs).map (x :: ·)

/-- A byte to be written at a place. -/
structure Moved where
  at_ : Place
  byte : ReadByte
  deriving DecidableEq, Repr

namespace State

/-- The local address that a destination address has in a team's copy, R282. -/
def teamAddr (team : Option Nat) (a : Nat) : Nat :=
  match team with
  | none => a
  | some i => a % 2 ^ 20 + i * 2 ^ 20

/-- Whether the bytes of a destination element may be written, R281, R282. -/
def destOk (s : State) (t : Nat) (c : Cap) (team : Option Nat) (a : Int) (n : Nat) : Bool :=
  match team with
  | none => s.inBounds t c a n
  | some _ => decide ((c.base : Int) ≤ a) && decide (a + n ≤ c.top) && s.allocated (gangOf t) (teamAddr team a.toNat) n

/-- The destination places of an element. -/
def destPlaces (s : State) (t : Nat) (c : Cap) (team : Option Nat) (a n : Nat) : Option (List Place) :=
  allSome ((span (teamAddr team a) n).map fun x => s.ferryPlace t c x true)

/-- The tag of a granule of a space. -/
def granuleTag (s : State) (global : Bool) (g : Nat) : Bool :=
  if global then s.readTag g else s.spadTag.get false g

/-- The lines of global places. -/
def linesAt (ps : List Place) : List Nat :=
  (ps.filterMap fun p => match p with | .global pa => some (pa / 128) | .scratch _ _ => none).eraseDups

/-- The destinations of a transfer: the teams of a multicast, or one. -/
def destsOf (x : Xfer) : List Nat := if x.mcast = 0 then [0] else (span 0 16).filter fun i => x.mcast.getLsbD i

/-- The team of a destination, for a multicast. -/
def destTeam (x : Xfer) (i : Nat) : Option Nat := if x.mcast = 0 then none else some i

/-- Whether an element is read and written: none of its bytes lies outside its region, R281. -/
def elemOk (s : State) (t : Nat) (x : Xfer) (p : Int × Int) : Bool :=
  s.inBounds t x.src p.1 x.ssize && (destsOf x).any fun i => s.destOk t x.dst (destTeam x i) p.2 x.dsize

/-- The source places of an element: none where one lies outside the lease. -/
def srcPlaces (s : State) (t : Nat) (x : Xfer) (p : Int × Int) : Option (List Place) :=
  allSome ((span p.1.toNat x.ssize).map fun a => s.ferryPlace t x.src a false)

/-- An element of an identity, convert or transpose transfer as it is read, R281: no bytes for one that lies outside its regions. -/
def readElem (s : State) (t : Nat) (x : Xfer) (turn : Nat) (p : Int × Int) : Option (Option (List ReadByte)) :=
  if !s.elemOk t x p then some none
  else (s.srcPlaces t x p).map fun ss => some (
    let bs := ss.map s.ferryByte
    if x.xform = 1 then
      let v := Fmt.transform (x.xp.extractLsb' 12 4).toNat (x.xp.extractLsb' 8 4).toNat (x.xp.getLsbD 7)
        (x.xp.extractLsb' 0 7).toInt (leNat (bs.map (·.1)))
      (leBytes x.dsize v).map fun b => ⟨b, bs.any (·.2), none, false, turn⟩
    else (ss.zip bs).map fun d =>
      if x.xform = 0 then ⟨d.2.1, d.2.2, some d.1, s.granuleTag (isGlobal d.1) (placeKey d.1 / 16), turn⟩
      else ⟨d.2.1, d.2.2, none, false, turn⟩)

end State

/-! ## Block decompression, R227 to R230 -/

/-- Zero-run decoding of a payload: none where a token runs past its end. -/
def zeroRun : Nat → List (BitVec 8) → Option (List (BitVec 8))
  | _, [] => some []
  | 0, _ => none
  | n + 1, tok :: rest =>
    if 0x80 ≤ tok.toNat then (zeroRun n rest).map fun out => List.replicate (tok.toNat - 0x7F) 0 ++ out
    else if rest.length < tok.toNat + 1 then none
    else (zeroRun n (rest.drop (tok.toNat + 1))).map fun out => rest.take (tok.toNat + 1) ++ out

/-- Running sums of bytes, modulo 256. -/
def sums : BitVec 8 → List (BitVec 8) → List (BitVec 8)
  | _, [] => []
  | a, d :: ds => (a + d) :: sums (a + d) ds

/-- The byte-plane delta of 4,096 delta bytes. -/
def planes (ds : List (BitVec 8)) : List (BitVec 8) :=
  let plane (b : Nat) : List (BitVec 8) := sums 0 ((ds.drop (1024 * b)).take 1024)
  let p0 := plane 0
  let p1 := plane 1
  let p2 := plane 2
  let p3 := plane 3
  ((p0.zip p1).zip (p2.zip p3)).flatMap fun q => [q.1.1, q.1.2, q.2.1, q.2.2]

/-- The 4,096 bytes of a block from its method and payload; none where it is malformed, R228. -/
def decodeBlock (method : Nat) (payload : List (BitVec 8)) : Option (List (BitVec 8)) :=
  let whole (o : Option (List (BitVec 8))) : Option (List (BitVec 8)) := o.filter fun b => b.length == 4096
  match method with
  | 0 => if payload.length = 4096 then some payload else none
  | 1 => whole (zeroRun payload.length payload)
  | 2 => (whole (zeroRun payload.length payload)).map planes
  | _ => none

/-- The decoded stream: bytes with poison, whether a block was malformed, whether all was in the lease, how many bytes of the stream were
looked at, and how many decoded bytes stand whatever follows in the stream. -/
structure Decoded where
  bytes : List (BitVec 8 × Bool)
  err : Bool
  lease : Bool
  upto : Nat
  sure : Nat
  deriving DecidableEq, Repr

/-- Reads `n` bytes of a stream: none where they pass its end. -/
def readStream (rd : Nat → StreamByte) (o n : Nat) : Option (List (BitVec 8 × Bool)) :=
  allSome ((span o n).map fun i => match rd i with
    | .here b p => some (b, p)
    | .denied => some (0, false)
    | .past => none)

/-- Whether a read byte is outside the lease. -/
def deniedIn (rd : Nat → StreamByte) (o n : Nat) : Bool := (span o n).any fun i => rd i == .denied

/-- A malformed block's bytes. -/
def zeroBlock : List (BitVec 8 × Bool) := List.replicate 4096 (0, false)

/-- `n` blocks of a stream from offset `o`, R227 to R230. The 16-byte boundaries at which blocks begin are counted from the cursor (log
entry 35). What poison of a block's bytes poisons, that the payload of a block with a bad header is needed too, and that a block which runs
past the region's end is malformed even where it lies partly outside the lease, are the model's choice (log entry 67). -/
def decodeStream (rd : Nat → StreamByte) : Nat → Nat → Decoded
  | 0, o => ⟨[], false, true, o, 0⟩
  | n + 1, o =>
    let gone (upto : Nat) : Decoded := ⟨(List.replicate (n + 1) zeroBlock).flatten, true, true, upto, 0⟩
    match readStream rd o 8 with
    | none => gone (o + 8)
    | some h =>
      let w := leNat (h.map (·.1))
      let clen := w / 2 ^ 16 % 2 ^ 16
      match readStream rd (o + 8) clen with
      | none => gone (o + 8 + clen)
      | some body =>
        if deniedIn rd o (8 + clen) then ⟨[], false, false, o + 8 + clen, 0⟩
        else
          let r := decodeStream rd n ((o + 8 + clen + 15) / 16 * 16)
          let tidy := w / 2 ^ 32 == 0 && w / 16 % 2 ^ 12 == 0 && clen != 0 && decide (clen ≤ 4096)
          let bad := h.any (·.2) || body.any (·.2)
          let upto := if n = 0 then o + 8 + clen else r.upto
          match (if tidy then decodeBlock (w % 16) (body.map (·.1)) else none) with
          | none => ⟨zeroBlock ++ r.bytes, true, r.lease, upto, 4096 + r.sure⟩
          | some out => ⟨out.map (fun b => (b, bad)) ++ r.bytes, r.err, r.lease, upto, 4096 + r.sure⟩

namespace State

/-- The bytes of a compressed source that a transfer may need: within the region and the longest that its blocks can be. -/
def streamSpan (x : Xfer) : List Nat :=
  let blocks := (x.pairs.length * x.dsize + 4095) / 4096
  span x.src.cursor (min (x.src.top - x.src.cursor) (blocks * 4112))

/-- The bytes of a compressed source at `[o, o + n)` of its stream, as they are read now. -/
def streamBytes (s : State) (t : Nat) (x : Xfer) (o n : Nat) : List StreamByte :=
  (span (x.src.cursor + o) n).map fun (a : Nat) =>
    if !s.inBounds t x.src (a : Int) 1 then .past
    else match s.ferryPlace t x.src a false with
      | none => .denied
      | some p => let b := s.ferryByte p; .here b.1 b.2

/-- What the bytes of a stream read so far decode to; a byte not read yet counts as past its end. -/
def decoded (x : Xfer) (raw : List StreamByte) : Decoded :=
  decodeStream (fun i => raw.getD i .past) ((x.pairs.length * x.dsize + 4095) / 4096) 0

/-- The elements of a decompressing transfer from its decoded bytes, R281: one whose destination lies outside its region has none. -/
def streamElems (s : State) (t : Nat) (x : Xfer) (bytes : List (BitVec 8 × Bool)) (n : Nat) : List (Option (List ReadByte)) :=
  (x.pairs.take n).zipIdx.map fun pi =>
    if (destsOf x).any fun i => s.destOk t x.dst (destTeam x i) pi.1.2 x.dsize then
      some (((bytes.drop (pi.2 * x.dsize)).take x.dsize).map fun b => ⟨b.1, b.2, none, false, 0⟩)
    else none

/-! ## Writing what was read -/

/-- Whether a destination granule takes its source's tag, R179, R181: `m` holds the bytes of one space by key. The bytes of the granule
must have been read at one moment. -/
def carries (s : State) (w : Nat) (x : Xfer) (global : Bool) (m : FMap Moved) (g : Nat) : Bool :=
  let bs := ((span (g * 16) 16).filterMap m.find?).map (·.byte)
  match bs with
  | b :: _ =>
    match b.from_ with
    | some p =>
      let k := placeKey p
      let vs := bs.map (·.val)
      bs.length == 16 && x.src.lc && x.dst.sc && k % 16 == 0 &&
      (bs.zipIdx.all fun bi => bi.1.tag && bi.1.turn == b.turn &&
        bi.1.from_.any fun q => isGlobal q == isGlobal p && placeKey q == k + bi.2) &&
      (!global || capG vs) && !s.marksCap w vs
    | none => false
  | [] => false

/-- Writes bytes that have been read: values, poison and tags, R179, R247, R276, R388. -/
def writeMoved (s : State) (t : Nat) (x : Xfer) (bs : List Moved) : State :=
  let w := s.worldOf t
  let pick (gl : Bool) : FMap Moved :=
    bs.foldl (fun (m : FMap Moved) b => if isGlobal b.at_ == gl then m.put (placeKey b.at_) b else m) []
  let gm := pick true
  let lm := pick false
  let grans (m : FMap Moved) : List Nat := (m.map fun kv => kv.1 / 16).eraseDups
  let list (m : FMap Moved) : List (Nat × BitVec 8) := m.map fun kv => (kv.1, kv.2.byte.val)
  let badOf (m : FMap Moved) : List Nat := m.filterMap fun kv => if kv.2.byte.poison then some kv.1 else none
  let s1 := (runs (list gm)).foldl (fun s r => (s.homeWrite r.1 r.2 false).useFrame r.1) s
  let s2 := ((badOf gm).map (· / 128)).eraseDups.foldl State.markPoison s1
  let s3 := ((grans gm).filter (s.carries w x true gm)).foldl
    (fun s g => s.setMeta (g / 8) fun m => { m with tags := setBit m.tags (g % 8) true }) s2
  let s4 := (runs (list lm)).foldl (fun s r => s.spadWrite (r.1 / 2 ^ 24) (r.1 % 2 ^ 24) r.2 false) s3
  let s5 := { s4 with
    spadPoison := ((badOf lm).map (· / 16)).eraseDups.foldl (fun (m : FMap Bool) g => m.set false g true) s4.spadPoison
    spadTag := ((grans lm).filter (s.carries w x false lm)).foldl (fun (m : FMap Bool) g => m.set false g true) s4.spadTag }
  s5.settleObjects (gangOf t)

/-- Whether the bytes that a copy has written to a line, and writes now, are as one write for its poison, R388: none has come to the line
since the first of them. `prior` are those written before. -/
def sound (s : State) (begun : FMap Nat) (prior : List Moved) (x : Nat) : Bool :=
  !(prior.any fun b => isGlobal b.at_ && placeKey b.at_ / 128 == x) ||
  (begun.find? x == some (s.lineMeta x).since && !(s.lineMeta x).alias_)

/-- A line whose every byte a copy has written, in however many pieces, is poisoned where one of them is, R388. -/
def healLine (bs : List Moved) (s : State) (x : Nat) : State :=
  let here := bs.filter fun b => decide (isGlobal b.at_ = true ∧ placeKey b.at_ / 128 = x)
  if (span (x * 128) 128).all fun a => here.any fun b => placeKey b.at_ == a then
    s.setMeta x fun m => m.setPoison (here.any (·.byte.poison)) m.since
  else s

/-- The clean bytes of lines in a core's caches are discarded, R237, R259. -/
def dropClean (s : State) (core : Nat) (lines : List Nat) : State :=
  lines.foldl (fun s x => State.discardLine (fun _ => true) (State.discardLine (fun _ => true) s core x) (quadUnit core) x) s

/-! ## Recording, R231 to R240 -/

/-- The entry whose destination holds a byte that it still supplies. -/
def supplierKey (s : State) (pa : Nat) : Option Nat := (s.alias_.filter fun kv => kv.2.supplies pa).head?.map (·.1)

end State

/-- A segment of a recorded copy: physical ranges and the entry under its source, R232. -/
structure Seg where
  dst : Nat
  src : Nat
  len : Nat
  under : Option Nat
  deriving DecidableEq, Repr

namespace State

/-- The segments of a copy whose bytes go from the second to the first of each pair, R232. -/
def segments (s : State) (bs : List (Nat × Nat)) : List Seg :=
  (bs.foldl (fun (acc : List Seg) p =>
    let key := s.supplierKey p.2
    match acc with
    | g :: rest =>
      if p.1 = g.dst + g.len ∧ p.2 = g.src + g.len ∧ p.1 % 4096 ≠ 0 ∧ p.2 % 4096 ≠ 0 ∧ key = g.under
      then { g with len := g.len + 1 } :: rest
      else ⟨p.1, p.2, 1, key⟩ :: acc
    | [] => [⟨p.1, p.2, 1, key⟩]) []).reverse

/-- The LANDED bits of a new entry: set for the sectors with no byte of the range, R234. -/
def landedOf (off len : Nat) : BitVec 64 :=
  (span 0 64).foldl (fun m i => setBit m i !(decide (off < (i + 1) * 64) && decide (i * 64 < off + len))) 0

/-- The entry of a segment, by collapse or link, R240, R248; none where it would not cover whole elements. An entry in LANDING counts as a
LIVE one here, in the cuts of segments, the entries of a line and R239's landings (log entry 62). -/
def entryOf (s : State) (w : Nat) (xp : Option (BitVec 16)) (tc : Bool) (g : Seg) : Option AliasEntry :=
  let size (x : BitVec 16) : Nat := Fmt.bits (x.extractLsb' 12 4).toNat / 8
  let base : AliasEntry :=
    { landed := landedOf (g.dst % 4096) g.len, state := 1, world := w, hot := 0, convert := xp.isSome, xp := xp.getD 0,
      link := none, doff := g.dst % 4096, len := g.len, dblk := g.dst / 4096, src := g.src, depth := 1,
      tc := tc && xp.isNone && g.dst % 16 == g.src % 16 }
  let fits : Bool := match xp with
    | none => true
    | some x => g.dst % size x == 0 && g.len % size x == 0
  match g.under.bind fun k => (s.alias_.find? k).map fun e => (k, e) with
  | none => if fits then some base else none
  | some (k, e) =>
    if e.convert && xp.isSome then
      if fits then some { base with link := some k, depth := e.depth + 1, tc := false } else none
    else
      let o := g.src - e.start
      let whole := !e.convert || (o % size e.xp == 0 && g.len % size e.xp == 0)
      if fits && whole then
        some { base with
          convert := e.convert || xp.isSome, xp := if e.convert then e.xp else xp.getD 0, link := e.link, src := e.src + o,
          depth := e.depth, tc := base.tc && e.tc }
      else none

/-- The first entry of the home slice's table of a destination block, R232. -/
def sliceBase (s : State) (dblk : Nat) : Nat :=
  let die := dblk / 16 % 8
  die * 65536 + dblk % s.liveSlices die * 1024

/-- The entries that can be had for some segments, with the rest of R231's conditions met: none where the copy is eager,
R233, R240. -/
def entriesFor (s : State) (w : Nat) (xp : Option (BitVec 16)) (tc : Bool) (gs : List Seg) : Option (List AliasEntry) :=
  match allSome (gs.map (s.entryOf w xp tc)) with
  | none => none
  | some es =>
    let hits (a n : Nat) : Bool := gs.any fun g => decide (a < g.dst + g.len) && decide (g.dst < a + n)
    let bases := es.map fun e => s.sliceBase e.dblk
    let room := bases.eraseDups.all fun b =>
      decide ((bases.filter (· == b)).length + (s.alias_.slice b (b + 1024)).length ≤ Config.sliceEntries)
    let lines := (es.flatMap fun e => span (e.start / 128) ((e.start + e.len - 1) / 128 + 1 - e.start / 128)).eraseDups
    let two := lines.all fun x =>
      decide ((es.filter (·.covers x)).length + (s.alias_.values.filter (·.shows x)).length ≤ 2)
    if decide (es.length ≤ s.freeQuota w) && room && two && es.all (fun e => decide (e.depth ≤ 4) && !hits e.src e.len)
        && gs.all (fun g => !hits g.src g.len)
    then some es else none

/-- The lowest FREE index of a slice. -/
def freeIndex (s : State) (b : Nat) : Nat := ((span b 1024).find? fun k => (s.alias_.find? k).isNone).getD b

/-- Entries reserved for a copy that is to be recorded, from its world's quota and in their slices: FREE as yet, but no other copy's,
R201, R233. -/
def reserveEntries (s : State) (w : Nat) (es : List AliasEntry) : State × List Nat :=
  es.foldl (fun (a : State × List Nat) e =>
    let k := a.1.freeIndex (a.1.sliceBase e.dblk)
    ({ a.1 with alias_ := a.1.alias_.put k { e with state := 0 } }.updWorld w fun x => { x with used := x.used + 1 }, a.2 ++ [k]))
    (s, [])

/-- Reserved entries given back. -/
def unreserve (s : State) (ks : List Nat) : State :=
  ks.foldl (fun s k => match s.alias_.find? k with
    | some e => if e.state = 0 then { s with alias_ := s.alias_.erase k }.refund [e] else s
    | none => s) s

/-- Writes entries and sets ALIAS and SHADOW, R235, R238. -/
def record (s : State) (w : Nat) (es : List AliasEntry) : State :=
  es.foldl (fun s e =>
    let s1 := { s with alias_ := s.alias_.put (s.freeIndex (s.sliceBase e.dblk)) e }
    let s2 := s1.updWorld w fun x => { x with used := x.used + 1 }
    let of (a n : Nat) : List Nat := span (a / 128) ((a + n - 1) / 128 + 1 - a / 128)
    let s3 := (of e.start e.len).foldl (fun s x => s.setMeta x fun m => { m with alias_ := true }) s2
    (of e.src e.len).foldl (fun s x => s.setMeta x fun m => { m with shadow := true }) s3) s

/-- Both landings of R239 for destination bytes, R292 step 2. -/
def landFor (s : State) (ds : List Nat) : State :=
  let taken := (s.alias_.values.flatMap fun e => (span e.start e.len).filterMap fun pa =>
    if e.supplies pa && (e.srcsOf pa).any ds.contains then some (pa / 128) else none).eraseDups
  let s1 := taken.foldl State.landLine s
  (((ds.map (· / 128)).eraseDups).filter fun x => s1.alias_.values.any (·.shows x)).foldl State.landLine s1

end State

/-! ## How a copy proceeds -/

/-- What the device does with an accepted copy. -/
inductive Choice where
  /-- It cannot act yet. -/
  | wait
  /-- A byte that it needs lies outside the lease, R213. -/
  | denied
  /-- The record, once read, is malformed, R280. -/
  | malformed (s : State)
  /-- Its bytes are moved; `s` is the state after the push and the landings of R292. -/
  | move (x : Xfer) (s : State)
  /-- It is recorded over contiguous ranges, with these entries. -/
  | record (sva dva size : Nat) (xp : Option (BitVec 16)) (tc : Bool) (es : List AliasEntry) (s : State)

namespace State

/-- Whether some dirty byte of a line stands on a core's path. -/
def dirtyAbove (s : State) (core x : Nat) : Bool :=
  !(State.dirtyOf (fun _ => true) s core x).isEmpty || !(State.dirtyOf (fun _ => true) s (quadUnit core) x).isEmpty

/-- Whether a copy waits: for an earlier operation of the thread that still has to touch one of some places, R71 (a write to a byte read or
written, or a read of a byte written), or for a page that it writes, or pushes dirty bytes to, and that is being re-enciphered, or the
writes to that page that were held before its own (R213, R219). -/
def clash (s : State) (id : Nat) (o : Op) (reads writes : List Place) : Bool :=
  (!s.reenc.isEmpty && ((linesAt writes).any s.lineHeld ||
    (linesAt reads).any fun x => s.dirtyAbove (s.coreOf o.thread) x && s.lineHeld x)) ||
  (!writes.isEmpty && s.rewaitHolds id) ||
  (s.earlier id).any fun x => x.thread == o.thread &&
    x.kind.ranges.any fun r =>
      (r.2.2 && reads.any fun q => overlaps r.1 r.2.1 q 1) || writes.any fun q => overlaps r.1 r.2.1 q 1

/-- The transfer of a job: none where a byte of its record lies outside the lease, and an error where the record is malformed; the record
is read at one moment (log entry 35), with the issuing core's dirty bytes pushed, R277, and a redirected read of it raises HOT, R241. -/
def jobXfer (s : State) (t : Nat) (j : Job) : State × Option (Except Unit Xfer) × List Place :=
  match j.record with
  | none => (s, some (.ok j.xfer), [])
  | some r =>
    let c : Cap := ⟨r⟩
    match allSome ((span c.cursor 384).map fun a => s.ferryPlace t c a false) with
    | none => (s, none, [])
    | some ps =>
      let s1 := (linesAt ps).foldl (fun s x => s.pushLineHome (s.coreOf t) x) s
      let s2 := (linesAt ps).foldl (fun s x => (s.raiseHot x).useFrame (x * 128)) s1
      let bs := ps.map s1.ferryByte
      let w := s1.worldOf t
      let tag (i : Nat) : Bool := match ps[16 * i]? with
        | some (.global pa) =>
          s1.readTag (pa / 16) && !s1.marksCap w ((bs.map (·.1)).drop (16 * i) |>.take 16)
        | _ => false
      let x := Tensor.dec (bs.map (·.1)) tag
      let teams := ((s1.recordOf t).map (·.teams)).getD 0
      if bs.any (·.2) || x.bad (s1.boot.featAccept.getLsbD 3) teams then (s2, some (.error ()), ps)
      else (s2, some (.ok (x.xfer j.tile j.cvs j.eager)), ps)

/-- Whether a place lies in a frame that firmware shared, R199, R231. -/
def inShared (s : State) (p : Place) : Bool :=
  match p with
  | .global pa => (s.shared.find? (pa / 65536)).isSome
  | .scratch _ _ => false

/-- Global addresses of places. -/
def pasOf (ps : List Place) : List Nat := ps.filterMap fun p => match p with | .global pa => some pa | .scratch _ _ => none

/-- The source and destination places of every element that lies inside both regions; none outside the lease. Those of a compressed
source, and of a transfer into a buffer whose slot is not known, are the places that it may reach; the places of a buffer's slot and of a
multicast are not among the destinations. -/
def xferPlaces (s : State) (t : Nat) (x : Xfer) : Option (List Place × List Place) :=
  let ok := x.pairs.filter fun p => x.xform == 3 || s.elemOk t x p
  let ss :=
    if x.xform = 3 then some ((streamSpan x).filterMap fun a => s.ferryPlace t x.src a false)
    else if x.dbuf then some ((x.pairs.filter fun p => s.inBounds t x.src p.1 x.ssize).flatMap fun p =>
      (span p.1.toNat x.ssize).filterMap fun a => s.ferryPlace t x.src a false)
    else allSome (ok.flatMap fun p => (span p.1.toNat x.ssize).map fun a => s.ferryPlace t x.src a false)
  let ds := if x.dbuf ∨ x.mcast ≠ 0 then some []
    else allSome ((ok.filter fun p => s.inBounds t x.dst p.2 x.dsize).flatMap fun p =>
      (span p.2.toNat x.dsize).map fun a => s.ferryPlace t x.dst a true)
  match ss, ds with
  | some a, some b => some (a, b)
  | _, _ => none

/-- The decision on a copy whose transfer is known, R231, R292. -/
def decide_ (s : State) (id : Nat) (o : Op) (x : Xfer) : Choice :=
  let t := o.thread
  let w := s.worldOf t
  if x.pairs.isEmpty || x.dst.kind = 1 then
    (match s.xferPlaces t x with
     | none => .denied
     | some (ss, ds) =>
       if s.clash id o ss ds then .wait
       else .move x ((linesAt ss).foldl (fun s l => s.pushLineHome (s.coreOf t) l) s))
  else match s.xferPlaces t x with
  | none => .denied
  | some (ss, ds) =>
    if s.clash id o ss ds then .wait
    else
      let core := s.coreOf t
      let s1 := ((linesAt (ss ++ ds)).foldl (fun s l => s.pushLineHome core l) s).dropClean core (linesAt ds)
      let s2 := s1.landFor (pasOf ds)
      let inside := x.pairs.all fun p => s.inBounds t x.src p.1 x.ssize && s.inBounds t x.dst p.2 x.dsize
      let p0 := x.pairs.headD (0, 0)
      let lazy := x.src.kind == 0 && x.lazy && (x.xform == 0 || (x.xform == 1 && x.ssize == x.dsize)) && x.contig && inside
        && (x.xform == 0 || (p0.1 % x.ssize == 0 && p0.2 % x.ssize == 0)) && !(ss ++ ds).any s.inShared
      let xp := if x.xform = 1 then some x.xp else none
      let tc := x.src.lc && x.dst.sc
      match (if lazy then s2.entriesFor w xp tc (s2.segments ((pasOf ds).zip (pasOf ss))) else none) with
      | some es => .record p0.1.toNat p0.2.toNat (x.pairs.length * x.ssize) xp tc es s2
      | none => .move x s2

/-- The choice for an accepted copy. -/
def choose (s : State) (id : Nat) (o : Op) (j : Job) : Choice :=
  if !s.mayPerform id o then .wait
  else match s.jobXfer o.thread j with
    | (_, none, _) => .denied
    | (s1, some r, ps) =>
      if s.clash id o ps [] then .wait
      else match r with
        | .error _ => .malformed s1
        | .ok x => (if j.record.isSome then s1.walkAhead o.thread x else s1.walkFor o.thread x).decide_ id o x

/-- A copy is over: COPIES falls. -/
def endCopy (s : State) (id : Nat) (o : Op) : State := (s.dropOp id).decCp o.thread

/-- Rewrites the stage of a copy. -/
def setStage (s : State) (id : Nat) (o : Op) (j : Job) (g : JobStage) : State :=
  { s with ops := s.ops.put id { o with kind := .copy { j with stage := g } } }

/-- The address pairs of a contiguous copy, destination first, R237: none where a byte is no longer in the lease. -/
def rangePairs (s : State) (t sva dva n : Nat) : Option (List (Nat × Nat)) :=
  let at_ (va : Nat) (w : Bool) : Option Nat := (s.translate (s.coreOf t) (gangOf t) va w).2
  match allSome ((span sva n).map fun a => at_ a false), allSome ((span dva n).map fun a => at_ a true) with
  | some ss, some ds => some (ds.zip ss)
  | _, _ => none

/-- The pairs cut at the 4 KiB blocks of the destination. -/
def blockCuts (ps : List (Nat × Nat)) : List (List (Nat × Nat)) :=
  (ps.foldl (fun (acc : List (List (Nat × Nat))) p => match acc with
    | (q :: qs) :: rest => if q.1 / 4096 = p.1 / 4096 then (p :: q :: qs) :: rest else [p] :: acc
    | _ => [p] :: acc) []).reverse.map List.reverse

/-- The pairs of a block as segments that R232's 4 KiB boundaries alone cut: no more of them than entries were reserved for the block. -/
def pageSegs (bs : List (Nat × Nat)) : List Seg :=
  (bs.foldl (fun (acc : List Seg) p =>
    match acc with
    | g :: rest =>
      if p.1 = g.dst + g.len ∧ p.2 = g.src + g.len ∧ p.1 % 4096 ≠ 0 ∧ p.2 % 4096 ≠ 0 then { g with len := g.len + 1 } :: rest
      else ⟨p.1, p.2, 1, none⟩ :: acc
    | [] => [⟨p.1, p.2, 1, none⟩]) []).reverse

/-- The entry of a segment that takes no more than one: by R240 where its whole source is of one entry, or of none; and otherwise over its
own source as it stands, whose redirects a read follows (log entry 16). -/
def looseEntry (s : State) (w : Nat) (xp : Option (BitVec 16)) (tc : Bool) (g : Seg) : AliasEntry :=
  let keys := ((span g.src g.len).map s.supplierKey).eraseDups
  let depth := (keys.map fun k => ((k.bind s.alias_.find?).map (·.depth)).getD 0).foldl max 0
  let own : AliasEntry :=
    { landed := landedOf (g.dst % 4096) g.len, state := 1, world := w, hot := 0, convert := xp.isSome, xp := xp.getD 0,
      link := none, doff := g.dst % 4096, len := g.len, dblk := g.dst / 4096, src := g.src, depth := min 4 (depth + 1),
      tc := tc && xp.isNone && g.dst % 16 == g.src % 16 }
  match keys with
  | [k] => ((s.entryOf w xp tc { g with under := k }).filter fun e => decide (e.depth ≤ 4)).getD own
  | _ => own

/-- One destination block is recorded at its home slice, R237, R239, with the entries reserved for it. Where a source line has become
another entry's, or landed, since the decision, so that they do not suffice and no more can be had, they are recorded as they are: the copy
records all of its entries, and lands only what R239 names (R233, R292, log entry 16). -/
def recordBlock (s : State) (t : Nat) (xp : Option (BitVec 16)) (tc : Bool) (ps : List (Nat × Nat)) : State :=
  let w := s.worldOf t
  let s1 := s.landFor (ps.map (·.1))
  s1.record w ((s1.entriesFor w xp tc (s1.segments ps)).getD ((pageSegs ps).map (s1.looseEntry w xp tc)))

/-- Block `next` of a recorded copy, and the copy's end after its last block, R237, R259, R282. The blocks come in ascending order (log
entry 58). -/
def recordNext (s : State) (id : Nat) (o : Op) (j : Job) (sva dva n : Nat) (xp : Option (BitVec 16)) (tc : Bool) (next : Nat)
    (held : List Nat) : State :=
  let t := o.thread
  match s.rangePairs t sva dva n with
  | none => ((s.unreserve held).endCopy id o).endTask (s.taskOf t) .lease none
  | some ps =>
    let cuts := blockCuts ps
    let cut := cuts.getD next []
    let block := (cut.headD (0, 0)).1 / 4096
    let mine := held.filter fun k => (s.alias_.find? k).any fun e => e.dblk == block
    if s.clash id o [] (cut.map fun p => .global p.1) then s
    else
      let s1 := (s.unreserve mine).recordBlock t xp tc cut
      let s2 := if j.record.isSome then s1.ferryArrive (gangOf t) j.object cut.length else s1
      if next + 1 < cuts.length then
        s2.setStage id o j (.recording sva dva n xp tc (next + 1) (held.filter fun k => !mine.contains k))
      else ((s2.unreserve held).dropClean (s2.coreOf t) ((ps.map fun p => p.1 / 128).eraseDups)).endCopy id o

/-! ## Eager transfers, R226, R247, R259, R282 -/

/-- The object against which a destination's bytes are counted, R282. -/
def objectOf (j : Job) (x : Xfer) (i : Nat) : Nat := if x.mcast = 0 then j.object else j.object % 2 ^ 20 + i * 2 ^ 20

/-- How many of some elements are taken together: `n`, or all where `n` is 0, and on to the end of a 16-byte granule that the last one
shares with the next, so that no aligned access and no capability is seen in part (R71, R237). -/
def chunk (n : Nat) (first : Int × Int → Int) (size : Nat) (ps : List (Int × Int)) : Nat :=
  if n = 0 then ps.length
  else
    let same (q : (Int × Int) × (Int × Int)) : Bool := (first q.1 + size - 1) / 16 == first q.2 / 16
    min ps.length (n + (((ps.drop (n - 1)).zip (ps.drop n)).takeWhile same).length)

/-- An error after issue: TXERR of the object at `la`, or ERR of the buffer whose slot is being filled, R281, R328. -/
def moveError (s : State) (t la : Nat) (j : Job) (m : Moving) : State :=
  let g := gangOf t
  match m.slot with
  | none => s.setTxerr g la
  | some _ =>
    if s.allocated g j.object 32 && !s.granulesPoisoned g j.object 32 then s.setHdr g j.object (s.hdrAt g j.object).withErr else s

/-- Bytes of a compressed stream read at one moment, as far as the blocks begun so far need them, R226 to R230: `count` granules, or all
where it is 0. -/
def readMoreStream (s : State) (id : Nat) (o : Op) (j : Job) (m : Moving) (count : Nat) : State :=
  let t := o.thread
  let start := m.x.src.cursor
  let have_ := m.raw.length
  let need := (decoded m.x m.raw).upto
  let stop := if count = 0 then need else min need (((start + have_) / 16 + count) * 16 - start)
  let s1 := (linesAt ((span (start + have_) (stop - have_)).filterMap fun a => s.ferryPlace t m.x.src a false)).foldl
    (fun s x => (s.raiseHot x).useFrame (x * 128)) s
  let raw := m.raw ++ s.streamBytes t m.x have_ (stop - have_)
  let d := decoded m.x raw
  if !d.lease then (s.endCopy id o).endTask (s.taskOf t) .lease none
  else
    let all := decide (d.upto ≤ raw.length)
    let s2 := if all && d.err then s1.moveError t j.object j m else s1
    let n := if all then m.x.pairs.length else min m.x.pairs.length (d.sure / m.x.dsize)
    s2.setStage id o j (.moving { m with raw := raw, got := s.streamElems t m.x d.bytes n, turns := m.turns + 1 })

/-- Elements of an eager transfer read at one moment, R247: redirected reads raise HOT (R241). They are taken in ascending order (log
entry 58). -/
def readMore (s : State) (id : Nat) (o : Op) (j : Job) (m : Moving) (count : Nat) : State :=
  let t := o.thread
  let rest := m.x.pairs.drop m.got.length
  let hot (ps : List Place) : State := (linesAt ps).foldl (fun s x => (s.raiseHot x).useFrame (x * 128)) s
  if rest.isEmpty then s
  else if m.x.xform = 3 then s.readMoreStream id o j m count
  else
    let ps := rest.take (chunk count (·.1) m.x.ssize rest)
    match allSome (ps.map (s.readElem t m.x m.turns)) with
    | none => (s.endCopy id o).endTask (s.taskOf t) .lease none
    | some es =>
      (hot ((ps.filter (s.elemOk t m.x)).flatMap fun p => (s.srcPlaces t m.x p).getD [])).setStage id o j
        (.moving { m with got := m.got ++ es, turns := m.turns + 1 })

/-- The keys of the global, or of the local, places of a list: the lowest, and one past the highest. -/
def hull (gl : Bool) (ps : List Place) : Option (Nat × Nat) :=
  match (ps.filter fun p => isGlobal p == gl).map placeKey with
  | [] => none
  | k :: ks => some (ks.foldl min k, ks.foldl max k + 1)

/-- Whether the source and destination places of a transfer may share a byte. -/
def mayOverlap (s : State) (t : Nat) (x : Xfer) : Bool :=
  match s.xferPlaces t x with
  | none => true
  | some (ss, ds) =>
    x.dbuf || x.mcast != 0 || [true, false].any fun gl => match hull gl ss, hull gl ds with
      | some a, some b => decide (a.1 < b.2) && decide (b.1 < a.2)
      | _, _ => false

/-- Whether every byte of an eager transfer is written at every destination, and counted. -/
def moveDone (m : Moving) : Bool :=
  (destsOf m.x).all (fun i => m.wrote.get 0 i == m.x.pairs.length) && m.due.isEmpty

/-- The teams to whose scratchpads the elements of a transfer from number `w` on go, R207. -/
def teamsOf (x : Xfer) (w : Nat) : List Nat :=
  if x.dst.kind ≠ 1 then []
  else (((x.pairs.drop w).filter fun p => decide ((x.dst.base : Int) ≤ p.2) && decide (p.2 + x.dsize ≤ (x.dst.top : Int))).flatMap fun p =>
    [p.2.toNat / 2 ^ 20 % 16, (p.2.toNat + x.dsize - 1) / 2 ^ 20 % 16]).eraseDups

/-- The teams to which a transfer has still to deliver, or whose objects it has still to count against, R315. -/
def teamsLeft (j : Job) (m : Moving) : List Nat :=
  if m.x.mcast = 0 then teamsOf m.x (m.wrote.get 0 0) ++ (if j.record.isSome && !moveDone m then [j.object / 2 ^ 20 % 16] else [])
  else (destsOf m.x).filter fun i => m.wrote.get 0 i != m.x.pairs.length || m.due.get 0 i != 0

/-- The global lines that a transfer writes. -/
def destLines (s : State) (t : Nat) (x : Xfer) : List Nat := ((s.xferPlaces t x).map fun p => linesAt p.2).getD []

/-- The forwarding entries at teams, but for those that are left to it, to which a copy has delivered all that it delivers there count it
no longer, R315. -/
def leaveTeams (s : State) (id : Nat) (left : List Nat) : State :=
  let fwds := s.fwds.map fun f => if left.contains f.team then f else { f with ops := f.ops.filter (· != id) }
  { s with fwds := fwds.filter fun f => !f.ops.isEmpty }

/-- What follows once an eager transfer stands as `m` says: its slot is to be put; or the copy is over, and the clean bytes of its
destination lines are discarded (R259); or it goes on. -/
def settleMove (s : State) (id : Nat) (o : Op) (j : Job) (m : Moving) : State :=
  if moveDone m then
    match m.slot with
    | some slot => s.setStage id o j (.filling slot)
    | none => (s.dropClean (s.coreOf o.thread) (s.destLines o.thread m.x)).endCopy id o
  else (s.leaveTeams id (teamsLeft j m)).setStage id o j (.moving m)

/-- The elements `[w, w + k)` of a transfer as bytes for a destination, and whether one lies outside its bounds: none outside the
lease. -/
def movedOf (s : State) (t : Nat) (m : Moving) (i w k : Nat) : Option (List Moved × Bool) :=
  let es := ((m.x.pairs.zip m.got).drop w).take k
  let ok (e : (Int × Int) × Option (List ReadByte)) : Bool := e.2.isSome && s.destOk t m.x.dst (destTeam m.x i) e.1.2 m.x.dsize
  let bs := (es.filter ok).map fun e =>
    (s.destPlaces t m.x.dst (destTeam m.x i) e.1.2.toNat m.x.dsize).map fun ds => (ds.zip (e.2.getD [])).map fun d => (⟨d.1, d.2⟩ : Moved)
  (allSome bs).map fun bs => (bs.flatten, !es.all ok)

/-- Elements of an eager transfer written at one destination, each after it has been read, and where source and destination may share a
byte after all have been read, R247. They are taken in ascending order (log entry 58). -/
def writeMore (s : State) (id : Nat) (o : Op) (j : Job) (m : Moving) (i count : Nat) : State :=
  let t := o.thread
  let w := m.wrote.get 0 i
  let all := m.got.length == m.x.pairs.length
  if !(destsOf m.x).contains i || decide (m.got.length ≤ w) || (!all && s.mayOverlap t m.x) then s
  else
    let rest := (m.x.pairs.take m.got.length).drop w
    let k := chunk count (·.2) m.x.dsize rest
    match s.movedOf t m i w k with
    | none => (s.endCopy id o).endTask (s.taskOf t) .lease none
    | some (bs, err) =>
      let places := bs.map (·.at_)
      if s.clash id o [] places then s
      else
        let prior := ((s.movedOf t m i 0 w).map (·.1)).getD []
        let fit := (linesAt places).filter (s.sound m.begun prior)
        let s1 := fit.foldl (healLine (prior ++ bs)) (s.writeMoved t m.x bs)
        let begun := (linesAt places).foldl (fun (b : FMap Nat) x =>
          if fit.contains x then b.put x (s1.lineMeta x).since else b.erase x) m.begun
        let s2 := s1.dropClean (s1.coreOf t) (linesAt places)
        let s3 := if err then s2.moveError t (objectOf j m.x i) j m else s2
        let counted := j.record.isSome && !m.x.dbuf && s.allocated (gangOf t) (objectOf j m.x i) 16
        let due := if counted then m.due.set 0 i (m.due.get 0 i + k * m.x.dsize) else m.due
        s3.settleMove id o j { m with wrote := m.wrote.put i (w + k), due := due, begun := begun }

/-- An eager transfer taken up: the first elements are read. A team's object outside its allocation is an error, R282. -/
def startMove (s : State) (id : Nat) (o : Op) (j : Job) (x : Xfer) (slot : Option Nat) (count : Nat) : State :=
  let m : Moving := { x := x, raw := [], got := [], turns := 0, slot := slot, wrote := [], due := [], begun := [] }
  let g := gangOf o.thread
  let lost := x.mcast != 0 && (destsOf x).any fun i => !s.allocated g (objectOf j x i) 16
  let s1 := if lost then s.setTxerr g j.object else s
  if x.pairs.isEmpty then s1.settleMove id o j m else s1.readMore id o j m count

/-- A transfer into a circular buffer, R328, R431: it takes a slot as BufGet does, or waits, its record read, while
FREE is 0. Its length runs from the
lowest byte that it writes to the highest (log entry 47). -/
def moveBuffer (s : State) (id : Nat) (o : Op) (j : Job) (x : Xfer) (count : Nat) : State :=
  let g := gangOf o.thread
  let la := j.object
  if !s.allocated g la 32 || s.granulesPoisoned g la 32 then s.endCopy id o
  else
    let h := s.hdrAt g la
    let lo := (x.pairs.map (·.2)).foldl min ((x.pairs.headD (0, 0)).2)
    let hi := (x.pairs.map (·.2)).foldl max lo + x.dsize
    if h.firstBad.isSome || decide ((h.slotb : Int) < (if x.pairs.isEmpty then 0 else hi - lo)) then
      (s.setHdr g la h.withErr).endCopy id o
    else if h.free = 0 then s.setStage id o j (.waiting x)
    else
      let (h1, slot) := h.get
      -- the lowest byte written stands at the slot's first, and the record's destination bounds the slots
      let x' := { x with pairs := x.pairs.map fun p => (p.1, p.2 - lo + slot) }
      (s.setHdr g la h1).startMove id o j x' (some slot) count

end State

/-- The teams of a gang whose scratchpads a copy still delivers to, or whose objects it counts against, R315: those of a record that has
still to be read are the ones that it names now. -/
def copyTeams (s : State) (t : Nat) (j : Job) : List Nat :=
  let object := if j.record.isSome then [j.object / 2 ^ 20 % 16] else []
  let ends (x : Xfer) : List Nat := if x.mcast = 0 then State.teamsOf x 0 ++ object else State.destsOf x
  (match j.stage with
   | .moving m => State.teamsLeft j m
   | .waiting x => ends x
   | .accepted => (match (s.jobXfer t j).2.1 with
     | some (.ok x) => ends x
     | _ => object)
   | _ => object).eraseDups

/-- The Pool pages that an operation in flight has still to write, R219. -/
def State.pagesOf (s : State) (o : Op) : List Nat :=
  let dests (x : Option (List Place × List Place)) : List Nat := State.pasOf ((x.map fun d => d.2).getD [])
  let pas : List Nat := match o.kind with
    | .copy j => match j.stage with
      | .moving m => dests (s.xferPlaces o.thread m.x)
      | .recording sva dva n _ _ _ _ => ((s.rangePairs o.thread sva dva n).getD []).map (·.1)
      | .accepted => (match (s.jobXfer o.thread j).2.1 with
        | some (.ok x) => dests (s.xferPlaces o.thread x)
        | _ => [])
      | _ => []
    | k => k.ranges.flatMap fun r => match r with
      | (.global pa, n, true) => [pa, pa + n - 1]
      | _ => []
  ((pas.filter isPool).map (· / 65536)).eraseDups

/-- `COPY_RECORDING`, R237, R292: a destination block of a copy is recorded. -/
def execCopyRecording (op : Nat) (s : State) : Out :=
  .next (match s.ops.find? op with
    | none => s
    | some o => match o.kind with
      | .copy j => match j.stage with
        | .accepted => match s.choose op o j with
          | .record sva dva n xp tc es s1 =>
            let r := s1.reserveEntries (s1.worldOf o.thread) es
            r.1.recordNext op o j sva dva n xp tc 0 r.2
          | _ => s
        | .recording sva dva n xp tc next held => s.recordNext op o j sva dva n xp tc next held
        | _ => s
      | _ => s)

/-- `EAGER_COPY`, R226, R247: the ferry takes up a copy, reads elements of it, or writes elements at one destination (`count` of them, or
all that are left where it is 0); a malformed record moves nothing, R280. -/
def execEagerCopy (turn : CopyTurn) (s : State) : Out :=
  .next (match s.ops.find? turn.op with
    | none => s
    | some o => match o.kind with
      | .copy j => match j.stage with
        | .accepted => match s.choose turn.op o j with
          | .denied => (s.endCopy turn.op o).endTask (s.taskOf o.thread) .lease none
          | .malformed s1 => (s1.setTxerr (gangOf o.thread) j.object).endCopy turn.op o
          | .move x s1 => if x.dbuf then s1.moveBuffer turn.op o j x turn.count else s1.startMove turn.op o j x none turn.count
          | _ => s
        | .waiting x => match s.decide_ turn.op o x with
          | .denied => (s.endCopy turn.op o).endTask (s.taskOf o.thread) .lease none
          | .move x s1 => s1.moveBuffer turn.op o j x turn.count
          | _ => s
        | .moving m => match turn.dest with
          | none => s.readMore turn.op o j m turn.count
          | some i => s.writeMore turn.op o j m i turn.count
        | _ => s
      | _ => s)

/-- `FERRY_DELIVERY`, R260, R282: bytes written at a destination are counted against its object, and COPIES falls with the last. -/
def execFerryDelivery (op team bytes : Nat) (s : State) : Out :=
  .next (match s.ops.find? op with
    | none => s
    | some o => match o.kind with
      | .copy j => match j.stage with
        | .moving m =>
          let n := m.due.get 0 team
          if bytes = 0 ∨ n < bytes then s
          else
            (s.ferryArrive (gangOf o.thread) (State.objectOf j m.x team) bytes).settleMove op o j
              { m with due := m.due.set 0 team (n - bytes) }
        | _ => s
      | _ => s)

/-- `FERRY_BUFFER_PUT`, R328: the filled slot is put as BufPut does. -/
def execFerryBufferPut (op : Nat) (s : State) : Out :=
  .next (match s.ops.find? op with
    | none => s
    | some o => match o.kind with
      | .copy j => match j.stage with
        | .filling slot =>
          let g := gangOf o.thread
          let s1 :=
            if !s.allocated g j.object 32 || s.granulesPoisoned g j.object 32 then s
            else
              let h := s.hdrAt g j.object
              if h.firstBad.isSome then s.setHdr g j.object h.withErr
              else s.setHdr g j.object ((h.put slot).getD h.withErr)
          s1.endCopy op o
        | _ => s
      | _ => s)

/-- `HOT_LANDING`, R235, R245: an entry whose HOT has reached the threshold moves to LANDING, and the next line of one in LANDING lands,
in ascending order. -/
def execHotLanding (entry : Nat) (s : State) : Out :=
  .next (match s.alias_.find? entry with
    | none => s
    | some e =>
      if s.isHot entry e then { s with alias_ := s.alias_.put entry { e with state := 2 } }
      else if e.state ≠ 2 then s
      else match (span (e.dblk * 32) 32).find? e.shows with
        | none => s
        | some x => if s.lineHeld x then s else s.landLine x)

/-- `AMAT_LANDING`, R285: every aliased line of the range lands, after the thread's earlier releases. -/
def execAmatLanding (op : Nat) (s : State) : Out :=
  .next (match s.ops.find? op with
    | none => s
    | some o => match o.kind with
      | .materialise va n _ =>
        if !s.mayPerform op o then s
        else
          let t := o.thread
          match allSome ((span va n).map fun a => (s.translate (s.coreOf t) (gangOf t) a false).2) with
          | none => (s.endCopy op o).endTask (s.taskOf t) .lease none
          | some pas =>
            let lines := ((pas.map (· / 128)).eraseDups).filter fun x => (s.lineMeta x).alias_
            if lines.any s.lineHeld then s else (lines.foldl State.landLine s).endCopy op o
      | _ => s)

/-- `CHECKPOINT_LANDING`, R245, R252, R391: a line of a world's snapshot area is landed, and shipped to the buddy. -/
def execCheckpointLanding (world line : Nat) (s : State) : Out :=
  .next (match s.snaps.find? world with
    | none => s
    | some p => match p.todo.find? fun xa => xa.2 == line with
      | none => s
      | some (x, a) =>
        let s1 := if (s.lineMeta a).alias_ then s.landLine a else s
        let m := s1.lineMeta a
        let bytes := (span (a * 128) 128).map s1.homeByte
        let p' : Snapshot := { p with
          todo := p.todo.filter fun xa => xa.2 != line
          shipped := p.shipped ++ [x]
          mem := (bytes.foldl (fun (am : Nat × FMap (BitVec 8)) b => (am.1 + 1, am.2.set 0 am.1 b)) (x * 128, p.mem)).2
          meta_ := p.meta_.set LineMeta.clear x { LineMeta.clear with poison := m.poison, tags := m.tags } }
        { s1 with snaps := s1.snaps.put world p' })

end Sys2Proof.Machine
end

