-- ==== Sys2Proof/Machine/MatSum.lean ====
section
/-! DEFINITION. The summation of the matrix engine (spec/08, R130, R140 to R145) on exact values. -/

namespace Sys2Proof.Machine

/-- The paths of R130. -/
inductive MatPath where
  | p16 | fp8 | fp32 | fp64 | int8 | l6
  deriving DecidableEq, Repr

namespace MatPath

/-- The path of an operand pair, R130; none where the table has no row. -/
def of (a b : Nat) : Option MatPath :=
  let fp8 (f : Nat) : Bool := f == 6 || f == 7
  let int (f : Nat) : Bool := f == 9 || f == 10
  if (a = 5 ∧ b = 5) ∨ (a = 4 ∧ b = 4) then some .p16
  else if fp8 a && fp8 b then some .fp8
  else if a = 2 ∧ b = 2 then some .fp32
  else if a = 3 ∧ b = 3 then some .fp64
  else if int a && int b then some .int8
  else if a = 8 ∧ b = 8 then some .l6
  else none

/-- The plane depth, R130. -/
def depth : MatPath → Nat
  | p16 => 128 | fp8 => 256 | fp32 => 128 | fp64 => 128 | int8 => 256 | l6 => 512

/-- The element kind of the ring, R138: 1 F32, 2 I32, 3 F64. -/
def kind : MatPath → Nat
  | int8 => 2 | fp64 => 3 | p16 => 1 | fp8 => 1 | fp32 => 1 | l6 => 1

/-- The feature bit that gates a path, R130, R412. -/
def gate : MatPath → Option Nat
  | int8 => some 1 | l6 => some 0 | p16 => none | fp8 => none | fp32 => none | fp64 => none

end MatPath

/-- The value of an operand element by its FMT code, R94, R131: elements carry no scale. -/
def matVal (fmt : Nat) (b : Nat) : Val :=
  match fmt with
  | 2 => f32.dec b
  | 3 => f64.dec b
  | 4 => f16.dec b
  | 5 => b16.dec b
  | 6 => Fp8.e4m3.dec b
  | _ => Fp8.e5m2.dec b

/-- The integer of an I8 or N8 element. -/
def matInt (fmt : Nat) (b : Nat) : Int := if fmt = 9 then (BitVec.ofNat 8 b).toInt else (b : Int)

/-- RoundF32S, R140: RNE, and with `sat` an overflow of a finite value delivers the largest. -/
def roundF32S (sat : Bool) (v : Val) : Nat :=
  match v with
  | .fin s _ _ =>
    let r := (f32.round 0 v).1
    if sat && r % 2 ^ 31 == f32.infBits then (if s then f32.signBit else 0) + f32.infBits - 1 else r
  | _ => (f32.round 0 v).1

/-- A chunk's products: some NaN (an invalid product counts), an infinity of each sign, and the nonzero finite ones. -/
structure ChunkSeen where
  nan : Bool
  pos : Bool
  neg : Bool
  top : Option Int
  deriving DecidableEq, Repr

/-- What one product adds to what a chunk has seen. -/
def ChunkSeen.add (c : ChunkSeen) : Val → ChunkSeen
  | .nan _ => { c with nan := true }
  | .inf s => if s then { c with neg := true } else { c with pos := true }
  | .fin _ m e =>
    if m = 0 then c
    else { c with top := some (match c.top with | none => leadExp m e | some x => max x (leadExp m e)) }

/-- `Chunk`, R140: the F32 bits of a chunk of products with window `w` and scale `sc`. -/
def chunk (ps : List Val) (w : Nat) (sc : Int) (sat : Bool) : Nat :=
  let c := ps.foldl ChunkSeen.add ⟨false, false, false, none⟩
  if c.nan ∨ (c.pos ∧ c.neg) then f32.canon
  else if c.pos then f32.infBits
  else if c.neg then f32.signBit + f32.infBits
  else match c.top with
    | none => 0
    | some x =>
      let q := x - w + 1
      let sum : Int := ps.foldl (fun a p => match p with
        | .fin s m e =>
          let t : Int := (atQuantum m e q false 1 : Nat)
          if s then a - t else a + t
        | _ => a) 0
      roundF32S sat (.fin (decide (sum < 0)) sum.natAbs (q + sc))

/-- Lists cut into pieces of `n`. -/
def cuts {α : Type} (n : Nat) : Nat → List α → List (List α)
  | 0, _ => []
  | k + 1, xs => if xs.isEmpty then [] else xs.take n :: cuts n k (xs.drop n)

/-- A chunk value added to an element, R140. -/
def addChunk (sat : Bool) (e c : Nat) : Nat := roundF32S sat (Val.add 0 (f32.dec e) (f32.dec c)).1

/-- An element of a float path, R140. -/
def sumFloat (n w : Nat) (sc : Int) (sat : Bool) (e : Nat) (ps : List Val) : Nat :=
  (cuts n (ps.length + 1) ps).foldl (fun e c => addChunk sat e (chunk c w sc sat)) e

/-- One step of the FP64 path, R141. -/
def stepF64 (sc : Int) (sat : Bool) (e : Nat) (a b : Nat) : Nat :=
  let v := (Val.add 0 ((Val.mul (f64.dec a) (f64.dec b)).1.scale sc) (f64.dec e)).1
  let r := (f64.round 0 v).1
  match v with
  | .fin s _ _ => if sat && r % 2 ^ 63 == f64.infBits then (if s then f64.signBit else 0) + f64.infBits - 1 else r
  | _ => r

/-- An element of the L6 path, R142. -/
def sumL6 (sc : Int) (sat : Bool) (e : Nat) (abs : List (Nat × Nat)) : Nat :=
  (cuts 64 (abs.length + 1) abs).foldl (fun e c =>
    let t := (c.map fun p => L6.term (BitVec.ofNat 6 p.1) (BitVec.ofNat 6 p.2)).sum
    addChunk sat e (roundF32S sat (.fin (decide (t < 0)) t.natAbs (sc - 23)))) e

/-- A result element from its starting value and the pairs of operand elements, by path, R140 to R143. -/
def matElem (path : MatPath) (fa fb : Nat) (sc : Int) (sat : Bool) (e : Nat) (ps : List (Nat × Nat)) : Nat :=
  let prods := ps.map fun p => (Val.mul (matVal fa p.1) (matVal fb p.2)).1
  match path with
  | .p16 => sumFloat 32 47 sc sat e prods
  | .fp8 => sumFloat 32 47 sc sat e prods
  | .fp32 => sumFloat 8 74 sc sat e prods
  | .fp64 => ps.foldl (fun e p => stepF64 sc sat e p.1 p.2) e
  | .int8 =>
    let t := (ps.map fun p => matInt fa p.1 * matInt fb p.2).sum
    (BitVec.ofNat 32 e + BitVec.ofInt 32 t).toNat
  | .l6 => sumL6 sc sat e ps

/-- The same element where every product is +0, R132: each chunk adds +0. -/
def matZero (path : MatPath) (sat : Bool) (k e : Nat) : Nat :=
  match path with
  | .p16 => sumFloat 32 47 0 sat e (List.replicate k (.fin false 0 0))
  | .fp8 => sumFloat 32 47 0 sat e (List.replicate k (.fin false 0 0))
  | .fp32 => sumFloat 8 74 0 sat e (List.replicate k (.fin false 0 0))
  | .fp64 => (List.replicate k 0).foldl (fun e _ => stepF64 0 sat e 0 0) e
  | .int8 => e
  | .l6 => sumL6 0 sat e (List.replicate k (0x10, 0x10))

end Sys2Proof.Machine
end

