-- ==== Sys2Proof/Machine/Matrix.lean ====
section
/-! DEFINITION. The matrix engine and the accumulator ring: `mms`, `mmp` and the ring sub-operations at issue, and the events
by which requests are granted, read their operands, compute and complete (spec/08, spec/09, R130 to R164). -/

namespace Sys2Proof.Machine

/-! ## Blocks -/

/-- A little-endian field of a block. -/
def field (bs : List (BitVec 8)) (o n : Nat) : Nat := leNat ((bs.drop o).take n)

/-- A signed byte of a block. -/
def sbyte (bs : List (BitVec 8)) (o : Nat) : Int := (BitVec.ofNat 8 (field bs o 1)).toInt

/-- The fields of a parameter block, R154; M and N of 0 are 128, and OP 3 implies SWAP. -/
def Block.dec (bs : List (BitVec 8)) : Block :=
  let flag (i : Nat) : Bool := field bs 3 1 / 2 ^ i % 2 == 1
  let dim (o : Nat) : Nat := if field bs o 1 = 0 then 128 else field bs o 1
  { op := field bs 0 1, afmt := field bs 1 1, bfmt := field bs 2 1, acc := flag 0, sat := flag 1, newTile := flag 2,
    swap := flag 3 || field bs 0 1 == 3, epi := flag 4, m := dim 4, n := dim 5, k := field bs 6 2, scla := sbyte bs 8,
    sclb := sbyte bs 9, tile := field bs 10 1, qtr := field bs 11 1, aoff := field bs 16 3, astr := field bs 20 2,
    aswz := field bs 22 1 % 16, boff := field bs 32 3, bstr := field bs 36 2, bswz := field bs 38 1 % 16,
    consumed := field bs 48 3, done := field bs 52 3 }

/-- The first true test's offset. -/
def firstFail : List (Nat × Bool) → Option Nat
  | [] => none
  | (o, b) :: rest => if b then some o else firstFail rest

namespace State

/-- `FirstBadField`, R153, R154; `mms` says which instruction reads the block. -/
def blockBad (s : State) (gang : Nat) (mms : Bool) (bs : List (BitVec 8)) : Option Nat :=
  let b := Block.dec bs
  let path := MatPath.of b.afmt b.bfmt
  let c := s.ringC gang
  let one := b.op == 1
  let two := b.op == 2
  let objBad (la : Nat) : Bool := la != 0 && (la % 16 != 0 || !s.allocated gang la 16)
  firstFail [
    (0, if mms then !one else !(b.op == 2 || b.op == 3)),
    (1, match path with
        | none => true
        | some p => match p.gate with | none => false | some i => !s.boot.featAccept.getLsbD i),
    (3, (one && field bs 3 1 % 32 != 0) || (b.epi && !one && (s.epi.find? (epiKey gang)).isNone)),
    (4, !one && decide (128 ≤ field bs 4 1)),
    (5, decide (128 ≤ field bs 5 1)),
    (6, b.k == 0 || decide ((path.map MatPath.depth).getD 0 < b.k)),
    (10, c == 0 || (!one && decide (c ≤ b.tile + b.qtr + b.wide))),
    (11, !one && decide (4 ≤ b.qtr)),
    (16, !one && b.aoff % 16 != 0),
    (20, !one && b.astr % 16 != 0),
    (22, !one && decide (4 < b.aswz)),
    (32, !two && b.boff % 16 != 0),
    (36, !two && b.bstr % 16 != 0),
    (38, !two && decide (4 < b.bswz)),
    (48, objBad b.consumed),
    (52, objBad b.done)]

/-- The read of a block of `n` bytes at issue, R153: the checks, then the bytes, after the thread's own stores to them and behind its
incomplete ACQ and FULL fences (R256). -/
def readBlock (s : State) (t c n : Nat) (kinds : Nat → Bool) (perm : Cap → Bool) : Rd (List (BitVec 8)) := do
  s.capPoison t c
  let ea := s.effAddr t c 0
  s.capChecks t c kinds perm ea n n (addrNo ea)
  if s.ownPending t ea.toNat n false || s.acquiring t then .error (.hold 0)
  else
    let r := s.spadLoad (gangOf t) ea.toNat n
    failIf r.2.1 Cause.poison (addrNo ea)
    .ok r.1

/-! ## The stream -/

/-- Rewrites an entry. -/
def updReq (s : State) (id : Nat) (f : Req → Req) : State := { s with reqs := s.reqs.adjust id f }

/-- A new entry of a gang's stream. -/
def enterStream (s : State) (t prio : Nat) (k : ReqKind) : State :=
  let g := gangOf t
  let q := s.quadOf t
  let held := ((s.stream g q).values.filter fun r => r.tabled).length
  let drain := match k with | .drain _ => true | _ => false
  let r : Req :=
    { gang := g, quad := q, thread := t, kind := k, prio := prio, tabled := k.array && decide (held < s.ringC g),
      readyAt := none, aged := false, permit := false, granted := none, fed := false, passed := drain, aBits := [],
      bBits := [], bias := [], sectors := [], spoilt := [], epiNo := if drain then some s.nextId else none }
  { s with reqs := s.reqs.put s.nextId r, nextId := s.nextId + 1 }.incTl t

/-- The `rst`s in flight to a tile at one of some counts: the operation, the count and the slot. -/
def storesTo (s : State) (gang quad : Nat) (counts : List Nat) : List (Nat × Nat × Nat) :=
  s.ops.filterMap fun ko => match ko.2.kind with
    | .ringStore q _ slot count _ =>
      if gangOf ko.2.thread == gang && q == quad && counts.contains count then some (ko.1, count, slot) else none
    | _ => none

/-- The `rst`s in flight to a tile that comes into use leave an undefined value, R148 (log entry 1). -/
def spoilStores (s : State) (gang quad : Nat) (counts : List Nat) : State :=
  (s.storesTo gang quad counts).zipIdx.foldl (fun s x =>
    { s with ops := s.ops.adjust x.1.1 fun o => match o.kind with
        | .ringStore q i slot count _ =>
          { o with kind := .ringStore q i slot count (Config.freeWord (s.freeCtr * 65536 + 33792 + x.2 % 31744)) }
        | _ => o }) s

/-- The `rld`s in flight of a tile that a request comes to target return an undefined value, R148 (log entry 1). -/
def spoilLoads (s : State) (gang quad : Nat) (counts : List Nat) : State :=
  { s with ops := s.ops.mapVals fun _ o => match o.kind with
      | .ringLoad q i slot reg count _ =>
        if gangOf o.thread == gang && q == quad && counts.contains count then { o with kind := .ringLoad q i slot reg count true }
        else o
      | _ => o }

/-- A request of `mms` or `mmp`, R137, R153: the target is fixed and NEWTILE moves the head. What is in flight to or from its tile is
made before the request completes, R148. -/
def enterRequest (s : State) (t prio : Nat) (b : Block) : State :=
  let g := gangOf t
  let q := s.quadOf t
  if b.op = 1 then s.enterStream t prio (.load b)
  else
    let pos := s.ringHead g q + b.tile + b.qtr
    let k : ReqKind := .pass b pos (if b.epi then s.epi.find? (epiKey g) else none)
    let s0 := (s.spoilLoads g q k.targets).spoilStores g q k.targets
    let s1 := (s0.enterStream t prio k).updReq s.nextId fun r =>
      { r with spoilt := (s.storesTo g q k.targets).map fun x => (x.2.1, x.2.2) }
    if b.newTile then { s1 with ringH := s1.ringH.set 0 (ringKey g q) (pos + 1) } else s1

/-- One lane of `mms` or `mmp`, R153. -/
def matrixLane (mms : Bool) (c prio : Nat) (s : State) (t : Nat) : State × LaneRes :=
  laneS s do
    let bs ← s.readBlock t c 64 (· == 1) fun c => c.r && c.e
    match s.blockBad (gangOf t) mms bs with
    | some o => fail Cause.format (regNo o)
    | none =>
      roomIn (s.thread t).tl
      .ok (s.enterRequest t prio (Block.dec bs), .done Done.nothing)

end State

/-- `mms`, R152, R153. -/
def execMms (c : BitVec 3) (r : BitVec 2) (ct : Ctl) (st : State) : Out :=
  .next (st.issue ct 4 (State.matrixLane true c.toNat r.toNat))

/-- `mmp`, R152, R153. -/
def execMmp (c : BitVec 3) (r : BitVec 2) (ct : Ctl) (st : State) : Out :=
  .next (st.issue ct 4 (State.matrixLane false c.toNat r.toNat))

/-! ## Ring sub-operations -/

/-- The count of the tile that `rld` and `rst` address, R159: FORMAT where C = 0 or off ≥ C. -/
def ringTile (s : State) (t off : Nat) : Rd Nat := do
  let g := gangOf t
  let c := s.ringC g
  failIf (c == 0 || decide (c ≤ off)) Cause.format (regNo off)
  .ok (s.ringTail g (s.quadOf t) + off)

/-- `rld`, R159: the value is undefined where it is made while a request targets the tile, R148, as it is where such a request enters
before the data returns. -/
def execRld (d : BitVec 5) (o : BitVec 3) (v : BitVec 5) (ct : Ctl) (st : State) : Out :=
  .next (st.issue ct 4 fun s t => State.laneS s do
    let x ← s.readSrc t v.toNat Acc.any
    let n ← ringTile s t o.toNat
    s.rowsFor t [d.toNat]
    State.roomIn (s.thread t).ld
    let undef := s.tileTargeted (gangOf t) (s.quadOf t) n
    .ok (s.issueLoad t [] (.ringLoad (s.quadOf t) (n % s.ringC (gangOf t)) (x.toNat % 16384) d.toNat n undef) [d.toNat],
      .done Done.nothing))

/-- `rpos`, R161. -/
def execRpos (d : BitVec 5) (ct : Ctl) (st : State) : Out :=
  .next (st.issue ct 4 (State.pureLane fun s t =>
    let g := gangOf t
    let q := s.quadOf t
    let w := s.ringHead g q % 256 + s.ringTail g q % 256 * 2 ^ 8 + s.ringC g * 2 ^ 16
    s.finishLane t (oneReg d.toNat (BitVec.ofNat 32 w) 1 0 false [])))

/-- The size of an output element by its memory format, R51. -/
def outSize (f : Nat) : Nat := Fmt.bits f / 8

/-- The fields of an epilogue block, R163. -/
def EpiBlock.dec (bs : List (BitVec 8)) : EpiBlock :=
  { scale := BitVec.ofNat 32 (field bs 0 4), bias := field bs 4 3, lo := BitVec.ofNat 32 (field bs 8 4),
    hi := BitVec.ofNat 32 (field bs 12 4), outfmt := field bs 16 1, outscl := sbyte bs 17, sat := field bs 18 1 == 1,
    rel := field bs 19 1 == 1, out := field bs 20 3, ostr := field bs 24 2 }

/-- The first failing field of an epilogue block, R163. -/
def epiBad (bs : List (BitVec 8)) : Option Nat :=
  let e := EpiBlock.dec bs
  firstFail [
    (4, e.bias % 4 != 0),
    (16, !(e.outfmt == 8 || e.outfmt == 7 || e.outfmt == 6 || e.outfmt == 3 || e.outfmt == 4)),
    (18, decide (2 ≤ field bs 18 1)),
    (19, decide (2 ≤ field bs 19 1)),
    (20, e.out % outSize e.outfmt != 0),
    (24, e.ostr % outSize e.outfmt != 0)]

/-- `repi`, R162. -/
def execRepi (c : BitVec 3) (ct : Ctl) (st : State) : Out :=
  .next (st.issue ct 4 fun s t => State.laneS s do
    let bs ← s.readBlock t c.toNat 32 (· == 1) fun c => c.r && c.e
    match epiBad bs with
    | some o => fail Cause.format (regNo o)
    | none =>
      State.roomIn (s.thread t).tl
      let e := EpiBlock.dec bs
      let s1 := { s with epi := s.epi.put (epiKey (gangOf t)) e }
      .ok (s1.enterStream t 0 (.drain e), .done Done.nothing))

/-! ## Grants, R132, R134, R135 -/

/-- Whether a request loads or swaps, so that another crew's reservation blocks it, R132. -/
def ReqKind.touchesShadow : ReqKind → Bool
  | .load _ => true
  | .pass b _ _ => b.swap
  | .restore _ _ => true
  | _ => false

/-- Whether an entry loads a saved plane. -/
def ReqKind.isRestore : ReqKind → Bool
  | .restore _ _ => true
  | _ => false

namespace State

/-- Whether the engine has still to accept what a thread issued as number `id`, behind an earlier `fence.mm.quad`, R256. -/
def mmHeld (s : State) (t id : Nat) : Bool :=
  s.ops.any fun ko => ko.2.thread == t && decide (ko.1 < id) && (match ko.2.kind with | .fence 3 _ => true | _ => false)

/-- Whether a gang has a saved plane that is still to be granted, on any quad, R384. -/
def planesWait (s : State) (gang : Nat) : Bool := s.reqs.values.any fun r => r.gang == gang && r.kind.isRestore && r.granted.isNone

/-- Whether an entry of the reservation table is ready, R134: in the open region, not blocked by a reservation, with no
earlier ungranted request of its crew or at its position, no saved plane of the gang to be loaded before it (R384), and behind the fences
of its thread (R149, R256). -/
def entryReady (s : State) (id : Nat) (r : Req) : Bool :=
  let earlier := (s.stream r.gang r.quad).filter fun kr => decide (kr.1 < id)
  r.tabled && r.kind.array && r.granted.isNone &&
  r.kind.targets.all (fun p => decide (p < s.ringTail r.gang r.quad + s.ringC r.gang)) &&
  (!r.kind.touchesShadow || (match s.resv.find? r.quad with | none => true | some c => c == crewOf r.thread)) &&
  (r.kind.isRestore || !s.planesWait r.gang) &&
  earlier.all (fun kr =>
    (kr.2.granted.isSome || !kr.2.kind.isRestore) &&
    (kr.2.granted.isSome || !kr.2.kind.array || crewOf kr.2.thread != crewOf r.thread) &&
    (kr.2.granted.isSome || (kr.2.kind.targets.all fun p => !r.kind.targets.contains p))) &&
  !s.mmHeld r.thread id

/-- Effective priority, R134: 3 for an entry that has been ready for 8,192 cycles. -/
def reqPrio (s : State) (r : Req) : Nat :=
  if r.aged || r.readyAt.any fun a => decide (8192 ≤ s.clock - a) then 3 else r.prio

/-- Since when each entry has been ready, R134. -/
def stampReady (s : State) : State :=
  { s with reqs := s.reqs.mapVals fun id r =>
      if s.entryReady id r then { r with readyAt := some (r.readyAt.getD s.clock) }
      else { r with readyAt := none, aged := false } }

/-- The entry that the arbiter takes, R134: the highest effective priority, then the oldest, which is taken to be the first in the
order of issue (log entry 46). -/
def pickEntry (s : State) (quad : Nat) : Option (Nat × Req) :=
  (s.reqs.filter fun kr => kr.2.quad == quad && s.entryReady kr.1 kr.2).foldl (fun best kr =>
    match best with
    | none => some kr
    | some b => if s.reqPrio b.2 < s.reqPrio kr.2 then some kr else best) none

/-- A reservation after a grant, R132: a load-stationary request takes it for a crew that has not retired, its crew's SWAP ends it; a
saved plane does as its kind of request would (R384). -/
def reserve (s : State) (r : Req) : State :=
  let crew := crewOf r.thread
  let take : State := if (s.crews.find? crew).any fun c => !c.retired then { s with resv := s.resv.put r.quad crew } else s
  let swap : State := if s.resv.find? r.quad == some crew then { s with resv := s.resv.erase r.quad } else s
  match r.kind with
  | .load _ => take
  | .restore _ act => if act then swap else take
  | .pass b _ _ => if b.swap then swap else s
  | _ => s

/-- An entry of the reservation table is free: the next request of its gang takes it, R133. -/
def nextEntry (s : State) (g q : Nat) : State :=
  if s.ringC g ≤ ((s.stream g q).values.filter fun r => r.tabled).length then s
  else match (s.stream g q).filter (fun kr => kr.2.kind.array && !kr.2.tabled) |>.head? with
    | some kr => s.updReq kr.1 fun x => { x with tabled := true }
    | none => s

/-- A request is over, R133, R156: the completion arrival, the fall of TILES, and the next of its gang takes the entry. -/
def finishReq (s : State) (id : Nat) (r : Req) (done : Nat) : State :=
  let s1 := s.engineArrive r.gang done
  let s2 := ({ s1 with reqs := s1.reqs.erase id }).decTl r.thread
  if r.tabled then s2.nextEntry r.gang r.quad else s2

/-! ## Operands, R131, R149, R150, R155 -/

/-- The local address of byte `b` of unit `u` of row `r`, R155. -/
def unitAddr (off str swz r u : Nat) : Nat := off + r * str + 16 * (u ^^^ (r % 2 ^ swz))

/-- Bytes of a row of `n` elements, R155. -/
def rowBytes (fmt n : Nat) : Nat :=
  match fmt with
  | 2 => 4 * n
  | 3 => 8 * n
  | 4 => 2 * n
  | 5 => 2 * n
  | 8 => 4 * ((n + 4) / 5)
  | _ => n

/-- Element `i` of a row's bytes. -/
def rowElem (fmt : Nat) (bs : List (BitVec 8)) (i : Nat) : BitVec 64 :=
  match fmt with
  | 2 => BitVec.ofNat 64 (field bs (4 * i) 4)
  | 3 => BitVec.ofNat 64 (field bs (8 * i) 8)
  | 4 => BitVec.ofNat 64 (field bs (2 * i) 2)
  | 5 => BitVec.ofNat 64 (field bs (2 * i) 2)
  | 8 => BitVec.ofNat 64 (field bs (i / 5 * 4) 4 / 2 ^ (6 * (i % 5)) % 64)
  | _ => BitVec.ofNat 64 (field bs i 1)

/-- Whether a unit that a request reads lies in an allocation and holds no poisoned byte, R150; one in a sector that has been read was
sound then. -/
def unitOk (s : State) (r : Req) (a : Nat) : Bool :=
  s.allocated r.gang a 16 && ((r.sectors.find? (a / 64)).isSome || !s.granulesPoisoned r.gang a 16)

/-- The 16 bytes of a unit: as its sector was read, or as they stand, R149. -/
def unitBytes (s : State) (r : Req) (a : Nat) : List (BitVec 8) :=
  match r.sectors.find? (a / 64) with
  | some bs => (bs.drop (a % 64)).take 16
  | none => (span a 16).map (s.spadByte r.gang)

/-- One row of an operand, none where a unit fails, R150. -/
def readRow (s : State) (q : Req) (fmt off str swz n r : Nat) : Option (List (BitVec 64)) :=
  let units := (rowBytes fmt n + 15) / 16
  let addrs := (span 0 units).map fun u => unitAddr off str swz r u
  if addrs.all (s.unitOk q) then some ((span 0 n).map (rowElem fmt (addrs.flatMap (s.unitBytes q)))) else none

/-- An operand, row by row. -/
def readOperand (s : State) (q : Req) (fmt off str swz n : Nat) : Nat → Nat → Option (List (List (BitVec 64)))
  | _, 0 => some []
  | r, k + 1 =>
    match s.readRow q fmt off str swz n r, s.readOperand q fmt off str swz n (r + 1) k with
    | some x, some xs => some (x :: xs)
    | _, _ => none

/-- The operands that a request reads, R156: B for OP 1, A for OP 2, both for OP 3. -/
def readReq (s : State) (r : Req) : Option (List (List (BitVec 64)) × List (List (BitVec 64))) :=
  let a (b : Block) := s.readOperand r b.afmt b.aoff b.astr b.aswz b.k 0 b.m
  let w (b : Block) := s.readOperand r b.bfmt b.boff b.bstr b.bswz b.n 0 b.k
  match r.kind with
  | .load b => (w b).map fun x => ([], x)
  | .pass b _ _ =>
    if b.op = 3 then
      match a b, w b with
      | some x, some y => some (x, y)
      | _, _ => none
    else (a b).map fun x => (x, [])
  | _ => none

/-- The addresses of the units of a request's operands, R155, R156. -/
def operandUnits (r : Req) : List Nat :=
  let op (fmt off str swz n k : Nat) : List Nat :=
    (span 0 k).flatMap fun i => (span 0 ((rowBytes fmt n + 15) / 16)).map fun u => unitAddr off str swz i u
  let a (b : Block) := op b.afmt b.aoff b.astr b.aswz b.k b.m
  let w (b : Block) := op b.bfmt b.boff b.bstr b.bswz b.n b.k
  match r.kind with
  | .load b => w b
  | .pass b _ _ => if b.op = 3 then a b ++ w b else a b
  | _ => []

/-- The addresses of the units that a request reads, those of its epilogue's bias range among them, R149. -/
def unitsOf (r : Req) : List Nat :=
  operandUnits r ++ (match r.kind with
    | .pass _ _ (some e) => if e.bias = 0 then [] else (span (e.bias / 16) 33).map (· * 16)
    | _ => [])

/-- One 64-byte sector of a request's operands read ahead of the rest, R149; a sector with a unit that fails is not. -/
def readSector (s : State) (r : Req) (n : Nat) : Req :=
  let us := (unitsOf r).filter fun a => a / 64 == n
  if us.isEmpty || (r.sectors.find? n).isSome || !us.all (s.unitOk r) then r
  else { r with sectors := r.sectors.put n ((span (n * 64) 64).map (s.spadByte r.gang)) }

/-- The words of a bias range, as their sectors were read or as they stand: none where one cannot be read, R146, R149, R150. -/
def readBias (s : State) (r : Req) (e : EpiBlock) : List (Option (BitVec 32)) :=
  if e.bias = 0 then []
  else (span 0 128).map fun j =>
    let a := e.bias + 4 * j
    match r.sectors.find? (a / 64) with
    | some bs => if s.allocated r.gang a 4 then some (BitVec.ofNat 32 (leNat ((bs.drop (a % 64)).take 4))) else none
    | none =>
      if s.allocated r.gang a 4 && !s.granulesPoisoned r.gang a 4 then some (BitVec.ofNat 32 (s.spadNat r.gang a 4)) else none

/-- The words of a bias range in sector `n` read again, R149: not where the sector holds operands, which have been read. -/
def rereadBias (s : State) (r : Req) (n : Nat) : Req :=
  match r.kind with
  | .pass _ _ (some e) =>
    if (operandUnits r).any (fun a => a / 64 == n) then r
    else { r with bias := (r.bias.zip (s.readBias r e)).zipIdx.map fun x => if (e.bias + 4 * x.2) / 64 = n then x.1.2 else x.1.1 }
  | _ => r

/-- Whether a request may still read its bias: one that names no operands-consumed object does so until its completion, R149. -/
def biasOpen (r : Req) : Bool :=
  r.fed && (match r.kind with | .pass b _ (some _) => b.consumed == 0 | _ => false)

/-- The block of a request. -/
def blockOf (k : ReqKind) : Option Block :=
  match k with
  | .load b => some b
  | .pass b _ _ => some b
  | _ => none

/-- Whether a request has been granted and admitted to its pass, and has still to read its operands. -/
def reading (r : Req) : Bool :=
  r.granted.isSome && !r.fed && (r.permit || (match r.kind with | .load _ => true | _ => false))

/-! ## The result of a pass, R132, R138, R139 -/

/-- The operand pairs of element (i, j), where the plane holds all of them; a plane loaded with another format or smaller
extents gives no stated result (log entry 1). -/
def pairsAt (b : Block) (p : Plane) (arows : List (List (BitVec 64))) (i j : Nat) : Option (List (Nat × Nat)) :=
  if p.fmt ≠ b.bfmt ∨ p.rows.length < b.k ∨ ((p.rows.take b.k).any fun r => decide (r.length ≤ j)) then none
  else
    let ar := arows.getD i []
    some ((span 0 b.k).map fun k => ((ar.getD k 0).toNat, ((p.rows.getD k []).getD j 0).toNat))

/-- Reads the element (i, j) at a position, R138. -/
def ringElem (s : State) (gang quad pos kind i j : Nat) : Nat :=
  if kind = 3 then
    let p := pos + j / 64
    let n := i * 128 + 2 * (j % 64)
    (s.slot gang quad p n).toNat + (s.slot gang quad p (n + 1)).toNat * 2 ^ 32
  else (s.slot gang quad pos (i * 128 + j)).toNat

/-- Writes the element (i, j) at a position, R138. -/
def setRingElem (s : State) (gang quad pos kind i j v : Nat) : State :=
  if kind = 3 then
    let p := pos + j / 64
    let n := i * 128 + 2 * (j % 64)
    (s.setSlot gang quad p n (BitVec.ofNat 32 v)).setSlot gang quad p (n + 1) (BitVec.ofNat 32 (v / 2 ^ 32))
  else s.setSlot gang quad pos (i * 128 + j) (BitVec.ofNat 32 v)

/-- The kind and extent of a tile after a pass, R138. After a pass of another kind the tile records the new kind, with the largest counts of
both (log entry 46). -/
def noteTile (s : State) (gang quad pos kind rows cols : Nat) : State :=
  s.setTile gang quad pos fun t => { t with kind := kind, rows := max t.rows rows, cols := max t.cols cols }

/-- The value that a pass gives element (i, j). -/
def passElem (s : State) (r : Req) (b : Block) (path : MatPath) (pos : Nat) (own : Bool) (p : Plane) (i j : Nat) : Nat :=
  let e := if b.acc then s.ringElem r.gang r.quad pos path.kind i j else 0
  let sc := b.scla + b.sclb
  if own then
    match pairsAt b p r.aBits i j with
    | some ps => matElem path b.afmt b.bfmt sc b.sat e ps
    | none =>
      let f := s.freeCtr * 65536 + 1024 + 2 * (i * 128 + j)
      (Config.freeWord f).toNat + (if path.kind = 3 then (Config.freeWord (f + 1)).toNat * 2 ^ 32 else 0)
  else matZero path b.sat b.k e

/-- The array's work for a pass, R132, R139: load and swap where it carries them, then the product into the ring, but for slots that an
`rst` has left undefined (R148). A SWAP puts the plane that was active, with its owner, into the shadow (log entry 46). -/
def runPass (s : State) (r : Req) (b : Block) (pos : Nat) : State :=
  match MatPath.of b.afmt b.bfmt with
  | none => s
  | some path =>
    let none_ : Plane := ⟨none, 0, []⟩
    let sh := if b.op = 3 then ⟨some (crewOf r.thread), b.bfmt, r.bBits⟩ else (s.shadow.find? r.quad).getD none_
    let ac := (s.active.find? r.quad).getD none_
    let (act, shd) := if b.swap then (sh, ac) else (ac, sh)
    let s1 := { s with active := s.active.put r.quad act, shadow := s.shadow.put r.quad shd }
    let own := act.owner == some (crewOf r.thread)
    let s2 := (span 0 b.m).foldl (fun s' i => (span 0 b.n).foldl (fun s' j =>
      s'.setRingElem r.gang r.quad pos path.kind i j (s1.passElem r b path pos own act i j)) s') s1
    let s3 := if path.kind = 3 then
        let s' := s2.noteTile r.gang r.quad pos 3 b.m (min b.n 64)
        if 64 < b.n then s'.noteTile r.gang r.quad (pos + 1) 3 b.m (b.n - 64) else s'
      else s2.noteTile r.gang r.quad pos path.kind b.m b.n
    r.spoilt.zipIdx.foldl (fun s' x =>
      s'.setSlot r.gang r.quad x.1.1 x.1.2 (Config.freeWord (s.freeCtr * 65536 + 33792 + x.2 % 31744))) s3

/-- Whether every request granted before this one on its quad has done its work in the array, so that passes are summed in
the order of their grants, R134. -/
def turnOf (s : State) (r : Req) : Bool :=
  s.reqs.values.all fun x => x.quad != r.quad || !x.kind.array || x.passed ||
    (match x.granted, r.granted with
     | some a, some b => decide (b ≤ a)
     | _, _ => true)

/-! ## Epilogues, R146, R147 -/

/-- The epilogue block of an entry whose epilogue has started. -/
def epiOf (r : Req) : Option EpiBlock :=
  match r.kind with
  | .drain e => some e
  | .pass _ _ (some e) => if r.passed then some e else none
  | _ => none

/-- Whether a release may take effect now, R160, R164: every epilogue that the gang started earlier and every request targeting the tail are
complete. -/
def releaseReady (s : State) (id : Nat) (r : Req) : Bool :=
  (s.stream r.gang r.quad).all fun kx =>
    (match kx.2.epiNo with | some n => decide (id < n) | none => true) &&
    (match kx.2.kind with | .release => decide (id ≤ kx.1) | _ => true) &&
    !(kx.2.kind.array && kx.2.kind.targets.contains (s.ringTail r.gang r.quad))

/-- Whether an entry's epilogue has to wait for a release that entered the stream before the epilogue started, R160, R164: but for that of a
request targeting the tail, which the release itself waits for. -/
def behindRelease (s : State) (r : Req) : Bool :=
  !(r.kind.array && r.kind.targets.contains (s.ringTail r.gang r.quad)) &&
  (s.stream r.gang r.quad).any fun kx =>
    match kx.2.kind with | .release => r.epiNo.any fun n => decide (kx.1 < n) | _ => false

/-- Whether an entry's epilogue may run now: it waits for no release, it is the first of those of its gang, in the order in which they
started, that do not, the tail tile is closed, and every request that targets it has its result in the ring. An `rclr` that names the
tail does not hold it (log entry 46). -/
def epiReady (s : State) (r : Req) : Bool :=
  let g := r.gang
  let q := r.quad
  let t := s.ringTail g q
  (epiOf r).isSome && decide (t < s.ringHead g q) && !(match r.kind with | .drain _ => s.mmHeld r.thread (r.epiNo.getD 0) | _ => false) &&
  ((s.stream g q).values.all fun x =>
    (match (epiOf x).bind (fun _ => x.epiNo), r.epiNo with
     | some a, some b => decide (b ≤ a) || s.behindRelease x
     | _, _ => true) &&
    (x.passed || !x.kind.array || !x.kind.targets.contains t)) && !s.behindRelease r

/-- The value of a ring element as the epilogue reads it; element (i, j) of an F64 tile with j from 64 up stands at the next position, as
R138 places it (log entry 46). -/
def epiValue (s : State) (gang quad pos kind i j : Nat) : Val :=
  match kind with
  | 2 => .ofInt (BitVec.ofNat 32 (s.ringElem gang quad pos 2 i j)).toInt
  | 3 => f64.dec (s.ringElem gang quad pos 3 i j)
  | _ => f32.dec (s.ringElem gang quad pos 1 i j)

/-- The conversion of R146. -/
def epiConvert (e : EpiBlock) (v : Nat) : Nat :=
  let x := f32.dec v
  let narrow (F : BinFmt) : Nat :=
    let r := (F.round 0 x).1
    match x with
    | .fin s _ _ =>
      if e.sat && r % F.signBit == F.infBits then (if s then F.signBit else 0) + F.infBits - 1 else r
    | _ => r
  match e.outfmt with
  | 6 => narrow f16
  | 7 => narrow b16
  | 3 => (Fp8.e4m3.ofVal e.sat e.outscl x).1
  | 4 => (Fp8.e5m2.ofVal e.sat e.outscl x).1
  | _ => v

/-- One output element, R146. -/
def epiElem (e : EpiBlock) (x : Val) (bias : Nat) : Nat :=
  let v := (f32.round 0 (Val.fma 0 x (f32.dec e.scale.toNat) (f32.dec bias)).1).1
  let w := if f32.isNan v then f32.canon
    else
      let lo := (FOp.max 0 (f32.dec v) (f32.dec e.lo.toNat) (.inf false)).1
      (f32.round 0 (FOp.min 0 lo (f32.dec e.hi.toNat) (.inf false)).1).1
  epiConvert e w

/-- BIAS[j] of an epilogue: with a request, as it was read with the request's operands; with `repi`, as it stands, R146, R149. -/
def biasAt (s : State) (r : Req) (e : EpiBlock) (j : Nat) : Option (BitVec 32) :=
  if e.bias = 0 then some 0
  else match r.kind with
    | .drain _ => ((s.readBias r e)[j]?).join
    | _ => (r.bias[j]?).join

/-- Whether an epilogue's ranges and operands are sound, R150, R387: a poisoned tile is an operand fault. -/
def epiSound (s : State) (r : Req) (e : EpiBlock) : Bool :=
  let tl := s.tileAt r.gang r.quad (s.ringTail r.gang r.quad)
  tl.rows == 0 || tl.cols == 0 ||
  (!tl.poison && (span 0 tl.cols).all (fun j => (s.biasAt r e j).isSome) &&
   (span 0 tl.rows).all fun i => s.allocated r.gang (e.out + i * e.ostr) (tl.cols * outSize e.outfmt))

/-- An epilogue of the tail tile: the output performed at the owning scratchpad, then the release with REL, R147; an `rst` of the tile
that is in flight leaves an undefined value, R148. -/
def runEpilogue (s : State) (r : Req) (e : EpiBlock) : State :=
  let gang := r.gang
  let quad := r.quad
  let pos := s.ringTail gang quad
  let tl := s.tileAt gang quad pos
  let size := outSize e.outfmt
  let s1 := if tl.cols = 0 then s else (span 0 tl.rows).foldl (fun s' i =>
    let bs := (span 0 tl.cols).flatMap fun j =>
      leBytes size (epiElem e (s.epiValue gang quad pos tl.kind i j) (((s.biasAt r e j).getD 0).toNat))
    (s'.spadWrite gang (e.out + i * e.ostr) bs false)) s
  let s2 := (s1.spoilStores gang quad [pos]).settleObjects gang
  if e.rel then s2.releaseTail gang quad else s2

/-- Whether the tile at a count is in use for an `rst`: a request targets it, or it is the tail and its epilogue may run, R148. -/
def tileInUse (s : State) (gang quad count : Nat) : Bool :=
  s.tileTargeted gang quad count || (s.ringTail gang quad == count && (s.stream gang quad).values.any s.epiReady)

/-- A slot of the tile at a count is left undefined for the requests that have still to write there, R148. -/
def spoil (s : State) (gang quad count n : Nat) : State :=
  { s with reqs := s.reqs.mapVals fun _ r =>
      if r.gang == gang && r.quad == quad && (match r.kind with | .pass _ _ _ => r.kind.targets.contains count && !r.passed | _ => false)
      then { r with spoilt := r.spoilt ++ [(count, n)] } else r }

/-! ## The kill of R151 -/

/-- Whether a request's engine access fails now, R150. -/
def operandFails (s : State) (r : Req) : Bool :=
  (reading r && (s.readReq r).isNone) ||
  (match epiOf r with
   | some e => s.epiReady r && !s.epiSound r e
   | none => false)

/-- A gang queued again from its task record, under a number of its own, ahead of the pending gangs of its queue, R151. -/
def relaunch (s : State) (gang : Nat) : State :=
  match s.gangs.find? gang with
  | none => s
  | some g =>
    let n := s.nextId
    let fresh : Gang := { g with stat := .pending, cores := [], preempt := none, deadTeams := 0, wake := none, planes := [] }
    let s1 := { s with gangs := s.gangs.put n fresh, nextId := n + 1 }
    let s2 := s1.updTask g.task fun k =>
      { k with relaunches := k.relaunches + 1, gangs := k.gangs.map fun x => if x = gang then n else x }
    let q := ((s2.tasks.find? g.task).map (·.queue)).getD 0
    -- what it had adopted now counts as retired with the new gang, R312
    let s3 := { s2 with gangs := s2.gangs.mapVals fun _ x => if x.stat = GStat.adopted gang then { x with stat := GStat.adopted n } else x }
    s3.updQueue q fun x => { x with ahead := x.ahead ++ [n] }

/-- An operand fault, R151. -/
def operandFault (s : State) (gang : Nat) : State :=
  match s.gangs.find? gang with
  | none => s
  | some g => match s.tasks.find? g.task with
    | none => s
    | some k =>
      let s1 := s.killGang gang
      if k.record.flags.getLsbD 0 then
        if k.relaunches < k.record.rlimit then s1.relaunch gang
        else s1.updTask g.task fun k => { k with doomed := k.doomed.or (some .relaunchLimit) }
      else s1.updTask g.task fun k => { k with doomed := k.doomed.or (some .matrixOperand) }

end State

/-- `rst`, R159: the sources are read in field order, S then V, and before the FORMAT check (log entry 46). One made while a request targets
the tile, or its epilogue may run, leaves an undefined value, also once the request has written there, and so does one in flight when a
request comes to target the tile or its epilogue runs (R148, log entry 1). -/
def execRst (r : BitVec 5) (o : BitVec 3) (v : BitVec 5) (ct : Ctl) (st : State) : Out :=
  .next (st.issue ct 4 fun s t => State.laneS s do
    let y ← s.readSrc t r.toNat Acc.any
    let x ← s.readSrc t v.toNat Acc.any
    let n ← ringTile s t o.toNat
    State.roomIn (s.thread t).st
    let d := if s.tileInUse (gangOf t) (s.quadOf t) n then Config.freeWord (s.freeCtr * 65536 + laneOf t * 32) else y
    let s1 := s.spoil (gangOf t) (s.quadOf t) n (x.toNat % 16384)
    .ok ((s1.addOp t (.ringStore (s.quadOf t) (n % s.ringC (gangOf t)) (x.toNat % 16384) n d)).incSt t, .done Done.nothing))

/-! ## The events -/

/-- A saved plane is loaded in its turn, R384: it fills the shadow plane for its crew, and an active one is swapped in with it. -/
def State.restorePlane (s : State) (id : Nat) (r : Req) (p : Plane) (act : Bool) : State :=
  let own : Plane := { p with owner := some (crewOf r.thread) }
  let s0 := { s with reqs := s.reqs.erase id }.nextEntry r.gang r.quad
  if act then
    { s0 with active := s.active.put r.quad own, shadow := s.shadow.put r.quad ((s.active.find? r.quad).getD ⟨none, 0, []⟩) }
  else { s0 with shadow := s.shadow.put r.quad own }

/-- `MATRIX_GRANT`, R134: one ready entry of the quad is granted, as the arbiter chooses. -/
def execMatrixGrant (quad : Nat) (s : State) : Out :=
  .next (
    match s.pickEntry quad with
    | none => s
    | some (id, r) =>
      let s1 := s.updReq id fun x => { x with granted := some s.nextId, readyAt := none, fed := x.kind.isRestore }
      { s1 with nextId := s1.nextId + 1 }.reserve r)

/-- `MATRIX_ENTRY_AGEING`, R134: an entry ready for 8,192 cycles has priority 3, whether or not this has been noted in it. -/
def execMatrixEntryAgeing (req : Nat) (s : State) : Out :=
  .next (s.updReq req fun r =>
    match r.readyAt with
    | some a => if 8192 ≤ s.clock - a then { r with aged := true } else r
    | none => r)

/-- `CURRENT_PERMIT`, R135, R417: the oldest granted pass of the engine may begin; the wait is counted. -/
def execCurrentPermit (site : PermitSite) (cycles : Nat) (s : State) : Out :=
  .next (match site with
    | .engine quad =>
      let waiting := (s.reqs.filter fun kr =>
        kr.2.quad == quad && kr.2.granted.isSome && !kr.2.permit && (match kr.2.kind with | .pass _ _ _ => true | _ => false))
      match waiting.foldl (fun (best : Option (Nat × Req)) kr => match best with
          | none => some kr
          | some b => if kr.2.granted.getD 0 < b.2.granted.getD 0 then some kr else best) none with
      | none => s
      | some kr =>
        let s1 := s.updReq kr.1 fun r => { r with permit := true }
        let w := s1.regs.pmtWait.get 0 quad + BitVec.ofNat 64 cycles
        { s1 with regs := { s1.regs with pmtWait := s1.regs.pmtWait.set 0 quad w } }
    | .ferry die =>
      let w := s.regs.pmtDie.get 0 die + BitVec.ofNat 64 cycles
      { s with regs := { s.regs with pmtDie := s.regs.pmtDie.set 0 die w } })

/-- `OPERANDS_CONSUMED`, R149, R156: one sector of the operands is read ahead, or else all that is left of them with the epilogue's bias,
and the consumed arrival is made; where no arrival is named, a sector of the bias may be read again until the request completes. -/
def execOperandsConsumed (turn : OperandTurn) (s : State) : Out :=
  .next (match s.reqs.find? turn.req with
    | none => s
    | some r =>
      if State.biasOpen r then
        match turn.sector with
        | some n => s.updReq turn.req fun x => s.rereadBias x n
        | none => s
      else if !State.reading r then s
      else match turn.sector with
        | some n => s.updReq turn.req fun x => s.readSector x n
        | none => match s.readReq r, State.blockOf r.kind with
          | some (a, w), some b =>
            let bias := match r.kind with | .pass _ _ (some e) => s.readBias r e | _ => []
            (s.updReq turn.req fun x => { x with fed := true, aBits := a, bBits := w, bias := bias, sectors := [] }).engineArrive
              r.gang b.consumed
          | _, _ => s)

/-- `MATRIX_REQUEST_COMPLETE`, R156: the shadow plane holds the tile, or the result is in the ring; a request with EPI then
starts its epilogue, and completes with it. -/
def execMatrixRequestComplete (req : Nat) (s : State) : Out :=
  .next (match s.reqs.find? req with
    | none => s
    | some r =>
      if !r.fed || r.passed || !s.turnOf r then s
      else match r.kind with
        | .load b =>
          let s1 := { s with shadow := s.shadow.put r.quad ⟨some (crewOf r.thread), b.bfmt, r.bBits⟩ }
          s1.finishReq req r b.done
        | .pass b pos epi =>
          let s1 := s.runPass r b pos
          match epi with
          | none => s1.finishReq req r b.done
          | some _ =>
            let s2 := s1.updReq req fun x => { x with passed := true, epiNo := some s1.nextId }
            { s2 with nextId := s2.nextId + 1 }
        | .restore p act => s.restorePlane req r p act
        | _ => s)

/-- `EPILOGUE`, R146, R147: the output, the release, and the completion of the request or `repi` that started it. -/
def execEpilogue (req : Nat) (s : State) : Out :=
  .next (match s.reqs.find? req with
    | none => s
    | some r => match State.epiOf r with
      | none => s
      | some e =>
        if !s.epiReady r || !s.epiSound r e then s
        else
          let s1 := s.runEpilogue r e
          s1.finishReq req r (((State.blockOf r.kind).map (·.done)).getD 0))

/-- The effect of a release, R160, R164: once it may take effect, the tail goes if it is closed. -/
def State.releaseNow (s : State) (req : Nat) : State :=
  match s.reqs.find? req with
  | none => s
  | some r => match r.kind with
    | .release =>
      if !s.releaseReady req r then s
      else
        let s1 := if s.ringTail r.gang r.quad < s.ringHead r.gang r.quad then s.releaseTail r.gang r.quad else s
        s1.finishReq req r 0
    | _ => s

/-- The effect of a clear, R160, R164: once every earlier request that targets its position is complete, the tile is zeroed, unless it has
been released by then. -/
def State.clearNow (s : State) (req : Nat) : State :=
  match s.reqs.find? req with
  | none => s
  | some r => match r.kind with
    | .clear pos none_ =>
      let clear := (s.stream r.gang r.quad).all fun kx =>
        !(decide (kx.1 < req) && kx.2.kind.array && kx.2.kind.targets.contains pos)
      if !clear then s
      else (if none_ || decide (pos < s.ringTail r.gang r.quad) then s else s.zeroTile r.gang r.quad pos).finishReq req r 0
    | _ => s

/-- `rrel`, R160; it takes effect at once where nothing is left to wait for. -/
def execRrel (ct : Ctl) (st : State) : Out :=
  .next (st.issue ct 4 fun s t => State.laneS s do
    State.roomIn (s.thread t).tl
    .ok ((s.enterStream t 0 .release).releaseNow s.nextId, .done Done.nothing))

/-- `RREL_EFFECT`, R160. -/
def execRrelEffect (req : Nat) (s : State) : Out := .next (s.releaseNow req)

/-- `rclr`, R160: it names H, and has no effect where the ring has no open head; it takes effect at once where nothing is left
to wait for. -/
def execRclr (ct : Ctl) (st : State) : Out :=
  .next (st.issue ct 4 fun s t => State.laneS s do
    State.roomIn (s.thread t).tl
    let g := gangOf t
    let h := s.ringHead g (s.quadOf t)
    let s1 := s.enterStream t 0 (.clear h (decide (s.ringTail g (s.quadOf t) + s.ringC g ≤ h)))
    .ok (s1.clearNow s.nextId, .done Done.nothing))

/-- `RCLR_EFFECT`, R160. -/
def execRclrEffect (req : Nat) (s : State) : Out := .next (s.clearNow req)

/-- `MATRIX_OPERAND_FAULT`, R150, R151: an engine access that fails kills the gang. -/
def execMatrixOperandFault (req : Nat) (s : State) : Out :=
  .next (match s.reqs.find? req with
    | none => s
    | some r => if s.operandFails r then s.operandFault r.gang else s)

end Sys2Proof.Machine
end

