-- ==== Sys2Proof/Machine/Place.lean ====
section
/-! DEFINITION. The distributor: which gangs are pending, whether one fits and where (R309, R310, R385, R432), the state of
its threads at placement and resumption (R178, R262, R383, R384), and its event. -/

namespace Sys2Proof.Machine

/-! ## Where a gang can stand, R10, R194, R303, R310 -/

/-- The quads of a partition. -/
def partQuads (p : Nat) : List Nat :=
  let d := p / 5
  let k := p % 5
  if k = 0 then span (d * 24) 4 else span (d * 24 + 5 * k - 1) 5

/-- A team to be placed: its index and the indices of its crews that still need a place. -/
structure TeamNeed where
  team : Nat
  crews : List Nat
  deriving DecidableEq, Repr

/-- Where a team goes: its core, and each crew's quarter and slot. -/
structure Spot where
  team : Nat
  core : Nat
  crews : List (Nat × Nat × Nat)
  deriving DecidableEq, Repr

namespace State

/-- The quads on which a world's gangs are placed, ascending: those of its partitions; kernel-mode gangs of world 0 stand on
the service cores, R10, R194. -/
def worldQuads (s : State) (w : Nat) : List Nat :=
  if w = 0 then (span 0 8).map (· * 24)
  else ((span 0 40).filter fun p => ((s.worlds.find? w).getD World.fresh).mask.getLsbD p).flatMap partQuads

/-- The quads in search order, R310: from the first after the pointer, cyclically. -/
def searchOrder (s : State) (w : Nat) : List Nat :=
  let qs := s.worldQuads w
  match ((s.worlds.find? w).getD World.fresh).pointer with
  | none => qs
  | some p => qs.filter (fun q => decide (p < q)) ++ qs.filter (fun q => decide (q ≤ p))

/-- Whether a core may hold a crew of a mode, R10. -/
def coreFits (core : Nat) (kernel : Bool) : Bool := (core % 96 == 0) == kernel

/-- The resident gangs with their records. -/
def residents (s : State) : List (Nat × Gang × TaskRec) :=
  s.gangs.filterMap fun kg =>
    if kg.2.stat = GStat.resident then (s.tasks.find? kg.2.task).map fun k => (kg.1, kg.2, k.record) else none

/-- Scratchpad bytes in use on a core: each team's allocation is rounded up to 128. -/
def spadUsed (s : State) (core : Nat) : Nat :=
  (s.residents.map fun g =>
    ((span 0 g.2.2.teams).filter fun i => g.2.1.cores.find? i == some core && !g.2.1.deadTeams.getLsbD i).length
      * ((g.2.2.spad + 127) / 128 * 128)).sum

/-- Ring tiles free on a quad. -/
def ringsFree (s : State) (quad : Nat) : Nat :=
  Config.ringTiles - (s.residents.map fun g =>
    if (span 0 g.2.2.teams).any fun i => (g.2.1.cores.find? i).any fun c => c / 4 == quad then g.2.1.rings else 0).sum

/-- Whether a quarter admits a crew beside those it holds and `extra` more of the same record, R303. -/
def rowsAdmit (s : State) (quarter floor peak extra : Nat) : Bool :=
  let cs := s.crewsOn quarter
  let floors := (cs.map s.floorOf).sum + (extra + 1) * floor
  let most := (cs.map fun c => s.peakOf c - s.floorOf c).foldl max (peak - floor)
  decide (floors + most ≤ Config.quarterRows)

/-- The lowest free crew slot of a quarter. -/
def freeSlot (s : State) (quarter : Nat) (taken : List Nat) : Option Nat :=
  let used := (s.crews.filter fun kc => kc.2.quarter == quarter && !kc.2.retired).map fun kc => kc.2.slot
  (span 0 16).find? fun i => !used.contains i && !taken.contains i

/-- The places of a team's crews on a core, quarters 0 to 3, lowest first. -/
def fitCrews (s : State) (core floor peak : Nat) (crews : List Nat) : Option (List (Nat × Nat × Nat)) :=
  crews.foldl (fun (acc : Option (List (Nat × Nat × Nat))) c =>
    match acc with
    | none => none
    | some done =>
      let try_ := (span (core * 4) 4).filterMap fun q =>
        let mine := done.filter fun d => d.2.1 == q
        if s.rowsAdmit q floor peak mine.length then (s.freeSlot q (mine.map (·.2.2))).map fun sl => (c, q, sl) else none
      match try_ with
      | x :: _ => some (done ++ [x])
      | [] => none) (some [])

/-- A team on a core. -/
def fitTeam (s : State) (core : Nat) (r : TaskRec) (n : TeamNeed) : Option Spot :=
  if coreFits core r.isKernel && decide (s.spadUsed core + (r.spad + 127) / 128 * 128 ≤ Config.coreSpad) then
    (s.fitCrews core r.floor r.peak n.crews).map fun cs => ⟨n.team, core, cs⟩
  else none

/-- Teams on distinct cores of a list, each on the first left that fits it; the cores left. -/
def fitTeams (s : State) (r : TaskRec) : List Nat → List TeamNeed → Option (List Spot)
  | _, [] => some []
  | cores, n :: ns =>
    match (cores.filterMap fun c => s.fitTeam c r n).head? with
    | none => none
    | some sp => (s.fitTeams r (cores.filter (· != sp.core)) ns).map (sp :: ·)

/-- The quads of a list with enough ring tiles free. -/
def ringQuads (s : State) (rings : Nat) (quads : List Nat) : List Nat :=
  quads.filter fun q => decide (rings ≤ s.ringsFree q)

/-- A SPREAD gang: each team on the next quad that fits it. -/
def fitSpread (s : State) (r : TaskRec) : List Nat → List TeamNeed → Option (List Spot)
  | _, [] => some []
  | [], _ :: _ => none
  | q :: qs, n :: ns =>
    match ((span (q * 4) 4).filterMap fun c => s.fitTeam c r n).head? with
    | none => s.fitSpread r qs (n :: ns)
    | some sp => (s.fitSpread r qs ns).map (sp :: ·)

/-- Where a gang fits now in its world, R310. -/
def fitGang (s : State) (w : Nat) (r : TaskRec) (rings : Nat) (ns : List TeamNeed) : Option (List Spot) :=
  let quads := s.ringQuads rings (s.searchOrder w)
  if w = 0 && !r.isKernel then none
  else if r.isSpread then s.fitSpread r quads ns
  else if r.isSpan then s.fitTeams r (quads.flatMap fun q => span (q * 4) 4) ns
  else (quads.filterMap fun q => s.fitTeams r (span (q * 4) 4) ns).head?

/-- What a gang needs: all its teams, or on resumption what remains of it, R385. -/
def needs (s : State) (r : TaskRec) (gang : Option Nat) : List TeamNeed :=
  let all := (span 0 r.teams).map fun i => (⟨i, span 0 r.crews⟩ : TeamNeed)
  match gang.bind fun g => (s.gangs.find? g).map fun x => (g, x) with
  | none => all
  | some (g, x) =>
    if x.stat = GStat.pending then all
    else (all.filter fun n => !x.deadTeams.getLsbD n.team).map fun n =>
      { n with crews := n.crews.filter fun c => !s.crewDone ((g * 16 + n.team) * 32 + c) }

/-! ## Which gang comes next, R309, R310 -/

/-- Whether a task's gangs may be placed. -/
def servable (k : Task) : Bool := k.stage == .leased && k.code.isNone

/-- Whether a gang of a task may be placed: the Pool pages of its lease are in their frames and pinned, R15; one that is to end with the
code of an operand fault places only what it has saved, R151 (log entry 48). -/
def mayStart (s : State) (k : Task) (gang : Option Nat) : Bool :=
  servable k && (k.pins.all fun p => (s.frames.find? p).any fun f => decide (0 < f.pins)) &&
    (k.doomed.isNone || (gang.bind s.gangs.find?).any fun g => decide (g.stat ≠ GStat.pending))

/-- The pending gangs of a queue in a class, those that go ahead first; the gangs of one grid, which need the same, appear as one. Each
with its task, and its number if it is there already. -/
def pendingOf (s : State) (q : Nat) (qu : Queue) (cls : Nat) : List (Nat × Task × Option Nat) :=
  let back := qu.ahead.filterMap fun g =>
    (s.gangs.find? g).bind fun x => (s.tasks.find? x.task).map fun k => (x.task, k, some g)
  let grid := s.tasks.filterMap fun kt =>
    if kt.2.queue = q ∧ kt.2.next < kt.2.record.gangCount then some (kt.1, kt.2, none) else none
  (back ++ grid).filter fun x => s.mayStart x.2.1 x.2.2 && x.2.1.cls == cls

/-- The next pending gang of a queue in a class. -/
def nextPending (s : State) (q : Nat) (qu : Queue) (cls : Nat) : Option (Nat × Task × Option Nat) := (s.pendingOf q qu cls).head?

/-- Ring tiles that a gang holds. -/
def ringsOf (s : State) (k : Task) (gang : Option Nat) : Nat :=
  ((gang.bind s.gangs.find?).map (·.rings)).getD k.record.ring

/-- Where a pending gang fits. -/
def fitPending (s : State) (w : Nat) (x : Nat × Task × Option Nat) : Option (List Spot) :=
  s.fitGang w x.2.1.record (s.ringsOf x.2.1 x.2.2) (s.needs x.2.1.record x.2.2)

/-- The device as it would be with the resident gangs of lower classes of a world gone, R432. -/
def withoutLower (s : State) (w cls : Nat) : State :=
  let low (g : Nat) : Bool := match s.gangs.find? g with
    | none => false
    | some x => match s.tasks.find? x.task with
      | none => false
      | some k => decide (x.stat = GStat.resident) && k.world == w && decide (k.cls < cls)
  { s with
    crews := s.crews.keep fun c _ => !low (c / 512)
    gangs := s.gangs.mapVals fun g x => if low g then { x with stat := .image } else x }

/-- The queues of a world. -/
def queuesOf (s : State) (w : Nat) : FMap Queue := s.queues.keep fun _ q => q.world == w

/-- The next pending gang of a class in each queue of a world. -/
def pendings (s : State) (w cls : Nat) : List (Nat × Nat × Task × Option Nat) :=
  (s.queuesOf w).filterMap fun kq => (s.nextPending kq.1 kq.2 cls).map fun x => (kq.1, x)

/-- Every pending gang of a class in a world. -/
def allPending (s : State) (w cls : Nat) : List (Nat × Task × Option Nat) :=
  (s.queuesOf w).flatMap fun kq => s.pendingOf kq.1 kq.2 cls

/-- The class that the distributor serves in a world, R309: the highest with a pending gang that fits now, or would once
lower classes had left. -/
def servedClass (s : State) (w : Nat) : Option Nat :=
  ((span 0 8).reverse).find? fun c => (s.allPending w c).any fun x =>
    (s.fitPending w x).isSome || ((s.withoutLower w c).fitPending w x).isSome

/-- Whether a world's queues are stopped: its interface does not run, or a checkpoint or restore quiesces it, R198,
R389 to R392. -/
def placingStopped (s : State) (w : Nat) : Bool :=
  let wd := (s.worlds.find? w).getD World.fresh
  (w != 0 && !wd.running) || wd.restoring || (wd.trigger && (s.snaps.find? w).isNone)

/-! ## Placement -/

/-- A register row that holds one word in some lanes, tagged CAP. -/
def capRow (v : BitVec 32) (lanes : BitVec 32) : Row :=
  ⟨11, 0, (span 0 32).filterMap fun l => if lanes.getLsbD l then some (l, v) else none, lanes, [], false⟩

/-- The registers of `c0` and `c1` at task entry, in the lanes of a crew that enter, R178, R383. -/
def entryRegs (s : State) (r : TaskRec) (crew : Nat) (lanes : BitVec 32) : State :=
  let c1 := Cap.make 1 0x5B 15 512 0 (crew / 32 % 16 * 2 ^ 20)
  let rows := (span 0 4).foldl (fun (m : FMap Row) i =>
    (m.put (crew * 32 + i) (capRow (r.param.bits.extractLsb' (32 * i) 32) lanes)).put (crew * 32 + 4 + i)
      (capRow (c1.extractLsb' (32 * i) 32) lanes)) s.rows
  let v0 := s.valid.set 0 (crew * 8) (if r.param.tag then lanes else 0)
  { s with rows := rows, valid := v0.set 0 (crew * 8 + 1) lanes }

/-- The lanes of a crew whose threads have not exited. -/
def livingLanes (s : State) (crew : Nat) : BitVec 32 :=
  laneMask ((span 0 32).filter fun l => (s.thread (crew * 32 + l)).stat != .exited)

/-- The threads of a crew at first placement. -/
def freshThreads (s : State) (r : TaskRec) (crew : Nat) : State :=
  let pc := r.code.cap.base + r.entry
  let h := { Thread.fresh pc with since := s.clock, seen := s.lastEvent }
  { s with threads := (span (crew * 32) 32).foldl (fun (m : FMap Thread) t => m.put t h) s.threads }

/-- The threads of a crew as they resume: those that an image holds go on at their run entries or in their `bwait`s, R384,
R314; those that parked in a save handler enter the restore handler in user mode, R383. What a thread's `halt` has seen stays, R400. -/
def resumeThreads (s : State) (r : TaskRec) (crew : Nat) : State :=
  (span (crew * 32) 32).foldl (fun s t =>
    let h := s.thread t
    let s1 := s.updThread t fun h => { h with clkHi := 0, since := s.clock, age := 0 }
    match h.stat with
    | .saved =>
      if s.handlerOk t r.restore then
        s1.updThread t fun h =>
          { Thread.fresh ((s.pccOf t).base + r.restore) with
            tpc := h.tpc, tcause := Cause.preempt, handling := true, resume := true, drops := h.drops, hints := h.hints,
            since := s.clock, seen := h.seen, user := true }
      else s1.endTask (s.taskOf t) .handlerFault (some (Cause.preempt, h.tpc, 0))
    | .stopped => s1.enter t h.pc
    | .bwait _ _ _ _ => s1.settleBwait t
    | _ => s1) s

/-- RESUME reads as 1 in the threads of a gang that was pre-empted, R82, R385. -/
def markResumed (s : State) (crew : Nat) : State :=
  (span (crew * 32) 32).foldl (fun s t => s.updThread t fun h => { h with resume := true }) s

/-- A gang's ring on its quads moved to those of its new placement, by the teams that stood there, R310, R384. -/
def moveRing (s : State) (g : Nat) (old : FMap Nat) (spots : List Spot) : State :=
  let pairs := (spots.filterMap fun sp => (old.find? sp.team).map fun c => (sp.core / 4, c / 4))
  let news := (pairs.map (·.1)).eraseDups
  let src (q : Nat) : Nat := ((pairs.find? fun p => p.1 == q).map (·.2)).getD q
  let mine (per : Nat) (k : Nat) : Bool := k / (192 * per) == g
  let move {α : Type} (per : Nat) (m : FMap α) : FMap α :=
    news.foldl (fun (m' : FMap α) q =>
      (m.slice ((g * 192 + src q) * per) ((g * 192 + src q + 1) * per)).foldl (fun (m'' : FMap α) kv =>
        m''.put (kv.1 - (g * 192 + src q) * per + (g * 192 + q) * per) kv.2) m') (m.keep fun k _ => !mine per k)
  { s with ringH := move 1 s.ringH, ringT := move 1 s.ringT, tiles := move 16 s.tiles, ring := move 262144 s.ring }

/-- The requests that load a gang's saved planes, active ones first, ahead of its other requests, R384; as any request, one that finds no
entry of the gang free waits for it, R133. -/
def restorePlanes (s : State) (g : Nat) (planes : List (Nat × Bool × Plane)) : State :=
  (planes.filter (·.2.1) ++ planes.filter (fun p => !p.2.1)).foldl (fun s p =>
    let t := p.1 * 32
    let q := s.quadOf t
    let held := ((s.stream g q).values.filter fun r => r.tabled).length
    let r : Req :=
      { gang := g, quad := q, thread := t, kind := .restore p.2.2 p.2.1, prio := 0, tabled := decide (held < s.ringC g),
        readyAt := none, aged := false, permit := false, granted := none, fed := false, passed := false, aBits := [], bBits := [],
        bias := [], sectors := [], spoilt := [], epiNo := none }
    { s with reqs := s.reqs.put s.nextId r, nextId := s.nextId + 1 }) s

/-- The clean bytes of the caches that a gang will use are discarded, R262. -/
def discardFor (s : State) (spots : List Spot) : State :=
  let units := (spots.flatMap fun sp => [sp.core, quadUnit sp.core]).eraseDups
  units.foldl discardUnit s

/-- The last quad in search order that a placement occupies. -/
def lastQuad (order : List Nat) (spots : List Spot) : Option Nat :=
  (order.filter fun q => spots.any fun sp => sp.core / 4 == q).getLast?

/-- A gang takes its places, R310: crews, registers, threads, ring, planes; the pointer and the queue's turn move on. -/
def placeAt (s : State) (w q g : Nat) (k : Task) (spots : List Spot) : State :=
  let old := s.gangs.find? g
  let was := (old.map (·.stat)).getD GStat.pending
  let order := s.searchOrder w
  let stamp := s.nextId
  let s0 := { s.discardFor spots with nextId := stamp + 1 }
  let cores := spots.foldl (fun (m : FMap Nat) sp => m.put sp.team sp.core) []
  let s1 := s0.updGang g fun x =>
    { x with
      stat := .resident, cores := cores, preempt := none, wake := none, planes := [], placed := stamp, placedAt := s.clock }
  let s2 := s1.moveRing g ((old.map (·.cores)).getD []) spots
  let s3 := spots.foldl (fun s sp => sp.crews.foldl (fun s c =>
    let crew := (g * 16 + sp.team) * 32 + c.1
    -- a restore handler that cannot be entered has ended the task, R383
    if (s.gangs.find? g).any fun x => decide (x.stat = GStat.resident) then
      let s' := { s with crews := s.crews.put crew ⟨c.2.1, c.2.2, stamp, false⟩ }
      match was with
      | .image => (s'.resumeThreads k.record crew).markResumed crew
      | .swapped => s'.resumeThreads k.record crew
      | .residue => (s'.entryRegs k.record crew (s'.livingLanes crew)).resumeThreads k.record crew
      | _ => (s'.entryRegs k.record crew (BitVec.allOnes 32)).freshThreads k.record crew
    else s) s) s2
  let s4 := s3.restorePlanes g (if (s3.gangs.find? g).any fun x => decide (x.stat = GStat.resident) then (old.map (·.planes)).getD [] else [])
  let s5 := s4.updQueue q fun x => { x with ahead := x.ahead.filter (· != g) }
  s5.updWorld w fun x => { x with pointer := (lastQuad order spots).or x.pointer, lastQ := q }

/-- A positive deficit of a queue that has no pending gang of any class becomes 0, R309. -/
def settleDeficits (s : State) : State :=
  if s.queues.values.all fun x => decide (x.deficit ≤ 0) then s
  else { s with queues := s.queues.mapVals fun q x =>
      if 0 < x.deficit ∧ ((span 0 8).all fun c => (s.nextPending q x c).isNone) = true then { x with deficit := 0 } else x }

/-- One pass of the deficit round robin over some queues, R309: where none has a positive deficit, each takes its quantum. -/
def quanta (s : State) (qs : List Nat) : State :=
  if qs.any fun q => (s.queues.find? q).any fun x => decide (0 < x.deficit) then s
  else qs.foldl (fun s q => s.updQueue q fun x => { x with deficit := clampD (x.deficit + x.quantum.toNat) }) s

/-- Queues in number order from the one after the last served. -/
def fromTurn (last : Nat) (qs : List (Nat × Nat × Task × Option Nat)) : List (Nat × Nat × Task × Option Nat) :=
  qs.filter (fun x => decide (last < x.1)) ++ qs.filter (fun x => decide (x.1 ≤ last))

end State

/-- `PLACE_GANG`, R309, R310: the distributor places the next gang of a world. -/
def execPlaceGang (world : Nat) (s : State) : Out :=
  .next (
    if s.placingStopped world then s
    else
      match s.servedClass world with
      | none => s
      | some cls =>
        let ps := s.pendings world cls
        let s2 := s.quanta (ps.map (·.1))
        let last := ((s2.worlds.find? world).getD World.fresh).lastQ
        let able := (State.fromTurn last ps).filterMap fun x =>
          if (s2.queues.find? x.1).any fun q => decide (0 < q.deficit) then (s2.fitPending world x.2).map fun sp => (x, sp)
          else none
        match able with
        | [] => s2
        | (x, spots) :: _ =>
          match x.2.2.2 with
          | some g => s2.placeAt world x.1 g x.2.2.1 spots
          | none =>
            let r := s2.takeGang x.2.1 .pending
            r.1.placeAt world x.1 r.2 x.2.2.1 spots)

end Sys2Proof.Machine
end

