-- ==== Sys2Proof/Machine/System.lean ====
section
/-! DEFINITION. Context records, revocation sweeps, service batches and the fault log (spec/25, R398 to R403), the walk that
a sweep makes (R180 to R182), and the two illegal encodings that a group meets (R35, R42, R56). -/

namespace Sys2Proof.Machine

/-! ## Records reached through SERVICE capabilities -/

namespace State

/-- The places of `n` bytes from an address, cut where a 64 KiB block ends; none outside the lease. -/
def parts (s : State) (t : Nat) (c : Cap) (ea n : Nat) (write : Bool) : State × Option (List (Place × Nat)) :=
  let first := min n (65536 - ea % 65536)
  match s.place t c ea write with
  | (s1, none) => (s1, none)
  | (s1, some p) =>
    if n = first then (s1, some [(p, n)])
    else match s1.place t c (ea + first) write with
      | (s2, none) => (s2, none)
      | (s2, some q) => (s2, some [(p, first), (q, n - first)])

/-- The kernel-mode check and the checks of R395 on group `k`: the address. -/
def serviceRef (s : State) (t k : Nat) (word : BitVec 32) (perm : Cap → Bool) (n align : Nat) : Rd Nat := do
  s.kernelCheck t word
  s.capPoison t k
  let ea := s.effAddr t k 0
  s.capChecks t k (· == 4) perm ea n align (addrNo ea)
  .ok ea.toNat

/-- Whether the thread's own earlier stores still have to reach some of these bytes, R71. -/
def partsPending (s : State) (t : Nat) (ps : List (Place × Nat)) : Bool :=
  s.ops.values.any fun o => o.thread == t &&
    o.kind.ranges.any fun r => r.2.2 && ps.any fun p => overlaps r.1 r.2.1 p.1 p.2

/-- Whether the caches have room for the lines of a record, R11. -/
def partsRoom (s : State) (t : Nat) (ps : List (Place × Nat)) : Bool :=
  s.reenc.isEmpty || s.roomFor (s.coreOf t) (s.worldOf t) ((ps.flatMap fun p => match p.1 with
    | .global pa => span (pa / 128) ((pa + p.2 - 1) / 128 + 1 - pa / 128)
    | .scratch _ _ => []).eraseDups)

end State

/-- The issue of an operation on a record once its checks have passed; outside the lease the task ends, R213. -/
def atParts (s : State) (t : Nat) (c : Cap) (ea n : Nat) (write : Bool)
    (k : State → List (Place × Nat) → State × LaneRes) : State × LaneRes :=
  match s.parts t c ea n write with
  | (s1, some ps) => k s1 ps
  | (s1, none) => (s1, .ends .lease)

/-! ## Context records, R398, R399 -/

/-- The 256 bytes of a thread's context record. -/
def contextBytes (s : State) (t : Nat) : List (BitVec 8) :=
  let h := s.thread t
  let live (v : Nat) : Bool := (s.row (crewOf t) v).live.getLsbD (laneOf t)
  let tagWord (v : Nat) : Nat :=
    let g := s.tagOf t v
    g.1.toNat + g.2.toNat * 2 ^ 4 + (if live v then 2 ^ 11 else 0)
  let valid := ((span 0 8).map fun k => if s.validBit t k then 2 ^ (16 + k) else 0).sum
  ((span 0 32).flatMap fun v => leBytes 4 (s.reg t v).toNat) ++ ((span 0 32).flatMap fun v => leBytes 2 (tagWord v))
    ++ leBytes 4 (h.preds.toNat + valid + (if h.handling then 2 ^ 24 else 0)) ++ leBytes 4 h.fctl.toNat
    ++ leBytes 4 h.tpc.toNat ++ leBytes 4 h.tcause.toNat ++ leBytes 4 h.tval.toNat ++ List.replicate 44 0

/-- Bytes dealt out to the parts of a record. -/
def deal : List (Place × Nat) → List (BitVec 8) → List (Place × List (BitVec 8))
  | [], _ => []
  | p :: ps, bs => (p.1, bs.take p.2) :: deal ps (bs.drop p.2)

/-- `ctxsv`, R398, R399. -/
def execCtxsv (c : BitVec 3) (ct : Ctl) (st : State) : Out :=
  .next (st.issue ct 4 fun s t => State.laneS s do
    let ea ← s.serviceRef t c.toNat (insnWord (.ctxsv c ct)) (·.w) 256 64
    failIf ((s.thread t).ld != 0) Cause.format (cntOf (s.thread t))
    State.roomIn (s.thread t).st
    .ok (atParts s t (s.capGroup t c.toNat) ea 256 true fun s ps =>
      ((s.addOp t (.contextStore (deal ps (contextBytes s t)))).incSt t, .done Done.nothing)))

/-- `ctxld`, R399: every register is pending until the record returns. -/
def execCtxld (c : BitVec 3) (ct : Ctl) (st : State) : Out :=
  .next (st.issue ct 4 fun s t => State.laneS s do
    let ea ← s.serviceRef t c.toNat (insnWord (.ctxld c ct)) (·.r) 256 64
    s.rowsFor t (span 0 32)
    State.roomIn (s.thread t).ld
    .ok (atParts s t (s.capGroup t c.toNat) ea 256 false fun s ps =>
      (s.issueLoad t [] (.contextLoad ps) (span 0 32), .done Done.nothing)))

/-! ## Revocation sweeps, R180 to R182, R401 -/

/-- The offset of the first failing field of a sweep descriptor, R401. -/
def sweepBad (bs : List (BitVec 8)) : Option Nat :=
  let f (o n : Nat) : Nat := leNat ((bs.drop o).take n)
  let count := f 0 1
  let world := f 1 1 % 64
  if count = 0 ∨ 64 < count then some 0
  else if world = 0 ∨ 40 < world then some 1
  else ((span 0 count).flatMap fun m =>
    let base := f (16 + 16 * m) 8
    let len := f (24 + 16 * m) 8
    (if base % 4096 ≠ 0 ∨ 2 ^ 56 ≤ base ∨ 2 ^ 56 < base + len then [16 + 16 * m] else [])
      ++ (if len = 0 ∨ len % 4096 ≠ 0 then [24 + 16 * m] else [])).head?

/-- The ranges of a descriptor. -/
def sweepRanges (bs : List (BitVec 8)) : List (Nat × Nat) :=
  let f (o n : Nat) : Nat := leNat ((bs.drop o).take n)
  (span 0 (f 0 1)).map fun m => (f (16 + 16 * m) 8, f (24 + 16 * m) 8)

/-- A capability of a record that loses its tag where it is marked, R181. -/
def TCap.swept (marks : List (BitVec 8) → Bool) (c : TCap) : TCap :=
  if c.tag && marks (leBytes 16 c.bits.toNat) then { c with tag := false } else c

/-- A task whose parameter capability loses its tag where it is marked, R181; and so do its code, completion and region capabilities before
they have become a PCC and a lease, R182. -/
def Task.sweepParam (marks : List (BitVec 8) → Bool) (k : Task) : Task :=
  let r := { k.record with param := k.record.param.swept marks }
  if k.stage = .leased ∨ k.stage = .completed then { k with record := r }
  else { k with record := { r with
    code := r.code.swept marks, done := r.done.swept marks, regs := r.regs.map fun c => (c.1.swept marks, c.2) } }

/-- A copy whose bytes in hand, read before they are written, carry no tag of a marked capability, R181. -/
def Job.sweepTags (marks : List (BitVec 8) → Bool) (j : Job) : Job :=
  match j.stage with
  | .moving m =>
    let all := m.got.flatMap fun e => e.getD []
    let grain (b : ReadByte) : Option (Bool × Nat × Nat) := b.from_.map fun p => (isGlobal p, placeKey p / 16, b.turn)
    let word (b : ReadByte) : List (BitVec 8) := (span 0 16).map fun i =>
      ((all.find? fun c => grain c == grain b && c.from_.any fun p => placeKey p % 16 == i).map (·.val)).getD 0
    let clear (b : ReadByte) : ReadByte := if b.tag && marks (word b) then { b with tag := false } else b
    { j with stage := .moving { m with got := m.got.map fun e => e.map fun bs => bs.map clear } }
  | _ => j

namespace State

/-- A word of a sweep report at the home slices: lost where the descriptor's frame is no longer world 0's, R197, R216. -/
def reportWord (s : State) (pa v : Nat) : State := if s.mayUse 0 pa then s.homeWrite pa (leBytes 4 v) false else s

/-- A sweep report: RESTARTS, then STATE, and a service event for the die, R400, R401. -/
def sweepReport (s : State) (d : Nat × Nat) (restarts state_ : Nat) : State :=
  ((s.reportWord (d.1 + 12) restarts).reportWord (d.1 + 8) state_).serviceEvent d.2

/-- Whether a report in some descriptors waits for a re-enciphering, R219. -/
def reportHeld (s : State) (ds : List (Nat × Nat)) : Bool :=
  !s.reenc.isEmpty && ds.any fun d => s.lineHeld ((d.1 + 8) / 128)

/-- A sweep starts, or its ranges join the running one, R180, R401. -/
def startSweep (s : State) (w : Nat) (ranges : List (Nat × Nat)) (d : Nat × Nat) : State :=
  match s.sweeps.find? w with
  | none => { s with sweeps := s.sweeps.put w ⟨ranges, [d], 0, false⟩ }.sweepReport d 0 1
  | some r =>
    let r' : Sweep := ⟨r.ranges ++ ranges, r.descs ++ [d], r.restarts + 1, false⟩
    let s1 := { s with sweeps := s.sweeps.put w r' }
    let s2 := match r.descs with
      | d0 :: _ => s1.reportWord (d0.1 + 12) (r.restarts + 1)
      | [] => s1
    s2.sweepReport d 0 1

/-- Tags of a map of line metadata cleared where a granule holds a marked capability; `byte` reads the stored bytes. -/
def sweepTags (marks : List (BitVec 8) → Bool) (mine : Nat → Bool) (byte : Nat → BitVec 8) (m : FMap LineMeta) :
    FMap LineMeta :=
  (m.mapVals fun x l =>
    if mine x then
      { l with tags := (span 0 8).foldl (fun t i =>
          if t.getLsbD i && marks ((span (x * 128 + i * 16) 16).map byte) then setBit t i false else t) l.tags }
    else l).keep fun _ l => l != LineMeta.clear

/-- The granules of scratchpads whose tags stay. -/
def sweepSpad (marks : List (BitVec 8) → Bool) (mine : Nat → Bool) (byte : Nat → BitVec 8) (m : FMap Bool) : FMap Bool :=
  m.keep fun g _ => !(mine (g / 2 ^ 20) && marks ((span (g * 16) 16).map byte))

/-- The lanes of capability groups that stay valid: `rows` holds the registers. -/
def sweepValid (marks : List (BitVec 8) → Bool) (mine : Nat → Bool) (rows : FMap Row) (m : FMap (BitVec 32)) :
    FMap (BitVec 32) :=
  (m.mapVals fun k v =>
    let crew := k / 8
    if mine (crew / 512) then
      (span 0 32).foldl (fun v l =>
        let word (i : Nat) : BitVec 32 :=
          (((rows.find? (crew * 32 + 4 * (k % 8) + i)).map fun r => r.vals.get 0 l)).getD 0
        if v.getLsbD l && marks ((span 0 4).flatMap fun i => leBytes 4 (word i).toNat) then setBit v l false else v) v
    else v).keep fun _ v => v != 0

/-- A snapshot swept, R181. -/
def sweepSnap (marks : List (BitVec 8) → Bool) (p : Snapshot) : Snapshot :=
  { p with
    meta_ := sweepTags marks (fun _ => true) (p.mem.get 0) p.meta_
    spadTag := sweepSpad marks (fun _ => true) (p.spad.get 0) p.spadTag
    valid := sweepValid marks (fun _ => true) p.rows p.valid
    tasks := p.tasks.mapVals fun _ k => k.sweepParam marks }

/-- The walk of a sweep, R181: every tagged granule of the world's memory, caches and scratchpads, its capability rows, its saved images and
snapshots with the area they stand in, returned frames that are still to be swept, the granules still to be stored, the bytes that copies
carry, and the parameter capabilities of its queued tasks. The whole walk is one move (log entry 55). -/
def sweepWalk (s : State) (w : Nat) : State :=
  let marks := s.marksCap w
  let area := ((s.snaps.find? w).map (·.frames)).getD []
  let line (x : Nat) : Bool := s.listed w (x * 128) || area.contains (x / 512) || s.unswept.contains (x / 512)
  let gang (g : Nat) : Bool := s.gangWorld g == w
  let cmeta := s.cmeta.mapVals fun k m =>
    let x := k % 2 ^ 45
    let u := k / 2 ^ 45
    if m.world == w || (m.world == 63 && line x) then
      { m with tags := (span 0 8).foldl (fun t i =>
          if t.getLsbD i && marks ((span (x * 128 + i * 16) 16).map fun a => ((s.held? u a).map (·.val)).getD 0)
          then setBit t i false else t) m.tags }
    else m
  let ops := s.ops.mapVals fun _ o => match o.kind with
    | .store p d tag => if tag && s.worldOf o.thread == w && marks d then { o with kind := .store p d false } else o
    | .copy j => if s.worldOf o.thread == w then { o with kind := .copy (j.sweepTags marks) } else o
    | _ => o
  let tasks := s.tasks.mapVals fun _ k => if k.world = w then k.sweepParam marks else k
  { s with
    meta_ := sweepTags marks line s.homeByte s.meta_
    cmeta := cmeta
    spadTag := sweepSpad marks gang (s.spad.get 0) s.spadTag
    valid := sweepValid marks gang s.rows s.valid
    ops := ops
    tasks := tasks
    snaps := s.snaps.adjust w (sweepSnap marks)
    durable := s.durable.adjust w (sweepSnap marks) }

end State

/-- `sweep`, R401: the descriptor is read and checked at issue; the instruction is held while the report that it makes must wait (R219). -/
def execSweep (c : BitVec 3) (ct : Ctl) (st : State) : Out :=
  .next (st.issue ct 4 fun s t => State.laneS s do
    let ea ← s.serviceRef t c.toNat (insnWord (.sweep c ct)) (·.r) 1040 16
    .ok (atParts s t (s.capGroup t c.toNat) ea 1040 false fun s ps =>
      if s.acquiring t || s.partsPending t ps || !s.partsRoom t ps then (s, .hold 0)
      else
        let (s1, bs, poison) := s.readParts t ps
        if poison then (s1, .fault Cause.poison (State.addrNo ea))
        else match sweepBad bs, ps with
          | some o, _ => (s1, .fault Cause.format (regNo o))
          | none, (.global pa, _) :: _ =>
            let w := leNat ((bs.drop 1).take 1) % 64
            if s1.reportHeld ((pa, 0) :: ((s1.sweeps.find? w).map (·.descs)).getD []) then (s, .hold 0)
            else (s1.startSweep w (sweepRanges bs) (pa, s.coreOf t / 96), .done Done.nothing)
          | none, _ => (s1, .done Done.nothing)))

/-- `REVOCATION_WALK`, R181. -/
def execRevocationWalk (world : Nat) (s : State) : Out :=
  .next (match s.sweeps.find? world with
    | none => s
    | some r => { s.sweepWalk world with sweeps := s.sweeps.put world { r with walked := true } })

/-- `SWEEP_COMPLETE`, R182, R401: the report in every descriptor; the marks are cleared, and what was revoked is kept with
the durable checkpoint for a restore. -/
def execSweepComplete (world : Nat) (s : State) : Out :=
  .next (match s.sweeps.find? world with
    | none => s
    | some r =>
      if !r.walked || s.reportHeld r.descs then s
      else
        let s1 := r.descs.zipIdx.foldl (fun s di => s.sweepReport di.1 (if di.2 = 0 then r.restarts else 0) 2) s
        let keep (p : Snapshot) : Snapshot := { p with revoked := p.revoked ++ r.ranges }
        { s1 with
          sweeps := s1.sweeps.erase world
          snaps := s1.snaps.adjust world keep
          durable := s1.durable.adjust world keep })

/-! ## Service batches, R316, R355, R402 -/

/-- The batch that the service team of a die takes next, R316: the worlds in turn, each world's batches in arrival order. -/
def nextBatch (s : State) (die : Nat) : Option (Nat × Batch) :=
  let open_ := s.batches.filter fun kb => kb.2.die == die && kb.2.sent.isSome && kb.2.bound.isNone
  let last := s.regs.svcTurn.get 0 die
  let dist (w : Nat) : Nat := (w + 64 - last % 64 + 63) % 64
  open_.foldl (fun (best : Option (Nat × Batch)) kb => match best with
    | none => some kb
    | some b =>
      if dist kb.2.world < dist b.2.world ∨ (kb.2.world = b.2.world ∧ kb.2.sent.getD 0 < b.2.sent.getD 0) then some kb
      else some b) none

/-- `svcget`, R402. -/
def execSvcget (c : BitVec 3) (ct : Ctl) (st : State) : Out :=
  .next (st.issue ct 4 fun s t => State.laneS s do
    let ea ← s.serviceRef t c.toNat (insnWord (.svcget c ct)) (·.r) 1568 16
    State.roomIn (s.thread t).ld
    .ok (atParts s t (s.capGroup t c.toNat) ea 1568 false fun s ps =>
      let die := s.coreOf t / 96
      match nextBatch s die with
      | none => (s.issueLoad t [] (.batchGet ps none 0) [], .done Done.nothing)
      | some (k, b) =>
        let s1 := { s with
          batches := s.batches.put k { b with bound := some (t, ea) }
          regs := { s.regs with svcTurn := s.regs.svcTurn.put die b.world } }
        (s1.issueLoad t [] (.batchGet ps (some k) 0) [], .done Done.nothing)))

/-- The replies of a record: lane, RES0 and RES1 of each entry, R355. -/
def replies (bs : List (BitVec 8)) : List (Nat × BitVec 32 × BitVec 32) :=
  let f (o n : Nat) : Nat := leNat ((bs.drop o).take n)
  (span 0 (min (f 1 1) 32)).map fun e =>
    (f (32 + 48 * e) 1, BitVec.ofNat 32 (f (72 + 48 * e) 4), BitVec.ofNat 32 (f (76 + 48 * e) 4))

/-- A batch answered from a record: callers that an entry names take its words, and every caller goes on, R353, R402. -/
def answer (s : State) (id : Nat) (b : Batch) (rs : List (Nat × BitVec 32 × BitVec 32)) : State :=
  s.reply id b fun l => ((rs.filter fun r => r.1 == l).getLast?).map (·.2)

/-- `svcput`, R402: the batch bound to the record's address is answered at issue, and the record is then zeroed. -/
def execSvcput (c : BitVec 3) (ct : Ctl) (st : State) : Out :=
  .next (st.issue ct 4 fun s t => State.laneS s do
    let ea ← s.serviceRef t c.toNat (insnWord (.svcput c ct)) (fun c => c.r && c.w) 1568 16
    match (s.batches.filter fun kb => kb.2.die == s.coreOf t / 96 && kb.2.bound.any fun x => x.2 == ea).getLast? with
    | none => fail Cause.format 0
    | some (k, b) =>
      State.roomIn (s.thread t).st
      .ok (atParts s t (s.capGroup t c.toNat) ea 1568 true fun s ps =>
        if s.acquiring t || s.partsPending t ps || !s.partsRoom t ps then (s, .hold 0)
        else
          let (s1, bs, poison) := s.readParts t ps
          if poison then (s1, .fault Cause.poison (State.addrNo ea))
          else
            let s2 := answer { s1 with batches := s1.batches.erase k } k b (replies bs)
            ((s2.addOp t (.batchPut ps)).incSt t, .done Done.nothing)))

/-! ## The fault log, R403 -/

namespace State

/-- A report to a die's fault log: a full log drops its oldest entry and remembers that; a service event, R400, R403. -/
def report (s : State) (die : Nat) (w : BitVec 32) : State :=
  let log := s.regs.faultLog.get [] die
  let full := decide (256 ≤ log.length)
  let log' := (if full then log.drop 1 else log) ++ [w]
  { s with regs := { s.regs with
      faultLog := s.regs.faultLog.put die log'
      faultLost := if full then s.regs.faultLost.set false die true else s.regs.faultLost } }.serviceEvent die

/-- A word of the fault log, R403. -/
def faultWord (unit cls world index : Nat) : BitVec 32 :=
  BitVec.ofNat 32 (unit % 16 * 2 ^ 28 + cls % 16 * 2 ^ 24 + world % 64 * 2 ^ 18 + index % 2 ^ 17)

end State

/-- `fltrd`, R403: the oldest word of the die's fault log leaves it. -/
def execFltrd (d : BitVec 5) (ct : Ctl) (st : State) : Out :=
  .next (st.issue ct 4 fun s t => State.laneS s do
    s.kernelCheck t (insnWord (.fltrd d ct))
    let die := s.coreOf t / 96
    let log := s.regs.faultLog.get [] die
    let w := match log with
      | [] => 0
      | w :: _ => setBit w 17 (w.getLsbD 17 || s.regs.faultLost.get false die)
    match s.finishLane t (oneReg d.toNat w 0 0 false []) with
    | .done x =>
      let regs' := { s.regs with
        faultLog := s.regs.faultLog.set [] die (log.drop 1)
        faultLost := if log.isEmpty then s.regs.faultLost else s.regs.faultLost.set false die false }
      .ok ({ s with regs := regs' }, .done x)
    | r => .error r)

/-! ## Illegal encodings -/

namespace State

/-- Every thread of the group that holds the current slot takes a fault at its instruction, guarded off or not, R31, R56. -/
def faultGroup (s : State) (cause tval : BitVec 32) : State :=
  match s.slots.find? s.cur with
  | none => s
  | some g =>
    (lanesOf g).foldl (fun s l => s.trapEntry (g.crew * 32 + l) (s.thread (g.crew * 32 + l)).pc cause tval)
      { s with slots := s.slots.erase s.cur }

end State

/-- `UNASSIGNED_FUNCTION_CODE`, R42, R56: the group raises ILLEGAL_OP with the word as TVAL. -/
def execUnassignedFunctionCode (word : BitVec 32) (s : State) : Out := .next (s.faultGroup Cause.illegalOp word)

/-- `ILLEGAL_RUN`, R35: the group raises ILLEGAL_RUN with the word as TVAL. -/
def execIllegalRun (word : BitVec 32) (s : State) : Out := .next (s.faultGroup Cause.illegalRun word)

/-- `FIRMWARE_DOORBELL`, R400. -/
def execFirmwareDoorbell (die : Nat) (s : State) : Out := .next (s.serviceEvent die)

end Sys2Proof.Machine
end

