-- ==== Sys2Proof/Machine/Tasks.lean ====
section
/-! DEFINITION. The life of a task and of its gangs after submission: the window and the lease (R210, R211, R308), retirement
and completion (R305 to R307), pre-emption, saves and swap-out (R314, R380 to R385, R432), shootdowns, and the pages of the
frame cache (R215, R218, R219). -/

namespace Sys2Proof.Machine

/-! ## The dependence window and the lease -/

/-- `WINDOW_ENTRY`, R308: the task at the head of a queue enters its world's window, if no other queue's head came first. -/
def execWindowEntry (queue : Nat) (s : State) : Out :=
  .next (match s.queues.find? queue with
    | none => s
    | some q => match q.waiting with
      | [] => s
      | k :: rest =>
        let w := (s.worlds.find? q.world).getD World.fresh
        let first := (s.queuesOf q.world).all fun kq => kq.2.waiting.isEmpty || decide (q.headAt ≤ kq.2.headAt)
        if 256 ≤ w.window.length || !first then s
        else
          let s1 := s.updQueue queue fun x => { x with waiting := rest, headAt := s.nextId }
          let s2 := { s1 with nextId := s1.nextId + 1 }
          let s3 := s2.updWorld q.world fun x => { x with window := x.window ++ [k] }
          s3.updTask k fun t => { t with stage := .window })

namespace State

/-- The dependence domain of a queue. -/
def domainOf (s : State) (q : Nat) : BitVec 12 := ((s.queues.find? q).map (·.domain)).getD 0

/-- Whether an earlier incomplete task of its domain holds a task back, R308. -/
def heldBack (s : State) (task : Nat) (k : Task) : Bool :=
  let w := ((s.worlds.find? k.world).getD World.fresh).window
  (w.takeWhile (· != task)).any fun e =>
    match s.tasks.find? e with
    | none => false
    | some x => s.domainOf x.queue == s.domainOf k.queue && x.record.conflicts k.record

/-- The stack and set of a Pool page, R218. -/
def poolSet (s : State) (page : Nat) : Nat × Nat :=
  let pa := page * 65536
  (2 * (page % 8) + pa / 2 ^ 23 % 2, (pa / 2 ^ 24 % 2 ^ 22 * 16 + pa / 2 ^ 19 % 16) % (8192 * s.boot.frameN))

/-- Whether a covered block is refused, R210, R211, R216: no translation, another world's frame, a missing write permission, an
extent under revocation. -/
def blockDenied (s : State) (w : Nat) (b : Nat × Bool) : Bool :=
  match s.walk w (b.1 * 65536) with
  | none => true
  | some x =>
    !s.listed w x.pa || (b.2 && !x.w) ||
    (s.extents.values.any fun e => e.revoking.isSome && decide (e.base ≤ x.pa) && decide (x.pa < e.base + e.size))

/-- Covered blocks with the translations under which a lease stands, R211, R215. -/
def leaseOf (s : State) (w : Nat) (bs : List (Nat × Bool)) : List LeaseBlk :=
  bs.filterMap fun b => (s.walk w (b.1 * 65536)).map fun x => ⟨b.1, b.2, x.pa / 65536, x.x, x.size / 65536⟩

/-- The Pool pages of a lease. -/
def poolPages (bs : List LeaseBlk) : List Nat := ((bs.map (·.frame)).filter fun f => isPool (f * 65536)).eraseDups

/-- Pages of a lease that share a page's set. -/
def mates (s : State) (pages : List Nat) (p : Nat) : Nat := (pages.filter fun q => s.poolSet q == s.poolSet p).length

/-- The lines outside `[lo, hi)` that take bytes from lines inside it, R216, R218, R242. -/
def takersOf (s : State) (lo hi : Nat) : List Nat :=
  (s.alias_.values.flatMap fun e => (span e.start e.len).filterMap fun pa =>
    if e.supplies pa && ((e.srcsOf pa).any fun a => decide (lo ≤ a) && decide (a < hi)) && !(decide (lo ≤ pa) && decide (pa < hi))
    then some (pa / 128) else none).eraseDups

/-- Whether a page may leave its frame now: it is not pinned, and no line that its leaving writes waits for a re-enciphering, R218,
R219. -/
def evictable (s : State) (page : Nat) (f : FrameEntry) : Bool :=
  f.pins == 0 && (s.reenc.isEmpty || (!s.reenc.contains page &&
    !(s.takersOf (page * 65536) (page * 65536 + 65536)).any s.lineHeld))

/-- Whether every set that a lease needs has room for its pages, other pages that may leave having left, R211. -/
def setsFit (s : State) (pages : List Nat) : Bool :=
  pages.all fun p =>
    let others := (s.frames.filter fun kf => s.poolSet kf.1 == s.poolSet p && !pages.contains kf.1 && !s.evictable kf.1 kf.2).length
    decide (others + s.mates pages p ≤ 16)

/-- A page's lines in every cache move down to the home slices. -/
def pushRange (s : State) (lo hi : Nat) : State :=
  let lines (s : State) (low : Bool) : List (Nat × Nat) :=
    (s.cmeta.filter fun kc => decide (lo / 128 ≤ kc.1 % 2 ^ 45) && decide (kc.1 % 2 ^ 45 < hi / 128) &&
      (decide (kc.1 / 2 ^ 45 < Config.cores) == low)).map fun kc => (kc.1 / 2 ^ 45, kc.1 % 2 ^ 45)
  let push (s : State) (ls : List (Nat × Nat)) : State := ls.foldl (fun s l => State.pushLine (fun _ => true) s l.1 l.2) s
  let s1 := push s (lines s true)
  push s1 (lines s1 false)

/-- A page leaves its frame, R218, R242: the lines elsewhere that take bytes from it land, and its dirty lines are written to the pool
with their metadata. -/
def evictFrame (s : State) (page : Nat) : State :=
  let lo := page * 65536
  let s1 := s.pushRange lo (lo + 65536)
  let s2 := (s1.takersOf lo (lo + 65536)).foldl State.landLine s1
  let s3 := ((span (page * 512) 512).filter s2.poolDirty).foldl State.countLine s2
  { s3 with
    poolMem := s2.poolMem.splice lo (lo + 65536) (s2.mem.slice lo (lo + 65536))
    cbytes := s2.cbytes.keep fun k _ => !(decide (lo ≤ k % 2 ^ 52) && decide (k % 2 ^ 52 < lo + 65536))
    cmeta := s2.cmeta.keep fun k _ => k % 2 ^ 45 / 512 != page
    frames := s2.frames.erase page }

/-- The page that leaves a set for another: of those that may, the one used least recently, R218. -/
def victimFor (s : State) (pages : List Nat) (page : Nat) : Option Nat :=
  ((s.frames.filter fun kf => s.poolSet kf.1 == s.poolSet page && !pages.contains kf.1 && s.evictable kf.1 kf.2).foldl
    (fun (best : Option (Nat × FrameEntry)) kf => match best with
      | none => some kf
      | some b => if kf.2.used < b.2.used then some kf else some b) none).map (·.1)

/-- A way of a page's set comes free, R211, R218. -/
def makeWay (s : State) (pages : List Nat) (page : Nat) : State :=
  if (s.frames.find? page).isSome || decide ((s.frames.filter fun kf => s.poolSet kf.1 == s.poolSet page).length < 16) then s
  else match s.victimFor pages page with
    | none => s
    | some v => s.evictFrame v

/-- A Pool page comes into its frame, with the owner of its extent, R197, R218. The move changes no value, R215: a Pool address
reads at its home slice whether or not its page is in a frame. -/
def fillFrame (s : State) (page : Nat) : State :=
  match s.frames.find? page with
  | some _ => s
  | none => { s with frames := s.frames.put page ⟨0, s.clock, (s.frameOwner (page * 65536)).getD 0⟩ }

/-- A page pinned once more, or once less. -/
def pin (s : State) (page : Nat) (up : Bool) : State :=
  { s with frames := s.frames.adjust page fun f => { f with pins := if up then f.pins + 1 else f.pins - 1, used := s.clock } }

/-- Whether a task is refused its lease, R178, R210, R211. -/
def leaseDenied (s : State) (k : Task) : Bool :=
  let bs := k.record.cover
  let pages := poolPages (s.leaseOf k.world bs)
  !k.record.codeOk || !k.record.doneOk || !k.record.regsOk || bs.any (s.blockDenied k.world) ||
  pages.any fun p => decide (16 < s.mates pages p)

/-- Whether a frame of a lease has still to be swept, R203. -/
def leaseUnswept (s : State) (k : Task) : Bool :=
  k.record.cover.any fun b => (s.walk k.world (b.1 * 65536)).any fun x => s.unswept.contains (x.pa / 65536)

end State

/-- `LEASE_ESTABLISH`, R210, R211: all or nothing; it waits while a set has no way that can be made free, and a refused lease ends the
task with LEASE_DENIED. -/
def execLeaseEstablish (task : Nat) (s : State) : Out :=
  .next (match s.tasks.find? task with
    | none => s
    | some k =>
      if k.stage ≠ .window || k.code.isSome || s.heldBack task k then s
      else if s.leaseDenied k then s.updTask task fun t => { t with code := some .leaseDenied }
      else
        let lease := s.leaseOf k.world k.record.cover
        let pages := State.poolPages lease
        if s.leaseUnswept k || !s.setsFit pages then s
        else
          let s1 := pages.foldl (fun s p => ((s.makeWay pages p).fillFrame p).pin p true) s
          let s2 := k.record.cover.foldl (fun s b => s.walkHot k.world (b.1 * 65536)) s1
          s2.updTask task fun t => { t with stage := .leased, lease := lease, pins := pages })

/-! ## Retirement and completion -/

namespace State

/-- The operations of a gang's threads that must complete before what it holds is given up. -/
def gangOps (s : State) (p : Nat → Bool) : List Op := s.ops.values.filter fun o => p o.thread && !dies o

/-- A team's resources freed, R305: its scratchpad; and the operations that exited threads left to be discarded. -/
def freeTeam (s : State) (gang team : Nat) : State :=
  let lo := spadKey gang (team * 2 ^ 20)
  let s0 := s.dropOps fun o => gangOf o.thread == gang && teamIdx o.thread == team && dies o
  let s1 := { s0 with
    spad := s0.spad.splice lo (lo + 2 ^ 20) []
    spadTag := s0.spadTag.splice (lo / 16) (lo / 16 + 65536) []
    spadPoison := s0.spadPoison.splice (lo / 16) (lo / 16 + 65536) [] }
  (s1.updGang gang fun g => { g with deadTeams := setBit g.deadTeams team true }).settleObjects gang

end State

/-- `TEAM_RETIRE`, R298, R305, R309: the team's last crew has retired and what its threads issued is complete. -/
def execTeamRetire (gang team : Nat) (s : State) : Out :=
  .next (match s.gangs.find? gang with
    | none => s
    | some g => match s.tasks.find? g.task with
      | none => s
      | some k =>
        let mine (t : Nat) : Bool := gangOf t == gang && teamIdx t == team
        let live := (s.threads.any fun th => mine th.1 && th.2.stat != .exited)
        let busy := !(s.gangOps mine).isEmpty || s.reqs.values.any fun r => mine r.thread && !r.kind.isRestore
        if g.stat ≠ .resident || k.record.teams ≤ team || g.deadTeams.getLsbD team || live || busy then s
        else (s.charge gang 1).freeTeam gang team)

/-- `GANG_RETIRE`, R298, R305: its last team has retired, and every request and copy of it is complete. -/
def execGangRetire (gang : Nat) (s : State) : Out :=
  .next (match s.gangs.find? gang with
    | none => s
    | some g =>
      let busy := !(s.gangOps fun t => gangOf t == gang).isEmpty || !(s.reqs.values.filter fun r =>
        r.gang == gang && !r.kind.isRestore).isEmpty
      if g.stat ≠ .resident || s.liveTeams gang ≠ 0 || busy then s
      else
        let s1 := (s.freeGang gang).dropOps fun o => gangOf o.thread == gang
        let s2 := { s1 with fetches := s1.fetches.keep fun _ f => f.gang != gang }
        s2.updGang gang fun x => { x with stat := .retired, preempt := none })

namespace State

/-- Every dirty byte of a world's lines reaches the home slices, R15. -/
def pushWorld (s : State) (w : Nat) : State :=
  let lines (s : State) (low : Bool) : List (Nat × Nat) :=
    (s.cmeta.filter fun kc => (kc.2.world == w || kc.2.world == 63) && (decide (kc.1 / 2 ^ 45 < Config.cores) == low)).map
      fun kc => (kc.1 / 2 ^ 45, kc.1 % 2 ^ 45)
  let push (s : State) (ls : List (Nat × Nat)) : State := ls.foldl (fun s l => State.pushLine (fun _ => true) s l.1 l.2) s
  let s1 := push s (lines s true)
  push s1 (lines s1 false)

/-- Whether the writes of a task's completion must wait for a re-enciphering, R219. -/
def completionHeld (s : State) (k : Task) : Bool :=
  s.dirtyRewriting || (k.record.doneOk && (s.walk k.world k.record.done.cap.cursor).any fun x => s.lineHeld (x.pa / 128))

/-- STATUS and COUNT of a completion object, R306, R307; a poisoned COUNT stays as it is, as for any atomic (R272). -/
def writeCompletion (s : State) (k : Task) (code : Nat) : State :=
  if !k.record.doneOk then s
  else match s.walk k.world k.record.done.cap.cursor with
    | none => s
    | some x =>
      let pa := x.pa
      if !s.mayUse k.world pa then s
      else
        let s1 := s.homeWrite (pa + 8) (leBytes 8 (k.relaunches % 256 * 2 ^ 16 + code)) false
        let s2 := s1.beforeWrite (pa / 128)
        let r := s2.homeRead pa 4
        if r.2 then s2 else s2.homeWrite pa (leBytes 4 (leNat r.1 + 1)) false

/-- The queue's status after a task that ended with a code, R416. -/
def noteEnd (s : State) (k : Task) (code : EndCode) : State :=
  let f := k.fault.getD (0, 0, 0)
  s.updQueue k.queue fun q =>
    { q with lasth := k.handle, code := BitVec.ofNat 8 (EndCode.num code), cause := f.1.setWidth 8, tpc := f.2.1, tval := f.2.2 }

/-- Whether every gang of a task is over, R305, R306, R312. -/
def gangsOver (s : State) (k : Task) : Bool := k.gangs.all s.gangOver

/-- Whether writes of a task are not complete: those of its gangs, and of the gangs that have adopted from it, R306, R312. -/
def taskBusy (s : State) (task : Nat) : Bool :=
  !(s.gangOps fun t => (s.leaseTasks (gangOf t)).contains task).isEmpty

/-- The translations that TLBs hold for some tasks and blocks are dropped, R202, R214, R215, R220. -/
def dropTranslations (s : State) (p : Nat → Nat → Nat → Bool) : State :=
  { s with
    tlb := s.tlb.filter fun e => !(span 0 e.leaf).any fun i => p e.task (e.block + i) (e.pa + i)
    ahead := s.ahead.filter fun e => !p e.task e.block (e.frame.getD 0) }

end State

/-- `TASK_COMPLETION`, R306: the last gang is over, or the task has been ended. -/
def execTaskCompletion (task : Nat) (s : State) : Out :=
  .next (match s.tasks.find? task with
    | none => s
    | some k =>
      let ran := k.stage == .leased && k.doomed.isNone && decide (k.next = k.record.gangCount)
      if k.stage = .completed || !(k.code.isSome || ran) || !s.gangsOver k || s.taskBusy task || s.completionHeld k then s
      else
        let s1 := s.pushWorld k.world
        let s2 := s1.writeCompletion k ((k.code.map EndCode.num).getD 0)
        let s3 := match k.code with
          | none => s2
          | some c => (s2.noteEnd k c).report 0 (State.faultWord 3 3 k.world k.queue)
        let s4 := k.pins.foldl (fun s p => s.pin p false) s3
        let s5 := s4.updWorld k.world fun w =>
          { w with window := w.window.filter (· != task), completions := w.completions + 1 }
        let waits := ((s5.queues.find? k.queue).map (·.waiting)).getD []
        let s6 := s5.updQueue k.queue fun q =>
          { q with waiting := q.waiting.filter (· != task), headAt := if waits.head? = some task then s.nextId else q.headAt }
        let s7 := { s6 with
          tlb := s6.tlb.filter fun e => e.task != task
          ahead := s6.ahead.filter fun e => e.task != task
          nextId := s6.nextId + 1 }
        s7.updTask task fun t => { t with stage := .completed, lease := [], pins := [] })

/-- `TASK_END`, R151, R198, R379: the code of an operand fault stands once the task's other gangs have retired; WORLD_POISON
ends the tasks of a world whose interface is in ERROR, once their threads have stopped. Other codes end their task where
they arise. -/
def execTaskEnd (task : Nat) (code : EndCode) (s : State) : Out :=
  .next (match s.tasks.find? task with
    | none => s
    | some k =>
      match code with
      | .worldPoison =>
        let error := (s.worlds.find? k.world).any fun w => decide (w.tdisp = .error) || w.stopping
        let stopped := s.threads.all fun th => s.taskOf th.1 != task ||
          !((s.gangs.find? (gangOf th.1)).any fun g => decide (g.stat = GStat.resident)) ||
          (match th.2.stat with | .stopped | .exited | .saved | .svc _ | .fetchw _ _ => true | _ => false)
        if error && stopped then s.endTask task .worldPoison none else s
      | _ => if k.doomed = some code ∧ s.gangsOver k = true then s.endTask task code none else s)

/-! ## Pre-emption -/

/-- The cores that a gang holds, by team: a team that has retired holds none, R305, R314. -/
def Gang.liveCores (g : Gang) : FMap Nat := g.cores.filter fun tc => !g.deadTeams.getLsbD tc.1

namespace State

/-- Whether a thread stands at a run boundary, R33, R337, R381: not in the middle of a run, nor waiting for a reply. -/
def atBoundary (s : State) (t : Nat) (h : Thread) : Bool :=
  match h.stat with
  | .ready => h.cont % 2 == 0 && !(s.slots.values.any fun g => g.crew == crewOf t && g.lanes.getLsbD (laneOf t))
  | .woken _ => !(s.slots.values.any fun g => g.crew == crewOf t && g.lanes.getLsbD (laneOf t))
  | .wait _ _ _ _ | .bar _ | .bwait _ _ _ _ | .parked _ | .halted => true
  | _ => false

/-- The distributor sets PREEMPT, R380, R381: threads at a run boundary stop at once. -/
def setPreempt (s : State) (gang : Nat) : State :=
  match s.gangs.find? gang with
  | none => s
  | some g =>
    match s.tasks.find? g.task with
    | none => s
    | some k =>
      let handling := (s.gangThreads gang).any fun th => th.2.handling
      let coop := k.record.save != 0xFFFFFFFF && k.record.restore != 0xFFFFFFFF && !handling
      let s1 := s.updGang gang fun x => { x with preempt := some coop }
      (s1.gangThreads gang).foldl (fun s th =>
        if s.atBoundary th.1 th.2 then s.stopThread th.1 th.2.pc coop else s) s1

/-- The resident gangs of a world stop at their next run boundaries, whatever they are in, R198. -/
def haltGangs (s : State) (w : Nat) : State :=
  (s.residents.filter fun g => ((s.tasks.find? g.2.1.task).map (·.world)) == some w).foldl (fun s g =>
    let s1 := s.updGang g.1 fun x => { x with preempt := some false }
    (s1.gangThreads g.1).foldl (fun s th =>
      let s2 := s.updThread th.1 fun h => { h with inSave := false }
      if s.atBoundary th.1 th.2 then s2.stopThread th.1 th.2.pc false else s2) s1) s

/-- Whether the distributor pre-empts a gang to make room for a class, R432. -/
def roomVictim (s : State) (w cls gang : Nat) : Bool :=
  let mine := s.residents.filter fun g => ((s.tasks.find? g.2.1.task).map (·.world)) == some w
  let clsOf (g : Gang) : Nat := ((s.tasks.find? g.task).map (·.cls)).getD 0
  let leaving := mine.any fun g => g.2.1.preempt.isSome
  let low := mine.foldl (fun m g => min m (clsOf g.2.1)) 8
  let youngest := (mine.filter fun g => clsOf g.2.1 == low).foldl (fun m g => max m g.2.1.placed) 0
  let wanted := s.servedClass w == some cls && (s.allPending w cls).any fun x =>
    (s.fitPending w x).isNone && ((s.withoutLower w cls).fitPending w x).isSome
  wanted && !leaving && decide (low < cls) &&
    mine.any fun g => g.1 == gang && clsOf g.2.1 == low && g.2.1.placed == youngest

end State

/-- `PREEMPT`, R380, R391, R198, R432. -/
def execPreempt (gang : Nat) (why : PreemptWhy) (s : State) : Out :=
  .next (match s.gangs.find? gang with
    | none => s
    | some g =>
      let w := s.gangWorld gang
      let wd := (s.worlds.find? w).getD World.fresh
      let due := match why with
        | .room cls => s.roomVictim w cls gang
        | .checkpoint => wd.restoring || (wd.trigger && (s.snaps.find? w).isNone)
        | .worldStop => w != 0 && !wd.running
      if g.stat = .resident && g.preempt.isNone && due then s.setPreempt gang else s)

namespace State

/-- Entries on their way between the threads of a gang arrive before its state is saved, R337. -/
def landFlights (s : State) (gang : Nat) : State :=
  let (mine, rest) := s.flights.partition fun f => gangOf f.dest == gang
  mine.foldl (fun s f =>
    if (s.thread f.dest).stat == .exited then s
    else
      let key := f.dest * 4 + f.dir.toNat
      { s with ports := s.ports.set [] key (s.ports.get [] key ++ [f.entry]) }) { s with flights := rest }

/-- Copies in flight to the scratchpads of a gang's teams, at the cores of those teams, R315. -/
def forwardsOf (s : State) (gang : Nat) (g : Gang) : List Fwd :=
  g.liveCores.filterMap fun tc =>
    let mine := s.ops.filterMap fun ko => match ko.2.kind with
      | .copy j => if gangOf ko.2.thread = gang ∧ (copyTeams s ko.2.thread j).contains tc.1 then some ko.1 else none
      | _ => none
    if mine.isEmpty then none else some ⟨tc.2, gang, tc.1, mine⟩

/-- A forwarding entry is left at each core to which deliveries are on their way, R315. -/
def leaveForwards (s : State) (gang : Nat) : State :=
  match s.gangs.find? gang with
  | none => s
  | some g => { s with fwds := s.fwds ++ s.forwardsOf gang g }

/-- Whether each of some cores has a forwarding entry free: a core holds 16, R314, R315. -/
def fwdRoom (s : State) (cores : List Nat) : Bool :=
  cores.all fun c => decide ((s.fwds.filter fun f => f.core == c).length < 16)

/-- A gang goes back to its queue ahead of the pending gangs, R310, R385. -/
def requeue (s : State) (gang : Nat) : State :=
  let q := ((s.gangs.find? gang).bind fun g => (s.tasks.find? g.task).map (·.queue)).getD 0
  s.updQueue q fun x => { x with ahead := x.ahead ++ [gang] }

/-- A gang leaves its cores with its state kept: slots, crew slots, planes and reservations are freed, R305, R314, R384. -/
def leaveCores (s : State) (gang : Nat) : State :=
  let inGang (crew : Nat) : Bool := crew / 512 == gang
  let s1 := ((s.charge gang (s.liveTeams gang)).dropSlots gang).leaveForwards gang
  { s1 with
    crews := s1.crews.keep fun c _ => !inGang c
    reqs := s1.reqs.keep fun _ r => r.gang != gang
    active := s1.active.mapVals fun _ p => if p.owner.any inGang then { p with owner := none } else p
    shadow := s1.shadow.mapVals fun _ p => if p.owner.any inGang then { p with owner := none } else p
    resv := s1.resv.keep fun _ c => !inGang c
    rows := (s1.rows.mapVals fun k r => if k / 16384 = gang then { r with spilled := false } else r).keep fun k r =>
      k / 16384 != gang || r.live != 0 || !r.pend.isEmpty }

/-- The planes that a gang's crews own, and those that it has still to load, R384. -/
def planesOf (s : State) (gang : Nat) : List (Nat × Bool × Plane) :=
  let own (m : FMap Plane) (act : Bool) : List (Nat × Bool × Plane) := m.values.filterMap fun p =>
    match p.owner with
    | some c => if c / 512 = gang ∧ s.crewDone c = false then some (c, act, p) else none
    | none => none
  let waiting := s.reqs.values.filterMap fun r => match r.kind with
    | .restore p act => if r.gang = gang then some (crewOf r.thread, act, p) else none
    | _ => none
  own s.active true ++ own s.shadow false ++ waiting

/-- The operations of a gang that a save waits for: all but copies, and but the loads of exited threads. -/
def saveWaits (s : State) (gang : Nat) : Bool :=
  s.ops.values.any fun o => gangOf o.thread == gang &&
    (match o.kind with | .copy _ | .materialise _ _ _ => false | _ => true) &&
    !(dies o && (s.thread o.thread).stat == .exited)

/-- Whether a request of the gang is not complete. -/
def reqsLeft (s : State) (gang : Nat) : Bool := s.reqs.values.any fun r => r.gang == gang && !r.kind.isRestore

end State

/-- `COOPERATIVE_SAVE_DONE`, R382, R397: every thread has parked or exited and what the gang issued is complete; the TPC with
which each save handler was entered, the exits, PORTST, HINTDROP and the port queues are kept, and the rest is freed and erased. -/
def execCooperativeSaveDone (gang : Nat) (s : State) : Out :=
  .next (match s.gangs.find? gang with
    | none => s
    | some g =>
      let all := (s.gangThreads gang).all fun th => th.2.stat == .saved || th.2.stat == .exited
      let busy := !(s.gangOps fun t => gangOf t == gang).isEmpty || s.reqsLeft gang
      if g.stat ≠ .resident || g.preempt ≠ some true || !all || busy then s
      else
        let s0 := s.landFlights gang
        let lo := gang * 16384
        let kept := (s0.threads.slice lo (lo + 16384)).mapVals fun _ h =>
          { Thread.fresh 0 with tpc := if h.stat = .saved then h.saveTpc else h.tpc, drops := h.drops, hints := h.hints, seen := h.seen, stat := h.stat }
        let ports := s0.ports.slice (gang * 65536) ((gang + 1) * 65536)
        let s1 := ((s0.charge gang (s0.liveTeams gang)).freeGang gang).dropOps fun o => gangOf o.thread == gang
        let s2 := { s1 with
          threads := s1.threads.splice lo (lo + 16384) kept
          ports := s1.ports.splice (gang * 65536) ((gang + 1) * 65536) ports }
        (s2.updGang gang fun x => { x with stat := .residue, preempt := none, planes := [] }).requeue gang)

/-- The caches of the cores that a gang leaves are pushed to the home slices: a move changes no value that a thread reads, its own
earlier stores among them, R71, R314, R369. -/
def State.pushCores (s : State) (g : Gang) : State := g.cores.values.foldl (fun s c => s.push c 3) s

/-- `HARDWARE_SAVE`, R315, R316, R384: every thread has stopped, but for those that wait for a service reply (log entry 37); their
operations have written or been discarded, the gang's requests are complete, and there is room for its forwarding entries. The image's size
is a value that the specification does not give (log entry 1). -/
def execHardwareSave (gang : Nat) (s : State) : Out :=
  .next (match s.gangs.find? gang with
    | none => s
    | some g =>
      let all := (s.gangThreads gang).all fun th =>
        match th.2.stat with | .stopped | .exited | .svc _ => true | _ => false
      let room := s.fwdRoom ((s.forwardsOf gang g).map (·.core))
      if g.stat ≠ .resident || g.preempt ≠ some false || !all || !room || s.saveWaits gang || s.reqsLeft gang || s.dirtyRewriting then s
      else
        let planes := s.planesOf gang
        let s1 := ((s.pushCores g).landFlights gang).leaveCores gang
        let q := ((s.tasks.find? g.task).map (·.queue)).getD 0
        let s2 := s1.updQueue q fun x => { x with image := Config.freeWord (s.freeCtr * 65536) }
        (s2.updGang gang fun x => { x with stat := .image, preempt := none, planes := planes }).requeue gang)

namespace State

/-- The object on which every thread of a gang that has not exited stands in a `bwait`, and since when, R314. -/
def bwaitAll (s : State) (gang : Nat) : Option (Nat × Nat) :=
  let here := (s.gangThreads gang).filter fun th => th.2.stat != .exited
  match here with
  | [] => none
  | th :: _ => match th.2.stat with
    | .bwait la _ _ _ =>
      if here.all fun x => (match x.2.stat with | .bwait b _ _ _ => b == la | _ => false)
      then some (la, here.foldl (fun m x => max m x.2.since) 0) else none
    | _ => none

/-- The earliest bound of a gang's `bwait`s. -/
def firstBound (s : State) (gang : Nat) : Option Nat :=
  (s.gangThreads gang).foldl (fun (m : Option Nat) th => match th.2.stat with
    | .bwait _ _ _ (some b) => some (match m with | none => b | some a => min a b)
    | _ => m) none

end State

/-- `SWAP_OUT`, R314; planes that the gang owns are kept, R369. -/
def execSwapOut (gang : Nat) (s : State) : Out :=
  .next (match s.gangs.find? gang with
    | none => s
    | some g =>
      let thr := (((s.tasks.find? g.task).bind fun k => s.queues.find? k.queue).map (·.swapthr.toNat)).getD 0
      match s.bwaitAll gang with
      | none => s
      | some (la, since) =>
        if g.stat ≠ .resident || g.preempt.isSome || thr = 0 || s.clock < since + thr * 1024
            || !(s.reqs.values.filter fun r => r.gang == gang).isEmpty || !s.fwdRoom g.liveCores.values || s.saveWaits gang || s.dirtyRewriting then s
        else
          let wake : WakeOn := ⟨la, s.objPhase gang la, s.firstBound gang⟩
          let planes := s.planesOf gang
          let s1 := ((s.pushCores g).landFlights gang).leaveCores gang
          s1.updGang gang fun x => { x with stat := .swapped, wake := some wake, planes := planes })

/-- `SWAP_WAKE`, R314, R315: the object's phase has changed or the earliest bound has passed, and the gang is pending again. -/
def execSwapWake (gang : Nat) (s : State) : Out :=
  .next (match s.gangs.find? gang with
    | none => s
    | some g => match g.wake with
      | none => s
      | some w =>
        let met := s.objPhase gang w.la != w.phase || s.granulesPoisoned gang w.la 16 || w.bound.any fun b => decide (b ≤ s.clock)
        if g.stat = .swapped && met then (s.updGang gang fun x => { x with wake := none }).requeue gang else s)

/-! ## Shootdowns, R215 -/

namespace State

/-- Whether a changed table no longer serves a task at a block of its lease, R215. -/
def narrowed (s : State) (k : Task) (block : Nat) : Bool :=
  let bs := k.lease.filter fun b => b.block == block
  let code := (k.record.code.ok 2 && (TaskRec.blocks k.record.code.cap.base k.record.code.cap.length).contains block)
  !bs.isEmpty && (match s.walk k.world (block * 65536) with
    | none => true
    | some x => !s.mayUse k.world x.pa || (bs.any (·.write) && !x.w) || (code && !x.x))

/-- A lease under the translation that a block has now, R215. -/
def renewBlock (s : State) (w block : Nat) (b : LeaseBlk) : LeaseBlk :=
  if b.block = block then ((s.walk w (block * 65536)).map fun x => { b with frame := x.pa / 65536, exec := x.x, leaf := x.size / 65536 }).getD b
  else b

/-- Whether every resident thread of a task stands at a run boundary. -/
def taskAtBoundary (s : State) (task : Nat) : Bool :=
  s.threads.all fun th => s.taskOf th.1 != task ||
    !((s.gangs.find? (gangOf th.1)).any fun g => decide (g.stat = GStat.resident)) || th.2.stat == .exited ||
    s.atBoundary th.1 th.2 || (match th.2.stat with | .svc _ | .fetchw _ _ | .stopped | .saved => true | _ => false)

end State

namespace State

/-- The Pool pages that a task's lease held before a shootdown of a block, and holds no longer, R15. -/
def pagesLeft (s : State) (w block : Nat) (k : Task) : List Nat :=
  let now := poolPages (k.lease.map (s.renewBlock w block))
  k.pins.filter fun p => !now.contains p

/-- A task's lease under the new translation of a block: a Pool page that the lease now names is in its frame and pinned, R15,
R215. -/
def renewLease (s : State) (w block task : Nat) : State :=
  match s.tasks.find? task with
  | none => s
  | some k =>
    let lease := k.lease.map (s.renewBlock w block)
    let pages := poolPages lease
    let s1 := (pages.filter fun p => !k.pins.contains p).foldl (fun s p => ((s.makeWay pages p).fillFrame p).pin p true) s
    s1.updTask task fun k => { k with lease := lease, pins := pages }

/-- The Pool pages that a lease of a task newly holds. -/
def pagesNew (s : State) (w block : Nat) (k : Task) : List Nat :=
  (poolPages (k.lease.map (s.renewBlock w block))).filter fun p => !k.pins.contains p

end State

namespace State

/-- Whether a copy of a world is being recorded over a block: its blocks are recorded under one translation, R237 (log entry 16). -/
def recordingAt (s : State) (w block : Nat) : Bool :=
  s.ops.values.any fun o => s.worldOf o.thread == w && (match o.kind with
    | .copy j => (match j.stage with
      | .recording sva dva n _ _ _ _ => (TaskRec.blocks sva n ++ TaskRec.blocks dva n).contains block
      | _ => false)
    | _ => false)

end State

/-- `SHOOTDOWN`, R215, R213: a block of a world's global space whose translation has changed; translations held for it are
dropped, the tasks that it no longer serves end with LEASE, once they stand at run boundaries, and the leases of the others go on under
the new translation. It waits while a set has no way for a Pool page that a lease then names (R15), and for
a copy that is being recorded over the block (R237). -/
def execShootdown (world page : Nat) (s : State) : Out :=
  .next (
    let mine := s.tasks.filter fun kt => kt.2.world == world && kt.2.stage == .leased
    let hit := (mine.filter fun kt => s.narrowed kt.2 page).map (·.1)
    let kept := mine.filter fun kt => !hit.contains kt.1
    let s1 := (s.dropTranslations fun task block _ => block == page && (s.tasks.find? task).any fun k => k.world == world)
    let s2 := kept.foldl (fun s kt => (s.pagesLeft world page kt.2).foldl (fun s p => s.pin p false) s) s1
    if s.recordingAt world page || (hit.any fun k => !s.taskAtBoundary k) || !(s2.setsFit ((kept.flatMap fun kt => s.pagesNew world page kt.2).eraseDups)) then s
    else
      hit.foldl (fun s k => s.endTask k .lease none) (kept.foldl (fun s kt => s.renewLease world page kt.1) s2))

/-! ## Frames of the frame cache, and erasure -/

namespace State

/-- Alias entries whose destination lies in a range are freed without moving data, R246. -/
def dropAliases (s : State) (lo hi : Nat) : State :=
  let inside (e : AliasEntry) : Bool := decide (lo ≤ e.start) && decide (e.start < hi)
  { s with alias_ := s.alias_.keep fun _ e => !inside e }.refund (s.alias_.values.filter inside)

/-- A range erased at its home slices: data, tags, alias and shadow bits, and cached bytes, R202. -/
def erase (s : State) (lo hi : Nat) : State :=
  { s with
    mem := s.mem.splice lo hi []
    meta_ := s.meta_.splice (lo / 128) (hi / 128) []
    cbytes := s.cbytes.keep fun k _ => !(decide (lo ≤ k % 2 ^ 52) && decide (k % 2 ^ 52 < hi))
    cmeta := s.cmeta.keep fun k _ => !(decide (lo / 128 ≤ k % 2 ^ 45) && decide (k % 2 ^ 45 < hi / 128)) }

/-- Whether a page is the least recently used unpinned page of its set, R218. -/
def lruOf (s : State) (page : Nat) (f : FrameEntry) : Bool :=
  s.evictable page f && s.frames.all fun kf =>
    kf.1 == page || s.poolSet kf.1 != s.poolSet page || kf.2.pins != 0 || decide (f.used ≤ kf.2.used)

end State

/-- `FRAME_EVICTION`, R218: the least recently used page of a set leaves its frame. -/
def execFrameEviction (page : Nat) (s : State) : Out :=
  .next (match s.frames.find? page with
    | none => s
    | some f => if s.lruOf page f then s.evictFrame page else s)

/-- `PAGE_REENCIPHER`, R219: a line counter of the page is exhausted, and its lines go under a new key version; writes to the
page wait until it is done, and are then performed in their issue order. -/
def execPageReencipher (page : Nat) (done : Bool) (s : State) : Out :=
  .next (
    if !isPool (page * 65536) then s
    else if done then
      if s.reenc.contains page then
        { s with
          reenc := s.reenc.filter (· != page)
          keyVer := s.keyVer.put page (s.keyVer.get 0 page + 1)
          poolCtr := s.poolCtr.splice (page * 512) (page * 512 + 512) []
          rewaits := s.ops.foldl (fun (m : FMap Nat) ko => if (s.pagesOf ko.2).contains page then m.put ko.1 page else m) s.rewaits }
      else s
    else if (s.poolCtr.slice (page * 512) (page * 512 + 512)).any (fun kc => kc.2 == BitVec.allOnes 56) && !s.reenc.contains page
    then { s with reenc := s.reenc ++ [page] } else s)

/-- `FRAME_SWEEP`, R197, R203, R246: once no operation in flight touches it, a returned frame is zeroed and is then world 0's; entries whose
source lies in it and whose destination does not land first, and entries whose destination lies in it are freed. -/
def execFrameSweep (frame : Nat) (s : State) : Out :=
  .next (
    let lo := frame * 65536
    if !s.unswept.contains frame || s.rangeBusy lo (lo + 65536) || (s.takersOf lo (lo + 65536)).any s.lineHeld then s
    else
      let s1 := (s.takersOf lo (lo + 65536)).foldl State.landLine s
      { (s1.dropAliases lo (lo + 65536)).erase lo (lo + 65536) with
        unswept := s.unswept.filter (· != frame), owner := s.owner.erase frame, shared := s.shared.erase frame })

end Sys2Proof.Machine
end

