-- ==== Sys2Proof/Machine/Boot.lean ====
section
/-! DEFINITION. Start-up, features and firmware images (R206, R209, R393, R410, R412), the TDISP states and the configuration of a
world (R194 to R201), the privileged registers (R203, R236, R311, R390, R411), and frames and Pool extents (R197, R203, R216, R409). -/

namespace Sys2Proof.Machine

/-! ## Start-up -/

/-- The stage and halt code that a bring-up reaches, R410: stage 6 waits for the driver. -/
def bootStage (b : Boot) (r : BootReport) : Nat × Nat :=
  if !r.romOk then (1, 1)
  else if !(r.imageOk && b.imageOk) then (2, 2)
  else if !(r.ids.all b.cert.contains && b.cert.all r.ids.contains) then (3, 3)
  else if !r.hbmOk then (4, 4)
  else if !r.diesOk then (5, 5)
  else (6, 0)

/-- The live slices of each die as stage 5 programs them: 1 to 64, R12; a count outside that is taken to the nearer end (log entry 54). -/
def liveCounts (slices : List Nat) : FMap Nat := (slices.take 8).zipIdx.map fun nd => (nd.2, max 1 (min 64 nd.1))

/-- `DEVICE_RESET`, R410, R393, R206, R12: everything returns to its value at reset but the firmware image, the certificate, the Pool's
memory, which a Pool address then reads, and the durable checkpoints; the tags and poison of Pool lines are cleared (log entry 7). Then the
hub ROM brings the device up to stage 6 or halts it. -/
def execDeviceReset (report : BootReport) (s : State) : Out :=
  let r := bootStage s.boot report
  let live := if r.1 = 6 then liveCounts report.slices else []
  let boot := { Boot.reset with
    stage := r.1, halt := r.2, recovery := decide (r.2 = 2), image := s.boot.image, imageOk := s.boot.imageOk,
    cert := s.boot.cert, slices := live }
  .next { State.reset with
    boot := boot, mem := s.poolMem, poolMem := s.poolMem, durable := s.durable, past := s.past ++ s.extents.values
    agenda := s.agenda, freeCtr := s.freeCtr, nextId := s.nextId }

/-- `FEATACCEPT_WRITE`, R412, R209: the first write in stage 6 fixes the feature set, the frame cache and LOCALTOP and moves the
device to stage 7: world 0 runs and the tenant interfaces are unlocked. -/
def execFeatacceptWrite (value : BitVec 128) (frameN : Nat) (s : State) : Out :=
  .next (
    if s.boot.stage ≠ 6 || s.boot.halt ≠ 0 || s.boot.accepted then s
    else
      let acc := value &&& s.boot.featOffer
      let n := if acc.getLsbD 4 then max 1 (min 5 frameN) else 0
      let worlds := (span 0 41).map fun w => (w, if w = 0 then { World.fresh with tdisp := .run } else World.fresh)
      { s with boot := { s.boot with featAccept := acc, accepted := true, stage := 7, frameN := n }, worlds := worlds })

/-- `FIRMWARE_UPDATE`, R393: accepted while no tenant interface is locked or running; a halted device takes one only through the
recovery function (R410). -/
def execFirmwareUpdate (image : Nat) (verifies : Bool) (s : State) : Out :=
  .next (
    let busy := s.worlds.any fun w => w.1 != 0 && (decide (w.2.tdisp = .locked) || decide (w.2.tdisp = .run))
    if busy || (s.boot.halt ≠ 0 && !s.boot.recovery) then s
    else { s with boot := { s.boot with image := image, imageOk := verifies } })

/-! ## Interfaces -/

namespace State

/-- Every incomplete task of a world that has no code yet is to end with WORLD_POISON, R198, R379. -/
def poisonCodes (s : State) (w : Nat) : State :=
  { s with tasks := s.tasks.mapVals fun _ k =>
      if k.world = w ∧ k.stage ≠ .completed ∧ k.code.isNone = true then { k with code := some .worldPoison } else k }

/-- A tenant interface enters ERROR: its incomplete tasks have the code WORLD_POISON, and its gangs stop at their next run boundaries,
R198. -/
def errorState (s : State) (w : Nat) : State := ((s.updWorld w fun x => { x with tdisp := .error }).poisonCodes w).haltGangs w

/-- A request that an interface does not list for its state receives an error response, R198, R199. -/
def refuse (s : State) (w : Nat) : State := s.updWorld w fun x => { x with refused := x.refused + 1 }

/-- The quotas of the other tenant worlds that are locked or running, R201. -/
def lockedQuota (s : State) (w : Nat) : Nat :=
  (s.worlds.map fun x => if x.1 ≠ 0 ∧ x.1 ≠ w ∧ (x.2.tdisp = .locked ∨ x.2.tdisp = .run) then x.2.quota else 0).sum

/-- What a lock measures: the contents of the configuration block. The digest is SHAKE256 over them, and the specification does
not lay them out as bytes, so the model keeps the contents themselves (log entry 17). -/
def measured (s : State) (w : Nat) (x : World) : List Nat :=
  [x.mask.toNat, x.root, x.quota, if x.sysScope then 1 else 0, if x.devScope then 1 else 0, if x.conf then 1 else 0]
    ++ (x.queues.flatMap fun q => match s.queues.find? q with | none => [q] | some k => [q, k.base, k.size]) ++ x.vectors
    ++ (s.shared.flatMap fun f => if s.frameOwner (f.1 * 65536) = some w then f.1 :: f.2 else [])

/-- Whether a world has come to rest: no open task and no operation in flight, R198. -/
def atRest (s : State) (w : Nat) : Bool :=
  (s.tasks.values.all fun k => k.world != w || k.stage == .completed) && (s.ops.values.all fun o => s.worldOf o.thread != w)

/-- The translations to a frame that some world may have lost are dropped, R197. -/
def forgetFrame (s : State) (frame : Nat) : State := s.dropTranslations fun _ _ f => f == frame

/-- The lines of Pool memory that a world's entries supply. -/
def poolShown (s : State) (w : Nat) : List Nat :=
  ((s.alias_.values.filter fun e => e.world == w && isPool e.start).flatMap fun e =>
    (span (e.start / 128) ((e.start + e.len - 1) / 128 + 1 - e.start / 128)).filter e.shows).eraseDups

/-- The frames of a world are taken from it, to be swept, its entries into Pool memory land, and its cached lines are erased, R198,
R201 to R203. -/
def takeBack (s9 : State) (w : Nat) : State :=
  let s0 := (s9.poolShown w).foldl State.landLine s9
  let fs := (s0.owner.filter fun f => f.2 == w).map (·.1)
  let s := s0.dropTranslations fun _ _ f => fs.contains f
  let mine := (s.cmeta.filter fun c => c.2.world == w).map (·.1)
  let inLine (k : Nat) : Bool := mine.contains (mKey (k / 2 ^ 52) (k % 2 ^ 52 / 128))
  { s with
    unswept := s.unswept ++ fs.filter fun f => !s.unswept.contains f
    shared := s.shared.keep fun f _ => !fs.contains f
    cbytes := s.cbytes.keep fun k _ => !inLine k
    cmeta := s.cmeta.keep fun k _ => !mine.contains k }

end State

/-- `LOCK_INTERFACE`, R198, R201, R412: refused where the alias quotas would pass the total, or for a confidential world whose
feature was not accepted. -/
def execLockInterface (world : Nat) (s : State) : Out :=
  .next (match s.worlds.find? world with
    | none => s
    | some x =>
      if world = 0 || x.tdisp ≠ .unlocked || Config.aliasTotal < x.quota + s.lockedQuota world
          || (x.conf && !s.boot.featAccept.getLsbD 5) then (if world = 0 then s else s.refuse world)
      else s.updWorld world fun x => { x with tdisp := .locked, measure := some (s.measured world x) })

/-- `START_INTERFACE`, R198. -/
def execStartInterface (world : Nat) (s : State) : Out :=
  .next (match s.worlds.find? world with
    | none => s
    | some x =>
      if world = 0 then s
      else if x.tdisp ≠ .locked then s.refuse world
      else s.updWorld world fun x => { x with tdisp := .run })

/-- `STOP_INTERFACE`, R198: the world's queues stop, and the interface returns to CONFIG_UNLOCKED once the world has come to rest, its lines
are erased, no returned frame is left to sweep, and no landing that it asks for waits for a re-enciphering (R219). A world that leaves RUN
or ERROR gives up its frames (R203). -/
def execStopInterface (world : Nat) (s : State) : Out :=
  .next (match s.worlds.find? world with
    | none => s
    | some x =>
      if world = 0 then s
      else if x.tdisp = .unlocked then s.refuse world
      else
        let s1 := if x.stopping then s else (s.updWorld world fun y => { y with stopping := true }).haltGangs world
        if !s1.atRest world || (s1.poolShown world).any s1.lineHeld then s1
        else
          let s2 := if x.tdisp = .locked then s1 else s1.takeBack world
          if s2.unswept.isEmpty then
            s2.updWorld world fun y => { y with tdisp := .unlocked, stopping := false, measure := none, trigger := false }
          else s2)

/-- The four quads or more of partition `p`, as a test on a core, R194. -/
def corePartition (core : Nat) : Nat :=
  let q := core / 4 % 24
  core / 96 * 5 + (if q < 4 then 0 else if q < 9 then 1 else if q < 14 then 2 else if q < 19 then 3 else 4)

/-- A queue as its binding configures it, R311, R347, R414. -/
def Queue.bound (queue world base k : Nat) : Queue :=
  { world := world, base := base, size := k, tail := 0, consumed := 0, denied := 0, seq := 0, waiting := [], headAt := 0,
    ahead := [], deficit := 0, quantum := 65536, swapthr := 0, domain := BitVec.ofNat 12 (queue / 64), lasth := 0, image := 0,
    tval := 0, tpc := 0, cause := 0, code := 0 }

/-- One field of a world's configuration block written, R194 to R201, R414. A partition of another tenant world, a queue of another world, a
ring outside its bounds and a quota above the total are refused, and for world 0, which is never unlocked, one below its entries in use; the
worlds with which a frame is shared may stand in any state (log entry 27). -/
def State.configure (s : State) (w : Nat) (x : World) : CfgField → State
  | .partitions mask =>
    if s.worlds.any fun y => y.1 != 0 && y.1 != w && y.2.mask &&& mask != 0 then s
    else
      let changed := x.mask ^^^ mask
      { s.updWorld w (fun x => { x with mask := mask, pointer := if x.mask = mask then x.pointer else none }) with
        tlb := s.tlb.filter fun e => !changed.getLsbD (corePartition e.core)
        ahead := s.ahead.filter fun e => !changed.getLsbD (corePartition (e.quad * 4)) }
  | .bindQueue queue base k =>
    let taken := s.worlds.any fun y => y.1 != w && y.2.queues.contains queue
    if taken || k = 0 || 16 < k || 4096 ≤ queue || 0 < s.openTasks queue then s
    else
      { s with queues := s.queues.put queue (Queue.bound queue w base k) }.updWorld w fun x =>
        { x with queues := if x.queues.contains queue then x.queues else x.queues ++ [queue] }
  | .root pa => s.updWorld w fun x => { x with root := pa }
  | .vectors v => s.updWorld w fun x => { x with vectors := v }
  | .scopepol v => s.updWorld w fun x => { x with devScope := v.getLsbD 0, sysScope := v.getLsbD 1 }
  | .quota n => if n ≤ Config.aliasTotal ∧ (w ≠ 0 ∨ x.used ≤ n) then s.updWorld w fun x => { x with quota := n } else s
  | .share frame worlds =>
    if s.frameOwner (frame * 65536) ≠ some w || s.rangeBusy (frame * 65536) (frame * 65536 + 65536) then s
    else { s.forgetFrame frame with shared := if worlds.isEmpty then s.shared.erase frame else s.shared.put frame worlds }
  | .confidential b => s.updWorld w fun x => { x with conf := b }

/-- `CONFIG_WRITE`, R198: applied while the interface is unlocked; a locked block's write is discarded and is an error. World 0,
the firmware, configures itself. -/
def execConfigWrite (world : Nat) (field : CfgField) (s : State) : Out :=
  .next (match s.worlds.find? world with
    | none => s
    | some x => match x.tdisp with
      | .unlocked => s.configure world x field
      | .error => s.refuse world
      | _ => if world = 0 then s.configure world x field else s.errorState world)

/-- `LOCKED_REGISTER_WRITE`, R198, R199: discarded, and the interface enters ERROR. -/
def execLockedRegisterWrite (world : Nat) (s : State) : Out :=
  .next (match s.worlds.find? world with
    | none => s
    | some x =>
      if world = 0 || x.tdisp = .unlocked then s
      else if x.tdisp = .error then s.refuse world
      else s.errorState world)

/-! ## Privileged registers -/

/-- `QUEUE_SETTINGS_WRITE`, R311: ignored while the queue holds a task, and where the domain has 64 other queues. -/
def execQueueSettingsWrite (world queue : Nat) (value : BitVec 128) (s : State) : Out :=
  .next (match s.queues.find? queue with
    | none => s
    | some q =>
      let dom : BitVec 12 := value.extractLsb' 96 12
      let mates := (s.queues.filter fun k => k.1 != queue && k.2.domain == dom).length
      if q.world ≠ world || 0 < s.openTasks queue || 64 ≤ mates then s
      else
        let quantum : BitVec 32 := value.extractLsb' 32 32
        s.updQueue queue fun q =>
          { q with domain := dom, swapthr := value.extractLsb' 64 32, quantum := if quantum = 0 then 1 else quantum })

/-- CKPTCTL takes a value, and the intervals count from now, R390. -/
def State.setCkpt (s : State) (v : BitVec 32) : State :=
  let base := if v.extractLsb' 8 2 = 2 then s.worlds.map fun w => (w.1, w.2.completions) else []
  { s with regs := { s.regs with ckptCtl := v, ckptSince := s.clock, ckptBase := base } }

/-- `CKPTCTL_WRITE`, R390: only world 0 writes it; MODE 3 is stored as 0. -/
def execCkptctlWrite (world : Nat) (value : BitVec 32) (s : State) : Out :=
  .next (
    if world ≠ 0 then s
    else
      let v0 := value &&& 0xFFFFFF01
      s.setCkpt (if value.extractLsb' 8 2 = 3 then v0 &&& 0xFFFFFCFF else v0))

/-- `REGISTER_WRITE`, R3, R203, R236, R411: only world 0 writes them; out-of-range values are stored as the tables say. -/
def execRegisterWrite (world : Nat) (reg : RegName) (value : BitVec 32) (s : State) : Out :=
  .next (
    if world ≠ 0 then s
    else match reg with
      | .erasecap stack =>
        let v : BitVec 4 := value.setWidth 4
        let share : BitVec 4 := if v = 0 then 1 else if 10 < v.toNat then 10 else v
        { s with regs := { s.regs with eraseCap := s.regs.eraseCap.set 2 stack share } }
      | .aliasctl die => { s with regs := { s.regs with aliasHot := s.regs.aliasHot.set 16 die (value.setWidth 6) } }
      | .retrain =>
        let v : BitVec 16 := value.setWidth 16
        let ms : BitVec 16 := if v = 0 then 1 else if 1000 < v.toNat then 1000 else v
        { s with regs := { s.regs with retrain := ms } }
      | .readOnly => s)

/-- `RETRAIN_TIMER`, R411: a channel is drained and retrained; accesses are delayed and no value changes. -/
def execRetrainTimer (_chan : Nat) (s : State) : Out := .next s

/-! ## Frames and extents -/

namespace State

/-- Whether a frame of world 0 is in no use and holds only zeros, so that it may have a new owner, R202, R203: it is listed in no lease, no
snapshot area and no shared set, and is swept. -/
def frameClean (s : State) (frame : Nat) : Bool :=
  let lo := frame * 65536
  !s.unswept.contains frame && (s.shared.find? frame).isNone &&
  (s.mem.slice lo (lo + 65536)).isEmpty && (s.meta_.slice (lo / 128) (lo / 128 + 512)).isEmpty &&
  !(s.cmeta.any fun kc => kc.1 % 2 ^ 45 / 512 == frame) && !s.inArea frame && !s.rangeBusy lo (lo + 65536) &&
  !(s.tasks.any fun kt => kt.2.lease.any fun b => b.frame == frame)

end State

/-- `FRAME_ASSIGN`, R197, R203: a Local frame of world 0 that holds nothing; one that world 0 has used is returned and swept first. -/
def execFrameAssign (world frame : Nat) (s : State) : Out :=
  .next (
    if (s.worlds.find? world).isNone || s.owner.get 0 frame ≠ 0 || !s.frameClean frame || s.localTop < frame * 65536 + 65536
    then s
    else { s with owner := s.owner.set 0 frame world })

/-- `FRAME_RETURN`, R197, R203: nobody uses the frame until it has been swept, and it is its owner's until then. -/
def execFrameReturn (world frame : Nat) (s : State) : Out :=
  .next (
    if s.owner.get 0 frame ≠ world || s.localTop < frame * 65536 + 65536 || s.inArea frame then s
    else
      { s.forgetFrame frame with
        shared := s.shared.erase frame
        unswept := if s.unswept.contains frame then s.unswept else s.unswept ++ [frame] })

/-- What is left of a range that was given up, with `[lo, hi)` taken out. -/
def Extent.without (lo hi : Nat) (e : Extent) : List Extent :=
  (if e.base < lo then [{ e with size := min lo (e.base + e.size) - e.base }] else []) ++
  (if hi < e.base + e.size then [{ e with base := max hi e.base, size := e.base + e.size - max hi e.base }] else [])

/-- A range of Pool memory erased on both sides of the pool port, R196, R202. -/
def State.erasePool (s : State) (lo hi : Nat) : State :=
  if lo < hi then { s.erase lo hi with poolMem := s.poolMem.splice lo hi [] } else s

/-- `EXTENT_ADD`, R409, R197: whole pages of Pool memory that no extent holds, once no operation in flight touches them. What another world
has left there is erased (log entry 61). -/
def execExtentAdd (world base size : Nat) (s : State) : Out :=
  .next (
    let overlap := s.extents.values.any fun e => decide (e.base < base + size) && decide (base < e.base + e.size)
    if (s.worlds.find? world).isNone || s.boot.frameN = 0 || !isPool base || size = 0 || base % 65536 ≠ 0 || size % 65536 ≠ 0
        || overlap || s.rangeBusy base (base + size) then s
    else
      let s1 := (s.past.filter fun e => e.world != world).foldl (fun s e =>
        s.erasePool (max base e.base) (min (base + size) (e.base + e.size))) s
      { s1 with
        extents := s.extents.put s.nextId ⟨world, base, size, none⟩, nextId := s.nextId + 1
        past := s.past.flatMap (Extent.without base (base + size)) })

namespace State

/-- The tasks whose leases hold a page of an extent. -/
def holders (s : State) (e : Extent) : List Nat :=
  (s.tasks.filter fun k => k.2.stage == .leased && k.2.pins.any fun p =>
    decide (e.base ≤ p * 65536) && decide (p * 65536 < e.base + e.size)).map (·.1)

/-- Whether no landing that the release of an extent asks for waits for a re-enciphering, R219. -/
def releasable (s : State) (e : Extent) : Bool :=
  s.reenc.isEmpty || (!(s.takersOf e.base (e.base + e.size)).any s.lineHeld &&
    !(s.reenc.any fun p => decide (e.base ≤ p * 65536) && decide (p * 65536 < e.base + e.size)))

/-- An operation whose writes to `[lo, hi)` are lost, R216: a store there stores nothing, and an atomic only reads. -/
def OpKind.lose (lo hi : Nat) (k : OpKind) : OpKind :=
  let hit (p : Place) : Bool := match p with | .global pa => decide (lo ≤ pa) && decide (pa < hi) | .scratch _ _ => false
  match k with
  | .store p d tag => if hit p then .store p [] false else .store p d tag
  | .atomic f sc p n regs x e rm => if hit p then .load (.plain (n / max 1 regs.length) false) p n regs else .atomic f sc p n regs x e rm
  | .contextStore ps => .contextStore (ps.filter fun p => !hit p.1)
  | .batchPut ps => .batchPut (ps.filter fun p => !hit p.1)
  | .batchGet ps b skip =>
    -- a record has at most two parts
    .batchGet (ps.filter fun p => !hit p.1) b (skip + ((ps.takeWhile fun p => hit p.1).map (·.2)).sum)
  | k => k

/-- The release of an extent in the order of R216: aliases that take bytes from it land, what is performed at its home slices is
written back, and aliases into it, cached bytes of it and writes to it that are still to be performed are discarded. Its pages are then
nobody's: no frame, no list of worlds and no lease holds one. -/
def releaseExtent (s : State) (k : Nat) (e : Extent) : State :=
  let lo := e.base
  let hi := e.base + e.size
  let s1 := (s.holders e).foldl (fun s t => s.endTask t .extentRevoked none) s
  let s2 := (s1.takersOf lo hi).foldl State.landLine s1
  let s3 := ({ s2 with poolMem := s2.poolMem.splice lo hi (s2.mem.slice lo hi) }.dropAliases lo hi).erase lo hi
  { s3 with
    ops := s3.ops.mapVals fun _ o => { o with kind := OpKind.lose lo hi o.kind }
    mem := s2.mem, frames := s3.frames.splice (lo / 65536) (hi / 65536) [], extents := s3.extents.erase k
    shared := s3.shared.splice (lo / 65536) (hi / 65536) []
    past := s3.past ++ [e]
    tasks := s3.tasks.mapVals fun _ t => { t with pins := t.pins.filter fun p => decide (p < lo / 65536) || decide (hi / 65536 ≤ p) } }

end State

/-- `EXTENT_REVOKE`, R216: new leases are denied from now on; a grace time of 0 forces at once, but for landings that wait for a
re-enciphering (R219). -/
def execExtentRevoke (extent grace : Nat) (s : State) : Out :=
  .next (match s.extents.find? extent with
    | none => s
    | some e =>
      if e.revoking.isSome then s
      else if grace = 0 && s.releasable e then s.releaseExtent extent e
      else { s with extents := s.extents.put extent { e with revoking := some (s.clock + grace) } })

/-- `GRACE_EXPIRY`, R216: the leases have ended, or the grace time has passed and the revocation is forced. -/
def execGraceExpiry (extent : Nat) (s : State) : Out :=
  .next (match s.extents.find? extent with
    | none => s
    | some e => match e.revoking with
      | none => s
      | some by_ => if ((s.holders e).isEmpty || by_ ≤ s.clock) && s.releasable e then s.releaseExtent extent e else s)

end Sys2Proof.Machine
end

