-- ==== Sys2Proof/Machine/Capability.lean ====
section
/-! DEFINITION. The capability instructions `cadd`, `cbnd`, `cprm`, `cmov`, `capr` and `ctst` (spec/11, R185 to R188). -/

namespace Sys2Proof.Machine

/-- `WriteCap`, R185: the four rows tagged CAP and the validity of the lane. -/
def writeCap (s : State) (t k : Nat) (q : BitVec 128) (ok : Bool) : LaneRes :=
  s.finishLane t
    ⟨(span 0 4).map fun i => (4 * k + i, (q.extractLsb' (32 * i) 32 : BitVec 32), (11 : BitVec 4), (0 : BitVec 7)),
     [(k, ok && !s.capMarked t ⟨q⟩)], [], none, .ready⟩

/-- The capability with another OFFSET. -/
def Cap.withOffset (c : Cap) (o : Nat) : BitVec 128 := c.bits.extractLsb' 40 88 ++ BitVec.ofNat 40 o

/-- The capability with another PERM. -/
def Cap.withPerm (c : Cap) (p : BitVec 8) : BitVec 128 := c.bits.extractLsb' 120 8 ++ p ++ c.bits.extractLsb' 0 112

/-- The capability narrowed to `lm` × 2^`le` bytes from its cursor. BASE has 56 bits, so a cursor of 2^56 leaves BASE 0 (log entry 63). -/
def Cap.narrowed (c : Cap) (lm le : Nat) : BitVec 128 :=
  c.bits.extractLsb' 112 16 ++ BitVec.ofNat 6 le ++ BitVec.ofNat 10 lm ++ BitVec.ofNat 56 c.cursor ++ 0#40

/-- The parent's cursor as TVAL holds it, R186. -/
def cursorNo (c : Cap) : BitVec 32 := BitVec.ofNat 32 c.cursor

/-- `cadd`, R186. -/
def execCadd (d f : BitVec 3) (v : BitVec 5) (ct : Ctl) (st : State) : Out :=
  .next (st.issue ct 4 (State.pureLane fun s t => State.lane do
    s.capPoison t f.toNat
    let n ← s.readSrc t v.toNat Acc.int
    let p := s.capGroup t f.toNat
    failIf (!s.capValid t f.toNat) Cause.capTag (cursorNo p)
    let o : Int := (p.offset : Int) + n.toInt
    .ok (writeCap s t d.toNat (p.withOffset (o % 2 ^ 40).toNat) (decide (0 ≤ o) && decide (o < 2 ^ 40)))))

/-- `cbnd`, R186. -/
def execCbnd (d f : BitVec 3) (v : BitVec 5) (x : Bool) (ct : Ctl) (st : State) : Out :=
  .next (st.issue ct 4 (State.pureLane fun s t => State.lane do
    s.capPoison t f.toNat
    let n ← s.readSrc t v.toNat Acc.int
    let p := s.capGroup t f.toNat
    failIf (!s.capValid t f.toNat) Cause.capTag (cursorNo p)
    let (lm, le) := roundLen n.toNat
    failIf (decide (p.top < p.cursor + lm * 2 ^ le)) Cause.capBounds (cursorNo p)
    failIf (x && decide (lm * 2 ^ le ≠ n.toNat)) Cause.capBounds (cursorNo p)
    .ok (writeCap s t d.toNat (p.narrowed lm le) true)))

/-- `cprm`, R186. -/
def execCprm (d f : BitVec 3) (m : BitVec 7) (ct : Ctl) (st : State) : Out :=
  .next (st.issue ct 4 (State.pureLane fun s t => State.lane do
    s.capPoison t f.toNat
    let p := s.capGroup t f.toNat
    failIf (!s.capValid t f.toNat) Cause.capTag (cursorNo p)
    .ok (writeCap s t d.toNat (p.withPerm (p.perm &&& m.setWidth 8)) true)))

/-- `cmov`, R186: an invalid parent is copied without a fault. -/
def execCmov (d f : BitVec 3) (ct : Ctl) (st : State) : Out :=
  .next (st.issue ct 4 (State.pureLane fun s t => State.lane do
    s.capPoison t f.toNat
    .ok (writeCap s t d.toNat (s.capGroup t f.toNat).bits (s.capValid t f.toNat))))

/-- The value and the tag of a field, R187. -/
def caprValue (s : State) (t c f : Nat) : BitVec 32 × BitVec 4 :=
  let p := s.capGroup t c
  let word (n i : Nat) : BitVec 32 := BitVec.ofNat 32 (n / 2 ^ (32 * i))
  match f with
  | 0 => (word p.cursor 0, 0)
  | 1 => (word p.cursor 1, 0)
  | 2 => (word p.base 0, 0)
  | 3 => (word p.base 1, 0)
  | 4 => (word (min p.length (2 ^ 64 - 1)) 0, 0)
  | 5 => (word (min p.length (2 ^ 64 - 1)) 1, 0)
  | 6 => (p.perm.setWidth 32, 1)
  | 7 => (word p.kind 0, 1)
  | _ => (if s.capValid t c then 1 else 0, 1)

/-- `capr`, R187. -/
def execCapr (d : BitVec 5) (c : BitVec 3) (f : BitVec 4) (ct : Ctl) (st : State) : Out :=
  .next (st.issue ct 4 (State.pureLane fun s t => State.lane do
    s.capPoison t c.toNat
    let r := caprValue s t c.toNat f.toNat
    .ok (s.finishLane t (oneReg d.toNat r.1 r.2 0 false []))))

/-- The answer of a test, R188. -/
def ctstValue (s : State) (t c test n : Nat) : Bool :=
  let p := s.capGroup t c
  let access (perm : Bool) : Bool := State.memKind p.kind && perm && s.inBounds t p p.cursor n
  s.capValid t c &&
  (match test with
   | 0 => true
   | 1 => access p.r
   | 2 => access p.w
   | 3 => p.kind == 0
   | _ => p.kind == 1)

/-- `ctst`, R188. -/
def execCtst (p : BitVec 4) (c : BitVec 3) (v : BitVec 5) (test : BitVec 4) (ct : Ctl) (st : State) : Out :=
  .next (st.issue ct 4 fun s t => State.laneS s do
    s.capPoison t c.toNat
    let n ← (if test = 1 ∨ test = 2 then s.readSrc t v.toNat Acc.int else .ok 0)
    .ok (s.setPred t p (ctstValue s t c.toNat test.toNat n.toNat), .done Done.nothing))

end Sys2Proof.Machine
end

