-- ==== Sys2Proof/Machine/Host.lean ====
section
/-! DEFINITION. What the host does to a running device: notify writes and submission with the minting of capabilities (R414, R415),
accesses through the home agent (R195, R262), and bounce-buffer channels (R205). -/

namespace Sys2Proof.Machine

/-! ## Submission, R414, R415 -/

/-- The address of the slot that lies `i` past the consumed position of a queue's ring, R414. -/
def Queue.slotAt (q : Queue) (i : Nat) : Nat := q.base + (q.consumed.toNat + i) % 2 ^ q.size * 16

/-- A test on `n` consecutive numbers, in order. -/
def allFrom : Nat → Nat → (Nat → Bool) → Bool
  | 0, _, _ => true
  | n + 1, a, p => p a && allFrom n (a + 1) p

namespace State

/-- Whether a range lies in a world's translated space; a range of no byte does, R415. -/
def translated (s : State) (w base len : Nat) : Bool :=
  if len = 0 then true
  else decide (base + len ≤ 2 ^ 56) &&
    allFrom ((base + len - 1) / 65536 + 1 - base / 65536) (base / 65536) fun b =>
      (s.walk w (b * 65536)).any fun x => s.mayUse w x.pa

/-- Whether firmware mints 16 bytes as a capability of a world, R415: its kind, its reserved bits but PERM[7], its range. -/
def mintable (s : State) (w : Nat) (bits : BitVec 128) : Bool :=
  let c : Cap := ⟨bits⟩
  (c.kind == 0 || c.kind == 2 || c.kind == 3) && bits.extractLsb' 124 4 == 0 && s.translated w c.base c.length

/-- The granule at an address minted where it stands, with PERM[7] cleared, R171, R415; a running sweep marks none that it makes, R182. -/
def mintAt (w : Nat) (s : State) (pa : Nat) : State :=
  let bits : BitVec 128 := BitVec.ofNat 128 (leNat (s.homeRead pa 16).1)
  if s.mintable w bits && !s.marksCap w (leBytes 16 bits.toNat) then
    s.homeWrite pa (leBytes 16 (bits &&& ~~~(BitVec.twoPow 128 119)).toNat) true
  else s

/-- A field of a record minted. -/
def mintField (w va : Nat) (s : State) (o : Nat) : State :=
  match s.walk w (va + o) with
  | none => s
  | some x => if s.mayUse w x.pa then mintAt w s x.pa else s

/-- The capability fields of a record: CODE, PARAM, DONE and its region slots. -/
def mintRecord (s : State) (w va : Nat) (r : TaskRec) : State :=
  let slots := (span 0 r.regs.length).map fun i => 0x80 + 32 * i
  ([0, 0x10, 0x50] ++ slots).foldl (mintField w va) s

/-- One slot of a queue's ring taken: a task joins the queue, or the slot is skipped and counted, R414, R416; so is one in a frame that
the queue's world may not use (R195, R197). Redirected reads of the slot and of the record raise HOT, R241. -/
def takeSlot (queue : Nat) (s : State) : State :=
  match s.queues.find? queue with
  | none => s
  | some q =>
    let at_ := q.slotAt 0
    let slot := leNat (s.homeRead at_ 16).1
    let s1 := (if s.mayUse q.world at_ then s.raiseHot (at_ / 128) else s).updQueue queue fun q => { q with consumed := q.consumed + 1 }
    let skip := s1.updQueue queue fun q => { q with denied := q.denied + 1 }
    if !s.mayUse q.world at_ || 2 ^ 56 ≤ slot || slot % 16 ≠ 0 then skip
    else match s1.readRecord q.world slot with
      | none => skip
      | some r0 =>
        let s2 := (s1.recordHot q.world slot).mintRecord q.world slot r0
        match s2.readRecord q.world slot with
        | none => skip
        | some r => (s2.submit queue slot r r.prio).1

end State

/-- Whether minting the record in a slot would write a line that waits for a re-enciphering, R219, R415. -/
def State.slotHeld (s : State) (q : Queue) (i : Nat) : Bool :=
  let slot := leNat (s.homeRead (q.slotAt i) 16).1
  s.mayUse q.world (q.slotAt i) && (match s.readRecord q.world slot with
    | none => false
    | some r => ([0, 0x10, 0x50] ++ (span 0 r.regs.length).map fun i => 0x80 + 32 * i).any fun o =>
        (s.walk q.world (slot + o)).any fun (x : Walked) => s.lineHeld (x.pa / 128))

/-- `NOTIFY_WRITE`, R195, R198, R414: only the queue's own world rings it, and a queue accepts nothing while its interface does not
run. The slots from the consumed position to TAIL − 1 are taken in order. The write waits while a record that it submits cannot be
minted for a re-enciphering, R219. -/
def execNotifyWrite (world queue : Nat) (tail : BitVec 16) (s : State) : Out :=
  .next (match s.queues.find? queue with
    | none => s
    | some q =>
      let open_ := world = 0 || (s.worlds.find? world).any (·.running)
      let n := (tail.toNat + 2 ^ 32 - q.consumed.toNat) % 2 ^ q.size
      if q.world ≠ world || !open_ || (!s.reenc.isEmpty && (span 0 n).any (s.slotHeld q)) then s
      else
        (span 0 n).foldl (fun s _ => State.takeSlot queue s) (s.updQueue queue fun q => { q with tail := tail }))

/-! ## Accesses, R195, R262 -/

namespace State

/-- Whether the host reaches `n` bytes through a world's function: frames of that world, or shared with it. Firmware reaches Pool pages
too, for the fix-ups that it mints (`pool`), R424. -/
def hostReach (s : State) (pool : Bool) (w pa n : Nat) : Bool :=
  decide (7 ≤ s.boot.stage) && n != 0 && allFrom ((pa + n - 1) / 65536 + 1 - pa / 65536) (pa / 65536) fun f =>
    (pool || !isPool (f * 65536)) && s.present (f * 65536) && s.mayUse w (f * 65536)

/-- Whether a write to `n` bytes at an address waits for a re-enciphering, R219. -/
def rangeHeld (s : State) (pa n : Nat) : Bool :=
  !s.reenc.isEmpty && (span (pa / 128) ((pa + n - 1) / 128 + 1 - pa / 128)).any s.lineHeld

end State

/-- `HOST_ACCESS`, R262: performed at the home slices; a write clears tags (R171) and lands what it must (R242), and a read of an
aliased line is redirected and raises HOT (R241). A loader's fix-ups are granules that firmware mints where they stand, R165, R171,
R424, on Pool pages too. An access that reaches no object of the world has no effect (R195), and a write waits for a re-enciphering
(R219). -/
def execHostAccess (access : HostAccess) (s : State) : Out :=
  .next (
    let n := access.data.length
    if !s.hostReach access.fixup access.world access.pa n || ((access.fixup || access.write) && s.rangeHeld access.pa n) then s
    else if access.fixup then
      ((span (access.pa / 16) (n / 16)).filter fun _ => access.pa % 16 == 0).foldl (fun s g => State.mintAt access.world s (g * 16)) s
    else if access.write then s.homeWrite access.pa access.data false
    else (span (access.pa / 128) ((access.pa + n - 1) / 128 + 1 - access.pa / 128)).foldl State.raiseHot s)

/-! ## Bounce-buffer channels, R205 -/

/-- The key of a world's channel. -/
def chanKey (w chan : Nat) : Nat := w * 2 ^ 32 + chan

/-- `CHANNEL_KEYING`, R205, R412: only a confidential world has channels, and none can be keyed where the feature was not
accepted. A channel that is keyed again also has CAUSE 0 (log entry 30). -/
def execChannelKeying (world chan : Nat) (s : State) : Out :=
  .next (
    if (s.worlds.find? world).any (·.conf) && s.boot.featAccept.getLsbD 5
    then { s with chans := s.chans.put (chanKey world chan) ⟨0, 1, 0⟩ } else s)

/-- `CHANNEL_BLOCK`, R205: accepted when its counter is the next one; any other aborts the channel, as does a block that fails the
IDE check; the channel closes at the last counter. A block whose address the world's function does not reach is accepted and writes
nothing (log entry 30); one whose write must wait for a re-enciphering is not taken yet (R219). -/
def execChannelBlock (world chan : Nat) (block : IdeBlock) (s : State) : Out :=
  .next (match s.chans.find? (chanKey world chan) with
    | none => s
    | some c =>
      let put (s : State) (c : Chan) : State := { s with chans := s.chans.put (chanKey world chan) c }
      let reach := s.hostReach false world block.pa block.data.length
      if c.state ≠ 1 || (reach && s.rangeHeld block.pa block.data.length) then s
      else if !block.ideOk then put s { c with state := 2, cause := 2 }
      else if block.ctr ≠ c.last + 1 then put s { c with state := 2, cause := 1 }
      else
        let s1 := if reach then s.homeWrite block.pa block.data false else s
        if block.ctr = BitVec.allOnes 64 then put s1 ⟨block.ctr, 0, 3⟩ else put s1 { c with last := block.ctr })

end Sys2Proof.Machine
end

