-- ==== Sys2Proof/Machine/Recovery.lean ====
section
/-! DEFINITION. Errors and their reports (R387 to R389, R403), and checkpoints and restores of a world (R252, R390 to R392). -/

namespace Sys2Proof.Machine

/-! ## Errors -/

namespace State

/-- A line is marked poisoned at every level that holds it, R387. -/
def poisonLine (s : State) (x : Nat) : State :=
  let s1 := s.markPoison x
  { s1 with cmeta := s1.cmeta.mapVals fun k m => if k % 2 ^ 45 = x then { m with poison := true } else m }

/-- Granules of a team's scratchpad of `n` bytes. -/
def teamGranules (gang team n : Nat) : List Nat := span (spadKey gang (team * 2 ^ 20) / 16) ((n + 15) / 16)

/-- A row tagged POISON: a lane that is not live reads 0, tagged RAW, whatever its row's tag, R96. -/
def poisonRow (r : Row) : Row := { r with fmt := 15, scl := 0 }

/-- A saved image restored as POISON: every row and granule that it holds, R387. -/
def poisonImage (s : State) (gang : Nat) : State :=
  match s.gangs.find? gang with
  | none => s
  | some g =>
    let saved := g.stat = .image ∨ g.stat = .swapped ∨ g.stat = .residue
    if ¬ saved then s
    else match s.tasks.find? g.task with
      | none => s
      | some k =>
        let teams := (span 0 k.record.teams).filter fun t => !g.deadTeams.getLsbD t
        let gs := if g.stat = .residue then [] else teams.flatMap fun t => teamGranules gang t k.record.spad
        { s with
          rows := s.rows.mapVals fun key r => if key / 16384 = gang then poisonRow r else r
          spadPoison := gs.foldl (fun m x => m.put x true) s.spadPoison }

/-- The tasks of a world whose leases cover some byte of an alias entry's destination. -/
def dependsOn (s : State) (e : AliasEntry) : List Nat :=
  (s.tasks.filter fun k => k.2.world == e.world && k.2.stage == .leased && k.2.lease.any fun b =>
    b.frame == e.start / 65536).map (·.1)

/-- An alias entry that is lost, R387: its destination lines that had not landed are poisoned, and it is freed. -/
def loseAlias (s : State) (k : Nat) (e : AliasEntry) : State :=
  let lines := (span (e.start / 128) ((e.start + e.len - 1) / 128 + 1 - e.start / 128)).filter e.shows
  let s1 := { s with alias_ := s.alias_.erase k }.refund [e]
  lines.foldl State.poisonLine s1

/-- The die and the world of a thread, for a report. -/
def whereOf (s : State) (t : Nat) : Nat × Nat := (s.coreOf t / 96, s.worldOf t)

end State

/-- What an uncorrectable error does where it strikes, R387. -/
def strike (s : State) : ErrSite → State
  | .line pa => s.poisonLine (pa / 128)
  | .scratch gang la =>
    { s with spadPoison := s.spadPoison.put (spadKey gang la / 16) true }.settleObjects gang
  | .row crew reg =>
    if (s.rows.find? (crew * 32 + reg)).isSome then { s with rows := s.rows.adjust (crew * 32 + reg) State.poisonRow } else s
  | .ringTile gang quad tile =>
    let k := tileKey gang quad tile
    { s with tiles := s.tiles.set Tile.clear k { s.tiles.get Tile.clear k with poison := true } }
  | .portEntry thread dir =>
    match s.ports.get [] (thread * 4 + dir.toNat) with
    | [] => s
    | e :: es => { s with ports := s.ports.put (thread * 4 + dir.toNat) ({ e with fmt := 15, scl := 0 } :: es) }
  | .operand req => match s.reqs.find? req with
    | some r => if (s.gangs.find? r.gang).any fun g => decide (g.stat = GStat.resident) then s.operandFault r.gang else s
    | none => s
  | .image gang => s.poisonImage gang
  | .translation task => s.endTask task .lease none
  | .frameTag task => s.endTask task .lease none
  | .aliasEntry k => match s.alias_.find? k with
    | none => s
    | some e => (s.dependsOn e).foldl (fun s t => s.endTask t .lease none) (s.loseAlias k e)

/-- The die whose log takes the report of an error, and the report's unit, world and index, R403 (log entry 18). -/
def siteReport (s : State) : ErrSite → Nat × BitVec 32
  | .line pa =>
    let die := pa / 65536 % 8
    let w := (s.frameOwner pa).getD 0
    if isPool pa then (die, State.faultWord 6 1 w die) else (die, State.faultWord 1 1 w (2 * die + pa / 2 ^ 23 % 2))
  | .scratch gang la =>
    let d := s.whereOf (gang * 16384 + la / 2 ^ 20 * 1024)
    (d.1, State.faultWord 2 1 d.2 d.1)
  | .row crew _ => let d := s.whereOf (crew * 32); (d.1, State.faultWord 2 1 d.2 d.1)
  | .ringTile gang quad _ => (quad / 24, State.faultWord 2 1 (s.gangWorld gang) (quad / 24))
  | .portEntry thread _ => let d := s.whereOf thread; (d.1, State.faultWord 2 1 d.2 d.1)
  | .operand req => match s.reqs.find? req with
    | some r => (r.quad / 24, State.faultWord 2 1 (s.gangWorld r.gang) (r.quad / 24))
    | none => (0, State.faultWord 2 1 0 0)
  | .image gang => (0, State.faultWord 1 1 (s.gangWorld gang) 0)
  | .translation task => (0, State.faultWord 1 1 (((s.tasks.find? task).map (·.world)).getD 0) 0)
  | .frameTag task => (0, State.faultWord 1 1 (((s.tasks.find? task).map (·.world)).getD 0) 0)
  | .aliasEntry k => (aliasDie k, State.faultWord 4 1 (((s.alias_.find? k).map (·.world)).getD 0) (k / 1024))

/-- `UNCORRECTABLE_ERROR`, R387, R403. -/
def execUncorrectableError (site : ErrSite) (s : State) : Out :=
  let r := siteReport s site
  .next ((strike s site).report r.1 r.2)

/-- The number of a unit kind in the fault log, R403. -/
def UnitKind.num : UnitKind → Nat
  | .hbm => 1 | .die => 2 | .hubCore => 3 | .slice => 4 | .crossing => 5 | .poolPort => 6 | .hostPort => 7

/-- The die whose log takes a report on a unit (log entry 18). -/
def unitDie (u : UnitKind) (index : Nat) : Nat :=
  match u with
  | .hbm => index / 2 % 8
  | .die => index % 8
  | .slice => index / 64 % 8
  | .poolPort => index % 8
  | _ => 0

/-- `CORRECTABLE_ERROR`, R387: counted, with no other effect. -/
def execCorrectableError (unit : UnitKind) (index : Nat) (s : State) : Out :=
  let k := UnitKind.num unit * 2 ^ 17 + index % 2 ^ 17
  .next { s with regs := { s.regs with corrected := s.regs.corrected.put k (s.regs.corrected.get 0 k + 1) } }

namespace State

/-- A checkpoint of a world is triggered; further triggers merge into one that is held, R390. -/
def setTrigger (s : State) (w : Nat) : State := s.updWorld w fun x => if x.running then { x with trigger := true } else x

/-- Every tenant world. -/
def tenants (s : State) : List Nat := (s.worlds.map (·.1)).filter (· != 0)

end State

/-- `ERROR_THRESHOLD_WARNING`, R390, R403: a report, and with WARN a checkpoint of every world when a stack, link or die is the
unit. -/
def execErrorThresholdWarning (unit : UnitKind) (index : Nat) (s : State) : Out :=
  let s1 := s.report (unitDie unit index) (State.faultWord (UnitKind.num unit) 2 0 index)
  let feeds := match unit with
    | .hbm | .die | .crossing => true
    | _ => false
  .next (if feeds && s.regs.ckptCtl.getLsbD 0 then s1.tenants.foldl State.setTrigger s1 else s1)

/-- COUNT, STATE and MODE of CKPTCTL. -/
def ckptFields (v : BitVec 32) : Nat × Nat × Nat :=
  ((v.extractLsb' 12 20).toNat, (v.extractLsb' 10 2).toNat, (v.extractLsb' 8 2).toNat)

/-- A restore sets STATE to 3, from which the intervals then count, R390. -/
def State.recovery (s : State) : State :=
  if (ckptFields s.regs.ckptCtl).2.1 = 3 then s else s.setCkpt (s.regs.ckptCtl ||| 0x00000C00)

/-- `SERVICE_LINE_POISON`, R389, R198: a tenant world's interface enters ERROR; for world 0 every tenant world is quiesced for a
restore, which begins here (R390). -/
def execServiceLinePoison (world : Nat) (s : State) : Out :=
  .next (
    if world = 0 then
      s.tenants.foldl (fun s w => s.updWorld w fun x => { x with restoring := true })
        (if s.tenants.any fun w => (s.durable.find? w).isSome then s.recovery else s)
    else if (s.worlds.find? world).any fun w => decide (w.tdisp = .run) then s.errorState world else s)

/-! ## Triggers, R390 -/

/-- `CHECKPOINT_TIMER`, R390: units of 2^24 cycles since the write of MODE or STATE, or since the last interval of the world. -/
def execCheckpointTimer (world : Nat) (s : State) : Out :=
  .next (
    let (count, st, mode) := ckptFields s.regs.ckptCtl
    let base := s.regs.ckptBase.get s.regs.ckptSince world
    if world = 0 || st = 0 || mode ≠ 1 || count = 0 || s.clock < base + count * 2 ^ 24 then s
    else { s with regs := { s.regs with ckptBase := s.regs.ckptBase.put world (base + count * 2 ^ 24) } }.setTrigger world)

/-- `CHECKPOINT_STEP_COUNT`, R390. -/
def execCheckpointStepCount (world : Nat) (s : State) : Out :=
  .next (
    let (count, st, mode) := ckptFields s.regs.ckptCtl
    let base := s.regs.ckptBase.get 0 world
    let done := ((s.worlds.find? world).map (·.completions)).getD 0
    if world = 0 || st = 0 || mode ≠ 2 || count = 0 || done < base + count then s
    else { s with regs := { s.regs with ckptBase := s.regs.ckptBase.put world (base + count) } }.setTrigger world)

/-! ## Snapshots, R252, R391 -/

namespace State

/-- The gangs of a world. -/
def gangsIn (s : State) (w : Nat) : List Nat := (s.gangs.map (·.1)).filter fun g => s.gangWorld g == w

/-- Whether a world is quiesced: no gang resident, nothing in flight, and no write that waits. -/
def quiesced (s : State) (w : Nat) : Bool :=
  !s.dirtyRewriting && (s.gangsIn w).all (fun g => (s.gangs.find? g).all fun x => decide (x.stat ≠ GStat.resident)) &&
  s.ops.values.all fun o => s.worldOf o.thread != w

/-- The frames of the leased regions of a world's open tasks, R391: those of the lease, or of the tables where a task has none yet. -/
def snapFrames (s : State) (w : Nat) : List Nat :=
  let tasks := s.tasks.values.filter fun k => k.world == w && k.stage != .completed
  (tasks.flatMap fun k =>
    if k.stage = .leased then (k.lease.map (·.frame)).filter fun f => s.mayUse w (f * 65536)
    else k.record.cover.filterMap fun b =>
      (s.walk w (b.1 * 65536)).bind fun x => if s.mayUse w x.pa then some (x.pa / 65536) else none).eraseDups

/-- The lines of a world's queue rings and of its open tasks' records that lie in none of some frames, R391. -/
def snapLines (s : State) (w : Nat) (frames : List Nat) : List Nat :=
  let tasks := s.tasks.values.filter fun k => k.world == w && k.stage != .completed
  let rings := (s.queues.values.filter fun q => q.world == w).flatMap fun q =>
    span (q.base / 128) ((q.base + 2 ^ q.size * 16 - 1) / 128 + 1 - q.base / 128)
  let records := tasks.flatMap fun k => (span 0 40).filterMap fun i =>
    (s.walk w (k.at_ + 16 * i)).bind fun x => if s.mayUse w x.pa then some (x.pa / 128) else none
  ((rings ++ records).eraseDups).filter fun x => !frames.contains (x / 512)

/-- The highest `n` frames below frame `f` that are none of `used`; the first argument bounds the search. -/
def freeFrames (used : List Nat) : Nat → Nat → Nat → List Nat
  | 0, _, _ => []
  | _, 0, _ => []
  | _, _, 0 => []
  | fuel + 1, n + 1, f + 1 =>
    if used.contains f then freeFrames used fuel (n + 1) f else f :: freeFrames used fuel n f

/-- Frames of world 0 that nothing uses, for a snapshot area of `n` frames, R252. -/
def areaFrames (s : State) (n : Nat) : List Nat :=
  let held : List (List Nat) :=
    [s.owner.keys, s.shared.keys, s.unswept, s.mem.keys.map (· / 65536), s.meta_.keys.map (· / 512),
     s.cmeta.keys.map (fun k => k % 2 ^ 45 / 512), s.snaps.values.flatMap (fun p => p.frames),
     s.queues.values.flatMap (fun q => span (q.base / 65536) ((q.base + 2 ^ q.size * 16 - 1) / 65536 + 1 - q.base / 65536)),
     s.tasks.values.flatMap (fun k => k.lease.map (·.frame))]
  let used := held.flatten.eraseDups
  freeFrames used (n + used.length) n (s.localTop / 65536)

/-- The segments that bring 4 KiB at `a` to 4 KiB at `d`, R232. -/
def blockSegs (s : State) (d a : Nat) : List Seg :=
  if s.alias_.values.all fun e => e.state == 0 || decide (e.start + e.len ≤ a) || decide (a + 4096 ≤ e.start) then [⟨d, a, 4096, none⟩]
  else s.segments ((span 0 4096).map fun i => (d + i, a + i))

/-- A line of the area copied at once. -/
def copyLine (s : State) (a x : Nat) : State :=
  let r := s.readAliased x
  ((s.raiseHot x).rawWrite (a * 128) r.bytes).setMeta a fun m => { m with tags := r.tags, poison := r.poison }

/-- Segments of a snapshot recorded against world 0's quota, or copied at once where entries that give the sources' tags cannot be had,
R248, R252; `lines` pairs the area's lines with their sources. -/
def recordArea (s : State) (lines : List (Nat × Nat)) (gs : List Seg) : State :=
  let shared := lines.any fun ax => (s.shared.find? (ax.2 / 512)).isSome
  match (if shared then none else s.entriesFor 0 none true gs) with
  | some es =>
    let s1 := s.record 0 es
    if lines.all fun ax => (s1.readAliased ax.1).tags == (s.readAliased ax.2).tags then s1
    else lines.foldl (fun s ax => s.copyLine ax.1 ax.2) s
  | none => lines.foldl (fun s ax => s.copyLine ax.1 ax.2) s

/-- The frames that the snapshot area of a world needs. -/
def areaNeed (s : State) (w : Nat) : Nat :=
  let fs := s.snapFrames w
  fs.length + ((s.snapLines w fs).length + 511) / 512

/-- The snapshot area of a world: its frames, and each source line with its line in the area. The leased frames come first, one to a
frame, and then the other lines, packed. -/
def layArea (s : State) (w : Nat) : List Nat × List (Nat × Nat) × List (Nat × Nat) :=
  let fs := s.snapFrames w
  let xs := s.snapLines w fs
  let area := s.areaFrames (s.areaNeed w)
  let rest := area.drop fs.length
  (area, (fs.zip area), xs.zipIdx.map fun xi => (xi.1, rest.getD (xi.2 / 512) 0 * 512 + xi.2 % 512))

/-- One copy of each part of a world recorded into its area, R252. -/
def fillArea (s : State) (whole : List (Nat × Nat)) (single : List (Nat × Nat)) : State :=
  let s1 := whole.foldl (fun s fa => (span 0 16).foldl (fun s i =>
    let a := fa.1 * 65536 + i * 4096
    let d := fa.2 * 65536 + i * 4096
    s.recordArea ((span 0 32).map fun j => (d / 128 + j, a / 128 + j)) (s.blockSegs d a)) s) s
  single.foldl (fun s xa =>
    s.recordArea [(xa.2, xa.1)] (s.segments ((span 0 128).map fun i => (xa.2 * 128 + i, xa.1 * 128 + i)))) s1

/-- What some gangs hold in a map whose keys count `per` to a gang. -/
def ofGangs {α : Type} (gs : List Nat) (per : Nat) (m : FMap α) : FMap α := m.keep fun k _ => gs.contains (k / per)

/-- The snapshot of a world at one recording point, R252, R391: its memory goes into the area, and the rest is kept beside it. -/
def snapshot (s : State) (w : Nat) (x : World) : State :=
  let gs := s.gangsIn w
  let (area, whole, single) := s.layArea w
  let p : Snapshot :=
    { number := s.nextId, frames := area,
      todo := (whole.flatMap fun fa => (span 0 512).map fun i => (fa.1 * 512 + i, fa.2 * 512 + i)) ++ single,
      shipped := [], mem := [], meta_ := [], world := x,
      queues := s.queues.keep fun _ q => q.world == w, tasks := s.tasks.keep fun _ k => k.world == w,
      gangs := s.gangs.keep fun g _ => gs.contains g, rows := ofGangs gs 16384 s.rows, valid := ofGangs gs 4096 s.valid,
      threads := ofGangs gs 16384 s.threads, ports := ofGangs gs 65536 s.ports, spad := ofGangs gs (2 ^ 24) s.spad,
      spadTag := ofGangs gs (2 ^ 20) s.spadTag, spadPoison := ofGangs gs (2 ^ 20) s.spadPoison,
      ringH := ofGangs gs 192 s.ringH, ringT := ofGangs gs 192 s.ringT, ring := ofGangs gs 50331648 s.ring,
      tiles := ofGangs gs 3072 s.tiles, epi := ofGangs gs 192 s.epi, revoked := [],
      batches := s.batches.keep fun _ b => gs.contains (b.crew / 512), fetches := s.fetches.keep fun _ f => gs.contains f.gang }
  { s with snaps := s.snaps.put w p, nextId := s.nextId + 1 }.fillArea whole single

/-- The area of a world's snapshot is given up: what is left of its entries is freed, and its frames are to be swept, R203, R246. -/
def dropArea (s : State) (w : Nat) : State :=
  match s.snaps.find? w with
  | none => s
  | some p =>
    let s1 := p.frames.foldl (fun s f => s.dropAliases (f * 65536) (f * 65536 + 65536)) s
    { s1 with unswept := s1.unswept ++ p.frames.filter (fun f => !s1.unswept.contains f), snaps := s1.snaps.erase w }

end State

/-- `CHECKPOINT`, R390, R391, R252: firmware's trigger, and for a world that is triggered and quiesced the recording point: caches
are pushed, the snapshot is recorded, and the queues resume. It waits while world 0 has too few free frames (log entry 19). -/
def execCheckpoint (world : Nat) (s : State) : Out :=
  .next (match s.worlds.find? world with
    | none => s
    | some x =>
      if world = 0 || !x.running then s
      else if !x.trigger then s.setTrigger world
      else if (s.snaps.find? world).isSome || !s.quiesced world then s
      else
        let s1 := s.pushWorld world
        if (s1.areaFrames (s1.areaNeed world)).length < s1.areaNeed world then s
        else (s1.snapshot world x).updWorld world fun x => { x with trigger := false })

/-- `SNAPSHOT_DURABLE`, R391: every line has been shipped and acknowledged. -/
def execSnapshotDurable (world : Nat) (s : State) : Out :=
  .next (match s.snaps.find? world with
    | none => s
    | some p =>
      if p.todo.isEmpty then { s.dropArea world with durable := s.durable.put world p } else s)

/-! ## Restore, R392 -/

namespace State

/-- What gangs hold replaced by what a snapshot holds. -/
def graft {α : Type} (old : List Nat) (per : Nat) (new m : FMap α) : FMap α :=
  new.foldl (fun (m : FMap α) kv => m.put kv.1 kv.2) (m.keep fun k _ => !old.contains (k / per))

/-- One line of a snapshot written back: what depends on the line lands first, R242. -/
def restoreLine (p : Snapshot) (s : State) (x : Nat) : State :=
  let s1 := s.beforeWrite x
  { s1 with
    mem := s1.mem.splice (x * 128) (x * 128 + 128) (p.mem.slice (x * 128) (x * 128 + 128))
    meta_ := s1.meta_.set LineMeta.clear x (p.meta_.get LineMeta.clear x) }

/-- The marks of the sweeps that a snapshot is older than, R182. -/
def revokedMarks (p : Snapshot) (bs : List (BitVec 8)) : Bool :=
  leNat bs / 2 ^ 120 % 16 != 1 && p.revoked.any fun r => decide (r.1 ≤ capBaseOf bs) && decide (capBaseOf bs < r.1 + r.2)

/-- A world's caches, translations, pending requests and unfinished snapshot dropped. -/
def dropWorld (s0 : State) (w : Nat) : State :=
  let s := s0.dropArea w
  let mine := (s.cmeta.filter fun c => c.2.world == w).map (·.1)
  { s with
    cbytes := s.cbytes.keep fun k _ => !mine.contains (mKey (k / 2 ^ 52) (k % 2 ^ 52 / 128))
    cmeta := s.cmeta.keep fun k _ => !mine.contains k
    tlb := s.tlb.filter fun e => !(s.tasks.find? e.task).any fun k => k.world == w
    ahead := s.ahead.filter fun e => !(s.tasks.find? e.task).any fun k => k.world == w
    batches := s.batches.keep fun _ b => b.world != w }

/-- A task of a snapshot as it comes back, R203, R392: its lease holds the frames that its world may use now. -/
def backTask (s : State) (w : Nat) (k : Task) : Task :=
  { k with lease := k.lease.filter fun b => s.mayUse w (b.frame * 65536), pins := k.pins.filter fun q => s.mayUse w (q * 65536) }

/-- A world's Pool pages are pinned for its leases no longer. -/
def unpinWorld (s : State) (w : Nat) : State :=
  ((s.tasks.values.filter fun k => k.world == w).flatMap (·.pins)).foldl (fun s q => s.pin q false) s

/-- The pins of the leases that a snapshot brings back. -/
def backPins (s : State) (w : Nat) (p : Snapshot) : List Nat := p.tasks.values.flatMap fun k => (s.backTask w k).pins

/-- A world returned to a snapshot, R392; the report names the checkpoint. Only lines of frames that the world may use are written (R197),
its leases hold no other frame (R203), the Pool pages among them are pinned in their frames (R15), and a service call that a saved gang
waits for is to be served again. -/
def restoreFrom (s : State) (w : Nat) (p0 : Snapshot) : State :=
  let p := sweepSnap (revokedMarks p0) p0
  let old := s.gangsIn w
  let s1 := (old.foldl State.killGang s).dropWorld w
  let s2 := s1.unpinWorld w
  let s3 := (p.shipped.filter fun x => s2.mayUse w (x * 128)).foldl (restoreLine p) s2
  let saved (q : Nat) : List Nat := (p.gangs.filter fun g =>
    (p.tasks.find? g.2.task).any (fun k => k.queue == q) &&
      (decide (g.2.stat = GStat.image) || decide (g.2.stat = GStat.residue))).map (·.1)
  let waiting (q : Nat) (x : Queue) : List Nat := saved q ++ x.ahead.filter fun g => !(saved q).contains g
  let again (q : Nat) (x : Queue) : Queue := { x with deficit := 0, ahead := waiting q x }
  let s4 := { s3 with
    tasks := p.tasks.foldl (fun (m : FMap Task) (k : Nat × Task) => m.put k.1 (s3.backTask w k.2)) (s3.tasks.keep fun _ k => k.world != w)
    gangs := p.gangs.foldl (fun (m : FMap Gang) (g : Nat × Gang) => m.put g.1 g.2) (s3.gangs.keep fun g _ => !old.contains g)
    queues := p.queues.foldl (fun (m : FMap Queue) (q : Nat × Queue) => m.put q.1 (again q.1 q.2))
      (s3.queues.keep fun _ q => q.world != w)
    rows := graft old 16384 p.rows s3.rows
    valid := graft old 4096 p.valid s3.valid
    threads := graft old 16384 p.threads s3.threads
    ports := graft old 65536 p.ports s3.ports
    spad := graft old (2 ^ 24) p.spad s3.spad
    spadTag := graft old (2 ^ 20) p.spadTag s3.spadTag
    spadPoison := graft old (2 ^ 20) p.spadPoison s3.spadPoison
    ringH := graft old 192 p.ringH s3.ringH
    ringT := graft old 192 p.ringT s3.ringT
    ring := graft old 50331648 p.ring s3.ring
    tiles := graft old 3072 p.tiles s3.tiles
    epi := graft old 192 p.epi s3.epi
    batches := p.batches.foldl (fun (m : FMap Batch) (b : Nat × Batch) => m.put b.1 { b.2 with bound := none }) s3.batches
    fetches := p.fetches.foldl (fun (m : FMap Fetch) (f : Nat × Fetch) => m.put f.1 f.2) s3.fetches }
  let pages := s3.backPins w p
  let s5 := pages.foldl (fun s q => ((s.makeWay pages q).fillFrame q).pin q true) s4
  s5.updWorld w fun x =>
    { x with window := p.world.window, pointer := p.world.pointer, lastQ := p.world.lastQ, trigger := false, restoring := false,
             restored := some p.number }

/-- The open tasks of a world end with WORLD_POISON, R389. -/
def poisonTasks (s : State) (w : Nat) : State :=
  ((s.tasks.filter fun k => k.2.world == w && k.2.stage != .completed).map (·.1)).foldl
    (fun s t => s.endTask t .worldPoison none) s

end State

/-- `RESTORE`, R389, R392: it begins by quiescing the world, with STATE 3 (R390), and returns it to its last durable checkpoint once it is
quiesced and the sets of its leases' Pool pages have room (R218); a world without a checkpoint that must be restored has its tasks end with
WORLD_POISON. A world whose interface is in ERROR is restored as any other (log entry 34). -/
def execRestore (world : Nat) (s : State) : Out :=
  .next (match s.worlds.find? world with
    | none => s
    | some x =>
      if world = 0 then s
      else if !x.restoring then
        if (s.durable.find? world).isNone then s
        else s.recovery.updWorld world fun x => { x with restoring := true }
      else if !s.quiesced world then s
      else match s.durable.find? world with
        | some p =>
          if (p.shipped.any fun x => s.mayUse world (x * 128) && s.lineHeld x) ||
            !(s.unpinWorld world).setsFit ((s.backPins world p).eraseDups) then s
          else s.restoreFrom world p
        | none => (s.poisonTasks world).updWorld world fun x => { x with restoring := false })

end Sys2Proof.Machine
end

