-- ==== Sys2Proof/Machine/Sched.lean ====
section
/-! DEFINITION. A quarter's choice of the next run and its register arbiter (R301, R302, R304, R91). -/

namespace Sys2Proof.Machine

namespace State

/-- Rows of a crew that go to the spill region, R304: also one that only waits for data that is to be discarded. -/
def spillRows (s : State) (crew : Nat) (vs : List Nat) : State :=
  { s with rows := vs.foldl (fun (m : FMap Row) v =>
      m.put (crew * 32 + v) { m.get Row.empty (crew * 32 + v) with spilled := true }) s.rows }

/-- The youngest other crew of a quarter that holds rows above its floor in the pool, R304: of crews placed at one moment the
highest-numbered (log entry 65). -/
def spillVictim (s : State) (quarter crew : Nat) : Option Nat :=
  ((s.crewsOn quarter).filter fun c => c != crew && decide (s.floorOf c < s.poolRows c)).foldl
    (fun (best : Option Nat) c => match best with
      | none => some c
      | some b => if ((s.crews.find? b).map (·.placed)).getD 0 ≤ ((s.crews.find? c).map (·.placed)).getD 0 then some c
        else some b) none

/-- The registers of a crew whose rows stand in its quarter's pool, lowest first. -/
def poolRegs (s : State) (crew : Nat) : List Nat :=
  (span 0 32).filter fun v =>
    (s.rows.find? (crew * 32 + v)).any (fun r => !r.spilled) || (s.owedRegs crew).contains v

/-- Every row above its floor of the youngest other crew goes to the spill region, R304: its floor is taken to be the rows of its
lowest-numbered registers (log entry 65). -/
def spillFor (s : State) (quarter crew : Nat) : State :=
  match s.spillVictim quarter crew with
  | none => s
  | some v => s.spillRows v ((s.poolRegs v).drop (s.floorOf v))

/-- The spilled registers of a crew whose rows are still needed. -/
def spilledRegs (s : State) (crew : Nat) : List Nat :=
  ((s.rows.slice (crew * 32) (crew * 32 + 32)).filter fun kv =>
    kv.2.spilled && (kv.2.live != 0 || !kv.2.pend.isEmpty || (s.owing crew).contains (kv.1 - crew * 32))).map fun kv => kv.1 - crew * 32

/-- A crew's rows back in the pool, R304; one with no live and no pending lane is listed no more. -/
def backRows (s : State) (crew : Nat) : State :=
  (span 0 32).foldl (fun s v =>
    if (s.row crew v).spilled then s.setRow crew v { s.row crew v with spilled := false } else s) s

/-- A crew's rows are reloaded, other crews' being spilled while too few are free, R304. -/
def reload (s : State) (quarter crew : Nat) : Nat → State
  | 0 => s.backRows crew
  | n + 1 =>
    if s.rowsShort crew (s.spilledRegs crew).length then (s.spillFor quarter crew).reload quarter crew n
    else s.backRows crew

/-- Whether a thread is ready, R301; a woken thread is to execute its instruction again. -/
def isReady (h : Thread) : Bool := match h.stat with | .ready => true | .woken _ => true | _ => false

/-- Whether a crew's gang runs now. -/
def crewRuns (s : State) (crew : Nat) : Bool :=
  (s.gangs.find? (crew / 512)).any fun g => decide (g.stat = GStat.resident)

/-- The ready threads of a quarter. -/
def readyThreads (s : State) (quarter : Nat) : List (Nat × Thread) :=
  ((s.crewsOn quarter).filter s.crewRuns).flatMap fun c =>
    (s.threads.slice (c * 32) (c * 32 + 32)).filter fun th => isReady th.2

end State

/-- A group that could be granted: its crew and threads, all at one PC of one run. -/
structure Cand where
  crew : Nat
  threads : List (Nat × Thread)
  deriving DecidableEq, Repr

namespace State

/-- The steps that waiting has added to a thread's priority, R302. -/
def agedBy (s : State) (h : Thread) : Nat := (s.clock - h.since) / 4096

/-- The ready groups of a quarter, R301. -/
def candidates (s : State) (quarter : Nat) : List Cand :=
  let ts := s.readyThreads quarter
  let keyOf (th : Nat × Thread) : Nat × Nat × Nat := (crewOf th.1, th.2.pc, th.2.cont)
  ((ts.map keyOf).eraseDups).map fun k => ⟨k.1, ts.filter fun th => keyOf th == k⟩

/-- When a group's longest-ready thread became ready. -/
def candSince (c : Cand) : Nat := c.threads.foldl (fun m th => min m th.2.since) (c.threads.headD (0, Thread.fresh 0)).2.since

/-- A group's effective priority, R302: its task's class, and the steps of its longest-ready thread, at most 7. -/
def effective (s : State) (c : Cand) : Nat :=
  let cls := ((s.tasks.find? (s.taskOf (c.crew * 32))).map (·.cls)).getD 0
  let old := candSince c
  min 7 (cls + ((c.threads.filter fun th => th.2.since == old).map (·.2.age)).foldl max 0)

/-- The order of R302 as a list of numbers, the least first. -/
def rank (s : State) (c : Cand) : List Nat :=
  let cr := (s.crews.find? c.crew).getD ⟨0, 0, 0, false⟩
  [7 - s.effective c, cr.placed, cr.slot, candSince c, (c.threads.headD (0, Thread.fresh 0)).2.pc]

/-- Whether the first list comes before the second. -/
def lexLt : List Nat → List Nat → Bool
  | a :: as, b :: bs => decide (a < b) || (a == b && lexLt as bs)
  | [], _ :: _ => true
  | _, [] => false

/-- The first of some groups in the order of R302. -/
def firstCand (s : State) (cs : List Cand) : Option Cand :=
  cs.foldl (fun (best : Option Cand) c => match best with
    | none => some c
    | some b => if lexLt (s.rank c) (s.rank b) then some c else some b) none

/-- Whether a group is the one that yielded on a quarter, R91. -/
def didYield (s : State) (quarter : Nat) (c : Cand) : Bool :=
  match s.yielded.find? quarter with
  | none => false
  | some g => g.crew == c.crew && c.threads.any fun th => g.lanes.getLsbD (laneOf th.1)

/-- The group that a quarter grants next, R91, R302. -/
def nextCand (s : State) (quarter : Nat) : Option Cand :=
  let cs := s.candidates quarter
  match s.firstCand (cs.filter fun c => !s.didYield quarter c) with
  | some c => some c
  | none => s.firstCand cs

/-- The threads of a quarter that have waited long enough take their steps of priority, R302. -/
def ageReady (s : State) (quarter : Nat) : State :=
  (s.readyThreads quarter).foldl (fun s th => s.updThread th.1 fun h => { h with age := s.agedBy h }) s

/-- A group takes a quarter's slot and begins or continues its run, its crew's rows being reloaded first, R33, R301, R304. -/
def grant (s : State) (quarter : Nat) (c : Cand) : State :=
  let s1 := s.reload quarter c.crew 16
  let h := (c.threads.headD (0, Thread.fresh 0)).2
  let g : Group :=
    { crew := c.crew, lanes := laneMask (c.threads.map fun th => laneOf th.1), count := h.runLen,
      start := if h.cont = 0 then h.pc else h.runStart, held := false, short := 0 }
  let s2 := c.threads.foldl (fun s th => s.updThread th.1 fun h => { h with age := 0, since := s.clock }) s1
  { s2 with slots := s2.slots.put quarter g, yielded := s2.yielded.erase quarter }

end State

/-- `ISSUE_GRANT`, R301, R302: a free slot is granted to the first ready group. -/
def execIssueGrant (quarter : Nat) (s : State) : Out :=
  .next (match s.slots.find? quarter with
    | some _ => s
    | none =>
      let s1 := s.ageReady quarter
      match s1.nextCand quarter with
      | none => s
      | some c => s1.grant quarter c)

/-- `ISSUE_AGEING`, R302: 4,096 cycles ready without a grant add a step. -/
def execIssueAgeing (thread : Nat) (s : State) : Out :=
  .next (
    let h := s.thread thread
    if State.isReady h && decide (h.age < s.agedBy h) then s.updThread thread fun h => { h with age := h.age + 1 } else s)

/-- `REGISTER_SPILL`, R304: the instruction of a crew is held for rows that are not free, and the youngest other crew gives up its rows
above its floor. -/
def execRegisterSpill (quarter crew : Nat) (s : State) : Out :=
  .next (match s.slots.find? quarter with
    | none => s
    | some g => if g.crew = crew ∧ g.held = true ∧ s.rowsShort crew g.short = true then s.spillFor quarter crew else s)

end Sys2Proof.Machine
end

