-- ==== Sys2Proof/Machine/Sync.lean ====
section
/-! DEFINITION. The synchronisation, port and work instructions (spec/21, R339 to R355) and the events that complete them:
barriers, barrier objects, circular buffers, neighbour ports, service calls, `fetchw` and `tlaunch`. -/

namespace Sys2Proof.Machine

/-! ## Barriers -/

/-- `bar`, R318, R342. -/
def execBar (b : BitVec 2) (ct : Ctl) (st : State) : Out :=
  .next (((slotThreads st).map gangOf).eraseDups.foldl State.settleBars
    (st.issue ct 4 (State.pureLane fun s t => .done (standAt (s.thread t).pc (.bar (b == 1))))))

/-- An object or buffer operation waits for the thread's earlier releases, R256, R341, and for its own earlier accesses to the
object's bytes, R71, R258, R260. -/
def objHold (s : State) (t la n : Nat) (write : Bool) : Rd Unit :=
  if s.releasing t || s.ownPending t la n write then .error (.hold 0) else .ok ()

/-- `binit`, R343: the object is written whole, poisoned or not. -/
def execBinit (c : BitVec 3) (v : BitVec 5) (ct : Ctl) (st : State) : Out :=
  .next (st.issue ct 4 fun s t => State.laneS s do
    let (la, n) ← s.objRef t c.toNat 16 (s.readSrc t v.toNat Acc.int)
    failIf (n == 0 || decide (65535 < n.toNat)) Cause.format n
    objHold s t la 16 true
    .ok (s.setObj (gangOf t) la (BarObj.init n.toNat), .done Done.nothing))

/-- `barv`, R343: a refused arrival sets OVR and faults. -/
def execBarv (c : BitVec 3) (v : BitVec 5) (p : BitVec 4) (ct : Ctl) (st : State) : Out :=
  .next (st.issue ct 4 fun s t => State.laneS s do
    let (la, n) ← s.objRef t c.toNat 16 (s.readSrc t v.toNat Acc.int)
    objHold s t la 16 true
    s.objPoison t la 16
    let o := s.objAt (gangOf t) la
    match o.arrive n.toNat with
    | none => .ok (s.setObj (gangOf t) la { o with ovr := true }, .fault Cause.barrierOverrun n)
    | some r => .ok ((s.setObj (gangOf t) la r.1).setPred t p r.2, .done Done.nothing))

/-- `bexp`, R343. -/
def execBexp (c : BitVec 3) (v : BitVec 5) (ct : Ctl) (st : State) : Out :=
  .next (st.issue ct 4 fun s t => State.laneS s do
    let (la, n) ← s.objRef t c.toNat 16 (s.readSrc t v.toNat Acc.int)
    objHold s t la 16 true
    s.objPoison t la 16
    let o := s.objAt (gangOf t) la
    match o.expecting n.toNat with
    | none => .ok (s.setObj (gangOf t) la { o with ovr := true }, .fault Cause.barrierOverrun n)
    | some o' => .ok (s.setObj (gangOf t) la o', .done Done.nothing))

/-- `bwait`, R321, R344. -/
def execBwait (c : BitVec 3) (v : BitVec 5) (p tmo : BitVec 4) (ct : Ctl) (st : State) : Out :=
  .next (st.issue ct 4 fun s t => State.laneS s do
    let (la, n) ← s.objRef t c.toNat 16 (s.readSrc t v.toNat Acc.int)
    objHold s t la 16 false
    s.objPoison t la 16
    let ph : BitVec 4 := n.extractLsb' 0 4
    if s.objPhase (gangOf t) la != ph then .ok (s.setPred t p true, .done Done.nothing)
    else
      let bound := if tmo = 15 then none else some (s.clock + 2 ^ (tmo.toNat + 5))
      .ok (s, .done (standAt (s.thread t).pc (.bwait la ph p bound))))

/-- `BWAIT_TIMEOUT`, R321: the bound has passed and the phase has not changed. -/
def execBwaitTimeout (thread : Nat) (s : State) : Out :=
  .next (
    let h := s.thread thread
    match h.stat with
    | .bwait _ _ pd (some b) =>
      if b ≤ s.clock ∧ (s.gangs.find? (gangOf thread)).any (fun g => decide (g.stat = GStat.resident)) then
        (s.setPred thread pd false).enter thread (h.pc + 4)
      else s
    | _ => s)

/-! ## Circular buffers -/

/-- The header of a buffer operation after the checks of R340, R431 and R326. -/
def bufHeader (s : State) (t c : Nat) {α : Type} (sources : Rd α) : Rd (Nat × Hdr × α) := do
  let (la, x) ← s.objRef t c 32 sources
  objHold s t la 32 true
  s.objPoison t la 32
  let h := s.hdrAt (gangOf t) la
  match h.firstBad with
  | some o => fail Cause.format (regNo o)
  | none => .ok (la, h, x)

/-- Whether a woken thread would be served before one that parked earlier, or before a lower lane of its instruction, and that does not
execute with it, R327. -/
def overtakes (s : State) (t : Nat) (why : ParkWhy) : Bool :=
  let h := s.thread t
  h.stat == .woken why && (s.waitersAt (gangOf t) why).any fun th =>
    (decide (th.2.parkedAt < h.parkedAt) || (th.2.parkedAt == h.parkedAt && decide (th.1 < t))) &&
    !((s.slots.find? s.cur).any fun g => g.crew == crewOf th.1 && g.lanes.getLsbD (laneOf th.1))

/-- A lane that takes a slot, R327, R345; one whose turn it is not parks again. -/
def bufTake (s : State) (t c d : Nat) (why : Nat → ParkWhy) (count : Hdr → Nat) (act : Hdr → Hdr × Nat) : State × LaneRes :=
  State.laneS s do
    let (la, h, _) ← bufHeader s t c (.ok ())
    if count h = 0 ∨ overtakes s t (why la) = true then .error (.park (why la))
    else
      let r := act h
      match s.finishLane t (oneReg d (BitVec.ofNat 32 r.2) 1 0 false []) with
      | .done x => .ok (s.setHdr (gangOf t) la r.1, .done x)
      | e => .error e

/-- A lane that returns a slot, R327, R345. -/
def bufGive (s : State) (t c d : Nat) (act : Hdr → Nat → Option Hdr) : State × LaneRes :=
  State.laneS s do
    let (la, h, x) ← bufHeader s t c (s.readSrc t d Acc.int)
    let a := x.toNat % 2 ^ 24
    match act h a with
    | none => fail Cause.barrierOverrun (regNo a)
    | some h' => .ok (s.setHdr (gangOf t) la h', .done Done.nothing)

/-- `bacq`, R345. -/
def execBacq (c : BitVec 3) (d : BitVec 5) (ct : Ctl) (st : State) : Out :=
  .next (st.issue ct 4 fun s t => bufTake s t c.toNat d.toNat .acquire (·.filled) Hdr.acq)

/-- `bget`, R345. -/
def execBget (c : BitVec 3) (d : BitVec 5) (ct : Ctl) (st : State) : Out :=
  .next (st.issue ct 4 fun s t => bufTake s t c.toNat d.toNat .take (·.free) Hdr.get)

/-- `brel`, R345. -/
def execBrel (c : BitVec 3) (d : BitVec 5) (ct : Ctl) (st : State) : Out :=
  .next (st.issue ct 4 fun s t => bufGive s t c.toNat d.toNat Hdr.rel)

/-- `bput`, R345. -/
def execBput (c : BitVec 3) (d : BitVec 5) (ct : Ctl) (st : State) : Out :=
  .next (st.issue ct 4 fun s t => bufGive s t c.toNat d.toNat Hdr.put)

/-! ## Neighbour ports -/

/-- A coordinate of a neighbour, wrapped or open, R331. -/
def wrapped (n : Nat) (wrap : Bool) (x : Int) : Option Nat :=
  if 0 ≤ x ∧ x < n then some x.toNat else if wrap then some (x % n).toNat else none

/-- The neighbour of a thread in a direction (0 N, 1 E, 2 S, 3 W), R331; none where it is absent. -/
def neighbour (s : State) (t : Nat) (d : BitVec 2) : Option Nat :=
  match s.recordOf t with
  | none => none
  | some r =>
    let rank := rankOf s t
    if r.gridH = 0 ∨ r.gridW = 0 ∨ r.gridH * r.gridW ≤ rank then none
    else
      let row : Int := rank / r.gridW
      let col : Int := rank % r.gridW
      let v := r.edges.getLsbD 0
      let h := r.edges.getLsbD 1
      let pos := match d.toNat with
        | 0 => (wrapped r.gridH v (row - 1)).map fun x => (x, col.toNat)
        | 1 => (wrapped r.gridW h (col + 1)).map fun y => (row.toNat, y)
        | 2 => (wrapped r.gridH v (row + 1)).map fun x => (x, col.toNat)
        | _ => (wrapped r.gridW h (col - 1)).map fun y => (row.toNat, y)
      match pos with
      | none => none
      | some (x, y) =>
        let n := x * r.gridW + y
        let per := r.crews * 32
        if n < r.teams * per then some (gangOf t * 16384 + n / per * 1024 + n % per) else none

/-- The opposite direction. -/
def opposite (d : BitVec 2) : BitVec 2 := d + 2

/-- The key of a port queue. -/
def portKey (t : Nat) (d : BitVec 2) : Nat := t * 4 + d.toNat

/-- The depth of a queue by where its two threads stand, R332. -/
def portDepth (s : State) (t u : Nat) : Nat :=
  let a := s.coreOf t
  let b := s.coreOf u
  if a = b then 4 else if a / 96 = b / 96 then 16 else 32

/-- Entries of a queue, in it or on their way. -/
def portCount (s : State) (t : Nat) (d : BitVec 2) : Nat :=
  (s.ports.get [] (portKey t d)).length + (s.flights.filter fun f => f.dest == t && f.dir == d).length

/-- Whether a thread has exited. -/
def gone (s : State) (t : Nat) : Bool := (s.thread t).stat == .exited

/-- The fences of a thread that hold back its later port deliveries: REL and FULL, R256, R261. -/
def holdingFences (s : State) (t : Nat) : List Nat :=
  (s.ops.filter fun ko => ko.2.thread == t && (match ko.2.kind with | .fence k _ => k == 0 || k == 1 | _ => false)).map (·.1)

/-- `psend`, R333, R346. -/
def execPsend (r : BitVec 2) (v : BitVec 5) (ct : Ctl) (st : State) : Out :=
  .next (st.issue ct 4 fun s t => State.laneS s do
    let x ← s.readSrc t v.toNat Acc.any
    let dropped := s.updThread t fun h => { h with drops := h.drops + 1 }
    match neighbour s t r with
    | none => .ok (dropped, .done Done.nothing)
    | some n =>
      if gone s n then .ok (dropped, .done Done.nothing)
      else if portDepth s t n ≤ portCount s n (opposite r) then .error (.park (.send r))
      else
        let tag := s.tagOf t v.toNat
        let e : PortEntry := if tag.1 = 11 then ⟨x, 0, 0⟩ else ⟨x, tag.1, tag.2⟩
        let f : Flight := ⟨t, n, opposite r, e, holdingFences s t⟩
        .ok ({ s with flights := s.flights ++ [f] }, .done Done.nothing))

/-- `precv`, R333, R346. -/
def execPrecv (r : BitVec 2) (v : BitVec 5) (ct : Ctl) (st : State) : Out :=
  .next (st.issue ct 4 fun s t => State.laneS s do
    match s.ports.get [] (portKey t r) with
    | e :: rest =>
      match s.finishLane t (oneReg v.toNat e.bits e.fmt e.scl false []) with
      | .done x => .ok ({ s with ports := s.ports.set [] (portKey t r) rest }, .done x)
      | y => .error y
    | [] =>
      let nb := neighbour s t r
      failIf ((match nb with | none => true | some n => gone s n) && portCount s t r == 0) Cause.portEdge (regNo r.toNat)
      .error (.park (.recv r)))

/-- The word of R336. -/
def pstatWord (s : State) (t : Nat) (r : BitVec 2) : BitVec 32 :=
  let waiting := (s.ports.get [] (portKey t r)).length
  match neighbour s t r with
  | none => BitVec.ofNat 32 (2 ^ 16 + waiting)
  | some n =>
    if gone s n then BitVec.ofNat 32 (2 ^ 17 + waiting)
    else BitVec.ofNat 32 ((portDepth s t n - portCount s n (opposite r)) * 2 ^ 8 + waiting)

/-- `pstat`, R346. -/
def execPstat (r : BitVec 2) (v : BitVec 5) (ct : Ctl) (st : State) : Out :=
  .next (st.issue ct 4 (State.pureLane fun s t => s.finishLane t (oneReg v.toNat (pstatWord s t r) 1 0 false [])))

/-- Takes the first element that a test accepts. -/
def takeFirst {α : Type} (p : α → Bool) : List α → Option (α × List α)
  | [] => none
  | x :: xs => if p x then some (x, xs) else (takeFirst p xs).map fun r => (r.1, x :: r.2)

/-- `PORT_ENTRY_ARRIVAL`, R261, R332, R334: the oldest entry on its way to a queue arrives, once the releases before it are
complete; one to a thread that has exited is dropped. -/
def execPortEntryArrival (thread : Nat) (dir : BitVec 2) (s : State) : Out :=
  .next (match takeFirst (fun (f : Flight) => f.dest == thread && f.dir == dir) s.flights with
    | none => s
    | some (f, rest) =>
      if f.fences.any fun x => (s.ops.find? x).isSome then s
      else if gone s thread then { s with flights := rest }
      else
        let key := portKey thread dir
        { s with flights := rest, ports := s.ports.set [] key (s.ports.get [] key ++ [f.entry]) })

/-! ## Waking parked threads, R36, R327, R333 -/

/-- Whether what a parked thread waits for has come about. -/
def parkClear (s : State) (t : Nat) (why : ParkWhy) : Bool :=
  let g := gangOf t
  match why with
  | .send d => (match neighbour s t d with
    | none => true
    | some n => gone s n || decide (portCount s n (opposite d) < portDepth s t n))
  | .recv d => !(s.ports.get [] (portKey t d)).isEmpty ||
    ((match neighbour s t d with | none => true | some n => gone s n) && portCount s t d == 0)
  | .acquire la => s.granulesPoisoned g la 32 || !s.allocated g la 32 || (s.hdrAt g la).firstBad.isSome ||
    decide ((s.waitersAt g why).countP (fun th => th.2.stat == .woken why) < (s.hdrAt g la).filled)
  | .take la => s.granulesPoisoned g la 32 || !s.allocated g la 32 || (s.hdrAt g la).firstBad.isSome ||
    decide ((s.waitersAt g why).countP (fun th => th.2.stat == .woken why) < (s.hdrAt g la).free)

/-- Whether a thread is the first to be served of those parked at a buffer: it parked earliest, and in one instruction its
lane is lowest; those woken before it are of the same instruction. -/
def parkTurn (s : State) (t : Nat) (why : ParkWhy) : Bool :=
  match why with
  | .send _ => true
  | .recv _ => true
  | _ =>
    let h := s.thread t
    (s.waitersAt (gangOf t) why).all fun th =>
      if th.2.stat == .parked why then
        th.1 == t || decide (h.parkedAt < th.2.parkedAt) || (h.parkedAt == th.2.parkedAt && decide (t < th.1))
      else crewOf th.1 == crewOf t && th.2.cont == h.cont

/-- `PARK_WAKE`, R36, R327, R333: a parked thread whose condition has cleared becomes ready. -/
def execParkWake (thread : Nat) (s : State) : Out :=
  .next (
    match (s.thread thread).stat with
    | .parked why =>
      if (s.gangs.find? (gangOf thread)).any (fun g => decide (g.stat = GStat.resident)) && parkClear s thread why
          && parkTurn s thread why then
        s.updThread thread fun h => { h with stat := .woken why, since := s.clock, age := 0 }
      else s
    | _ => s)

/-! ## Service calls, R316, R353 -/

/-- `svc`, R353: the lanes that execute it form one batch. Its rows of `v8` and `v9` are taken as it issues, R303. -/
def execSvc (u : BitVec 8) (ct : Ctl) (st : State) : Out :=
  .next (
    let id := st.nextId
    st.issue ct 4 fun s t => State.laneS s do
      failIf (s.coreOf t % 96 == 0) Cause.privilege (insnWord (.svc u ct))
      let args ← s.readGroup t Acc.any 8 8
      s.rowsFor t [8, 9]
      let handle := ((s.tasks.find? (s.taskOf t)).map (·.handle)).getD 0
      let fresh : Batch :=
        { num := u, world := s.worldOf t, die := s.coreOf t / 96, task := handle, crew := crewOf t, callers := [],
          sent := none, bound := none, aborted := false }
      -- the first lane opens the batch and moves `nextId` on
      let b : Batch := if s.nextId = id then fresh else (s.batches.find? id).getD fresh
      let b' := { b with callers := b.callers ++ [(laneOf t, tidOf t, args)] }
      let s1 := { s with batches := s.batches.put id b', nextId := id + 1 }
      .ok ((s1.pend t id 8).pend t id 9, .done (standAt ((s.thread t).pc + 4) (.svc id))))

/-- Whether a caller's buffer lies outside its lease, for the services of R417: a file read writes to it. -/
def bufferDenied (s : State) (gang : Nat) (num : BitVec 8) (args : List (BitVec 32)) : Bool :=
  let word (i : Nat) : Nat := (args.getD i 0).toNat
  let at_ := if num = 3 then word 4 + word 5 * 2 ^ 32 else word 6 + word 7 * 2 ^ 32
  (TaskRec.blocks at_ (word 3)).any fun b => !s.leased gang b (num == 1)

/-- `SVC_BATCH_SEND`, R353: the first stage of a release for each caller, the push to the TENANT point, and the batch joins
its die's queue; a number that no service is bound to is answered at once (R354, R417), and so are the callers whose buffer lies outside
their lease (R417, log entry 59) and a batch whose service context has failed (R402). -/
def execSvcBatchSend (batch : Nat) (s : State) : Out :=
  .next (match s.batches.find? batch with
    | none => s
    | some b =>
      let ts := b.callers.map fun c => b.crew * 32 + c.1
      let waits := s.ops.values.any fun o => ts.contains o.thread && fenceWaits o.kind
      if b.aborted then { s with batches := s.batches.erase batch }.reply batch b fun _ => some (0x80000004, 0)
      else if b.sent.isSome || waits || s.dirtyRewriting then s
      else
        let s1 := ts.foldl (fun s t => s.push (s.coreOf t) 3) s
        if b.num = 1 ∨ b.num = 2 ∨ b.num = 3 then
          let bad := b.callers.filter fun c => bufferDenied s (b.crew / 512) b.num c.2.2
          let good := b.callers.filter fun c => !bufferDenied s (b.crew / 512) b.num c.2.2
          let b' := { b with callers := good, sent := some s1.nextId }
          let s2 := if good.isEmpty then { s1 with batches := s1.batches.erase batch }
            else { s1 with batches := s1.batches.put batch b', nextId := s1.nextId + 1 }.serviceEvent b.die
          s2.reply batch { b with callers := bad } fun _ => some (0x80000002, 0)
        else
          let s2 := { s1 with batches := s1.batches.erase batch }
          s2.reply batch b fun _ => some (0x80000001, 0))

/-! ## `tlaunch`, R347 to R350 -/

/-- `tlaunch`, R348. -/
def execTlaunch (c : BitVec 3) (d : BitVec 5) (ct : Ctl) (st : State) : Out :=
  .next (st.issue ct 4 fun s t => State.laneS s do
    s.capPoison t c.toNat
    let ea := s.effAddr t c.toNat 0
    s.capChecks t c.toNat (· == 3) (·.r) ea 640 16 (State.addrNo ea)
    s.rowsFor t [d.toNat, d.toNat + 1]
    State.roomIn (s.thread t).ld
    .ok (s.issueLoad t [] (.launch ea.toNat d.toNat) [d.toNat, d.toNat + 1],
         .done ⟨[], [], [], none, .ready⟩))

/-- A refusal word, R349. -/
def refusal (n : Nat) : BitVec 64 := BitVec.ofNat 64 (2 ^ 63 + n)

/-- The submission of a record at `va`, R348, R349: the state and the handle or refusal word. Redirected reads of the record raise HOT,
R241. -/
def launch (s : State) (t va : Nat) : State × BitVec 64 :=
  let w := s.worldOf t
  let s := s.recordHot w va
  match s.readRecord w va with
  | none => (s, refusal 4)
  | some r => match s.queues.find? r.queue with
    | none => (s, refusal 2)
    | some q =>
      let running := w == 0 || (s.worlds.find? w).any (·.running)
      if q.world ≠ w then (s, refusal 2)
      else if !running then (s, refusal 3)
      else if 65535 ≤ s.openTasks r.queue then (s, refusal 1)
      else
        let cls := ((s.tasks.find? (s.taskOf t)).map (·.cls)).getD 0
        s.submit r.queue va r (min r.prio cls)

/-- One lane's submission, R348: its dirty bytes are pushed to the TENANT point, the record is submitted, and the handle or refusal word
is written. -/
def launchLane (s : State) (op : Nat) (o : Op) : State :=
  match o.kind with
  | .launch va reg =>
    let t := o.thread
    let (s1, h) := launch (s.push (s.coreOf t) 3) t va
    let ws := [(reg, h.extractLsb' 0 32, (0 : BitVec 4), (0 : BitVec 7)), (reg + 1, h.extractLsb' 32 32, 0, 0)]
    (s1.deliver t op o.insn ws).1.endLoad op o
  | _ => s

/-- `TLAUNCH_SUBMIT`, R348: the lanes of the operation's instruction submit together, in ascending order, once each may, so that their
tasks take consecutive SEQ values. -/
def execTlaunchSubmit (op : Nat) (s : State) : Out :=
  .next (match s.ops.find? op with
    | none => s
    | some o => match o.kind with
      | .launch _ _ =>
        let mates := s.ops.filter fun ko => ko.2.insn == o.insn
        if mates.all fun ko => s.mayPerform ko.1 ko.2 then mates.foldl (fun s ko => launchLane s ko.1 ko.2) s else s
      | _ => s)

/-! ## `fetchw`, R312, R351 -/

/-- `fetchw`, R351; its own earlier stores to the mailbox go first, as the example of R351 clears READY. -/
def execFetchw (c : BitVec 3) (v : BitVec 5) (ct : Ctl) (st : State) : Out :=
  .next (st.issue ct 4 fun s t => State.laneS s do
    let (la, h) ← s.objRef t c.toNat 32 (s.readPair t v.toNat Acc.int)
    if s.ownPending t la 32 false then .error (.hold 0)
    else
      .ok (s, .done (standAt ((s.thread t).pc + 4) (.fetchw la h))))

/-- `FETCHW_REGISTERED`, R351: a gang has at most 16 registered requests. -/
def execFetchwRegistered (thread : Nat) (s : State) : Out :=
  .next (
    let h := s.thread thread
    match h.stat with
    | .fetchw la handle =>
      let g := gangOf thread
      if (s.fetches.values.filter fun f => f.gang == g).length < 16 then
        let f : Fetch := ⟨g, la, handle⟩
        { s with fetches := s.fetches.put s.nextId f, nextId := s.nextId + 1 }.boundary thread h.pc
      else s
    | _ => s)

/-- The gang that a request is answered with, R312: the lowest-numbered pending gang of the task, adopted. -/
def adoptFrom (s : State) (adopter task : Nat) (k : Task) : State × Option Gang :=
  let back := s.requeued k
  let (s1, n) :=
    match back with
    | n :: _ => (s.updGang n fun g => { g with stat := .adopted adopter }, some n)
    | [] =>
      if k.next < k.record.gangCount then
        let r := s.takeGang task (.adopted adopter)
        (r.1, some r.2)
      else (s, none)
  match n with
  | none => (s1, none)
  | some n =>
    let s2 := s1.updGang adopter fun g => { g with adopts := g.adopts ++ [task] }
    let s3 := { s2 with queues := s2.queues.mapVals fun _ q => { q with ahead := q.ahead.filter (· != n) } }
    (s3, s3.gangs.find? n)

/-- The answer in the mailbox of R313, where its scratchpad is still there. -/
def writeMailbox (s : State) (gang la : Nat) (g : Option Gang) (handle : BitVec 64) : State :=
  let word (n : Nat) := leBytes 4 n
  let bs := match g with
    | some g => word 1 ++ word g.gx ++ word g.gy ++ word g.gz ++ leBytes 8 handle.toNat ++ leBytes 8 0
    | none => word 2 ++ leBytes 28 0
  if s.allocated gang la 32 then (s.spadWrite gang la bs false).settleObjects gang else s

/-- `FETCHW_ANSWER`, R312, R351: the oldest request of a gang, once its task's lease is established, or at once where the
handle names no task that could still hand over a gang. -/
def execFetchwAnswer (request : Nat) (s : State) : Out :=
  .next (match s.fetches.find? request with
    | none => s
    | some f =>
      let first := s.fetches.all fun kf => kf.2.gang != f.gang || decide (request ≤ kf.1)
      -- a gang saved by its handler has no scratchpad until it is placed again, R315, R382
      let away := (s.gangs.find? f.gang).any fun g => decide (g.stat = GStat.residue)
      if !first || away then s
      else
        let s1 := { s with fetches := s.fetches.erase request }
        match s.byHandle (s.gangWorld f.gang) f.handle with
        | none => writeMailbox s1 f.gang f.la none 0
        | some (task, k) =>
          if k.code.isSome || k.doomed.isSome || k.stage = .completed then writeMailbox s1 f.gang f.la none 0
          else if k.stage = .leased then
            let (s2, g) := adoptFrom s1 f.gang task k
            writeMailbox s2 f.gang f.la g f.handle
          else s)

end Sys2Proof.Machine
end

