-- ==== Sys2Proof/Machine/Dispatch.lean ====
section
/-! DEFINITION. The meaning of each instruction and event: one arm per constructor of Instr. -/

namespace Sys2Proof.Machine

def exec (i : Instr) (s : State) : Host.Outcome State Fault Refusal :=
  match i with
  | .add d a x l ct => Sys2Proof.Machine.execAdd d a x l ct s
  | .sub d a x l ct => Sys2Proof.Machine.execSub d a x l ct s
  | .mul d a x l ct => Sys2Proof.Machine.execMul d a x l ct s
  | .mulh d a x l ct => Sys2Proof.Machine.execMulh d a x l ct s
  | .mulhu d a x l ct => Sys2Proof.Machine.execMulhu d a x l ct s
  | .mad d a x l ct => Sys2Proof.Machine.execMad d a x l ct s
  | .min d a x l ct => Sys2Proof.Machine.execMin d a x l ct s
  | .max d a x l ct => Sys2Proof.Machine.execMax d a x l ct s
  | .minu d a x l ct => Sys2Proof.Machine.execMinu d a x l ct s
  | .maxu d a x l ct => Sys2Proof.Machine.execMaxu d a x l ct s
  | .and d a x l ct => Sys2Proof.Machine.execAnd d a x l ct s
  | .or d a x l ct => Sys2Proof.Machine.execOr d a x l ct s
  | .xor d a x l ct => Sys2Proof.Machine.execXor d a x l ct s
  | .andn d a x l ct => Sys2Proof.Machine.execAndn d a x l ct s
  | .shl d a x l ct => Sys2Proof.Machine.execShl d a x l ct s
  | .shr d a x l ct => Sys2Proof.Machine.execShr d a x l ct s
  | .sra d a x l ct => Sys2Proof.Machine.execSra d a x l ct s
  | .rotl d a x l ct => Sys2Proof.Machine.execRotl d a x l ct s
  | .popc d a l ct => Sys2Proof.Machine.execPopc d a l ct s
  | .clz d a l ct => Sys2Proof.Machine.execClz d a l ct s
  | .brev d a l ct => Sys2Proof.Machine.execBrev d a l ct s
  | .adds d a x l ct => Sys2Proof.Machine.execAdds d a x l ct s
  | .subs d a x l ct => Sys2Proof.Machine.execSubs d a x l ct s
  | .absd d a x l ct => Sys2Proof.Machine.execAbsd d a x l ct s
  | .bfx d a x l ct => Sys2Proof.Machine.execBfx d a x l ct s
  | .bfi d a x l ct => Sys2Proof.Machine.execBfi d a x l ct s
  | .mov d a l ct => Sys2Proof.Machine.execMov d a l ct s
  | .shfl d a x l ct => Sys2Proof.Machine.execShfl d a x l ct s
  | .ballot d a l ct => Sys2Proof.Machine.execBallot d a l ct s
  | .mov16 d x e => Sys2Proof.Machine.execMov16 d x e s
  | .add16 d x e => Sys2Proof.Machine.execAdd16 d x e s
  | .sub16 d x e => Sys2Proof.Machine.execSub16 d x e s
  | .and16 d x e => Sys2Proof.Machine.execAnd16 d x e s
  | .or16 d x e => Sys2Proof.Machine.execOr16 d x e s
  | .xor16 d x e => Sys2Proof.Machine.execXor16 d x e s
  | .shl16 d x e => Sys2Proof.Machine.execShl16 d x e s
  | .shr16 d x e => Sys2Proof.Machine.execShr16 d x e s
  | .sra16 d x e => Sys2Proof.Machine.execSra16 d x e s
  | .mul16 d x e => Sys2Proof.Machine.execMul16 d x e s
  | .fadd16 d x e => Sys2Proof.Machine.execFadd16 d x e s
  | .fsub16 d x e => Sys2Proof.Machine.execFsub16 d x e s
  | .fmul16 d x e => Sys2Proof.Machine.execFmul16 d x e s
  | .fmin16 d x e => Sys2Proof.Machine.execFmin16 d x e s
  | .fmax16 d x e => Sys2Proof.Machine.execFmax16 d x e s
  | .addi16 d m e => Sys2Proof.Machine.execAddi16 d m e s
  | .fadd d a x l ct => Sys2Proof.Machine.execFadd d a x l ct s
  | .fsub d a x l ct => Sys2Proof.Machine.execFsub d a x l ct s
  | .fmul d a x l ct => Sys2Proof.Machine.execFmul d a x l ct s
  | .ffma d a x l ct => Sys2Proof.Machine.execFfma d a x l ct s
  | .fmin d a x l ct => Sys2Proof.Machine.execFmin d a x l ct s
  | .fmax d a x l ct => Sys2Proof.Machine.execFmax d a x l ct s
  | .fdiv d a x l ct => Sys2Proof.Machine.execFdiv d a x l ct s
  | .fsqrt d a l ct => Sys2Proof.Machine.execFsqrt d a l ct s
  | .dadd d a x l ct => Sys2Proof.Machine.execDadd d a x l ct s
  | .dsub d a x l ct => Sys2Proof.Machine.execDsub d a x l ct s
  | .dmul d a x l ct => Sys2Proof.Machine.execDmul d a x l ct s
  | .dfma d a x l ct => Sys2Proof.Machine.execDfma d a x l ct s
  | .dmin d a x l ct => Sys2Proof.Machine.execDmin d a x l ct s
  | .dmax d a x l ct => Sys2Proof.Machine.execDmax d a x l ct s
  | .ddiv d a x l ct => Sys2Proof.Machine.execDdiv d a x l ct s
  | .dsqrt d a l ct => Sys2Proof.Machine.execDsqrt d a l ct s
  | .hadd d a x l ct => Sys2Proof.Machine.execHadd d a x l ct s
  | .hsub d a x l ct => Sys2Proof.Machine.execHsub d a x l ct s
  | .hmul d a x l ct => Sys2Proof.Machine.execHmul d a x l ct s
  | .hfma d a x l ct => Sys2Proof.Machine.execHfma d a x l ct s
  | .hmin d a x l ct => Sys2Proof.Machine.execHmin d a x l ct s
  | .hmax d a x l ct => Sys2Proof.Machine.execHmax d a x l ct s
  | .fcvt d a x l ct => Sys2Proof.Machine.execFcvt d a x l ct s
  | .fcpys d a x l ct => Sys2Proof.Machine.execFcpys d a x l ct s
  | .fneg d a l ct => Sys2Proof.Machine.execFneg d a l ct s
  | .fabs d a l ct => Sys2Proof.Machine.execFabs d a l ct s
  | .lmul d a x l ct => Sys2Proof.Machine.execLmul d a x l ct s
  | .ldot d a x l ct => Sys2Proof.Machine.execLdot d a x l ct s
  | .fclass d a l ct => Sys2Proof.Machine.execFclass d a l ct s
  | .frnd d a m l ct => Sys2Proof.Machine.execFrnd d a m l ct s
  | .addi d a m ct => Sys2Proof.Machine.execAddi d a m ct s
  | .andi d a m ct => Sys2Proof.Machine.execAndi d a m ct s
  | .ori d a m ct => Sys2Proof.Machine.execOri d a m ct s
  | .xori d a m ct => Sys2Proof.Machine.execXori d a m ct s
  | .shli d a m ct => Sys2Proof.Machine.execShli d a m ct s
  | .shri d a m ct => Sys2Proof.Machine.execShri d a m ct s
  | .srai d a m ct => Sys2Proof.Machine.execSrai d a m ct s
  | .muli d a m ct => Sys2Proof.Machine.execMuli d a m ct s
  | .movi d m ct => Sys2Proof.Machine.execMovi d m ct s
  | .movhi d m ct => Sys2Proof.Machine.execMovhi d m ct s
  | .ldb d c o l ct => Sys2Proof.Machine.execLdb d c o l ct s
  | .ldbu d c o l ct => Sys2Proof.Machine.execLdbu d c o l ct s
  | .ldh d c o l ct => Sys2Proof.Machine.execLdh d c o l ct s
  | .ldhu d c o l ct => Sys2Proof.Machine.execLdhu d c o l ct s
  | .ldw d c o l ct => Sys2Proof.Machine.execLdw d c o l ct s
  | .ldd d c o l ct => Sys2Proof.Machine.execLdd d c o l ct s
  | .stb d c o l ct => Sys2Proof.Machine.execStb d c o l ct s
  | .sth d c o l ct => Sys2Proof.Machine.execSth d c o l ct s
  | .stw d c o l ct => Sys2Proof.Machine.execStw d c o l ct s
  | .std d c o l ct => Sys2Proof.Machine.execStd d c o l ct s
  | .ldc d c o l ct => Sys2Proof.Machine.execLdc d c o l ct s
  | .stc d c o l ct => Sys2Proof.Machine.execStc d c o l ct s
  | .pref h c o l ct => Sys2Proof.Machine.execPref h c o l ct s
  | .cflush p c x l ct => Sys2Proof.Machine.execCflush p c x l ct s
  | .cmpeq p a x m ct => Sys2Proof.Machine.execCmpeq p a x m ct s
  | .cmpne p a x m ct => Sys2Proof.Machine.execCmpne p a x m ct s
  | .cmplt p a x m ct => Sys2Proof.Machine.execCmplt p a x m ct s
  | .cmple p a x m ct => Sys2Proof.Machine.execCmple p a x m ct s
  | .cmpltu p a x m ct => Sys2Proof.Machine.execCmpltu p a x m ct s
  | .cmpleu p a x m ct => Sys2Proof.Machine.execCmpleu p a x m ct s
  | .fcmpeq p a x m ct => Sys2Proof.Machine.execFcmpeq p a x m ct s
  | .fcmplt p a x m ct => Sys2Proof.Machine.execFcmplt p a x m ct s
  | .fcmple p a x m ct => Sys2Proof.Machine.execFcmple p a x m ct s
  | .fcmpun p a x m ct => Sys2Proof.Machine.execFcmpun p a x m ct s
  | .pset p a b t ct => Sys2Proof.Machine.execPset p a b t ct s
  | .pmov v r ct => Sys2Proof.Machine.execPmov v r ct s
  | .bra o ct => Sys2Proof.Machine.execBra o ct s
  | .call o ct => Sys2Proof.Machine.execCall o ct s
  | .jmpr a ct => Sys2Proof.Machine.execJmpr a ct s
  | .exit ct => Sys2Proof.Machine.execExit ct s
  | .nop ct => Sys2Proof.Machine.execNop ct s
  | .rdsr d x ct => Sys2Proof.Machine.execRdsr d x ct s
  | .wrsr a x ct => Sys2Proof.Machine.execWrsr a x ct s
  | .tag d f k ct => Sys2Proof.Machine.execTag d f k ct s
  | .tagrd d a ct => Sys2Proof.Machine.execTagrd d a ct s
  | .wait l x c t ct => Sys2Proof.Machine.execWait l x c t ct s
  | .yield ct => Sys2Proof.Machine.execYield ct s
  | .svc u ct => Sys2Proof.Machine.execSvc u ct s
  | .trap c ct => Sys2Proof.Machine.execTrap c ct s
  | .bar b ct => Sys2Proof.Machine.execBar b ct s
  | .capr d c f ct => Sys2Proof.Machine.execCapr d c f ct s
  | .cadd d f v ct => Sys2Proof.Machine.execCadd d f v ct s
  | .cbnd d f v x ct => Sys2Proof.Machine.execCbnd d f v x ct s
  | .cprm d f m ct => Sys2Proof.Machine.execCprm d f m ct s
  | .cmov d f ct => Sys2Proof.Machine.execCmov d f ct s
  | .ctst p c v t ct => Sys2Proof.Machine.execCtst p c v t ct s
  | .ldt d c m k l ct => Sys2Proof.Machine.execLdt d c m k l ct s
  | .stt x c m k t ct => Sys2Proof.Machine.execStt x c m k t ct s
  | .aadd d c x o ct => Sys2Proof.Machine.execAadd d c x o ct s
  | .amin d c x o ct => Sys2Proof.Machine.execAmin d c x o ct s
  | .amax d c x o ct => Sys2Proof.Machine.execAmax d c x o ct s
  | .aminu d c x o ct => Sys2Proof.Machine.execAminu d c x o ct s
  | .amaxu d c x o ct => Sys2Proof.Machine.execAmaxu d c x o ct s
  | .aand d c x o ct => Sys2Proof.Machine.execAand d c x o ct s
  | .aor d c x o ct => Sys2Proof.Machine.execAor d c x o ct s
  | .axor d c x o ct => Sys2Proof.Machine.execAxor d c x o ct s
  | .axchg d c x o ct => Sys2Proof.Machine.execAxchg d c x o ct s
  | .acas d c x o ct => Sys2Proof.Machine.execAcas d c x o ct s
  | .afadd d c x o ct => Sys2Proof.Machine.execAfadd d c x o ct s
  | .aaddD d c x o ct => Sys2Proof.Machine.execAaddD d c x o ct s
  | .acasD d c x o ct => Sys2Proof.Machine.execAcasD d c x o ct s
  | .fence o k ct => Sys2Proof.Machine.execFence o k ct s
  | .cpy d f v o x ct => Sys2Proof.Machine.execCpy d f v o x ct s
  | .tcpy t b v o x ct => Sys2Proof.Machine.execTcpy t b v o x ct s
  | .aqry d c ct => Sys2Proof.Machine.execAqry d c ct s
  | .amat c v o ct => Sys2Proof.Machine.execAmat c v o ct s
  | .mms c r ct => Sys2Proof.Machine.execMms c r ct s
  | .mmp c r ct => Sys2Proof.Machine.execMmp c r ct s
  | .rld d o v ct => Sys2Proof.Machine.execRld d o v ct s
  | .rst x o v ct => Sys2Proof.Machine.execRst x o v ct s
  | .rrel ct => Sys2Proof.Machine.execRrel ct s
  | .repi c ct => Sys2Proof.Machine.execRepi c ct s
  | .rpos d ct => Sys2Proof.Machine.execRpos d ct s
  | .rclr ct => Sys2Proof.Machine.execRclr ct s
  | .binit c v ct => Sys2Proof.Machine.execBinit c v ct s
  | .barv c v p ct => Sys2Proof.Machine.execBarv c v p ct s
  | .bexp c v ct => Sys2Proof.Machine.execBexp c v ct s
  | .bwait c v p t ct => Sys2Proof.Machine.execBwait c v p t ct s
  | .bacq c d ct => Sys2Proof.Machine.execBacq c d ct s
  | .brel c d ct => Sys2Proof.Machine.execBrel c d ct s
  | .bget c d ct => Sys2Proof.Machine.execBget c d ct s
  | .bput c d ct => Sys2Proof.Machine.execBput c d ct s
  | .psend r v ct => Sys2Proof.Machine.execPsend r v ct s
  | .precv r v ct => Sys2Proof.Machine.execPrecv r v ct s
  | .pstat r v ct => Sys2Proof.Machine.execPstat r v ct s
  | .fetchw c v ct => Sys2Proof.Machine.execFetchw c v ct s
  | .tlaunch c d ct => Sys2Proof.Machine.execTlaunch c d ct s
  | .tret ct => Sys2Proof.Machine.execTret ct s
  | .park ct => Sys2Proof.Machine.execPark ct s
  | .ctxsv c ct => Sys2Proof.Machine.execCtxsv c ct s
  | .ctxld c ct => Sys2Proof.Machine.execCtxld c ct s
  | .halt ct => Sys2Proof.Machine.execHalt ct s
  | .sweep c ct => Sys2Proof.Machine.execSweep c ct s
  | .svcget c ct => Sys2Proof.Machine.execSvcget c ct s
  | .svcput c ct => Sys2Proof.Machine.execSvcput c ct s
  | .fltrd d ct => Sys2Proof.Machine.execFltrd d ct s
  | .issueGrant quarter => Sys2Proof.Machine.execIssueGrant quarter s
  | .issueAgeing thread => Sys2Proof.Machine.execIssueAgeing thread s
  | .registerSpill quarter crew => Sys2Proof.Machine.execRegisterSpill quarter crew s
  | .parkWake thread => Sys2Proof.Machine.execParkWake thread s
  | .loadDataReturn op => Sys2Proof.Machine.execLoadDataReturn op s
  | .storePerformed op => Sys2Proof.Machine.execStorePerformed op s
  | .lineFill unit line => Sys2Proof.Machine.execLineFill unit line s
  | .writeBack unit line => Sys2Proof.Machine.execWriteBack unit line s
  | .cleanDiscard unit line => Sys2Proof.Machine.execCleanDiscard unit line s
  | .atomicPerform op => Sys2Proof.Machine.execAtomicPerform op s
  | .fenceComplete op => Sys2Proof.Machine.execFenceComplete op s
  | .cflushComplete op => Sys2Proof.Machine.execCflushComplete op s
  | .tlbWalkComplete core task va => Sys2Proof.Machine.execTlbWalkComplete core task va s
  | .copyRecording op => Sys2Proof.Machine.execCopyRecording op s
  | .eagerCopy op => Sys2Proof.Machine.execEagerCopy op s
  | .ferryDelivery op team bytes => Sys2Proof.Machine.execFerryDelivery op team bytes s
  | .ferryBufferPut op => Sys2Proof.Machine.execFerryBufferPut op s
  | .hotLanding entry => Sys2Proof.Machine.execHotLanding entry s
  | .checkpointLanding world line => Sys2Proof.Machine.execCheckpointLanding world line s
  | .amatLanding op => Sys2Proof.Machine.execAmatLanding op s
  | .aqryResult op => Sys2Proof.Machine.execAqryResult op s
  | .frameEviction page => Sys2Proof.Machine.execFrameEviction page s
  | .pageReencipher page done => Sys2Proof.Machine.execPageReencipher page done s
  | .frameSweep frame => Sys2Proof.Machine.execFrameSweep frame s
  | .revocationWalk world => Sys2Proof.Machine.execRevocationWalk world s
  | .sweepComplete world => Sys2Proof.Machine.execSweepComplete world s
  | .matrixGrant quad => Sys2Proof.Machine.execMatrixGrant quad s
  | .matrixEntryAgeing req => Sys2Proof.Machine.execMatrixEntryAgeing req s
  | .currentPermit site cycles => Sys2Proof.Machine.execCurrentPermit site cycles s
  | .operandsConsumed req => Sys2Proof.Machine.execOperandsConsumed req s
  | .matrixRequestComplete req => Sys2Proof.Machine.execMatrixRequestComplete req s
  | .epilogue req => Sys2Proof.Machine.execEpilogue req s
  | .rrelEffect req => Sys2Proof.Machine.execRrelEffect req s
  | .rclrEffect req => Sys2Proof.Machine.execRclrEffect req s
  | .matrixOperandFault req => Sys2Proof.Machine.execMatrixOperandFault req s
  | .bwaitTimeout thread => Sys2Proof.Machine.execBwaitTimeout thread s
  | .portEntryArrival thread dir => Sys2Proof.Machine.execPortEntryArrival thread dir s
  | .svcBatchSend batch => Sys2Proof.Machine.execSvcBatchSend batch s
  | .tlaunchSubmit op => Sys2Proof.Machine.execTlaunchSubmit op s
  | .fetchwRegistered thread => Sys2Proof.Machine.execFetchwRegistered thread s
  | .fetchwAnswer request => Sys2Proof.Machine.execFetchwAnswer request s
  | .windowEntry queue => Sys2Proof.Machine.execWindowEntry queue s
  | .leaseEstablish task => Sys2Proof.Machine.execLeaseEstablish task s
  | .placeGang world => Sys2Proof.Machine.execPlaceGang world s
  | .preempt gang why => Sys2Proof.Machine.execPreempt gang why s
  | .cooperativeSaveDone gang => Sys2Proof.Machine.execCooperativeSaveDone gang s
  | .hardwareSave gang => Sys2Proof.Machine.execHardwareSave gang s
  | .swapOut gang => Sys2Proof.Machine.execSwapOut gang s
  | .swapWake gang => Sys2Proof.Machine.execSwapWake gang s
  | .teamRetire gang team => Sys2Proof.Machine.execTeamRetire gang team s
  | .gangRetire gang => Sys2Proof.Machine.execGangRetire gang s
  | .taskCompletion task => Sys2Proof.Machine.execTaskCompletion task s
  | .taskEnd task code => Sys2Proof.Machine.execTaskEnd task code s
  | .shootdown world page => Sys2Proof.Machine.execShootdown world page s
  | .deviceReset report => Sys2Proof.Machine.execDeviceReset report s
  | .featacceptWrite value frameN => Sys2Proof.Machine.execFeatacceptWrite value frameN s
  | .notifyWrite world queue tail => Sys2Proof.Machine.execNotifyWrite world queue tail s
  | .lockInterface world => Sys2Proof.Machine.execLockInterface world s
  | .startInterface world => Sys2Proof.Machine.execStartInterface world s
  | .stopInterface world => Sys2Proof.Machine.execStopInterface world s
  | .configWrite world field => Sys2Proof.Machine.execConfigWrite world field s
  | .lockedRegisterWrite world => Sys2Proof.Machine.execLockedRegisterWrite world s
  | .queueSettingsWrite world queue value => Sys2Proof.Machine.execQueueSettingsWrite world queue value s
  | .ckptctlWrite world value => Sys2Proof.Machine.execCkptctlWrite world value s
  | .registerWrite world reg value => Sys2Proof.Machine.execRegisterWrite world reg value s
  | .frameAssign world frame => Sys2Proof.Machine.execFrameAssign world frame s
  | .frameReturn world frame => Sys2Proof.Machine.execFrameReturn world frame s
  | .extentAdd world base size => Sys2Proof.Machine.execExtentAdd world base size s
  | .extentRevoke extent grace => Sys2Proof.Machine.execExtentRevoke extent grace s
  | .graceExpiry extent => Sys2Proof.Machine.execGraceExpiry extent s
  | .hostAccess access => Sys2Proof.Machine.execHostAccess access s
  | .channelKeying world chan => Sys2Proof.Machine.execChannelKeying world chan s
  | .channelBlock world chan block => Sys2Proof.Machine.execChannelBlock world chan block s
  | .retrainTimer chan => Sys2Proof.Machine.execRetrainTimer chan s
  | .checkpointTimer world => Sys2Proof.Machine.execCheckpointTimer world s
  | .checkpointStepCount world => Sys2Proof.Machine.execCheckpointStepCount world s
  | .errorThresholdWarning unit index => Sys2Proof.Machine.execErrorThresholdWarning unit index s
  | .checkpoint world => Sys2Proof.Machine.execCheckpoint world s
  | .snapshotDurable world => Sys2Proof.Machine.execSnapshotDurable world s
  | .restore world => Sys2Proof.Machine.execRestore world s
  | .uncorrectableError site => Sys2Proof.Machine.execUncorrectableError site s
  | .correctableError unit index => Sys2Proof.Machine.execCorrectableError unit index s
  | .serviceLinePoison world => Sys2Proof.Machine.execServiceLinePoison world s
  | .firmwareUpdate image verifies => Sys2Proof.Machine.execFirmwareUpdate image verifies s
  | .unassignedFunctionCode word => Sys2Proof.Machine.execUnassignedFunctionCode word s
  | .illegalRun word => Sys2Proof.Machine.execIllegalRun word s
  | .firmwareDoorbell die => Sys2Proof.Machine.execFirmwareDoorbell die s

end Sys2Proof.Machine
end

