-- ==== Sys2Proof/Machine/Fetch.lean ====
section
/-! DEFINITION. Fetching and decoding the next instruction of a group, with the checks of R24, R34, R54 and R56 that come
before its execution. -/

namespace Sys2Proof.Machine

/-- What a fetch finds. -/
inductive Fetched where
  /-- The first byte address outside the PCC, R24. -/
  | outside (va : Nat)
  /-- No translation of the code under the lease, R213. -/
  | unmapped
  /-- A 25th instruction of the run, R34. -/
  | runLength
  /-- Step 3 of R56. -/
  | illegal (word : BitVec 32)
  /-- Step 4 of R56. -/
  | illegalRun (word : BitVec 32)
  /-- An instruction. -/
  | insn (i : Instr)
  deriving DecidableEq, Repr

namespace State

/-- A byte of code, R24, R25, R212, R215: none where the lease has no executable translation of it. -/
def codeAt (s : State) (t va : Nat) : Option (BitVec 8) :=
  match s.leaseBlock (gangOf t) (va / 65536) false with
  | some b => if b.exec && s.mayUse (s.worldOf t) (b.frame * 65536) then some (s.codeByte t va) else none
  | none => none

/-- The instruction that a decoder reads, with the feature gate of R54. -/
def gate (s : State) (word : BitVec 32) (r : Except DecodeFault Instr) : Fetched :=
  match r with
  | .ok i => if WellFormed.l6Gated i && !s.boot.featAccept.getLsbD 0 then .illegal word else .insn i
  | .error .illegalOp | .error .short => .illegal word
  | .error .illegalRun => .illegalRun word

/-- The fetch and decode of the instruction at the PC of a group's first thread, in the order of R56. Code without a translation under the
lease is found after the PCC's bounds, and before the length of the run and the decode (log entry 44). -/
def fetch (s : State) (g : Group) : Fetched :=
  let t := g.crew * 32 + (lanesOf g).headD 0
  let pc := (s.thread t).pc
  match s.outsidePcc t pc with
  | some va => .outside va
  | none =>
    match s.codeAt t pc, s.codeAt t (pc + 1) with
    | some b0, some b1 =>
      if Config.runLimit ≤ g.count && !g.held then .runLength
      else
        let h : BitVec 16 := b1 ++ b0
        if !h.getLsbD 0 then s.gate (h.setWidth 32) (Decode.half16 h)
        else match s.codeAt t (pc + 2), s.codeAt t (pc + 3) with
          | some b2, some b3 => s.gate (b3 ++ b2 ++ h) (Decode.word32 (b3 ++ b2 ++ h))
          | _, _ => .unmapped
    | _, _ => .unmapped

/-- The reads of a fetch raise HOT where they are redirected, R241: of the lines that hold the group's instruction. -/
def fetchHot (s : State) (g : Group) : State :=
  if s.alias_.isEmpty then s
  else
    let t := g.crew * 32 + (lanesOf g).headD 0
    let pc := (s.thread t).pc
    let n := if (s.codeByte t pc).getLsbD 0 then 4 else 2
    (((span pc n).filterMap fun a => (s.leaseBlock (gangOf t) (a / 65536) false).map fun b => (b.frame * 65536 + a % 65536) / 128).eraseDups).foldl
      State.raiseHot s

/-- A group's run is one instruction longer, R33; an instruction that was held has been counted. -/
def countInsn (s : State) (quarter : Nat) (g : Group) : State :=
  if g.held then s else { s with slots := s.slots.put quarter { g with count := g.count + 1 } }

/-- A group's task ends with LEASE: its code has no translation. -/
def endGroup (s : State) (g : Group) : State := s.endTask (s.taskOf (g.crew * 32)) .lease none

end State

end Sys2Proof.Machine
end

