-- ==== Sys2Proof/Machine/Turn.lean ====
section
/-! DEFINITION. What moves next: the moves that the agenda names, the move that is taken when it is empty (log entry 2), the
turn of an issue group, and the state in which a program's first instruction stands at the fetch. -/

namespace Sys2Proof.Machine

/-- Whether an instruction is a device event: no word encodes it, and it is no part of a group's own turn. -/
def isEvent (i : Instr) : Bool :=
  match i with
  | .unassignedFunctionCode _ | .illegalRun _ => false
  | i => !hasWord i

namespace State

/-- The turn of the group that holds the current quarter's slot, in the order of R56: its fetch, and the instruction. -/
def runSlot (s : State) : Out :=
  match s.slots.find? s.cur with
  | none => .next s
  | some g => match s.fetch g with
    | .outside va => .next (s.faultGroup Cause.capBounds (BitVec.ofNat 32 va))
    | .unmapped => .next (s.endGroup g)
    | .runLength => .next (s.faultGroup Cause.runLength (s.pcOffset (g.crew * 32 + (lanesOf g).headD 0) g.start))
    | .illegal w => execUnassignedFunctionCode w s
    | .illegalRun w => execIllegalRun w s
    | .insn i => exec i ((s.fetchHot g).countInsn s.cur g)

/-- The event that carries an operation on. -/
def opEvent (s : State) (id : Nat) (o : Op) : Instr :=
  match o.kind with
  | .load _ _ _ _ | .ringLoad _ _ _ _ _ _ | .contextLoad _ | .batchGet _ _ _ => .loadDataReturn id
  | .store _ _ _ | .ringStore _ _ _ _ _ | .contextStore _ | .batchPut _ => .storePerformed id
  | .atomic _ _ _ _ _ _ _ _ => .atomicPerform id
  | .query _ _ => .aqryResult id
  | .fence _ _ => .fenceComplete id
  | .flush _ _ _ => .cflushComplete id
  | .materialise _ _ _ => .amatLanding id
  | .launch _ _ => .tlaunchSubmit id
  | .copy j => match j.stage with
    | .accepted => (match s.choose id o j with | .record _ _ _ _ _ _ _ => .copyRecording id | _ => .eagerCopy ⟨id, none, 0⟩)
    | .waiting _ => .eagerCopy ⟨id, none, 0⟩
    | .recording _ _ _ _ _ _ _ => .copyRecording id
    | .filling _ => .ferryBufferPut id
    | .moving m =>
      if m.got.length < m.x.pairs.length then .eagerCopy ⟨id, none, 0⟩
      else match (destsOf m.x).find? fun i => decide (m.wrote.get 0 i < m.x.pairs.length) with
        | some i => .eagerCopy ⟨id, some i, 0⟩
        | none => let d := m.due.headD (0, 0); .ferryDelivery id d.1 d.2

/-- The events that may carry a request of a stream on. -/
def reqEvents (id : Nat) (r : Req) : List Instr :=
  [.matrixOperandFault id, .epilogue id, .matrixRequestComplete id, .operandsConsumed ⟨id, none⟩, .currentPermit (.engine r.quad) 0,
   .rrelEffect id, .rclrEffect id, .matrixGrant r.quad]

/-- The events that may carry a thread that waits on. -/
def threadEvents (t : Nat) (h : Thread) : List Instr :=
  match h.stat with
  | .parked _ => [.parkWake t]
  | .fetchw _ _ => [.fetchwRegistered t]
  | .bwait _ _ _ (some _) => [.bwaitTimeout t]
  | _ => []

/-- The events that may carry a gang on. -/
def gangEvents (g : Nat) (x : Gang) : List Instr :=
  match x.stat with
  | .resident => (span 0 16).map (Instr.teamRetire g) ++
      [.gangRetire g, .cooperativeSaveDone g, .hardwareSave g, .preempt g .checkpoint, .preempt g .worldStop, .swapOut g]
        ++ (span 0 8).map fun c => .preempt g (.room c)
  | .swapped => [.swapWake g]
  | _ => []

/-- The events that may carry a world on. -/
def worldEvents (w : Nat) (x : World) : List Instr :=
  (if x.trigger then [.checkpoint w] else []) ++ (if x.restoring then [.restore w] else []) ++
  (if x.stopping then [.stopInterface w] else []) ++ [.placeGang w, .checkpointTimer w, .checkpointStepCount w]

/-- The events of the operations and port entries in flight, oldest first. -/
def opsOwed (s : State) : List Instr :=
  s.ops.map (fun x => s.opEvent x.1 x.2) ++ s.flights.map fun f => .portEntryArrival f.dest f.dir

/-- The other events that the device may owe now, in the order in which they are tried. -/
def owed (s : State) : List Instr :=
  s.reqs.flatMap (fun x => reqEvents x.1 x.2) ++
  s.threads.flatMap (fun x => threadEvents x.1 x.2) ++
  s.batches.map (fun x => .svcBatchSend x.1) ++ s.fetches.map (fun x => .fetchwAnswer x.1) ++
  s.gangs.flatMap (fun x => gangEvents x.1 x.2) ++
  s.tasks.flatMap (fun x => [.leaseEstablish x.1, .taskEnd x.1 .worldPoison, .taskEnd x.1 .matrixOperand,
    .taskEnd x.1 .relaunchLimit, .taskCompletion x.1]) ++
  s.queues.map (fun x => .windowEntry x.1) ++ s.worlds.flatMap (fun x => worldEvents x.1 x.2) ++
  s.snaps.flatMap (fun x => (x.2.todo.take 1).map (fun xa => Instr.checkpointLanding x.1 xa.2) |>.append [.snapshotDurable x.1]) ++
  s.sweeps.flatMap (fun x => if x.2.walked then [.sweepComplete x.1] else [.revocationWalk x.1]) ++
  s.alias_.flatMap (fun x => if x.2.state = 2 ∨ s.isHot x.1 x.2 = true then [.hotLanding x.1] else []) ++
  s.unswept.map Instr.frameSweep ++ s.reenc.map (fun p => .pageReencipher p true) ++
  s.extents.flatMap (fun x => if x.2.revoking.isSome then [.graceExpiry x.1] else [])

/-- Whether an event changes anything now. -/
def moves (s : State) (i : Instr) : Bool :=
  match exec i s with
  | .next t => decide (t ≠ s)
  | _ => false

/-- A move of one cycle for an instruction that is owed, or time passes. -/
def after (s : State) (first : List Instr) (last : Act) : Move :=
  match first.find? s.moves with
  | some i => ⟨.event i, 1⟩
  | none => ⟨last, 1⟩

/-- The move that is taken when the agenda is empty: the current group goes on; a held one waits for the events that may free it;
then another group, the operations in flight, a free slot with a ready group, and what else the device owes. -/
def pick (s : State) : Move :=
  match s.slots.find? s.cur with
  | some g =>
    if g.held then s.after (.registerSpill s.cur g.crew :: s.opsOwed ++ s.owed) (.run s.cur) else ⟨.run s.cur, 1⟩
  | none =>
    match s.slots.filter fun kg => !kg.2.held with
    | (q, _) :: _ => ⟨.run q, 1⟩
    | [] =>
      let quarters := ((s.crews.values.map (·.quarter)).eraseDups)
      let grants := (quarters.filter (s.cur < ·) ++ quarters.filter (· ≤ s.cur)).map Instr.issueGrant
      let rest := match s.slots with | (q, _) :: _ => Act.run q | [] => .idle
      -- one turn in about eight goes to what else the device owes before a group that is ready
      if s.clock * 40503 / 65536 % 8 = 0 then s.after (s.opsOwed ++ s.owed ++ grants) rest
      else s.after (s.opsOwed ++ grants ++ s.owed) rest

/-- The next move. -/
def nextMove (s : State) : Move :=
  match s.agenda with
  | m :: _ => m
  | [] => s.pick

/-- What stands of itself before a move, whatever the move is: the entries that are ready since now (R134), and the deficits of queues
without pending gangs (R309). -/
def settled (s : State) : State := s.stampReady.settleDeficits

/-- The state in which a move is made: its cycles have passed, and free values are new (log entries 1 and 2). -/
def advance (s0 : State) (m : Move) : State :=
  let s := s0.settled
  { s with
    agenda := s.agenda.tail
    clock := s.clock + m.cycles
    freeCtr := s.freeCtr + 1
    cur := match m.act with | .run q => q | _ => s.cur }

/-- What a halted device still answers: its recovery function, and a reset, R393, R410. -/
def recovers (i : Instr) : Bool := match i with | .deviceReset _ | .firmwareUpdate _ _ => true | _ => false

/-- A move is made; a halted device makes none but those of its recovery. -/
def perform (s : State) (a : Act) : Out :=
  match a with
  | .idle => .next s
  | .run _ => if s.boot.halt = 0 then s.runSlot else .next s
  | .event i => if isEvent i && (s.boot.halt == 0 || recovers i) then exec i s else .next s

end State

/-! ## A first instruction at the fetch (log entry 20) -/

/-- Where the first instruction stands: a page of world 0's global space and the frame that holds it. -/
def firstPage : Nat := 1

/-- The record of the task that runs it: one gang of one crew in kernel mode, a page of code, no handlers. -/
def firstRecord : TaskRec :=
  let none_ : TCap := ⟨0, false⟩
  { code := ⟨Cap.make 2 0x05 7 512 (firstPage * 65536) 0, true⟩, param := none_, entry := 0, handler := 0xFFFFFFFF,
    save := 0xFFFFFFFF, restore := 0xFFFFFFFF, ngx := 1, ngy := 1, ngz := 1, teams := 1, crews := 1, floor := 32, peak := 32,
    spad := 4096, ring := 0, prio := 0, flags := 8, gridH := 0, gridW := 0, edges := 0, rlimit := 0, queue := 0, done := none_,
    nreg := 0, regs := [] }

/-- The state with a first instruction placed where the current quarter's group fetches: the start-up that a program needs
(stage 7, its task, its gang on the quarter's core with one thread that has not exited, its lease and translation), and the bytes. -/
def State.placeWord (s : State) (w : Nat) : State :=
  let gang := s.nextId
  let task := s.nextId + 1
  let core := s.cur / 4
  let pc := firstPage * 65536
  let blk : LeaseBlk := ⟨firstPage, false, firstPage, true, 1⟩
  let k : Task :=
    { record := firstRecord, at_ := 0, world := 0, queue := 0, handle := 1, cls := 0, stage := .leased, lease := [blk], pins := [],
      relaunches := 0, code := none, doomed := none, fault := none, next := 1, gangs := [gang] }
  let g : Gang :=
    { task := task, gx := 0, gy := 0, gz := 0, stat := .resident, cores := [(0, core)], rings := 0, preempt := none, adopts := [],
      deadTeams := 0, wake := none, planes := [], placed := s.nextId + 2, placedAt := s.clock }
  let s1 := { s with
    boot := { s.boot with stage := 7, featAccept := s.boot.featOffer, accepted := true, frameN := max 1 s.boot.frameN }
    worlds := s.worlds.put 0 { World.fresh with tdisp := .run, window := [task] }
    tasks := s.tasks.put task k
    gangs := s.gangs.put gang g
    crews := s.crews.put (gang * 512) ⟨s.cur, 0, s.nextId + 2, false⟩
    threads := s.threads.put (gang * 16384) { Thread.fresh pc with since := s.clock }
    slots := s.slots.put s.cur ⟨gang * 512, 1, 0, pc, false, 0⟩
    tlb := ⟨core, task, firstPage, firstPage, false, 1⟩ :: s.tlb
    agenda := [⟨.run s.cur, 1⟩]
    nextId := s.nextId + 3 }
  (s1.entryRegs firstRecord (gang * 512) 1).rawWrite pc (leBytes 4 w)

end Sys2Proof.Machine
end

