-- ==== Sys2Proof/Machine/Step.lean ====
section
/-! DEFINITION. One step of the device: the next move is made. -/

namespace Sys2Proof.Machine

/-- One step: the move that the agenda names, or the one that is taken when it is empty. -/
def step (s : State) : Host.Outcome State Fault Refusal := (s.advance s.nextMove).perform s.nextMove.act

/-- The state with an instruction stored where `step` fetches its next one, of `nbits` bits whose value is `w`; the bits above are
zero. -/
def State.withFetchWord (s : State) (nbits w : Nat) : State := s.placeWord (w % 2 ^ nbits)

end Sys2Proof.Machine
end

