-- ==== Sys2Proof/Safety.lean ====
section
/-! DEFINITION. What a safe run is, the canonical form that every memory of a state has, and the terms in which claims about
instructions are stated: the forms of the instructions (who executes one, what it asks of the state, what it does, where its
threads go), what a form leaves unchanged, and where threads stand that wait. -/

namespace Sys2Proof.Machine

/-- A safe run of `n` steps: each of them answers a next state. -/
def Safe : Nat → State → Prop
  | 0, _ => True
  | n + 1, s => match step s with
    | .next t => Safe n t
    | _ => False

/-- The memories of a snapshot have their canonical form. -/
def Snapshot.memForm (p : Snapshot) : Bool := Memory.wf p.mem && Memory.wf p.spad

/-- Every memory of a state has its canonical form: addresses strictly rising and no byte listed that an unlisted address reads
as. -/
def State.memForm (s : State) : Bool :=
  Memory.wf s.mem && Memory.wf s.poolMem && Memory.wf s.spad && s.snaps.all (fun p => p.2.memForm)
    && s.durable.all fun p => p.2.memForm

/-- The threads that execute an instruction with controls `ct` now: those of the group that holds the current quarter's slot and
that are not guarded off, R31. -/
def State.actors (s : State) (ct : Ctl) : List Nat := (slotThreads s).filter fun t => !s.guardedOff t ct

/-- Registers that a thread can read with the accepted formats, R58. -/
def State.readable (s : State) (t : Nat) (srcs : List (Nat × (BitVec 4 → Bool))) : Bool :=
  srcs.all fun x => (s.tagOf t x.1).1 != 15 && x.2 (s.fmtOf t x.1)

/-- The rows of a capability group hold no poison, R68. -/
def State.clean (s : State) (t k : Nat) : Bool := (span (4 * k) 4).all fun v => (s.tagOf t v).1 != 15

/-- Pre-emption does not stop a thread at its next run boundary: its gang is not being pre-empted, or it is in its save handler,
R381, R382. -/
def State.goesOn (s : State) (t : Nat) : Bool := (s.thread t).inSave || (s.preemptOf t).isNone

/-! ## Forms -/

/-- A thread that goes on at `pc`: at the end of a run it begins another, R33. -/
def Thread.goOn (h : Thread) (e : Bool) (clock pc : Nat) : Thread :=
  if e then { h with pc := pc, stat := .ready, cont := 0, runLen := 0, since := clock, age := 0 }
  else { h with pc := pc, stat := .ready }

/-! ## Checks, R36, R58, R68, R175, R303 -/

/-- One check that an instruction makes of a thread: whether it fails, and the cause and TVAL that it then raises. -/
abbrev Check := Bool × BitVec 32 × BitVec 32

/-- What the first check that fails raises. -/
def firstFailure (cs : List Check) : Option (BitVec 32 × BitVec 32) := (cs.find? (·.1)).map (·.2)

/-- The reads of register sources in field order: each POISON, then FORMAT, with the register's number, R58. -/
def sourceChecks (s : State) (t : Nat) (srcs : List (Nat × (BitVec 4 → Bool))) : List Check :=
  srcs.flatMap fun x => [((s.tagOf t x.1).1 == 15, Cause.poison, BitVec.ofNat 32 x.1), (!x.2 (s.fmtOf t x.1), Cause.format, BitVec.ofNat 32 x.1)]

/-- POISON on the rows of a capability group, R68. -/
def groupChecks (s : State) (t k : Nat) : List Check := (span (4 * k) 4).map fun v => ((s.tagOf t v).1 == 15, Cause.poison, BitVec.ofNat 32 v)

/-- The checks of a capability group after POISON, in the order of R68 and R175, with the address as TVAL; a LOCAL region lies in what is
allocated, R176. -/
def capabilityChecks (s : State) (t k : Nat) (kind : Nat → Bool) (perm : Cap → Bool) (ea : Int) (n align : Nat) : List Check :=
  let c := s.capGroup t k
  let tv := BitVec.ofInt 32 ea
  [(!s.capValid t k, Cause.capTag, tv), (!kind c.kind, Cause.capKind, tv), (!perm c, Cause.capPerm, tv),
   (decide (ea < c.base) || decide ((c.top : Int) < ea + n) || (c.kind == 1 && !s.allocated (gangOf t) ea.toNat n), Cause.capBounds, tv),
   (ea % align != 0, Cause.misalign, tv)]

/-- SCOPE_DENIED with the instruction's word, R200. -/
def scopeChecks (s : State) (t : Nat) (o : BitVec 3) (word : BitVec 32) : List Check :=
  let wd := (s.worlds.find? (s.worldOf t)).getD World.fresh
  [(s.worldOf t != 0 && ((o == 4 && !wd.devScope) || (o == 5 && !wd.sysScope)), Cause.scopeDenied, word)]

/-- The last check, R303: a destination needs a new row, and its crew holds as many as it may. -/
def rowChecks (s : State) (t : Nat) (vs : List Nat) : List Check :=
  match (s.newRows (crewOf t) vs).drop (s.peakOf (crewOf t) - (s.heldRegs (crewOf t)).length) with
  | [] => []
  | v :: _ => [(true, Cause.format, BitVec.ofNat 32 (0x100 ||| v))]

/-- Fields that must name even registers, in the order D, A, S: FORMAT with the register's number, R55 (log entry 52). -/
def pairChecks (vs : List Nat) : List Check := vs.map fun v => (v % 2 == 1, Cause.format, BitVec.ofNat 32 v)

/-- PRIVILEGE with the instruction's word, R395. -/
def kernelChecks (s : State) (t : Nat) (word : BitVec 32) : List Check := [(!s.kernel t, Cause.privilege, word)]

/-- The checks of R395 on a record that a kernel instruction names. -/
def serviceChecks (s : State) (t k : Nat) (word : BitVec 32) (perm : Cap → Bool) (n align : Nat) : List Check :=
  kernelChecks s t word ++ groupChecks s t k ++ capabilityChecks s t k (· == 4) perm (s.effAddr t k 0) n align

/-- The checks of `ObjRef`, R340. -/
def objectChecks (s : State) (t k size : Nat) (srcs : List Nat) : List Check :=
  groupChecks s t k ++ sourceChecks s t (srcs.map fun v => (v, Acc.int)) ++
    capabilityChecks s t k (· == 1) (fun c => c.r && c.w) (s.effAddr t k 0) size 16

/-- The place an access reaches, R207: none outside the lease. -/
def State.placeOf (s : State) (t k : Nat) (off : Int) (write : Bool) : Option Place :=
  (s.place t (s.capGroup t k) (s.effAddr t k off).toNat write).2

/-! ## What a form is -/

/-- What an instruction form asks of a thread that executes it and does for that thread, in the state in which the lanes before it
have acted. -/
structure Form where
  /-- The controls of the word. -/
  ct : Ctl
  /-- Its length in bytes. -/
  len : Nat
  /-- The execution checks pass. -/
  ok : State → Nat → Bool
  /-- What changes besides the registers and the place of the thread. -/
  act : State → Nat → State
  /-- Registers that the last-read bit kills. -/
  kills : State → Nat → List Nat
  /-- Registers written: number, bits, FMT, SCL. -/
  writes : State → Nat → List (Nat × BitVec 32 × BitVec 4 × BitVec 7)
  /-- Validity written after the registers. -/
  caps : State → Nat → List (Nat × Bool)
  /-- Where the thread goes, if not to the next sequential instruction. -/
  next : State → Nat → Option Nat
  /-- The checks that come before every condition for which the instruction is held, in order, each with what it raises. -/
  checks : State → Nat → List Check := fun _ _ => []
  /-- What the instruction reaches at issue lies within the lease, R213. -/
  lease : State → Nat → Bool := fun _ _ => true

/-- What one thread has done: its registers killed, written and given validity, and where it goes. -/
structure LaneDone where
  thread : Nat
  kills : List Nat
  writes : List (Nat × BitVec 32 × BitVec 4 × BitVec 7)
  caps : List (Nat × Bool)
  next : Option Nat
  deriving DecidableEq, Repr

namespace Form

/-- The threads act one after another in ascending lane order: the state they reach, what each has done, and whether the checks of
all of them pass, the row test and its hold last (R303, R304). -/
def lanes (f : Form) : State → List Nat → State × List LaneDone × Bool
  | s, [] => (s, [], true)
  | s, t :: ts =>
    let r := f.lanes (f.act s t) ts
    (r.1, ⟨t, f.kills s t, f.writes s t, f.caps s t, f.next s t⟩ :: r.2.1,
     f.ok s t && (s.rowCheck t ((f.writes s t).map (·.1))).isNone && r.2.2)

/-- The group that holds the current slot executes a form whole: there is one, its threads are there, the checks pass, and at the
end of a run no pre-emption waits. -/
def fit (f : Form) (s : State) : Bool :=
  let r := f.lanes s (s.actors f.ct)
  !(slotThreads s).isEmpty && r.2.2 &&
    (slotThreads s).all fun t => (r.1.threads.find? t).isSome && (!f.ct.e || r.1.goesOn t)

/-- The threads of `ds` that write a register. -/
def writers (ds : List LaneDone) (v : Nat) : List LaneDone := ds.filter fun d => d.writes.any fun w => w.1 == v

/-- The tag of a register's row after the writes of `ds`, R97: `s` is the state before them. -/
def tagAt (s : State) (crew : Nat) (ds : List LaneDone) (v : Nat) : BitVec 4 × BitVec 7 :=
  let r := s.row crew v
  let killed := laneMask ((ds.filter fun d => d.kills.contains v).map fun d => laneOf d.thread)
  let lanes := laneMask ((writers ds v).map fun d => laneOf d.thread)
  let tags := (writers ds v).flatMap fun d => (d.writes.filter fun w => w.1 == v).map fun w => (w.2.2.1, w.2.2.2)
  tagAfter ((r.live &&& ~~~killed) ||| lanes) lanes (r.fmt, r.scl) (mergeTag tags)

/-- The registers after the threads of `ds`, all of crew `crew`, have done their part: written ones hold their bits under the row's
new tag; killed ones read 0 and RAW; every other register of every thread keeps its bits, and its tag where no thread wrote its
row, R32, R58, R97. -/
def Regs (s s' : State) (crew : Nat) (ds : List LaneDone) : Prop :=
  (∀ d ∈ ds, ∀ w ∈ d.writes, s'.reg d.thread w.1 = w.2.1 ∧ s'.tagOf d.thread w.1 = tagAt s crew ds w.1) ∧
  (∀ d ∈ ds, ∀ v ∈ d.kills, (∀ w ∈ d.writes, w.1 ≠ v) → s'.reg d.thread v = 0 ∧ s'.tagOf d.thread v = (0, 0)) ∧
  (∀ u v, v < 32 → (∀ d ∈ ds, d.thread = u → v ∉ d.kills ∧ ∀ w ∈ d.writes, w.1 ≠ v) →
    s'.reg u v = s.reg u v ∧ (crewOf u ≠ crew ∨ writers ds v = [] → s'.tagOf u v = s.tagOf u v))

/-- The validity of capability groups after the threads of `ds` have done their part: as the instruction gives it, else clear in a
group it wrote a register of, else as it was, R59, R185. -/
def Valid (s s' : State) (ds : List LaneDone) : Prop :=
  ∀ u k, k < 8 → s'.validBit u k =
    match ds.find? fun d => d.thread == u with
    | none => s.validBit u k
    | some d => match d.caps.find? fun c => c.1 == k with
      | some c => c.2
      | none => s.validBit u k && !(d.writes.any fun w => w.1 / 4 == k)

/-- What executing a form whole does: the acts of its threads in order; then nothing differs but registers, their validity, threads
and issue slots; every thread of the group goes on, R31, R33. -/
def Done (f : Form) (s s' : State) : Prop :=
  let r := f.lanes s (s.actors f.ct)
  s' = { r.1 with rows := s'.rows, valid := s'.valid, threads := s'.threads, slots := s'.slots } ∧
  Regs r.1 s' (((s.slots.find? s.cur).map (·.crew)).getD 0) r.2.1 ∧ Valid r.1 s' r.2.1 ∧
  (∀ u, s'.thread u =
    if u ∈ slotThreads s then
      (r.1.thread u).goOn f.ct.e r.1.clock
        (((r.2.1.find? fun d => d.thread == u).bind (·.next)).getD ((r.1.thread u).pc + f.len))
    else r.1.thread u) ∧
  ∀ q, s'.slots.find? q =
    if q = s.cur then (if f.ct.e then none else (s.slots.find? q).map fun g => { g with held := false })
    else r.1.slots.find? q

/-- A well-formed instruction completes for every group that executes its form whole, and does what the form says. -/
def Completes (f : Form) (i : Instr) : Prop :=
  wellFormed i = true → ∀ s, f.fit s = true → ∃ s', exec i s = .next s' ∧ f.Done s s'

/-- A form that only writes registers: the sources with the formats they accept, whether L kills them, and the writes. -/
def regs (ct : Ctl) (len : Nat) (srcs : List (Nat × (BitVec 4 → Bool))) (l : Bool)
    (writes : State → Nat → List (Nat × BitVec 32 × BitVec 4 × BitVec 7)) : Form :=
  { ct := ct, len := len, ok := fun s t => s.readable t srcs, act := fun s _ => s,
    kills := fun _ _ => if l then srcs.map (·.1) else [], writes := writes, caps := fun _ _ => [], next := fun _ _ => none
    checks := fun s t => sourceChecks s t srcs ++ rowChecks s t ((writes s t).map (·.1)) }

/-- One source. -/
def one (acc : BitVec 4 → Bool) (fmt : BitVec 4) (g : BitVec 32 → BitVec 32) (d a : BitVec 5) (l : Bool) (ct : Ctl) (len : Nat) :
    Form := regs ct len [(a.toNat, acc)] l fun s t => [(d.toNat, g (s.reg t a.toNat), fmt, 0)]

/-- Two sources. -/
def two (acc : BitVec 4 → Bool) (fmt : BitVec 4) (g : BitVec 32 → BitVec 32 → BitVec 32) (d a b : BitVec 5) (l : Bool) (ct : Ctl)
    (len : Nat) : Form :=
  regs ct len [(a.toNat, acc), (b.toNat, acc)] l fun s t => [(d.toNat, g (s.reg t a.toNat) (s.reg t b.toNat), fmt, 0)]

/-- Two sources and D. -/
def three (acc : BitVec 4 → Bool) (fmt : BitVec 4) (g : BitVec 32 → BitVec 32 → BitVec 32 → BitVec 32) (d a b : BitVec 5) (l : Bool)
    (ct : Ctl) : Form :=
  regs ct 4 [(a.toNat, acc), (b.toNat, acc), (d.toNat, acc)] l fun s t =>
    [(d.toNat, g (s.reg t a.toNat) (s.reg t b.toNat) (s.reg t d.toNat), fmt, 0)]

/-- A form that raises flags as well, R99. -/
def flagged (f : Form) (flags : State → Nat → BitVec 32) : Form := { f with act := fun s t => s.raise t (flags s t) }

/-- A form with the checks that it makes. -/
def checking (f : Form) (cs : State → Nat → List Check) : Form := { f with checks := cs }

/-- A form that does something else to the state and writes no register. -/
def acting (ct : Ctl) (ok : State → Nat → Bool) (kills : List Nat) (act : State → Nat → State) : Form :=
  { ct := ct, len := 4, ok := ok, act := act, kills := fun _ _ => kills, writes := fun _ _ => [], caps := fun _ _ => [],
    next := fun _ _ => none }

end Form

/-! ## The integer forms, R26, R61 to R66 -/

/-- The register forms of class 0, the immediate forms and the 16-bit integer forms. -/
def integerForm : Instr → Option Form
  | .add d a x l ct => some (.two Acc.int 1 (fun a s => a + s) d a x l ct 4)
  | .sub d a x l ct => some (.two Acc.int 1 (fun a s => a - s) d a x l ct 4)
  | .mul d a x l ct => some (.two Acc.int 1 (fun a s => a * s) d a x l ct 4)
  | .mulh d a x l ct => some (.two Acc.int 1 (fun a s => BitVec.ofInt 32 (a.toInt * s.toInt / 2 ^ 32)) d a x l ct 4)
  | .mulhu d a x l ct => some (.two Acc.int 1 (fun a s => BitVec.ofNat 32 (a.toNat * s.toNat / 2 ^ 32)) d a x l ct 4)
  | .mad d a x l ct => some (.three Acc.int 1 (fun a s d => d + a * s) d a x l ct)
  | .min d a x l ct => some (.two Acc.int 1 (fun a s => BitVec.ofInt 32 (min a.toInt s.toInt)) d a x l ct 4)
  | .max d a x l ct => some (.two Acc.int 1 (fun a s => BitVec.ofInt 32 (max a.toInt s.toInt)) d a x l ct 4)
  | .minu d a x l ct => some (.two Acc.int 1 (fun a s => BitVec.ofNat 32 (min a.toNat s.toNat)) d a x l ct 4)
  | .maxu d a x l ct => some (.two Acc.int 1 (fun a s => BitVec.ofNat 32 (max a.toNat s.toNat)) d a x l ct 4)
  | .and d a x l ct => some (.two Acc.any 0 (fun a s => a &&& s) d a x l ct 4)
  | .or d a x l ct => some (.two Acc.any 0 (fun a s => a ||| s) d a x l ct 4)
  | .xor d a x l ct => some (.two Acc.any 0 (fun a s => a ^^^ s) d a x l ct 4)
  | .andn d a x l ct => some (.two Acc.any 0 (fun a s => a &&& ~~~s) d a x l ct 4)
  | .shl d a x l ct => some (.two Acc.any 0 (fun a s => a <<< (s.toNat % 32)) d a x l ct 4)
  | .shr d a x l ct => some (.two Acc.any 0 (fun a s => a >>> (s.toNat % 32)) d a x l ct 4)
  | .sra d a x l ct => some (.two Acc.any 0 (fun a s => BitVec.ofInt 32 (a.toInt / 2 ^ (s.toNat % 32))) d a x l ct 4)
  | .rotl d a x l ct => some (.two Acc.any 0 (fun a s => a <<< (s.toNat % 32) ||| a >>> (32 - s.toNat % 32)) d a x l ct 4)
  | .popc d a l ct => some (.one Acc.any 1 (fun a => BitVec.ofNat 32 ((List.range 32).countP fun i => a.getLsbD i)) d a l ct 4)
  | .clz d a l ct => some (.one Acc.any 1 (fun a => BitVec.ofNat 32 ((List.range 33).countP fun i => 0 < i && a.toNat < 2 ^ (32 - i))) d a l ct 4)
  | .brev d a l ct => some (.one Acc.any 0 (fun a => a.reverse) d a l ct 4)
  | .adds d a x l ct =>
    some (.two Acc.int 1 (fun a s => BitVec.ofInt 32 (max (-2 ^ 31) (min (2 ^ 31 - 1) (a.toInt + s.toInt)))) d a x l ct 4)
  | .subs d a x l ct =>
    some (.two Acc.int 1 (fun a s => BitVec.ofInt 32 (max (-2 ^ 31) (min (2 ^ 31 - 1) (a.toInt - s.toInt)))) d a x l ct 4)
  | .absd d a x l ct => some (.two Acc.int 1 (fun a s => BitVec.ofInt 32 |a.toInt - s.toInt|) d a x l ct 4)
  | .bfx d a x l ct => some (.two Acc.any 0 (fun a s => BitVec.ofNat 32
      (a.toNat / 2 ^ (s.toNat % 32) % 2 ^ min (s.toNat / 256 % 64) (32 - s.toNat % 32))) d a x l ct 4)
  | .bfi d a x l ct => some (.three Acc.any 0 (fun a s d =>
      let pos := s.toNat % 32
      let len := min (s.toNat / 256 % 64) (32 - pos)
      BitVec.ofNat 32 (d.toNat % 2 ^ pos + a.toNat % 2 ^ len * 2 ^ pos + d.toNat / 2 ^ (pos + len) * 2 ^ (pos + len))) d a x l ct)
  | .addi d a m ct => some (.one Acc.int 1 (fun a => a + m.signExtend 32) d a false ct 4)
  | .andi d a m ct => some (.one Acc.any 0 (fun a => a &&& m.signExtend 32) d a false ct 4)
  | .ori d a m ct => some (.one Acc.any 0 (fun a => a ||| m.signExtend 32) d a false ct 4)
  | .xori d a m ct => some (.one Acc.any 0 (fun a => a ^^^ m.signExtend 32) d a false ct 4)
  | .shli d a m ct => some (.one Acc.any 0 (fun a => a <<< (m.toNat % 32)) d a false ct 4)
  | .shri d a m ct => some (.one Acc.any 0 (fun a => a >>> (m.toNat % 32)) d a false ct 4)
  | .srai d a m ct => some (.one Acc.any 0 (fun a => BitVec.ofInt 32 (a.toInt / 2 ^ (m.toNat % 32))) d a false ct 4)
  | .muli d a m ct => some (.one Acc.int 1 (fun a => a * m.signExtend 32) d a false ct 4)
  | .movi d m ct => some (.regs ct 4 [] false fun _ _ => [(d.toNat, m.signExtend 32, 0, 0)])
  | .movhi d m ct => some (.one Acc.any 0 (fun a => m ++ a.extractLsb' 0 16) d d false ct 4)
  | .add16 d x e => some (.two Acc.int 1 (fun a s => a + s) d d x false (State.ctl16 e) 2)
  | .sub16 d x e => some (.two Acc.int 1 (fun a s => a - s) d d x false (State.ctl16 e) 2)
  | .and16 d x e => some (.two Acc.any 0 (fun a s => a &&& s) d d x false (State.ctl16 e) 2)
  | .or16 d x e => some (.two Acc.any 0 (fun a s => a ||| s) d d x false (State.ctl16 e) 2)
  | .xor16 d x e => some (.two Acc.any 0 (fun a s => a ^^^ s) d d x false (State.ctl16 e) 2)
  | .shl16 d x e => some (.two Acc.any 0 (fun a s => a <<< (s.toNat % 32)) d d x false (State.ctl16 e) 2)
  | .shr16 d x e => some (.two Acc.any 0 (fun a s => a >>> (s.toNat % 32)) d d x false (State.ctl16 e) 2)
  | .sra16 d x e =>
    some (.two Acc.any 0 (fun a s => BitVec.ofInt 32 (a.toInt / 2 ^ (s.toNat % 32))) d d x false (State.ctl16 e) 2)
  | .mul16 d x e => some (.two Acc.int 1 (fun a s => a * s) d d x false (State.ctl16 e) 2)
  | .addi16 d m e => some (.one Acc.int 1 (fun a => a + m.signExtend 32) d d false (State.ctl16 e) 2)
  | _ => none

/-! ## Registers moved between threads, tags and special registers, R61 to R63, R82 to R86, R161, R336 -/

/-- `mov`, which copies the bits and the tag. -/
def Form.copyReg (d a : BitVec 5) (l : Bool) (ct : Ctl) (len : Nat) : Form :=
  .regs ct len [(a.toNat, Acc.any)] l fun s t => [(d.toNat, s.reg t a.toNat, (s.tagOf t a.toNat).1, (s.tagOf t a.toNat).2)]

/-- The thread that `shfl` reads from: lane V[4:0] of the crew. -/
def shflFrom (s : State) (t b : Nat) : Nat := crewOf t * 32 + (s.reg t b).toNat % 32

/-- Whether `shfl` takes that lane's register: the lane executes with the group and its register is live or pending, R62. -/
def shflTakes (s : State) (t a b : Nat) : Bool :=
  (slotThreads s).contains (shflFrom s t b) && liveOrPending s (shflFrom s t b) a

/-- The forms that move registers and tags, and that read what the device knows of a thread. -/
def moveForm : Instr → Option Form
  | .mov d a l ct => some (.copyReg d a l ct 4)
  | .mov16 d x e => some (.copyReg d x false (State.ctl16 e) 2)
  | .shfl d a x l ct => some
    { Form.regs ct 4 [(a.toNat, Acc.any), (x.toNat, Acc.any)] l fun s t =>
        let r := s.row (crewOf t) a.toNat
        if shflTakes s t a.toNat x.toNat then [(d.toNat, s.reg (shflFrom s t x.toNat) a.toNat, r.fmt, r.scl)]
        else [(d.toNat, 0, 0, 0)] with
      ok := fun s t => s.readable t [(x.toNat, Acc.any)] &&
        !(shflTakes s t a.toNat x.toNat && (s.row (crewOf t) a.toNat).fmt == 15)
      checks := fun s t => sourceChecks s t [(x.toNat, Acc.any)] ++
        [(shflTakes s t a.toNat x.toNat && (s.row (crewOf t) a.toNat).fmt == 15, Cause.poison, BitVec.ofNat 32 a.toNat)] ++ rowChecks s t [d.toNat] }
  | .ballot d a l ct => some (.regs ct 4 [(a.toNat, Acc.any)] l fun s _ =>
      [(d.toNat, laneMask (((s.actors ct).filter fun u => (s.tagOf u a.toNat).1 != 15 && s.reg u a.toNat != 0).map laneOf), 0, 0)])
  | .tag d f k ct => some (.regs ct 4 [(d.toNat, Acc.any)] false fun s t => [(d.toNat, s.reg t d.toNat, f, k)])
  | .tagrd d a ct => some (.regs ct 4 [] false fun s t =>
      [(d.toNat, BitVec.ofNat 32 ((s.tagOf t a.toNat).1.toNat + (s.tagOf t a.toNat).2.toNat * 16), 1, 0)])
  | .rdsr d x ct => some
    { Form.regs ct 4 [] false fun s t => [(d.toNat, sreg s t x.toNat, 1, 0)] with
      act := fun s t => if x = 0x12 then s.updThread t fun h => { h with clkHi := BitVec.ofNat 32 (s.clock / 2 ^ 32) } else s }
  | .wrsr a x ct => some ((Form.acting ct (fun s t => (x == 0x14 || s.kernel t) && s.readable t [(a.toNat, Acc.any)]) [] fun s t =>
      if x = 0x14 then s.updThread t fun h => { h with fctl := s.reg t a.toNat &&& 0x00007F7F } else s).checking fun s t =>
        [(x != 0x14 && !s.kernel t, Cause.privilege, insnWord (.wrsr a x ct))] ++ sourceChecks s t [(a.toNat, Acc.any)])
  | .pstat r v ct => some (.regs ct 4 [] false fun s t => [(v.toNat, pstatWord s t r, 1, 0)])
  | .rpos d ct => some (.regs ct 4 [] false fun s t =>
      let g := gangOf t
      let q := s.quadOf t
      [(d.toNat, BitVec.ofNat 32 (s.ringHead g q % 256 + s.ringTail g q % 256 * 2 ^ 8 + s.ringC g * 2 ^ 16), 1, 0)])
  | _ => none

/-! ## Floating point, R26, R113 to R123 -/

/-- An F32 form: the exact operation on the operands, rounded once with FCTL.RM; `useS` and `useD` say what is read. -/
def Form.f32 (op : FOp) (useS useD : Bool) (d a b : BitVec 5) (l : Bool) (ct : Ctl) (len : Nat) : Form :=
  let srcs := [a.toNat] ++ (if useS then [b.toNat] else []) ++ (if useD then [d.toNat] else [])
  let r (s : State) (t : Nat) := fElem Sys2Proof.Machine.f32 op (fctlRm (s.thread t).fctl) (s.reg t a.toNat).toNat
    (if useS then (s.reg t b.toNat).toNat else 0) (if useD then (s.reg t d.toNat).toNat else 0)
  (Form.regs ct len (srcs.map fun v => (v, Acc.f32)) l fun s t => [(d.toNat, BitVec.ofNat 32 (r s t).1, 2, 0)]).flagged fun s t => (r s t).2

/-- The 64 bits of a pair, R102. -/
def pairBits (s : State) (t v : Nat) : Nat := (s.reg t v).toNat + (s.reg t (v + 1)).toNat * 2 ^ 32

/-- An F64 form. -/
def Form.f64 (op : FOp) (useS useD : Bool) (d a b : BitVec 5) (l : Bool) (ct : Ctl) : Form :=
  let pair (v : BitVec 5) : List Nat := [v.toNat, v.toNat + 1]
  let srcs := pair a ++ (if useS then pair b else []) ++ (if useD then pair d else [])
  let r (s : State) (t : Nat) := fElem Sys2Proof.Machine.f64 op (fctlRm (s.thread t).fctl) (pairBits s t a.toNat)
    (if useS then pairBits s t b.toNat else 0) (if useD then pairBits s t d.toNat else 0)
  (Form.regs ct 4 (srcs.map fun v => (v, Acc.f64)) l fun s t =>
    [(d.toNat, BitVec.ofNat 32 (r s t).1, 3, 0), (d.toNat + 1, BitVec.ofNat 32 ((r s t).1 / 2 ^ 32), 3, 0)]).flagged fun s t => (r s t).2

/-- The format of a packed form: that of its sources that are not RAW, F16x2 where all are RAW, R96. -/
def packedFmt (s : State) (t : Nat) (srcs : List Nat) : BitVec 4 := ((srcs.map (s.fmtOf t)).find? fun f => f != 0).getD 4

/-- A packed form: two elements, their flags united; the sources' formats agree. -/
def Form.packed (op : FOp) (useD : Bool) (d a b : BitVec 5) (l : Bool) (ct : Ctl) : Form :=
  let srcs := [a.toNat, b.toNat] ++ (if useD then [d.toNat] else [])
  let r (s : State) (t i : Nat) := fElem (if packedFmt s t srcs = 5 then b16 else f16) op (fctlRm (s.thread t).fctl)
    ((s.reg t a.toNat).toNat / 2 ^ (16 * i) % 2 ^ 16) ((s.reg t b.toNat).toNat / 2 ^ (16 * i) % 2 ^ 16)
    (if useD then (s.reg t d.toNat).toNat / 2 ^ (16 * i) % 2 ^ 16 else 0)
  { (Form.regs ct 4 (srcs.map fun v => (v, Acc.packed)) l fun s t =>
      [(d.toNat, BitVec.ofNat 32 ((r s t 0).1 % 2 ^ 16 + (r s t 1).1 % 2 ^ 16 * 2 ^ 16), packedFmt s t srcs, 0)]).flagged
        fun s t => (r s t 0).2 ||| (r s t 1).2 with
    ok := fun s t => s.readable t (srcs.map fun v => (v, Acc.packed)) &&
      srcs.all fun v => s.fmtOf t v == 0 || s.fmtOf t v == packedFmt s t srcs
    checks := fun s t => (srcs.flatMap fun v => sourceChecks s t [(v, Acc.packed)] ++
      [(s.fmtOf t v != 0 && s.fmtOf t v != packedFmt s t srcs, Cause.format, BitVec.ofNat 32 v)]) ++ rowChecks s t [d.toNat] }

/-- The arithmetic forms of class 1 and of the 16-bit words. -/
def floatForm : Instr → Option Form
  | .fadd d a x l ct => some (.f32 FOp.add true false d a x l ct 4)
  | .fsub d a x l ct => some (.f32 FOp.sub true false d a x l ct 4)
  | .fmul d a x l ct => some (.f32 FOp.mul true false d a x l ct 4)
  | .ffma d a x l ct => some (.f32 FOp.fma true true d a x l ct 4)
  | .fmin d a x l ct => some (.f32 FOp.min true false d a x l ct 4)
  | .fmax d a x l ct => some (.f32 FOp.max true false d a x l ct 4)
  | .fdiv d a x l ct => some (.f32 FOp.div true false d a x l ct 4)
  | .fsqrt d a l ct => some (.f32 FOp.sqrt false false d a 0 l ct 4)
  | .fadd16 d x e => some (.f32 FOp.add true false d d x false (State.ctl16 e) 2)
  | .fsub16 d x e => some (.f32 FOp.sub true false d d x false (State.ctl16 e) 2)
  | .fmul16 d x e => some (.f32 FOp.mul true false d d x false (State.ctl16 e) 2)
  | .fmin16 d x e => some (.f32 FOp.min true false d d x false (State.ctl16 e) 2)
  | .fmax16 d x e => some (.f32 FOp.max true false d d x false (State.ctl16 e) 2)
  | .dadd d a x l ct => some (.f64 FOp.add true false d a x l ct)
  | .dsub d a x l ct => some (.f64 FOp.sub true false d a x l ct)
  | .dmul d a x l ct => some (.f64 FOp.mul true false d a x l ct)
  | .dfma d a x l ct => some (.f64 FOp.fma true true d a x l ct)
  | .dmin d a x l ct => some (.f64 FOp.min true false d a x l ct)
  | .dmax d a x l ct => some (.f64 FOp.max true false d a x l ct)
  | .ddiv d a x l ct => some (.f64 FOp.div true false d a x l ct)
  | .dsqrt d a l ct => some (.f64 FOp.sqrt false false d a 0 l ct)
  | .hadd d a x l ct => some (.packed FOp.add false d a x l ct)
  | .hsub d a x l ct => some (.packed FOp.sub false d a x l ct)
  | .hmul d a x l ct => some (.packed FOp.mul false d a x l ct)
  | .hfma d a x l ct => some (.packed FOp.fma true d a x l ct)
  | .hmin d a x l ct => some (.packed FOp.min false d a x l ct)
  | .hmax d a x l ct => some (.packed FOp.max false d a x l ct)
  | _ => none

/-- `fneg` and `fabs` at the width of their source's tag; `g` gives the new sign bit, R55, R116. -/
def Form.sign (g : Bool → Bool) (d a : BitVec 5) (l : Bool) (ct : Ctl) : Form :=
  let top (x : BitVec 32) (i : Nat) : BitVec 32 := setBit x i (g (x.getLsbD i))
  let wide (s : State) (t : Nat) : Bool := s.fmtOf t a.toNat == 3
  let f (x : BitVec 4) : Bool := x == 0 || x == 2 || x == 3 || x == 4 || x == 5
  { Form.regs ct 4 [] false fun s t =>
      let x := s.reg t a.toNat
      let fmt := s.fmtOf t a.toNat
      if fmt = 3 then [(d.toNat, x, 3, 0), (d.toNat + 1, top (s.reg t (a.toNat + 1)) 31, 3, 0)]
      else if fmt = 4 ∨ fmt = 5 then [(d.toNat, top (top x 15) 31, fmt, 0)]
      else [(d.toNat, top x 31, 2, 0)] with
    ok := fun s t => s.readable t [(a.toNat, f)] &&
      (!wide s t || (d.toNat % 2 == 0 && a.toNat % 2 == 0 && s.readable t [(a.toNat + 1, Acc.f64)]))
    checks := fun s t => sourceChecks s t [(a.toNat, f)] ++
      (if wide s t then pairChecks [d.toNat, a.toNat] ++ sourceChecks s t [(a.toNat + 1, Acc.f64)] ++ rowChecks s t [d.toNat, d.toNat + 1]
       else rowChecks s t [d.toNat])
    kills := fun s t => if !l then [] else if wide s t then [a.toNat, a.toNat + 1] else [a.toNat] }

/-- The registers that an `fcvt` selector reads, each with what it accepts, R119. -/
def cvtSources (sel a : Nat) : List (Nat × (BitVec 4 → Bool)) :=
  let some_ (n : Nat) (acc : BitVec 4 → Bool) := (span a n).map fun v => (v, acc)
  match sel with
  | 0 | 1 | 6 => some_ 1 Acc.int
  | 2 | 3 | 5 => some_ 1 Acc.f32
  | 4 | 7 => some_ 2 Acc.f64
  | 8 | 9 => some_ 1 Acc.f16
  | 10 | 11 => some_ 1 Acc.b16
  | 12 | 13 => some_ 2 Acc.f32
  | 14 | 15 | 16 | 17 => some_ 4 Acc.f32
  | 18 => some_ 1 (Acc.only 6)
  | 19 => some_ 1 (Acc.only 7)
  | 20 => some_ 5 Acc.f32
  | 21 => some_ 1 (Acc.only 8)
  | 22 => some_ 4 Acc.int
  | _ => some_ 1 (Acc.only 9)

/-- Sign, class, rounding, conversion and L6 forms. -/
def convertForm : Instr → Option Form
  | .fcpys d a x l ct => some (.two Acc.f32 2 (fun a s => s.extractLsb' 31 1 ++ a.extractLsb' 0 31) d a x l ct 4)
  | .fneg d a l ct => some (.sign (fun b => !b) d a l ct)
  | .fabs d a l ct => some (.sign (fun _ => false) d a l ct)
  | .fclass d a l ct => some (.one Acc.f32 1 classMask d a l ct 4)
  | .frnd d a m l ct =>
    let r (s : State) (t : Nat) := roundIntegral (if m = 4 then fctlRm (s.thread t).fctl else m.toNat) (s.reg t a.toNat)
    some ((Form.regs ct 4 [(a.toNat, Acc.f32)] l fun s t => [(d.toNat, BitVec.ofNat 32 (r s t).1, 2, 0)]).flagged fun s t => (r s t).2)
  | .fcvt d a x l ct =>
    let r (s : State) (t : Nat) := cvtForm x.toNat d.toNat a.toNat s t
    some
      { ct := ct, len := 4, ok := fun s t => (r s t).isOk,
        act := fun s t => match r s t with | .ok x => s.raise t x.2.2 | .error _ => s
        kills := fun s t => match r s t with | .ok x => if l then x.2.1 else [] | .error _ => []
        writes := fun s t => match r s t with | .ok x => x.1 | .error _ => []
        caps := fun _ _ => [], next := fun _ _ => none
        checks := fun s t => sourceChecks s t (cvtSources x.toNat a.toNat) }
  | .lmul d a x l ct =>
    let k (s : State) (t : Nat) : Int := sclOf s t a.toNat + sclOf s t x.toNat
    let r (s : State) (t i : Nat) := L6.mulElem (l6Elem (s.reg t a.toNat) i) (l6Elem (s.reg t x.toNat) i)
    let five := List.range 5
    let f := (Form.regs ct 4 [(a.toNat, Acc.only 8), (x.toNat, Acc.only 8)] l fun s t =>
      [(d.toNat, Fmt.pack 6 (five.map fun i => (r s t i).1.toNat), 8, BitVec.ofInt 7 (k s t))]).flagged fun s t =>
        five.foldl (fun f i => f ||| (r s t i).2) 0
    some { f with
      ok := fun s t => f.ok s t && decide (-64 ≤ k s t) && decide (k s t ≤ 63)
      checks := fun s t => sourceChecks s t [(a.toNat, Acc.only 8), (x.toNat, Acc.only 8)] ++
        [(decide (k s t < -64) || decide (63 < k s t), Cause.format, BitVec.ofNat 32 a.toNat)] ++ rowChecks s t [d.toNat] }
  | .ldot d a x l ct =>
    let r (s : State) (t : Nat) := ldotBits (s.reg t a.toNat) (s.reg t x.toNat) (s.reg t d.toNat) (sclOf s t a.toNat + sclOf s t x.toNat)
    some ((Form.regs ct 4 [(a.toNat, Acc.only 8), (x.toNat, Acc.only 8), (d.toNat, Acc.f32)] l fun s t =>
      [(d.toNat, BitVec.ofNat 32 (r s t).1, 2, 0)]).flagged fun s t => (r s t).2)
  | _ => none

/-! ## Predicates, R74 to R76, R124 -/

/-- COMB of a compare, R74. -/
def comb (m : BitVec 2) (old c : Bool) : Bool := if m = 0 then c else if m = 1 then old && c else old || c

/-- An integer compare. -/
def Form.compare (acc : BitVec 4 → Bool) (g : BitVec 32 → BitVec 32 → Bool) (p : BitVec 4) (a b : BitVec 5) (m : BitVec 2) (ct : Ctl) :
    Form :=
  (Form.acting ct (fun s t => s.readable t [(a.toNat, acc), (b.toNat, acc)]) [] fun s t =>
    s.setPred t p (comb m (s.pred t p) (g (s.reg t a.toNat) (s.reg t b.toNat)))).checking fun s t =>
      sourceChecks s t [(a.toNat, acc), (b.toNat, acc)]

/-- The operands of a floating-point compare, of the width of A's tag, R55, R124. -/
def fcmpVals (s : State) (t a b : Nat) : Val × Val :=
  if s.fmtOf t a = 3 then (f64.dec (pairBits s t a), f64.dec (pairBits s t b)) else (f32.dec (s.reg t a).toNat, f32.dec (s.reg t b).toNat)

/-- A floating-point compare; `quiet` says that only a signalling NaN raises NV. -/
def Form.fcompare (quiet : Bool) (g : Val → Val → Bool) (p : BitVec 4) (a b : BitVec 5) (m : BitVec 2) (ct : Ctl) : Form :=
  let a := a.toNat
  let b := b.toNat
  (Form.acting ct (fun s t => s.readable t [(a, fun f => f == 0 || f == 2 || f == 3)] &&
      (if s.fmtOf t a = 3 then a % 2 == 0 && b % 2 == 0 && s.readable t [(a + 1, Acc.f64), (b, Acc.f64), (b + 1, Acc.f64)]
       else s.readable t [(b, Acc.f32)])) [] fun s t =>
    let v := fcmpVals s t a b
    (s.setPred t p (comb m (s.pred t p) (g v.1 v.2))).raise t
      (if quiet then Val.sigFlag [v.1, v.2] else Flags.when (v.1.isNan || v.2.isNan) Flags.nv)).checking fun s t =>
        sourceChecks s t [(a, fun f => f == 0 || f == 2 || f == 3)] ++
          (if s.fmtOf t a = 3 then pairChecks [a, b] ++ sourceChecks s t [(a + 1, Acc.f64), (b, Acc.f64), (b + 1, Acc.f64)]
           else sourceChecks s t [(b, Acc.f32)])

/-- The compares, `pset`, `pmov` and `ctst`. -/
def predicateForm : Instr → Option Form
  | .cmpeq p a x m ct => some (.compare Acc.any (fun a s => a == s) p a x m ct)
  | .cmpne p a x m ct => some (.compare Acc.any (fun a s => a != s) p a x m ct)
  | .cmplt p a x m ct => some (.compare Acc.int (fun a s => decide (a.toInt < s.toInt)) p a x m ct)
  | .cmple p a x m ct => some (.compare Acc.int (fun a s => decide (a.toInt ≤ s.toInt)) p a x m ct)
  | .cmpltu p a x m ct => some (.compare Acc.int (fun a s => decide (a.toNat < s.toNat)) p a x m ct)
  | .cmpleu p a x m ct => some (.compare Acc.int (fun a s => decide (a.toNat ≤ s.toNat)) p a x m ct)
  | .fcmpeq p a x m ct => some (.fcompare true Val.eq p a x m ct)
  | .fcmplt p a x m ct => some (.fcompare false Val.lt p a x m ct)
  | .fcmple p a x m ct => some (.fcompare false (fun x y => Val.lt x y || Val.eq x y) p a x m ct)
  | .fcmpun p a x m ct => some (.fcompare true (fun x y => x.isNan || y.isNan) p a x m ct)
  | .pset p a b t ct => some (.acting ct (fun _ _ => true) [] fun s u =>
      s.setPred u p (t.getLsbD ((if s.pred u a then 2 else 0) + (if s.pred u b then 1 else 0))))
  | .pmov v r ct => some (if r then
      (Form.acting ct (fun s t => s.readable t [(v.toNat, Acc.any)]) [] fun s t =>
        s.updThread t fun h => { h with preds := (s.reg t v.toNat).extractLsb' 0 16 }).checking fun s t => sourceChecks s t [(v.toNat, Acc.any)]
    else .regs ct 4 [] false fun s t => [(v.toNat, (s.thread t).preds.setWidth 32, 0, 0)])
  | .ctst p c v k ct => some ((Form.acting ct (fun s t => s.clean t c.toNat && (!(k == 1 || k == 2) || s.readable t [(v.toNat, Acc.int)])) [] fun s t =>
      s.setPred t p (ctstValue s t c.toNat k.toNat (if k = 1 ∨ k = 2 then (s.reg t v.toNat).toNat else 0))).checking fun s t =>
        groupChecks s t c.toNat ++ (if k = 1 ∨ k = 2 then sourceChecks s t [(v.toNat, Acc.int)] else []))
  | _ => none

/-! ## Control transfer, R77 to R81, R375, R396, R400 -/

/-- A form that goes somewhere. -/
def Form.going (f : Form) (ok : State → Nat → Bool) (next : State → Nat → Nat) : Form :=
  { f with ok := ok, next := fun s t => some (next s t) }

/-- CAP_BOUNDS at a target outside the PCC, with its low bits, R24, R77 to R79. -/
def targetChecks (s : State) (t : Nat) (target : Int) : List Check := [(s.targetOutside t target, Cause.capBounds, BitVec.ofInt 32 target)]

/-- The target of `jmpr`. -/
def jmprTarget (s : State) (t : Nat) (a : BitVec 5) : Nat := (s.pccOf t).base + (s.reg t a.toNat).toNat

/-- `bra`, `call`, `jmpr`, `nop`, `tret`, and `halt` where an event has arrived since the thread's last. -/
def flowForm : Instr → Option Form
  | .bra o ct => some (((Form.acting ct (fun _ _ => true) [] fun s _ => s).going
      (fun s t => !s.targetOutside t (branchTarget s t o)) fun s t => (branchTarget s t o).toNat).checking fun s t =>
        targetChecks s t (branchTarget s t o))
  | .call o ct => some (((Form.regs ct 4 [] false fun s t => [(30, s.pcOffset t ((s.thread t).pc + 4), 1, 0)]).going
      (fun s t => !s.targetOutside t (branchTarget s t o)) fun s t => (branchTarget s t o).toNat).checking fun s t =>
        targetChecks s t (branchTarget s t o) ++ rowChecks s t [30])
  | .jmpr a ct => some (((Form.acting ct (fun _ _ => true) [] fun s _ => s).going
      (fun s t => s.readable t [(a.toNat, Acc.any)] && !(s.reg t a.toNat).getLsbD 0 && !s.targetOutside t (jmprTarget s t a))
      fun s t => jmprTarget s t a).checking fun s t => sourceChecks s t [(a.toNat, Acc.any)] ++
        [((s.reg t a.toNat).getLsbD 0, Cause.misalign, s.reg t a.toNat)] ++ targetChecks s t (jmprTarget s t a))
  | .nop ct => some (.acting ct (fun _ _ => true) [] fun s _ => s)
  | .tret ct => some ((Form.acting ct (fun _ _ => true) [] fun s t => s.updThread t fun h => { h with handling := false, user := false }).going
      (fun s t => (s.thread t).handling && !(s.thread t).inSave) fun s t => (s.pccOf t).base + (s.thread t).tpc.toNat)
  | .halt ct => some (.acting ct
      (fun s t => s.kernel t && decide ((s.thread t).seen < s.regs.evtSeq.get 0 (s.coreOf t / 96))) [] fun s t =>
        s.updThread t fun h => { h with seen := s.lastEvent })
  | _ => none

/-! ## Capabilities, R185 to R187 -/

/-- A form that writes a capability: bits and validity, cleared where a sweep marks it, R185. -/
def Form.capability (ct : Ctl) (d : BitVec 3) (ok : State → Nat → Bool) (bits : State → Nat → BitVec 128) (valid : State → Nat → Bool) :
    Form :=
  { ct := ct, len := 4, ok := ok, act := fun s _ => s, kills := fun _ _ => []
    writes := fun s t => (List.range 4).map fun i => (4 * d.toNat + i, (bits s t).extractLsb' (32 * i) 32, 11, 0)
    caps := fun s t => [(d.toNat, valid s t && !s.capMarked t ⟨bits s t⟩)], next := fun _ _ => none }

/-- The checks of a derivation from group `f`: POISON, a register source, CAP_TAG where the parent must be valid, then its own; for the
capability faults TVAL is the parent's cursor, R186. -/
def deriveChecks (d f : BitVec 3) (srcs : List Nat) (own : State → Nat → List (Bool × BitVec 32)) (s : State) (t : Nat) : List Check :=
  groupChecks s t f.toNat ++ sourceChecks s t (srcs.map fun v => (v, Acc.int)) ++
    ((own s t).map fun x => (x.1, x.2, BitVec.ofNat 32 (s.capGroup t f.toNat).cursor)) ++ rowChecks s t (span (4 * d.toNat) 4)

/-- The length that `cbnd` gives, R169, R186. -/
def boundLength (n : Nat) : Nat := (roundLen n).1 * 2 ^ (roundLen n).2

/-- `cadd`, `cbnd`, `cprm`, `cmov`, `capr`. -/
def capabilityForm : Instr → Option Form
  | .cadd d f v ct =>
    let o (s : State) (t : Nat) : Int := (s.capGroup t f.toNat).offset + (s.reg t v.toNat).toInt
    some ((Form.capability ct d (fun s t => s.clean t f.toNat && s.readable t [(v.toNat, Acc.int)] && s.capValid t f.toNat)
      (fun s t => (s.capGroup t f.toNat).withOffset (o s t % 2 ^ 40).toNat) fun s t => decide (0 ≤ o s t) && decide (o s t < 2 ^ 40)).checking
        (deriveChecks d f [v.toNat] fun s t => [(!s.capValid t f.toNat, Cause.capTag)]))
  | .cbnd d f v x ct =>
    let n (s : State) (t : Nat) := (s.reg t v.toNat).toNat
    let p (s : State) (t : Nat) := s.capGroup t f.toNat
    some ((Form.capability ct d
      (fun s t => s.clean t f.toNat && s.readable t [(v.toNat, Acc.int)] && s.capValid t f.toNat &&
        decide ((p s t).cursor + boundLength (n s t) ≤ (p s t).top) && (!x || boundLength (n s t) == n s t))
      (fun s t => (p s t).narrowed (roundLen (n s t)).1 (roundLen (n s t)).2) fun _ _ => true).checking
        (deriveChecks d f [v.toNat] fun s t => [(!s.capValid t f.toNat, Cause.capTag),
          (decide ((p s t).top < (p s t).cursor + boundLength (n s t)), Cause.capBounds), (x && boundLength (n s t) != n s t, Cause.capBounds)]))
  | .cprm d f m ct => some ((Form.capability ct d (fun s t => s.clean t f.toNat && s.capValid t f.toNat)
      (fun s t => (s.capGroup t f.toNat).withPerm ((s.capGroup t f.toNat).perm &&& m.setWidth 8)) fun _ _ => true).checking
        (deriveChecks d f [] fun s t => [(!s.capValid t f.toNat, Cause.capTag)]))
  | .cmov d f ct => some ((Form.capability ct d (fun s t => s.clean t f.toNat) (fun s t => (s.capGroup t f.toNat).bits)
      fun s t => s.capValid t f.toNat).checking (deriveChecks d f [] fun _ _ => []))
  | .capr d c f ct => some
    { Form.regs ct 4 [] false fun s t => [(d.toNat, (caprValue s t c.toNat f.toNat).1, (caprValue s t c.toNat f.toNat).2, 0)] with
      ok := fun s t => s.clean t c.toNat
      checks := fun s t => groupChecks s t c.toNat ++ rowChecks s t [d.toNat] }
  | _ => none

/-! ## Memory operations at issue, R68 to R73, R125 to R128, R189, R190, R271 to R287 -/

/-- The checks of R175 on a capability group, all passed: valid, of a kind, with a permission, in bounds, aligned. -/
def State.capFit (s : State) (t k : Nat) (kind : Nat → Bool) (perm : Cap → Bool) (ea : Int) (n align : Nat) : Bool :=
  let c := s.capGroup t k
  s.capValid t k && kind c.kind && perm c && s.inBounds t c ea n && ea % align == 0

/-- Something done at the place of an access, once translated. -/
def State.atPlaceOf (s : State) (t k : Nat) (off : Int) (write : Bool) (act : State → Place → State) : State :=
  match s.place t (s.capGroup t k) (s.effAddr t k off).toNat write with
  | (s1, some p) => act s1 p
  | (s1, none) => s1

/-- A scope that the thread's world may name, R200. -/
def State.scopeFit (s : State) (t : Nat) (o : BitVec 3) : Bool :=
  let wd := (s.worlds.find? (s.worldOf t)).getD World.fresh
  s.worldOf t == 0 || ((o != 4 || wd.devScope) && (o != 5 || wd.sysScope))

/-- A load: LOADS below 63, rows for the destination, the operation listed, its registers pending. -/
def Form.load (ct : Ctl) (c : BitVec 3) (off : Int) (size : Nat) (l : Bool) (vs : List Nat) (fn : State → Nat → LoadFn) : Form :=
  { Form.acting ct (fun s t => s.clean t c.toNat && s.capFit t c.toNat State.memKind (·.r) (s.effAddr t c.toNat off) size size &&
        (s.rowCheck t vs).isNone && decide ((s.thread t).ld < 63) && (s.placeOf t c.toNat off false).isSome) []
      fun s t => s.atPlaceOf t c.toNat off false fun s1 p =>
        s1.issueLoad t (if l then State.groupRegs c.toNat else []) (.load (fn s1 t) p size vs) vs with
    checks := fun s t => groupChecks s t c.toNat ++ capabilityChecks s t c.toNat State.memKind (·.r) (s.effAddr t c.toNat off) size size ++
      rowChecks s t vs
    lease := fun s t => (s.placeOf t c.toNat off false).isSome }

/-- A store: STORES below 63, the bytes captured, the operation listed, flags raised; `own` are the checks of what it stores. -/
def Form.store (ct : Ctl) (c : BitVec 3) (off : Int) (size : Nat) (kills : List Nat) (ok : State → Nat → Bool)
    (own : State → Nat → List Check) (data : State → Nat → List (BitVec 8) × Bool × BitVec 32) : Form :=
  { Form.acting ct (fun s t => s.clean t c.toNat && ok s t && s.capFit t c.toNat State.memKind (·.w) (s.effAddr t c.toNat off) size size &&
        decide ((s.thread t).st < 63) && (s.placeOf t c.toNat off true).isSome) kills
      fun s t => s.atPlaceOf t c.toNat off true fun s1 p =>
        ((s1.addOp t (.store p (data s t).1 (data s t).2.1)).incSt t).raise t (data s t).2.2 with
    checks := fun s t => groupChecks s t c.toNat ++ own s t ++
      capabilityChecks s t c.toNat State.memKind (·.w) (s.effAddr t c.toNat off) size size
    lease := fun s t => (s.placeOf t c.toNat off true).isSome }

/-- A plain load. -/
def Form.plainLoad (size : Nat) (sext : Bool) (d : BitVec 5) (c : BitVec 3) (o : BitVec 8) (l : Bool) (ct : Ctl) : Form :=
  .load ct c (o.toInt * size) size l (if size = 8 then [d.toNat, d.toNat + 1] else [d.toNat]) fun _ _ => .plain size sext

/-- A plain store of the low bytes of a register, or of a pair. -/
def Form.plainStore (size : Nat) (d : BitVec 5) (c : BitVec 3) (o : BitVec 8) (l : Bool) (ct : Ctl) : Form :=
  let srcs := if size = 8 then [d.toNat, d.toNat + 1] else [d.toNat]
  .store ct c (o.toInt * size) size (if l then State.groupRegs c.toNat ++ srcs else [])
    (fun s t => s.readable t (srcs.map fun v => (v, Acc.any))) (fun s t => sourceChecks s t (srcs.map fun v => (v, Acc.any)))
    fun s t => (leBytes size (if size = 8 then pairBits s t d.toNat else (s.reg t d.toNat).toNat), false, 0)

/-- Loads, stores, capability and typed accesses. -/
def accessForm : Instr → Option Form
  | .ldb d c o l ct => some (.plainLoad 1 true d c o l ct)
  | .ldbu d c o l ct => some (.plainLoad 1 false d c o l ct)
  | .ldh d c o l ct => some (.plainLoad 2 true d c o l ct)
  | .ldhu d c o l ct => some (.plainLoad 2 false d c o l ct)
  | .ldw d c o l ct => some (.plainLoad 4 false d c o l ct)
  | .ldd d c o l ct => some (.plainLoad 8 false d c o l ct)
  | .stb d c o l ct => some (.plainStore 1 d c o l ct)
  | .sth d c o l ct => some (.plainStore 2 d c o l ct)
  | .stw d c o l ct => some (.plainStore 4 d c o l ct)
  | .std d c o l ct => some (.plainStore 8 d c o l ct)
  | .ldc d c o l ct => some (.load ct c (o.toInt * 16) 16 l (span d.toNat 4) fun s t => .cap (s.capGroup t c.toNat).lc)
  | .stc d c o l ct =>
    let k := d.toNat / 4
    let f := Form.store ct c (o.toInt * 16) 16 (if l then State.groupRegs c.toNat ++ State.groupRegs k else [])
      (fun s t => s.clean t k && (!s.capValid t k || ((s.capGroup t c.toNat).sc &&
        ((s.capGroup t c.toNat).kind != 0 || (s.capGroup t k).g)))) (fun s t => groupChecks s t k)
      fun s t => (leBytes 16 (s.capGroup t k).bits.toNat, s.capValid t k && !s.capMarked t (s.capGroup t k), 0)
    some (f.checking fun s t =>
      let tv := BitVec.ofInt 32 (s.effAddr t c.toNat (o.toInt * 16))
      f.checks s t ++ [(s.capValid t k && !(s.capGroup t c.toNat).sc, Cause.capPerm, tv),
        (s.capValid t k && (s.capGroup t c.toNat).kind == 0 && !(s.capGroup t k).g, Cause.capPerm, tv)])
  | .ldt d c m k l ct => some (.load ct c 0 4 l (span d.toNat (WellFormed.typedGroup m k)) fun s t =>
      .typed m k (BitVec.ofNat 2 (fctlRm (s.thread t).fctl)) (fctlScl (s.thread t).fctl))
  | .stt x c m k sat ct =>
    let rs := span x.toNat (WellFormed.typedGroup m k)
    some (.store ct c 0 4 [] (fun s t => s.readable t (rs.map fun v => (v, sttAccept m k)))
      (fun s t => sourceChecks s t (rs.map fun v => (v, sttAccept m k))) fun s t =>
      let w := Fmt.store m.toNat k.toNat sat (fctlRm (s.thread t).fctl) (fctlCvs (s.thread t).fctl) (rs.map (s.reg t))
      (leBytes 4 w.1.toNat, false, w.2))
  | _ => none

/-- Whether an atomic is 8 bytes wide for a thread: the `.d` forms, and `afadd` on F64, R55, R271. -/
def atomWide (fn : AtomFn) (s : State) (t v : Nat) : Bool :=
  match fn with
  | .addD | .casD => true
  | .fadd => s.fmtOf t v == 3
  | _ => false

/-- The reads of an atomic's registers: V, or its pair, and D where it is a compare-and-swap; `afadd` on F64 tests the widths of its fields
after the first row, R55, R272. -/
def atomSources (fn : AtomFn) (d v : Nat) (s : State) (t : Nat) : List Check :=
  match fn with
  | .cas => sourceChecks s t [(v, Acc.any), (d, Acc.any)]
  | .casD => sourceChecks s t [(v, Acc.any), (v + 1, Acc.any), (d, Acc.any), (d + 1, Acc.any)]
  | .addD => sourceChecks s t [(v, Acc.int), (v + 1, Acc.int)]
  | .fadd => sourceChecks s t [(v, atomAccept .fadd)] ++
      (if s.fmtOf t v = 3 then pairChecks [d, v] ++ sourceChecks s t [(v + 1, Acc.f64)] else [])
  | .and | .or | .xor | .xchg => sourceChecks s t [(v, Acc.any)]
  | .add | .smin | .smax | .umin | .umax => sourceChecks s t [(v, Acc.int)]

/-- An atomic; `word` is its instruction's. -/
def Form.atomic (fn : AtomFn) (d : BitVec 5) (c : BitVec 3) (v : BitVec 5) (o : BitVec 3) (ct : Ctl) (word : BitVec 32) : Form :=
  let d := d.toNat
  let v := v.toNat
  let swap : Bool := match fn with | .cas | .casD => true | _ => false
  let wide (s : State) (t : Nat) := atomWide fn s t v
  let size (s : State) (t : Nat) := if wide s t then 8 else 4
  let vs (s : State) (t : Nat) := if wide s t then [d, d + 1] else [d]
  let bits (s : State) (t x : Nat) : BitVec 64 := if wide s t then BitVec.ofNat 64 (pairBits s t x) else (s.reg t x).setWidth 64
  { Form.acting ct (fun s t => s.scopeFit t o && s.clean t c.toNat &&
      s.readable t ((v, atomAccept fn) :: (if wide s t then [(v + 1, if s.fmtOf t v = 3 ∧ fn = .fadd then Acc.f64 else atomAccept fn)] else [])
        ++ (if swap then (vs s t).map fun x => (x, Acc.any) else [])) &&
      (fn != .fadd || !wide s t || (d % 2 == 0 && v % 2 == 0)) &&
      s.capFit t c.toNat State.memKind (fun c => c.r && c.w) (s.effAddr t c.toNat 0) (size s t) (size s t) &&
      (s.rowCheck t (vs s t)).isNone && decide ((s.thread t).ld < 63) && (s.placeOf t c.toNat 0 true).isSome) []
    fun s t => s.atPlaceOf t c.toNat 0 true fun s1 p =>
      s1.issueLoad t [] (.atomic fn o.toNat p (size s t) (vs s t) (bits s t v) (if swap then bits s t d else 0)
        (BitVec.ofNat 2 (fctlRm (s.thread t).fctl))) (vs s t) with
    checks := fun s t => scopeChecks s t o word ++ groupChecks s t c.toNat ++ atomSources fn d v s t ++
      capabilityChecks s t c.toNat State.memKind (fun c => c.r && c.w) (s.effAddr t c.toNat 0) (size s t) (size s t) ++ rowChecks s t (vs s t)
    lease := fun s t => (s.placeOf t c.toNat 0 true).isSome }

/-- The thirteen atomics. -/
def atomicForm : Instr → Option Form
  | .aadd d c x o ct => some (.atomic .add d c x o ct (insnWord (.aadd d c x o ct)))
  | .amin d c x o ct => some (.atomic .smin d c x o ct (insnWord (.amin d c x o ct)))
  | .amax d c x o ct => some (.atomic .smax d c x o ct (insnWord (.amax d c x o ct)))
  | .aminu d c x o ct => some (.atomic .umin d c x o ct (insnWord (.aminu d c x o ct)))
  | .amaxu d c x o ct => some (.atomic .umax d c x o ct (insnWord (.amaxu d c x o ct)))
  | .aand d c x o ct => some (.atomic .and d c x o ct (insnWord (.aand d c x o ct)))
  | .aor d c x o ct => some (.atomic .or d c x o ct (insnWord (.aor d c x o ct)))
  | .axor d c x o ct => some (.atomic .xor d c x o ct (insnWord (.axor d c x o ct)))
  | .axchg d c x o ct => some (.atomic .xchg d c x o ct (insnWord (.axchg d c x o ct)))
  | .acas d c x o ct => some (.atomic .cas d c x o ct (insnWord (.acas d c x o ct)))
  | .afadd d c x o ct => some (.atomic .fadd d c x o ct (insnWord (.afadd d c x o ct)))
  | .aaddD d c x o ct => some (.atomic .addD d c x o ct (insnWord (.aaddD d c x o ct)))
  | .acasD d c x o ct => some (.atomic .casD d c x o ct (insnWord (.acasD d c x o ct)))
  | _ => none

/-- `fence`, `pref`, `cflush`, `aqry`, `amat`, `cpy`, `tcpy`. -/
def orderForm : Instr → Option Form
  | .fence o k ct => some ((Form.acting ct (fun s t => s.scopeFit t o) [] fun s t => s.addOp t (.fence k.toNat o.toNat)).checking fun s t =>
      scopeChecks s t o (insnWord (.fence o k ct)))
  | .pref h c o l ct => some (.acting ct (fun _ _ => true) (if l then State.groupRegs c.toNat else []) fun s t =>
      match hintPlace s t c.toNat (s.effAddr t c.toNat (o.toInt * 128)) with
      | (s1, some (.global pa)) => hintAct s1 t h.toNat pa
      | (s1, some (.scratch _ _)) => s1
      | (s1, none) => s1.updThread t fun h => { h with hints := h.hints + 1 })
  | .cflush p c x l ct => some
    { Form.acting ct (fun s t => s.scopeFit t x && s.clean t c.toNat &&
        s.capFit t c.toNat State.memKind (fun c => c.r || c.w) (s.effAddr t c.toNat 0) 1 1 && decide ((s.thread t).st < 63) &&
        (s.placeOf t c.toNat 0 false).isSome) (if l then State.groupRegs c.toNat else [])
      fun s t => s.atPlaceOf t c.toNat 0 false fun s1 pl => (s1.addOp t (.flush p.toNat x.toNat pl)).incSt t with
      checks := fun s t => scopeChecks s t x (insnWord (.cflush p c x l ct)) ++ groupChecks s t c.toNat ++
        capabilityChecks s t c.toNat State.memKind (fun c => c.r || c.w) (s.effAddr t c.toNat 0) 1 1
      lease := fun s t => (s.placeOf t c.toNat 0 false).isSome }
  | .aqry d c ct => some
    { Form.acting ct (fun s t => s.clean t c.toNat && s.capFit t c.toNat (· == 0) (·.r) (s.effAddr t c.toNat 0) 1 1 &&
        (s.rowCheck t [d.toNat]).isNone && decide ((s.thread t).ld < 63) && (s.placeOf t c.toNat 0 false).isSome) []
      fun s t => s.atPlaceOf t c.toNat 0 false fun s1 p =>
        s1.issueLoad t [] (.query (match p with | .global pa => pa | .scratch _ la => la) d.toNat) [d.toNat] with
      checks := fun s t => groupChecks s t c.toNat ++ capabilityChecks s t c.toNat (· == 0) (·.r) (s.effAddr t c.toNat 0) 1 1 ++
        rowChecks s t [d.toNat]
      lease := fun s t => (s.placeOf t c.toNat 0 false).isSome }
  | .amat c v o ct => some ((Form.acting ct (fun s t => s.scopeFit t o && s.clean t c.toNat && s.readable t [(v.toNat, Acc.int)] &&
        s.capFit t c.toNat (· == 0) (·.r) (s.effAddr t c.toNat 0) (s.reg t v.toNat).toNat 1 && decide ((s.thread t).cp < 63)) []
      fun s t => (s.addOp t (.materialise (s.effAddr t c.toNat 0).toNat (s.reg t v.toNat).toNat o.toNat)).incCp t).checking fun s t =>
        scopeChecks s t o (insnWord (.amat c v o ct)) ++ groupChecks s t c.toNat ++ sourceChecks s t [(v.toNat, Acc.int)] ++
          capabilityChecks s t c.toNat (· == 0) (·.r) (s.effAddr t c.toNat 0) (s.reg t v.toNat).toNat 1)
  | .cpy d f v o x ct => some ((Form.acting ct (fun s t => s.scopeFit t o && s.clean t d.toNat && s.clean t f.toNat &&
        s.readable t [(v.toNat, Acc.int)] &&
        s.capFit t f.toNat State.memKind (fun c => c.r && c.e) (s.capGroup t f.toNat).cursor (s.reg t v.toNat).toNat 1 &&
        s.capFit t d.toNat State.memKind (fun c => c.w && c.e) (s.capGroup t d.toNat).cursor (s.reg t v.toNat).toNat 1 &&
        decide ((s.thread t).cp < 63)) []
      fun s t => (s.addOp t (.copy ⟨(s.capGroup t f.toNat).bits, (s.capGroup t d.toNat).bits, (s.reg t v.toNat).toNat, o.toNat, x, none,
        0, [], 0, .accepted⟩)).incCp t).checking fun s t =>
          scopeChecks s t o (insnWord (.cpy d f v o x ct)) ++ groupChecks s t d.toNat ++ groupChecks s t f.toNat ++
            sourceChecks s t [(v.toNat, Acc.int)] ++
            capabilityChecks s t f.toNat State.memKind (fun c => c.r && c.e) (s.capGroup t f.toNat).cursor (s.reg t v.toNat).toNat 1 ++
            capabilityChecks s t d.toNat State.memKind (fun c => c.w && c.e) (s.capGroup t d.toNat).cursor (s.reg t v.toNat).toNat 1)
  | .tcpy k b v o x ct => some ((Form.acting ct (fun s t => s.scopeFit t o && s.clean t k.toNat && s.clean t b.toNat &&
        s.readable t ((span v.toNat 4).map fun r => (r, Acc.int)) &&
        s.capFit t k.toNat (· == 3) (·.r) (s.capGroup t k.toNat).cursor 384 16 &&
        s.capFit t b.toNat (· == 1) (fun c => c.r && c.w && c.e) (s.capGroup t b.toNat).cursor 16 16 && decide ((s.thread t).cp < 63)) []
      fun s t => (s.addOp t (.copy ⟨0, 0, 0, o.toNat, x, some (s.capGroup t k.toNat).bits, (s.capGroup t b.toNat).cursor,
        (span v.toNat 4).map fun r => (s.reg t r).toNat, fctlScl (s.thread t).fctl, .accepted⟩)).incCp t).checking fun s t =>
          scopeChecks s t o (insnWord (.tcpy k b v o x ct)) ++ groupChecks s t k.toNat ++ groupChecks s t b.toNat ++
            sourceChecks s t ((span v.toNat 4).map fun r => (r, Acc.int)) ++
            capabilityChecks s t k.toNat (· == 3) (·.r) (s.capGroup t k.toNat).cursor 384 16 ++
            capabilityChecks s t b.toNat (· == 1) (fun c => c.r && c.w && c.e) (s.capGroup t b.toNat).cursor 16 16)
  | _ => none

/-! ## The matrix engine and the accumulator ring, R152 to R163 -/

/-- The bytes of a block that an instruction reads at issue, R153, R163. -/
def blockBytes (s : State) (t k n : Nat) : List (BitVec 8) := (s.spadLoad (gangOf t) (s.effAddr t k 0).toNat n).1

/-- A block can be read: an executable LOCAL capability, no earlier store of the thread to it, no incomplete ACQ or FULL (R256), no
poison. -/
def State.blockFit (s : State) (t k n : Nat) : Bool :=
  s.clean t k && s.capFit t k (· == 1) (fun c => c.r && c.e) (s.effAddr t k 0) n n &&
    !s.ownPending t (s.effAddr t k 0).toNat n false && !s.acquiring t && !(s.spadLoad (gangOf t) (s.effAddr t k 0).toNat n).2.1

/-- The checks of a block, R153, R163, before it is read. -/
def blockChecks (s : State) (t k n : Nat) : List Check :=
  groupChecks s t k ++ capabilityChecks s t k (· == 1) (fun c => c.r && c.e) (s.effAddr t k 0) n n

/-- FORMAT where the gang's ring has no tile that far from the tail, R159. -/
def ringChecks (s : State) (t : Nat) (o : BitVec 3) : List Check :=
  [(decide (s.ringC (gangOf t) ≤ o.toNat), Cause.format, BitVec.ofNat 32 o.toNat)]

/-- `mms`, `mmp`, `repi`, `rrel`, `rclr`, `rld`, `rst`. -/
def matrixForm : Instr → Option Form
  | .mms c r ct => some ((Form.acting ct (fun s t => s.blockFit t c.toNat 64 &&
        (s.blockBad (gangOf t) true (blockBytes s t c.toNat 64)).isNone && decide ((s.thread t).tl < 63)) []
      fun s t => s.enterRequest t r.toNat (Block.dec (blockBytes s t c.toNat 64))).checking fun s t => blockChecks s t c.toNat 64)
  | .mmp c r ct => some ((Form.acting ct (fun s t => s.blockFit t c.toNat 64 &&
        (s.blockBad (gangOf t) false (blockBytes s t c.toNat 64)).isNone && decide ((s.thread t).tl < 63)) []
      fun s t => s.enterRequest t r.toNat (Block.dec (blockBytes s t c.toNat 64))).checking fun s t => blockChecks s t c.toNat 64)
  | .repi c ct => some ((Form.acting ct (fun s t => s.blockFit t c.toNat 32 && (epiBad (blockBytes s t c.toNat 32)).isNone &&
        decide ((s.thread t).tl < 63)) []
      fun s t => { s with epi := s.epi.put (epiKey (gangOf t)) (EpiBlock.dec (blockBytes s t c.toNat 32)) }.enterStream t 0
        (.drain (EpiBlock.dec (blockBytes s t c.toNat 32)))).checking fun s t => blockChecks s t c.toNat 32)
  | .rrel ct => some (.acting ct (fun s t => decide ((s.thread t).tl < 63)) [] fun s t => (s.enterStream t 0 .release).releaseNow s.nextId)
  | .rclr ct => some (.acting ct (fun s t => decide ((s.thread t).tl < 63)) [] fun s t =>
      let h := s.ringHead (gangOf t) (s.quadOf t)
      (s.enterStream t 0 (.clear h (decide (s.ringTail (gangOf t) (s.quadOf t) + s.ringC (gangOf t) ≤ h)))).clearNow s.nextId)
  | .rld d o v ct => some ((Form.acting ct (fun s t => s.readable t [(v.toNat, Acc.any)] && decide (o.toNat < s.ringC (gangOf t)) &&
        (s.rowCheck t [d.toNat]).isNone && decide ((s.thread t).ld < 63)) []
      fun s t =>
        let n := s.ringTail (gangOf t) (s.quadOf t) + o.toNat
        s.issueLoad t [] (.ringLoad (s.quadOf t) (n % s.ringC (gangOf t)) ((s.reg t v.toNat).toNat % 16384) d.toNat n
          (s.tileTargeted (gangOf t) (s.quadOf t) n)) [d.toNat]).checking fun s t =>
            sourceChecks s t [(v.toNat, Acc.any)] ++ ringChecks s t o ++ rowChecks s t [d.toNat])
  | .rst x o v ct => some ((Form.acting ct (fun s t => s.readable t [(x.toNat, Acc.any), (v.toNat, Acc.any)] &&
        decide (o.toNat < s.ringC (gangOf t)) && decide ((s.thread t).st < 63)) []
      fun s t =>
        let n := s.ringTail (gangOf t) (s.quadOf t) + o.toNat
        let slot := (s.reg t v.toNat).toNat % 16384
        ((s.spoil (gangOf t) (s.quadOf t) n slot).addOp t (.ringStore (s.quadOf t) (n % s.ringC (gangOf t)) slot n
          (if s.tileInUse (gangOf t) (s.quadOf t) n then Config.freeWord (s.freeCtr * 65536 + laneOf t * 32) else s.reg t x.toNat))).incSt t).checking
            fun s t => sourceChecks s t [(x.toNat, Acc.any), (v.toNat, Acc.any)] ++ ringChecks s t o)
  | _ => none

/-! ## Barrier objects, buffers, ports, R319 to R333, R340 to R346 -/

/-- The local address that an object or buffer instruction names. -/
def objAddr (s : State) (t k : Nat) : Nat := (s.effAddr t k 0).toNat

/-- A structure in a scratchpad can be used: R340, no release or earlier access of the thread still to come (R256, R341). -/
def State.objFit (s : State) (t k size : Nat) (srcs : List Nat) (write : Bool) : Bool :=
  s.clean t k && s.readable t (srcs.map fun v => (v, Acc.int)) &&
    s.capFit t k (· == 1) (fun c => c.r && c.w) (s.effAddr t k 0) size 16 && !s.releasing t && !s.ownPending t (objAddr s t k) size write

/-- A buffer whose header is sound, R326, R431. -/
def State.bufFit (s : State) (t k : Nat) (srcs : List Nat) : Bool :=
  s.objFit t k 32 srcs true && !s.granulesPoisoned (gangOf t) (objAddr s t k) 32 && (s.hdrAt (gangOf t) (objAddr s t k)).firstBad.isNone

/-- A form that takes a slot of a buffer whose count is not 0, by a thread whose turn it is. -/
def Form.take (ct : Ctl) (c : BitVec 3) (d : BitVec 5) (why : Nat → ParkWhy) (count : Hdr → Nat) (act : Hdr → Hdr × Nat) : Form :=
  let h (s : State) (t : Nat) := s.hdrAt (gangOf t) (objAddr s t c.toNat)
  { Form.acting ct (fun s t => s.bufFit t c.toNat [] && count (h s t) != 0 && !overtakes s t (why (objAddr s t c.toNat))) []
      fun s t => s.setHdr (gangOf t) (objAddr s t c.toNat) (act (h s t)).1 with
    checks := fun s t => objectChecks s t c.toNat 32 []
    writes := fun s t => [(d.toNat, BitVec.ofNat 32 (act (h s t)).2, 1, 0)] }

/-- A form that returns a slot. -/
def Form.give (ct : Ctl) (c : BitVec 3) (d : BitVec 5) (act : Hdr → Nat → Option Hdr) : Form :=
  let r (s : State) (t : Nat) := act (s.hdrAt (gangOf t) (objAddr s t c.toNat)) ((s.reg t d.toNat).toNat % 2 ^ 24)
  (Form.acting ct (fun s t => s.bufFit t c.toNat [d.toNat] && (r s t).isSome) [] fun s t =>
    match r s t with
    | some h => s.setHdr (gangOf t) (objAddr s t c.toNat) h
    | none => s).checking fun s t => objectChecks s t c.toNat 32 [d.toNat]

/-- The port entry that a register gives, R332: a CAP register is sent as RAW. -/
def portEntryOf (s : State) (t v : Nat) : PortEntry :=
  if (s.tagOf t v).1 = 11 then ⟨s.reg t v, 0, 0⟩ else ⟨s.reg t v, (s.tagOf t v).1, (s.tagOf t v).2⟩

/-- Whether a neighbour is there to receive: present and not exited. -/
def receiver (s : State) (t : Nat) (r : BitVec 2) : Option Nat := (neighbour s t r).filter fun n => !gone s n

/-- `binit`, `barv`, `bexp`, `bwait` whose phase has changed, the buffer operations, `psend` and `precv` that need not park. -/
def syncForm : Instr → Option Form
  | .binit c v ct => some ((Form.acting ct (fun s t => s.objFit t c.toNat 16 [v.toNat] true && decide (1 ≤ (s.reg t v.toNat).toNat) &&
        decide ((s.reg t v.toNat).toNat ≤ 65535)) []
      fun s t => s.setObj (gangOf t) (objAddr s t c.toNat) (BarObj.init (s.reg t v.toNat).toNat)).checking fun s t =>
        objectChecks s t c.toNat 16 [v.toNat] ++
          [(s.reg t v.toNat == 0 || decide (65535 < (s.reg t v.toNat).toNat), Cause.format, s.reg t v.toNat)])
  | .barv c v p ct =>
    let r (s : State) (t : Nat) := (s.objAt (gangOf t) (objAddr s t c.toNat)).arrive (s.reg t v.toNat).toNat
    some ((Form.acting ct (fun s t => s.objFit t c.toNat 16 [v.toNat] true && !s.granulesPoisoned (gangOf t) (objAddr s t c.toNat) 16 &&
        (r s t).isSome) []
      fun s t => match r s t with
        | some x => (s.setObj (gangOf t) (objAddr s t c.toNat) x.1).setPred t p x.2
        | none => s).checking fun s t => objectChecks s t c.toNat 16 [v.toNat])
  | .bexp c v ct =>
    let r (s : State) (t : Nat) := (s.objAt (gangOf t) (objAddr s t c.toNat)).expecting (s.reg t v.toNat).toNat
    some ((Form.acting ct (fun s t => s.objFit t c.toNat 16 [v.toNat] true && !s.granulesPoisoned (gangOf t) (objAddr s t c.toNat) 16 &&
        (r s t).isSome) []
      fun s t => match r s t with
        | some x => s.setObj (gangOf t) (objAddr s t c.toNat) x
        | none => s).checking fun s t => objectChecks s t c.toNat 16 [v.toNat])
  | .bwait c v p _ ct => some ((Form.acting ct (fun s t => s.objFit t c.toNat 16 [v.toNat] false &&
        !s.granulesPoisoned (gangOf t) (objAddr s t c.toNat) 16 &&
        s.objPhase (gangOf t) (objAddr s t c.toNat) != (s.reg t v.toNat).extractLsb' 0 4) [] fun s t => s.setPred t p true).checking fun s t =>
          objectChecks s t c.toNat 16 [v.toNat])
  | .bacq c d ct => some (.take ct c d .acquire (·.filled) Hdr.acq)
  | .bget c d ct => some (.take ct c d .take (·.free) Hdr.get)
  | .brel c d ct => some (.give ct c d Hdr.rel)
  | .bput c d ct => some (.give ct c d Hdr.put)
  | .psend r v ct => some ((Form.acting ct (fun s t => s.readable t [(v.toNat, Acc.any)] && (match receiver s t r with
        | none => true
        | some n => decide (portCount s n (opposite r) < portDepth s t n))) []
      fun s t => match receiver s t r with
        | none => s.updThread t fun h => { h with drops := h.drops + 1 }
        | some n => { s with flights := s.flights ++ [⟨t, n, opposite r, portEntryOf s t v.toNat, holdingFences s t⟩] }).checking fun s t => sourceChecks s t [(v.toNat, Acc.any)])
  | .precv r v ct => some
    { Form.acting ct (fun s t => !(s.ports.get [] (portKey t r)).isEmpty) []
        fun s t => { s with ports := s.ports.set [] (portKey t r) (s.ports.get [] (portKey t r)).tail } with
      checks := fun s t => if (s.ports.get [] (portKey t r)).isEmpty
        then [((receiver s t r).isNone && portCount s t r == 0, Cause.portEdge, BitVec.ofNat 32 r.toNat)] else rowChecks s t [v.toNat]
      writes := fun s t => match s.ports.get [] (portKey t r) with
        | e :: _ => [(v.toNat, e.bits, e.fmt, e.scl)]
        | [] => [] }
  | _ => none

/-! ## Submission and kernel mode, R347 to R349, R395 to R403 -/

/-- The record of a kernel instruction can be reached: kernel mode, a SERVICE capability, R395. -/
def State.serviceFit (s : State) (t k : Nat) (perm : Cap → Bool) (n align : Nat) : Bool :=
  s.kernel t && s.clean t k && s.capFit t k (· == 4) perm (s.effAddr t k 0) n align

/-- The parts of a record within the lease. -/
def State.partsOf (s : State) (t k n : Nat) (write : Bool) : State × Option (List (Place × Nat)) :=
  s.parts t (s.capGroup t k) (s.effAddr t k 0).toNat n write

/-- A record that the instruction reads at issue: none of the thread's stores still has to reach it, no ACQ or FULL is incomplete
(R256), the caches have room for its lines (R11), and it holds no poison. -/
def recordReady (r : State × Option (List (Place × Nat))) (t : Nat) : Bool :=
  match r.2 with
  | some ps => !r.1.acquiring t && !r.1.partsPending t ps && r.1.partsRoom t ps && !(r.1.readParts t ps).2.2
  | none => false

/-- The state and bytes of such a record, and its parts. -/
def recordRead (r : State × Option (List (Place × Nat))) (t : Nat) : State × List (BitVec 8) × List (Place × Nat) :=
  match r.2 with
  | some ps => ((r.1.readParts t ps).1, (r.1.readParts t ps).2.1, ps)
  | none => (r.1, [], [])

/-- The report that a `sweep` makes waits for no re-enciphering, R219, R401. -/
def reportFree (r : State × List (BitVec 8) × List (Place × Nat)) : Bool :=
  match r with
  | (s1, bs, (.global pa, _) :: _) =>
    !s1.reportHeld ((pa, 0) :: ((s1.sweeps.find? (leNat ((bs.drop 1).take 1) % 64)).map (·.descs)).getD [])
  | _ => true

/-- The batch that is bound to the address an `svcput` names. -/
def boundBatch (s : State) (t : Nat) (ea : Nat) : Option (Nat × Batch) :=
  (s.batches.filter fun kb => kb.2.die == s.coreOf t / 96 && kb.2.bound.any fun x => x.2 == ea).getLast?

/-- The word that `fltrd` reads, R403: 0 from an empty log; LOST of what the log has dropped. -/
def faultHead (s : State) (die : Nat) : BitVec 32 :=
  match s.regs.faultLog.get [] die with
  | [] => 0
  | w :: _ => setBit w 17 (w.getLsbD 17 || s.regs.faultLost.get false die)

/-- `tlaunch`, `ctxsv`, `ctxld`, `sweep`, `svcget`, `svcput`, `fltrd`. -/
def kernelForm : Instr → Option Form
  | .tlaunch c d ct => some ((Form.acting ct (fun s t => s.clean t c.toNat && s.capFit t c.toNat (· == 3) (·.r) (s.effAddr t c.toNat 0) 640 16 &&
        (s.rowCheck t [d.toNat, d.toNat + 1]).isNone && decide ((s.thread t).ld < 63)) []
      fun s t => s.issueLoad t [] (.launch (s.effAddr t c.toNat 0).toNat d.toNat) [d.toNat, d.toNat + 1]).checking fun s t =>
        groupChecks s t c.toNat ++ capabilityChecks s t c.toNat (· == 3) (·.r) (s.effAddr t c.toNat 0) 640 16 ++
          rowChecks s t [d.toNat, d.toNat + 1])
  | .ctxsv c ct => some
    { Form.acting ct (fun s t => s.serviceFit t c.toNat (·.w) 256 64 && (s.thread t).ld == 0 &&
        decide ((s.thread t).st < 63) && (s.partsOf t c.toNat 256 true).2.isSome) []
      fun s t => match s.partsOf t c.toNat 256 true with
        | (s1, some ps) => (s1.addOp t (.contextStore (deal ps (contextBytes s1 t)))).incSt t
        | (s1, none) => s1 with
      checks := fun s t => serviceChecks s t c.toNat (insnWord (.ctxsv c ct)) (·.w) 256 64 ++
        [((s.thread t).ld != 0, Cause.format, cntOf (s.thread t))]
      lease := fun s t => (s.partsOf t c.toNat 256 true).2.isSome }
  | .ctxld c ct => some
    { Form.acting ct (fun s t => s.serviceFit t c.toNat (·.r) 256 64 && (s.rowCheck t (span 0 32)).isNone &&
        decide ((s.thread t).ld < 63) && (s.partsOf t c.toNat 256 false).2.isSome) []
      fun s t => match s.partsOf t c.toNat 256 false with
        | (s1, some ps) => s1.issueLoad t [] (.contextLoad ps) (span 0 32)
        | (s1, none) => s1 with
      checks := fun s t => serviceChecks s t c.toNat (insnWord (.ctxld c ct)) (·.r) 256 64 ++ rowChecks s t (span 0 32)
      lease := fun s t => (s.partsOf t c.toNat 256 false).2.isSome }
  | .sweep c ct =>
    let r (s : State) (t : Nat) := s.partsOf t c.toNat 1040 false
    some { Form.acting ct (fun s t => s.serviceFit t c.toNat (·.r) 1040 16 && recordReady (r s t) t &&
        (sweepBad (recordRead (r s t) t).2.1).isNone && reportFree (recordRead (r s t) t)) []
      fun s t => match recordRead (r s t) t with
        | (s1, bs, (.global pa, _) :: _) =>
          s1.startSweep (leNat ((bs.drop 1).take 1) % 64) (sweepRanges bs) (pa, (r s t).1.coreOf t / 96)
        | (s1, _, _) => s1 with
      checks := fun s t => serviceChecks s t c.toNat (insnWord (.sweep c ct)) (·.r) 1040 16
      lease := fun s t => (r s t).2.isSome }
  | .svcget c ct => some
    { Form.acting ct (fun s t => s.serviceFit t c.toNat (·.r) 1568 16 && decide ((s.thread t).ld < 63) &&
        (s.partsOf t c.toNat 1568 false).2.isSome) []
      fun s t => match s.partsOf t c.toNat 1568 false with
        | (s1, some ps) => (match nextBatch s1 (s1.coreOf t / 96) with
          | none => s1.issueLoad t [] (.batchGet ps none 0) []
          | some (k, b) =>
            { s1 with
              batches := s1.batches.put k { b with bound := some (t, (s.effAddr t c.toNat 0).toNat) }
              regs := { s1.regs with svcTurn := s1.regs.svcTurn.put (s1.coreOf t / 96) b.world } }.issueLoad t [] (.batchGet ps (some k) 0) [])
        | (s1, none) => s1 with
      checks := fun s t => serviceChecks s t c.toNat (insnWord (.svcget c ct)) (·.r) 1568 16
      lease := fun s t => (s.partsOf t c.toNat 1568 false).2.isSome }
  | .svcput c ct =>
    let r (s : State) (t : Nat) := s.partsOf t c.toNat 1568 true
    some { Form.acting ct (fun s t => s.serviceFit t c.toNat (fun c => c.r && c.w) 1568 16 &&
        (boundBatch s t (s.effAddr t c.toNat 0).toNat).isSome && decide ((s.thread t).st < 63) && recordReady (r s t) t) []
      fun s t => match boundBatch s t (s.effAddr t c.toNat 0).toNat, recordRead (r s t) t with
        | some (k, b), (s1, bs, ps) =>
          ((answer { s1 with batches := s1.batches.erase k } k b (replies bs)).addOp t (.batchPut ps)).incSt t
        | none, (s1, _, _) => s1 with
      checks := fun s t => serviceChecks s t c.toNat (insnWord (.svcput c ct)) (fun c => c.r && c.w) 1568 16 ++
        [((boundBatch s t (s.effAddr t c.toNat 0).toNat).isNone, Cause.format, 0)]
      lease := fun s t => (r s t).2.isSome }
  | .fltrd d ct => some
    { Form.acting ct (fun s t => s.kernel t) [] fun s t =>
        let die := s.coreOf t / 96
        { s with regs := { s.regs with
            faultLog := s.regs.faultLog.set [] die (s.regs.faultLog.get [] die).tail
            faultLost := if (s.regs.faultLog.get [] die).isEmpty then s.regs.faultLost else s.regs.faultLost.set false die false } } with
      writes := fun s t => [(d.toNat, faultHead s (s.coreOf t / 96), 0, 0)]
      checks := fun s t => kernelChecks s t (insnWord (.fltrd d ct)) ++ rowChecks s t [d.toNat] }
  | _ => none

/-! ## Where threads stand that wait -/

/-- A thread that stands in a waiting place at `pc`, R301. -/
def Thread.standing (h : Thread) (clock pc : Nat) (st : TStat) : Thread :=
  { h with pc := pc, stat := st, cont := 0, runLen := 0, since := clock }

/-- Nothing but registers, their validity, threads and issue slots differs: memory, scratchpads, operations in flight, gangs,
tasks and every device register are as before. -/
def KeepsDevice (s s' : State) : Prop :=
  s' = { s with rows := s'.rows, valid := s'.valid, threads := s'.threads, slots := s'.slots }

/-- Every register of every thread, its tag and its validity are as before. -/
def KeepsRegisters (s s' : State) : Prop := s'.rows = s.rows ∧ s'.valid = s.valid

/-- Every register of every thread reads as before, with its tag. -/
def SameRegisters (s s' : State) : Prop := ∀ u v, v < 32 → s'.reg u v = s.reg u v ∧ s'.tagOf u v = s.tagOf u v

/-- Every other thread is as before. -/
def KeepsOthers (s s' : State) (t : Nat) : Prop := ∀ u, u ≠ t → s'.thread u = s.thread u

/-- The memories behind every address hold what they held: the home slices, the memory behind the pool port, the scratchpads and
the bytes of the caches. -/
def KeepsMemory (s s' : State) : Prop := s'.mem = s.mem ∧ s'.poolMem = s.poolMem ∧ s'.spad = s.spad ∧ s'.cbytes = s.cbytes

/-- Threads and cached bytes are listed once each, in rising order. -/
def State.listsForm (s : State) : Bool := FMap.rising none s.threads && FMap.rising none s.cbytes

/-- Every table whose entries steps find by number is in rising order: threads, cached bytes, gangs, tasks, queues and the operations in
flight. -/
def State.tablesForm (s : State) : Bool :=
  s.listsForm && FMap.rising none s.gangs && FMap.rising none s.tasks && FMap.rising none s.queues && FMap.rising none s.ops

/-- A cache takes `n` bytes from `pa` on for a world, and no line has to leave it: it holds each of their lines under that tag, or has room
for them, R11, R196. -/
def State.keepsLines (s : State) (u w pa n : Nat) : Bool :=
  let lines := (pa % 128 + n - 1) / 128 + 1
  (span (pa / 128) lines).all fun x => match s.cmeta.find? (mKey u x) with
    | some m => m.world == s.lineTag w (x * 128)
    | none => decide ((s.cmeta.slice (mKey u 0) (mKey (u + 1) 0)).length + lines ≤ capacity u)

/-- The group that holds the current slot is there, and its threads go on at a run boundary, R33. -/
def State.whole (s : State) : Bool :=
  !(slotThreads s).isEmpty && (slotThreads s).all fun t => (s.threads.find? t).isSome && s.goesOn t

/-- The state in which the turn of a quarter's group is made, `c` cycles having passed, R134, R309 (log entry 2). -/
def State.atTurn (s : State) (q c : Nat) : State :=
  { s.settled with agenda := s.agenda.tail, clock := s.clock + c, freeCtr := s.freeCtr + 1, cur := q }

/-- The current slot is given up, and no other, R33. -/
def FreesSlot (s s' : State) : Prop := ∀ q, s'.slots.find? q = if q = s.cur then none else s.slots.find? q

/-- The group has executed an instruction that ends its run: its threads stand as `place` says, those guarded off go on, and every
other thread is as before, R31, R33. -/
def Stands (s s' : State) (ct : Ctl) (place : Nat → Thread) : Prop :=
  (∀ u, s'.thread u =
    if u ∈ s.actors ct then place u
    else if u ∈ slotThreads s then (s.thread u).goOn true s.clock ((s.thread u).pc + 4)
    else s.thread u) ∧
  FreesSlot s s'

/-- Whether a count is at or below the bound that `wait` gives it: 15 is no bound, R90. -/
def metBound (n : Nat) (k : BitVec 4) : Bool := k == 15 || decide (n ≤ k.toNat)

/-- Whether a thread's four counts meet the bounds of a `wait`, R90. -/
def Thread.metBounds (h : Thread) (l s c t : BitVec 4) : Bool := metBound h.ld l && metBound h.st s && metBound h.cp c && metBound h.tl t

/-! ## Traps, R370 to R374 -/

/-- A thread that raises a deliverable fault traps: its task declares a handler that can be entered, it is inside none, neither that nor its
save handler, and its gang is not being pre-empted, R373, R381, R382. -/
def State.canTrap (s : State) (t : Nat) : Bool :=
  (s.threads.find? t).isSome && !(s.thread t).handling && !(s.thread t).inSave && (s.preemptOf t).isNone &&
    match s.recordOf t with
    | none => false
    | some r => r.handler != 0xFFFFFFFF && s.handlerOk t r.handler

/-- Where the handler of a thread's task begins, R372. -/
def State.handlerAt (s : State) (t : Nat) : Nat := (s.pccOf t).base + ((s.recordOf t).map (·.handler)).getD 0

/-- A thread as a trap leaves it: TPC, TCAUSE, TVAL and HANDLING written, and at the handler's entry, which begins a run, R373. -/
def Thread.trapped (h : Thread) (tpc cause tval : BitVec 32) (pc clock : Nat) : Thread :=
  { h with
    tpc := tpc, tcause := cause, tval := tval, handling := true, pc := pc, stat := .ready, cont := 0, runLen := 0, since := clock
    age := 0 }

/-- The threads `ts` of the group have trapped, each with the cause and TVAL that `why` gives, and the others of the group, which are guarded
off, have gone on; nothing else differs, R31, R36, R373. -/
def TrappedAs (s s' : State) (ts : List Nat) (ct : Ctl) (why : Nat → BitVec 32 × BitVec 32) : Prop :=
  KeepsDevice s s' ∧ KeepsRegisters s s' ∧
  (∀ u, s'.thread u =
    if u ∈ ts then (s.thread u).trapped (s.pcOffset u (s.thread u).pc) (why u).1 (why u).2 (s.handlerAt u) s.clock
    else if u ∈ slotThreads s then (s.thread u).goOn ct.e s.clock ((s.thread u).pc + 4)
    else s.thread u) ∧
  ∀ q, s'.slots.find? q =
    if q = s.cur then (s.slots.find? q).bind fun g =>
      let left := g.lanes &&& ~~~laneMask (ts.map laneOf)
      if ct.e = true ∨ left = 0 then none else some { g with lanes := left, held := false }
    else s.slots.find? q

/-- The threads `ts` of the group have trapped with one cause and one TVAL. -/
def Trapped (s s' : State) (ts : List Nat) (ct : Ctl) (cause tval : BitVec 32) : Prop := TrappedAs s s' ts ct fun _ => (cause, tval)

/-- The instructions that raise PRIVILEGE in user mode, with their controls, R84, R395. -/
def kernelOnly : Instr → Option Ctl
  | .wrsr _ x ct => if x = 0x14 then none else some ct
  | .ctxsv _ ct => some ct
  | .ctxld _ ct => some ct
  | .halt ct => some ct
  | .sweep _ ct => some ct
  | .svcget _ ct => some ct
  | .svcput _ ct => some ct
  | .fltrd _ ct => some ct
  | _ => none

/-- The form of an instruction. -/
def formOf (i : Instr) : Option Form :=
  (integerForm i).or <| (moveForm i).or <| (floatForm i).or <| (convertForm i).or <| (predicateForm i).or <| (flowForm i).or <|
    (capabilityForm i).or <| (accessForm i).or <| (atomicForm i).or <| (orderForm i).or <| (matrixForm i).or <| (syncForm i).or (kernelForm i)

/-! ## Worlds that stop, translations that go -/

/-- The resident gangs of a world stop at their next run boundaries, and their threads that stand at one have stopped, whatever they were
in; every other gang and thread is as before, R198, R381. -/
def WorldHalts (s s' : State) (w : Nat) : Prop :=
  let mine (g : Nat) : Bool := (s.gangs.find? g).any fun x => decide (x.stat = .resident) && (s.tasks.find? x.task).any (·.world == w)
  (∀ g, s'.gangs.find? g = if mine g = true then (s.gangs.find? g).map fun x => { x with preempt := some false } else s.gangs.find? g) ∧
  ∀ t, s'.thread t =
    if mine (gangOf t) = true then
      if (s.threads.find? t).isSome = true ∧ s.atBoundary t (s.thread t) = true
      then { s.thread t with inSave := false, stat := .stopped, cont := 0, runLen := 0 }
      else { s.thread t with inSave := false }
    else s.thread t

/-- Every incomplete task of a world that had no code has the code WORLD_POISON, and no other task has changed, R198. -/
def Poisoned (s s' : State) (w : Nat) : Prop :=
  ∀ t, s'.tasks.find? t = (s.tasks.find? t).map fun k =>
    if k.world = w ∧ k.stage ≠ .completed ∧ k.code = none then { k with code := some .worldPoison } else k

/-- No translation that a TLB or a walk-ahead TLB holds reaches a frame, R197, R215. -/
def Forgotten (s : State) (frame : Nat) : Prop :=
  (∀ e ∈ s.tlb, frame < e.pa ∨ e.pa + e.leaf ≤ frame) ∧ ∀ e ∈ s.ahead, e.frame ≠ some frame

/-- A task has ended with a code and the fault that ended it: the code stands, memory is as before, and its gangs have stopped; one that
another gang has adopted stays adopted, and retires with its adopter, R213, R312, R379. -/
def EndedWith (s s' : State) (id : Nat) (k : Task) (code : EndCode) (fault : Option (BitVec 32 × BitVec 32 × BitVec 32)) : Prop :=
  s'.tasks.find? id = some { k with code := some code, fault := fault } ∧ s'.mem = s.mem ∧ s'.poolMem = s.poolMem ∧
  ∀ g ∈ k.gangs, ∀ x, s'.gangs.find? g = some x → x.stat = .retired ∨ ((∃ a, x.stat = .adopted a) ∧ s.gangs.find? g = some x)

/-! ## Operations in flight -/

/-- One operation is over, and every other stands as it stood. -/
def OpOver (s s' : State) (id : Nat) : Prop := ∀ k, s'.ops.find? k = if k = id then none else s.ops.find? k

/-- LOADS falls by one in each thread of a list, for each time it stands there, and in no other thread, R69, R87. -/
def LoadsFall (s s' : State) (ts : List Nat) : Prop :=
  ∀ u, (s.threads.find? u).isSome = true → (s'.thread u).ld = (s.thread u).ld - ts.count u

/-- The registers that an operation alone will write: each is one of a crew's 32, is named once, and waits for this operation, R38. -/
def Awaits (s : State) (t id : Nat) (vs : List Nat) : Prop :=
  vs.Nodup ∧ ∀ v ∈ vs, v < 32 ∧ (s.pending t v).map (·.op) = [id]

/-- What one operation does not write: every register of every other thread, and every register of its own that does not wait for
it, R39. -/
def WritesOnly (s s' : State) (t id : Nat) : Prop :=
  ∀ u v, v < 32 → (u = t → (s.pending t v).all (fun p => p.op != id) = true) → s'.reg u v = s.reg u v

/-- What several operations do not write: every register that waits for none of them, R39. -/
def LanesWriteOnly (s s' : State) (lanes : List (Nat × Op)) : Prop :=
  ∀ u v, v < 32 → (∀ y ∈ lanes, (s.pending u v).all (fun p => p.op != y.1) = true) → s'.reg u v = s.reg u v

/-- Several operations are over, and every other stands as it stood. -/
def OpsOver (s s' : State) (lanes : List (Nat × Op)) : Prop :=
  ∀ k, s'.ops.find? k = if (lanes.map (·.1)).contains k = true then none else s.ops.find? k

/-- The operations that return with one: for a load, the lanes of its instruction that read its place (log entry 22). -/
def State.returning (s : State) (id : Nat) (o : Op) : List (Nat × Op) :=
  match o.kind with
  | .load _ _ _ _ => s.loadGroup o
  | _ => [(id, o)]

/-- The operations that a load's return completes, and those that a store completes, R69, R70, R87. -/
def OpKind.returns : OpKind → Bool
  | .load _ _ _ _ => true
  | .ringLoad _ _ _ _ _ _ => true
  | .contextLoad _ => true
  | .batchGet _ _ _ => true
  | _ => false

/-- See `OpKind.returns`. -/
def OpKind.stores : OpKind → Bool
  | .store _ _ _ => true
  | .ringStore _ _ _ _ _ => true
  | .contextStore _ => true
  | .batchPut _ => true
  | _ => false

end Sys2Proof.Machine
end

