-- ==== Sys2Proof/Certificates/Slice0/Obligations.lean ====
section
/-! DEFINITION. The statements for the provers: what decoding, a step, each instruction and each device event do, and the invariants
that every step keeps. Each docstring names the rules of spec/ that the statement formalises. -/

open Sys2Proof Sys2Proof.Machine

/-! ## Decoding and the step -/

/-- A step whose move is a group's turn runs the instruction that the bytes at the PC of the group's first thread decode to: time passes,
the run is one instruction longer, HOT rises where the fetch was redirected (R241), and `exec` acts. A move that is a device event runs the
event; a halted device makes the moves of its recovery alone (R24, R33, R34, R54, R56, R393, R410). A word that does not decode, or whose
feature is not accepted, makes the step that of ILLEGAL_OP or ILLEGAL_RUN with that word (R54, R56); IllegalWords says what they do. Before
any move, the entries that are ready are noted (R134) and the deficits of queues without pending gangs settle (R309), and nothing else
changes.
The order of the moves is data of the state, the model's choice (log entry 2). -/
def Obligations.StepRunsDecoded : Prop :=
  (∀ (s : State) (q c : Nat) (g : Group) (i : Instr) (b0 b1 b2 b3 : BitVec 8),
    let s1 : State := { s.settled with agenda := s.agenda.tail, clock := s.clock + c, freeCtr := s.freeCtr + 1, cur := q }
    let t := g.crew * 32 + (State.lanesOf g).headD 0
    let pc := (s1.thread t).pc
    s.boot.halt = 0 → s.nextMove = ⟨.run q, c⟩ → s.slots.find? q = some g → s1.outsidePcc t pc = none → g.count < 24 ∨ g.held = true →
    s1.codeAt t pc = some b0 → s1.codeAt t (pc + 1) = some b1 →
    (b0.getLsbD 0 = false → Decode.half16 (b1 ++ b0) = .ok i) →
    (b0.getLsbD 0 = true → s1.codeAt t (pc + 2) = some b2 ∧ s1.codeAt t (pc + 3) = some b3 ∧
      Decode.word32 (b3 ++ b2 ++ (b1 ++ b0)) = .ok i) →
    (WellFormed.l6Gated i = true → s.boot.featAccept.getLsbD 0 = true) →
    let s2 := s1.fetchHot g
    step s = exec i (if g.held = true then s2 else { s2 with slots := s2.slots.put q { g with count := g.count + 1 } })) ∧
  (∀ (s : State) (q c : Nat) (g : Group) (b0 b1 b2 b3 : BitVec 8) (r : Except DecodeFault Instr) (word : BitVec 32),
    let s1 := s.atTurn q c
    let t := g.crew * 32 + (State.lanesOf g).headD 0
    let pc := (s1.thread t).pc
    s.boot.halt = 0 → s.nextMove = ⟨.run q, c⟩ → s.slots.find? q = some g → s1.outsidePcc t pc = none → g.count < 24 ∨ g.held = true →
    s1.codeAt t pc = some b0 → s1.codeAt t (pc + 1) = some b1 →
    (b0.getLsbD 0 = false → word = (b1 ++ b0).setWidth 32 ∧ Decode.half16 (b1 ++ b0) = r) →
    (b0.getLsbD 0 = true → word = b3 ++ b2 ++ (b1 ++ b0) ∧ s1.codeAt t (pc + 2) = some b2 ∧ s1.codeAt t (pc + 3) = some b3 ∧
      Decode.word32 word = r) →
    (r = .error .illegalOp ∨ (∃ i, r = .ok i ∧ WellFormed.l6Gated i = true ∧ s.boot.featAccept.getLsbD 0 = false) →
      step s = exec (.unassignedFunctionCode word) s1) ∧
    (r = .error .illegalRun → step s = exec (.illegalRun word) s1)) ∧
  (∀ (s : State) (g : Group), s.fetchHot g = { s with alias_ := (s.fetchHot g).alias_ } ∧ (s.alias_ = [] → s.fetchHot g = s)) ∧
  (∀ (s : State) (i : Instr) (c : Nat), s.nextMove = ⟨.event i, c⟩ → isEvent i = true → s.boot.halt = 0 ∨ State.recovers i = true →
    step s = exec i { s.settled with agenda := s.agenda.tail, clock := s.clock + c, freeCtr := s.freeCtr + 1 }) ∧
  (∀ (s : State) (m : Move), s.nextMove = m → s.boot.halt ≠ 0 → (∀ i, m.act = .event i → State.recovers i = false) →
    ∃ s', step s = .next s' ∧
      s' = { s.settled with agenda := s.agenda.tail, clock := s.clock + m.cycles, freeCtr := s.freeCtr + 1, cur := s'.cur }) ∧
  (∀ s : State, s.settled = { s with reqs := s.settled.reqs, queues := s.settled.queues } ∧
    (∀ id, s.settled.reqs.find? id = (s.reqs.find? id).map fun r =>
      if s.entryReady id r = true then { r with readyAt := some (r.readyAt.getD s.clock) } else { r with readyAt := none, aged := false }) ∧
    ∀ q, (s.settled.queues.find? q).map (fun x => { x with deficit := 0 }) = (s.queues.find? q).map fun x => { x with deficit := 0 })

/-- Words of the encodings that spec/04 and spec/05 to spec/25 write out decode to the instructions that they stand for; reserved
and unassigned words are refused by name (R42, R56 and the words of the instruction chapters). -/
def Obligations.WordsDecode : Prop :=
  decodeTableWord 32 0xD0000001 = some (.nop ⟨0, false, false, false⟩) ∧
  decodeTableWord 32 0xCA412801 = some (.pset 4 1 2 8 ⟨0, false, false, false⟩) ∧
  decodeTableWord 32 0xCCFFFA17 = some (.bra 0xFFFA ⟨1, false, true, true⟩) ∧
  decodeTableWord 32 0xD800A503 = some (.trap 0x00A5 ⟨0, false, false, true⟩) ∧
  decodeTableWord 32 0x008A2001 = some (.add 17 8 16 false ⟨0, false, false, false⟩) ∧
  decodeTableWord 32 0xFF240001 = some (.ctxsv 2 ⟨0, false, false, false⟩) ∧
  Decode.half16 0 = .error .illegalOp ∧ Decode.word32 0x3E000001 = .error .illegalOp ∧
  Decode.word32 0xCCFFFA15 = .error .illegalRun ∧ Decode.word32 0xD9800001 = .error .illegalOp

/-- Decoding the encoding of any well-formed instruction gives that instruction, whatever bytes follow it (R26 to R30). -/
def Obligations.DecodeEncode : Prop :=
  ∀ (i : Instr) (rest : List (BitVec 8)), wellFormed i = true → hasWord i = true → Decode.bytes (encodeBytes i ++ rest) = .ok (i, rest)

/-- Whatever decodes is well-formed and is encoded by the very bytes that it was read from (R28, R42, R56). -/
def Obligations.DecodeSound : Prop :=
  ∀ (bs rest : List (BitVec 8)) (i : Instr), Decode.bytes bs = .ok (i, rest) → wellFormed i = true ∧ bs = encodeBytes i ++ rest

/-! ## Reset, and what every step keeps -/

/-- Right after reset the device is in stage 1 of its start-up with no halt code and no feature accepted, and at DIE_RETRAIN 16,
CKPTCTL 0x401, ERASECAP 2 and ALIASCTL 16 (R410, R411, R390, R203, R236). No thread, gang, task, world, lease or queue exists;
that nothing is cached or in flight, and that memory lists nothing, is the model's choice (log entries 5 and 6). The invariants of the
statements below hold there. -/
def Obligations.ResetState : Prop :=
  State.reset.boot.stage = 1 ∧ State.reset.boot.halt = 0 ∧ State.reset.boot.accepted = false ∧ State.reset.boot.featAccept = 0 ∧
  State.reset.regs.retrain = 16 ∧ State.reset.regs.ckptCtl = 0x401 ∧
  (∀ stack, State.reset.regs.eraseCap.get 2 stack = 2) ∧ (∀ die, State.reset.regs.aliasHot.get 16 die = 16) ∧
  (∀ pa, State.reset.homeByte pa = 0) ∧ (∀ gang la, State.reset.spadByte gang la = 0) ∧
  (∀ t v, State.reset.reg t v = 0 ∧ State.reset.tagOf t v = (0, 0)) ∧ (∀ t k, State.reset.validBit t k = false) ∧
  (∀ t, (State.reset.thread t).stat = .exited) ∧ State.reset.ops = [] ∧ State.reset.slots = [] ∧ State.reset.tasks = [] ∧
  State.reset.worlds = [] ∧ State.reset.alias_ = [] ∧ State.reset.tlb = [] ∧ State.reset.gangs = [] ∧ State.reset.queues = [] ∧
  State.reset.cbytes = [] ∧ State.reset.cmeta = [] ∧ State.reset.reqs = [] ∧ State.reset.flights = [] ∧
  State.reset.memForm = true ∧ State.reset.tablesForm = true

/-- Every step keeps every memory of the device in its canonical form, those of the checkpoints among them: from every state that
has it, and for every instruction and event. -/
def Obligations.StepKeepsMemory : Prop :=
  ∀ s s' : State, s.memForm = true → step s = .next s' → s'.memForm = true

/-- Every step keeps the threads and the bytes of the caches in rising order, so that none is listed twice, and so it does of the gangs, the
tasks, the queues and the operations in flight. -/
def Obligations.StepKeepsLists : Prop :=
  (∀ s s' : State, s.listsForm = true → step s = .next s' → s'.listsForm = true) ∧
  ∀ s s' : State, s.tablesForm = true → step s = .next s' → s'.tablesForm = true

/-- Bytes written at a home slice, in a scratchpad or in a cache are read back there, and every other address of that memory reads as
before; in a cache where no line has to leave it (R11, R71, R196, R222, R223). -/
def Obligations.ReadAfterWrite : Prop :=
  (∀ (s : State) (pa a : Nat) (bs : List (BitVec 8)), (s.rawWrite pa bs).homeByte a =
    if pa ≤ a ∧ a < pa + bs.length then bs.getD (a - pa) 0 else s.homeByte a) ∧
  (∀ (s : State) (gang la g a : Nat) (bs : List (BitVec 8)) (tag : Bool), la + bs.length ≤ 2 ^ 24 → a < 2 ^ 24 →
    (s.spadWrite gang la bs tag).spadByte g a =
      if g = gang ∧ la ≤ a ∧ a < la + bs.length then bs.getD (a - la) 0 else s.spadByte g a) ∧
  (∀ (s : State) (u w pa a : Nat) (bs : List (BitVec 8)) (tag : Bool), pa ≤ a → a < pa + bs.length →
    (s.cacheWrite u w pa bs tag).held? u a = some ⟨bs.getD (a - pa) 0, true⟩) ∧
  (∀ (s : State) (u v w pa a : Nat) (bs : List (BitVec 8)) (tag : Bool), pa + bs.length ≤ 2 ^ 52 → a < 2 ^ 52 →
    s.keepsLines u w pa bs.length = true → v ≠ u ∨ a < pa ∨ pa + bs.length ≤ a →
    (s.cacheWrite u w pa bs tag).held? v a = s.held? v a ∧ (s.cacheWrite u w pa bs tag).mem = s.mem)

/-! ## What each instruction does where its checks pass -/

/-- Each integer form, register, immediate or 16-bit, completes for every group whose threads pass its checks, and writes what R61 to
R66 give; its frame is that of `Form.Done`: every other register, tag, validity bit, thread, byte and device register is as before. -/
def Obligations.IntegerForms : Prop := ∀ i f, integerForm i = some f → f.Completes i

/-- Each instruction that moves a register, a tag or a special register completes and writes what R61 to R63, R82 to R86, R161 and R336
give; the frame is that of `Form.Done`. -/
def Obligations.MoveForms : Prop := ∀ i f, moveForm i = some f → f.Completes i

/-- Each floating-point, rounding, conversion, classification and L6 form completes, writes its result and raises its flags as R99 and R113
to R123 give; the frame is that of `Form.Done`. -/
def Obligations.FloatForms : Prop := ∀ i f, floatForm i = some f ∨ convertForm i = some f → f.Completes i

/-- Each compare and predicate form completes and writes the predicate or register that R74 to R76, R124 and R188 give; the frame is that of
`Form.Done`. -/
def Obligations.PredicateForms : Prop := ∀ i f, predicateForm i = some f → f.Completes i

/-- Each control transfer, `nop`, `tret`, and `halt` where a service event has arrived, completes and goes where R77 to R81, R375 and R400
say; the frame is that of `Form.Done`. That `tret` also ends the user mode of a restore handler is the model's choice (log entry 37). -/
def Obligations.FlowForms : Prop := ∀ i f, flowForm i = some f → f.Completes i

/-- Each instruction that derives a capability completes and writes the bits and validity that R185 to R187 give; the frame is that of
`Form.Done`. -/
def Obligations.CapabilityForms : Prop := ∀ i f, capabilityForm i = some f → f.Completes i

/-- Each load, store and atomic completes at issue: it checks its capability, makes its registers pending or takes its data, and its
counter rises (R38, R68 to R71, R87, R126, R189, R213, R258, R271 to R273); the frame is that of `Form.Done`.
An access outside the lease, of these and of every other form that reaches memory at issue, ends its task with LEASE (R213).
That an access takes its translation at issue is the model's reading (log entry 24). -/
def Obligations.AccessForms : Prop :=
  (∀ i f, accessForm i = some f ∨ atomicForm i = some f → f.Completes i) ∧
  (∀ (i : Instr) (f : Form) (s : State) (t : Nat) (k : Task), formOf i = some f → wellFormed i = true → s.whole = true →
    s.actors f.ct = [t] → firstFailure (f.checks s t) = none → f.lease s t = false →
    (s.thread t).ld < 63 → (s.thread t).st < 63 → (s.thread t).cp < 63 → (∀ n ≤ 32, s.rowsShort (crewOf t) n = false) →
    s.tasks.find? (s.taskOf t) = some k → k.code = none → k.stage ≠ .completed →
    ∃ s', exec i s = .next s' ∧ EndedWith s s' (s.taskOf t) k .lease none)

/-- Fences, prefetches, flushes, queries, materialisations and copies complete at issue: the operation is in flight and its counter rises
(R87, R256, R275 to R287); the frame is that of `Form.Done`.
That a place is translated at issue is the model's reading (log entry 24). -/
def Obligations.OrderForms : Prop := ∀ i f, orderForm i = some f → f.Completes i

/-- Matrix requests and accumulator-ring instructions complete at issue: the request enters the stream, or the ring access is in flight
(R133, R152, R153, R159 to R163); the frame is that of `Form.Done`.
That `rrel` and `rclr` take effect at issue where nothing is to be waited for is the model's reading (log entry 15). -/
def Obligations.MatrixForms : Prop := ∀ i f, matrixForm i = some f → f.Completes i

/-- Barrier-object, circular-buffer and port instructions that need not wait complete and do what R320, R327, R332, R333 and R343 to R346
give; the frame is that of `Form.Done`.
The byte offsets of a header's fields are the model's reading (log entry 14). -/
def Obligations.SyncForms : Prop := ∀ i f, syncForm i = some f → f.Completes i

/-- Submission completes at issue, and so do context records, sweeps, service batches and reads of the fault log in kernel mode; they do
what R348 and R398 to R403 give, and the frame is that of `Form.Done`. `halt` and the kernel's `wrsr` are in FlowForms and MoveForms.
Which core is the service core is the model's reading (log entry 11), how a record is bound its choice (log entry 12), LOST of the fault
log is log entry 18, a record across two blocks log entry 38, and its place at issue log entry 24. -/
def Obligations.KernelForms : Prop := ∀ i f, kernelForm i = some f → f.Completes i

/-- `pset` writes PD with the bit of TT that PA and PB select, and nothing else but the place of the thread; `pset p4, p1, p2, #0b1000`
encodes as 0xCA41_2801 (R75). -/
def Obligations.PsetTable : Prop :=
  encode (.pset 4 1 2 8 ⟨0, false, false, false⟩) = [0x2801, 0xCA41] ∧
  ∀ (p a b tt : BitVec 4) (ct : Ctl) (s : State), wellFormed (.pset p a b tt ct) = true → s.whole = true →
    ∃ s', exec (.pset p a b tt ct) s = .next s' ∧ KeepsDevice s s' ∧ KeepsRegisters s s' ∧
      ∀ t ∈ s.actors ct, (∀ q, s'.pred t q =
        if q = p then tt.getLsbD (2 * (if s.pred t a then 1 else 0) + (if s.pred t b then 1 else 0)) else s.pred t q) ∧
        s'.thread t = ({ s.thread t with preds := (s'.thread t).preds }).goOn ct.e s.clock ((s.thread t).pc + 4)

/-- `nop` has no effect, and `nop $` ends a run and does nothing else; its word is 0xD000_0001 (R81). -/
def Obligations.NopDoesNothing : Prop :=
  encode (.nop ⟨0, false, false, false⟩) = [0x0001, 0xD000] ∧
  ∀ (ct : Ctl) (s : State), wellFormed (.nop ct) = true → s.whole = true →
    ∃ s', exec (.nop ct) s = .next s' ∧ KeepsDevice s s' ∧ KeepsRegisters s s' ∧
      (∀ u, s'.thread u = if u ∈ slotThreads s then (s.thread u).goOn ct.e s.clock ((s.thread u).pc + 4) else s.thread u) ∧
      ∀ q, s'.slots.find? q =
        if q = s.cur then (if ct.e then none else (s.slots.find? q).map fun g => { g with held := false }) else s.slots.find? q

/-! ## Where threads stop, stand and wait -/

/-- `exit` ends each thread of the group that is not guarded off: it is gone, its registers are dead, its port queues are empty, its
crew has retired if none of it is left, and what it issued stays in flight; memory, every other live register and the threads that
are guarded off are as R80, R32, R305 and R31 say, and no other thread exits. A thread that has bound a service batch is left to R402. -/
def Obligations.ExitEnds : Prop :=
  ∀ (ct : Ctl) (s : State), wellFormed (.exit ct) = true → s.whole = true →
    (∀ kb ∈ s.batches, ∀ x, kb.2.bound = some x → x.1 ∉ s.actors ct) →
    ∃ s', exec (.exit ct) s = .next s' ∧ KeepsMemory s s' ∧ s'.ops = s.ops ∧ s'.reqs = s.reqs ∧ s'.gangs = s.gangs ∧
      s'.tasks = s.tasks ∧ FreesSlot s s' ∧
      (∀ t ∈ s.actors ct, (s'.thread t).stat = .exited ∧ (∀ v, v < 32 → s'.reg t v = 0 ∧ s'.tagOf t v = (0, 0)) ∧
        (∀ d : BitVec 2, s'.ports.get [] (portKey t d) = []) ∧
        ((∀ u, crewOf u = crewOf t → u ∈ s.actors ct ∨ (u ∉ slotThreads s ∧ (s.thread u).stat = .exited)) →
          ∀ c, s.crews.find? (crewOf t) = some c → (s'.crews.find? (crewOf t)).map (·.retired) = some true)) ∧
      (∀ u v, v < 32 → u ∉ s.actors ct → (s.thread u).stat ≠ .exited → s'.reg u v = s.reg u v) ∧
      (∀ u, u ∉ s.actors ct → ((s'.thread u).stat = .exited ↔ (s.thread u).stat = .exited)) ∧
      ∀ u ∈ slotThreads s, u ∉ s.actors ct → s'.thread u = (s.thread u).goOn true s.clock ((s.thread u).pc + 4)

/-- `yield` has no effect but on the next grant: the run ends, and the quarter remembers the threads that yielded (R91).
What the quarter remembers is the model's reading (log entry 10). -/
def Obligations.YieldPassesOver : Prop :=
  ∀ (ct : Ctl) (s : State) (g : Group), wellFormed (.yield ct) = true → s.whole = true → s.slots.find? s.cur = some g →
    ∃ s', exec (.yield ct) s = .next s' ∧ KeepsDevice s { s' with yielded := s.yielded } ∧ KeepsRegisters s s' ∧
      Stands s s' ct (fun u => (s.thread u).goOn true s.clock ((s.thread u).pc + 4)) ∧
      ∀ q, s'.yielded.find? q =
        if q = s.cur ∧ s.actors ct ≠ [] then some { g with lanes := laneMask ((s.actors ct).map laneOf) } else s.yielded.find? q

/-- `wait` lets a thread go on once each count is at or below its bound, and the thread stands in it until then; it changes nothing else.
When a count falls to the bounds, here the one that a performed store lowers, the thread goes on at the next instruction (R90). -/
def Obligations.WaitStands : Prop :=
  (∀ (l st c tl : BitVec 4) (ct : Ctl) (s : State), wellFormed (.wait l st c tl ct) = true → s.whole = true →
    ∃ s', exec (.wait l st c tl ct) s = .next s' ∧ KeepsDevice s s' ∧ KeepsRegisters s s' ∧
      Stands s s' ct fun u =>
        if (s.thread u).metBounds l st c tl then (s.thread u).goOn true s.clock ((s.thread u).pc + 4)
        else (s.thread u).standing s.clock (s.thread u).pc (.wait l st c tl)) ∧
  (∀ (s : State) (t : Nat) (l st c tl : BitVec 4), (s.threads.find? t).isSome = true → (s.thread t).stat = .wait l st c tl →
    (s.decSt t).thread t =
      let h := { s.thread t with st := (s.thread t).st - 1 }
      if h.metBounds l st c tl then h.goOn true s.clock (h.pc + 4) else h)

/-- `bar` arrives at the team's or the gang's barrier. Where every thread of it that has not exited has arrived and none has a fence
incomplete, all of them go on after their own `bar`; otherwise the group stands in it. Registers and memory are as before (R257, R318,
R342). -/
def Obligations.BarGathers : Prop :=
  ∀ (b : BitVec 2) (ct : Ctl) (s : State) (t : Nat), wellFormed (.bar b ct) = true → s.whole = true → s.listsForm = true →
    t ∈ s.actors ct →
    let mates (u : Nat) : Prop :=
      (if b = 1 then gangOf u = gangOf t else teamOf u = teamOf t) ∧ (u ∈ slotThreads s ∨ (s.thread u).stat ≠ .exited)
    let here (u : Nat) : Prop := u ∈ s.actors ct ∨ (u ∉ slotThreads s ∧ (s.thread u).stat = .bar (b == 1))
    let whole : Prop := ∀ u, mates u → here u ∧ s.fencing u = false
    ∃ s', exec (.bar b ct) s = .next s' ∧ KeepsDevice s s' ∧ KeepsRegisters s s' ∧ FreesSlot s s' ∧
      (whole → ∀ u, mates u → s'.thread u = (s.thread u).goOn true s.clock ((s.thread u).pc + 4)) ∧
      (¬ whole → ∀ u ∈ slotThreads s, s'.thread u =
        if u ∈ s.actors ct then (s.thread u).standing s.clock (s.thread u).pc (.bar (b == 1))
        else (s.thread u).goOn true s.clock ((s.thread u).pc + 4))

/-- `svc` by threads that run on no service core: the lanes form one batch that holds each one's TID and `v8` to `v15`, and each stands
after its `svc` until the reply, which its `v8` and `v9` wait for. Every other register, and memory, is as before (R38, R303, R353). -/
def Obligations.SvcBatches : Prop :=
  ∀ (n : BitVec 8) (ct : Ctl) (s : State) (t : Nat), wellFormed (.svc n ct) = true → s.whole = true → t ∈ s.actors ct →
    (∀ u ∈ s.actors ct, s.coreOf u % 96 ≠ 0 ∧ s.readable u ((span 8 8).map fun v => (v, Acc.any)) = true ∧
      (s.rowCheck u [8, 9]).isNone = true) →
    ∃ s', exec (.svc n ct) s = .next s' ∧ KeepsDevice s { s' with batches := s.batches, nextId := s.nextId } ∧ s'.valid = s.valid ∧
      (∀ u v, v < 32 → u ∉ s.actors ct ∨ (v ≠ 8 ∧ v ≠ 9) → s'.reg u v = s.reg u v ∧ s'.tagOf u v = s.tagOf u v) ∧
      (∀ u ∈ s.actors ct, ∀ v, v = 8 ∨ v = 9 →
        s'.pending u v = s.pending u v ++ [⟨s.nextId, (s.tagOf u v).1, (s.tagOf u v).2⟩]) ∧
      Stands s s' ct (fun u => (s.thread u).standing s.clock ((s.thread u).pc + 4) (.svc s.nextId)) ∧
      s'.nextId = s.nextId + 1 ∧ ∀ k, s'.batches.find? k =
        if k = s.nextId then some
          { num := n, world := s.worldOf t, die := s.coreOf t / 96, task := ((s.tasks.find? (s.taskOf t)).map (·.handle)).getD 0,
            crew := crewOf t, callers := (s.actors ct).map fun u => (laneOf u, tidOf u, (span 8 8).map (s.reg u)), sent := none,
            bound := none, aborted := false }
        else s.batches.find? k

/-- `bwait` on an object whose phase is still the one named, `fetchw` with a mailbox in the thread's scratchpads, and `halt` in kernel mode
with no event since the thread's last: the thread stands in it, or after its `fetchw`, and nothing else changes (R321, R344, R351,
R400). -/
def Obligations.WaitersStand : Prop :=
  (∀ (c : BitVec 3) (v : BitVec 5) (p tmo : BitVec 4) (ct : Ctl) (s : State), wellFormed (.bwait c v p tmo ct) = true → s.whole = true →
    (∀ t ∈ s.actors ct, s.objFit t c.toNat 16 [v.toNat] false = true ∧ s.granulesPoisoned (gangOf t) (objAddr s t c.toNat) 16 = false ∧
      s.objPhase (gangOf t) (objAddr s t c.toNat) = (s.reg t v.toNat).extractLsb' 0 4) →
    ∃ s', exec (.bwait c v p tmo ct) s = .next s' ∧ KeepsDevice s s' ∧ KeepsRegisters s s' ∧
      Stands s s' ct fun u => (s.thread u).standing s.clock (s.thread u).pc
        (.bwait (objAddr s u c.toNat) ((s.reg u v.toNat).extractLsb' 0 4) p
          (if tmo = 15 then none else some (s.clock + 2 ^ (tmo.toNat + 5))))) ∧
  (∀ (c : BitVec 3) (v : BitVec 5) (ct : Ctl) (s : State), wellFormed (.fetchw c v ct) = true → s.whole = true →
    (∀ t ∈ s.actors ct, s.clean t c.toNat = true ∧ s.readable t [(v.toNat, Acc.int), (v.toNat + 1, Acc.int)] = true ∧
      s.capFit t c.toNat (· == 1) (fun c => c.r && c.w) (s.effAddr t c.toNat 0) 32 16 = true ∧
      s.ownPending t (objAddr s t c.toNat) 32 false = false) →
    ∃ s', exec (.fetchw c v ct) s = .next s' ∧ KeepsDevice s s' ∧ KeepsRegisters s s' ∧
      Stands s s' ct fun u => (s.thread u).standing s.clock ((s.thread u).pc + 4)
        (.fetchw (objAddr s u c.toNat) (s.reg u (v.toNat + 1) ++ s.reg u v.toNat))) ∧
  (∀ (ct : Ctl) (s : State), wellFormed (.halt ct) = true → s.whole = true →
    (∀ t ∈ s.actors ct, s.kernel t = true ∧ s.regs.evtSeq.get 0 (s.coreOf t / 96) ≤ (s.thread t).seen) →
    ∃ s', exec (.halt ct) s = .next s' ∧ KeepsDevice s s' ∧ KeepsRegisters s s' ∧
      Stands s s' ct fun u => (s.thread u).standing s.clock (s.thread u).pc .halted)

/-- `park` in a save handler: the thread stops, keeps its TPC, and waits for no data any more; its registers are its own until the gang's
resources are freed, what it issued stays in flight, and memory and every other thread are as before (R32, R382, R397). -/
def Obligations.ParkStops : Prop :=
  ∀ (ct : Ctl) (s : State), wellFormed (.park ct) = true → s.whole = true → (∀ t ∈ s.actors ct, (s.thread t).inSave = true) →
    ∃ s', exec (.park ct) s = .next s' ∧ KeepsDevice s s' ∧ s'.valid = s.valid ∧
      Stands s s' ct (fun u => { s.thread u with stat := .saved }) ∧
      (∀ u v, v < 32 → u ∉ s.actors ct ∨ s.pending u v = [] → s'.reg u v = s.reg u v ∧ s'.tagOf u v = s.tagOf u v) ∧
      ∀ u ∈ s.actors ct, ∀ v, v < 32 → s'.pending u v = []

/-! ## Traps -/

/-- `trap` raises SOFTWARE with its code as TVAL: the thread traps at the `trap` (R373, R394). -/
def Obligations.TrapTaken : Prop :=
  ∀ (c : BitVec 16) (ct : Ctl) (s : State), wellFormed (.trap c ct) = true → s.whole = true →
    (∀ t ∈ s.actors ct, s.canTrap t = true) →
    ∃ s', exec (.trap c ct) s = .next s' ∧ Trapped s s' (s.actors ct) ct 0x0F (c.setWidth 32)

/-- A kernel instruction in user mode raises PRIVILEGE with its word as TVAL, and has none of its effect; `svc` on a service core raises
PRIVILEGE, and `tret` outside a handler and `park` outside a save handler raise ILLEGAL_OP (R84, R353, R373, R395 to R397). -/
def Obligations.ModeTraps : Prop :=
  (∀ (i : Instr) (ct : Ctl) (s : State), wellFormed i = true → kernelOnly i = some ct → s.whole = true →
    (∀ t ∈ s.actors ct, s.canTrap t = true ∧ s.kernel t = false) →
    ∃ s', exec i s = .next s' ∧ Trapped s s' (s.actors ct) ct 0x0A (insnWord i)) ∧
  (∀ (n : BitVec 8) (ct : Ctl) (s : State), wellFormed (.svc n ct) = true → s.whole = true →
    (∀ t ∈ s.actors ct, s.canTrap t = true ∧ s.coreOf t % 96 = 0) →
    ∃ s', exec (.svc n ct) s = .next s' ∧ Trapped s s' (s.actors ct) ct 0x0A (insnWord (.svc n ct))) ∧
  (∀ (ct : Ctl) (s : State), wellFormed (.tret ct) = true → s.whole = true → (∀ t ∈ s.actors ct, s.canTrap t = true) →
    ∃ s', exec (.tret ct) s = .next s' ∧ Trapped s s' (s.actors ct) ct 0x01 (insnWord (.tret ct))) ∧
  (∀ (ct : Ctl) (s : State), wellFormed (.park ct) = true → s.whole = true →
    (∀ t ∈ s.actors ct, s.canTrap t = true ∧ (s.thread t).inSave = false) →
    ∃ s', exec (.park ct) s = .next s' ∧ Trapped s s' (s.actors ct) ct 0x01 (insnWord (.park ct)))

/-- A check that fails traps: the first one that does, of the sources in field order (POISON, FORMAT), the capability (CAP_TAG, CAP_KIND,
CAP_PERM, CAP_BOUNDS, MISALIGN), the scope, the port and the rows; each thread traps with its cause and TVAL, and the instruction has none of
its effect (R36, R55, R58, R60, R68, R175, R200, R303, R333, R340, R370, R373). An arrival, an expectation or a slot that is refused raises
BARRIER_OVERRUN, and OVR is set in the object, while a buffer's header is as before (R320, R327, R343, R345). -/
def Obligations.SourceTraps : Prop :=
  (∀ (i : Instr) (f : Form) (s : State) (why : Nat → BitVec 32 × BitVec 32), formOf i = some f → wellFormed i = true → s.whole = true →
    (∀ t ∈ s.actors f.ct, s.canTrap t = true ∧ firstFailure (f.checks s t) = some (why t)) →
    ∃ s', exec i s = .next s' ∧ TrappedAs s s' (s.actors f.ct) f.ct why) ∧
  (∀ (i : Instr) (c : BitVec 3) (v : BitVec 5) (ct : Ctl) (s : State) (t : Nat), wellFormed i = true → s.whole = true → s.actors ct = [t] →
    s.canTrap t = true → s.objFit t c.toNat 16 [v.toNat] true = true →
    let la := objAddr s t c.toNat
    let o := s.objAt (gangOf t) la
    s.granulesPoisoned (gangOf t) la 16 = false → (∀ u, gangOf u = gangOf t → ∀ a ph p b, (s.thread u).stat ≠ .bwait a ph p b) →
    (∃ p, i = .barv c v p ct ∧ o.pend < (s.reg t v.toNat).toNat) ∨ (i = .bexp c v ct ∧ 2 ^ 47 - 1 < o.bytes + (s.reg t v.toNat).toNat) →
    ∃ s', exec i s = .next s' ∧ s'.objAt (gangOf t) la = { o with ovr := true } ∧
      (∀ g a, a < 2 ^ 24 → g ≠ gangOf t ∨ a < la ∨ la + 16 ≤ a → s'.spadByte g a = s.spadByte g a) ∧
      Trapped { s with spad := s'.spad, spadTag := s'.spadTag, spadPoison := s'.spadPoison } s' [t] ct 0x0C (s.reg t v.toNat)) ∧
  (∀ (i : Instr) (c : BitVec 3) (d : BitVec 5) (ct : Ctl) (s : State), wellFormed i = true → s.whole = true →
    let slot (t : Nat) : Nat := (s.reg t d.toNat).toNat % 2 ^ 24
    let hdr (t : Nat) : Hdr := s.hdrAt (gangOf t) (objAddr s t c.toNat)
    (∀ t ∈ s.actors ct, s.canTrap t = true ∧ s.bufFit t c.toNat [d.toNat] = true) →
    (i = .bput c d ct ∧ ∀ t ∈ s.actors ct, (hdr t).put (slot t) = none) ∨ (i = .brel c d ct ∧ ∀ t ∈ s.actors ct, (hdr t).rel (slot t) = none) →
    ∃ s', exec i s = .next s' ∧ TrappedAs s s' (s.actors ct) ct fun t => (0x0C, BitVec.ofNat 32 (slot t)))

/-- A word that decodes as ILLEGAL_OP or ILLEGAL_RUN strikes every thread of the group, guarded off or not, with the word as TVAL, and
the group gives up its slot (R31, R42, R56, R373). So does a fetch that fails: an instruction with a byte outside the PCC raises CAP_BOUNDS
with the first such address (R24), the 25th of a run RUN_LENGTH with the offset of the run's first (R34, R370); code outside the lease ends
the task with LEASE (R213). StepRunsDecoded says which words lead to the first two.
That the lease of the code is looked at after the PCC and before the length of the run is the model's reading (log entry 44). -/
def Obligations.IllegalWords : Prop :=
  (∀ (w : BitVec 32) (s : State), slotThreads s ≠ [] → (∀ t ∈ slotThreads s, s.canTrap t = true) →
    (∃ s', exec (.unassignedFunctionCode w) s = .next s' ∧ Trapped s s' (slotThreads s) (State.ctl16 true) 0x01 w) ∧
    (∃ s', exec (.illegalRun w) s = .next s' ∧ Trapped s s' (slotThreads s) (State.ctl16 true) 0x02 w)) ∧
  (∀ (s : State) (q c : Nat) (g : Group),
    let s1 := s.atTurn q c
    let t := g.crew * 32 + (State.lanesOf g).headD 0
    let pc := (s1.thread t).pc
    let strikes (cause tval : BitVec 32) : Prop := slotThreads s1 ≠ [] → (∀ u ∈ slotThreads s1, s1.canTrap u = true) →
      ∃ s', step s = .next s' ∧ Trapped s1 s' (slotThreads s1) (State.ctl16 true) cause tval
    let leaseEnds : Prop := ∀ k, s1.tasks.find? (s1.taskOf (g.crew * 32)) = some k → k.code = none → k.stage ≠ .completed →
      ∃ s', step s = .next s' ∧ EndedWith s1 s' (s1.taskOf (g.crew * 32)) k .lease none
    s.boot.halt = 0 → s.nextMove = ⟨.run q, c⟩ → s.slots.find? q = some g →
    (∀ va, s1.outsidePcc t pc = some va → strikes 0x06 (BitVec.ofNat 32 va)) ∧
    (s1.outsidePcc t pc = none → s1.codeAt t pc = none ∨ s1.codeAt t (pc + 1) = none → leaseEnds) ∧
    (s1.outsidePcc t pc = none → (s1.codeAt t pc).isSome = true → (s1.codeAt t (pc + 1)).isSome = true → 24 ≤ g.count → g.held = false →
      strikes 0x03 (s1.pcOffset t g.start)) ∧
    (∀ b, s1.outsidePcc t pc = none → s1.codeAt t pc = some b → b.getLsbD 0 = true → (s1.codeAt t (pc + 1)).isSome = true →
      g.count < 24 ∨ g.held = true → s1.codeAt t (pc + 2) = none ∨ s1.codeAt t (pc + 3) = none → leaseEnds))

/-- A deliverable fault of a thread in a handler, or in its save handler, or of one whose task declares no handler, ends the task with
HANDLER_FAULT and the fault's cause, TPC and TVAL; the gangs of the task are stopped, but for one that another gang has adopted, which
retires with its adopter (R312, R374, R379, R382): here the fault of a lone `trap`, and that of a check of any form. `tret` in a save handler
raises ILLEGAL_OP, which does the same (R382, R396). -/
def Obligations.HandlerFaultEnds : Prop :=
  (∀ (c : BitVec 16) (ct : Ctl) (s : State) (t : Nat) (k : Task), wellFormed (.trap c ct) = true → slotThreads s = [t] →
    s.guardedOff t ct = false → s.goesOn t = true → s.tasks.find? (s.taskOf t) = some k →
    (s.thread t).handling = true ∨ (s.thread t).inSave = true ∨ k.record.handler = 0xFFFFFFFF → k.code = none → k.stage ≠ .completed →
    ∃ s', exec (.trap c ct) s = .next s' ∧
      EndedWith s s' (s.taskOf t) k .handlerFault (some (0x0F, s.pcOffset t (s.thread t).pc, c.setWidth 32))) ∧
  (∀ (i : Instr) (f : Form) (s : State) (t : Nat) (k : Task) (why : BitVec 32 × BitVec 32), formOf i = some f → wellFormed i = true →
    slotThreads s = [t] → s.guardedOff t f.ct = false → s.goesOn t = true → firstFailure (f.checks s t) = some why →
    s.tasks.find? (s.taskOf t) = some k →
    (s.thread t).handling = true ∨ (s.thread t).inSave = true ∨ k.record.handler = 0xFFFFFFFF → k.code = none → k.stage ≠ .completed →
    ∃ s', exec i s = .next s' ∧
      EndedWith s s' (s.taskOf t) k .handlerFault (some (why.1, s.pcOffset t (s.thread t).pc, why.2))) ∧
  (∀ (ct : Ctl) (s : State) (t : Nat) (k : Task), wellFormed (.tret ct) = true → slotThreads s = [t] → s.guardedOff t ct = false →
    (s.thread t).inSave = true → s.tasks.find? (s.taskOf t) = some k → k.code = none → k.stage ≠ .completed →
    ∃ s', exec (.tret ct) s = .next s' ∧
      EndedWith s s' (s.taskOf t) k .handlerFault (some (0x01, s.pcOffset t (s.thread t).pc, insnWord (.tret ct))))

/-! ## Issue, and the operations in flight -/

/-- A free slot goes to the first group in the order of R302, a group that yielded coming last (R91, R301, R302); the grant and the
reload of its rows change no register. A ready thread takes its step of priority, and a spill takes the rows above the floor of the
youngest other crew that holds some and changes no register, where an instruction is held for rows that are not free (R302, R304).
Ties in the order are the model's choice, and the statement leaves them open (log entry 10); which rows stand above a floor is its choice too
(log entry 65). -/
def Obligations.GrantsInOrder : Prop :=
  (∀ (s : State) (q : Nat), s.slots.find? q = none → (s.ageReady q).candidates q ≠ [] →
    let s1 := s.ageReady q
    let cs := s1.candidates q
    let fresh := cs.filter fun c => !s1.didYield q c
    ∃ c ∈ cs, (fresh ≠ [] → c ∈ fresh ∧ ∀ d ∈ fresh, State.lexLt (s1.rank d) (s1.rank c) = false) ∧
      (fresh = [] → ∀ d ∈ cs, State.lexLt (s1.rank d) (s1.rank c) = false) ∧
      ∃ s', exec (.issueGrant q) s = .next s' ∧ SameRegisters s s' ∧ KeepsMemory s s' ∧
        (s'.slots.find? q).map (fun g => (g.crew, g.lanes, g.held)) =
          some (c.crew, laneMask (c.threads.map fun th => laneOf th.1), false) ∧
        (∀ p, p ≠ q → s'.slots.find? p = s.slots.find? p) ∧ s'.yielded.find? q = none) ∧
  (∀ (s : State) (t : Nat), (s.threads.find? t).isSome = true → State.isReady (s.thread t) = true →
    (s.thread t).age < s.agedBy (s.thread t) →
    ∃ s', exec (.issueAgeing t) s = .next s' ∧ s' = { s with threads := s'.threads } ∧ KeepsOthers s s' t ∧
      s'.thread t = { s.thread t with age := (s.thread t).age + 1 }) ∧
  (∀ (s : State) (q : Nat) (g : Group), s.slots.find? q = some g → g.held = true → s.rowsShort g.crew g.short = true →
    ∃ s', exec (.registerSpill q g.crew) s = .next s' ∧ s' = { s with rows := s'.rows } ∧ SameRegisters s s' ∧
      ∀ c, s.spillVictim q g.crew = some c →
        (c ∈ s.crewsOn q ∧ c ≠ g.crew ∧ s.floorOf c < s.poolRows c ∧ ∀ d ∈ s.crewsOn q, d ≠ g.crew → s.floorOf d < s.poolRows d →
          ((s.crews.find? d).map (·.placed)).getD 0 ≤ ((s.crews.find? c).map (·.placed)).getD 0) ∧
        ∀ v ∈ (s.poolRegs c).drop (s.floorOf c), (s'.rows.find? (c * 32 + v)).any (·.spilled) = true) ∧
  (∀ (s : State) (q crew : Nat), (∀ g, s.slots.find? q = some g → g.held = false ∨ s.rowsShort crew g.short = false) →
    exec (.registerSpill q crew) s = .next s)

/-- A load, ring load, context load or batch record that may be performed returns: the operation is over, and LOADS falls for its thread
(R69, R87, R97). A plain load's registers take the bytes that the thread reads, extended as R69 gives; a ring load's register takes the slot
(R159); no register changes but those that wait for what returns (R39).
That the lanes of one load that read one place return together, and others apart, is the model's reading (log entry 22). -/
def Obligations.LoadsReturn : Prop :=
  (∀ (s : State) (id : Nat) (o : Op), s.ops.find? id = some o → o.kind.returns = true →
    let lanes := s.returning id o
    (∀ y ∈ lanes, s.mayPerform y.1 y.2 = true) →
    ∃ s', exec (.loadDataReturn id) s = .next s' ∧ OpsOver s s' lanes ∧ s'.ops.find? id = none ∧ LoadsFall s s' (lanes.map (·.2.thread)) ∧
      LanesWriteOnly s s' lanes ∧ s'.gangs = s.gangs ∧ s'.tasks = s.tasks) ∧
  (∀ (s : State) (id n size : Nat) (sext : Bool) (p : Place) (o : Op) (regs : List Nat), s.ops.find? id = some o →
    o.kind = .load (.plain size sext) p n regs →
    let lanes := s.loadGroup o
    (∀ y ∈ lanes, s.mayPerform y.1 y.2 = true) → (s.memRead o.thread p n).2.2.1 = false →
    ∃ s', exec (.loadDataReturn id) s = .next s' ∧
      ∀ y ∈ lanes, ∀ sz sx rs, y.2.kind = .load (.plain sz sx) p n rs → s.ops.find? y.1 = some y.2 → Awaits s y.2.thread y.1 rs →
        ∀ i (h : i < rs.length),
          s'.reg y.2.thread rs[i] = State.extend (min sz 4) sx (((s.memRead o.thread p n).2.1.drop (4 * i)).take 4)) ∧
  (∀ (s : State) (id t quad tile slot v n : Nat) (o : Op), s.ops.find? id = some o → o.thread = t →
    o.kind = .ringLoad quad tile slot v n false → s.mayPerform id o = true → Awaits s t id [v] →
    (s.tiles.get Tile.clear (tileKey (gangOf t) quad tile)).poison = false →
    ∃ s', exec (.loadDataReturn id) s = .next s' ∧ WritesOnly s s' t id ∧
      s'.reg t v = s.ring.get 0 (slotKey (gangOf t) quad tile slot))

/-- A store, ring store, context record or zeroed batch record that may be performed is over, STORES falls and no register changes (R70,
R87).
A store to a scratchpad writes its bytes there and nowhere else; a store to global memory, which lies in one line (R68), writes them, dirty,
in the thread's L1, and where no line has to leave that, nothing else (R11, R70, R222, R254); a ring store writes its slot (R159).
That a ring store to a tile that has been released since writes nothing is the model's reading (log entry 46). -/
def Obligations.StoresPerform : Prop :=
  (∀ (s : State) (id : Nat) (o : Op), s.ops.find? id = some o → o.kind.stores = true → s.mayPerform id o = true →
    (s.threads.find? o.thread).isSome = true →
    ∃ s', exec (.storePerformed id) s = .next s' ∧ OpOver s s' id ∧ (s'.thread o.thread).st = (s.thread o.thread).st - 1 ∧
      SameRegisters s s' ∧ s'.valid = s.valid ∧ s'.gangs = s.gangs ∧ s'.tasks = s.tasks) ∧
  (∀ (s : State) (id gang la : Nat) (data : List (BitVec 8)) (tag : Bool) (o : Op), s.ops.find? id = some o →
    o.kind = .store (.scratch gang la) data tag → s.mayPerform id o = true → la + data.length ≤ 2 ^ 24 →
    ∃ s', exec (.storePerformed id) s = .next s' ∧ s'.mem = s.mem ∧ s'.poolMem = s.poolMem ∧ s'.cbytes = s.cbytes ∧
      ∀ g a, a < 2 ^ 24 → s'.spadByte g a =
        if g = gang ∧ la ≤ a ∧ a < la + data.length then data.getD (a - la) 0 else s.spadByte g a) ∧
  (∀ (s : State) (id pa : Nat) (data : List (BitVec 8)) (tag : Bool) (o : Op), s.ops.find? id = some o →
    o.kind = .store (.global pa) data tag → s.mayPerform id o = true → pa + data.length ≤ 2 ^ 52 →
    pa % 128 + data.length ≤ 128 →
    let core := s.coreOf o.thread
    ∃ s', exec (.storePerformed id) s = .next s' ∧ s'.spad = s.spad ∧
      (∀ a, pa ≤ a → a < pa + data.length → s'.held? core a = some ⟨data.getD (a - pa) 0, true⟩) ∧
      (s.keepsLines core (s.worldOf o.thread) pa data.length = true →
        s'.mem = s.mem ∧ s'.poolMem = s.poolMem ∧
        ∀ u a, a < 2 ^ 52 → u ≠ core ∨ a < pa ∨ pa + data.length ≤ a → s'.held? u a = s.held? u a)) ∧
  (∀ (s : State) (id quad tile slot n : Nat) (data : BitVec 32) (o : Op), s.ops.find? id = some o →
    o.kind = .ringStore quad tile slot n data → s.mayPerform id o = true →
    ∃ s', exec (.storePerformed id) s = .next s' ∧ KeepsMemory s s' ∧ ∀ k, s'.ring.get 0 k =
      if s.ringTail (gangOf o.thread) quad ≤ n ∧ k = slotKey (gangOf o.thread) quad tile slot then data else s.ring.get 0 k)

/-- The lanes of an atomic instruction on one line, once each may be performed, are over together (R272, R273, R289), and LOADS falls for each
of their threads (R87). At a scratchpad a lane's registers take the old value, the bytes take the new one of R271, its flags are
raised in FCTL, and no other byte or register changes; lanes that add to one word leave the sum. The new values are those of R271. -/
def Obligations.AtomicsPerform : Prop :=
  (∀ (s : State) (id scope n : Nat) (fn : AtomFn) (p : Place) (regs : List Nat) (x e : BitVec 64) (rm : BitVec 2) (o : Op),
    s.ops.find? id = some o → o.kind = .atomic fn scope p n regs x e rm →
    let lanes := s.atomGroup o p
    (∀ y ∈ lanes, s.mayPerform y.1 y.2 = true) →
    ∃ s', exec (.atomicPerform id) s = .next s' ∧ OpsOver s s' lanes ∧ s'.ops.find? id = none ∧
      LoadsFall s s' (lanes.map (·.2.thread)) ∧ s'.gangs = s.gangs ∧ s'.tasks = s.tasks) ∧
  (∀ (s : State) (id t scope n gang la : Nat) (fn : AtomFn) (regs : List Nat) (x e : BitVec 64) (rm : BitVec 2) (o : Op),
    s.ops.find? id = some o → o.thread = t → (s.threads.find? t).isSome = true →
    o.kind = .atomic fn scope (.scratch gang la) n regs x e rm → s.atomGroup o (.scratch gang la) = [(id, o)] →
    s.mayPerform id o = true → regs ≠ [] → Awaits s t id regs → la + n ≤ 2 ^ 24 → (s.spadLoad gang la n).2.1 = false →
    let old := BitVec.ofNat 64 (s.spadNat gang la n)
    let r := atomResult fn (n == 8) old x e rm.toNat
    ∃ s', exec (.atomicPerform id) s = .next s' ∧ WritesOnly s s' t id ∧ s'.mem = s.mem ∧ s'.poolMem = s.poolMem ∧
      s'.cbytes = s.cbytes ∧
      (∀ i (h : i < regs.length), s'.reg t regs[i] = old.extractLsb' (32 * i) 32) ∧
      (s'.thread t).fctl = (if r.2.1 = 0 then (s.thread t).fctl else fctlRaise (s.thread t).fctl r.2.1) ∧
      ∀ g a, a < 2 ^ 24 → s'.spadByte g a =
        if g = gang ∧ la ≤ a ∧ a < la + n then (match r.1 with
          | some v => (leBytes n v.toNat).getD (a - la) 0
          | none => s.spadByte g a) else s.spadByte g a) ∧
  (∀ (s : State) (id gang la : Nat) (o : Op) (a : Op → BitVec 64), s.ops.find? id = some o →
    let lanes := s.atomGroup o (.scratch gang la)
    let addsHere (y : Op) : Prop := ∃ scope regs e rm, y.kind = .atomic .add scope (.scratch gang la) 4 regs (a y) e rm
    addsHere o → (∀ y ∈ lanes, addsHere y.2 ∧ s.mayPerform y.1 y.2 = true) → la + 4 ≤ 2 ^ 24 → (s.spadLoad gang la 4).2.1 = false →
    ∃ s', exec (.atomicPerform id) s = .next s' ∧
      s'.spadNat gang la 4 = (s.spadNat gang la 4 + (lanes.map fun y => (a y.2).toNat).sum) % 2 ^ 32) ∧
  (∀ (w : Bool) (old x e : BitVec 64) (rm : Nat),
    let a : BitVec 32 := old.extractLsb' 0 32
    let b : BitVec 32 := x.extractLsb' 0 32
    let wide (v : BitVec 32) : Option (BitVec 64) := some (v.zeroExtend 64)
    (atomResult .add w old x e rm).1 = wide (BitVec.ofNat 32 (a.toNat + b.toNat)) ∧
    (atomResult .smin w old x e rm).1 = wide (BitVec.ofInt 32 (min a.toInt b.toInt)) ∧
    (atomResult .smax w old x e rm).1 = wide (BitVec.ofInt 32 (max a.toInt b.toInt)) ∧
    (atomResult .umin w old x e rm).1 = wide (BitVec.ofNat 32 (min a.toNat b.toNat)) ∧
    (atomResult .umax w old x e rm).1 = wide (BitVec.ofNat 32 (max a.toNat b.toNat)) ∧
    (atomResult .and w old x e rm).1 = wide (a &&& b) ∧ (atomResult .or w old x e rm).1 = wide (a ||| b) ∧
    (atomResult .xor w old x e rm).1 = wide (a ^^^ b) ∧ (atomResult .xchg w old x e rm).1 = wide b ∧
    (atomResult .cas w old x e rm).1 = (if a = e.extractLsb' 0 32 then wide b else none) ∧
    (atomResult .addD w old x e rm).1 = some (BitVec.ofNat 64 (old.toNat + x.toNat)) ∧
    (atomResult .casD w old x e rm).1 = (if old = e then some x else none))

/-- A fence or flush that may be performed is over and changes no register. After a push at a scope, no cache below the point holds a dirty
byte that it pushed; after a discard, none holds a clean one; a flush does so for its line, and STORES falls (R256, R287).
That an ACQ waits for earlier stores too is the model's reading (log entry 50). -/
def Obligations.FencesComplete : Prop :=
  (∀ (s : State) (id kind scope : Nat) (o : Op), s.ops.find? id = some o → o.kind = .fence kind scope → s.mayPerform id o = true →
    s.listsForm = true →
    ∃ s', exec (.fenceComplete id) s = .next s' ∧ OpOver s s' id ∧ SameRegisters s s' ∧ s'.spad = s.spad ∧
      ∀ u ∈ below (s.coreOf o.thread) (if kind ≤ 2 then scope else 1), ∀ a b, a < 2 ^ 52 → s'.held? u a = some b →
        (kind = 0 → False) ∧ (kind = 1 ∨ 3 ≤ kind → b.dirty = false) ∧ (kind = 2 → b.dirty = true)) ∧
  (∀ (s : State) (id fn scope pa : Nat) (o : Op), s.ops.find? id = some o → o.kind = .flush fn scope (.global pa) →
    s.mayPerform id o = true → s.listsForm = true → (s.threads.find? o.thread).isSome = true →
    ∃ s', exec (.cflushComplete id) s = .next s' ∧ OpOver s s' id ∧ SameRegisters s s' ∧ s'.spad = s.spad ∧
      (s'.thread o.thread).st = (s.thread o.thread).st - 1 ∧
      ∀ u ∈ below (s.coreOf o.thread) scope, ∀ a b, a < 2 ^ 52 → a / 128 = pa / 128 → s'.held? u a = some b →
        (fn ≠ 1 → b.dirty = false) ∧ (fn ≠ 0 → b.dirty = true)) ∧
  (∀ (s : State) (id fn scope gang la : Nat) (o : Op), s.ops.find? id = some o → o.kind = .flush fn scope (.scratch gang la) →
    s.mayPerform id o = true → (s.threads.find? o.thread).isSome = true →
    ∃ s', exec (.cflushComplete id) s = .next s' ∧ OpOver s s' id ∧ SameRegisters s s' ∧ KeepsMemory s s' ∧
      (s'.thread o.thread).st = (s.thread o.thread).st - 1)

/-- A write-back moves the dirty bytes of a line one level down and leaves them clean; a discard drops the clean bytes of a line and keeps
the dirty ones. A fill is part of the performing of an access that lacks bytes: a load leaves every byte that it reads held in the L1, and
the dirty ones as they were. A walk fills the TLB with the translation under which the lease stands, of at most 512 of the core's; a query
returns its word (R212, R220, R223, R254, R284). A fill for an access that a fence holds back changes no register, thread or operation
(R253).
The tags of partly dirty granules are left out, the walk's moment is the model's choice (log entry 24), and the fill ahead of a fence its
reading (log entry 50). -/
def Obligations.LinesMove : Prop :=
  (∀ (s : State) (u x : Nat), s.listsForm = true →
    let toQuad : Prop := u < 768 ∧ s.quadTakes (quadUnit u) x (s.cmeta.get CMeta.none (mKey u x)).world = true
    toQuad ∨ s.lineHeld x = false →
    ∃ s', exec (.writeBack u x) s = .next s' ∧ SameRegisters s s' ∧ s'.spad = s.spad ∧
      ∀ a b, a < 2 ^ 52 → a / 128 = x → s.held? u a = some b →
        s'.held? u a = some { b with dirty := false } ∧
        (b.dirty = true → (toQuad → s'.held? (quadUnit u) a = some b) ∧ (¬ toQuad → s'.homeByte a = b.val))) ∧
  (∀ (s : State) (u x : Nat), s.listsForm = true → x < 2 ^ 45 →
    ∃ s', exec (.cleanDiscard u x) s = .next s' ∧ s' = { s with cbytes := s'.cbytes, cmeta := s'.cmeta } ∧
      ∀ v a, a < 2 ^ 52 → s'.held? v a =
        if v = u ∧ a / 128 = x then (s.held? u a).filter (·.dirty) else s.held? v a) ∧
  (∀ (s : State) (u x : Nat), ∃ s', exec (.lineFill u x) s = .next s' ∧ match s.fillOp u x with
    | none => SameRegisters s s' ∧ s'.ops = s.ops ∧ s'.threads = s.threads ∧ s'.spad = s.spad ∧ (s.fencedOp u x = none → s' = s)
    | some id => exec (.loadDataReturn id) s = .next s' ∨ exec (.atomicPerform id) s = .next s') ∧
  (∀ (s : State) (id pa n : Nat) (fn : LoadFn) (regs : List Nat) (o : Op), s.ops.find? id = some o →
    o.kind = .load fn (.global pa) n regs → s.mayPerform id o = true → s.listsForm = true → pa % 128 + n ≤ 128 → pa + n ≤ 2 ^ 52 →
    let core := s.coreOf o.thread
    (s.cmeta.find? (mKey core (pa / 128))).all (fun m => decide (m.world = s.lineTag (s.worldOf o.thread) (pa / 128 * 128))) = true →
    ∃ s', exec (.loadDataReturn id) s = .next s' ∧ (s.fillOp core (pa / 128) = some id → exec (.lineFill core (pa / 128)) s = .next s') ∧
      ∀ a, pa ≤ a → a < pa + n → (s'.held? core a).isSome = true ∧
        ∀ b, s.held? core a = some b → b.dirty = true → s'.held? core a = some b) ∧
  (∀ (s : State) (core task va g : Nat) (b : LeaseBlk) (k : Task), s.tasks.find? task = some k →
    k.gangs.find? (fun g => s.gangWorld g == k.world && s.leased g (va / 65536) false) = some g →
    (s.gangs.find? g).map (·.task) = some task → s.leaseBlock g (va / 65536) false = some b →
    s.mayUse k.world (b.frame * 65536 + va % 65536) = true → s.tlbHit core task b = false →
    ∃ s', exec (.tlbWalkComplete core task va) s = .next s' ∧ s' = { s with alias_ := s'.alias_, tlb := s'.tlb } ∧
      s'.tlb.head? = some ⟨core, task, b.block - b.block % b.leaf, b.frame - b.block % b.leaf, b.write, b.leaf⟩ ∧
      (∀ e ∈ s'.tlb.tail, e ∈ s.tlb) ∧ (∀ e ∈ s.tlb, e.core ≠ core → e ∈ s'.tlb) ∧
      (s'.tlb.filter fun e => e.core == core).length ≤ 512) ∧
  (∀ (s : State) (id pa v : Nat) (o : Op), s.ops.find? id = some o → o.kind = .query pa v → Awaits s o.thread id [v] →
    ∃ s', exec (.aqryResult id) s = .next s' ∧ OpOver s s' id ∧ LoadsFall s s' [o.thread] ∧
      WritesOnly s s' o.thread id ∧ s'.reg o.thread v = s.queryWord o.thread pa ∧ KeepsMemory s s')

/-! ## Copies and landings -/

/-- A copy taken up reads its elements, and then writes each byte where the transfer sends it (R247, R281); bytes that are counted are
delivered to the object, and with the last COPIES falls and the clean bytes of the destination's lines are gone from the core's caches
(R259, R282, R320); one for a buffer without a free slot waits, its record read (R277, R328), and a filled slot is put as BufPut does
(R328); a malformed record sets TXERR and moves nothing (R280); a recorded block of a copy has its entries in the tables (R235, R237, R238).
When a copy is decided on is the model's reading (log entry 35), what it records where the entries reserved for a block no longer suffice
its choice (log entry 16); here of transfers that are taken whole, and without an error. -/
def Obligations.CopiesProceed : Prop :=
  (∀ (s : State) (id team n : Nat) (o : Op) (j : Job) (m : Moving), s.ops.find? id = some o → o.kind = .copy j →
    j.stage = .moving m → 0 < n → n ≤ m.due.get 0 team → (s.threads.find? o.thread).isSome = true →
    let la := State.objectOf j m.x team
    let m' : Moving := { m with due := m.due.set 0 team (m.due.get 0 team - n) }
    s.allocated (gangOf o.thread) la 16 = true → s.granulesPoisoned (gangOf o.thread) la 16 = false →
    ∃ s', exec (.ferryDelivery id team n) s = .next s' ∧ SameRegisters s s' ∧ s'.mem = s.mem ∧
      s'.objAt (gangOf o.thread) la = BarObj.dec ((s.objAt (gangOf o.thread) la).deliver n).enc ∧
      (State.moveDone m' = false ∨ m.slot.isSome = true → s'.cbytes = s.cbytes) ∧
      (State.moveDone m' = true → m.slot = none → s.listsForm = true → ∀ u a, a < 2 ^ 52 → s'.held? u a =
        if (u = s.coreOf o.thread ∨ u = quadUnit (s.coreOf o.thread)) ∧ a / 128 ∈ s.destLines o.thread m.x
        then (s.held? u a).filter (·.dirty) else s.held? u a) ∧
      (State.moveDone m' = true → m.slot = none → OpOver s s' id ∧ (s'.thread o.thread).cp = (s.thread o.thread).cp - 1) ∧
      (State.moveDone m' = true → ∀ slot, m.slot = some slot →
        s'.ops.find? id = some { o with kind := .copy { j with stage := .filling slot } }) ∧
      (State.moveDone m' = false → s'.ops.find? id = some { o with kind := .copy { j with stage := .moving m' } })) ∧
  (∀ (s : State) (id slot : Nat) (o : Op) (j : Job) (h : Hdr), s.ops.find? id = some o → o.kind = .copy j →
    j.stage = .filling slot → (s.threads.find? o.thread).isSome = true → s.allocated (gangOf o.thread) j.object 32 = true →
    s.granulesPoisoned (gangOf o.thread) j.object 32 = false → (s.hdrAt (gangOf o.thread) j.object).firstBad = none →
    (s.hdrAt (gangOf o.thread) j.object).put slot = some h →
    ∃ s', exec (.ferryBufferPut id) s = .next s' ∧ SameRegisters s s' ∧ OpOver s s' id ∧ s'.mem = s.mem ∧
      (s'.thread o.thread).cp = (s.thread o.thread).cp - 1 ∧
      s'.hdrAt (gangOf o.thread) j.object = Hdr.dec fun i => h.enc.getD i 0) ∧
  (∀ (s s1 : State) (id : Nat) (o : Op) (j : Job) (x : Xfer) (es : List (Option (List ReadByte))), s.ops.find? id = some o →
    o.kind = .copy j → j.stage = .accepted → s.choose id o j = .move x s1 → x.dbuf = false → x.mcast = 0 → x.pairs ≠ [] →
    x.xform ≠ 3 → allSome (x.pairs.map (s1.readElem o.thread x 0)) = some es →
    ∃ s', exec (.eagerCopy ⟨id, none, 0⟩) s = .next s' ∧ SameRegisters s s' ∧ s'.mem = s1.mem ∧ s'.spad = s1.spad ∧
      s'.ops.find? id = some { o with kind := .copy { j with stage := .moving ⟨x, [], es, 1, none, [], [], []⟩ } }) ∧
  (∀ (s s1 : State) (id : Nat) (o : Op) (j : Job) (x : Xfer), s.ops.find? id = some o → o.kind = .copy j → j.stage = .accepted →
    s.choose id o j = .move x s1 → x.dbuf = true →
    let h := s1.hdrAt (gangOf o.thread) j.object
    s1.allocated (gangOf o.thread) j.object 32 = true → s1.granulesPoisoned (gangOf o.thread) j.object 32 = false → h.firstBad = none →
    h.free = 0 → (∀ p ∈ x.pairs, ∀ q ∈ x.pairs, q.2 + x.dsize - p.2 ≤ h.slotb) →
    ∃ s', exec (.eagerCopy ⟨id, none, 0⟩) s = .next s' ∧ SameRegisters s s' ∧ s'.mem = s1.mem ∧ s'.spad = s1.spad ∧
      s'.ops.find? id = some { o with kind := .copy { j with stage := .waiting x } }) ∧
  (∀ (s : State) (id : Nat) (o : Op) (j : Job) (m : Moving) (bs : List Moved), s.ops.find? id = some o → o.kind = .copy j →
    j.stage = .moving m → m.got.length = m.x.pairs.length → m.x.pairs ≠ [] → m.x.mcast = 0 → m.x.dbuf = false → m.slot = none →
    0 < m.x.dsize → m.wrote.get 0 0 = 0 → m.due = [] → s.movedOf o.thread m 0 0 m.x.pairs.length = some (bs, false) →
    s.clash id o [] (bs.map (·.at_)) = false → (bs.map fun b => (isGlobal b.at_, placeKey b.at_)).Nodup →
    (s.threads.find? o.thread).isSome = true →
    let counted := j.record.isSome && s.allocated (gangOf o.thread) j.object 16
    ∃ s', exec (.eagerCopy ⟨id, some 0, 0⟩) s = .next s' ∧ SameRegisters s s' ∧
      (∀ b ∈ bs, (∀ gang la, b.at_ = .scratch gang la → s'.spadByte gang la = b.byte.val) ∧
        (∀ pa, b.at_ = .global pa → s.alias_ = [] → s'.homeByte pa = b.byte.val)) ∧
      (counted = false → OpOver s s' id ∧ (s'.thread o.thread).cp = (s.thread o.thread).cp - 1) ∧
      (counted = true → ∃ begun, s'.ops.find? id = some { o with
        kind := .copy { j with
          stage := .moving { m with
            wrote := m.wrote.put 0 m.x.pairs.length, due := [(0, m.x.pairs.length * m.x.dsize)], begun := begun } } })) ∧
  (∀ (s s1 : State) (id : Nat) (o : Op) (j : Job), s.ops.find? id = some o → o.kind = .copy j → j.stage = .accepted →
    s.choose id o j = .malformed s1 → (s.threads.find? o.thread).isSome = true →
    s.allocated (gangOf o.thread) j.object 16 = true → s.granulesPoisoned (gangOf o.thread) j.object 16 = false →
    ∃ s', exec (.eagerCopy ⟨id, none, 0⟩) s = .next s' ∧ SameRegisters s s' ∧ OpOver s s' id ∧ s'.mem = s1.mem ∧
      (s'.thread o.thread).cp = (s.thread o.thread).cp - 1 ∧ (s'.objAt (gangOf o.thread) j.object).txerr = true) ∧
  (∀ (s : State) (id sva dva n next : Nat) (xp : Option (BitVec 16)) (tc : Bool) (held : List Nat) (o : Op) (j : Job)
    (ps : List (Nat × Nat)) (e : AliasEntry), s.ops.find? id = some o → o.kind = .copy j →
    j.stage = .recording sva dva n xp tc next held → j.record = none → s.rangePairs o.thread sva dva n = some ps → s.reenc = [] →
    let cut := (State.blockCuts ps).getD next []
    let mine := held.filter fun k => (s.alias_.find? k).any fun e => e.dblk == (cut.headD (0, 0)).1 / 4096
    let s1 := (s.unreserve mine).landFor (cut.map (·.1))
    s.clash id o [] (cut.map fun p => .global p.1) = false →
    (s1.entriesFor (s.worldOf o.thread) xp tc (s1.segments cut)).getD
      ((State.pageSegs cut).map (s1.looseEntry (s.worldOf o.thread) xp tc)) = [e] → 0 < e.len →
    ∃ s', exec (.copyRecording id) s = .next s' ∧ SameRegisters s s' ∧ s'.spad = s.spad ∧
      s'.alias_.find? (s1.freeIndex (s1.sliceBase e.dblk)) = some e ∧
      (s'.lineMeta (e.src / 128)).shadow = true ∧ (s'.lineMeta (e.start / 128)).alias_ = true ∧
      (next + 1 < (State.blockCuts ps).length → s'.ops.find? id = some { o with
        kind := .copy { j with stage := .recording sva dva n xp tc (next + 1) (held.filter fun k => !mine.contains k) } }) ∧
      ((State.blockCuts ps).length ≤ next + 1 → OpOver s s' id))

/-- An entry whose HOT has reached its threshold moves to LANDING (R235), and the next line of an entry in LANDING lands: its ALIAS bit is
clear, the entry supplies none of it, and where nothing takes bytes from it, its bytes are those that a read returned (R241, R242, R245).
`amat` lands every aliased line of its range and is over (R285). A line of a snapshot's area lands and is shipped (R252, R391). -/
def Obligations.LinesLand : Prop :=
  (∀ (s : State) (k : Nat) (e : AliasEntry), s.alias_.find? k = some e → s.isHot k e = true →
    ∃ s', exec (.hotLanding k) s = .next s' ∧ s' = { s with alias_ := s'.alias_ } ∧
      ∀ j, s'.alias_.find? j = if j = k then some { e with state := 2 } else s.alias_.find? j) ∧
  (∀ (s : State) (k x : Nat) (e : AliasEntry), s.alias_.find? k = some e → e.state = 2 →
    (span (e.dblk * 32) 32).find? e.shows = some x → s.lineHeld x = false →
    ∃ s', exec (.hotLanding k) s = .next s' ∧ SameRegisters s s' ∧ s'.spad = s.spad ∧ s'.cbytes = s.cbytes ∧
      (s'.lineMeta x).alias_ = false ∧ (∀ f, s'.alias_.find? k = some f → f.shows x = false) ∧
      (s.dependents x = [] → ∀ a, s'.homeByte a = if a / 128 = x then s.aliasRead a else s.homeByte a)) ∧
  (∀ (s : State) (id va n scope : Nat) (o : Op) (pas : List Nat), s.ops.find? id = some o → o.kind = .materialise va n scope →
    s.mayPerform id o = true → (s.threads.find? o.thread).isSome = true → s.reenc = [] →
    allSome ((span va n).map fun a => (s.translate (s.coreOf o.thread) (gangOf o.thread) a false).2) = some pas →
    ∃ s', exec (.amatLanding id) s = .next s' ∧ SameRegisters s s' ∧ OpOver s s' id ∧ s'.spad = s.spad ∧
      (s'.thread o.thread).cp = (s.thread o.thread).cp - 1 ∧ ∀ pa ∈ pas, (s'.lineMeta (pa / 128)).alias_ = false) ∧
  (∀ (s : State) (w x a : Nat) (p : Snapshot), s.snaps.find? w = some p → p.todo.find? (fun xa => xa.2 == a) = some (x, a) →
    ∃ s' p', exec (.checkpointLanding w a) s = .next s' ∧ s'.snaps.find? w = some p' ∧
      s' = { s with mem := s'.mem, meta_ := s'.meta_, alias_ := s'.alias_, worlds := s'.worlds, snaps := s'.snaps } ∧
      p' = { p with todo := p.todo.filter fun xa => xa.2 != a, shipped := p.shipped ++ [x], mem := p'.mem, meta_ := p'.meta_ } ∧
      (∀ b, p'.mem.get 0 b = if b / 128 = x then s'.homeByte (a * 128 + b % 128) else p.mem.get 0 b) ∧
      (s.dependents a = [] → (s.lineMeta a).alias_ = true →
        ∀ b, s'.homeByte b = if b / 128 = a then s.aliasRead b else s.homeByte b))

/-! ## The matrix engine -/

/-- The arbiter grants a ready entry of the highest effective priority, the oldest among equals, and records the order of grants; a
load-stationary grant takes the shadow reservation for a crew that has not retired, and its crew's SWAP ends it; a saved plane does as its
kind of request would (R132, R134, R384). An entry that has been ready for 8,192 cycles has priority 3 (R134). The oldest granted pass that
waits gets its permit, and the wait is counted (R135, R417).
That the oldest entry is the first in the order of issue is the model's reading (log entry 46). -/
def Obligations.MatrixGrants : Prop :=
  (∀ (s : State) (q : Nat),
    let able := s.reqs.filter fun kr => kr.2.quad == q && s.entryReady kr.1 kr.2
    able ≠ [] →
    ∃ pre id r post, able = pre ++ (id, r) :: post ∧ (∀ y ∈ pre, s.reqPrio y.2 < s.reqPrio r) ∧ (∀ y ∈ post, s.reqPrio y.2 ≤ s.reqPrio r) ∧
      let crew := crewOf r.thread
      let takes : Bool := match r.kind with | .load _ => true | .restore _ act => !act | _ => false
      let swaps : Bool := match r.kind with | .pass b _ _ => b.swap | .restore _ act => act | _ => false
      ∃ s', exec (.matrixGrant q) s = .next s' ∧ s' = { s with reqs := s'.reqs, nextId := s.nextId + 1, resv := s'.resv } ∧
        (∀ r0, s.reqs.find? id = some r0 → ∀ k, s'.reqs.find? k = if k = id then
          some { r0 with granted := some s.nextId, readyAt := none, fed := r0.kind.isRestore } else s.reqs.find? k) ∧
        (takes = true → (s.crews.find? crew).any (fun c => !c.retired) = true → s'.resv.find? q = some crew) ∧
        (takes = true → (s.crews.find? crew).any (fun c => !c.retired) = false → s'.resv = s.resv) ∧
        (swaps = true → s.resv.find? q = some crew → s'.resv.find? q = none) ∧
        (takes = false → swaps = false ∨ s.resv.find? q ≠ some crew → s'.resv = s.resv) ∧
        ∀ p, p ≠ q → s'.resv.find? p = s.resv.find? p) ∧
  (∀ (s : State) (r : Req) (a : Nat), r.readyAt = some a → 8192 ≤ s.clock - a → s.reqPrio r = 3) ∧
  (∀ (s : State) (id a : Nat) (r : Req), s.reqs.find? id = some r → r.readyAt = some a → 8192 ≤ s.clock - a →
    ∃ s', exec (.matrixEntryAgeing id) s = .next s' ∧ s' = { s with reqs := s'.reqs } ∧
      ∀ k, s'.reqs.find? k = if k = id then some { r with aged := true } else s.reqs.find? k) ∧
  (∀ (s : State) (q n : Nat),
    let waits := s.reqs.filter fun kr => kr.2.quad == q && kr.2.granted.isSome && !kr.2.permit &&
      (match kr.2.kind with | .pass _ _ _ => true | _ => false)
    waits ≠ [] →
    ∃ x ∈ waits, (∀ y ∈ waits, x.2.granted.getD 0 ≤ y.2.granted.getD 0) ∧
      ∃ s', exec (.currentPermit (.engine q) n) s = .next s' ∧ s' = { s with reqs := s'.reqs, regs := s'.regs } ∧
        (s'.reqs.find? x.1).map (·.permit) = some true ∧
        s'.regs.pmtWait.get 0 q = s.regs.pmtWait.get 0 q + BitVec.ofNat 64 n) ∧
  (∀ (s : State) (die n : Nat),
    ∃ s', exec (.currentPermit (.ferry die) n) s = .next s' ∧ s' = { s with regs := s'.regs } ∧
      ∀ d, s'.regs.pmtDie.get 0 d = s.regs.pmtDie.get 0 d + (if d = die then BitVec.ofNat 64 n else 0))

/-- A request's operands are read, a sector of them ahead or all that is left with the epilogue's bias, and its consumed arrival is made;
with CONSUMED = 0 a bias range may be read again until completion (R149, R155, R156). A load fills the shadow plane, a saved plane is loaded
in its turn (R384), and a pass leaves in the ring the sums of R139; the request is then over and TILES falls, or its epilogue starts (R156).
An epilogue writes the tile that R146 gives and releases it (R147). `rrel` and `rclr` take effect once what they wait for is complete (R160,
R164).
That an `rrel` does not wait for an `rclr` is the model's reading (log entry 46), and so are products with a plane of another crew (log
entry 13); elements beyond a plane's extent are free values (log entry 1). -/
def Obligations.MatrixCompletes : Prop :=
  (∀ (s : State) (id n : Nat) (r : Req), s.reqs.find? id = some r → State.reading r = true →
    ∃ s', exec (.operandsConsumed ⟨id, some n⟩) s = .next s' ∧ s' = { s with reqs := s'.reqs } ∧
      (∀ k, s'.reqs.find? k = if k = id then some (s.readSector r n) else s.reqs.find? k)) ∧
  (∀ (s : State) (id n pos : Nat) (r : Req) (b : Block) (e : EpiBlock), s.reqs.find? id = some r → r.fed = true →
    r.kind = .pass b pos (some e) → b.consumed = 0 → e.bias ≠ 0 → r.bias.length = 128 → (∀ a ∈ State.operandUnits r, a / 64 ≠ n) →
    ∃ s' bias, exec (.operandsConsumed ⟨id, some n⟩) s = .next s' ∧ s' = { s with reqs := s'.reqs } ∧
      (∀ k, s'.reqs.find? k = if k = id then some { r with bias := bias } else s.reqs.find? k) ∧
      ∀ j, j < 128 → bias[j]? = if (e.bias + 4 * j) / 64 = n then (s.readBias r e)[j]? else r.bias[j]?) ∧
  (∀ (s : State) (id : Nat) (r : Req) (b : Block) (x : List (List (BitVec 64)) × List (List (BitVec 64))), s.reqs.find? id = some r →
    State.reading r = true → State.blockOf r.kind = some b → s.readReq r = some x →
    ∃ s', exec (.operandsConsumed ⟨id, none⟩) s = .next s' ∧ SameRegisters s s' ∧ s'.mem = s.mem ∧
      s'.reqs.find? id = some { r with
        fed := true, aBits := x.1, bBits := x.2, sectors := []
        bias := match r.kind with | .pass _ _ (some e) => s.readBias r e | _ => [] } ∧
      ∀ y, b.consumed ≠ 0 → s.allocated r.gang b.consumed 16 = true → s.granulesPoisoned r.gang b.consumed 16 = false →
        (s.objAt r.gang b.consumed).arrive 1 = some y → s'.objAt r.gang b.consumed = BarObj.dec y.1.enc) ∧
  (∀ (s : State) (id : Nat) (r : Req) (b : Block), s.reqs.find? id = some r → r.fed = true → r.passed = false → s.turnOf r = true →
    r.kind = .load b → (s.threads.find? r.thread).isSome = true →
    ∃ s', exec (.matrixRequestComplete id) s = .next s' ∧ SameRegisters s s' ∧ s'.mem = s.mem ∧ s'.ring = s.ring ∧
      s'.reqs.find? id = none ∧ s'.shadow.find? r.quad = some ⟨some (crewOf r.thread), b.bfmt, r.bBits⟩ ∧
      (s'.thread r.thread).tl = (s.thread r.thread).tl - 1) ∧
  (∀ (s : State) (id : Nat) (r : Req) (p : Plane) (act : Bool), s.reqs.find? id = some r → r.fed = true → r.passed = false →
    s.turnOf r = true → r.kind = .restore p act →
    ∃ s', exec (.matrixRequestComplete id) s = .next s' ∧ s' = { s with reqs := s'.reqs, active := s'.active, shadow := s'.shadow } ∧
      s'.reqs.find? id = none ∧
      (if act then s'.active.find? r.quad = some { p with owner := some (crewOf r.thread) }
       else s'.active = s.active ∧ s'.shadow.find? r.quad = some { p with owner := some (crewOf r.thread) })) ∧
  (∀ (s : State) (id pos : Nat) (r : Req) (b : Block) (path : MatPath) (epi : Option EpiBlock), s.reqs.find? id = some r →
    r.fed = true → r.passed = false → s.turnOf r = true → r.kind = .pass b pos epi → MatPath.of b.afmt b.bfmt = some path →
    path.kind ≠ 3 → b.op = 2 → b.swap = false → b.m ≤ 128 → b.n ≤ 128 → (s.threads.find? r.thread).isSome = true →
    let plane := (s.active.find? r.quad).getD ⟨none, 0, []⟩
    ∃ s', exec (.matrixRequestComplete id) s = .next s' ∧ SameRegisters s s' ∧ s'.mem = s.mem ∧
      (∀ i j, i < b.m → j < b.n → (∀ n, (n, i * 128 + j) ∉ r.spoilt) → s'.ringElem r.gang r.quad pos path.kind i j =
        s.passElem r b path pos (plane.owner == some (crewOf r.thread)) plane i j % 2 ^ 32) ∧
      (epi = none → s'.reqs.find? id = none ∧ (s'.thread r.thread).tl = (s.thread r.thread).tl - 1) ∧
      (epi ≠ none → s'.reqs.find? id = some { r with passed := true, epiNo := some s.nextId })) ∧
  (∀ (s : State) (id : Nat) (r : Req) (e : EpiBlock), s.reqs.find? id = some r → State.epiOf r = some e → s.epiReady r = true →
    s.epiSound r e = true → (s.threads.find? r.thread).isSome = true →
    let pos := s.ringTail r.gang r.quad
    let tl := s.tileAt r.gang r.quad pos
    ∃ s', exec (.epilogue id) s = .next s' ∧ SameRegisters s s' ∧ s'.mem = s.mem ∧ s'.reqs.find? id = none ∧
      (s'.thread r.thread).tl = (s.thread r.thread).tl - 1 ∧
      s'.ringTail r.gang r.quad = (if e.rel then pos + 1 else pos) ∧
      (tl.rows = 1 → e.out + tl.cols * outSize e.outfmt ≤ 2 ^ 24 → (∀ b, State.blockOf r.kind = some b → b.done = 0) →
        ∀ j k, j < tl.cols → k < outSize e.outfmt →
        s'.spadByte r.gang (e.out + j * outSize e.outfmt + k) = (leBytes (outSize e.outfmt) (State.epiElem e
          (s.epiValue r.gang r.quad pos tl.kind 0 j) ((s.biasAt r e j).getD 0).toNat)).getD k 0)) ∧
  (∀ (s : State) (id : Nat) (r : Req), s.reqs.find? id = some r → r.kind = .release → (s.threads.find? r.thread).isSome = true →
    ((s.stream r.gang r.quad).all fun kx => kx.2.epiNo.all (fun n => decide (id < n)) && (match kx.2.kind with | .release => decide (id ≤ kx.1) | _ => true) &&
      !(kx.2.kind.array && kx.2.kind.targets.contains (s.ringTail r.gang r.quad))) = true →
    ∃ s', exec (.rrelEffect id) s = .next s' ∧ SameRegisters s s' ∧ KeepsMemory s s' ∧ s'.reqs.find? id = none ∧
      (s'.thread r.thread).tl = (s.thread r.thread).tl - 1 ∧ s'.ringTail r.gang r.quad =
        s.ringTail r.gang r.quad + (if s.ringTail r.gang r.quad < s.ringHead r.gang r.quad then 1 else 0)) ∧
  (∀ (s : State) (id pos : Nat) (r : Req), s.reqs.find? id = some r → r.kind = .clear pos false →
    (s.threads.find? r.thread).isSome = true →
    ((s.stream r.gang r.quad).all fun kx => !(decide (kx.1 < id) && kx.2.kind.array && kx.2.kind.targets.contains pos)) = true →
    ∃ s', exec (.rclrEffect id) s = .next s' ∧ SameRegisters s s' ∧ KeepsMemory s s' ∧ s'.reqs.find? id = none ∧
      (s'.thread r.thread).tl = (s.thread r.thread).tl - 1 ∧
      (s.ringTail r.gang r.quad ≤ pos → s'.tileAt r.gang r.quad pos = Tile.clear ∧ ∀ n, n < 16384 → s'.slot r.gang r.quad pos n = 0) ∧
      (pos < s.ringTail r.gang r.quad → s'.ring = s.ring ∧ s'.tiles = s.tiles))

/-- An operand fault stops the gang. Its task is doomed with MATRIX_OPERAND, or with RELAUNCH_LIMIT where it asks for relaunches and has had
all of them; otherwise a gang is queued again from the task record, ahead of the pending ones (R150, R151). -/
def Obligations.OperandFaultKills : Prop :=
  ∀ (s : State) (id : Nat) (r : Req) (g : Gang) (k : Task) (q : Queue), s.reqs.find? id = some r → s.operandFails r = true →
    s.gangs.find? r.gang = some g → s.tasks.find? g.task = some k → s.queues.find? k.queue = some q → k.doomed = none →
    ∃ s', exec (.matrixOperandFault id) s = .next s' ∧ s'.mem = s.mem ∧ s'.poolMem = s.poolMem ∧
      (r.gang ≠ s.nextId → (s'.gangs.find? r.gang).map (·.stat) = some .retired) ∧ (∀ t, gangOf t = r.gang → (s'.thread t).stat = .exited) ∧
      (k.record.flags.getLsbD 0 = false → (s'.tasks.find? g.task).map (·.doomed) = some (some .matrixOperand)) ∧
      (k.record.flags.getLsbD 0 = true → k.record.rlimit ≤ k.relaunches →
        (s'.tasks.find? g.task).map (·.doomed) = some (some .relaunchLimit)) ∧
      (k.record.flags.getLsbD 0 = true → k.relaunches < k.record.rlimit →
        (s'.tasks.find? g.task).map (·.relaunches) = some (k.relaunches + 1) ∧
        (s'.gangs.find? s.nextId).map (fun x => (x.task, x.gx, x.gy, x.gz, x.stat)) = some (g.task, g.gx, g.gy, g.gz, .pending) ∧
        (s'.queues.find? k.queue).map (·.ahead) = some (q.ahead ++ [s.nextId]))

/-! ## Waiting threads, calls and submissions -/

/-- A `bwait` whose bound has passed returns with PD = 0 (R321). The oldest entry on its way to a port arrives at the tail of its queue once
the releases before it are complete, and is dropped where the thread has exited (R261, R332, R334). A parked thread whose turn and
condition have come is woken (R36, R327, R333). A `fetchw` is registered while its gang has fewer than 16, and its thread goes on (R351). -/
def Obligations.WaitersWake : Prop :=
  (∀ (s : State) (t la b : Nat) (ph pd : BitVec 4), (s.thread t).stat = .bwait la ph pd (some b) → b ≤ s.clock →
    (s.gangs.find? (gangOf t)).map (·.stat) = some .resident →
    ∃ s', exec (.bwaitTimeout t) s = .next s' ∧ s' = { s with threads := s'.threads } ∧ KeepsOthers s s' t ∧
      (∀ p, s'.pred t p = if p = pd then false else s.pred t p) ∧
      s'.thread t = { s.thread t with preds := (s'.thread t).preds }.goOn true s.clock ((s.thread t).pc + 4)) ∧
  (∀ (s : State) (t : Nat) (dir : BitVec 2) (f : Flight) (pre post : List Flight), s.flights = pre ++ f :: post →
    f.dest = t → f.dir = dir → (∀ x ∈ pre, x.dest ≠ t ∨ x.dir ≠ dir) → (∀ x ∈ f.fences, s.ops.find? x = none) →
    ∃ s', exec (.portEntryArrival t dir) s = .next s' ∧ s' = { s with flights := pre ++ post, ports := s'.ports } ∧
      ∀ k, s'.ports.get [] k =
        if k = portKey t dir ∧ (s.thread t).stat ≠ .exited then s.ports.get [] k ++ [f.entry] else s.ports.get [] k) ∧
  (∀ (s : State) (t : Nat) (why : ParkWhy), (s.thread t).stat = .parked why → parkClear s t why = true → parkTurn s t why = true →
    (s.gangs.find? (gangOf t)).map (·.stat) = some .resident →
    ∃ s', exec (.parkWake t) s = .next s' ∧ s' = { s with threads := s'.threads } ∧ KeepsOthers s s' t ∧
      s'.thread t = { s.thread t with stat := .woken why, since := s.clock, age := 0 }) ∧
  (∀ (s : State) (t la : Nat) (handle : BitVec 64), (s.thread t).stat = .fetchw la handle → s.goesOn t = true →
    (s.fetches.values.filter fun f => f.gang == gangOf t).length < 16 →
    ∃ s', exec (.fetchwRegistered t) s = .next s' ∧
      s' = { s with threads := s'.threads, fetches := s'.fetches, nextId := s.nextId + 1 } ∧ KeepsOthers s s' t ∧
      s'.thread t = (s.thread t).goOn true s.clock (s.thread t).pc ∧
      s'.fetches.find? s.nextId = some ⟨gangOf t, la, handle⟩)

/-- A batch whose callers have nothing left to wait for joins its die's queue where a service is bound to its number, which is a service
event; a lone caller of any other number is answered with 0x80000001, one whose buffer lies outside its lease with 0x80000002 (log entry
59), and one whose service context has failed with 0x80000004 (R353, R354, R400, R402, R417). A submission gives the handle or refusal word
of R349 to its two registers, and a task queued behind the others of its queue; the lanes of one instruction submit together, and LOADS
falls for each (R87, R348). A `fetchw` request whose handle names no task of the world is answered with status 2 (R313, R351).
That a number with no service is answered when its batch would be sent is the model's choice (log entry 12). -/
def Obligations.CallsAnswered : Prop :=
  (∀ (s : State) (id : Nat) (b : Batch), s.batches.find? id = some b → b.sent = none → b.aborted = false →
    (∀ c ∈ b.callers, ∀ o ∈ s.ops.values, o.thread = b.crew * 32 + c.1 → fenceWaits o.kind = false) →
    b.num = 1 ∨ b.num = 2 ∨ b.num = 3 → s.dirtyRewriting = false → b.callers ≠ [] →
    (∀ c ∈ b.callers, bufferDenied s (b.crew / 512) b.num c.2.2 = false) →
    (∀ th ∈ s.threads, th.2.stat = .halted → s.goesOn th.1 = true) →
    ∃ s', exec (.svcBatchSend id) s = .next s' ∧ SameRegisters s s' ∧ s'.spad = s.spad ∧
      s'.batches.find? id = some { b with sent := some s.nextId } ∧ s'.regs.evtSeq.get 0 b.die = s.lastEvent + 1) ∧
  (∀ (s : State) (id l tid : Nat) (b : Batch) (args : List (BitVec 32)) (c : BitVec 32), s.batches.find? id = some b →
    b.callers = [(l, tid, args)] → l < 32 →
    (b.aborted = true ∧ c = 0x80000004) ∨ (b.aborted = false ∧ b.sent = none ∧ s.dirtyRewriting = false ∧
      (∀ o ∈ s.ops.values, o.thread = b.crew * 32 + l → fenceWaits o.kind = false) ∧
      ((b.num ≠ 1 ∧ b.num ≠ 2 ∧ b.num ≠ 3 ∧ c = 0x80000001) ∨
       ((b.num = 1 ∨ b.num = 2 ∨ b.num = 3) ∧ bufferDenied s (b.crew / 512) b.num args = true ∧ c = 0x80000002))) →
    (s.thread (b.crew * 32 + l)).stat = .svc id → s.goesOn (b.crew * 32 + l) = true →
    ∃ s', exec (.svcBatchSend id) s = .next s' ∧ s'.batches.find? id = none ∧ KeepsOthers s s' (b.crew * 32 + l) ∧
      s'.reg (b.crew * 32 + l) 8 = c ∧ s'.reg (b.crew * 32 + l) 9 = 0 ∧
      (∀ u v, v < 32 → u ≠ b.crew * 32 + l ∨ (v ≠ 8 ∧ v ≠ 9) → s'.reg u v = s.reg u v) ∧
      s'.thread (b.crew * 32 + l) = (s.thread (b.crew * 32 + l)).goOn true s.clock (s.thread (b.crew * 32 + l)).pc) ∧
  (∀ (s : State) (id va v : Nat) (o : Op), s.ops.find? id = some o → o.kind = .launch va v → s.mayPerform id o = true →
    (s.ops.filter fun ko => ko.2.insn == o.insn) = [(id, o)] → Awaits s o.thread id [v, v + 1] →
    let r := launch (s.push (s.coreOf o.thread) 3) o.thread va
    ∃ s', exec (.tlaunchSubmit id) s = .next s' ∧ WritesOnly s s' o.thread id ∧ OpOver s s' id ∧
      LoadsFall s s' [o.thread] ∧ s'.tasks = r.1.tasks ∧ s'.queues = r.1.queues ∧
      s'.reg o.thread v = r.2.extractLsb' 0 32 ∧ s'.reg o.thread (v + 1) = r.2.extractLsb' 32 32) ∧
  (∀ (s : State) (id : Nat) (o : Op), s.ops.find? id = some o → (∃ va v, o.kind = .launch va v) →
    let mates := s.ops.filter fun ko => ko.2.insn == o.insn
    (∀ y ∈ mates, (∃ va v, y.2.kind = .launch va v) ∧ s.mayPerform y.1 y.2 = true) →
    ∃ s', exec (.tlaunchSubmit id) s = .next s' ∧ OpsOver s s' mates ∧ LoadsFall s s' (mates.map (·.2.thread))) ∧
  (∀ (s : State) (t va : Nat) (r : TaskRec) (q : Queue),
    let s1 := s.recordHot (s.worldOf t) va
    s1.readRecord (s.worldOf t) va = some r →
    s.queues.find? r.queue = some q → q.world = s.worldOf t →
    (s.worldOf t = 0 ∨ (s.worlds.find? (s.worldOf t)).any (·.running) = true) →
    if 65535 ≤ s.openTasks r.queue then launch s t va = (s1, 0x8000000000000001)
    else
      let n : BitVec 32 := if q.seq + 1 = 0 then 1 else q.seq + 1
      (launch s t va).2 = BitVec.ofNat 32 r.queue ++ n ∧
      ((launch s t va).1.tasks.find? s.nextId).map (fun k => (k.record, k.world, k.queue, k.stage)) =
        some (r, q.world, r.queue, .queued) ∧
      ((launch s t va).1.queues.find? r.queue).map (fun q => (q.seq, q.waiting)) = some (n, q.waiting ++ [s.nextId])) ∧
  (∀ (s : State) (t va : Nat), (s.recordHot (s.worldOf t) va).readRecord (s.worldOf t) va = none →
    launch s t va = (s.recordHot (s.worldOf t) va, 0x8000000000000004)) ∧
  (∀ (s : State) (w va : Nat), s.recordHot w va = { s with alias_ := (s.recordHot w va).alias_ }) ∧
  (∀ (s : State) (id : Nat) (f : Fetch), s.fetches.find? id = some f →
    (∀ kf ∈ s.fetches, kf.2.gang = f.gang → id ≤ kf.1) → (s.gangs.find? f.gang).map (·.stat) ≠ some .residue →
    s.byHandle (s.gangWorld f.gang) f.handle = none → s.allocated f.gang f.la 32 = true →
    ∃ s', exec (.fetchwAnswer id) s = .next s' ∧ SameRegisters s s' ∧ s'.mem = s.mem ∧ s'.fetches.find? id = none ∧
      s'.gangs = s.gangs ∧ s'.spadNat f.gang f.la 4 = 2 ∧ ∀ i, i < 28 → s'.spadByte f.gang (f.la + 4 + i) = 0)

/-- A `fetchw` request for a task with a lease and a gang left in its grid is answered with that gang: status 1, its coordinates and the
handle in the mailbox; the requester has adopted it (R312, R313). -/
def Obligations.FetchwAdopts : Prop :=
  ∀ (s : State) (id task : Nat) (f : Fetch) (k : Task), s.fetches.find? id = some f →
    (∀ kf ∈ s.fetches, kf.2.gang = f.gang → id ≤ kf.1) → (s.gangs.find? f.gang).map (·.stat) ≠ some .residue →
    s.byHandle (s.gangWorld f.gang) f.handle = some (task, k) → s.tasks.find? task = some k → k.code = none → k.doomed = none →
    k.stage = .leased → s.requeued k = [] → k.next < k.record.gangCount → s.allocated f.gang f.la 32 = true →
    f.gang ≠ s.nextId →
    ∃ s', exec (.fetchwAnswer id) s = .next s' ∧ SameRegisters s s' ∧ s'.mem = s.mem ∧ s'.fetches.find? id = none ∧
      (s'.gangs.find? s.nextId).map (fun x => (x.task, x.gx, x.gy, x.gz, x.stat)) =
        some (task, (k.record.coords k.next).1, (k.record.coords k.next).2.1, (k.record.coords k.next).2.2, .adopted f.gang) ∧
      (s'.tasks.find? task).map (·.next) = some (k.next + 1) ∧ s'.spadNat f.gang f.la 4 = 1 ∧
      s'.spadNat f.gang (f.la + 4) 4 = (k.record.coords k.next).1 % 2 ^ 32 ∧
      s'.spadNat f.gang (f.la + 8) 4 = (k.record.coords k.next).2.1 % 2 ^ 32 ∧
      s'.spadNat f.gang (f.la + 12) 4 = (k.record.coords k.next).2.2 % 2 ^ 32 ∧ s'.spadNat f.gang (f.la + 16) 8 = f.handle.toNat

/-! ## Tasks and gangs -/

/-- The head of a queue enters its world's window if no other queue's head came first and the window has room (R308). A task in the window
that no earlier task holds back gets its whole lease, its Pool pages pinned in their frames, or is denied and gets nothing (R210, R211). The
distributor takes the next gang of the class served from the grid of its task and places it where it fits: it is resident on its cores, and
its threads stand at the task's entry (R309, R310); here with one queue that has a pending gang and a deficit.
Which queue's head came first, and each world's own turn, are the model's choice (log entry 25). -/
def Obligations.TasksStart : Prop :=
  (∀ (s : State) (q k : Nat) (x : Queue) (w : World) (t : Task) (rest : List Nat), s.queues.find? q = some x → x.waiting = k :: rest →
    s.worlds.find? x.world = some w → s.tasks.find? k = some t → w.window.length < 256 →
    (∀ kq ∈ s.queuesOf x.world, kq.2.waiting = [] ∨ x.headAt ≤ kq.2.headAt) →
    ∃ s', exec (.windowEntry q) s = .next s' ∧
      s' = { s with queues := s'.queues, worlds := s'.worlds, tasks := s'.tasks, nextId := s.nextId + 1 } ∧
      (s'.queues.find? q).map (·.waiting) = some rest ∧ s'.worlds.find? x.world = some { w with window := w.window ++ [k] } ∧
      s'.tasks.find? k = some { t with stage := .window }) ∧
  (∀ (s : State) (t : Nat) (k : Task), s.tasks.find? t = some k → k.stage = .window → k.code = none → s.heldBack t k = false →
    s.leaseDenied k = true →
    ∃ s', exec (.leaseEstablish t) s = .next s' ∧ s' = { s with tasks := s'.tasks } ∧
      s'.tasks.find? t = some { k with code := some .leaseDenied }) ∧
  (∀ (s : State) (t : Nat) (k : Task), s.tasks.find? t = some k → k.stage = .window → k.code = none → s.heldBack t k = false →
    s.leaseDenied k = false → s.leaseUnswept k = false →
    let lease := s.leaseOf k.world k.record.cover
    let pages := State.poolPages lease
    s.setsFit pages = true →
    ∃ s', exec (.leaseEstablish t) s = .next s' ∧ SameRegisters s s' ∧ s'.spad = s.spad ∧
      s'.tasks.find? t = some { k with stage := .leased, lease := lease, pins := pages } ∧
      (∀ p ∈ pages, ∃ f, s'.frames.find? p = some f ∧ 0 < f.pins) ∧
      ((∀ p ∈ pages, (s.frames.filter fun kf => s.poolSet kf.1 == s.poolSet p).length + s.mates pages p ≤ 16) →
        s' = { s with frames := s'.frames, tasks := s'.tasks, alias_ := s'.alias_ })) ∧
  (∀ (s : State) (w cls q t : Nat) (k : Task) (x : Queue) (spots : List Spot),
    s.placingStopped w = false → s.servedClass w = some cls → s.pendings w cls = [(q, t, k, none)] →
    s.queues.find? q = some x → 0 < x.deficit → s.fitPending w (t, k, none) = some spots → s.tasks.find? t = some k →
    ∃ s', exec (.placeGang w) s = .next s' ∧ s'.mem = s.mem ∧ s'.poolMem = s.poolMem ∧
      (s'.gangs.find? s.nextId).map (fun g => (g.task, g.gx, g.gy, g.gz, g.stat)) =
        some (t, (k.record.coords k.next).1, (k.record.coords k.next).2.1, (k.record.coords k.next).2.2, .resident) ∧
      (s'.tasks.find? t).map (·.next) = some (k.next + 1) ∧
      ∀ sp ∈ spots, ∀ c ∈ sp.crews, ∀ l, l < 32 →
        let th := s'.thread (((s.nextId * 16 + sp.team) * 32 + c.1) * 32 + l)
        th.pc = k.record.code.cap.base + k.record.entry ∧ th.stat = .ready ∧ th.handling = false ∧ th.preds = 0 ∧ th.fctl = 0)

/-- A team with no thread left and nothing in flight retires and its scratchpad is erased; a gang whose teams are gone retires, and what it
held is freed and erased (R202, R298, R305). -/
def Obligations.GangsRetire : Prop :=
  (∀ (s : State) (g i : Nat) (x : Gang) (k : Task), s.gangs.find? g = some x → s.tasks.find? x.task = some k → x.stat = .resident →
    i < 16 → i < k.record.teams → x.deadTeams.getLsbD i = false →
    (∀ th ∈ s.threads, gangOf th.1 = g → teamIdx th.1 = i → th.2.stat = .exited) →
    s.gangOps (fun t => gangOf t == g && teamIdx t == i) = [] →
    (∀ r ∈ s.reqs.values, gangOf r.thread = g → teamIdx r.thread = i → r.kind.isRestore = true) →
    ∃ s', exec (.teamRetire g i) s = .next s' ∧ s'.mem = s.mem ∧ (s'.gangs.find? g).map (·.deadTeams.getLsbD i) = some true ∧
      (∀ a, a < 2 ^ 20 → s'.spadByte g (i * 2 ^ 20 + a) = 0) ∧
      ∀ h a, a < 2 ^ 24 → h ≠ g ∨ a / 2 ^ 20 ≠ i → s'.spadByte h a = s.spadByte h a) ∧
  (∀ (s : State) (g : Nat) (x : Gang), s.gangs.find? g = some x → x.stat = .resident → s.liveTeams g = 0 →
    s.gangOps (fun t => gangOf t == g) = [] → (∀ r ∈ s.reqs.values, r.gang = g → r.kind.isRestore = true) →
    ∃ s', exec (.gangRetire g) s = .next s' ∧ KeepsMemory { s with spad := s'.spad } s' ∧
      s'.gangs.find? g = some { x with stat := .retired, preempt := none } ∧
      (∀ t, gangOf t = g → (s'.thread t).stat = .exited ∧ ∀ v, v < 32 → s'.reg t v = 0) ∧
      (∀ a, a < 2 ^ 24 → s'.spadByte g a = 0) ∧ ∀ t, gangOf t ≠ g → s'.thread t = s.thread t)

/-- A task whose gangs are all over, or one that has been ended, completes: its status, with the code that ended it, is written to its
completion object and COUNT rises by 1 there; its lease ends, its translations go, and it leaves its world's window; an end with a code is
noted for its queue and reported (R306, R307, R308, R378, R416). A task of a world in ERROR ends with WORLD_POISON and its gangs stop once
its threads have stopped, and a doomed task ends with its code once its gangs are over (R151, R198, R379).
The end of a task whose world is being stopped is the model's choice (log entry 26). -/
def Obligations.TasksEnd : Prop :=
  (∀ (s : State) (t : Nat) (x : Walked) (k : Task) (w : World), s.tasks.find? t = some k → s.worlds.find? k.world = some w →
    k.stage ≠ .completed → (k.stage = .leased ∧ k.doomed = none ∧ k.next = k.record.gangCount) ∨ k.code.isSome = true →
    k.code = none ∨ (∀ th ∈ s.threads, th.2.stat = .halted → s.goesOn th.1 = true) → s.gangsOver k = true →
    s.taskBusy t = false → s.completionHeld k = false →
    ∃ s', exec (.taskCompletion t) s = .next s' ∧ SameRegisters s s' ∧ s'.spad = s.spad ∧
      s'.tasks.find? t = some { k with stage := .completed, lease := [], pins := [] } ∧
      (∃ w', s'.worlds.find? k.world = some w' ∧ t ∉ w'.window ∧ w'.completions = w.completions + 1) ∧
      (∀ e ∈ s'.tlb, e.task ≠ t) ∧ (∀ e ∈ s'.ahead, e.task ≠ t) ∧
      (∀ c q, k.code = some c → s.queues.find? k.queue = some q →
        (s'.queues.find? k.queue).map (fun q => (q.lasth, q.code)) = some (k.handle, BitVec.ofNat 8 (EndCode.num c))) ∧
      (∀ c, k.code = some c → (s.regs.faultLog.get [] 0).length < 256 →
        s'.regs.faultLog.get [] 0 = s.regs.faultLog.get [] 0 ++ [State.faultWord 3 3 k.world k.queue]) ∧
      let p := s.pushWorld k.world
      (s.alias_ = [] → k.record.doneOk = true → p.walk k.world k.record.done.cap.cursor = some x →
        p.mayUse k.world x.pa = true → x.pa % 16 = 0 →
        s'.homeNat (x.pa + 8) 8 = k.relaunches % 256 * 2 ^ 16 + (k.code.map EndCode.num).getD 0 ∧
        ((p.lineMeta (x.pa / 128)).poison = false → s'.homeNat x.pa 4 = (p.homeNat x.pa 4 + 1) % 2 ^ 32))) ∧
  (∀ (s : State) (t : Nat) (k : Task) (w : World), s.tasks.find? t = some k → s.worlds.find? k.world = some w → w.tdisp = .error ∨ w.stopping = true →
    (∀ th ∈ s.threads, s.taskOf th.1 = t → (s.gangs.find? (gangOf th.1)).any (fun g => decide (g.stat = .resident)) = true →
      th.2.stat = .stopped ∨ th.2.stat = .exited ∨ th.2.stat = .saved ∨
      (∃ b, th.2.stat = .svc b) ∨ ∃ la h, th.2.stat = .fetchw la h) →
    k.code = none ∨ k.code = some .worldPoison → k.stage ≠ .completed →
    ∃ s', exec (.taskEnd t .worldPoison) s = .next s' ∧
      EndedWith s s' t k .worldPoison (if k.code = none then none else k.fault)) ∧
  (∀ (s : State) (t : Nat) (c : EndCode) (k : Task), s.tasks.find? t = some k → k.doomed = some c → c ≠ .worldPoison →
    s.gangsOver k = true → k.code = none → k.stage ≠ .completed →
    ∃ s', exec (.taskEnd t c) s = .next s' ∧ s'.mem = s.mem ∧ (s'.tasks.find? t).map (·.code) = some (some c))


/-! ## Pre-emption, pages and sweeps -/

/-- Pre-emption stops a gang's threads at their run boundaries: as they are on the hardware path, and in the save handler with cause PREEMPT
on the cooperative path (R380 to R382). Once all have stopped and what the gang issued is over, its image keeps registers, threads and
scratchpads, or its residue keeps the TPC of the save handler's entry and PORTST, and the rest is erased, and it goes back to the head of
its queue (R382 to R385). A gang whose threads have long waited at one object is swapped out with its planes, and comes back when the phase
has changed or a bound has passed (R314, R369). What a move of a gang pushes, and that a thread waits for its reply while its gang is away,
are the model's choice (log entries 8 and 37). -/
def Obligations.PreemptAndSave : Prop :=
  (∀ (s : State) (g : Nat) (why : PreemptWhy) (x : Gang) (k : Task), s.gangs.find? g = some x → s.tasks.find? x.task = some k →
    x.stat = .resident → x.preempt = none → s.listsForm = true →
    let wd := (s.worlds.find? k.world).getD World.fresh
    (why = .checkpoint ∧ (wd.restoring = true ∨ wd.trigger = true ∧ s.snaps.find? k.world = none)) ∨
      (why = .worldStop ∧ k.world ≠ 0 ∧ wd.running = false) ∨ (∃ cls, why = .room cls ∧ s.roomVictim k.world cls g = true) →
    ∃ s', exec (.preempt g why) s = .next s' ∧
      (k.record.save = 0xFFFFFFFF ∨ k.record.restore = 0xFFFFFFFF →
        s' = { s with gangs := s'.gangs, threads := s'.threads } ∧ s'.gangs.find? g = some { x with preempt := some false } ∧
        ∀ t, s'.thread t = if gangOf t = g ∧ s.atBoundary t (s.thread t) = true
          then { s.thread t with stat := .stopped, cont := 0, runLen := 0 } else s.thread t) ∧
      (k.record.save ≠ 0xFFFFFFFF → k.record.restore ≠ 0xFFFFFFFF → (∀ th ∈ s.threads, gangOf th.1 = g → th.2.handling = false) →
        (∀ t, gangOf t = g → s.handlerOk t k.record.save = true) →
        s' = { s with gangs := s'.gangs, threads := s'.threads } ∧ s'.gangs.find? g = some { x with preempt := some true } ∧
        ∀ t, s'.thread t = if gangOf t = g ∧ s.atBoundary t (s.thread t) = true
          then { (s.thread t).trapped (s.pcOffset t (s.thread t).pc) Cause.preempt 0 ((s.pccOf t).base + k.record.save) s.clock with
            inSave := true, saveTpc := s.pcOffset t (s.thread t).pc }
          else s.thread t)) ∧
  (∀ (s : State) (g : Nat) (x : Gang) (k : Task) (q : Queue), s.gangs.find? g = some x → s.tasks.find? x.task = some k →
    s.queues.find? k.queue = some q → x.stat = .resident → x.preempt = some true →
    (∀ th ∈ s.threads, gangOf th.1 = g → th.2.stat = .saved ∨ th.2.stat = .exited) → s.gangOps (fun t => gangOf t == g) = [] →
    s.reqsLeft g = false →
    ∃ s', exec (.cooperativeSaveDone g) s = .next s' ∧ KeepsMemory { s with spad := s'.spad } s' ∧
      s'.gangs.find? g = some { x with stat := .residue, preempt := none, planes := [] } ∧
      (s'.queues.find? k.queue).map (·.ahead) = some (q.ahead ++ [g]) ∧
      (∀ t h, gangOf t = g → s.threads.find? t = some h →
        s'.thread t = { Thread.fresh 0 with
          tpc := if h.stat = .saved then h.saveTpc else h.tpc, drops := h.drops, hints := h.hints, seen := h.seen, stat := h.stat }) ∧
      (∀ t v, gangOf t = g → v < 32 → s'.reg t v = 0) ∧ (∀ a, a < 2 ^ 24 → s'.spadByte g a = 0) ∧
      ((∀ f ∈ s.flights, gangOf f.dest ≠ g) → ∀ key, s'.ports.get [] key = s.ports.get [] key)) ∧
  (∀ (s : State) (g : Nat) (x : Gang) (k : Task) (q : Queue), s.gangs.find? g = some x → s.tasks.find? x.task = some k →
    s.queues.find? k.queue = some q → x.stat = .resident → x.preempt = some false →
    (∀ th ∈ s.threads, gangOf th.1 = g → th.2.stat = .stopped ∨ th.2.stat = .exited ∨ ∃ b, th.2.stat = .svc b) →
    s.fwdRoom ((s.forwardsOf g x).map (·.core)) = true → s.saveWaits g = false → s.reqsLeft g = false → s.dirtyRewriting = false →
    ∃ s', exec (.hardwareSave g) s = .next s' ∧ SameRegisters s s' ∧ s'.threads = s.threads ∧ s'.valid = s.valid ∧ s'.spad = s.spad ∧
      s'.ring = s.ring ∧ s'.gangs.find? g = some { x with stat := .image, preempt := none, planes := s.planesOf g } ∧
      (s'.queues.find? k.queue).map (·.ahead) = some (q.ahead ++ [g]) ∧ (∀ c, c / 512 = g → s'.crews.find? c = none)) ∧
  (∀ (s : State) (g la since : Nat) (x : Gang) (k : Task) (q : Queue), s.gangs.find? g = some x → s.tasks.find? x.task = some k →
    s.queues.find? k.queue = some q → x.stat = .resident → x.preempt = none → s.bwaitAll g = some (la, since) →
    q.swapthr ≠ 0 → since + q.swapthr.toNat * 1024 ≤ s.clock → (∀ r ∈ s.reqs.values, r.gang ≠ g) → s.fwdRoom x.liveCores.values = true →
    s.saveWaits g = false → s.dirtyRewriting = false →
    ∃ s', exec (.swapOut g) s = .next s' ∧ SameRegisters s s' ∧ s'.threads = s.threads ∧ s'.valid = s.valid ∧ s'.spad = s.spad ∧
      s'.gangs.find? g = some { x with
        stat := .swapped, wake := some ⟨la, s.objPhase g la, s.firstBound g⟩, planes := s.planesOf g } ∧
      (∀ c, c / 512 = g → s'.crews.find? c = none)) ∧
  (∀ (s : State) (g : Nat) (x : Gang) (k : Task) (q : Queue) (w : WakeOn), s.gangs.find? g = some x → s.tasks.find? x.task = some k →
    s.queues.find? k.queue = some q → x.stat = .swapped → x.wake = some w →
    s.objPhase g w.la ≠ w.phase ∨ (∃ b, w.bound = some b ∧ b ≤ s.clock) →
    ∃ s', exec (.swapWake g) s = .next s' ∧ s' = { s with gangs := s'.gangs, queues := s'.queues } ∧
      s'.gangs.find? g = some { x with wake := none } ∧ (s'.queues.find? k.queue).map (·.ahead) = some (q.ahead ++ [g]))

/-- A shootdown drops the translations that serve its page, ends the tasks that the changed table no longer serves, once they stand at run
boundaries, and gives the leases of the others the new translation, the Pool pages that they then name pinned in their frames (R15, R213,
R215). A page that is evicted has its bytes in the pool and reads as before (R215, R218). Re-enciphering a page changes its key version and
counters alone, and the writes that waited for it are noted to go in their order (R219). A returned frame that has been swept is world 0's,
and holds zeros, no tag and no cached byte (R197, R202, R203).
Where the bytes of a page are counted to stand is the model's reading (log entry 7); that a shootdown waits for a copy that is being recorded
over its block, and a sweep for what is in flight to its frame, is its choice (log entries 16 and 53). -/
def Obligations.PagesMove : Prop :=
  (∀ (s : State) (w page : Nat), s.recordingAt w page = false → (∀ kt ∈ s.tasks, kt.2.world = w → kt.2.stage = .leased → s.narrowed kt.2 page = true →
      s.taskAtBoundary kt.1 = true) →
    (∀ kt ∈ s.tasks, kt.2.world = w → kt.2.stage = .leased → s.narrowed kt.2 page = false → s.pagesNew w page kt.2 = []) →
    ∃ s', exec (.shootdown w page) s = .next s' ∧ KeepsMemory { s with spad := s'.spad } s' ∧
      (∀ e, e ∈ s'.tlb ↔ e ∈ s.tlb ∧
        ¬ (e.block ≤ page ∧ page < e.block + e.leaf ∧ ∃ k, s.tasks.find? e.task = some k ∧ k.world = w)) ∧
      (∀ e, e ∈ s'.ahead ↔ e ∈ s.ahead ∧ ¬ (e.block = page ∧ ∃ k, s.tasks.find? e.task = some k ∧ k.world = w)) ∧
      (∀ t k, s.tasks.find? t = some k → k.world = w → k.stage = .leased → (∀ kt ∈ s.tasks, kt.1 = t → s.narrowed kt.2 page = false) →
        (s'.tasks.find? t).map (·.lease) = some (k.lease.map (s.renewBlock w page))) ∧
      ∀ t k, s.tasks.find? t = some k → k.world = w → k.stage = .leased → k.code = none → s.narrowed k page = true →
        (s'.tasks.find? t).map (·.code) = some (some .lease)) ∧
  (∀ (s : State) (w page t : Nat) (k : Task), s.recordingAt w page = false → s.tasks.find? t = some k →
    (s.tasks.filter fun kt => kt.2.world == w && kt.2.stage == .leased) = [(t, k)] → s.narrowed k page = false →
    ((s.pagesLeft w page k).foldl (fun s p => s.pin p false) s).setsFit (s.pagesNew w page k).eraseDups = true →
    ∃ s', exec (.shootdown w page) s = .next s' ∧
      s'.tasks.find? t = some { k with
        lease := k.lease.map (s.renewBlock w page), pins := State.poolPages (k.lease.map (s.renewBlock w page)) } ∧
      ∀ p ∈ s.pagesNew w page k, ∃ f, s'.frames.find? p = some f ∧ 0 < f.pins) ∧
  (∀ (s : State) (page : Nat) (f : FrameEntry), s.frames.find? page = some f → s.lruOf page f = true → s.alias_ = [] →
    (∀ kc ∈ s.cmeta, kc.1 % 2 ^ 45 / 512 ≠ page) →
    ∃ s', exec (.frameEviction page) s = .next s' ∧
      s' = { s with poolMem := s'.poolMem, poolCtr := s'.poolCtr, cbytes := s'.cbytes, cmeta := s'.cmeta, frames := s'.frames } ∧
      s'.frames.find? page = none ∧
      ∀ a, s'.poolMem.get 0 a = if a / 65536 = page then s.homeByte a else s.poolMem.get 0 a) ∧
  (∀ (s : State) (page : Nat), isPool (page * 65536) = true → page ∈ s.reenc →
    ∃ s', exec (.pageReencipher page true) s = .next s' ∧
      s' = { s with reenc := s.reenc.filter (· != page), keyVer := s'.keyVer, poolCtr := s'.poolCtr, rewaits := s'.rewaits } ∧
      (∀ id, s'.rewaits.find? id = if (s.ops.any fun ko => ko.1 == id && (s.pagesOf ko.2).contains page) = true then some page
        else s.rewaits.find? id) ∧
      (∀ p, s'.keyVer.get 0 p = if p = page then s.keyVer.get 0 p + 1 else s.keyVer.get 0 p) ∧
      ∀ x, s'.poolCtr.get 0 x = if x / 512 = page then 0 else s.poolCtr.get 0 x) ∧
  (∀ (s : State) (page x : Nat), isPool (page * 65536) = true → page ∉ s.reenc → x / 512 = page →
    s.poolCtr.find? x = some (BitVec.allOnes 56) →
    exec (.pageReencipher page false) s = .next { s with reenc := s.reenc ++ [page] }) ∧
  (∀ (s : State) (f : Nat), f ∈ s.unswept → s.reenc = [] → s.rangeBusy (f * 65536) (f * 65536 + 65536) = false →
    ∃ s', exec (.frameSweep f) s = .next s' ∧ s'.unswept = s.unswept.filter (· != f) ∧ s'.owner.get 0 f = 0 ∧
      s'.shared.find? f = none ∧ (∀ a, a / 65536 = f → s'.homeByte a = 0) ∧
      (∀ x, x / 512 = f → s'.lineMeta x = LineMeta.clear) ∧ (∀ u a, a < 2 ^ 52 → a / 65536 = f → s'.held? u a = none) ∧
      (s.alias_ = [] → ∀ a, a / 65536 ≠ f → s'.homeByte a = s.homeByte a))

/-- When the walk of a sweep is over, no granule of the world's memory or snapshot area or of a frame that is still to be swept, and no
granule of its scratchpads is tagged that holds a marked capability, no register group holds a valid one, and every other tag is as it was;
no byte has changed (R181, R182). The sweep's report is then written, but in no frame that world 0 may not use (R197, R216), and its marks
are gone (R182, R401). A firmware doorbell is a service
event, with which the halted threads of its die go on (R400).
That a walk is one move, and that events are numbered over the device, are the model's choice (log entries 55 and 56). -/
def Obligations.SweepsRevoke : Prop :=
  (∀ (s : State) (w : Nat) (r : Sweep), s.sweeps.find? w = some r →
    ∃ s', exec (.revocationWalk w) s = .next s' ∧ KeepsMemory s s' ∧ s'.rows = s.rows ∧ s'.threads = s.threads ∧
      s'.sweeps.find? w = some { r with walked := true } ∧
      (∀ x i, i < 8 → let bs := (span (x * 128 + i * 16) 16).map s.homeByte
        let walked : Prop := s.listed w (x * 128) = true ∨ x / 512 ∈ ((s.snaps.find? w).map (·.frames)).getD [] ∨ x / 512 ∈ s.unswept
        ((s'.lineMeta x).tags.getLsbD i = true → walked → s.marksCap w bs = false) ∧
        ((s.lineMeta x).tags.getLsbD i = true → s.marksCap w bs = false ∨ ¬ walked → (s'.lineMeta x).tags.getLsbD i = true)) ∧
      (∀ g, s'.spadTag.get false g = (s.spadTag.get false g &&
        !(s.gangWorld (g / 2 ^ 20) == w && s.marksCap w ((span (g * 16) 16).map (s.spad.get 0))))) ∧
      ∀ t k, k < 8 → s.worldOf t = w → s'.capValid t k = true → (s.capGroup t k).kind ≠ 1 →
        s.marked w (s.capGroup t k).base = false) ∧
  (∀ (s : State) (w pa die : Nat) (r : Sweep), s.sweeps.find? w = some r → r.walked = true → r.descs = [(pa, die)] → s.alias_ = [] →
    s.reportHeld r.descs = false → pa % 16 = 0 →
    ∃ s', exec (.sweepComplete w) s = .next s' ∧ s'.sweeps.find? w = none ∧ (s.mayUse 0 (pa + 8) = true → s'.homeNat (pa + 8) 4 = 2) ∧
      (s.mayUse 0 (pa + 12) = true → s'.homeNat (pa + 12) 4 = r.restarts % 2 ^ 32) ∧ s'.regs.evtSeq.get 0 die = s.lastEvent + 1 ∧
      (∀ a, a < pa + 8 ∨ pa + 16 ≤ a ∨ s.mayUse 0 (a / 4 * 4) = false → s'.homeByte a = s.homeByte a) ∧
      (s'.durable.find? w).map (·.revoked) = (s.durable.find? w).map fun p => p.revoked ++ r.ranges) ∧
  (∀ (s : State) (die : Nat), s.listsForm = true → (∀ th ∈ s.threads, th.2.stat = .halted → s.goesOn th.1 = true) →
    ∃ s', exec (.firmwareDoorbell die) s = .next s' ∧ s' = { s with regs := s'.regs, threads := s'.threads } ∧
      (∀ d, s'.regs.evtSeq.get 0 d = if d = die then s.lastEvent + 1 else s.regs.evtSeq.get 0 d) ∧
      ∀ t, s'.thread t = if (s.thread t).stat = .halted ∧ s.coreOf t / 96 = die
        then { s.thread t with seen := s.lastEvent + 1 }.goOn true s.clock ((s.thread t).pc + 4) else s.thread t)

/-! ## The device, its worlds and the host -/

/-- A device reset reaches stage 6, or halts at the first stage whose check fails; the pool's memory and the durable checkpoints stay, and
everything else is as State.reset has it (R393, R410). The first write of the features accepted starts the device (R412). Firmware takes an
image while no tenant interface is locked or running (R393).
A live slice count is 1 to 64 (R12). The report of a bring-up and whether an image verifies are inputs (log entry 17), what reset leaves where
the spec is silent is log entry 6, and what a count out of range becomes log entry 54. -/
def Obligations.DeviceBoots : Prop :=
  (∀ (s : State) (r : BootReport), ∃ s', exec (.deviceReset r) s = .next s' ∧
      s' = { State.reset with
        boot := s'.boot, mem := s.poolMem, poolMem := s.poolMem, durable := s.durable, agenda := s.agenda, freeCtr := s.freeCtr
        nextId := s.nextId, past := s.past ++ s.extents.values } ∧
      s'.boot.accepted = false ∧ s'.boot.featAccept = 0 ∧ s'.boot.image = s.boot.image ∧ s'.boot.cert = s.boot.cert ∧
      (r.romOk = false → s'.boot.stage = 1 ∧ s'.boot.halt = 1) ∧
      (r.romOk = true → r.imageOk = false ∨ s.boot.imageOk = false → s'.boot.stage = 2 ∧ s'.boot.halt = 2 ∧ s'.boot.recovery = true) ∧
      (r.romOk = true → r.imageOk = true → s.boot.imageOk = true →
        ((∃ i, i ∈ r.ids ∧ i ∉ s.boot.cert ∨ i ∈ s.boot.cert ∧ i ∉ r.ids) → s'.boot.stage = 3 ∧ s'.boot.halt = 3) ∧
        ((∀ i, i ∈ r.ids ↔ i ∈ s.boot.cert) →
          (r.hbmOk = false → s'.boot.stage = 4 ∧ s'.boot.halt = 4) ∧
          (r.hbmOk = true → r.diesOk = false → s'.boot.stage = 5 ∧ s'.boot.halt = 5) ∧
          (r.hbmOk = true → r.diesOk = true → s'.boot.stage = 6 ∧ s'.boot.halt = 0 ∧
            ∀ d n, d < 8 → r.slices[d]? = some n → s'.boot.slices.find? d = some (max 1 (min 64 n)))))) ∧
  (∀ (s : State) (value : BitVec 128) (n : Nat), s.boot.stage = 6 → s.boot.halt = 0 → s.boot.accepted = false →
    ∃ s', exec (.featacceptWrite value n) s = .next s' ∧
      s' = { s with
        boot := { s.boot with
          featAccept := value &&& s.boot.featOffer, accepted := true, stage := 7
          frameN := if (value &&& s.boot.featOffer).getLsbD 4 then max 1 (min 5 n) else 0 }
        worlds := s'.worlds } ∧
      ∀ w, (s'.worlds.find? w).map (·.tdisp) = if w = 0 then some .run else if w ≤ 40 then some .unlocked else none) ∧
  (∀ (s : State) (value : BitVec 128) (n : Nat), s.boot.accepted = true → exec (.featacceptWrite value n) s = .next s) ∧
  (∀ (s : State) (image : Nat) (ok : Bool), (∀ w ∈ s.worlds, w.1 ≠ 0 → w.2.tdisp ≠ .locked ∧ w.2.tdisp ≠ .run) →
    s.boot.halt = 0 ∨ s.boot.recovery = true →
    exec (.firmwareUpdate image ok) s = .next { s with boot := { s.boot with image := image, imageOk := ok } }) ∧
  (∀ (s : State) (image w : Nat) (ok : Bool) (x : World), (w, x) ∈ s.worlds → w ≠ 0 → x.tdisp = .locked ∨ x.tdisp = .run →
    exec (.firmwareUpdate image ok) s = .next s)

/-- A tenant interface goes from CONFIG_UNLOCKED to LOCKED to RUN, and back when it is stopped and its world has come to rest, its frames
left for the sweep, where nobody uses them; a write to what a lock protects enters ERROR, in which its open tasks have the code WORLD_POISON
and its gangs stop, and a request that its state does not list is refused (R198, R199, R201). An unlocked block takes the writes to its
fields (R194 to R201).
The steps of a stop, what overlapping configuration writes do, whose interface must be unlocked for a share and that it waits for what is in
flight to the frame are the model's choice (log entries 26, 27 and 53), and a measurement is kept
as its contents (log entry 17). -/
def Obligations.InterfacesLock : Prop :=
  (∀ (s : State) (w : Nat) (x : World), s.worlds.find? w = some x → w ≠ 0 → x.tdisp = .unlocked →
    x.quota + s.lockedQuota w ≤ Config.aliasTotal → (x.conf = true → s.boot.featAccept.getLsbD 5 = true) →
    ∃ s', exec (.lockInterface w) s = .next s' ∧ s' = { s with worlds := s'.worlds } ∧
      s'.worlds.find? w = some { x with tdisp := .locked, measure := some (s.measured w x) } ∧
      ∀ v, v ≠ w → s'.worlds.find? v = s.worlds.find? v) ∧
  (∀ (s : State) (w : Nat) (x : World) (f : CfgField), s.worlds.find? w = some x → w ≠ 0 →
    let refuses (i : Instr) : Prop := ∃ s', exec i s = .next s' ∧ s' = { s with worlds := s'.worlds } ∧
      ∀ v, s'.worlds.find? v = if v = w then some { x with refused := x.refused + 1 } else s.worlds.find? v
    (Config.aliasTotal < x.quota + s.lockedQuota w ∨ x.tdisp ≠ .unlocked → refuses (.lockInterface w)) ∧
    (x.tdisp ≠ .locked → refuses (.startInterface w)) ∧ (x.tdisp = .unlocked → refuses (.stopInterface w)) ∧
    (x.tdisp = .error → refuses (.configWrite w f) ∧ refuses (.lockedRegisterWrite w))) ∧
  (∀ (s : State) (w : Nat) (x : World), s.worlds.find? w = some x → w ≠ 0 → x.tdisp = .locked →
    ∃ s', exec (.startInterface w) s = .next s' ∧ s' = { s with worlds := s'.worlds } ∧
      s'.worlds.find? w = some { x with tdisp := .run } ∧ ∀ v, v ≠ w → s'.worlds.find? v = s.worlds.find? v) ∧
  (∀ (s : State) (w : Nat) (x : World), s.worlds.find? w = some x → w ≠ 0 → x.tdisp ≠ .unlocked → s.atRest w = false →
    ∃ s', exec (.stopInterface w) s = .next s' ∧ s' = { s with worlds := s'.worlds, gangs := s'.gangs, threads := s'.threads } ∧
      s'.worlds.find? w = some { x with stopping := true } ∧
      (x.stopping = false → s.listsForm = true → FMap.rising none s.gangs = true → WorldHalts s s' w)) ∧
  (∀ (s : State) (w : Nat) (x : World), s.worlds.find? w = some x → w ≠ 0 → x.tdisp ≠ .unlocked → s.atRest w = true →
    (s.poolShown w).any s.lineHeld = false →
    ∃ s', exec (.stopInterface w) s = .next s' ∧ s'.owner = s.owner ∧ (x.tdisp = .locked ∨ s.poolShown w = [] → s'.mem = s.mem) ∧
      (x.tdisp ≠ .locked → s'.poolShown w = [] ∧
        ∀ f, s.owner.find? f = some w → f ∈ s'.unswept ∧ ∀ v, s'.mayUse v (f * 65536) = false) ∧
      (s'.unswept = [] → ∃ u, s'.worlds.find? w =
        some { x with tdisp := .unlocked, stopping := false, measure := none, trigger := false, used := u }) ∧
      (s'.unswept ≠ [] → ∃ u, s'.worlds.find? w = some { x with stopping := true, used := u })) ∧
  (∀ (s : State) (w : Nat) (x : World) (f : CfgField), s.worlds.find? w = some x → w ≠ 0 → x.tdisp = .locked ∨ x.tdisp = .run →
    (∃ s', exec (.configWrite w f) s = .next s' ∧
      s' = { s with worlds := s'.worlds, tasks := s'.tasks, gangs := s'.gangs, threads := s'.threads } ∧
      s'.worlds.find? w = some { x with tdisp := .error } ∧ (∀ v, v ≠ w → s'.worlds.find? v = s.worlds.find? v) ∧ Poisoned s s' w ∧
      (s.listsForm = true → FMap.rising none s.gangs = true → WorldHalts s s' w)) ∧
    exec (.lockedRegisterWrite w) s = exec (.configWrite w f) s) ∧
  (∀ (s : State) (w pa n q base size : Nat) (b : Bool) (v : BitVec 32) (m : BitVec 40) (x : World), s.worlds.find? w = some x →
    x.tdisp = .unlocked →
    let sets (f : CfgField) (y : World) : Prop := ∃ s', exec (.configWrite w f) s = .next s' ∧ s'.worlds.find? w = some y ∧
      s' = { s with worlds := s'.worlds, queues := s'.queues, tlb := s'.tlb, ahead := s'.ahead }
    sets (.root pa) { x with root := pa } ∧ sets (.confidential b) { x with conf := b } ∧
    sets (.scopepol v) { x with devScope := v.getLsbD 0, sysScope := v.getLsbD 1 } ∧
    sets (.quota n) (if n ≤ Config.aliasTotal ∧ (w ≠ 0 ∨ x.used ≤ n) then { x with quota := n } else x) ∧
    ((∀ y ∈ s.worlds, y.1 ≠ 0 → y.1 ≠ w → y.2.mask &&& m = 0) → sets (.partitions m) { x with mask := m, pointer := if x.mask = m then x.pointer else none }) ∧
    ((∀ y ∈ s.worlds, y.1 ≠ w → q ∉ y.2.queues) → 0 < size → size ≤ 16 → q < 4096 → s.openTasks q = 0 → q ∉ x.queues →
      sets (.bindQueue q base size) { x with queues := x.queues ++ [q] })) ∧
  (∀ (s : State) (w f : Nat) (ws : List Nat) (x : World), s.worlds.find? w = some x → x.tdisp = .unlocked →
    (s.frameOwner (f * 65536) ≠ some w → exec (.configWrite w (.share f ws)) s = .next s) ∧
    (s.frameOwner (f * 65536) = some w → s.rangeBusy (f * 65536) (f * 65536 + 65536) = false → ∃ s', exec (.configWrite w (.share f ws)) s = .next s' ∧ Forgotten s' f ∧
      s' = { s with shared := s'.shared, tlb := s'.tlb, ahead := s'.ahead } ∧
      ∀ g, s'.shared.find? g = if g = f then (if ws = [] then none else some ws) else s.shared.find? g))

/-- The privileged registers take the writes of world 0, with what their tables say of values out of range, and no other world's (R3, R203,
R236, R311, R390, R411); retraining a channel changes no value (R411). Frames and Pool extents change owner as firmware assigns and returns
them (R197, R203, R409): a frame is assigned where it holds nothing; no translation to a returned one is left, and nobody uses it before its
sweep; a Pool range is free of what another world left there (log entry 61). A revoked extent is written back, the tasks that held it end
with EXTENT_REVOKED, and writes to it that are not yet performed are lost (R216).
What an ERASECAP out of range is stored as is the model's choice (log entry 33), and where a released extent's bytes stand its reading (log
entry 7); that a range changes hands when nothing in flight touches it is its choice (log entry 53). -/
def Obligations.RegistersAndFrames : Prop :=
  (∀ (s : State) (w q : Nat) (v : BitVec 128) (x : Queue), s.queues.find? q = some x → x.world = w → s.openTasks q = 0 →
    (s.queues.filter fun k => k.1 != q && k.2.domain == v.extractLsb' 96 12).length < 64 →
    ∃ s', exec (.queueSettingsWrite w q v) s = .next s' ∧ s' = { s with queues := s'.queues } ∧
      (∀ p, p ≠ q → s'.queues.find? p = s.queues.find? p) ∧ s'.queues.find? q = some { x with
        domain := v.extractLsb' 96 12, swapthr := v.extractLsb' 64 32
        quantum := if v.extractLsb' 32 32 = 0 then 1 else v.extractLsb' 32 32 }) ∧
  (∀ (s : State) (w q : Nat) (v : BitVec 128), 0 < s.openTasks q → exec (.queueSettingsWrite w q v) s = .next s) ∧
  (∀ (s : State) (v : BitVec 32), ∃ s', exec (.ckptctlWrite 0 v) s = .next s' ∧ s' = { s with regs := s'.regs } ∧
      s'.regs.ckptCtl.getLsbD 0 = v.getLsbD 0 ∧ s'.regs.ckptCtl.extractLsb' 1 7 = 0 ∧
      s'.regs.ckptCtl.extractLsb' 8 2 = (if v.extractLsb' 8 2 = 3 then 0 else v.extractLsb' 8 2) ∧
      s'.regs.ckptCtl.extractLsb' 10 22 = v.extractLsb' 10 22 ∧ s'.regs.ckptSince = s.clock) ∧
  (∀ (s : State) (i : Nat) (v : BitVec 32), ∃ s1 s2 s3, exec (.registerWrite 0 (.erasecap i) v) s = .next s1 ∧
      exec (.registerWrite 0 (.aliasctl i) v) s = .next s2 ∧ exec (.registerWrite 0 .retrain v) s = .next s3 ∧
      s1 = { s with regs := { s.regs with eraseCap := s1.regs.eraseCap } } ∧
      s2 = { s with regs := { s.regs with aliasHot := s2.regs.aliasHot } } ∧ s3 = { s with regs := { s.regs with retrain := s3.regs.retrain } } ∧
      (∀ j, (s1.regs.eraseCap.get 2 j).toNat =
        if j = i then max 1 (min 10 (v.toNat % 16)) else (s.regs.eraseCap.get 2 j).toNat) ∧
      (∀ j, s2.regs.aliasHot.get 16 j = if j = i then v.setWidth 6 else s.regs.aliasHot.get 16 j) ∧
      s3.regs.retrain.toNat = max 1 (min 1000 (v.toNat % 65536))) ∧
  (∀ (s : State) (w c : Nat) (r : RegName) (v : BitVec 32), exec (.registerWrite w .readOnly v) s = .next s ∧
    exec (.retrainTimer c) s = .next s ∧
    (w ≠ 0 → exec (.registerWrite w r v) s = .next s ∧ exec (.ckptctlWrite w v) s = .next s)) ∧
  (∀ (s : State) (w f : Nat) (x : World), s.worlds.find? w = some x → s.owner.get 0 f = 0 → s.frameClean f = true →
    f * 65536 + 65536 ≤ s.localTop →
    ∃ s', exec (.frameAssign w f) s = .next s' ∧ s' = { s with owner := s'.owner } ∧
      ∀ g, s'.owner.get 0 g = if g = f then w else s.owner.get 0 g) ∧
  (∀ (s : State) (w f : Nat), s.owner.get 0 f = w → f * 65536 + 65536 ≤ s.localTop → s.inArea f = false →
    ∃ s', exec (.frameReturn w f) s = .next s' ∧ Forgotten s' f ∧
      s' = { s with shared := s'.shared, unswept := s'.unswept, tlb := s'.tlb, ahead := s'.ahead } ∧
      f ∈ s'.unswept ∧ s'.shared.find? f = none ∧ ∀ v, s'.mayUse v (f * 65536) = false) ∧
  (∀ (s : State) (w base size : Nat) (x : World), s.worlds.find? w = some x → s.boot.frameN ≠ 0 → isPool base = true → 0 < size →
    base % 65536 = 0 → size % 65536 = 0 → (∀ e ∈ s.extents.values, base + size ≤ e.base ∨ e.base + e.size ≤ base) →
    s.rangeBusy base (base + size) = false →
    ∃ s', exec (.extentAdd w base size) s = .next s' ∧ s'.extents.find? s.nextId = some ⟨w, base, size, none⟩ ∧
      (∀ k, k ≠ s.nextId → s'.extents.find? k = s.extents.find? k) ∧
      (∀ e ∈ s.past, e.world ≠ w → ∀ a, max base e.base ≤ a → a < min (base + size) (e.base + e.size) →
        s'.homeByte a = 0 ∧ s'.poolMem.get 0 a = 0) ∧
      ((∀ e ∈ s.past, e.world = w ∨ e.base + e.size ≤ base ∨ base + size ≤ e.base) →
        s' = { s with extents := s'.extents, nextId := s.nextId + 1, past := s'.past })) ∧
  (∀ (s : State) (k grace : Nat) (e : Extent), s.extents.find? k = some e → e.revoking = none → 0 < grace →
    ∃ s', exec (.extentRevoke k grace) s = .next s' ∧ s' = { s with extents := s'.extents } ∧
      s'.extents.find? k = some { e with revoking := some (s.clock + grace) }) ∧
  (∀ (s : State) (k by_ : Nat) (e : Extent), s.extents.find? k = some e → e.revoking = some by_ → s.clock < by_ → s.holders e ≠ [] →
    exec (.graceExpiry k) s = .next s) ∧
  (∀ (s : State) (k grace : Nat) (i : Instr) (e : Extent), s.extents.find? k = some e →
    (i = .extentRevoke k 0 ∧ e.revoking = none) ∨ (i = .graceExpiry k ∧ e.revoking = some grace ∧ (grace ≤ s.clock ∨ s.holders e = [])) →
    s.alias_ = [] → s.reenc = [] →
    ∃ s', exec i s = .next s' ∧ s'.extents.find? k = none ∧ s'.mem = s.mem ∧
      (∀ y ∈ s'.ops, ∃ o, (y.1, o) ∈ s.ops ∧ y.2 = { o with kind := State.OpKind.lose e.base (e.base + e.size) o.kind }) ∧
      (∀ a, s'.poolMem.get 0 a = if e.base ≤ a ∧ a < e.base + e.size then s.homeByte a else s.poolMem.get 0 a) ∧
      (∀ u a, a < 2 ^ 52 → e.base ≤ a → a < e.base + e.size → s'.held? u a = none) ∧
      ∀ t y, s.tasks.find? t = some y → t ∈ s.holders e → y.stage = .leased → y.code = none →
        (s'.tasks.find? t).map (·.code) = some (some .extentRevoked))

/-- A notify write sets TAIL; each slot up to it is taken: one that names no record is skipped and counted, and the record of a good one,
with its capabilities minted, is a task at the tail of the queue (R414, R415). A host access reaches only the frames of its world; a write
clears tags, and firmware mints a loader's fix-ups (R165, R171, R195, R262, R424). A bounce-buffer channel accepts blocks in the order of
their counters, and is aborted by any other (R205).
What is skipped and counted, and that a ring's base is a physical address, are the model's choice (log entries 27 and 28), the order of a
block's checks its reading (log entry 30), and CAUSE of a channel keyed again its choice (log entry 30). -/
def Obligations.HostActs : Prop :=
  (∀ (s : State) (w q : Nat) (tail : BitVec 16) (x : Queue), s.queues.find? q = some x → x.world = w →
    (w = 0 ∨ (s.worlds.find? w).any (·.running) = true) →
    let at_ := x.slotAt 0
    let slot := leNat (s.homeRead at_ 16).1
    let s1 : State := { s.raiseHot (at_ / 128) with queues := s.queues.put q { x with tail := tail, consumed := x.consumed + 1 } }
    ((tail.toNat + 2 ^ 32 - x.consumed.toNat) % 2 ^ x.size = 0 →
      exec (.notifyWrite w q tail) s = .next { s with queues := s.queues.put q { x with tail := tail } }) ∧
    ((tail.toNat + 2 ^ 32 - x.consumed.toNat) % 2 ^ x.size = 1 → s.reenc = [] →
      (s.mayUse w at_ = false ∨ 2 ^ 56 ≤ slot ∨ slot % 16 ≠ 0 ∨ s1.readRecord w slot = none →
        ∃ s', exec (.notifyWrite w q tail) s = .next s' ∧ s' = { s with
          alias_ := s'.alias_, queues := s.queues.put q { x with tail := tail, consumed := x.consumed + 1, denied := x.denied + 1 } }) ∧
      ∀ r0 r, s.mayUse w at_ = true → slot < 2 ^ 56 → slot % 16 = 0 → s1.readRecord w slot = some r0 →
        ((s1.recordHot w slot).mintRecord w slot r0).readRecord w slot = some r →
        ∃ s', exec (.notifyWrite w q tail) s = .next s' ∧ SameRegisters s s' ∧ s'.threads = s.threads ∧ s'.spad = s.spad ∧
          (s'.tasks.find? s.nextId).map (fun k => (k.record, k.world, k.queue, k.cls, k.stage)) = some (r, w, q, r.prio, .queued) ∧
          (s'.queues.find? q).map (fun y => (y.tail, y.consumed, y.denied, y.waiting)) =
            some (tail, x.consumed + 1, x.denied, x.waiting ++ [s.nextId]))) ∧
  (∀ (s : State) (w q : Nat) (tail : BitVec 16) (x : Queue), s.queues.find? q = some x →
    x.world ≠ w ∨ (w ≠ 0 ∧ (s.worlds.find? w).any (·.running) = false) → exec (.notifyWrite w q tail) s = .next s) ∧
  (∀ (s : State) (a : HostAccess), s.hostReach a.fixup a.world a.pa a.data.length = false → exec (.hostAccess a) s = .next s) ∧
  (∀ (s : State) (a : HostAccess), s.hostReach false a.world a.pa a.data.length = true → a.fixup = false → a.write = false →
    ∃ s', exec (.hostAccess a) s = .next s' ∧ s' = { s with alias_ := s'.alias_ }) ∧
  (∀ (s : State) (a : HostAccess), s.hostReach false a.world a.pa a.data.length = true → a.fixup = false → a.write = true → s.alias_ = [] →
    s.rangeHeld a.pa a.data.length = false →
    ∃ s', exec (.hostAccess a) s = .next s' ∧ s' = { s with mem := s'.mem, meta_ := s'.meta_ } ∧
      ∀ pa, s'.homeByte pa = (if a.pa ≤ pa ∧ pa < a.pa + a.data.length then a.data.getD (pa - a.pa) 0 else s.homeByte pa) ∧
        (a.pa ≤ pa → pa < a.pa + a.data.length → (s'.lineMeta (pa / 128)).tags.getLsbD (pa % 128 / 16) = false)) ∧
  (∀ (s : State) (a : HostAccess), s.hostReach true a.world a.pa a.data.length = true → a.fixup = true → a.data.length = 16 → a.pa % 16 = 0 →
    s.alias_ = [] → s.rangeHeld a.pa 16 = false →
    let bits := BitVec.ofNat 128 (leNat (s.homeRead a.pa 16).1)
    let minted : Bool := s.mintable a.world bits && !s.marksCap a.world (leBytes 16 bits.toNat)
    (minted = false → exec (.hostAccess a) s = .next s) ∧
    (minted = true → ∃ s', exec (.hostAccess a) s = .next s' ∧ s' = { s with mem := s'.mem, meta_ := s'.meta_ } ∧
      (s'.lineMeta (a.pa / 128)).tags.getLsbD (a.pa % 128 / 16) = true ∧ s'.homeNat a.pa 16 = (bits &&& ~~~BitVec.twoPow 128 119).toNat ∧
      ∀ pa, pa < a.pa ∨ a.pa + 16 ≤ pa → s'.homeByte pa = s.homeByte pa)) ∧
  (∀ (s : State) (w c : Nat), exec (.channelKeying w c) s = .next
    (if (s.worlds.find? w).any (·.conf) = true ∧ s.boot.featAccept.getLsbD 5 = true
      then { s with chans := s.chans.put (chanKey w c) ⟨0, 1, 0⟩ } else s)) ∧
  (∀ (s : State) (w c : Nat) (b : IdeBlock) (x : Chan), s.chans.find? (chanKey w c) = some x → x.state = 1 →
    s.hostReach false w b.pa b.data.length = false ∨ s.rangeHeld b.pa b.data.length = false →
    (b.ideOk = false → exec (.channelBlock w c b) s = .next { s with chans := s.chans.put (chanKey w c) { x with state := 2, cause := 2 } }) ∧
    (b.ideOk = true → b.ctr ≠ x.last + 1 →
      exec (.channelBlock w c b) s = .next { s with chans := s.chans.put (chanKey w c) { x with state := 2, cause := 1 } }) ∧
    (b.ideOk = true → b.ctr = x.last + 1 → s.hostReach false w b.pa b.data.length = false → exec (.channelBlock w c b) s = .next { s with
      chans := s.chans.put (chanKey w c) (if b.ctr = BitVec.allOnes 64 then ⟨b.ctr, 0, 3⟩ else { x with last := b.ctr }) }) ∧
    (b.ideOk = true → b.ctr = x.last + 1 → s.hostReach false w b.pa b.data.length = true → s.alias_ = [] →
      ∃ s', exec (.channelBlock w c b) s = .next s' ∧
        s'.chans.find? (chanKey w c) = some (if b.ctr = BitVec.allOnes 64 then ⟨b.ctr, 0, 3⟩ else { x with last := b.ctr }) ∧
        ∀ pa, s'.homeByte pa = if b.pa ≤ pa ∧ pa < b.pa + b.data.length then b.data.getD (pa - b.pa) 0 else s.homeByte pa))

/-! ## Errors and checkpoints -/

/-- The intervals of CKPTCTL trigger a checkpoint of a running world while STATE is not 0 (R390). Once the world is quiesced, its threads
and gangs are recorded as they are, and its memory as lines of a snapshot area that read as the world's lines at the recording point,
without a change to what a thread reads (R252, R391); the snapshot is durable when every line has been shipped (R391). A restore quiesces
the world with STATE 3, and returns the memory of the frames that are its own (R197), its leases of such frames, with their Pool pages pinned
in their sets (R203, R218), threads and waiting calls to the durable checkpoint,
whose number it reports, or ends the tasks of a world that has none with WORLD_POISON (R389, R392).
Where the area lies, that a checkpoint waits while world 0 has too few frames for it, what a snapshot holds, and that the state of the
interface does not matter to a restore are the model's choice (log entries 19 and 34). -/
def Obligations.CheckpointsRestore : Prop :=
  (∀ (s : State) (w : Nat) (x : World), s.worlds.find? w = some x → w ≠ 0 → x.running = true →
    let count := (s.regs.ckptCtl.extractLsb' 12 20).toNat
    let st := s.regs.ckptCtl.extractLsb' 10 2
    let mode := s.regs.ckptCtl.extractLsb' 8 2
    let t0 := s.regs.ckptBase.get s.regs.ckptSince w
    let n0 := s.regs.ckptBase.get 0 w
    let fires (i : Instr) : Prop := ∃ s', exec i s = .next s' ∧ s' = { s with regs := s'.regs, worlds := s'.worlds } ∧
      s'.worlds.find? w = some { x with trigger := true } ∧ ∀ v, v ≠ w → s'.worlds.find? v = s.worlds.find? v
    (st ≠ 0 → mode = 1 → count ≠ 0 → t0 + count * 2 ^ 24 ≤ s.clock → fires (.checkpointTimer w)) ∧
    (st ≠ 0 → mode = 2 → count ≠ 0 → n0 + count ≤ x.completions → fires (.checkpointStepCount w)) ∧
    (st = 0 ∨ mode ≠ 1 ∨ count = 0 ∨ s.clock < t0 + count * 2 ^ 24 → exec (.checkpointTimer w) s = .next s) ∧
    (st = 0 ∨ mode ≠ 2 ∨ count = 0 ∨ x.completions < n0 + count → exec (.checkpointStepCount w) s = .next s) ∧
    (x.trigger = false → fires (.checkpoint w)) ∧
    (x.trigger = true → s.snaps.find? w = none → s.quiesced w = true → s.alias_ = [] →
      let s1 := s.pushWorld w
      (s1.areaFrames (s1.areaNeed w)).length = s1.areaNeed w →
      ∃ s' p, exec (.checkpoint w) s = .next s' ∧ SameRegisters s s' ∧ s'.threads = s.threads ∧ s'.gangs = s.gangs ∧ s'.spad = s.spad ∧
        (s'.worlds.find? w).map (·.trigger) = some false ∧ s'.snaps.find? w = some p ∧ p.shipped = [] ∧
        p.frames = s1.areaFrames (s1.areaNeed w) ∧ (∀ xa ∈ p.todo, xa.2 / 512 ∈ p.frames) ∧
        (∀ x, x / 512 ∈ s1.snapFrames w ∨ x ∈ s1.snapLines w (s1.snapFrames w) → ∃ a, (x, a) ∈ p.todo) ∧
        (∀ a, a / 65536 ∉ p.frames → s'.homeByte a = s1.homeByte a) ∧
        (∀ xa ∈ p.todo, ∀ b, b < 128 → s'.aliasRead (xa.2 * 128 + b) = s1.homeByte (xa.1 * 128 + b)) ∧
        (∀ t, s.gangWorld (gangOf t) = w → (s.gangs.find? (gangOf t)).isSome = true → p.threads.find? t = s.threads.find? t) ∧
        ∀ g, s.gangWorld g = w → p.gangs.find? g = s.gangs.find? g)) ∧
  (∀ (s : State) (w : Nat) (p : Snapshot), s.snaps.find? w = some p →
    exec (.snapshotDurable w) s = .next
      (if p.todo = [] then { s.dropArea w with durable := s.durable.put w p } else s)) ∧
  (∀ (s : State) (w : Nat) (x : World) (p : Snapshot), s.worlds.find? w = some x → w ≠ 0 → x.restoring = false →
    s.durable.find? w = some p →
    ∃ s', exec (.restore w) s = .next s' ∧ s' = { s with regs := s'.regs, worlds := s'.worlds } ∧
      s'.regs.ckptCtl.extractLsb' 10 2 = 3 ∧ s'.worlds.find? w = some { x with restoring := true }) ∧
  (∀ (s : State) (w : Nat) (x : World) (p : Snapshot), s.worlds.find? w = some x → w ≠ 0 → x.restoring = true → s.quiesced w = true →
    s.durable.find? w = some p → s.alias_ = [] → s.reenc = [] → p.revoked = [] →
    (∀ q, s.snaps.find? w = some q → ∀ f ∈ q.frames, s.mayUse w (f * 65536) = false) →
    let pages := s.backPins w p
    (s.unpinWorld w).setsFit pages.eraseDups = true →
    (∀ q ∈ pages, (s.frames.filter fun kf => s.poolSet kf.1 == s.poolSet q).length + s.mates pages q ≤ 16) →
    ∃ s', exec (.restore w) s = .next s' ∧
      (s'.worlds.find? w).map (fun y => (y.restoring, y.restored)) = some (false, some p.number) ∧
      (∀ a, s'.homeByte a = if a / 128 ∈ p.shipped ∧ s.mayUse w (a / 128 * 128) = true then p.mem.get 0 a else s.homeByte a) ∧
      s'.regs.ckptCtl = s.regs.ckptCtl ∧
      (FMap.rising none p.tasks = true → ∀ t k, p.tasks.find? t = some k →
        (s'.tasks.find? t).map (·.lease) = some (k.lease.filter fun b => s.mayUse w (b.frame * 65536))) ∧
      (∀ q ∈ pages, ∃ f, s'.frames.find? q = some f ∧ 0 < f.pins) ∧
      (FMap.rising none p.batches = true → ∀ id b, p.batches.find? id = some b → s'.batches.find? id = some { b with bound := none }) ∧
      (FMap.rising none p.fetches = true → ∀ id f, p.fetches.find? id = some f → s'.fetches.find? id = some f) ∧
      (FMap.rising none p.threads = true → ∀ t h, p.threads.find? t = some h → s'.thread t = h) ∧
      (FMap.rising none p.queues = true → ∀ q y, p.queues.find? q = some y → (s'.queues.find? q).map (·.deficit) = some 0)) ∧
  (∀ (s : State) (w : Nat) (x : World), s.worlds.find? w = some x → w ≠ 0 → x.restoring = true → s.quiesced w = true →
    s.durable.find? w = none →
    ∃ s', exec (.restore w) s = .next s' ∧ s'.mem = s.mem ∧ s'.worlds.find? w = some { x with restoring := false } ∧
      ∀ t k, s.tasks.find? t = some k → k.world = w → k.stage ≠ .completed → k.code = none →
        (s'.tasks.find? t).map (·.code) = some (some .worldPoison))

/-- An uncorrectable error poisons what it strikes, a line, a granule, a register row, a ring tile or a port entry, or ends the task that
depends on a lost translation, and is reported in a fault log; a threshold warning is reported and, with WARN, triggers a checkpoint of the
running worlds; a corrected error is counted alone; a poisoned service line sends its world to ERROR (R387 to R390, R403).
The die and index of a report are the model's choice (log entry 18), the dead lanes of a poisoned row and the counting of corrected errors
its reading (log entries 31 and 32). -/
def Obligations.ErrorsReported : Prop :=
  (∀ (s : State) (site : ErrSite), ∃ s', exec (.uncorrectableError site) s = .next s' ∧ s'.mem = s.mem ∧ s'.poolMem = s.poolMem ∧
      (∀ pa, site = .line pa → (s'.lineMeta (pa / 128)).poison = true) ∧
      ((∀ th ∈ s.threads, th.2.stat = .halted → s.goesOn th.1 = true) →
        (∀ g la, site = .scratch g la → s'.spadPoison.get false (spadKey g la / 16) = true) ∧
        (∀ g q n, site = .ringTile g q n → (s'.tiles.get Tile.clear (tileKey g q n)).poison = true) ∧
        (∀ c v r, site = .row c v → s.rows.find? (c * 32 + v) = some r →
          s'.rows.find? (c * 32 + v) = some { r with fmt := 15, scl := 0 }) ∧
        (∀ t dir e es, site = .portEntry t dir → s.ports.get [] (t * 4 + dir.toNat) = e :: es →
          s'.ports.get [] (t * 4 + dir.toNat) = { e with fmt := 15, scl := 0 } :: es)) ∧
      (∀ t k, site = .translation t ∨ site = .frameTag t → s.tasks.find? t = some k → k.code = none → k.stage ≠ .completed →
        (s'.tasks.find? t).map (·.code) = some (some .lease)) ∧
      let r := siteReport s site
      (s'.regs.faultLog.get [] r.1).getLast? = some r.2 ∧
      (s'.regs.faultLog.get [] r.1).length = if 256 ≤ (s.regs.faultLog.get [] r.1).length
        then (s.regs.faultLog.get [] r.1).length else (s.regs.faultLog.get [] r.1).length + 1) ∧
  (∀ (s : State) (u : UnitKind) (i : Nat), (∀ th ∈ s.threads, th.2.stat = .halted → s.goesOn th.1 = true) →
    ∃ s', exec (.errorThresholdWarning u i) s = .next s' ∧ KeepsMemory s s' ∧ KeepsRegisters s s' ∧
      (s'.regs.faultLog.get [] (unitDie u i)).getLast? = some (State.faultWord (UnitKind.num u) 2 0 i) ∧
      ∀ w x, s.worlds.find? w = some x → (s'.worlds.find? w).map (·.trigger) = some
        (x.trigger || (s.regs.ckptCtl.getLsbD 0 && (u == .hbm || u == .die || u == .crossing) && w != 0 && x.running))) ∧
  (∀ (s : State) (u : UnitKind) (i : Nat), ∃ s', exec (.correctableError u i) s = .next s' ∧
      s' = { s with regs := { s.regs with corrected := s'.regs.corrected } } ∧
      let k := UnitKind.num u * 2 ^ 17 + i % 2 ^ 17
      ∀ j, s'.regs.corrected.get 0 j = if j = k then s.regs.corrected.get 0 j + 1 else s.regs.corrected.get 0 j) ∧
  (∀ (s : State) (w : Nat) (x : World), s.worlds.find? w = some x → w ≠ 0 → x.tdisp = .run →
    ∃ s', exec (.serviceLinePoison w) s = .next s' ∧
      s' = { s with worlds := s'.worlds, tasks := s'.tasks, gangs := s'.gangs, threads := s'.threads } ∧
      s'.worlds.find? w = some { x with tdisp := .error } ∧ (∀ v, v ≠ w → s'.worlds.find? v = s.worlds.find? v) ∧ Poisoned s s' w ∧
      (s.listsForm = true → FMap.rising none s.gangs = true → WorldHalts s s' w)) ∧
  (∀ (s : State), ∃ s', exec (.serviceLinePoison 0) s = .next s' ∧ s' = { s with worlds := s'.worlds, regs := s'.regs } ∧
      ((∃ w x, s.worlds.find? w = some x ∧ w ≠ 0 ∧ (s.durable.find? w).isSome = true) → s'.regs.ckptCtl.extractLsb' 10 2 = 3) ∧
      ∀ w x, s.worlds.find? w = some x → s'.worlds.find? w = some (if w = 0 then x else { x with restoring := true }))

/-- A derivation narrows, R186: `cprm` drops permissions alone, `cadd` moves the cursor alone, and `cbnd` gives a region that begins at the
parent's cursor, ends within the parent's region and holds the bytes asked for, exactly those up to 1,023 (R168, R169). -/
def Obligations.CapDerivationsNarrow : Prop :=
  ∀ (p : Cap),
    (∀ m : BitVec 8, let q : Cap := ⟨p.withPerm (p.perm &&& m)⟩
      q.kind = p.kind ∧ q.base = p.base ∧ q.length = p.length ∧ q.offset = p.offset ∧ q.perm = p.perm &&& m ∧ (p.sound = true → q.sound = true)) ∧
    (∀ o, o < 2 ^ 40 → let q : Cap := ⟨p.withOffset o⟩
      q.kind = p.kind ∧ q.base = p.base ∧ q.length = p.length ∧ q.perm = p.perm ∧ q.offset = o ∧ (p.sound = true → q.sound = true)) ∧
    ∀ n : BitVec 32, let r := roundLen n.toNat
      let q : Cap := ⟨p.narrowed r.1 r.2⟩
      p.cursor < 2 ^ 56 → p.cursor + r.1 * 2 ^ r.2 ≤ p.top →
      q.kind = p.kind ∧ q.perm = p.perm ∧ q.base = p.cursor ∧ q.offset = 0 ∧ p.base ≤ q.base ∧ q.top ≤ p.top ∧
      n.toNat ≤ q.length ∧ (n.toNat ≤ 1023 → q.length = n.toNat) ∧ (p.sound = true → q.sound = true)
end

