-- ==== Sys2Proof/Laws/FMap.lean ====
section
/-! SUPPORT. Reads after writes in finite maps, and that every map operation keeps the canonical form. -/

namespace Sys2Proof.Machine.FMap

variable {α : Type}

theorem find?_put (m : FMap α) (k j : Nat) (v : α) : (m.put k v).find? j = if j = k then some v else m.find? j := by
  induction m with
  | nil => simp only [put, find?, eq_comm]
  | cons a m ih =>
    obtain ⟨k', v'⟩ := a
    rcases Nat.lt_trichotomy k k' with h | h | h
    · by_cases hj : j = k
      · subst hj; simp [put, find?, h.ne', h]
      · have hj' : ¬k = j := fun e => hj e.symm
        simp [put, find?, h.ne', h, hj, hj']
    · subst h
      by_cases hj : j = k
      · subst hj; simp [put, find?]
      · have hj' : ¬k = j := fun e => hj e.symm
        simp [put, find?, hj, hj']
    · by_cases hj : j = k
      · subst hj; simp [put, find?, h.ne, h.not_gt, ih]
      · simp [put, find?, h.ne, h.not_gt, ih, hj]

@[simp] theorem find?_put_self (m : FMap α) (k : Nat) (v : α) : (m.put k v).find? k = some v := by simp [find?_put]

theorem find?_erase (m : FMap α) (k j : Nat) : (m.erase k).find? j = if j = k then none else m.find? j := by
  induction m with
  | nil => simp [erase, find?]
  | cons a m ih =>
    obtain ⟨k', v'⟩ := a
    by_cases h : k' = k
    · subst h
      by_cases hj : j = k'
      · subst hj; simp [erase, ih]
      · have hj' : ¬k' = j := fun e => hj e.symm
        simp [erase, find?, ih, hj, hj']
    · by_cases hj : k' = j
      · subst hj; simp [erase, find?, h]
      · simp [erase, find?, h, ih, hj]

theorem get_put (d : α) (m : FMap α) (k j : Nat) (v : α) : (m.put k v).get d j = if j = k then v else m.get d j := by
  simp only [get, find?_put]; split <;> rfl

theorem get_erase (d : α) (m : FMap α) (k j : Nat) : (m.erase k).get d j = if j = k then d else m.get d j := by
  simp only [get, find?_erase]; split <;> rfl

/-- A read after a write of a map whose unlisted keys read as `d`. -/
theorem get_set [DecidableEq α] (d : α) (m : FMap α) (k j : Nat) (v : α) :
    (m.set d k v).get d j = if j = k then v else m.get d j := by
  unfold set; split_ifs with h1 h2 <;> simp_all [get_put, get_erase]

theorem find?_adjust (m : FMap α) (k j : Nat) (f : α → α) :
    (m.adjust k f).find? j = if j = k then (m.find? k).map f else m.find? j := by
  unfold adjust
  cases h : m.find? k with
  | none => simp; intro hj; rw [hj, h]
  | some v => simp [find?_put]

theorem find?_mapVals (m : FMap α) (f : Nat → α → α) (j : Nat) : (m.mapVals f).find? j = (m.find? j).map (f j) := by
  induction m with
  | nil => rfl
  | cons a m ih =>
    obtain ⟨k', v'⟩ := a
    simp only [mapVals, find?]
    split_ifs with h <;> simp_all

/-! ## The canonical form -/

/-- Rising from a bound, as a statement about every key and the tail. -/
theorem rising_cons (b : Option Nat) (k : Nat) (v : α) (m : FMap α) :
    rising b ((k, v) :: m) = true ↔ (∀ x ∈ b, x < k) ∧ rising (some k) m = true := by
  cases b <;> simp [rising]

theorem rising_mono {b c : Option Nat} {m : FMap α} (h : rising b m = true) (hc : ∀ x ∈ c, ∃ y ∈ b, x ≤ y) :
    rising c m = true := by
  cases m with
  | nil => rfl
  | cons a m =>
    obtain ⟨k, v⟩ := a
    rw [rising_cons] at *
    refine ⟨fun x hx => ?_, h.2⟩
    obtain ⟨y, hy, hxy⟩ := hc x hx
    exact lt_of_le_of_lt hxy (h.1 y hy)

theorem rising_none {b : Option Nat} {m : FMap α} (h : rising b m = true) : rising none m = true :=
  rising_mono h (by simp)

/-- Every key of a rising map is above its bound. -/
theorem rising_lt {b : Nat} {m : FMap α} (h : rising (some b) m = true) : ∀ kv ∈ m, b < kv.1 := by
  induction m generalizing b with
  | nil => simp
  | cons a m ih =>
    obtain ⟨k, v⟩ := a
    rw [rising_cons] at h
    have hk : b < k := h.1 b rfl
    intro kv hm
    rcases List.mem_cons.mp hm with rfl | hm
    · exact hk
    · exact lt_trans hk (ih h.2 kv hm)

theorem rising_some {b : Nat} {m : FMap α} (h : rising none m = true) (hb : ∀ kv ∈ m, b < kv.1) :
    rising (some b) m = true := by
  cases m with
  | nil => rfl
  | cons a m =>
    obtain ⟨k, v⟩ := a
    rw [rising_cons] at *
    exact ⟨by simpa using hb (k, v) (by simp), h.2⟩

theorem rising_put {b : Option Nat} {m : FMap α} (k : Nat) (v : α) (h : rising b m = true) (hb : ∀ x ∈ b, x < k) :
    rising b (m.put k v) = true := by
  induction m generalizing b with
  | nil => simp only [put, rising_cons]; exact ⟨hb, rfl⟩
  | cons a m ih =>
    obtain ⟨k', v'⟩ := a
    rw [rising_cons] at h
    simp only [put]
    split_ifs with h1 h2
    · subst h1; exact (rising_cons _ _ _ _).2 h
    · exact (rising_cons _ _ _ _).2 ⟨hb, (rising_cons _ _ _ _).2 ⟨by simpa using h2, h.2⟩⟩
    · exact (rising_cons _ _ _ _).2 ⟨h.1, ih h.2 (by simp; omega)⟩

theorem rising_filter {b : Option Nat} {m : FMap α} (p : Nat × α → Bool) (h : rising b m = true) :
    rising b (m.filter p) = true := by
  induction m generalizing b with
  | nil => exact h
  | cons a m ih =>
    obtain ⟨k, v⟩ := a
    rw [rising_cons] at h
    rw [List.filter_cons]
    split_ifs
    · exact (rising_cons _ _ _ _).2 ⟨h.1, ih h.2⟩
    · exact ih (rising_mono h.2 fun x hx => ⟨k, rfl, le_of_lt (h.1 x hx)⟩)

theorem erase_eq (m : FMap α) (k : Nat) : m.erase k = m.filter fun kv => decide (kv.1 ≠ k) := by
  induction m with
  | nil => rfl
  | cons a m ih =>
    obtain ⟨k', v'⟩ := a
    simp only [erase, List.filter_cons]
    split_ifs <;> simp_all

theorem mem_put {m : FMap α} {k : Nat} {v : α} {kv : Nat × α} (h : kv ∈ m.put k v) : kv = (k, v) ∨ kv ∈ m := by
  induction m with
  | nil => simp_all [put]
  | cons a m ih =>
    obtain ⟨k', v'⟩ := a
    simp only [put] at h
    split_ifs at h <;> simp_all <;> tauto

theorem rising_append {b : Option Nat} {m n : FMap α} (c : Nat) (hm : rising b m = true) (hn : rising none n = true)
    (h1 : ∀ kv ∈ m, kv.1 < c) (h2 : ∀ kv ∈ n, c ≤ kv.1) (hb : ∀ x ∈ b, x < c) : rising b (m ++ n) = true := by
  induction m generalizing b with
  | nil =>
    cases b with
    | none => exact hn
    | some x => exact rising_some hn fun kv h => lt_of_lt_of_le (hb x rfl) (h2 kv h)
  | cons a m ih =>
    obtain ⟨k, v⟩ := a
    rw [rising_cons] at hm
    exact (rising_cons _ _ _ _).2 ⟨hm.1, ih hm.2 (fun kv h => h1 kv (by simp [h])) (by
      intro x hx; obtain rfl := Option.some.inj hx; exact h1 (k, v) (by simp))⟩

section Form

variable [DecidableEq α] {d : α}

theorem wf_iff {m : FMap α} : wf d m = true ↔ rising none m = true ∧ ∀ kv ∈ m, kv.2 ≠ d := by
  simp [wf]

theorem wf_nil : wf d ([] : FMap α) = true := rfl

theorem wf_filter {m : FMap α} (p : Nat × α → Bool) (h : wf d m = true) : wf d (m.filter p) = true := by
  rw [wf_iff] at *
  exact ⟨rising_filter p h.1, fun kv hk => h.2 kv (List.mem_of_mem_filter hk)⟩

theorem wf_erase {m : FMap α} (k : Nat) (h : wf d m = true) : wf d (m.erase k) = true := by
  rw [erase_eq]; exact wf_filter _ h

theorem wf_put {m : FMap α} (k : Nat) {v : α} (h : wf d m = true) (hv : v ≠ d) : wf d (m.put k v) = true := by
  rw [wf_iff] at *
  refine ⟨rising_put k v h.1 (by simp), fun kv hk => ?_⟩
  rcases mem_put hk with rfl | hk
  · exact hv
  · exact h.2 kv hk

theorem wf_set {m : FMap α} (k : Nat) (v : α) (h : wf d m = true) : wf d (m.set d k v) = true := by
  unfold set; split_ifs with hv
  · exact wf_erase k h
  · exact wf_put k h hv

theorem wf_keep {m : FMap α} (p : Nat → α → Bool) (h : wf d m = true) : wf d (m.keep p) = true := wf_filter _ h

theorem wf_slice {m : FMap α} (lo hi : Nat) (h : wf d m = true) : wf d (m.slice lo hi) = true := wf_filter _ h

/-- A range replaced by listings of its own keys, `lo ≤ hi`. -/
theorem wf_splice {m new : FMap α} {lo hi : Nat} (hlo : lo ≤ hi) (h : wf d m = true) (hn : wf d new = true)
    (hin : ∀ kv ∈ new, lo ≤ kv.1 ∧ kv.1 < hi) : wf d (m.splice lo hi new) = true := by
  rw [wf_iff] at *
  unfold splice
  refine ⟨?_, ?_⟩
  · refine rising_append hi ?_ (rising_filter _ h.1) ?_ (by simp) (by simp)
    · exact rising_append lo (rising_filter _ h.1) hn.1 (by simp) (fun kv hk => (hin kv hk).1) (by simp)
    · intro kv hk
      rcases List.mem_append.mp hk with hk | hk
      · have := (List.mem_filter.mp hk).2; simp at this; omega
      · exact (hin kv hk).2
  · intro kv hk
    rcases List.mem_append.mp hk with hk | hk
    · rcases List.mem_append.mp hk with hk | hk
      · exact h.2 kv (List.mem_of_mem_filter hk)
      · exact hn.2 kv hk
    · exact h.2 kv (List.mem_of_mem_filter hk)

omit [DecidableEq α] in
theorem mem_slice {m : FMap α} {lo hi : Nat} {kv : Nat × α} (h : kv ∈ m.slice lo hi) : lo ≤ kv.1 ∧ kv.1 < hi := by
  have := (List.mem_filter.mp h).2
  simpa using this

end Form

end Sys2Proof.Machine.FMap
end

