-- ==== Sys2Proof/Laws/State.lean ====
section
/-! SUPPORT. What each named update of the state leaves as it was: one lemma per field per update. -/

namespace Sys2Proof.Machine

namespace State

variable (s : State)

@[simp] theorem updThread_boot (t : Nat) (f : Thread → Thread) : (s.updThread t f).boot = s.boot := rfl
@[simp] theorem updThread_regs (t : Nat) (f : Thread → Thread) : (s.updThread t f).regs = s.regs := rfl
@[simp] theorem updThread_clock (t : Nat) (f : Thread → Thread) : (s.updThread t f).clock = s.clock := rfl
@[simp] theorem updThread_mem (t : Nat) (f : Thread → Thread) : (s.updThread t f).mem = s.mem := rfl
@[simp] theorem updThread_poolMem (t : Nat) (f : Thread → Thread) : (s.updThread t f).poolMem = s.poolMem := rfl
@[simp] theorem updThread_meta (t : Nat) (f : Thread → Thread) : (s.updThread t f).meta_ = s.meta_ := rfl
@[simp] theorem updThread_cbytes (t : Nat) (f : Thread → Thread) : (s.updThread t f).cbytes = s.cbytes := rfl
@[simp] theorem updThread_cmeta (t : Nat) (f : Thread → Thread) : (s.updThread t f).cmeta = s.cmeta := rfl
@[simp] theorem updThread_owner (t : Nat) (f : Thread → Thread) : (s.updThread t f).owner = s.owner := rfl
@[simp] theorem updThread_shared (t : Nat) (f : Thread → Thread) : (s.updThread t f).shared = s.shared := rfl
@[simp] theorem updThread_unswept (t : Nat) (f : Thread → Thread) : (s.updThread t f).unswept = s.unswept := rfl
@[simp] theorem updThread_frames (t : Nat) (f : Thread → Thread) : (s.updThread t f).frames = s.frames := rfl
@[simp] theorem updThread_poolCtr (t : Nat) (f : Thread → Thread) : (s.updThread t f).poolCtr = s.poolCtr := rfl
@[simp] theorem updThread_reenc (t : Nat) (f : Thread → Thread) : (s.updThread t f).reenc = s.reenc := rfl
@[simp] theorem updThread_rewaits (t : Nat) (f : Thread → Thread) : (s.updThread t f).rewaits = s.rewaits := rfl
@[simp] theorem updThread_keyVer (t : Nat) (f : Thread → Thread) : (s.updThread t f).keyVer = s.keyVer := rfl
@[simp] theorem updThread_extents (t : Nat) (f : Thread → Thread) : (s.updThread t f).extents = s.extents := rfl
@[simp] theorem updThread_past (t : Nat) (f : Thread → Thread) : (s.updThread t f).past = s.past := rfl
@[simp] theorem updThread_tlb (t : Nat) (f : Thread → Thread) : (s.updThread t f).tlb = s.tlb := rfl
@[simp] theorem updThread_ahead (t : Nat) (f : Thread → Thread) : (s.updThread t f).ahead = s.ahead := rfl
@[simp] theorem updThread_alias (t : Nat) (f : Thread → Thread) : (s.updThread t f).alias_ = s.alias_ := rfl
@[simp] theorem updThread_spad (t : Nat) (f : Thread → Thread) : (s.updThread t f).spad = s.spad := rfl
@[simp] theorem updThread_spadTag (t : Nat) (f : Thread → Thread) : (s.updThread t f).spadTag = s.spadTag := rfl
@[simp] theorem updThread_spadPoison (t : Nat) (f : Thread → Thread) : (s.updThread t f).spadPoison = s.spadPoison := rfl
@[simp] theorem updThread_ops (t : Nat) (f : Thread → Thread) : (s.updThread t f).ops = s.ops := rfl
@[simp] theorem updThread_accs (t : Nat) (f : Thread → Thread) : (s.updThread t f).accs = s.accs := rfl
@[simp] theorem updThread_crews (t : Nat) (f : Thread → Thread) : (s.updThread t f).crews = s.crews := rfl
@[simp] theorem updThread_rows (t : Nat) (f : Thread → Thread) : (s.updThread t f).rows = s.rows := rfl
@[simp] theorem updThread_valid (t : Nat) (f : Thread → Thread) : (s.updThread t f).valid = s.valid := rfl
@[simp] theorem updThread_slots (t : Nat) (f : Thread → Thread) : (s.updThread t f).slots = s.slots := rfl
@[simp] theorem updThread_yielded (t : Nat) (f : Thread → Thread) : (s.updThread t f).yielded = s.yielded := rfl
@[simp] theorem updThread_ports (t : Nat) (f : Thread → Thread) : (s.updThread t f).ports = s.ports := rfl
@[simp] theorem updThread_flights (t : Nat) (f : Thread → Thread) : (s.updThread t f).flights = s.flights := rfl
@[simp] theorem updThread_gangs (t : Nat) (f : Thread → Thread) : (s.updThread t f).gangs = s.gangs := rfl
@[simp] theorem updThread_ringH (t : Nat) (f : Thread → Thread) : (s.updThread t f).ringH = s.ringH := rfl
@[simp] theorem updThread_ringT (t : Nat) (f : Thread → Thread) : (s.updThread t f).ringT = s.ringT := rfl
@[simp] theorem updThread_ring (t : Nat) (f : Thread → Thread) : (s.updThread t f).ring = s.ring := rfl
@[simp] theorem updThread_tiles (t : Nat) (f : Thread → Thread) : (s.updThread t f).tiles = s.tiles := rfl
@[simp] theorem updThread_epi (t : Nat) (f : Thread → Thread) : (s.updThread t f).epi = s.epi := rfl
@[simp] theorem updThread_reqs (t : Nat) (f : Thread → Thread) : (s.updThread t f).reqs = s.reqs := rfl
@[simp] theorem updThread_active (t : Nat) (f : Thread → Thread) : (s.updThread t f).active = s.active := rfl
@[simp] theorem updThread_shadow (t : Nat) (f : Thread → Thread) : (s.updThread t f).shadow = s.shadow := rfl
@[simp] theorem updThread_resv (t : Nat) (f : Thread → Thread) : (s.updThread t f).resv = s.resv := rfl
@[simp] theorem updThread_tasks (t : Nat) (f : Thread → Thread) : (s.updThread t f).tasks = s.tasks := rfl
@[simp] theorem updThread_queues (t : Nat) (f : Thread → Thread) : (s.updThread t f).queues = s.queues := rfl
@[simp] theorem updThread_worlds (t : Nat) (f : Thread → Thread) : (s.updThread t f).worlds = s.worlds := rfl
@[simp] theorem updThread_sweeps (t : Nat) (f : Thread → Thread) : (s.updThread t f).sweeps = s.sweeps := rfl
@[simp] theorem updThread_batches (t : Nat) (f : Thread → Thread) : (s.updThread t f).batches = s.batches := rfl
@[simp] theorem updThread_fetches (t : Nat) (f : Thread → Thread) : (s.updThread t f).fetches = s.fetches := rfl
@[simp] theorem updThread_chans (t : Nat) (f : Thread → Thread) : (s.updThread t f).chans = s.chans := rfl
@[simp] theorem updThread_fwds (t : Nat) (f : Thread → Thread) : (s.updThread t f).fwds = s.fwds := rfl
@[simp] theorem updThread_snaps (t : Nat) (f : Thread → Thread) : (s.updThread t f).snaps = s.snaps := rfl
@[simp] theorem updThread_durable (t : Nat) (f : Thread → Thread) : (s.updThread t f).durable = s.durable := rfl
@[simp] theorem updThread_agenda (t : Nat) (f : Thread → Thread) : (s.updThread t f).agenda = s.agenda := rfl
@[simp] theorem updThread_cur (t : Nat) (f : Thread → Thread) : (s.updThread t f).cur = s.cur := rfl
@[simp] theorem updThread_freeCtr (t : Nat) (f : Thread → Thread) : (s.updThread t f).freeCtr = s.freeCtr := rfl
@[simp] theorem updThread_nextId (t : Nat) (f : Thread → Thread) : (s.updThread t f).nextId = s.nextId := rfl

@[simp] theorem updGang_boot (g : Nat) (f : Gang → Gang) : (s.updGang g f).boot = s.boot := rfl
@[simp] theorem updGang_regs (g : Nat) (f : Gang → Gang) : (s.updGang g f).regs = s.regs := rfl
@[simp] theorem updGang_clock (g : Nat) (f : Gang → Gang) : (s.updGang g f).clock = s.clock := rfl
@[simp] theorem updGang_mem (g : Nat) (f : Gang → Gang) : (s.updGang g f).mem = s.mem := rfl
@[simp] theorem updGang_poolMem (g : Nat) (f : Gang → Gang) : (s.updGang g f).poolMem = s.poolMem := rfl
@[simp] theorem updGang_meta (g : Nat) (f : Gang → Gang) : (s.updGang g f).meta_ = s.meta_ := rfl
@[simp] theorem updGang_cbytes (g : Nat) (f : Gang → Gang) : (s.updGang g f).cbytes = s.cbytes := rfl
@[simp] theorem updGang_cmeta (g : Nat) (f : Gang → Gang) : (s.updGang g f).cmeta = s.cmeta := rfl
@[simp] theorem updGang_owner (g : Nat) (f : Gang → Gang) : (s.updGang g f).owner = s.owner := rfl
@[simp] theorem updGang_shared (g : Nat) (f : Gang → Gang) : (s.updGang g f).shared = s.shared := rfl
@[simp] theorem updGang_unswept (g : Nat) (f : Gang → Gang) : (s.updGang g f).unswept = s.unswept := rfl
@[simp] theorem updGang_frames (g : Nat) (f : Gang → Gang) : (s.updGang g f).frames = s.frames := rfl
@[simp] theorem updGang_poolCtr (g : Nat) (f : Gang → Gang) : (s.updGang g f).poolCtr = s.poolCtr := rfl
@[simp] theorem updGang_reenc (g : Nat) (f : Gang → Gang) : (s.updGang g f).reenc = s.reenc := rfl
@[simp] theorem updGang_rewaits (g : Nat) (f : Gang → Gang) : (s.updGang g f).rewaits = s.rewaits := rfl
@[simp] theorem updGang_keyVer (g : Nat) (f : Gang → Gang) : (s.updGang g f).keyVer = s.keyVer := rfl
@[simp] theorem updGang_extents (g : Nat) (f : Gang → Gang) : (s.updGang g f).extents = s.extents := rfl
@[simp] theorem updGang_past (g : Nat) (f : Gang → Gang) : (s.updGang g f).past = s.past := rfl
@[simp] theorem updGang_tlb (g : Nat) (f : Gang → Gang) : (s.updGang g f).tlb = s.tlb := rfl
@[simp] theorem updGang_ahead (g : Nat) (f : Gang → Gang) : (s.updGang g f).ahead = s.ahead := rfl
@[simp] theorem updGang_alias (g : Nat) (f : Gang → Gang) : (s.updGang g f).alias_ = s.alias_ := rfl
@[simp] theorem updGang_spad (g : Nat) (f : Gang → Gang) : (s.updGang g f).spad = s.spad := rfl
@[simp] theorem updGang_spadTag (g : Nat) (f : Gang → Gang) : (s.updGang g f).spadTag = s.spadTag := rfl
@[simp] theorem updGang_spadPoison (g : Nat) (f : Gang → Gang) : (s.updGang g f).spadPoison = s.spadPoison := rfl
@[simp] theorem updGang_ops (g : Nat) (f : Gang → Gang) : (s.updGang g f).ops = s.ops := rfl
@[simp] theorem updGang_accs (g : Nat) (f : Gang → Gang) : (s.updGang g f).accs = s.accs := rfl
@[simp] theorem updGang_crews (g : Nat) (f : Gang → Gang) : (s.updGang g f).crews = s.crews := rfl
@[simp] theorem updGang_rows (g : Nat) (f : Gang → Gang) : (s.updGang g f).rows = s.rows := rfl
@[simp] theorem updGang_valid (g : Nat) (f : Gang → Gang) : (s.updGang g f).valid = s.valid := rfl
@[simp] theorem updGang_threads (g : Nat) (f : Gang → Gang) : (s.updGang g f).threads = s.threads := rfl
@[simp] theorem updGang_slots (g : Nat) (f : Gang → Gang) : (s.updGang g f).slots = s.slots := rfl
@[simp] theorem updGang_yielded (g : Nat) (f : Gang → Gang) : (s.updGang g f).yielded = s.yielded := rfl
@[simp] theorem updGang_ports (g : Nat) (f : Gang → Gang) : (s.updGang g f).ports = s.ports := rfl
@[simp] theorem updGang_flights (g : Nat) (f : Gang → Gang) : (s.updGang g f).flights = s.flights := rfl
@[simp] theorem updGang_ringH (g : Nat) (f : Gang → Gang) : (s.updGang g f).ringH = s.ringH := rfl
@[simp] theorem updGang_ringT (g : Nat) (f : Gang → Gang) : (s.updGang g f).ringT = s.ringT := rfl
@[simp] theorem updGang_ring (g : Nat) (f : Gang → Gang) : (s.updGang g f).ring = s.ring := rfl
@[simp] theorem updGang_tiles (g : Nat) (f : Gang → Gang) : (s.updGang g f).tiles = s.tiles := rfl
@[simp] theorem updGang_epi (g : Nat) (f : Gang → Gang) : (s.updGang g f).epi = s.epi := rfl
@[simp] theorem updGang_reqs (g : Nat) (f : Gang → Gang) : (s.updGang g f).reqs = s.reqs := rfl
@[simp] theorem updGang_active (g : Nat) (f : Gang → Gang) : (s.updGang g f).active = s.active := rfl
@[simp] theorem updGang_shadow (g : Nat) (f : Gang → Gang) : (s.updGang g f).shadow = s.shadow := rfl
@[simp] theorem updGang_resv (g : Nat) (f : Gang → Gang) : (s.updGang g f).resv = s.resv := rfl
@[simp] theorem updGang_tasks (g : Nat) (f : Gang → Gang) : (s.updGang g f).tasks = s.tasks := rfl
@[simp] theorem updGang_queues (g : Nat) (f : Gang → Gang) : (s.updGang g f).queues = s.queues := rfl
@[simp] theorem updGang_worlds (g : Nat) (f : Gang → Gang) : (s.updGang g f).worlds = s.worlds := rfl
@[simp] theorem updGang_sweeps (g : Nat) (f : Gang → Gang) : (s.updGang g f).sweeps = s.sweeps := rfl
@[simp] theorem updGang_batches (g : Nat) (f : Gang → Gang) : (s.updGang g f).batches = s.batches := rfl
@[simp] theorem updGang_fetches (g : Nat) (f : Gang → Gang) : (s.updGang g f).fetches = s.fetches := rfl
@[simp] theorem updGang_chans (g : Nat) (f : Gang → Gang) : (s.updGang g f).chans = s.chans := rfl
@[simp] theorem updGang_fwds (g : Nat) (f : Gang → Gang) : (s.updGang g f).fwds = s.fwds := rfl
@[simp] theorem updGang_snaps (g : Nat) (f : Gang → Gang) : (s.updGang g f).snaps = s.snaps := rfl
@[simp] theorem updGang_durable (g : Nat) (f : Gang → Gang) : (s.updGang g f).durable = s.durable := rfl
@[simp] theorem updGang_agenda (g : Nat) (f : Gang → Gang) : (s.updGang g f).agenda = s.agenda := rfl
@[simp] theorem updGang_cur (g : Nat) (f : Gang → Gang) : (s.updGang g f).cur = s.cur := rfl
@[simp] theorem updGang_freeCtr (g : Nat) (f : Gang → Gang) : (s.updGang g f).freeCtr = s.freeCtr := rfl
@[simp] theorem updGang_nextId (g : Nat) (f : Gang → Gang) : (s.updGang g f).nextId = s.nextId := rfl

@[simp] theorem updTask_boot (k : Nat) (f : Task → Task) : (s.updTask k f).boot = s.boot := rfl
@[simp] theorem updTask_regs (k : Nat) (f : Task → Task) : (s.updTask k f).regs = s.regs := rfl
@[simp] theorem updTask_clock (k : Nat) (f : Task → Task) : (s.updTask k f).clock = s.clock := rfl
@[simp] theorem updTask_mem (k : Nat) (f : Task → Task) : (s.updTask k f).mem = s.mem := rfl
@[simp] theorem updTask_poolMem (k : Nat) (f : Task → Task) : (s.updTask k f).poolMem = s.poolMem := rfl
@[simp] theorem updTask_meta (k : Nat) (f : Task → Task) : (s.updTask k f).meta_ = s.meta_ := rfl
@[simp] theorem updTask_cbytes (k : Nat) (f : Task → Task) : (s.updTask k f).cbytes = s.cbytes := rfl
@[simp] theorem updTask_cmeta (k : Nat) (f : Task → Task) : (s.updTask k f).cmeta = s.cmeta := rfl
@[simp] theorem updTask_owner (k : Nat) (f : Task → Task) : (s.updTask k f).owner = s.owner := rfl
@[simp] theorem updTask_shared (k : Nat) (f : Task → Task) : (s.updTask k f).shared = s.shared := rfl
@[simp] theorem updTask_unswept (k : Nat) (f : Task → Task) : (s.updTask k f).unswept = s.unswept := rfl
@[simp] theorem updTask_frames (k : Nat) (f : Task → Task) : (s.updTask k f).frames = s.frames := rfl
@[simp] theorem updTask_poolCtr (k : Nat) (f : Task → Task) : (s.updTask k f).poolCtr = s.poolCtr := rfl
@[simp] theorem updTask_reenc (k : Nat) (f : Task → Task) : (s.updTask k f).reenc = s.reenc := rfl
@[simp] theorem updTask_rewaits (k : Nat) (f : Task → Task) : (s.updTask k f).rewaits = s.rewaits := rfl
@[simp] theorem updTask_keyVer (k : Nat) (f : Task → Task) : (s.updTask k f).keyVer = s.keyVer := rfl
@[simp] theorem updTask_extents (k : Nat) (f : Task → Task) : (s.updTask k f).extents = s.extents := rfl
@[simp] theorem updTask_past (k : Nat) (f : Task → Task) : (s.updTask k f).past = s.past := rfl
@[simp] theorem updTask_tlb (k : Nat) (f : Task → Task) : (s.updTask k f).tlb = s.tlb := rfl
@[simp] theorem updTask_ahead (k : Nat) (f : Task → Task) : (s.updTask k f).ahead = s.ahead := rfl
@[simp] theorem updTask_alias (k : Nat) (f : Task → Task) : (s.updTask k f).alias_ = s.alias_ := rfl
@[simp] theorem updTask_spad (k : Nat) (f : Task → Task) : (s.updTask k f).spad = s.spad := rfl
@[simp] theorem updTask_spadTag (k : Nat) (f : Task → Task) : (s.updTask k f).spadTag = s.spadTag := rfl
@[simp] theorem updTask_spadPoison (k : Nat) (f : Task → Task) : (s.updTask k f).spadPoison = s.spadPoison := rfl
@[simp] theorem updTask_ops (k : Nat) (f : Task → Task) : (s.updTask k f).ops = s.ops := rfl
@[simp] theorem updTask_accs (k : Nat) (f : Task → Task) : (s.updTask k f).accs = s.accs := rfl
@[simp] theorem updTask_crews (k : Nat) (f : Task → Task) : (s.updTask k f).crews = s.crews := rfl
@[simp] theorem updTask_rows (k : Nat) (f : Task → Task) : (s.updTask k f).rows = s.rows := rfl
@[simp] theorem updTask_valid (k : Nat) (f : Task → Task) : (s.updTask k f).valid = s.valid := rfl
@[simp] theorem updTask_threads (k : Nat) (f : Task → Task) : (s.updTask k f).threads = s.threads := rfl
@[simp] theorem updTask_slots (k : Nat) (f : Task → Task) : (s.updTask k f).slots = s.slots := rfl
@[simp] theorem updTask_yielded (k : Nat) (f : Task → Task) : (s.updTask k f).yielded = s.yielded := rfl
@[simp] theorem updTask_ports (k : Nat) (f : Task → Task) : (s.updTask k f).ports = s.ports := rfl
@[simp] theorem updTask_flights (k : Nat) (f : Task → Task) : (s.updTask k f).flights = s.flights := rfl
@[simp] theorem updTask_gangs (k : Nat) (f : Task → Task) : (s.updTask k f).gangs = s.gangs := rfl
@[simp] theorem updTask_ringH (k : Nat) (f : Task → Task) : (s.updTask k f).ringH = s.ringH := rfl
@[simp] theorem updTask_ringT (k : Nat) (f : Task → Task) : (s.updTask k f).ringT = s.ringT := rfl
@[simp] theorem updTask_ring (k : Nat) (f : Task → Task) : (s.updTask k f).ring = s.ring := rfl
@[simp] theorem updTask_tiles (k : Nat) (f : Task → Task) : (s.updTask k f).tiles = s.tiles := rfl
@[simp] theorem updTask_epi (k : Nat) (f : Task → Task) : (s.updTask k f).epi = s.epi := rfl
@[simp] theorem updTask_reqs (k : Nat) (f : Task → Task) : (s.updTask k f).reqs = s.reqs := rfl
@[simp] theorem updTask_active (k : Nat) (f : Task → Task) : (s.updTask k f).active = s.active := rfl
@[simp] theorem updTask_shadow (k : Nat) (f : Task → Task) : (s.updTask k f).shadow = s.shadow := rfl
@[simp] theorem updTask_resv (k : Nat) (f : Task → Task) : (s.updTask k f).resv = s.resv := rfl
@[simp] theorem updTask_queues (k : Nat) (f : Task → Task) : (s.updTask k f).queues = s.queues := rfl
@[simp] theorem updTask_worlds (k : Nat) (f : Task → Task) : (s.updTask k f).worlds = s.worlds := rfl
@[simp] theorem updTask_sweeps (k : Nat) (f : Task → Task) : (s.updTask k f).sweeps = s.sweeps := rfl
@[simp] theorem updTask_batches (k : Nat) (f : Task → Task) : (s.updTask k f).batches = s.batches := rfl
@[simp] theorem updTask_fetches (k : Nat) (f : Task → Task) : (s.updTask k f).fetches = s.fetches := rfl
@[simp] theorem updTask_chans (k : Nat) (f : Task → Task) : (s.updTask k f).chans = s.chans := rfl
@[simp] theorem updTask_fwds (k : Nat) (f : Task → Task) : (s.updTask k f).fwds = s.fwds := rfl
@[simp] theorem updTask_snaps (k : Nat) (f : Task → Task) : (s.updTask k f).snaps = s.snaps := rfl
@[simp] theorem updTask_durable (k : Nat) (f : Task → Task) : (s.updTask k f).durable = s.durable := rfl
@[simp] theorem updTask_agenda (k : Nat) (f : Task → Task) : (s.updTask k f).agenda = s.agenda := rfl
@[simp] theorem updTask_cur (k : Nat) (f : Task → Task) : (s.updTask k f).cur = s.cur := rfl
@[simp] theorem updTask_freeCtr (k : Nat) (f : Task → Task) : (s.updTask k f).freeCtr = s.freeCtr := rfl
@[simp] theorem updTask_nextId (k : Nat) (f : Task → Task) : (s.updTask k f).nextId = s.nextId := rfl

@[simp] theorem updQueue_boot (q : Nat) (f : Queue → Queue) : (s.updQueue q f).boot = s.boot := rfl
@[simp] theorem updQueue_regs (q : Nat) (f : Queue → Queue) : (s.updQueue q f).regs = s.regs := rfl
@[simp] theorem updQueue_clock (q : Nat) (f : Queue → Queue) : (s.updQueue q f).clock = s.clock := rfl
@[simp] theorem updQueue_mem (q : Nat) (f : Queue → Queue) : (s.updQueue q f).mem = s.mem := rfl
@[simp] theorem updQueue_poolMem (q : Nat) (f : Queue → Queue) : (s.updQueue q f).poolMem = s.poolMem := rfl
@[simp] theorem updQueue_meta (q : Nat) (f : Queue → Queue) : (s.updQueue q f).meta_ = s.meta_ := rfl
@[simp] theorem updQueue_cbytes (q : Nat) (f : Queue → Queue) : (s.updQueue q f).cbytes = s.cbytes := rfl
@[simp] theorem updQueue_cmeta (q : Nat) (f : Queue → Queue) : (s.updQueue q f).cmeta = s.cmeta := rfl
@[simp] theorem updQueue_owner (q : Nat) (f : Queue → Queue) : (s.updQueue q f).owner = s.owner := rfl
@[simp] theorem updQueue_shared (q : Nat) (f : Queue → Queue) : (s.updQueue q f).shared = s.shared := rfl
@[simp] theorem updQueue_unswept (q : Nat) (f : Queue → Queue) : (s.updQueue q f).unswept = s.unswept := rfl
@[simp] theorem updQueue_frames (q : Nat) (f : Queue → Queue) : (s.updQueue q f).frames = s.frames := rfl
@[simp] theorem updQueue_poolCtr (q : Nat) (f : Queue → Queue) : (s.updQueue q f).poolCtr = s.poolCtr := rfl
@[simp] theorem updQueue_reenc (q : Nat) (f : Queue → Queue) : (s.updQueue q f).reenc = s.reenc := rfl
@[simp] theorem updQueue_rewaits (q : Nat) (f : Queue → Queue) : (s.updQueue q f).rewaits = s.rewaits := rfl
@[simp] theorem updQueue_keyVer (q : Nat) (f : Queue → Queue) : (s.updQueue q f).keyVer = s.keyVer := rfl
@[simp] theorem updQueue_extents (q : Nat) (f : Queue → Queue) : (s.updQueue q f).extents = s.extents := rfl
@[simp] theorem updQueue_past (q : Nat) (f : Queue → Queue) : (s.updQueue q f).past = s.past := rfl
@[simp] theorem updQueue_tlb (q : Nat) (f : Queue → Queue) : (s.updQueue q f).tlb = s.tlb := rfl
@[simp] theorem updQueue_ahead (q : Nat) (f : Queue → Queue) : (s.updQueue q f).ahead = s.ahead := rfl
@[simp] theorem updQueue_alias (q : Nat) (f : Queue → Queue) : (s.updQueue q f).alias_ = s.alias_ := rfl
@[simp] theorem updQueue_spad (q : Nat) (f : Queue → Queue) : (s.updQueue q f).spad = s.spad := rfl
@[simp] theorem updQueue_spadTag (q : Nat) (f : Queue → Queue) : (s.updQueue q f).spadTag = s.spadTag := rfl
@[simp] theorem updQueue_spadPoison (q : Nat) (f : Queue → Queue) : (s.updQueue q f).spadPoison = s.spadPoison := rfl
@[simp] theorem updQueue_ops (q : Nat) (f : Queue → Queue) : (s.updQueue q f).ops = s.ops := rfl
@[simp] theorem updQueue_accs (q : Nat) (f : Queue → Queue) : (s.updQueue q f).accs = s.accs := rfl
@[simp] theorem updQueue_crews (q : Nat) (f : Queue → Queue) : (s.updQueue q f).crews = s.crews := rfl
@[simp] theorem updQueue_rows (q : Nat) (f : Queue → Queue) : (s.updQueue q f).rows = s.rows := rfl
@[simp] theorem updQueue_valid (q : Nat) (f : Queue → Queue) : (s.updQueue q f).valid = s.valid := rfl
@[simp] theorem updQueue_threads (q : Nat) (f : Queue → Queue) : (s.updQueue q f).threads = s.threads := rfl
@[simp] theorem updQueue_slots (q : Nat) (f : Queue → Queue) : (s.updQueue q f).slots = s.slots := rfl
@[simp] theorem updQueue_yielded (q : Nat) (f : Queue → Queue) : (s.updQueue q f).yielded = s.yielded := rfl
@[simp] theorem updQueue_ports (q : Nat) (f : Queue → Queue) : (s.updQueue q f).ports = s.ports := rfl
@[simp] theorem updQueue_flights (q : Nat) (f : Queue → Queue) : (s.updQueue q f).flights = s.flights := rfl
@[simp] theorem updQueue_gangs (q : Nat) (f : Queue → Queue) : (s.updQueue q f).gangs = s.gangs := rfl
@[simp] theorem updQueue_ringH (q : Nat) (f : Queue → Queue) : (s.updQueue q f).ringH = s.ringH := rfl
@[simp] theorem updQueue_ringT (q : Nat) (f : Queue → Queue) : (s.updQueue q f).ringT = s.ringT := rfl
@[simp] theorem updQueue_ring (q : Nat) (f : Queue → Queue) : (s.updQueue q f).ring = s.ring := rfl
@[simp] theorem updQueue_tiles (q : Nat) (f : Queue → Queue) : (s.updQueue q f).tiles = s.tiles := rfl
@[simp] theorem updQueue_epi (q : Nat) (f : Queue → Queue) : (s.updQueue q f).epi = s.epi := rfl
@[simp] theorem updQueue_reqs (q : Nat) (f : Queue → Queue) : (s.updQueue q f).reqs = s.reqs := rfl
@[simp] theorem updQueue_active (q : Nat) (f : Queue → Queue) : (s.updQueue q f).active = s.active := rfl
@[simp] theorem updQueue_shadow (q : Nat) (f : Queue → Queue) : (s.updQueue q f).shadow = s.shadow := rfl
@[simp] theorem updQueue_resv (q : Nat) (f : Queue → Queue) : (s.updQueue q f).resv = s.resv := rfl
@[simp] theorem updQueue_tasks (q : Nat) (f : Queue → Queue) : (s.updQueue q f).tasks = s.tasks := rfl
@[simp] theorem updQueue_worlds (q : Nat) (f : Queue → Queue) : (s.updQueue q f).worlds = s.worlds := rfl
@[simp] theorem updQueue_sweeps (q : Nat) (f : Queue → Queue) : (s.updQueue q f).sweeps = s.sweeps := rfl
@[simp] theorem updQueue_batches (q : Nat) (f : Queue → Queue) : (s.updQueue q f).batches = s.batches := rfl
@[simp] theorem updQueue_fetches (q : Nat) (f : Queue → Queue) : (s.updQueue q f).fetches = s.fetches := rfl
@[simp] theorem updQueue_chans (q : Nat) (f : Queue → Queue) : (s.updQueue q f).chans = s.chans := rfl
@[simp] theorem updQueue_fwds (q : Nat) (f : Queue → Queue) : (s.updQueue q f).fwds = s.fwds := rfl
@[simp] theorem updQueue_snaps (q : Nat) (f : Queue → Queue) : (s.updQueue q f).snaps = s.snaps := rfl
@[simp] theorem updQueue_durable (q : Nat) (f : Queue → Queue) : (s.updQueue q f).durable = s.durable := rfl
@[simp] theorem updQueue_agenda (q : Nat) (f : Queue → Queue) : (s.updQueue q f).agenda = s.agenda := rfl
@[simp] theorem updQueue_cur (q : Nat) (f : Queue → Queue) : (s.updQueue q f).cur = s.cur := rfl
@[simp] theorem updQueue_freeCtr (q : Nat) (f : Queue → Queue) : (s.updQueue q f).freeCtr = s.freeCtr := rfl
@[simp] theorem updQueue_nextId (q : Nat) (f : Queue → Queue) : (s.updQueue q f).nextId = s.nextId := rfl

@[simp] theorem updWorld_boot (w : Nat) (f : World → World) : (s.updWorld w f).boot = s.boot := rfl
@[simp] theorem updWorld_regs (w : Nat) (f : World → World) : (s.updWorld w f).regs = s.regs := rfl
@[simp] theorem updWorld_clock (w : Nat) (f : World → World) : (s.updWorld w f).clock = s.clock := rfl
@[simp] theorem updWorld_mem (w : Nat) (f : World → World) : (s.updWorld w f).mem = s.mem := rfl
@[simp] theorem updWorld_poolMem (w : Nat) (f : World → World) : (s.updWorld w f).poolMem = s.poolMem := rfl
@[simp] theorem updWorld_meta (w : Nat) (f : World → World) : (s.updWorld w f).meta_ = s.meta_ := rfl
@[simp] theorem updWorld_cbytes (w : Nat) (f : World → World) : (s.updWorld w f).cbytes = s.cbytes := rfl
@[simp] theorem updWorld_cmeta (w : Nat) (f : World → World) : (s.updWorld w f).cmeta = s.cmeta := rfl
@[simp] theorem updWorld_owner (w : Nat) (f : World → World) : (s.updWorld w f).owner = s.owner := rfl
@[simp] theorem updWorld_shared (w : Nat) (f : World → World) : (s.updWorld w f).shared = s.shared := rfl
@[simp] theorem updWorld_unswept (w : Nat) (f : World → World) : (s.updWorld w f).unswept = s.unswept := rfl
@[simp] theorem updWorld_frames (w : Nat) (f : World → World) : (s.updWorld w f).frames = s.frames := rfl
@[simp] theorem updWorld_poolCtr (w : Nat) (f : World → World) : (s.updWorld w f).poolCtr = s.poolCtr := rfl
@[simp] theorem updWorld_reenc (w : Nat) (f : World → World) : (s.updWorld w f).reenc = s.reenc := rfl
@[simp] theorem updWorld_rewaits (w : Nat) (f : World → World) : (s.updWorld w f).rewaits = s.rewaits := rfl
@[simp] theorem updWorld_keyVer (w : Nat) (f : World → World) : (s.updWorld w f).keyVer = s.keyVer := rfl
@[simp] theorem updWorld_extents (w : Nat) (f : World → World) : (s.updWorld w f).extents = s.extents := rfl
@[simp] theorem updWorld_past (w : Nat) (f : World → World) : (s.updWorld w f).past = s.past := rfl
@[simp] theorem updWorld_tlb (w : Nat) (f : World → World) : (s.updWorld w f).tlb = s.tlb := rfl
@[simp] theorem updWorld_ahead (w : Nat) (f : World → World) : (s.updWorld w f).ahead = s.ahead := rfl
@[simp] theorem updWorld_alias (w : Nat) (f : World → World) : (s.updWorld w f).alias_ = s.alias_ := rfl
@[simp] theorem updWorld_spad (w : Nat) (f : World → World) : (s.updWorld w f).spad = s.spad := rfl
@[simp] theorem updWorld_spadTag (w : Nat) (f : World → World) : (s.updWorld w f).spadTag = s.spadTag := rfl
@[simp] theorem updWorld_spadPoison (w : Nat) (f : World → World) : (s.updWorld w f).spadPoison = s.spadPoison := rfl
@[simp] theorem updWorld_ops (w : Nat) (f : World → World) : (s.updWorld w f).ops = s.ops := rfl
@[simp] theorem updWorld_accs (w : Nat) (f : World → World) : (s.updWorld w f).accs = s.accs := rfl
@[simp] theorem updWorld_crews (w : Nat) (f : World → World) : (s.updWorld w f).crews = s.crews := rfl
@[simp] theorem updWorld_rows (w : Nat) (f : World → World) : (s.updWorld w f).rows = s.rows := rfl
@[simp] theorem updWorld_valid (w : Nat) (f : World → World) : (s.updWorld w f).valid = s.valid := rfl
@[simp] theorem updWorld_threads (w : Nat) (f : World → World) : (s.updWorld w f).threads = s.threads := rfl
@[simp] theorem updWorld_slots (w : Nat) (f : World → World) : (s.updWorld w f).slots = s.slots := rfl
@[simp] theorem updWorld_yielded (w : Nat) (f : World → World) : (s.updWorld w f).yielded = s.yielded := rfl
@[simp] theorem updWorld_ports (w : Nat) (f : World → World) : (s.updWorld w f).ports = s.ports := rfl
@[simp] theorem updWorld_flights (w : Nat) (f : World → World) : (s.updWorld w f).flights = s.flights := rfl
@[simp] theorem updWorld_gangs (w : Nat) (f : World → World) : (s.updWorld w f).gangs = s.gangs := rfl
@[simp] theorem updWorld_ringH (w : Nat) (f : World → World) : (s.updWorld w f).ringH = s.ringH := rfl
@[simp] theorem updWorld_ringT (w : Nat) (f : World → World) : (s.updWorld w f).ringT = s.ringT := rfl
@[simp] theorem updWorld_ring (w : Nat) (f : World → World) : (s.updWorld w f).ring = s.ring := rfl
@[simp] theorem updWorld_tiles (w : Nat) (f : World → World) : (s.updWorld w f).tiles = s.tiles := rfl
@[simp] theorem updWorld_epi (w : Nat) (f : World → World) : (s.updWorld w f).epi = s.epi := rfl
@[simp] theorem updWorld_reqs (w : Nat) (f : World → World) : (s.updWorld w f).reqs = s.reqs := rfl
@[simp] theorem updWorld_active (w : Nat) (f : World → World) : (s.updWorld w f).active = s.active := rfl
@[simp] theorem updWorld_shadow (w : Nat) (f : World → World) : (s.updWorld w f).shadow = s.shadow := rfl
@[simp] theorem updWorld_resv (w : Nat) (f : World → World) : (s.updWorld w f).resv = s.resv := rfl
@[simp] theorem updWorld_tasks (w : Nat) (f : World → World) : (s.updWorld w f).tasks = s.tasks := rfl
@[simp] theorem updWorld_queues (w : Nat) (f : World → World) : (s.updWorld w f).queues = s.queues := rfl
@[simp] theorem updWorld_sweeps (w : Nat) (f : World → World) : (s.updWorld w f).sweeps = s.sweeps := rfl
@[simp] theorem updWorld_batches (w : Nat) (f : World → World) : (s.updWorld w f).batches = s.batches := rfl
@[simp] theorem updWorld_fetches (w : Nat) (f : World → World) : (s.updWorld w f).fetches = s.fetches := rfl
@[simp] theorem updWorld_chans (w : Nat) (f : World → World) : (s.updWorld w f).chans = s.chans := rfl
@[simp] theorem updWorld_fwds (w : Nat) (f : World → World) : (s.updWorld w f).fwds = s.fwds := rfl
@[simp] theorem updWorld_snaps (w : Nat) (f : World → World) : (s.updWorld w f).snaps = s.snaps := rfl
@[simp] theorem updWorld_durable (w : Nat) (f : World → World) : (s.updWorld w f).durable = s.durable := rfl
@[simp] theorem updWorld_agenda (w : Nat) (f : World → World) : (s.updWorld w f).agenda = s.agenda := rfl
@[simp] theorem updWorld_cur (w : Nat) (f : World → World) : (s.updWorld w f).cur = s.cur := rfl
@[simp] theorem updWorld_freeCtr (w : Nat) (f : World → World) : (s.updWorld w f).freeCtr = s.freeCtr := rfl
@[simp] theorem updWorld_nextId (w : Nat) (f : World → World) : (s.updWorld w f).nextId = s.nextId := rfl

@[simp] theorem setPred_boot (t : Nat) (p : BitVec 4) (b : Bool) : (s.setPred t p b).boot = s.boot := rfl
@[simp] theorem setPred_regs (t : Nat) (p : BitVec 4) (b : Bool) : (s.setPred t p b).regs = s.regs := rfl
@[simp] theorem setPred_clock (t : Nat) (p : BitVec 4) (b : Bool) : (s.setPred t p b).clock = s.clock := rfl
@[simp] theorem setPred_mem (t : Nat) (p : BitVec 4) (b : Bool) : (s.setPred t p b).mem = s.mem := rfl
@[simp] theorem setPred_poolMem (t : Nat) (p : BitVec 4) (b : Bool) : (s.setPred t p b).poolMem = s.poolMem := rfl
@[simp] theorem setPred_meta (t : Nat) (p : BitVec 4) (b : Bool) : (s.setPred t p b).meta_ = s.meta_ := rfl
@[simp] theorem setPred_cbytes (t : Nat) (p : BitVec 4) (b : Bool) : (s.setPred t p b).cbytes = s.cbytes := rfl
@[simp] theorem setPred_cmeta (t : Nat) (p : BitVec 4) (b : Bool) : (s.setPred t p b).cmeta = s.cmeta := rfl
@[simp] theorem setPred_owner (t : Nat) (p : BitVec 4) (b : Bool) : (s.setPred t p b).owner = s.owner := rfl
@[simp] theorem setPred_shared (t : Nat) (p : BitVec 4) (b : Bool) : (s.setPred t p b).shared = s.shared := rfl
@[simp] theorem setPred_unswept (t : Nat) (p : BitVec 4) (b : Bool) : (s.setPred t p b).unswept = s.unswept := rfl
@[simp] theorem setPred_frames (t : Nat) (p : BitVec 4) (b : Bool) : (s.setPred t p b).frames = s.frames := rfl
@[simp] theorem setPred_poolCtr (t : Nat) (p : BitVec 4) (b : Bool) : (s.setPred t p b).poolCtr = s.poolCtr := rfl
@[simp] theorem setPred_reenc (t : Nat) (p : BitVec 4) (b : Bool) : (s.setPred t p b).reenc = s.reenc := rfl
@[simp] theorem setPred_rewaits (t : Nat) (p : BitVec 4) (b : Bool) : (s.setPred t p b).rewaits = s.rewaits := rfl
@[simp] theorem setPred_keyVer (t : Nat) (p : BitVec 4) (b : Bool) : (s.setPred t p b).keyVer = s.keyVer := rfl
@[simp] theorem setPred_extents (t : Nat) (p : BitVec 4) (b : Bool) : (s.setPred t p b).extents = s.extents := rfl
@[simp] theorem setPred_past (t : Nat) (p : BitVec 4) (b : Bool) : (s.setPred t p b).past = s.past := rfl
@[simp] theorem setPred_tlb (t : Nat) (p : BitVec 4) (b : Bool) : (s.setPred t p b).tlb = s.tlb := rfl
@[simp] theorem setPred_ahead (t : Nat) (p : BitVec 4) (b : Bool) : (s.setPred t p b).ahead = s.ahead := rfl
@[simp] theorem setPred_alias (t : Nat) (p : BitVec 4) (b : Bool) : (s.setPred t p b).alias_ = s.alias_ := rfl
@[simp] theorem setPred_spad (t : Nat) (p : BitVec 4) (b : Bool) : (s.setPred t p b).spad = s.spad := rfl
@[simp] theorem setPred_spadTag (t : Nat) (p : BitVec 4) (b : Bool) : (s.setPred t p b).spadTag = s.spadTag := rfl
@[simp] theorem setPred_spadPoison (t : Nat) (p : BitVec 4) (b : Bool) : (s.setPred t p b).spadPoison = s.spadPoison := rfl
@[simp] theorem setPred_ops (t : Nat) (p : BitVec 4) (b : Bool) : (s.setPred t p b).ops = s.ops := rfl
@[simp] theorem setPred_accs (t : Nat) (p : BitVec 4) (b : Bool) : (s.setPred t p b).accs = s.accs := rfl
@[simp] theorem setPred_crews (t : Nat) (p : BitVec 4) (b : Bool) : (s.setPred t p b).crews = s.crews := rfl
@[simp] theorem setPred_rows (t : Nat) (p : BitVec 4) (b : Bool) : (s.setPred t p b).rows = s.rows := rfl
@[simp] theorem setPred_valid (t : Nat) (p : BitVec 4) (b : Bool) : (s.setPred t p b).valid = s.valid := rfl
@[simp] theorem setPred_slots (t : Nat) (p : BitVec 4) (b : Bool) : (s.setPred t p b).slots = s.slots := rfl
@[simp] theorem setPred_yielded (t : Nat) (p : BitVec 4) (b : Bool) : (s.setPred t p b).yielded = s.yielded := rfl
@[simp] theorem setPred_ports (t : Nat) (p : BitVec 4) (b : Bool) : (s.setPred t p b).ports = s.ports := rfl
@[simp] theorem setPred_flights (t : Nat) (p : BitVec 4) (b : Bool) : (s.setPred t p b).flights = s.flights := rfl
@[simp] theorem setPred_gangs (t : Nat) (p : BitVec 4) (b : Bool) : (s.setPred t p b).gangs = s.gangs := rfl
@[simp] theorem setPred_ringH (t : Nat) (p : BitVec 4) (b : Bool) : (s.setPred t p b).ringH = s.ringH := rfl
@[simp] theorem setPred_ringT (t : Nat) (p : BitVec 4) (b : Bool) : (s.setPred t p b).ringT = s.ringT := rfl
@[simp] theorem setPred_ring (t : Nat) (p : BitVec 4) (b : Bool) : (s.setPred t p b).ring = s.ring := rfl
@[simp] theorem setPred_tiles (t : Nat) (p : BitVec 4) (b : Bool) : (s.setPred t p b).tiles = s.tiles := rfl
@[simp] theorem setPred_epi (t : Nat) (p : BitVec 4) (b : Bool) : (s.setPred t p b).epi = s.epi := rfl
@[simp] theorem setPred_reqs (t : Nat) (p : BitVec 4) (b : Bool) : (s.setPred t p b).reqs = s.reqs := rfl
@[simp] theorem setPred_active (t : Nat) (p : BitVec 4) (b : Bool) : (s.setPred t p b).active = s.active := rfl
@[simp] theorem setPred_shadow (t : Nat) (p : BitVec 4) (b : Bool) : (s.setPred t p b).shadow = s.shadow := rfl
@[simp] theorem setPred_resv (t : Nat) (p : BitVec 4) (b : Bool) : (s.setPred t p b).resv = s.resv := rfl
@[simp] theorem setPred_tasks (t : Nat) (p : BitVec 4) (b : Bool) : (s.setPred t p b).tasks = s.tasks := rfl
@[simp] theorem setPred_queues (t : Nat) (p : BitVec 4) (b : Bool) : (s.setPred t p b).queues = s.queues := rfl
@[simp] theorem setPred_worlds (t : Nat) (p : BitVec 4) (b : Bool) : (s.setPred t p b).worlds = s.worlds := rfl
@[simp] theorem setPred_sweeps (t : Nat) (p : BitVec 4) (b : Bool) : (s.setPred t p b).sweeps = s.sweeps := rfl
@[simp] theorem setPred_batches (t : Nat) (p : BitVec 4) (b : Bool) : (s.setPred t p b).batches = s.batches := rfl
@[simp] theorem setPred_fetches (t : Nat) (p : BitVec 4) (b : Bool) : (s.setPred t p b).fetches = s.fetches := rfl
@[simp] theorem setPred_chans (t : Nat) (p : BitVec 4) (b : Bool) : (s.setPred t p b).chans = s.chans := rfl
@[simp] theorem setPred_fwds (t : Nat) (p : BitVec 4) (b : Bool) : (s.setPred t p b).fwds = s.fwds := rfl
@[simp] theorem setPred_snaps (t : Nat) (p : BitVec 4) (b : Bool) : (s.setPred t p b).snaps = s.snaps := rfl
@[simp] theorem setPred_durable (t : Nat) (p : BitVec 4) (b : Bool) : (s.setPred t p b).durable = s.durable := rfl
@[simp] theorem setPred_agenda (t : Nat) (p : BitVec 4) (b : Bool) : (s.setPred t p b).agenda = s.agenda := rfl
@[simp] theorem setPred_cur (t : Nat) (p : BitVec 4) (b : Bool) : (s.setPred t p b).cur = s.cur := rfl
@[simp] theorem setPred_freeCtr (t : Nat) (p : BitVec 4) (b : Bool) : (s.setPred t p b).freeCtr = s.freeCtr := rfl
@[simp] theorem setPred_nextId (t : Nat) (p : BitVec 4) (b : Bool) : (s.setPred t p b).nextId = s.nextId := rfl

@[simp] theorem setValid_boot (t k : Nat) (b : Bool) : (s.setValid t k b).boot = s.boot := rfl
@[simp] theorem setValid_regs (t k : Nat) (b : Bool) : (s.setValid t k b).regs = s.regs := rfl
@[simp] theorem setValid_clock (t k : Nat) (b : Bool) : (s.setValid t k b).clock = s.clock := rfl
@[simp] theorem setValid_mem (t k : Nat) (b : Bool) : (s.setValid t k b).mem = s.mem := rfl
@[simp] theorem setValid_poolMem (t k : Nat) (b : Bool) : (s.setValid t k b).poolMem = s.poolMem := rfl
@[simp] theorem setValid_meta (t k : Nat) (b : Bool) : (s.setValid t k b).meta_ = s.meta_ := rfl
@[simp] theorem setValid_cbytes (t k : Nat) (b : Bool) : (s.setValid t k b).cbytes = s.cbytes := rfl
@[simp] theorem setValid_cmeta (t k : Nat) (b : Bool) : (s.setValid t k b).cmeta = s.cmeta := rfl
@[simp] theorem setValid_owner (t k : Nat) (b : Bool) : (s.setValid t k b).owner = s.owner := rfl
@[simp] theorem setValid_shared (t k : Nat) (b : Bool) : (s.setValid t k b).shared = s.shared := rfl
@[simp] theorem setValid_unswept (t k : Nat) (b : Bool) : (s.setValid t k b).unswept = s.unswept := rfl
@[simp] theorem setValid_frames (t k : Nat) (b : Bool) : (s.setValid t k b).frames = s.frames := rfl
@[simp] theorem setValid_poolCtr (t k : Nat) (b : Bool) : (s.setValid t k b).poolCtr = s.poolCtr := rfl
@[simp] theorem setValid_reenc (t k : Nat) (b : Bool) : (s.setValid t k b).reenc = s.reenc := rfl
@[simp] theorem setValid_rewaits (t k : Nat) (b : Bool) : (s.setValid t k b).rewaits = s.rewaits := rfl
@[simp] theorem setValid_keyVer (t k : Nat) (b : Bool) : (s.setValid t k b).keyVer = s.keyVer := rfl
@[simp] theorem setValid_extents (t k : Nat) (b : Bool) : (s.setValid t k b).extents = s.extents := rfl
@[simp] theorem setValid_past (t k : Nat) (b : Bool) : (s.setValid t k b).past = s.past := rfl
@[simp] theorem setValid_tlb (t k : Nat) (b : Bool) : (s.setValid t k b).tlb = s.tlb := rfl
@[simp] theorem setValid_ahead (t k : Nat) (b : Bool) : (s.setValid t k b).ahead = s.ahead := rfl
@[simp] theorem setValid_alias (t k : Nat) (b : Bool) : (s.setValid t k b).alias_ = s.alias_ := rfl
@[simp] theorem setValid_spad (t k : Nat) (b : Bool) : (s.setValid t k b).spad = s.spad := rfl
@[simp] theorem setValid_spadTag (t k : Nat) (b : Bool) : (s.setValid t k b).spadTag = s.spadTag := rfl
@[simp] theorem setValid_spadPoison (t k : Nat) (b : Bool) : (s.setValid t k b).spadPoison = s.spadPoison := rfl
@[simp] theorem setValid_ops (t k : Nat) (b : Bool) : (s.setValid t k b).ops = s.ops := rfl
@[simp] theorem setValid_accs (t k : Nat) (b : Bool) : (s.setValid t k b).accs = s.accs := rfl
@[simp] theorem setValid_crews (t k : Nat) (b : Bool) : (s.setValid t k b).crews = s.crews := rfl
@[simp] theorem setValid_rows (t k : Nat) (b : Bool) : (s.setValid t k b).rows = s.rows := rfl
@[simp] theorem setValid_threads (t k : Nat) (b : Bool) : (s.setValid t k b).threads = s.threads := rfl
@[simp] theorem setValid_slots (t k : Nat) (b : Bool) : (s.setValid t k b).slots = s.slots := rfl
@[simp] theorem setValid_yielded (t k : Nat) (b : Bool) : (s.setValid t k b).yielded = s.yielded := rfl
@[simp] theorem setValid_ports (t k : Nat) (b : Bool) : (s.setValid t k b).ports = s.ports := rfl
@[simp] theorem setValid_flights (t k : Nat) (b : Bool) : (s.setValid t k b).flights = s.flights := rfl
@[simp] theorem setValid_gangs (t k : Nat) (b : Bool) : (s.setValid t k b).gangs = s.gangs := rfl
@[simp] theorem setValid_ringH (t k : Nat) (b : Bool) : (s.setValid t k b).ringH = s.ringH := rfl
@[simp] theorem setValid_ringT (t k : Nat) (b : Bool) : (s.setValid t k b).ringT = s.ringT := rfl
@[simp] theorem setValid_ring (t k : Nat) (b : Bool) : (s.setValid t k b).ring = s.ring := rfl
@[simp] theorem setValid_tiles (t k : Nat) (b : Bool) : (s.setValid t k b).tiles = s.tiles := rfl
@[simp] theorem setValid_epi (t k : Nat) (b : Bool) : (s.setValid t k b).epi = s.epi := rfl
@[simp] theorem setValid_reqs (t k : Nat) (b : Bool) : (s.setValid t k b).reqs = s.reqs := rfl
@[simp] theorem setValid_active (t k : Nat) (b : Bool) : (s.setValid t k b).active = s.active := rfl
@[simp] theorem setValid_shadow (t k : Nat) (b : Bool) : (s.setValid t k b).shadow = s.shadow := rfl
@[simp] theorem setValid_resv (t k : Nat) (b : Bool) : (s.setValid t k b).resv = s.resv := rfl
@[simp] theorem setValid_tasks (t k : Nat) (b : Bool) : (s.setValid t k b).tasks = s.tasks := rfl
@[simp] theorem setValid_queues (t k : Nat) (b : Bool) : (s.setValid t k b).queues = s.queues := rfl
@[simp] theorem setValid_worlds (t k : Nat) (b : Bool) : (s.setValid t k b).worlds = s.worlds := rfl
@[simp] theorem setValid_sweeps (t k : Nat) (b : Bool) : (s.setValid t k b).sweeps = s.sweeps := rfl
@[simp] theorem setValid_batches (t k : Nat) (b : Bool) : (s.setValid t k b).batches = s.batches := rfl
@[simp] theorem setValid_fetches (t k : Nat) (b : Bool) : (s.setValid t k b).fetches = s.fetches := rfl
@[simp] theorem setValid_chans (t k : Nat) (b : Bool) : (s.setValid t k b).chans = s.chans := rfl
@[simp] theorem setValid_fwds (t k : Nat) (b : Bool) : (s.setValid t k b).fwds = s.fwds := rfl
@[simp] theorem setValid_snaps (t k : Nat) (b : Bool) : (s.setValid t k b).snaps = s.snaps := rfl
@[simp] theorem setValid_durable (t k : Nat) (b : Bool) : (s.setValid t k b).durable = s.durable := rfl
@[simp] theorem setValid_agenda (t k : Nat) (b : Bool) : (s.setValid t k b).agenda = s.agenda := rfl
@[simp] theorem setValid_cur (t k : Nat) (b : Bool) : (s.setValid t k b).cur = s.cur := rfl
@[simp] theorem setValid_freeCtr (t k : Nat) (b : Bool) : (s.setValid t k b).freeCtr = s.freeCtr := rfl
@[simp] theorem setValid_nextId (t k : Nat) (b : Bool) : (s.setValid t k b).nextId = s.nextId := rfl

@[simp] theorem setRow_boot (crew v : Nat) (r : Row) : (s.setRow crew v r).boot = s.boot := by unfold State.setRow; split <;> rfl
@[simp] theorem setRow_regs (crew v : Nat) (r : Row) : (s.setRow crew v r).regs = s.regs := by unfold State.setRow; split <;> rfl
@[simp] theorem setRow_clock (crew v : Nat) (r : Row) : (s.setRow crew v r).clock = s.clock := by unfold State.setRow; split <;> rfl
@[simp] theorem setRow_mem (crew v : Nat) (r : Row) : (s.setRow crew v r).mem = s.mem := by unfold State.setRow; split <;> rfl
@[simp] theorem setRow_poolMem (crew v : Nat) (r : Row) : (s.setRow crew v r).poolMem = s.poolMem := by unfold State.setRow; split <;> rfl
@[simp] theorem setRow_meta (crew v : Nat) (r : Row) : (s.setRow crew v r).meta_ = s.meta_ := by unfold State.setRow; split <;> rfl
@[simp] theorem setRow_cbytes (crew v : Nat) (r : Row) : (s.setRow crew v r).cbytes = s.cbytes := by unfold State.setRow; split <;> rfl
@[simp] theorem setRow_cmeta (crew v : Nat) (r : Row) : (s.setRow crew v r).cmeta = s.cmeta := by unfold State.setRow; split <;> rfl
@[simp] theorem setRow_owner (crew v : Nat) (r : Row) : (s.setRow crew v r).owner = s.owner := by unfold State.setRow; split <;> rfl
@[simp] theorem setRow_shared (crew v : Nat) (r : Row) : (s.setRow crew v r).shared = s.shared := by unfold State.setRow; split <;> rfl
@[simp] theorem setRow_unswept (crew v : Nat) (r : Row) : (s.setRow crew v r).unswept = s.unswept := by unfold State.setRow; split <;> rfl
@[simp] theorem setRow_frames (crew v : Nat) (r : Row) : (s.setRow crew v r).frames = s.frames := by unfold State.setRow; split <;> rfl
@[simp] theorem setRow_poolCtr (crew v : Nat) (r : Row) : (s.setRow crew v r).poolCtr = s.poolCtr := by unfold State.setRow; split <;> rfl
@[simp] theorem setRow_reenc (crew v : Nat) (r : Row) : (s.setRow crew v r).reenc = s.reenc := by unfold State.setRow; split <;> rfl
@[simp] theorem setRow_rewaits (crew v : Nat) (r : Row) : (s.setRow crew v r).rewaits = s.rewaits := by unfold State.setRow; split <;> rfl
@[simp] theorem setRow_keyVer (crew v : Nat) (r : Row) : (s.setRow crew v r).keyVer = s.keyVer := by unfold State.setRow; split <;> rfl
@[simp] theorem setRow_extents (crew v : Nat) (r : Row) : (s.setRow crew v r).extents = s.extents := by unfold State.setRow; split <;> rfl
@[simp] theorem setRow_past (crew v : Nat) (r : Row) : (s.setRow crew v r).past = s.past := by unfold State.setRow; split <;> rfl
@[simp] theorem setRow_tlb (crew v : Nat) (r : Row) : (s.setRow crew v r).tlb = s.tlb := by unfold State.setRow; split <;> rfl
@[simp] theorem setRow_ahead (crew v : Nat) (r : Row) : (s.setRow crew v r).ahead = s.ahead := by unfold State.setRow; split <;> rfl
@[simp] theorem setRow_alias (crew v : Nat) (r : Row) : (s.setRow crew v r).alias_ = s.alias_ := by unfold State.setRow; split <;> rfl
@[simp] theorem setRow_spad (crew v : Nat) (r : Row) : (s.setRow crew v r).spad = s.spad := by unfold State.setRow; split <;> rfl
@[simp] theorem setRow_spadTag (crew v : Nat) (r : Row) : (s.setRow crew v r).spadTag = s.spadTag := by unfold State.setRow; split <;> rfl
@[simp] theorem setRow_spadPoison (crew v : Nat) (r : Row) : (s.setRow crew v r).spadPoison = s.spadPoison := by unfold State.setRow; split <;> rfl
@[simp] theorem setRow_ops (crew v : Nat) (r : Row) : (s.setRow crew v r).ops = s.ops := by unfold State.setRow; split <;> rfl
@[simp] theorem setRow_accs (crew v : Nat) (r : Row) : (s.setRow crew v r).accs = s.accs := by unfold State.setRow; split <;> rfl
@[simp] theorem setRow_crews (crew v : Nat) (r : Row) : (s.setRow crew v r).crews = s.crews := by unfold State.setRow; split <;> rfl
@[simp] theorem setRow_valid (crew v : Nat) (r : Row) : (s.setRow crew v r).valid = s.valid := by unfold State.setRow; split <;> rfl
@[simp] theorem setRow_threads (crew v : Nat) (r : Row) : (s.setRow crew v r).threads = s.threads := by unfold State.setRow; split <;> rfl
@[simp] theorem setRow_slots (crew v : Nat) (r : Row) : (s.setRow crew v r).slots = s.slots := by unfold State.setRow; split <;> rfl
@[simp] theorem setRow_yielded (crew v : Nat) (r : Row) : (s.setRow crew v r).yielded = s.yielded := by unfold State.setRow; split <;> rfl
@[simp] theorem setRow_ports (crew v : Nat) (r : Row) : (s.setRow crew v r).ports = s.ports := by unfold State.setRow; split <;> rfl
@[simp] theorem setRow_flights (crew v : Nat) (r : Row) : (s.setRow crew v r).flights = s.flights := by unfold State.setRow; split <;> rfl
@[simp] theorem setRow_gangs (crew v : Nat) (r : Row) : (s.setRow crew v r).gangs = s.gangs := by unfold State.setRow; split <;> rfl
@[simp] theorem setRow_ringH (crew v : Nat) (r : Row) : (s.setRow crew v r).ringH = s.ringH := by unfold State.setRow; split <;> rfl
@[simp] theorem setRow_ringT (crew v : Nat) (r : Row) : (s.setRow crew v r).ringT = s.ringT := by unfold State.setRow; split <;> rfl
@[simp] theorem setRow_ring (crew v : Nat) (r : Row) : (s.setRow crew v r).ring = s.ring := by unfold State.setRow; split <;> rfl
@[simp] theorem setRow_tiles (crew v : Nat) (r : Row) : (s.setRow crew v r).tiles = s.tiles := by unfold State.setRow; split <;> rfl
@[simp] theorem setRow_epi (crew v : Nat) (r : Row) : (s.setRow crew v r).epi = s.epi := by unfold State.setRow; split <;> rfl
@[simp] theorem setRow_reqs (crew v : Nat) (r : Row) : (s.setRow crew v r).reqs = s.reqs := by unfold State.setRow; split <;> rfl
@[simp] theorem setRow_active (crew v : Nat) (r : Row) : (s.setRow crew v r).active = s.active := by unfold State.setRow; split <;> rfl
@[simp] theorem setRow_shadow (crew v : Nat) (r : Row) : (s.setRow crew v r).shadow = s.shadow := by unfold State.setRow; split <;> rfl
@[simp] theorem setRow_resv (crew v : Nat) (r : Row) : (s.setRow crew v r).resv = s.resv := by unfold State.setRow; split <;> rfl
@[simp] theorem setRow_tasks (crew v : Nat) (r : Row) : (s.setRow crew v r).tasks = s.tasks := by unfold State.setRow; split <;> rfl
@[simp] theorem setRow_queues (crew v : Nat) (r : Row) : (s.setRow crew v r).queues = s.queues := by unfold State.setRow; split <;> rfl
@[simp] theorem setRow_worlds (crew v : Nat) (r : Row) : (s.setRow crew v r).worlds = s.worlds := by unfold State.setRow; split <;> rfl
@[simp] theorem setRow_sweeps (crew v : Nat) (r : Row) : (s.setRow crew v r).sweeps = s.sweeps := by unfold State.setRow; split <;> rfl
@[simp] theorem setRow_batches (crew v : Nat) (r : Row) : (s.setRow crew v r).batches = s.batches := by unfold State.setRow; split <;> rfl
@[simp] theorem setRow_fetches (crew v : Nat) (r : Row) : (s.setRow crew v r).fetches = s.fetches := by unfold State.setRow; split <;> rfl
@[simp] theorem setRow_chans (crew v : Nat) (r : Row) : (s.setRow crew v r).chans = s.chans := by unfold State.setRow; split <;> rfl
@[simp] theorem setRow_fwds (crew v : Nat) (r : Row) : (s.setRow crew v r).fwds = s.fwds := by unfold State.setRow; split <;> rfl
@[simp] theorem setRow_snaps (crew v : Nat) (r : Row) : (s.setRow crew v r).snaps = s.snaps := by unfold State.setRow; split <;> rfl
@[simp] theorem setRow_durable (crew v : Nat) (r : Row) : (s.setRow crew v r).durable = s.durable := by unfold State.setRow; split <;> rfl
@[simp] theorem setRow_agenda (crew v : Nat) (r : Row) : (s.setRow crew v r).agenda = s.agenda := by unfold State.setRow; split <;> rfl
@[simp] theorem setRow_cur (crew v : Nat) (r : Row) : (s.setRow crew v r).cur = s.cur := by unfold State.setRow; split <;> rfl
@[simp] theorem setRow_freeCtr (crew v : Nat) (r : Row) : (s.setRow crew v r).freeCtr = s.freeCtr := by unfold State.setRow; split <;> rfl
@[simp] theorem setRow_nextId (crew v : Nat) (r : Row) : (s.setRow crew v r).nextId = s.nextId := by unfold State.setRow; split <;> rfl

@[simp] theorem raise_boot (t : Nat) (fl : BitVec 32) : (s.raise t fl).boot = s.boot := by unfold State.raise; split <;> rfl
@[simp] theorem raise_regs (t : Nat) (fl : BitVec 32) : (s.raise t fl).regs = s.regs := by unfold State.raise; split <;> rfl
@[simp] theorem raise_clock (t : Nat) (fl : BitVec 32) : (s.raise t fl).clock = s.clock := by unfold State.raise; split <;> rfl
@[simp] theorem raise_mem (t : Nat) (fl : BitVec 32) : (s.raise t fl).mem = s.mem := by unfold State.raise; split <;> rfl
@[simp] theorem raise_poolMem (t : Nat) (fl : BitVec 32) : (s.raise t fl).poolMem = s.poolMem := by unfold State.raise; split <;> rfl
@[simp] theorem raise_meta (t : Nat) (fl : BitVec 32) : (s.raise t fl).meta_ = s.meta_ := by unfold State.raise; split <;> rfl
@[simp] theorem raise_cbytes (t : Nat) (fl : BitVec 32) : (s.raise t fl).cbytes = s.cbytes := by unfold State.raise; split <;> rfl
@[simp] theorem raise_cmeta (t : Nat) (fl : BitVec 32) : (s.raise t fl).cmeta = s.cmeta := by unfold State.raise; split <;> rfl
@[simp] theorem raise_owner (t : Nat) (fl : BitVec 32) : (s.raise t fl).owner = s.owner := by unfold State.raise; split <;> rfl
@[simp] theorem raise_shared (t : Nat) (fl : BitVec 32) : (s.raise t fl).shared = s.shared := by unfold State.raise; split <;> rfl
@[simp] theorem raise_unswept (t : Nat) (fl : BitVec 32) : (s.raise t fl).unswept = s.unswept := by unfold State.raise; split <;> rfl
@[simp] theorem raise_frames (t : Nat) (fl : BitVec 32) : (s.raise t fl).frames = s.frames := by unfold State.raise; split <;> rfl
@[simp] theorem raise_poolCtr (t : Nat) (fl : BitVec 32) : (s.raise t fl).poolCtr = s.poolCtr := by unfold State.raise; split <;> rfl
@[simp] theorem raise_reenc (t : Nat) (fl : BitVec 32) : (s.raise t fl).reenc = s.reenc := by unfold State.raise; split <;> rfl
@[simp] theorem raise_rewaits (t : Nat) (fl : BitVec 32) : (s.raise t fl).rewaits = s.rewaits := by unfold State.raise; split <;> rfl
@[simp] theorem raise_keyVer (t : Nat) (fl : BitVec 32) : (s.raise t fl).keyVer = s.keyVer := by unfold State.raise; split <;> rfl
@[simp] theorem raise_extents (t : Nat) (fl : BitVec 32) : (s.raise t fl).extents = s.extents := by unfold State.raise; split <;> rfl
@[simp] theorem raise_past (t : Nat) (fl : BitVec 32) : (s.raise t fl).past = s.past := by unfold State.raise; split <;> rfl
@[simp] theorem raise_tlb (t : Nat) (fl : BitVec 32) : (s.raise t fl).tlb = s.tlb := by unfold State.raise; split <;> rfl
@[simp] theorem raise_ahead (t : Nat) (fl : BitVec 32) : (s.raise t fl).ahead = s.ahead := by unfold State.raise; split <;> rfl
@[simp] theorem raise_alias (t : Nat) (fl : BitVec 32) : (s.raise t fl).alias_ = s.alias_ := by unfold State.raise; split <;> rfl
@[simp] theorem raise_spad (t : Nat) (fl : BitVec 32) : (s.raise t fl).spad = s.spad := by unfold State.raise; split <;> rfl
@[simp] theorem raise_spadTag (t : Nat) (fl : BitVec 32) : (s.raise t fl).spadTag = s.spadTag := by unfold State.raise; split <;> rfl
@[simp] theorem raise_spadPoison (t : Nat) (fl : BitVec 32) : (s.raise t fl).spadPoison = s.spadPoison := by unfold State.raise; split <;> rfl
@[simp] theorem raise_ops (t : Nat) (fl : BitVec 32) : (s.raise t fl).ops = s.ops := by unfold State.raise; split <;> rfl
@[simp] theorem raise_accs (t : Nat) (fl : BitVec 32) : (s.raise t fl).accs = s.accs := by unfold State.raise; split <;> rfl
@[simp] theorem raise_crews (t : Nat) (fl : BitVec 32) : (s.raise t fl).crews = s.crews := by unfold State.raise; split <;> rfl
@[simp] theorem raise_rows (t : Nat) (fl : BitVec 32) : (s.raise t fl).rows = s.rows := by unfold State.raise; split <;> rfl
@[simp] theorem raise_valid (t : Nat) (fl : BitVec 32) : (s.raise t fl).valid = s.valid := by unfold State.raise; split <;> rfl
@[simp] theorem raise_slots (t : Nat) (fl : BitVec 32) : (s.raise t fl).slots = s.slots := by unfold State.raise; split <;> rfl
@[simp] theorem raise_yielded (t : Nat) (fl : BitVec 32) : (s.raise t fl).yielded = s.yielded := by unfold State.raise; split <;> rfl
@[simp] theorem raise_ports (t : Nat) (fl : BitVec 32) : (s.raise t fl).ports = s.ports := by unfold State.raise; split <;> rfl
@[simp] theorem raise_flights (t : Nat) (fl : BitVec 32) : (s.raise t fl).flights = s.flights := by unfold State.raise; split <;> rfl
@[simp] theorem raise_gangs (t : Nat) (fl : BitVec 32) : (s.raise t fl).gangs = s.gangs := by unfold State.raise; split <;> rfl
@[simp] theorem raise_ringH (t : Nat) (fl : BitVec 32) : (s.raise t fl).ringH = s.ringH := by unfold State.raise; split <;> rfl
@[simp] theorem raise_ringT (t : Nat) (fl : BitVec 32) : (s.raise t fl).ringT = s.ringT := by unfold State.raise; split <;> rfl
@[simp] theorem raise_ring (t : Nat) (fl : BitVec 32) : (s.raise t fl).ring = s.ring := by unfold State.raise; split <;> rfl
@[simp] theorem raise_tiles (t : Nat) (fl : BitVec 32) : (s.raise t fl).tiles = s.tiles := by unfold State.raise; split <;> rfl
@[simp] theorem raise_epi (t : Nat) (fl : BitVec 32) : (s.raise t fl).epi = s.epi := by unfold State.raise; split <;> rfl
@[simp] theorem raise_reqs (t : Nat) (fl : BitVec 32) : (s.raise t fl).reqs = s.reqs := by unfold State.raise; split <;> rfl
@[simp] theorem raise_active (t : Nat) (fl : BitVec 32) : (s.raise t fl).active = s.active := by unfold State.raise; split <;> rfl
@[simp] theorem raise_shadow (t : Nat) (fl : BitVec 32) : (s.raise t fl).shadow = s.shadow := by unfold State.raise; split <;> rfl
@[simp] theorem raise_resv (t : Nat) (fl : BitVec 32) : (s.raise t fl).resv = s.resv := by unfold State.raise; split <;> rfl
@[simp] theorem raise_tasks (t : Nat) (fl : BitVec 32) : (s.raise t fl).tasks = s.tasks := by unfold State.raise; split <;> rfl
@[simp] theorem raise_queues (t : Nat) (fl : BitVec 32) : (s.raise t fl).queues = s.queues := by unfold State.raise; split <;> rfl
@[simp] theorem raise_worlds (t : Nat) (fl : BitVec 32) : (s.raise t fl).worlds = s.worlds := by unfold State.raise; split <;> rfl
@[simp] theorem raise_sweeps (t : Nat) (fl : BitVec 32) : (s.raise t fl).sweeps = s.sweeps := by unfold State.raise; split <;> rfl
@[simp] theorem raise_batches (t : Nat) (fl : BitVec 32) : (s.raise t fl).batches = s.batches := by unfold State.raise; split <;> rfl
@[simp] theorem raise_fetches (t : Nat) (fl : BitVec 32) : (s.raise t fl).fetches = s.fetches := by unfold State.raise; split <;> rfl
@[simp] theorem raise_chans (t : Nat) (fl : BitVec 32) : (s.raise t fl).chans = s.chans := by unfold State.raise; split <;> rfl
@[simp] theorem raise_fwds (t : Nat) (fl : BitVec 32) : (s.raise t fl).fwds = s.fwds := by unfold State.raise; split <;> rfl
@[simp] theorem raise_snaps (t : Nat) (fl : BitVec 32) : (s.raise t fl).snaps = s.snaps := by unfold State.raise; split <;> rfl
@[simp] theorem raise_durable (t : Nat) (fl : BitVec 32) : (s.raise t fl).durable = s.durable := by unfold State.raise; split <;> rfl
@[simp] theorem raise_agenda (t : Nat) (fl : BitVec 32) : (s.raise t fl).agenda = s.agenda := by unfold State.raise; split <;> rfl
@[simp] theorem raise_cur (t : Nat) (fl : BitVec 32) : (s.raise t fl).cur = s.cur := by unfold State.raise; split <;> rfl
@[simp] theorem raise_freeCtr (t : Nat) (fl : BitVec 32) : (s.raise t fl).freeCtr = s.freeCtr := by unfold State.raise; split <;> rfl
@[simp] theorem raise_nextId (t : Nat) (fl : BitVec 32) : (s.raise t fl).nextId = s.nextId := by unfold State.raise; split <;> rfl

@[simp] theorem addOp_boot (t : Nat) (k : OpKind) : (s.addOp t k).boot = s.boot := rfl
@[simp] theorem addOp_regs (t : Nat) (k : OpKind) : (s.addOp t k).regs = s.regs := rfl
@[simp] theorem addOp_clock (t : Nat) (k : OpKind) : (s.addOp t k).clock = s.clock := rfl
@[simp] theorem addOp_mem (t : Nat) (k : OpKind) : (s.addOp t k).mem = s.mem := rfl
@[simp] theorem addOp_poolMem (t : Nat) (k : OpKind) : (s.addOp t k).poolMem = s.poolMem := rfl
@[simp] theorem addOp_meta (t : Nat) (k : OpKind) : (s.addOp t k).meta_ = s.meta_ := rfl
@[simp] theorem addOp_cbytes (t : Nat) (k : OpKind) : (s.addOp t k).cbytes = s.cbytes := rfl
@[simp] theorem addOp_cmeta (t : Nat) (k : OpKind) : (s.addOp t k).cmeta = s.cmeta := rfl
@[simp] theorem addOp_owner (t : Nat) (k : OpKind) : (s.addOp t k).owner = s.owner := rfl
@[simp] theorem addOp_shared (t : Nat) (k : OpKind) : (s.addOp t k).shared = s.shared := rfl
@[simp] theorem addOp_unswept (t : Nat) (k : OpKind) : (s.addOp t k).unswept = s.unswept := rfl
@[simp] theorem addOp_frames (t : Nat) (k : OpKind) : (s.addOp t k).frames = s.frames := rfl
@[simp] theorem addOp_poolCtr (t : Nat) (k : OpKind) : (s.addOp t k).poolCtr = s.poolCtr := rfl
@[simp] theorem addOp_reenc (t : Nat) (k : OpKind) : (s.addOp t k).reenc = s.reenc := rfl
@[simp] theorem addOp_rewaits (t : Nat) (k : OpKind) : (s.addOp t k).rewaits = s.rewaits := rfl
@[simp] theorem addOp_keyVer (t : Nat) (k : OpKind) : (s.addOp t k).keyVer = s.keyVer := rfl
@[simp] theorem addOp_extents (t : Nat) (k : OpKind) : (s.addOp t k).extents = s.extents := rfl
@[simp] theorem addOp_past (t : Nat) (k : OpKind) : (s.addOp t k).past = s.past := rfl
@[simp] theorem addOp_tlb (t : Nat) (k : OpKind) : (s.addOp t k).tlb = s.tlb := rfl
@[simp] theorem addOp_ahead (t : Nat) (k : OpKind) : (s.addOp t k).ahead = s.ahead := rfl
@[simp] theorem addOp_alias (t : Nat) (k : OpKind) : (s.addOp t k).alias_ = s.alias_ := rfl
@[simp] theorem addOp_spad (t : Nat) (k : OpKind) : (s.addOp t k).spad = s.spad := rfl
@[simp] theorem addOp_spadTag (t : Nat) (k : OpKind) : (s.addOp t k).spadTag = s.spadTag := rfl
@[simp] theorem addOp_spadPoison (t : Nat) (k : OpKind) : (s.addOp t k).spadPoison = s.spadPoison := rfl
@[simp] theorem addOp_accs (t : Nat) (k : OpKind) : (s.addOp t k).accs = s.accs := rfl
@[simp] theorem addOp_crews (t : Nat) (k : OpKind) : (s.addOp t k).crews = s.crews := rfl
@[simp] theorem addOp_rows (t : Nat) (k : OpKind) : (s.addOp t k).rows = s.rows := rfl
@[simp] theorem addOp_valid (t : Nat) (k : OpKind) : (s.addOp t k).valid = s.valid := rfl
@[simp] theorem addOp_threads (t : Nat) (k : OpKind) : (s.addOp t k).threads = s.threads := rfl
@[simp] theorem addOp_slots (t : Nat) (k : OpKind) : (s.addOp t k).slots = s.slots := rfl
@[simp] theorem addOp_yielded (t : Nat) (k : OpKind) : (s.addOp t k).yielded = s.yielded := rfl
@[simp] theorem addOp_ports (t : Nat) (k : OpKind) : (s.addOp t k).ports = s.ports := rfl
@[simp] theorem addOp_flights (t : Nat) (k : OpKind) : (s.addOp t k).flights = s.flights := rfl
@[simp] theorem addOp_gangs (t : Nat) (k : OpKind) : (s.addOp t k).gangs = s.gangs := rfl
@[simp] theorem addOp_ringH (t : Nat) (k : OpKind) : (s.addOp t k).ringH = s.ringH := rfl
@[simp] theorem addOp_ringT (t : Nat) (k : OpKind) : (s.addOp t k).ringT = s.ringT := rfl
@[simp] theorem addOp_ring (t : Nat) (k : OpKind) : (s.addOp t k).ring = s.ring := rfl
@[simp] theorem addOp_tiles (t : Nat) (k : OpKind) : (s.addOp t k).tiles = s.tiles := rfl
@[simp] theorem addOp_epi (t : Nat) (k : OpKind) : (s.addOp t k).epi = s.epi := rfl
@[simp] theorem addOp_reqs (t : Nat) (k : OpKind) : (s.addOp t k).reqs = s.reqs := rfl
@[simp] theorem addOp_active (t : Nat) (k : OpKind) : (s.addOp t k).active = s.active := rfl
@[simp] theorem addOp_shadow (t : Nat) (k : OpKind) : (s.addOp t k).shadow = s.shadow := rfl
@[simp] theorem addOp_resv (t : Nat) (k : OpKind) : (s.addOp t k).resv = s.resv := rfl
@[simp] theorem addOp_tasks (t : Nat) (k : OpKind) : (s.addOp t k).tasks = s.tasks := rfl
@[simp] theorem addOp_queues (t : Nat) (k : OpKind) : (s.addOp t k).queues = s.queues := rfl
@[simp] theorem addOp_worlds (t : Nat) (k : OpKind) : (s.addOp t k).worlds = s.worlds := rfl
@[simp] theorem addOp_sweeps (t : Nat) (k : OpKind) : (s.addOp t k).sweeps = s.sweeps := rfl
@[simp] theorem addOp_batches (t : Nat) (k : OpKind) : (s.addOp t k).batches = s.batches := rfl
@[simp] theorem addOp_fetches (t : Nat) (k : OpKind) : (s.addOp t k).fetches = s.fetches := rfl
@[simp] theorem addOp_chans (t : Nat) (k : OpKind) : (s.addOp t k).chans = s.chans := rfl
@[simp] theorem addOp_fwds (t : Nat) (k : OpKind) : (s.addOp t k).fwds = s.fwds := rfl
@[simp] theorem addOp_snaps (t : Nat) (k : OpKind) : (s.addOp t k).snaps = s.snaps := rfl
@[simp] theorem addOp_durable (t : Nat) (k : OpKind) : (s.addOp t k).durable = s.durable := rfl
@[simp] theorem addOp_agenda (t : Nat) (k : OpKind) : (s.addOp t k).agenda = s.agenda := rfl
@[simp] theorem addOp_cur (t : Nat) (k : OpKind) : (s.addOp t k).cur = s.cur := rfl
@[simp] theorem addOp_freeCtr (t : Nat) (k : OpKind) : (s.addOp t k).freeCtr = s.freeCtr := rfl

@[simp] theorem incLd_boot (t : Nat) : (s.incLd t).boot = s.boot := rfl
@[simp] theorem incLd_regs (t : Nat) : (s.incLd t).regs = s.regs := rfl
@[simp] theorem incLd_clock (t : Nat) : (s.incLd t).clock = s.clock := rfl
@[simp] theorem incLd_mem (t : Nat) : (s.incLd t).mem = s.mem := rfl
@[simp] theorem incLd_poolMem (t : Nat) : (s.incLd t).poolMem = s.poolMem := rfl
@[simp] theorem incLd_meta (t : Nat) : (s.incLd t).meta_ = s.meta_ := rfl
@[simp] theorem incLd_cbytes (t : Nat) : (s.incLd t).cbytes = s.cbytes := rfl
@[simp] theorem incLd_cmeta (t : Nat) : (s.incLd t).cmeta = s.cmeta := rfl
@[simp] theorem incLd_owner (t : Nat) : (s.incLd t).owner = s.owner := rfl
@[simp] theorem incLd_shared (t : Nat) : (s.incLd t).shared = s.shared := rfl
@[simp] theorem incLd_unswept (t : Nat) : (s.incLd t).unswept = s.unswept := rfl
@[simp] theorem incLd_frames (t : Nat) : (s.incLd t).frames = s.frames := rfl
@[simp] theorem incLd_poolCtr (t : Nat) : (s.incLd t).poolCtr = s.poolCtr := rfl
@[simp] theorem incLd_reenc (t : Nat) : (s.incLd t).reenc = s.reenc := rfl
@[simp] theorem incLd_rewaits (t : Nat) : (s.incLd t).rewaits = s.rewaits := rfl
@[simp] theorem incLd_keyVer (t : Nat) : (s.incLd t).keyVer = s.keyVer := rfl
@[simp] theorem incLd_extents (t : Nat) : (s.incLd t).extents = s.extents := rfl
@[simp] theorem incLd_past (t : Nat) : (s.incLd t).past = s.past := rfl
@[simp] theorem incLd_tlb (t : Nat) : (s.incLd t).tlb = s.tlb := rfl
@[simp] theorem incLd_ahead (t : Nat) : (s.incLd t).ahead = s.ahead := rfl
@[simp] theorem incLd_alias (t : Nat) : (s.incLd t).alias_ = s.alias_ := rfl
@[simp] theorem incLd_spad (t : Nat) : (s.incLd t).spad = s.spad := rfl
@[simp] theorem incLd_spadTag (t : Nat) : (s.incLd t).spadTag = s.spadTag := rfl
@[simp] theorem incLd_spadPoison (t : Nat) : (s.incLd t).spadPoison = s.spadPoison := rfl
@[simp] theorem incLd_ops (t : Nat) : (s.incLd t).ops = s.ops := rfl
@[simp] theorem incLd_accs (t : Nat) : (s.incLd t).accs = s.accs := rfl
@[simp] theorem incLd_crews (t : Nat) : (s.incLd t).crews = s.crews := rfl
@[simp] theorem incLd_rows (t : Nat) : (s.incLd t).rows = s.rows := rfl
@[simp] theorem incLd_valid (t : Nat) : (s.incLd t).valid = s.valid := rfl
@[simp] theorem incLd_slots (t : Nat) : (s.incLd t).slots = s.slots := rfl
@[simp] theorem incLd_yielded (t : Nat) : (s.incLd t).yielded = s.yielded := rfl
@[simp] theorem incLd_ports (t : Nat) : (s.incLd t).ports = s.ports := rfl
@[simp] theorem incLd_flights (t : Nat) : (s.incLd t).flights = s.flights := rfl
@[simp] theorem incLd_gangs (t : Nat) : (s.incLd t).gangs = s.gangs := rfl
@[simp] theorem incLd_ringH (t : Nat) : (s.incLd t).ringH = s.ringH := rfl
@[simp] theorem incLd_ringT (t : Nat) : (s.incLd t).ringT = s.ringT := rfl
@[simp] theorem incLd_ring (t : Nat) : (s.incLd t).ring = s.ring := rfl
@[simp] theorem incLd_tiles (t : Nat) : (s.incLd t).tiles = s.tiles := rfl
@[simp] theorem incLd_epi (t : Nat) : (s.incLd t).epi = s.epi := rfl
@[simp] theorem incLd_reqs (t : Nat) : (s.incLd t).reqs = s.reqs := rfl
@[simp] theorem incLd_active (t : Nat) : (s.incLd t).active = s.active := rfl
@[simp] theorem incLd_shadow (t : Nat) : (s.incLd t).shadow = s.shadow := rfl
@[simp] theorem incLd_resv (t : Nat) : (s.incLd t).resv = s.resv := rfl
@[simp] theorem incLd_tasks (t : Nat) : (s.incLd t).tasks = s.tasks := rfl
@[simp] theorem incLd_queues (t : Nat) : (s.incLd t).queues = s.queues := rfl
@[simp] theorem incLd_worlds (t : Nat) : (s.incLd t).worlds = s.worlds := rfl
@[simp] theorem incLd_sweeps (t : Nat) : (s.incLd t).sweeps = s.sweeps := rfl
@[simp] theorem incLd_batches (t : Nat) : (s.incLd t).batches = s.batches := rfl
@[simp] theorem incLd_fetches (t : Nat) : (s.incLd t).fetches = s.fetches := rfl
@[simp] theorem incLd_chans (t : Nat) : (s.incLd t).chans = s.chans := rfl
@[simp] theorem incLd_fwds (t : Nat) : (s.incLd t).fwds = s.fwds := rfl
@[simp] theorem incLd_snaps (t : Nat) : (s.incLd t).snaps = s.snaps := rfl
@[simp] theorem incLd_durable (t : Nat) : (s.incLd t).durable = s.durable := rfl
@[simp] theorem incLd_agenda (t : Nat) : (s.incLd t).agenda = s.agenda := rfl
@[simp] theorem incLd_cur (t : Nat) : (s.incLd t).cur = s.cur := rfl
@[simp] theorem incLd_freeCtr (t : Nat) : (s.incLd t).freeCtr = s.freeCtr := rfl
@[simp] theorem incLd_nextId (t : Nat) : (s.incLd t).nextId = s.nextId := rfl

@[simp] theorem incSt_boot (t : Nat) : (s.incSt t).boot = s.boot := rfl
@[simp] theorem incSt_regs (t : Nat) : (s.incSt t).regs = s.regs := rfl
@[simp] theorem incSt_clock (t : Nat) : (s.incSt t).clock = s.clock := rfl
@[simp] theorem incSt_mem (t : Nat) : (s.incSt t).mem = s.mem := rfl
@[simp] theorem incSt_poolMem (t : Nat) : (s.incSt t).poolMem = s.poolMem := rfl
@[simp] theorem incSt_meta (t : Nat) : (s.incSt t).meta_ = s.meta_ := rfl
@[simp] theorem incSt_cbytes (t : Nat) : (s.incSt t).cbytes = s.cbytes := rfl
@[simp] theorem incSt_cmeta (t : Nat) : (s.incSt t).cmeta = s.cmeta := rfl
@[simp] theorem incSt_owner (t : Nat) : (s.incSt t).owner = s.owner := rfl
@[simp] theorem incSt_shared (t : Nat) : (s.incSt t).shared = s.shared := rfl
@[simp] theorem incSt_unswept (t : Nat) : (s.incSt t).unswept = s.unswept := rfl
@[simp] theorem incSt_frames (t : Nat) : (s.incSt t).frames = s.frames := rfl
@[simp] theorem incSt_poolCtr (t : Nat) : (s.incSt t).poolCtr = s.poolCtr := rfl
@[simp] theorem incSt_reenc (t : Nat) : (s.incSt t).reenc = s.reenc := rfl
@[simp] theorem incSt_rewaits (t : Nat) : (s.incSt t).rewaits = s.rewaits := rfl
@[simp] theorem incSt_keyVer (t : Nat) : (s.incSt t).keyVer = s.keyVer := rfl
@[simp] theorem incSt_extents (t : Nat) : (s.incSt t).extents = s.extents := rfl
@[simp] theorem incSt_past (t : Nat) : (s.incSt t).past = s.past := rfl
@[simp] theorem incSt_tlb (t : Nat) : (s.incSt t).tlb = s.tlb := rfl
@[simp] theorem incSt_ahead (t : Nat) : (s.incSt t).ahead = s.ahead := rfl
@[simp] theorem incSt_alias (t : Nat) : (s.incSt t).alias_ = s.alias_ := rfl
@[simp] theorem incSt_spad (t : Nat) : (s.incSt t).spad = s.spad := rfl
@[simp] theorem incSt_spadTag (t : Nat) : (s.incSt t).spadTag = s.spadTag := rfl
@[simp] theorem incSt_spadPoison (t : Nat) : (s.incSt t).spadPoison = s.spadPoison := rfl
@[simp] theorem incSt_ops (t : Nat) : (s.incSt t).ops = s.ops := rfl
@[simp] theorem incSt_accs (t : Nat) : (s.incSt t).accs = s.accs := rfl
@[simp] theorem incSt_crews (t : Nat) : (s.incSt t).crews = s.crews := rfl
@[simp] theorem incSt_rows (t : Nat) : (s.incSt t).rows = s.rows := rfl
@[simp] theorem incSt_valid (t : Nat) : (s.incSt t).valid = s.valid := rfl
@[simp] theorem incSt_slots (t : Nat) : (s.incSt t).slots = s.slots := rfl
@[simp] theorem incSt_yielded (t : Nat) : (s.incSt t).yielded = s.yielded := rfl
@[simp] theorem incSt_ports (t : Nat) : (s.incSt t).ports = s.ports := rfl
@[simp] theorem incSt_flights (t : Nat) : (s.incSt t).flights = s.flights := rfl
@[simp] theorem incSt_gangs (t : Nat) : (s.incSt t).gangs = s.gangs := rfl
@[simp] theorem incSt_ringH (t : Nat) : (s.incSt t).ringH = s.ringH := rfl
@[simp] theorem incSt_ringT (t : Nat) : (s.incSt t).ringT = s.ringT := rfl
@[simp] theorem incSt_ring (t : Nat) : (s.incSt t).ring = s.ring := rfl
@[simp] theorem incSt_tiles (t : Nat) : (s.incSt t).tiles = s.tiles := rfl
@[simp] theorem incSt_epi (t : Nat) : (s.incSt t).epi = s.epi := rfl
@[simp] theorem incSt_reqs (t : Nat) : (s.incSt t).reqs = s.reqs := rfl
@[simp] theorem incSt_active (t : Nat) : (s.incSt t).active = s.active := rfl
@[simp] theorem incSt_shadow (t : Nat) : (s.incSt t).shadow = s.shadow := rfl
@[simp] theorem incSt_resv (t : Nat) : (s.incSt t).resv = s.resv := rfl
@[simp] theorem incSt_tasks (t : Nat) : (s.incSt t).tasks = s.tasks := rfl
@[simp] theorem incSt_queues (t : Nat) : (s.incSt t).queues = s.queues := rfl
@[simp] theorem incSt_worlds (t : Nat) : (s.incSt t).worlds = s.worlds := rfl
@[simp] theorem incSt_sweeps (t : Nat) : (s.incSt t).sweeps = s.sweeps := rfl
@[simp] theorem incSt_batches (t : Nat) : (s.incSt t).batches = s.batches := rfl
@[simp] theorem incSt_fetches (t : Nat) : (s.incSt t).fetches = s.fetches := rfl
@[simp] theorem incSt_chans (t : Nat) : (s.incSt t).chans = s.chans := rfl
@[simp] theorem incSt_fwds (t : Nat) : (s.incSt t).fwds = s.fwds := rfl
@[simp] theorem incSt_snaps (t : Nat) : (s.incSt t).snaps = s.snaps := rfl
@[simp] theorem incSt_durable (t : Nat) : (s.incSt t).durable = s.durable := rfl
@[simp] theorem incSt_agenda (t : Nat) : (s.incSt t).agenda = s.agenda := rfl
@[simp] theorem incSt_cur (t : Nat) : (s.incSt t).cur = s.cur := rfl
@[simp] theorem incSt_freeCtr (t : Nat) : (s.incSt t).freeCtr = s.freeCtr := rfl
@[simp] theorem incSt_nextId (t : Nat) : (s.incSt t).nextId = s.nextId := rfl

@[simp] theorem incCp_boot (t : Nat) : (s.incCp t).boot = s.boot := rfl
@[simp] theorem incCp_regs (t : Nat) : (s.incCp t).regs = s.regs := rfl
@[simp] theorem incCp_clock (t : Nat) : (s.incCp t).clock = s.clock := rfl
@[simp] theorem incCp_mem (t : Nat) : (s.incCp t).mem = s.mem := rfl
@[simp] theorem incCp_poolMem (t : Nat) : (s.incCp t).poolMem = s.poolMem := rfl
@[simp] theorem incCp_meta (t : Nat) : (s.incCp t).meta_ = s.meta_ := rfl
@[simp] theorem incCp_cbytes (t : Nat) : (s.incCp t).cbytes = s.cbytes := rfl
@[simp] theorem incCp_cmeta (t : Nat) : (s.incCp t).cmeta = s.cmeta := rfl
@[simp] theorem incCp_owner (t : Nat) : (s.incCp t).owner = s.owner := rfl
@[simp] theorem incCp_shared (t : Nat) : (s.incCp t).shared = s.shared := rfl
@[simp] theorem incCp_unswept (t : Nat) : (s.incCp t).unswept = s.unswept := rfl
@[simp] theorem incCp_frames (t : Nat) : (s.incCp t).frames = s.frames := rfl
@[simp] theorem incCp_poolCtr (t : Nat) : (s.incCp t).poolCtr = s.poolCtr := rfl
@[simp] theorem incCp_reenc (t : Nat) : (s.incCp t).reenc = s.reenc := rfl
@[simp] theorem incCp_rewaits (t : Nat) : (s.incCp t).rewaits = s.rewaits := rfl
@[simp] theorem incCp_keyVer (t : Nat) : (s.incCp t).keyVer = s.keyVer := rfl
@[simp] theorem incCp_extents (t : Nat) : (s.incCp t).extents = s.extents := rfl
@[simp] theorem incCp_past (t : Nat) : (s.incCp t).past = s.past := rfl
@[simp] theorem incCp_tlb (t : Nat) : (s.incCp t).tlb = s.tlb := rfl
@[simp] theorem incCp_ahead (t : Nat) : (s.incCp t).ahead = s.ahead := rfl
@[simp] theorem incCp_alias (t : Nat) : (s.incCp t).alias_ = s.alias_ := rfl
@[simp] theorem incCp_spad (t : Nat) : (s.incCp t).spad = s.spad := rfl
@[simp] theorem incCp_spadTag (t : Nat) : (s.incCp t).spadTag = s.spadTag := rfl
@[simp] theorem incCp_spadPoison (t : Nat) : (s.incCp t).spadPoison = s.spadPoison := rfl
@[simp] theorem incCp_ops (t : Nat) : (s.incCp t).ops = s.ops := rfl
@[simp] theorem incCp_accs (t : Nat) : (s.incCp t).accs = s.accs := rfl
@[simp] theorem incCp_crews (t : Nat) : (s.incCp t).crews = s.crews := rfl
@[simp] theorem incCp_rows (t : Nat) : (s.incCp t).rows = s.rows := rfl
@[simp] theorem incCp_valid (t : Nat) : (s.incCp t).valid = s.valid := rfl
@[simp] theorem incCp_slots (t : Nat) : (s.incCp t).slots = s.slots := rfl
@[simp] theorem incCp_yielded (t : Nat) : (s.incCp t).yielded = s.yielded := rfl
@[simp] theorem incCp_ports (t : Nat) : (s.incCp t).ports = s.ports := rfl
@[simp] theorem incCp_flights (t : Nat) : (s.incCp t).flights = s.flights := rfl
@[simp] theorem incCp_gangs (t : Nat) : (s.incCp t).gangs = s.gangs := rfl
@[simp] theorem incCp_ringH (t : Nat) : (s.incCp t).ringH = s.ringH := rfl
@[simp] theorem incCp_ringT (t : Nat) : (s.incCp t).ringT = s.ringT := rfl
@[simp] theorem incCp_ring (t : Nat) : (s.incCp t).ring = s.ring := rfl
@[simp] theorem incCp_tiles (t : Nat) : (s.incCp t).tiles = s.tiles := rfl
@[simp] theorem incCp_epi (t : Nat) : (s.incCp t).epi = s.epi := rfl
@[simp] theorem incCp_reqs (t : Nat) : (s.incCp t).reqs = s.reqs := rfl
@[simp] theorem incCp_active (t : Nat) : (s.incCp t).active = s.active := rfl
@[simp] theorem incCp_shadow (t : Nat) : (s.incCp t).shadow = s.shadow := rfl
@[simp] theorem incCp_resv (t : Nat) : (s.incCp t).resv = s.resv := rfl
@[simp] theorem incCp_tasks (t : Nat) : (s.incCp t).tasks = s.tasks := rfl
@[simp] theorem incCp_queues (t : Nat) : (s.incCp t).queues = s.queues := rfl
@[simp] theorem incCp_worlds (t : Nat) : (s.incCp t).worlds = s.worlds := rfl
@[simp] theorem incCp_sweeps (t : Nat) : (s.incCp t).sweeps = s.sweeps := rfl
@[simp] theorem incCp_batches (t : Nat) : (s.incCp t).batches = s.batches := rfl
@[simp] theorem incCp_fetches (t : Nat) : (s.incCp t).fetches = s.fetches := rfl
@[simp] theorem incCp_chans (t : Nat) : (s.incCp t).chans = s.chans := rfl
@[simp] theorem incCp_fwds (t : Nat) : (s.incCp t).fwds = s.fwds := rfl
@[simp] theorem incCp_snaps (t : Nat) : (s.incCp t).snaps = s.snaps := rfl
@[simp] theorem incCp_durable (t : Nat) : (s.incCp t).durable = s.durable := rfl
@[simp] theorem incCp_agenda (t : Nat) : (s.incCp t).agenda = s.agenda := rfl
@[simp] theorem incCp_cur (t : Nat) : (s.incCp t).cur = s.cur := rfl
@[simp] theorem incCp_freeCtr (t : Nat) : (s.incCp t).freeCtr = s.freeCtr := rfl
@[simp] theorem incCp_nextId (t : Nat) : (s.incCp t).nextId = s.nextId := rfl

@[simp] theorem incTl_boot (t : Nat) : (s.incTl t).boot = s.boot := rfl
@[simp] theorem incTl_regs (t : Nat) : (s.incTl t).regs = s.regs := rfl
@[simp] theorem incTl_clock (t : Nat) : (s.incTl t).clock = s.clock := rfl
@[simp] theorem incTl_mem (t : Nat) : (s.incTl t).mem = s.mem := rfl
@[simp] theorem incTl_poolMem (t : Nat) : (s.incTl t).poolMem = s.poolMem := rfl
@[simp] theorem incTl_meta (t : Nat) : (s.incTl t).meta_ = s.meta_ := rfl
@[simp] theorem incTl_cbytes (t : Nat) : (s.incTl t).cbytes = s.cbytes := rfl
@[simp] theorem incTl_cmeta (t : Nat) : (s.incTl t).cmeta = s.cmeta := rfl
@[simp] theorem incTl_owner (t : Nat) : (s.incTl t).owner = s.owner := rfl
@[simp] theorem incTl_shared (t : Nat) : (s.incTl t).shared = s.shared := rfl
@[simp] theorem incTl_unswept (t : Nat) : (s.incTl t).unswept = s.unswept := rfl
@[simp] theorem incTl_frames (t : Nat) : (s.incTl t).frames = s.frames := rfl
@[simp] theorem incTl_poolCtr (t : Nat) : (s.incTl t).poolCtr = s.poolCtr := rfl
@[simp] theorem incTl_reenc (t : Nat) : (s.incTl t).reenc = s.reenc := rfl
@[simp] theorem incTl_rewaits (t : Nat) : (s.incTl t).rewaits = s.rewaits := rfl
@[simp] theorem incTl_keyVer (t : Nat) : (s.incTl t).keyVer = s.keyVer := rfl
@[simp] theorem incTl_extents (t : Nat) : (s.incTl t).extents = s.extents := rfl
@[simp] theorem incTl_past (t : Nat) : (s.incTl t).past = s.past := rfl
@[simp] theorem incTl_tlb (t : Nat) : (s.incTl t).tlb = s.tlb := rfl
@[simp] theorem incTl_ahead (t : Nat) : (s.incTl t).ahead = s.ahead := rfl
@[simp] theorem incTl_alias (t : Nat) : (s.incTl t).alias_ = s.alias_ := rfl
@[simp] theorem incTl_spad (t : Nat) : (s.incTl t).spad = s.spad := rfl
@[simp] theorem incTl_spadTag (t : Nat) : (s.incTl t).spadTag = s.spadTag := rfl
@[simp] theorem incTl_spadPoison (t : Nat) : (s.incTl t).spadPoison = s.spadPoison := rfl
@[simp] theorem incTl_ops (t : Nat) : (s.incTl t).ops = s.ops := rfl
@[simp] theorem incTl_accs (t : Nat) : (s.incTl t).accs = s.accs := rfl
@[simp] theorem incTl_crews (t : Nat) : (s.incTl t).crews = s.crews := rfl
@[simp] theorem incTl_rows (t : Nat) : (s.incTl t).rows = s.rows := rfl
@[simp] theorem incTl_valid (t : Nat) : (s.incTl t).valid = s.valid := rfl
@[simp] theorem incTl_slots (t : Nat) : (s.incTl t).slots = s.slots := rfl
@[simp] theorem incTl_yielded (t : Nat) : (s.incTl t).yielded = s.yielded := rfl
@[simp] theorem incTl_ports (t : Nat) : (s.incTl t).ports = s.ports := rfl
@[simp] theorem incTl_flights (t : Nat) : (s.incTl t).flights = s.flights := rfl
@[simp] theorem incTl_gangs (t : Nat) : (s.incTl t).gangs = s.gangs := rfl
@[simp] theorem incTl_ringH (t : Nat) : (s.incTl t).ringH = s.ringH := rfl
@[simp] theorem incTl_ringT (t : Nat) : (s.incTl t).ringT = s.ringT := rfl
@[simp] theorem incTl_ring (t : Nat) : (s.incTl t).ring = s.ring := rfl
@[simp] theorem incTl_tiles (t : Nat) : (s.incTl t).tiles = s.tiles := rfl
@[simp] theorem incTl_epi (t : Nat) : (s.incTl t).epi = s.epi := rfl
@[simp] theorem incTl_reqs (t : Nat) : (s.incTl t).reqs = s.reqs := rfl
@[simp] theorem incTl_active (t : Nat) : (s.incTl t).active = s.active := rfl
@[simp] theorem incTl_shadow (t : Nat) : (s.incTl t).shadow = s.shadow := rfl
@[simp] theorem incTl_resv (t : Nat) : (s.incTl t).resv = s.resv := rfl
@[simp] theorem incTl_tasks (t : Nat) : (s.incTl t).tasks = s.tasks := rfl
@[simp] theorem incTl_queues (t : Nat) : (s.incTl t).queues = s.queues := rfl
@[simp] theorem incTl_worlds (t : Nat) : (s.incTl t).worlds = s.worlds := rfl
@[simp] theorem incTl_sweeps (t : Nat) : (s.incTl t).sweeps = s.sweeps := rfl
@[simp] theorem incTl_batches (t : Nat) : (s.incTl t).batches = s.batches := rfl
@[simp] theorem incTl_fetches (t : Nat) : (s.incTl t).fetches = s.fetches := rfl
@[simp] theorem incTl_chans (t : Nat) : (s.incTl t).chans = s.chans := rfl
@[simp] theorem incTl_fwds (t : Nat) : (s.incTl t).fwds = s.fwds := rfl
@[simp] theorem incTl_snaps (t : Nat) : (s.incTl t).snaps = s.snaps := rfl
@[simp] theorem incTl_durable (t : Nat) : (s.incTl t).durable = s.durable := rfl
@[simp] theorem incTl_agenda (t : Nat) : (s.incTl t).agenda = s.agenda := rfl
@[simp] theorem incTl_cur (t : Nat) : (s.incTl t).cur = s.cur := rfl
@[simp] theorem incTl_freeCtr (t : Nat) : (s.incTl t).freeCtr = s.freeCtr := rfl
@[simp] theorem incTl_nextId (t : Nat) : (s.incTl t).nextId = s.nextId := rfl

@[simp] theorem enter_boot (t pc : Nat) : (s.enter t pc).boot = s.boot := rfl
@[simp] theorem enter_regs (t pc : Nat) : (s.enter t pc).regs = s.regs := rfl
@[simp] theorem enter_clock (t pc : Nat) : (s.enter t pc).clock = s.clock := rfl
@[simp] theorem enter_mem (t pc : Nat) : (s.enter t pc).mem = s.mem := rfl
@[simp] theorem enter_poolMem (t pc : Nat) : (s.enter t pc).poolMem = s.poolMem := rfl
@[simp] theorem enter_meta (t pc : Nat) : (s.enter t pc).meta_ = s.meta_ := rfl
@[simp] theorem enter_cbytes (t pc : Nat) : (s.enter t pc).cbytes = s.cbytes := rfl
@[simp] theorem enter_cmeta (t pc : Nat) : (s.enter t pc).cmeta = s.cmeta := rfl
@[simp] theorem enter_owner (t pc : Nat) : (s.enter t pc).owner = s.owner := rfl
@[simp] theorem enter_shared (t pc : Nat) : (s.enter t pc).shared = s.shared := rfl
@[simp] theorem enter_unswept (t pc : Nat) : (s.enter t pc).unswept = s.unswept := rfl
@[simp] theorem enter_frames (t pc : Nat) : (s.enter t pc).frames = s.frames := rfl
@[simp] theorem enter_poolCtr (t pc : Nat) : (s.enter t pc).poolCtr = s.poolCtr := rfl
@[simp] theorem enter_reenc (t pc : Nat) : (s.enter t pc).reenc = s.reenc := rfl
@[simp] theorem enter_rewaits (t pc : Nat) : (s.enter t pc).rewaits = s.rewaits := rfl
@[simp] theorem enter_keyVer (t pc : Nat) : (s.enter t pc).keyVer = s.keyVer := rfl
@[simp] theorem enter_extents (t pc : Nat) : (s.enter t pc).extents = s.extents := rfl
@[simp] theorem enter_past (t pc : Nat) : (s.enter t pc).past = s.past := rfl
@[simp] theorem enter_tlb (t pc : Nat) : (s.enter t pc).tlb = s.tlb := rfl
@[simp] theorem enter_ahead (t pc : Nat) : (s.enter t pc).ahead = s.ahead := rfl
@[simp] theorem enter_alias (t pc : Nat) : (s.enter t pc).alias_ = s.alias_ := rfl
@[simp] theorem enter_spad (t pc : Nat) : (s.enter t pc).spad = s.spad := rfl
@[simp] theorem enter_spadTag (t pc : Nat) : (s.enter t pc).spadTag = s.spadTag := rfl
@[simp] theorem enter_spadPoison (t pc : Nat) : (s.enter t pc).spadPoison = s.spadPoison := rfl
@[simp] theorem enter_ops (t pc : Nat) : (s.enter t pc).ops = s.ops := rfl
@[simp] theorem enter_accs (t pc : Nat) : (s.enter t pc).accs = s.accs := rfl
@[simp] theorem enter_crews (t pc : Nat) : (s.enter t pc).crews = s.crews := rfl
@[simp] theorem enter_rows (t pc : Nat) : (s.enter t pc).rows = s.rows := rfl
@[simp] theorem enter_valid (t pc : Nat) : (s.enter t pc).valid = s.valid := rfl
@[simp] theorem enter_slots (t pc : Nat) : (s.enter t pc).slots = s.slots := rfl
@[simp] theorem enter_yielded (t pc : Nat) : (s.enter t pc).yielded = s.yielded := rfl
@[simp] theorem enter_ports (t pc : Nat) : (s.enter t pc).ports = s.ports := rfl
@[simp] theorem enter_flights (t pc : Nat) : (s.enter t pc).flights = s.flights := rfl
@[simp] theorem enter_gangs (t pc : Nat) : (s.enter t pc).gangs = s.gangs := rfl
@[simp] theorem enter_ringH (t pc : Nat) : (s.enter t pc).ringH = s.ringH := rfl
@[simp] theorem enter_ringT (t pc : Nat) : (s.enter t pc).ringT = s.ringT := rfl
@[simp] theorem enter_ring (t pc : Nat) : (s.enter t pc).ring = s.ring := rfl
@[simp] theorem enter_tiles (t pc : Nat) : (s.enter t pc).tiles = s.tiles := rfl
@[simp] theorem enter_epi (t pc : Nat) : (s.enter t pc).epi = s.epi := rfl
@[simp] theorem enter_reqs (t pc : Nat) : (s.enter t pc).reqs = s.reqs := rfl
@[simp] theorem enter_active (t pc : Nat) : (s.enter t pc).active = s.active := rfl
@[simp] theorem enter_shadow (t pc : Nat) : (s.enter t pc).shadow = s.shadow := rfl
@[simp] theorem enter_resv (t pc : Nat) : (s.enter t pc).resv = s.resv := rfl
@[simp] theorem enter_tasks (t pc : Nat) : (s.enter t pc).tasks = s.tasks := rfl
@[simp] theorem enter_queues (t pc : Nat) : (s.enter t pc).queues = s.queues := rfl
@[simp] theorem enter_worlds (t pc : Nat) : (s.enter t pc).worlds = s.worlds := rfl
@[simp] theorem enter_sweeps (t pc : Nat) : (s.enter t pc).sweeps = s.sweeps := rfl
@[simp] theorem enter_batches (t pc : Nat) : (s.enter t pc).batches = s.batches := rfl
@[simp] theorem enter_fetches (t pc : Nat) : (s.enter t pc).fetches = s.fetches := rfl
@[simp] theorem enter_chans (t pc : Nat) : (s.enter t pc).chans = s.chans := rfl
@[simp] theorem enter_fwds (t pc : Nat) : (s.enter t pc).fwds = s.fwds := rfl
@[simp] theorem enter_snaps (t pc : Nat) : (s.enter t pc).snaps = s.snaps := rfl
@[simp] theorem enter_durable (t pc : Nat) : (s.enter t pc).durable = s.durable := rfl
@[simp] theorem enter_agenda (t pc : Nat) : (s.enter t pc).agenda = s.agenda := rfl
@[simp] theorem enter_cur (t pc : Nat) : (s.enter t pc).cur = s.cur := rfl
@[simp] theorem enter_freeCtr (t pc : Nat) : (s.enter t pc).freeCtr = s.freeCtr := rfl
@[simp] theorem enter_nextId (t pc : Nat) : (s.enter t pc).nextId = s.nextId := rfl

@[simp] theorem rawWrite_boot (pa : Nat) (bs : List (BitVec 8)) : (s.rawWrite pa bs).boot = s.boot := rfl
@[simp] theorem rawWrite_regs (pa : Nat) (bs : List (BitVec 8)) : (s.rawWrite pa bs).regs = s.regs := rfl
@[simp] theorem rawWrite_clock (pa : Nat) (bs : List (BitVec 8)) : (s.rawWrite pa bs).clock = s.clock := rfl
@[simp] theorem rawWrite_poolMem (pa : Nat) (bs : List (BitVec 8)) : (s.rawWrite pa bs).poolMem = s.poolMem := rfl
@[simp] theorem rawWrite_meta (pa : Nat) (bs : List (BitVec 8)) : (s.rawWrite pa bs).meta_ = s.meta_ := rfl
@[simp] theorem rawWrite_cbytes (pa : Nat) (bs : List (BitVec 8)) : (s.rawWrite pa bs).cbytes = s.cbytes := rfl
@[simp] theorem rawWrite_cmeta (pa : Nat) (bs : List (BitVec 8)) : (s.rawWrite pa bs).cmeta = s.cmeta := rfl
@[simp] theorem rawWrite_owner (pa : Nat) (bs : List (BitVec 8)) : (s.rawWrite pa bs).owner = s.owner := rfl
@[simp] theorem rawWrite_shared (pa : Nat) (bs : List (BitVec 8)) : (s.rawWrite pa bs).shared = s.shared := rfl
@[simp] theorem rawWrite_unswept (pa : Nat) (bs : List (BitVec 8)) : (s.rawWrite pa bs).unswept = s.unswept := rfl
@[simp] theorem rawWrite_frames (pa : Nat) (bs : List (BitVec 8)) : (s.rawWrite pa bs).frames = s.frames := rfl
@[simp] theorem rawWrite_poolCtr (pa : Nat) (bs : List (BitVec 8)) : (s.rawWrite pa bs).poolCtr = s.poolCtr := rfl
@[simp] theorem rawWrite_reenc (pa : Nat) (bs : List (BitVec 8)) : (s.rawWrite pa bs).reenc = s.reenc := rfl
@[simp] theorem rawWrite_rewaits (pa : Nat) (bs : List (BitVec 8)) : (s.rawWrite pa bs).rewaits = s.rewaits := rfl
@[simp] theorem rawWrite_keyVer (pa : Nat) (bs : List (BitVec 8)) : (s.rawWrite pa bs).keyVer = s.keyVer := rfl
@[simp] theorem rawWrite_extents (pa : Nat) (bs : List (BitVec 8)) : (s.rawWrite pa bs).extents = s.extents := rfl
@[simp] theorem rawWrite_past (pa : Nat) (bs : List (BitVec 8)) : (s.rawWrite pa bs).past = s.past := rfl
@[simp] theorem rawWrite_tlb (pa : Nat) (bs : List (BitVec 8)) : (s.rawWrite pa bs).tlb = s.tlb := rfl
@[simp] theorem rawWrite_ahead (pa : Nat) (bs : List (BitVec 8)) : (s.rawWrite pa bs).ahead = s.ahead := rfl
@[simp] theorem rawWrite_alias (pa : Nat) (bs : List (BitVec 8)) : (s.rawWrite pa bs).alias_ = s.alias_ := rfl
@[simp] theorem rawWrite_spad (pa : Nat) (bs : List (BitVec 8)) : (s.rawWrite pa bs).spad = s.spad := rfl
@[simp] theorem rawWrite_spadTag (pa : Nat) (bs : List (BitVec 8)) : (s.rawWrite pa bs).spadTag = s.spadTag := rfl
@[simp] theorem rawWrite_spadPoison (pa : Nat) (bs : List (BitVec 8)) : (s.rawWrite pa bs).spadPoison = s.spadPoison := rfl
@[simp] theorem rawWrite_ops (pa : Nat) (bs : List (BitVec 8)) : (s.rawWrite pa bs).ops = s.ops := rfl
@[simp] theorem rawWrite_accs (pa : Nat) (bs : List (BitVec 8)) : (s.rawWrite pa bs).accs = s.accs := rfl
@[simp] theorem rawWrite_crews (pa : Nat) (bs : List (BitVec 8)) : (s.rawWrite pa bs).crews = s.crews := rfl
@[simp] theorem rawWrite_rows (pa : Nat) (bs : List (BitVec 8)) : (s.rawWrite pa bs).rows = s.rows := rfl
@[simp] theorem rawWrite_valid (pa : Nat) (bs : List (BitVec 8)) : (s.rawWrite pa bs).valid = s.valid := rfl
@[simp] theorem rawWrite_threads (pa : Nat) (bs : List (BitVec 8)) : (s.rawWrite pa bs).threads = s.threads := rfl
@[simp] theorem rawWrite_slots (pa : Nat) (bs : List (BitVec 8)) : (s.rawWrite pa bs).slots = s.slots := rfl
@[simp] theorem rawWrite_yielded (pa : Nat) (bs : List (BitVec 8)) : (s.rawWrite pa bs).yielded = s.yielded := rfl
@[simp] theorem rawWrite_ports (pa : Nat) (bs : List (BitVec 8)) : (s.rawWrite pa bs).ports = s.ports := rfl
@[simp] theorem rawWrite_flights (pa : Nat) (bs : List (BitVec 8)) : (s.rawWrite pa bs).flights = s.flights := rfl
@[simp] theorem rawWrite_gangs (pa : Nat) (bs : List (BitVec 8)) : (s.rawWrite pa bs).gangs = s.gangs := rfl
@[simp] theorem rawWrite_ringH (pa : Nat) (bs : List (BitVec 8)) : (s.rawWrite pa bs).ringH = s.ringH := rfl
@[simp] theorem rawWrite_ringT (pa : Nat) (bs : List (BitVec 8)) : (s.rawWrite pa bs).ringT = s.ringT := rfl
@[simp] theorem rawWrite_ring (pa : Nat) (bs : List (BitVec 8)) : (s.rawWrite pa bs).ring = s.ring := rfl
@[simp] theorem rawWrite_tiles (pa : Nat) (bs : List (BitVec 8)) : (s.rawWrite pa bs).tiles = s.tiles := rfl
@[simp] theorem rawWrite_epi (pa : Nat) (bs : List (BitVec 8)) : (s.rawWrite pa bs).epi = s.epi := rfl
@[simp] theorem rawWrite_reqs (pa : Nat) (bs : List (BitVec 8)) : (s.rawWrite pa bs).reqs = s.reqs := rfl
@[simp] theorem rawWrite_active (pa : Nat) (bs : List (BitVec 8)) : (s.rawWrite pa bs).active = s.active := rfl
@[simp] theorem rawWrite_shadow (pa : Nat) (bs : List (BitVec 8)) : (s.rawWrite pa bs).shadow = s.shadow := rfl
@[simp] theorem rawWrite_resv (pa : Nat) (bs : List (BitVec 8)) : (s.rawWrite pa bs).resv = s.resv := rfl
@[simp] theorem rawWrite_tasks (pa : Nat) (bs : List (BitVec 8)) : (s.rawWrite pa bs).tasks = s.tasks := rfl
@[simp] theorem rawWrite_queues (pa : Nat) (bs : List (BitVec 8)) : (s.rawWrite pa bs).queues = s.queues := rfl
@[simp] theorem rawWrite_worlds (pa : Nat) (bs : List (BitVec 8)) : (s.rawWrite pa bs).worlds = s.worlds := rfl
@[simp] theorem rawWrite_sweeps (pa : Nat) (bs : List (BitVec 8)) : (s.rawWrite pa bs).sweeps = s.sweeps := rfl
@[simp] theorem rawWrite_batches (pa : Nat) (bs : List (BitVec 8)) : (s.rawWrite pa bs).batches = s.batches := rfl
@[simp] theorem rawWrite_fetches (pa : Nat) (bs : List (BitVec 8)) : (s.rawWrite pa bs).fetches = s.fetches := rfl
@[simp] theorem rawWrite_chans (pa : Nat) (bs : List (BitVec 8)) : (s.rawWrite pa bs).chans = s.chans := rfl
@[simp] theorem rawWrite_fwds (pa : Nat) (bs : List (BitVec 8)) : (s.rawWrite pa bs).fwds = s.fwds := rfl
@[simp] theorem rawWrite_snaps (pa : Nat) (bs : List (BitVec 8)) : (s.rawWrite pa bs).snaps = s.snaps := rfl
@[simp] theorem rawWrite_durable (pa : Nat) (bs : List (BitVec 8)) : (s.rawWrite pa bs).durable = s.durable := rfl
@[simp] theorem rawWrite_agenda (pa : Nat) (bs : List (BitVec 8)) : (s.rawWrite pa bs).agenda = s.agenda := rfl
@[simp] theorem rawWrite_cur (pa : Nat) (bs : List (BitVec 8)) : (s.rawWrite pa bs).cur = s.cur := rfl
@[simp] theorem rawWrite_freeCtr (pa : Nat) (bs : List (BitVec 8)) : (s.rawWrite pa bs).freeCtr = s.freeCtr := rfl
@[simp] theorem rawWrite_nextId (pa : Nat) (bs : List (BitVec 8)) : (s.rawWrite pa bs).nextId = s.nextId := rfl

@[simp] theorem setTile_boot (gang quad count : Nat) (f : Tile → Tile) : (s.setTile gang quad count f).boot = s.boot := rfl
@[simp] theorem setTile_regs (gang quad count : Nat) (f : Tile → Tile) : (s.setTile gang quad count f).regs = s.regs := rfl
@[simp] theorem setTile_clock (gang quad count : Nat) (f : Tile → Tile) : (s.setTile gang quad count f).clock = s.clock := rfl
@[simp] theorem setTile_mem (gang quad count : Nat) (f : Tile → Tile) : (s.setTile gang quad count f).mem = s.mem := rfl
@[simp] theorem setTile_poolMem (gang quad count : Nat) (f : Tile → Tile) : (s.setTile gang quad count f).poolMem = s.poolMem := rfl
@[simp] theorem setTile_meta (gang quad count : Nat) (f : Tile → Tile) : (s.setTile gang quad count f).meta_ = s.meta_ := rfl
@[simp] theorem setTile_cbytes (gang quad count : Nat) (f : Tile → Tile) : (s.setTile gang quad count f).cbytes = s.cbytes := rfl
@[simp] theorem setTile_cmeta (gang quad count : Nat) (f : Tile → Tile) : (s.setTile gang quad count f).cmeta = s.cmeta := rfl
@[simp] theorem setTile_owner (gang quad count : Nat) (f : Tile → Tile) : (s.setTile gang quad count f).owner = s.owner := rfl
@[simp] theorem setTile_shared (gang quad count : Nat) (f : Tile → Tile) : (s.setTile gang quad count f).shared = s.shared := rfl
@[simp] theorem setTile_unswept (gang quad count : Nat) (f : Tile → Tile) : (s.setTile gang quad count f).unswept = s.unswept := rfl
@[simp] theorem setTile_frames (gang quad count : Nat) (f : Tile → Tile) : (s.setTile gang quad count f).frames = s.frames := rfl
@[simp] theorem setTile_poolCtr (gang quad count : Nat) (f : Tile → Tile) : (s.setTile gang quad count f).poolCtr = s.poolCtr := rfl
@[simp] theorem setTile_reenc (gang quad count : Nat) (f : Tile → Tile) : (s.setTile gang quad count f).reenc = s.reenc := rfl
@[simp] theorem setTile_rewaits (gang quad count : Nat) (f : Tile → Tile) : (s.setTile gang quad count f).rewaits = s.rewaits := rfl
@[simp] theorem setTile_keyVer (gang quad count : Nat) (f : Tile → Tile) : (s.setTile gang quad count f).keyVer = s.keyVer := rfl
@[simp] theorem setTile_extents (gang quad count : Nat) (f : Tile → Tile) : (s.setTile gang quad count f).extents = s.extents := rfl
@[simp] theorem setTile_past (gang quad count : Nat) (f : Tile → Tile) : (s.setTile gang quad count f).past = s.past := rfl
@[simp] theorem setTile_tlb (gang quad count : Nat) (f : Tile → Tile) : (s.setTile gang quad count f).tlb = s.tlb := rfl
@[simp] theorem setTile_ahead (gang quad count : Nat) (f : Tile → Tile) : (s.setTile gang quad count f).ahead = s.ahead := rfl
@[simp] theorem setTile_alias (gang quad count : Nat) (f : Tile → Tile) : (s.setTile gang quad count f).alias_ = s.alias_ := rfl
@[simp] theorem setTile_spad (gang quad count : Nat) (f : Tile → Tile) : (s.setTile gang quad count f).spad = s.spad := rfl
@[simp] theorem setTile_spadTag (gang quad count : Nat) (f : Tile → Tile) : (s.setTile gang quad count f).spadTag = s.spadTag := rfl
@[simp] theorem setTile_spadPoison (gang quad count : Nat) (f : Tile → Tile) : (s.setTile gang quad count f).spadPoison = s.spadPoison := rfl
@[simp] theorem setTile_ops (gang quad count : Nat) (f : Tile → Tile) : (s.setTile gang quad count f).ops = s.ops := rfl
@[simp] theorem setTile_accs (gang quad count : Nat) (f : Tile → Tile) : (s.setTile gang quad count f).accs = s.accs := rfl
@[simp] theorem setTile_crews (gang quad count : Nat) (f : Tile → Tile) : (s.setTile gang quad count f).crews = s.crews := rfl
@[simp] theorem setTile_rows (gang quad count : Nat) (f : Tile → Tile) : (s.setTile gang quad count f).rows = s.rows := rfl
@[simp] theorem setTile_valid (gang quad count : Nat) (f : Tile → Tile) : (s.setTile gang quad count f).valid = s.valid := rfl
@[simp] theorem setTile_threads (gang quad count : Nat) (f : Tile → Tile) : (s.setTile gang quad count f).threads = s.threads := rfl
@[simp] theorem setTile_slots (gang quad count : Nat) (f : Tile → Tile) : (s.setTile gang quad count f).slots = s.slots := rfl
@[simp] theorem setTile_yielded (gang quad count : Nat) (f : Tile → Tile) : (s.setTile gang quad count f).yielded = s.yielded := rfl
@[simp] theorem setTile_ports (gang quad count : Nat) (f : Tile → Tile) : (s.setTile gang quad count f).ports = s.ports := rfl
@[simp] theorem setTile_flights (gang quad count : Nat) (f : Tile → Tile) : (s.setTile gang quad count f).flights = s.flights := rfl
@[simp] theorem setTile_gangs (gang quad count : Nat) (f : Tile → Tile) : (s.setTile gang quad count f).gangs = s.gangs := rfl
@[simp] theorem setTile_ringH (gang quad count : Nat) (f : Tile → Tile) : (s.setTile gang quad count f).ringH = s.ringH := rfl
@[simp] theorem setTile_ringT (gang quad count : Nat) (f : Tile → Tile) : (s.setTile gang quad count f).ringT = s.ringT := rfl
@[simp] theorem setTile_ring (gang quad count : Nat) (f : Tile → Tile) : (s.setTile gang quad count f).ring = s.ring := rfl
@[simp] theorem setTile_epi (gang quad count : Nat) (f : Tile → Tile) : (s.setTile gang quad count f).epi = s.epi := rfl
@[simp] theorem setTile_reqs (gang quad count : Nat) (f : Tile → Tile) : (s.setTile gang quad count f).reqs = s.reqs := rfl
@[simp] theorem setTile_active (gang quad count : Nat) (f : Tile → Tile) : (s.setTile gang quad count f).active = s.active := rfl
@[simp] theorem setTile_shadow (gang quad count : Nat) (f : Tile → Tile) : (s.setTile gang quad count f).shadow = s.shadow := rfl
@[simp] theorem setTile_resv (gang quad count : Nat) (f : Tile → Tile) : (s.setTile gang quad count f).resv = s.resv := rfl
@[simp] theorem setTile_tasks (gang quad count : Nat) (f : Tile → Tile) : (s.setTile gang quad count f).tasks = s.tasks := rfl
@[simp] theorem setTile_queues (gang quad count : Nat) (f : Tile → Tile) : (s.setTile gang quad count f).queues = s.queues := rfl
@[simp] theorem setTile_worlds (gang quad count : Nat) (f : Tile → Tile) : (s.setTile gang quad count f).worlds = s.worlds := rfl
@[simp] theorem setTile_sweeps (gang quad count : Nat) (f : Tile → Tile) : (s.setTile gang quad count f).sweeps = s.sweeps := rfl
@[simp] theorem setTile_batches (gang quad count : Nat) (f : Tile → Tile) : (s.setTile gang quad count f).batches = s.batches := rfl
@[simp] theorem setTile_fetches (gang quad count : Nat) (f : Tile → Tile) : (s.setTile gang quad count f).fetches = s.fetches := rfl
@[simp] theorem setTile_chans (gang quad count : Nat) (f : Tile → Tile) : (s.setTile gang quad count f).chans = s.chans := rfl
@[simp] theorem setTile_fwds (gang quad count : Nat) (f : Tile → Tile) : (s.setTile gang quad count f).fwds = s.fwds := rfl
@[simp] theorem setTile_snaps (gang quad count : Nat) (f : Tile → Tile) : (s.setTile gang quad count f).snaps = s.snaps := rfl
@[simp] theorem setTile_durable (gang quad count : Nat) (f : Tile → Tile) : (s.setTile gang quad count f).durable = s.durable := rfl
@[simp] theorem setTile_agenda (gang quad count : Nat) (f : Tile → Tile) : (s.setTile gang quad count f).agenda = s.agenda := rfl
@[simp] theorem setTile_cur (gang quad count : Nat) (f : Tile → Tile) : (s.setTile gang quad count f).cur = s.cur := rfl
@[simp] theorem setTile_freeCtr (gang quad count : Nat) (f : Tile → Tile) : (s.setTile gang quad count f).freeCtr = s.freeCtr := rfl
@[simp] theorem setTile_nextId (gang quad count : Nat) (f : Tile → Tile) : (s.setTile gang quad count f).nextId = s.nextId := rfl

@[simp] theorem setSlot_boot (gang quad count n : Nat) (v : BitVec 32) : (s.setSlot gang quad count n v).boot = s.boot := rfl
@[simp] theorem setSlot_regs (gang quad count n : Nat) (v : BitVec 32) : (s.setSlot gang quad count n v).regs = s.regs := rfl
@[simp] theorem setSlot_clock (gang quad count n : Nat) (v : BitVec 32) : (s.setSlot gang quad count n v).clock = s.clock := rfl
@[simp] theorem setSlot_mem (gang quad count n : Nat) (v : BitVec 32) : (s.setSlot gang quad count n v).mem = s.mem := rfl
@[simp] theorem setSlot_poolMem (gang quad count n : Nat) (v : BitVec 32) : (s.setSlot gang quad count n v).poolMem = s.poolMem := rfl
@[simp] theorem setSlot_meta (gang quad count n : Nat) (v : BitVec 32) : (s.setSlot gang quad count n v).meta_ = s.meta_ := rfl
@[simp] theorem setSlot_cbytes (gang quad count n : Nat) (v : BitVec 32) : (s.setSlot gang quad count n v).cbytes = s.cbytes := rfl
@[simp] theorem setSlot_cmeta (gang quad count n : Nat) (v : BitVec 32) : (s.setSlot gang quad count n v).cmeta = s.cmeta := rfl
@[simp] theorem setSlot_owner (gang quad count n : Nat) (v : BitVec 32) : (s.setSlot gang quad count n v).owner = s.owner := rfl
@[simp] theorem setSlot_shared (gang quad count n : Nat) (v : BitVec 32) : (s.setSlot gang quad count n v).shared = s.shared := rfl
@[simp] theorem setSlot_unswept (gang quad count n : Nat) (v : BitVec 32) : (s.setSlot gang quad count n v).unswept = s.unswept := rfl
@[simp] theorem setSlot_frames (gang quad count n : Nat) (v : BitVec 32) : (s.setSlot gang quad count n v).frames = s.frames := rfl
@[simp] theorem setSlot_poolCtr (gang quad count n : Nat) (v : BitVec 32) : (s.setSlot gang quad count n v).poolCtr = s.poolCtr := rfl
@[simp] theorem setSlot_reenc (gang quad count n : Nat) (v : BitVec 32) : (s.setSlot gang quad count n v).reenc = s.reenc := rfl
@[simp] theorem setSlot_rewaits (gang quad count n : Nat) (v : BitVec 32) : (s.setSlot gang quad count n v).rewaits = s.rewaits := rfl
@[simp] theorem setSlot_keyVer (gang quad count n : Nat) (v : BitVec 32) : (s.setSlot gang quad count n v).keyVer = s.keyVer := rfl
@[simp] theorem setSlot_extents (gang quad count n : Nat) (v : BitVec 32) : (s.setSlot gang quad count n v).extents = s.extents := rfl
@[simp] theorem setSlot_past (gang quad count n : Nat) (v : BitVec 32) : (s.setSlot gang quad count n v).past = s.past := rfl
@[simp] theorem setSlot_tlb (gang quad count n : Nat) (v : BitVec 32) : (s.setSlot gang quad count n v).tlb = s.tlb := rfl
@[simp] theorem setSlot_ahead (gang quad count n : Nat) (v : BitVec 32) : (s.setSlot gang quad count n v).ahead = s.ahead := rfl
@[simp] theorem setSlot_alias (gang quad count n : Nat) (v : BitVec 32) : (s.setSlot gang quad count n v).alias_ = s.alias_ := rfl
@[simp] theorem setSlot_spad (gang quad count n : Nat) (v : BitVec 32) : (s.setSlot gang quad count n v).spad = s.spad := rfl
@[simp] theorem setSlot_spadTag (gang quad count n : Nat) (v : BitVec 32) : (s.setSlot gang quad count n v).spadTag = s.spadTag := rfl
@[simp] theorem setSlot_spadPoison (gang quad count n : Nat) (v : BitVec 32) : (s.setSlot gang quad count n v).spadPoison = s.spadPoison := rfl
@[simp] theorem setSlot_ops (gang quad count n : Nat) (v : BitVec 32) : (s.setSlot gang quad count n v).ops = s.ops := rfl
@[simp] theorem setSlot_accs (gang quad count n : Nat) (v : BitVec 32) : (s.setSlot gang quad count n v).accs = s.accs := rfl
@[simp] theorem setSlot_crews (gang quad count n : Nat) (v : BitVec 32) : (s.setSlot gang quad count n v).crews = s.crews := rfl
@[simp] theorem setSlot_rows (gang quad count n : Nat) (v : BitVec 32) : (s.setSlot gang quad count n v).rows = s.rows := rfl
@[simp] theorem setSlot_valid (gang quad count n : Nat) (v : BitVec 32) : (s.setSlot gang quad count n v).valid = s.valid := rfl
@[simp] theorem setSlot_threads (gang quad count n : Nat) (v : BitVec 32) : (s.setSlot gang quad count n v).threads = s.threads := rfl
@[simp] theorem setSlot_slots (gang quad count n : Nat) (v : BitVec 32) : (s.setSlot gang quad count n v).slots = s.slots := rfl
@[simp] theorem setSlot_yielded (gang quad count n : Nat) (v : BitVec 32) : (s.setSlot gang quad count n v).yielded = s.yielded := rfl
@[simp] theorem setSlot_ports (gang quad count n : Nat) (v : BitVec 32) : (s.setSlot gang quad count n v).ports = s.ports := rfl
@[simp] theorem setSlot_flights (gang quad count n : Nat) (v : BitVec 32) : (s.setSlot gang quad count n v).flights = s.flights := rfl
@[simp] theorem setSlot_gangs (gang quad count n : Nat) (v : BitVec 32) : (s.setSlot gang quad count n v).gangs = s.gangs := rfl
@[simp] theorem setSlot_ringH (gang quad count n : Nat) (v : BitVec 32) : (s.setSlot gang quad count n v).ringH = s.ringH := rfl
@[simp] theorem setSlot_ringT (gang quad count n : Nat) (v : BitVec 32) : (s.setSlot gang quad count n v).ringT = s.ringT := rfl
@[simp] theorem setSlot_tiles (gang quad count n : Nat) (v : BitVec 32) : (s.setSlot gang quad count n v).tiles = s.tiles := rfl
@[simp] theorem setSlot_epi (gang quad count n : Nat) (v : BitVec 32) : (s.setSlot gang quad count n v).epi = s.epi := rfl
@[simp] theorem setSlot_reqs (gang quad count n : Nat) (v : BitVec 32) : (s.setSlot gang quad count n v).reqs = s.reqs := rfl
@[simp] theorem setSlot_active (gang quad count n : Nat) (v : BitVec 32) : (s.setSlot gang quad count n v).active = s.active := rfl
@[simp] theorem setSlot_shadow (gang quad count n : Nat) (v : BitVec 32) : (s.setSlot gang quad count n v).shadow = s.shadow := rfl
@[simp] theorem setSlot_resv (gang quad count n : Nat) (v : BitVec 32) : (s.setSlot gang quad count n v).resv = s.resv := rfl
@[simp] theorem setSlot_tasks (gang quad count n : Nat) (v : BitVec 32) : (s.setSlot gang quad count n v).tasks = s.tasks := rfl
@[simp] theorem setSlot_queues (gang quad count n : Nat) (v : BitVec 32) : (s.setSlot gang quad count n v).queues = s.queues := rfl
@[simp] theorem setSlot_worlds (gang quad count n : Nat) (v : BitVec 32) : (s.setSlot gang quad count n v).worlds = s.worlds := rfl
@[simp] theorem setSlot_sweeps (gang quad count n : Nat) (v : BitVec 32) : (s.setSlot gang quad count n v).sweeps = s.sweeps := rfl
@[simp] theorem setSlot_batches (gang quad count n : Nat) (v : BitVec 32) : (s.setSlot gang quad count n v).batches = s.batches := rfl
@[simp] theorem setSlot_fetches (gang quad count n : Nat) (v : BitVec 32) : (s.setSlot gang quad count n v).fetches = s.fetches := rfl
@[simp] theorem setSlot_chans (gang quad count n : Nat) (v : BitVec 32) : (s.setSlot gang quad count n v).chans = s.chans := rfl
@[simp] theorem setSlot_fwds (gang quad count n : Nat) (v : BitVec 32) : (s.setSlot gang quad count n v).fwds = s.fwds := rfl
@[simp] theorem setSlot_snaps (gang quad count n : Nat) (v : BitVec 32) : (s.setSlot gang quad count n v).snaps = s.snaps := rfl
@[simp] theorem setSlot_durable (gang quad count n : Nat) (v : BitVec 32) : (s.setSlot gang quad count n v).durable = s.durable := rfl
@[simp] theorem setSlot_agenda (gang quad count n : Nat) (v : BitVec 32) : (s.setSlot gang quad count n v).agenda = s.agenda := rfl
@[simp] theorem setSlot_cur (gang quad count n : Nat) (v : BitVec 32) : (s.setSlot gang quad count n v).cur = s.cur := rfl
@[simp] theorem setSlot_freeCtr (gang quad count n : Nat) (v : BitVec 32) : (s.setSlot gang quad count n v).freeCtr = s.freeCtr := rfl
@[simp] theorem setSlot_nextId (gang quad count n : Nat) (v : BitVec 32) : (s.setSlot gang quad count n v).nextId = s.nextId := rfl

@[simp] theorem updReq_boot (id : Nat) (f : Req → Req) : (s.updReq id f).boot = s.boot := rfl
@[simp] theorem updReq_regs (id : Nat) (f : Req → Req) : (s.updReq id f).regs = s.regs := rfl
@[simp] theorem updReq_clock (id : Nat) (f : Req → Req) : (s.updReq id f).clock = s.clock := rfl
@[simp] theorem updReq_mem (id : Nat) (f : Req → Req) : (s.updReq id f).mem = s.mem := rfl
@[simp] theorem updReq_poolMem (id : Nat) (f : Req → Req) : (s.updReq id f).poolMem = s.poolMem := rfl
@[simp] theorem updReq_meta (id : Nat) (f : Req → Req) : (s.updReq id f).meta_ = s.meta_ := rfl
@[simp] theorem updReq_cbytes (id : Nat) (f : Req → Req) : (s.updReq id f).cbytes = s.cbytes := rfl
@[simp] theorem updReq_cmeta (id : Nat) (f : Req → Req) : (s.updReq id f).cmeta = s.cmeta := rfl
@[simp] theorem updReq_owner (id : Nat) (f : Req → Req) : (s.updReq id f).owner = s.owner := rfl
@[simp] theorem updReq_shared (id : Nat) (f : Req → Req) : (s.updReq id f).shared = s.shared := rfl
@[simp] theorem updReq_unswept (id : Nat) (f : Req → Req) : (s.updReq id f).unswept = s.unswept := rfl
@[simp] theorem updReq_frames (id : Nat) (f : Req → Req) : (s.updReq id f).frames = s.frames := rfl
@[simp] theorem updReq_poolCtr (id : Nat) (f : Req → Req) : (s.updReq id f).poolCtr = s.poolCtr := rfl
@[simp] theorem updReq_reenc (id : Nat) (f : Req → Req) : (s.updReq id f).reenc = s.reenc := rfl
@[simp] theorem updReq_rewaits (id : Nat) (f : Req → Req) : (s.updReq id f).rewaits = s.rewaits := rfl
@[simp] theorem updReq_keyVer (id : Nat) (f : Req → Req) : (s.updReq id f).keyVer = s.keyVer := rfl
@[simp] theorem updReq_extents (id : Nat) (f : Req → Req) : (s.updReq id f).extents = s.extents := rfl
@[simp] theorem updReq_past (id : Nat) (f : Req → Req) : (s.updReq id f).past = s.past := rfl
@[simp] theorem updReq_tlb (id : Nat) (f : Req → Req) : (s.updReq id f).tlb = s.tlb := rfl
@[simp] theorem updReq_ahead (id : Nat) (f : Req → Req) : (s.updReq id f).ahead = s.ahead := rfl
@[simp] theorem updReq_alias (id : Nat) (f : Req → Req) : (s.updReq id f).alias_ = s.alias_ := rfl
@[simp] theorem updReq_spad (id : Nat) (f : Req → Req) : (s.updReq id f).spad = s.spad := rfl
@[simp] theorem updReq_spadTag (id : Nat) (f : Req → Req) : (s.updReq id f).spadTag = s.spadTag := rfl
@[simp] theorem updReq_spadPoison (id : Nat) (f : Req → Req) : (s.updReq id f).spadPoison = s.spadPoison := rfl
@[simp] theorem updReq_ops (id : Nat) (f : Req → Req) : (s.updReq id f).ops = s.ops := rfl
@[simp] theorem updReq_accs (id : Nat) (f : Req → Req) : (s.updReq id f).accs = s.accs := rfl
@[simp] theorem updReq_crews (id : Nat) (f : Req → Req) : (s.updReq id f).crews = s.crews := rfl
@[simp] theorem updReq_rows (id : Nat) (f : Req → Req) : (s.updReq id f).rows = s.rows := rfl
@[simp] theorem updReq_valid (id : Nat) (f : Req → Req) : (s.updReq id f).valid = s.valid := rfl
@[simp] theorem updReq_threads (id : Nat) (f : Req → Req) : (s.updReq id f).threads = s.threads := rfl
@[simp] theorem updReq_slots (id : Nat) (f : Req → Req) : (s.updReq id f).slots = s.slots := rfl
@[simp] theorem updReq_yielded (id : Nat) (f : Req → Req) : (s.updReq id f).yielded = s.yielded := rfl
@[simp] theorem updReq_ports (id : Nat) (f : Req → Req) : (s.updReq id f).ports = s.ports := rfl
@[simp] theorem updReq_flights (id : Nat) (f : Req → Req) : (s.updReq id f).flights = s.flights := rfl
@[simp] theorem updReq_gangs (id : Nat) (f : Req → Req) : (s.updReq id f).gangs = s.gangs := rfl
@[simp] theorem updReq_ringH (id : Nat) (f : Req → Req) : (s.updReq id f).ringH = s.ringH := rfl
@[simp] theorem updReq_ringT (id : Nat) (f : Req → Req) : (s.updReq id f).ringT = s.ringT := rfl
@[simp] theorem updReq_ring (id : Nat) (f : Req → Req) : (s.updReq id f).ring = s.ring := rfl
@[simp] theorem updReq_tiles (id : Nat) (f : Req → Req) : (s.updReq id f).tiles = s.tiles := rfl
@[simp] theorem updReq_epi (id : Nat) (f : Req → Req) : (s.updReq id f).epi = s.epi := rfl
@[simp] theorem updReq_active (id : Nat) (f : Req → Req) : (s.updReq id f).active = s.active := rfl
@[simp] theorem updReq_shadow (id : Nat) (f : Req → Req) : (s.updReq id f).shadow = s.shadow := rfl
@[simp] theorem updReq_resv (id : Nat) (f : Req → Req) : (s.updReq id f).resv = s.resv := rfl
@[simp] theorem updReq_tasks (id : Nat) (f : Req → Req) : (s.updReq id f).tasks = s.tasks := rfl
@[simp] theorem updReq_queues (id : Nat) (f : Req → Req) : (s.updReq id f).queues = s.queues := rfl
@[simp] theorem updReq_worlds (id : Nat) (f : Req → Req) : (s.updReq id f).worlds = s.worlds := rfl
@[simp] theorem updReq_sweeps (id : Nat) (f : Req → Req) : (s.updReq id f).sweeps = s.sweeps := rfl
@[simp] theorem updReq_batches (id : Nat) (f : Req → Req) : (s.updReq id f).batches = s.batches := rfl
@[simp] theorem updReq_fetches (id : Nat) (f : Req → Req) : (s.updReq id f).fetches = s.fetches := rfl
@[simp] theorem updReq_chans (id : Nat) (f : Req → Req) : (s.updReq id f).chans = s.chans := rfl
@[simp] theorem updReq_fwds (id : Nat) (f : Req → Req) : (s.updReq id f).fwds = s.fwds := rfl
@[simp] theorem updReq_snaps (id : Nat) (f : Req → Req) : (s.updReq id f).snaps = s.snaps := rfl
@[simp] theorem updReq_durable (id : Nat) (f : Req → Req) : (s.updReq id f).durable = s.durable := rfl
@[simp] theorem updReq_agenda (id : Nat) (f : Req → Req) : (s.updReq id f).agenda = s.agenda := rfl
@[simp] theorem updReq_cur (id : Nat) (f : Req → Req) : (s.updReq id f).cur = s.cur := rfl
@[simp] theorem updReq_freeCtr (id : Nat) (f : Req → Req) : (s.updReq id f).freeCtr = s.freeCtr := rfl
@[simp] theorem updReq_nextId (id : Nat) (f : Req → Req) : (s.updReq id f).nextId = s.nextId := rfl

end State

end Sys2Proof.Machine
end

