-- ==== Sys2Proof/Laws/Registers.lean ====
section
/-! SUPPORT. Reading registers, tags and validity after rows are stored, killed and written (R32, R58, R59, R97). -/

namespace Sys2Proof.Machine

theorem setBit_getLsbD {w : Nat} (x : BitVec w) (i j : Nat) (b : Bool) (hj : j < w) :
    (setBit x i b).getLsbD j = if j = i then b else x.getLsbD j := by
  unfold setBit
  by_cases h : j = i
  · subst h; cases b <;> simp [hj]
  · have h' : ¬i = j := fun e => h e.symm
    cases b
    · simp [h, hj]
    · simp [h', h]

theorem laneMask_getLsbD (ls : List Nat) (j : Nat) (hj : j < 32) : (laneMask ls).getLsbD j = decide (j ∈ ls) := by
  unfold laneMask
  suffices ∀ m : BitVec 32, (ls.foldl (fun m l => setBit m l true) m).getLsbD j = (m.getLsbD j || decide (j ∈ ls)) by simp [this]
  induction ls with
  | nil => simp
  | cons l ls ih =>
    intro m
    rw [List.foldl_cons, ih, setBit_getLsbD _ _ _ _ hj]
    by_cases h : j = l <;> simp [h]

theorem laneOf_lt (t : Nat) : laneOf t < 32 := Nat.mod_lt _ (by decide)

/-- A thread is given by its crew and its lane. -/
theorem thread_eq {t u : Nat} : t = u ↔ crewOf t = crewOf u ∧ laneOf t = laneOf u := by
  unfold crewOf laneOf; omega

/-- Register numbers below 32 tell the rows of crews apart. -/
theorem rowKey_eq {c d v w : Nat} (hv : v < 32) (hw : w < 32) : c * 32 + v = d * 32 + w ↔ c = d ∧ v = w := by omega

namespace State

theorem row_setRow (s : State) (c v d w : Nat) (r : Row) (hv : v < 32) (hw : w < 32) :
    (s.setRow c v r).row d w =
      if d = c ∧ w = v then (if r.live = 0 ∧ r.pend.isEmpty then Row.empty else r) else s.row d w := by
  unfold setRow row
  have hk : (d * 32 + w = c * 32 + v) = (d = c ∧ w = v) := by simp only [rowKey_eq hw hv]
  split_ifs with h1 h2 h3 <;> simp_all [FMap.get_put, FMap.get_erase]

/-- What a lane sees of a row: no pending operation, and nothing of a dead lane. -/
theorem empty_pend (l : Nat) : Row.empty.pend.get [] l = [] := rfl

end State

/-- A row stored with no live and no pending lane is read as the row itself. -/
theorem Row.tidy_live (r : Row) (l : Nat) :
    (if r.live = 0 ∧ r.pend.isEmpty then Row.empty else r).live.getLsbD l = r.live.getLsbD l := by
  split_ifs with h
  · rw [h.1]; rfl
  · rfl

theorem Row.tidy_pend (r : Row) (l : Nat) :
    (if r.live = 0 ∧ r.pend.isEmpty then Row.empty else r).pend.get [] l = r.pend.get [] l := by
  split_ifs with h
  · have : r.pend = [] := by simpa using h.2
    rw [this]; rfl
  · rfl

/-- What lane `l` sees of a row: its tag and its bits; `free` is what a pending lane reads. -/
def Row.seen (r : Row) (l : Nat) (free : BitVec 32) : (BitVec 4 × BitVec 7) × BitVec 32 :=
  match r.pend.get [] l with
  | p :: _ => ((p.fmt, p.scl), free)
  | [] => if r.live.getLsbD l then ((r.fmt, r.scl), r.vals.get 0 l) else ((0, 0), 0)

theorem Row.seen_tidy (r : Row) (l : Nat) (free : BitVec 32) :
    (if r.live = 0 ∧ r.pend.isEmpty then Row.empty else r).seen l free = r.seen l free := by
  by_cases h : r.live = 0 ∧ r.pend.isEmpty
  · rw [if_pos h]
    have hp : r.pend = [] := by simpa using h.2
    simp [Row.seen, hp, h.1, Row.empty, FMap.get, FMap.find?]
  · rw [if_neg h]

/-- The free value that a pending register of a thread reads. -/
def State.freeOf (s : State) (t v : Nat) : BitVec 32 := Config.freeWord (s.freeCtr * 65536 + laneOf t * 32 + v)

theorem State.seen_eq (s : State) (t v : Nat) :
    (s.row (crewOf t) v).seen (laneOf t) (s.freeOf t v) = (s.tagOf t v, s.reg t v) := by
  unfold Row.seen State.tagOf State.reg State.pending State.freeOf
  cases (s.row (crewOf t) v).pend.get [] (laneOf t) with
  | nil => dsimp only; split_ifs <;> rfl
  | cons p ps => rfl

/-- Two states whose rows show a lane the same show it the same tag and bits. -/
theorem State.seen_same {s s' : State} {t v : Nat} (hf : s'.freeCtr = s.freeCtr)
    (h : (s'.row (crewOf t) v).seen (laneOf t) (s.freeOf t v) = (s.row (crewOf t) v).seen (laneOf t) (s.freeOf t v)) :
    s'.tagOf t v = s.tagOf t v ∧ s'.reg t v = s.reg t v := by
  have h1 := s'.seen_eq t v
  have h2 := s.seen_eq t v
  have : s'.freeOf t v = s.freeOf t v := by unfold State.freeOf; rw [hf]
  rw [this, h, h2] at h1
  exact ⟨(congrArg Prod.fst h1).symm, (congrArg Prod.snd h1).symm⟩

theorem nodup_eraseDups (l : List Nat) : l.eraseDups.Nodup := by
  generalize hn : l.length = n
  induction n using Nat.strong_induction_on generalizing l with
  | _ n ih =>
    cases l with
    | nil => simp
    | cons a l =>
      rw [List.eraseDups_cons, List.nodup_cons]
      refine ⟨by simp, ih _ ?_ _ rfl⟩
      simp only [List.length_cons] at hn
      exact lt_of_le_of_lt (List.length_filter_le _ _) (by omega)

/-! ## Rows after kills -/

/-- What is left of row `r` once the lanes `ks` are killed, as a row `q` stored or returned to the pool shows it, R32. -/
structure Row.Left (q r : Row) (ks : List Nat) : Prop where
  live : ∀ l < 32, q.live.getLsbD l = (r.live.getLsbD l && decide (l ∉ ks))
  pend : ∀ l, q.pend.get [] l = if l ∈ ks then [] else r.pend.get [] l
  vals : ∀ l < 32, q.live.getLsbD l = true → q.vals.get 0 l = r.vals.get 0 l
  tag : q.live ≠ 0 → q.fmt = r.fmt ∧ q.scl = r.scl

theorem Row.Left.refl (r : Row) : r.Left r [] := ⟨by simp, by simp, fun _ _ _ => rfl, fun _ => ⟨rfl, rfl⟩⟩

theorem Row.Left.tidy {q r : Row} {ks : List Nat} (h : q.Left r ks) :
    (if q.live = 0 ∧ q.pend.isEmpty then Row.empty else q).Left r ks := by
  by_cases hq : q.live = 0 ∧ q.pend.isEmpty
  · have hp : q.pend = [] := by simpa using hq.2
    rw [if_pos hq]
    refine ⟨fun l hl => ?_, fun l => ?_, fun l hl hh => ?_, fun hh => ?_⟩
    · rw [← h.live l hl, hq.1]; rfl
    · rw [← h.pend l, hp]; rfl
    · simp [Row.empty] at hh
    · simp [Row.empty] at hh
  · rwa [if_neg hq]

theorem Row.Left.kill {q r : Row} {ks : List Nat} (h : q.Left r ks) (k : Nat) : (q.kill k).Left r (k :: ks) := by
  refine ⟨fun l hl => ?_, fun l => ?_, fun l hl hh => ?_, fun hh => h.tag ?_⟩
  · simp only [Row.kill, setBit_getLsbD _ _ _ _ hl, h.live l hl]
    by_cases e : l = k <;> simp [e]
  · simp only [Row.kill, FMap.get_erase, h.pend l, List.mem_cons]
    by_cases e : l = k <;> simp [e]
  · simp only [Row.kill, setBit_getLsbD _ _ _ _ hl] at hh
    simp only [Row.kill, FMap.get_erase]
    by_cases e : l = k
    · simp [e] at hh
    · rw [if_neg e] at hh ⊢; exact h.vals l hl hh
  · intro h0
    apply hh
    apply BitVec.eq_of_getLsbD_eq
    intro i hi
    simp only [Row.kill, setBit_getLsbD _ _ _ _ hi, h0]
    simp

/-- A row with nothing in it has nothing to kill. -/
theorem Row.Left.cons_empty {q r : Row} {ks : List Nat} (h : q.Left r ks) (hq : q = Row.empty) (k : Nat) : q.Left r (k :: ks) := by
  subst hq
  have hl : ∀ l, Row.empty.live.getLsbD l = false := by simp [Row.empty]
  refine ⟨fun l h1 => ?_, fun l => ?_, fun l _ hh => by simp [hl] at hh, fun hh => absurd rfl hh⟩
  · have := h.live l h1; rw [hl] at this ⊢
    by_cases e : l = k
    · simp [e]
    · simp_all
  · have := h.pend l
    by_cases e : l = k
    · simp [e]; rfl
    · simp_all

namespace State

/-- The lanes in which the kills of `ks`, thread by thread, hit register `v` of crew `c`. -/
def killedLanes (c v : Nat) : List (Nat × List Nat) → List Nat
  | [] => []
  | k :: ks => killedLanes c v ks ++ ((k.2.filter fun w => decide (crewOf k.1 = c) && decide (w = v)).map fun _ => laneOf k.1)

theorem mem_killedLanes (c v l : Nat) (ks : List (Nat × List Nat)) :
    l ∈ killedLanes c v ks ↔ ∃ k ∈ ks, crewOf k.1 = c ∧ laneOf k.1 = l ∧ v ∈ k.2 := by
  induction ks with
  | nil => simp [killedLanes]
  | cons k ks ih =>
    simp only [killedLanes, List.mem_append, ih, List.mem_map, List.mem_filter, List.mem_cons, exists_eq_or_imp, Bool.and_eq_true,
      decide_eq_true_eq]
    constructor
    · rintro (h | ⟨w, ⟨h1, h2, rfl⟩, h3⟩)
      · exact .inr h
      · exact .inl ⟨h2, h3, h1⟩
    · rintro (⟨h1, h2, h3⟩ | h)
      · exact .inr ⟨v, ⟨h3, h1, rfl⟩, h2⟩
      · exact .inl h

end State

/-- Only the killed lanes count, not their order or number. -/
theorem Row.Left.congr {q r : Row} {ks js : List Nat} (h : q.Left r ks) (e : ∀ l, l ∈ ks ↔ l ∈ js) : q.Left r js :=
  ⟨fun l hl => by rw [h.live l hl]; simp [e], fun l => by rw [h.pend l]; simp [e], h.vals, h.tag⟩

namespace State

/-- One step of a kill. -/
theorem killOne_left (s : State) (t w d v : Nat) (hw : w < 32) (hv : v < 32) {r : Row} {ks : List Nat} (h : (s.row d v).Left r ks) :
    ((if (s.rows.find? (crewOf t * 32 + w)).isSome then s.setRow (crewOf t) w ((s.row (crewOf t) w).kill (laneOf t)) else s).row d v).Left r
      (ks ++ if crewOf t = d ∧ w = v then [laneOf t] else []) := by
  by_cases hc : crewOf t = d ∧ w = v
  · obtain ⟨rfl, rfl⟩ := hc
    have e : ∀ l, l ∈ laneOf t :: ks ↔ l ∈ ks ++ [laneOf t] := by intro l; simp [or_comm]
    rw [if_pos (⟨rfl, rfl⟩ : crewOf t = crewOf t ∧ w = w)]
    split_ifs with hr
    · rw [row_setRow _ _ _ _ _ _ hw hv, if_pos ⟨rfl, rfl⟩]
      exact ((h.kill _).tidy).congr e
    · refine (h.cons_empty ?_ (laneOf t)).congr e
      unfold row FMap.get
      cases hx : FMap.find? s.rows (crewOf t * 32 + w) with
      | none => rfl
      | some x => rw [hx] at hr; simp at hr
  · rw [if_neg hc, List.append_nil]
    split_ifs with hr
    · rw [row_setRow _ _ _ _ _ _ hw hv, if_neg (fun x => hc ⟨x.1.symm, x.2.symm⟩)]; exact h
    · exact h

theorem killRegs_left (s : State) (t : Nat) (vs : List Nat) (d v : Nat) (hvs : ∀ w ∈ vs, w < 32) (hv : v < 32) {r : Row} {ks : List Nat}
    (h : (s.row d v).Left r ks) :
    ((s.killRegs t vs).row d v).Left r (ks ++ (vs.filter fun w => decide (crewOf t = d) && decide (w = v)).map fun _ => laneOf t) := by
  unfold killRegs
  induction vs generalizing s ks with
  | nil => simpa using h
  | cons w vs ih =>
    rw [List.foldl_cons]
    have h1 := s.killOne_left t w d v (hvs w (by simp)) hv h
    refine (ih _ (fun x hx => hvs x (by simp [hx])) h1).congr fun l => ?_
    by_cases hc : crewOf t = d ∧ w = v
    · simp [hc]
    · rw [if_neg hc, List.filter_cons, if_neg (by simpa using hc)]; simp

/-- Kills, thread by thread. -/
theorem killAll_left (s : State) (ks : List (Nat × List Nat)) (d v : Nat) (hks : ∀ k ∈ ks, ∀ w ∈ k.2, w < 32) (hv : v < 32) :
    ((ks.foldl (fun s k => s.killRegs k.1 k.2) s).row d v).Left (s.row d v) (killedLanes d v ks) := by
  suffices ∀ (s' : State) (js : List Nat), (s'.row d v).Left (s.row d v) js →
      ((ks.foldl (fun s k => s.killRegs k.1 k.2) s').row d v).Left (s.row d v) (js ++ killedLanes d v ks) by
    simpa using this s [] (Row.Left.refl _)
  induction ks with
  | nil => intro s' js h; simpa [killedLanes] using h
  | cons k ks ih =>
    intro s' js h
    rw [List.foldl_cons]
    have h1 := s'.killRegs_left k.1 k.2 d v (hks k (by simp)) hv h
    refine (ih (fun x hx => hks x (by simp [hx])) _ _ h1).congr fun l => ?_
    simp only [killedLanes, List.mem_append]; tauto

/-- Kills change rows alone. -/
theorem killRegs_rows (s : State) (t : Nat) (vs : List Nat) : s.killRegs t vs = { s with rows := (s.killRegs t vs).rows } := by
  unfold killRegs
  induction vs generalizing s with
  | nil => rfl
  | cons w vs ih =>
    rw [List.foldl_cons, ih]
    split_ifs
    · unfold setRow; split_ifs <;> rfl
    · rfl

theorem killAll_rows (s : State) (ks : List (Nat × List Nat)) :
    ks.foldl (fun s k => s.killRegs k.1 k.2) s = { s with rows := (ks.foldl (fun s k => s.killRegs k.1 k.2) s).rows } := by
  induction ks generalizing s with
  | nil => rfl
  | cons k ks ih => rw [List.foldl_cons, ih, killRegs_rows]

/-! ## Rows after writes -/

theorem writeReg_row (s : State) (c w : Nat) (ws : List RegWrite) (d v : Nat) (hw : w < 32) (hv : v < 32) (hne : ws ≠ [])
    (hl : ∀ x ∈ ws, x.lane < 32) :
    (s.writeReg c w ws).row d v = if d = c ∧ v = w then (s.row c w).write ws else s.row d v := by
  have h1 : (s.writeReg c w ws).row d v = (s.setRow c w ((s.row c w).write ws)).row d v := rfl
  rw [h1, row_setRow _ _ _ _ _ _ hw hv]
  split_ifs with h2 h3
  · exfalso
    obtain ⟨x, hx⟩ := List.exists_mem_of_ne_nil ws hne
    have := congrArg (fun b => b.getLsbD x.lane) h3.1
    simp only [Row.write, BitVec.getLsbD_or, laneMask_getLsbD _ _ (hl x hx)] at this
    have hm : x.lane ∈ ws.map (·.lane) := List.mem_map_of_mem hx
    rw [decide_eq_true hm] at this
    simp at this
  · rfl
  · rfl

theorem writeReg_rows (s : State) (c w : Nat) (ws : List RegWrite) :
    s.writeReg c w ws = { s with rows := (s.writeReg c w ws).rows, valid := (s.writeReg c w ws).valid } := by
  unfold writeReg setRow
  dsimp only
  split_ifs <;> rfl

/-- The rows after an instruction's writes: each written register of the crew is written once, no other row changes. -/
theorem writeRegs_row (s : State) (c : Nat) (ws : List RegWrite) (d v : Nat) (hws : ∀ x ∈ ws, x.reg < 32 ∧ x.lane < 32) (hv : v < 32) :
    (s.writeRegs c ws).row d v =
      if d = c ∧ v ∈ ws.map (·.reg) then (s.row c v).write (ws.filter fun w => w.reg == v) else s.row d v := by
  unfold writeRegs
  have hmem : ∀ w ∈ (ws.map (·.reg)).eraseDups, w ∈ ws.map (·.reg) := fun w h => List.mem_eraseDups.mp h
  have hiff : v ∈ ws.map (·.reg) ↔ v ∈ (ws.map (·.reg)).eraseDups := List.mem_eraseDups.symm
  have hnd := nodup_eraseDups (ws.map (·.reg))
  simp only [hiff]
  generalize (ws.map (·.reg)).eraseDups = vs at hmem hnd
  clear hiff
  induction vs generalizing s with
  | nil => simp
  | cons w vs ih =>
    rw [List.nodup_cons] at hnd
    have hwm := hmem w (by simp)
    obtain ⟨x, hx, hxw⟩ := List.mem_map.mp hwm
    have hw : w < 32 := hxw ▸ (hws x hx).1
    have hne : (ws.filter fun x => x.reg == w) ≠ [] := by
      intro h0
      have : x ∈ ws.filter fun x => x.reg == w := List.mem_filter.mpr ⟨hx, by simpa using hxw⟩
      rw [h0] at this; simp at this
    have hl : ∀ y ∈ ws.filter (fun x => x.reg == w), y.lane < 32 := fun y hy => (hws y (List.mem_of_mem_filter hy)).2
    rw [List.foldl_cons, ih _ (fun y hy => hmem y (by simp [hy])) hnd.2]
    simp only [writeReg_row _ _ _ _ _ _ hw hv hne hl]
    by_cases hc : d = c
    · by_cases hvw : v = w
      · subst hc hvw
        simp [hnd.1]
      · simp [hc, hvw]
    · simp [hc]

theorem writeRegs_rows (s : State) (c : Nat) (ws : List RegWrite) :
    s.writeRegs c ws = { s with rows := (s.writeRegs c ws).rows, valid := (s.writeRegs c ws).valid } := by
  unfold writeRegs
  generalize (ws.map (·.reg)).eraseDups = vs
  induction vs generalizing s with
  | nil => rfl
  | cons w vs ih => rw [List.foldl_cons, ih, writeReg_rows]

end State

/-! ## What a lane sees of a written row -/

theorem get_foldl_put (ws : List RegWrite) (m : FMap (BitVec 32)) (l : Nat) :
    (ws.foldl (fun m w => m.put w.lane w.val) m).get 0 l = (((ws.reverse.find? fun w => w.lane == l).map (·.val)).getD (m.get 0 l)) := by
  induction ws generalizing m with
  | nil => rfl
  | cons w ws ih =>
    rw [List.foldl_cons, ih, List.reverse_cons, List.find?_append]
    cases ws.reverse.find? fun w => w.lane == l with
    | some x => rfl
    | none =>
      by_cases h : w.lane = l
      · simp [h, FMap.get_put]
      · have h' : ¬l = w.lane := fun e => h e.symm
        simp [h, h', FMap.get_put]

theorem get_foldl_erase (ws : List RegWrite) (m : FMap (List Pend)) (l : Nat) :
    (ws.foldl (fun m w => m.erase w.lane) m).get [] l = if l ∈ ws.map (·.lane) then [] else m.get [] l := by
  induction ws generalizing m with
  | nil => simp
  | cons w ws ih =>
    rw [List.foldl_cons, ih]
    by_cases h1 : l ∈ ws.map (·.lane)
    · simp [h1]
    · by_cases h2 : l = w.lane
      · rw [if_neg h1, FMap.get_erase, if_pos h2, if_pos (by simp [h2])]
      · rw [if_neg h1, FMap.get_erase, if_neg h2, if_neg (by simpa [h2] using h1)]

/-- A lane that wrote a row sees its own bits under the row's new tag. -/
theorem Row.seen_write (r : Row) (ws : List RegWrite) (x : RegWrite) (free : BitVec 32) (hx : x ∈ ws) (hl : x.lane < 32)
    (hnd : (ws.map (·.lane)).Nodup) :
    (r.write ws).seen x.lane free =
      (tagAfter (r.live ||| laneMask (ws.map (·.lane))) (laneMask (ws.map (·.lane))) (r.fmt, r.scl) (mergeTag (ws.map fun w => (w.fmt, w.scl))),
       x.val) := by
  have hm : x.lane ∈ ws.map (·.lane) := List.mem_map_of_mem hx
  have hp : (r.write ws).pend.get [] x.lane = [] := by simp only [Row.write, get_foldl_erase, if_pos hm]
  have hlive : (r.write ws).live.getLsbD x.lane = true := by
    simp only [Row.write, BitVec.getLsbD_or, laneMask_getLsbD _ _ hl, decide_eq_true hm, Bool.or_true]
  have hv : (r.write ws).vals.get 0 x.lane = x.val := by
    simp only [Row.write, get_foldl_put]
    have : (ws.reverse.find? fun w => w.lane == x.lane) = some x := by
      cases hf : ws.reverse.find? fun w => w.lane == x.lane with
      | none =>
        rw [List.find?_eq_none] at hf
        exact absurd (hf x (by simpa using hx)) (by simp)
      | some y =>
        have hy := List.find?_some hf
        have hym : y ∈ ws := by simpa using List.mem_of_find?_eq_some hf
        have hyl : y.lane = x.lane := by simpa using hy
        exact congrArg some (List.inj_on_of_nodup_map hnd hym hx hyl)
    rw [this]; rfl
  unfold Row.seen
  rw [hp, hlive, hv]
  rfl

/-- A lane that did not write a row keeps its bits. -/
theorem Row.seen_write_other (r : Row) (ws : List RegWrite) (l : Nat) (free : BitVec 32) (hl : l < 32) (hm : l ∉ ws.map (·.lane)) :
    ((r.write ws).seen l free).2 = (r.seen l free).2 := by
  have hp : (r.write ws).pend.get [] l = r.pend.get [] l := by simp only [Row.write, get_foldl_erase, if_neg hm]
  have hlive : (r.write ws).live.getLsbD l = r.live.getLsbD l := by
    simp only [Row.write, BitVec.getLsbD_or, laneMask_getLsbD _ _ hl, decide_eq_false hm, Bool.or_false]
  have hv : (r.write ws).vals.get 0 l = r.vals.get 0 l := by
    simp only [Row.write, get_foldl_put]
    have : (ws.reverse.find? fun w => w.lane == l) = none := by
      rw [List.find?_eq_none]
      intro y hy e
      exact hm (List.mem_map.mpr ⟨y, by simpa using hy, by simpa using e⟩)
    rw [this]; rfl
  unfold Row.seen
  rw [hp, hlive, hv]
  cases r.pend.get [] l with
  | nil => dsimp only; split_ifs <;> rfl
  | cons p ps => rfl

/-- A dead lane that did not write a row stays dead. -/
theorem Row.seen_write_dead (r : Row) (ws : List RegWrite) (l : Nat) (free : BitVec 32) (hl : l < 32) (hm : l ∉ ws.map (·.lane))
    (hd : r.live.getLsbD l = false) (hp : r.pend.get [] l = []) : (r.write ws).seen l free = ((0, 0), 0) := by
  have hp' : (r.write ws).pend.get [] l = [] := by simp only [Row.write, get_foldl_erase, if_neg hm, hp]
  have hlive : (r.write ws).live.getLsbD l = false := by
    simp only [Row.write, BitVec.getLsbD_or, laneMask_getLsbD _ _ hl, decide_eq_false hm, Bool.or_false, hd]
  unfold Row.seen
  rw [hp', hlive]
  rfl

/-- A lane of a row from which lanes have been killed sees what it saw, if it is not one of them. -/
theorem Row.Left.seen {q r : Row} {ks : List Nat} (h : q.Left r ks) (l : Nat) (hl : l < 32) (free : BitVec 32) :
    q.seen l free = if l ∈ ks then ((0, 0), 0) else r.seen l free := by
  unfold Row.seen
  rw [h.pend l]
  by_cases hk : l ∈ ks
  · have := h.live l hl
    simp [hk] at this
    simp [hk, this]
  · have hlv : q.live.getLsbD l = r.live.getLsbD l := by simpa [hk] using h.live l hl
    simp only [hk, if_false]
    cases r.pend.get [] l with
    | cons p ps => rfl
    | nil =>
      dsimp only
      by_cases hq : q.live.getLsbD l = true
      · have ht := h.tag (fun e => by rw [e] at hq; simp at hq)
        rw [if_pos hq, if_pos (hlv ▸ hq), h.vals l hl hq, ht.1, ht.2]
      · rw [if_neg hq, if_neg (hlv ▸ hq)]

/-- The tag of a row after a write depends on what is left of it alone. -/
theorem Row.Left.tagAfter {q r : Row} {ks : List Nat} (h : q.Left r ks) (lanes : BitVec 32) (new : BitVec 4 × BitVec 7) :
    tagAfter (q.live ||| lanes) lanes (q.fmt, q.scl) new = tagAfter ((r.live &&& ~~~laneMask ks) ||| lanes) lanes (r.fmt, r.scl) new := by
  have hl : q.live = r.live &&& ~~~laneMask ks := by
    apply BitVec.eq_of_getLsbD_eq
    intro i hi
    rw [h.live i hi, BitVec.getLsbD_and, BitVec.getLsbD_not, laneMask_getLsbD _ _ hi]
    simp [hi]
  rw [← hl]
  by_cases h0 : q.live = 0
  · have : (q.live ||| lanes) &&& ~~~lanes = 0 := by rw [h0]; simp
    unfold Machine.tagAfter
    rw [if_pos this, if_pos this]
  · obtain ⟨h1, h2⟩ := h.tag h0
    rw [h1, h2]

namespace State

/-! ## Validity -/

theorem validBit_setValid (s : State) (t k u j : Nat) (b : Bool) (hk : k < 8) (hj : j < 8) :
    (s.setValid t k b).validBit u j = if u = t ∧ j = k then b else s.validBit u j := by
  unfold setValid validBit
  simp only [FMap.get_set]
  by_cases hc : crewOf u * 8 + j = crewOf t * 8 + k
  · have hcj : crewOf u = crewOf t ∧ j = k := by omega
    rw [if_pos hc, setBit_getLsbD _ _ _ _ (laneOf_lt u)]
    by_cases hl : laneOf u = laneOf t
    · have : u = t := thread_eq.mpr ⟨hcj.1, hl⟩
      simp [this, hcj.2]
    · have : u ≠ t := fun e => hl (by rw [e])
      simp [hl, this, hcj.1, hcj.2]
  · rw [if_neg hc, if_neg]
    rintro ⟨rfl, rfl⟩; exact hc rfl

theorem validBit_writeReg (s : State) (c w : Nat) (ws : List RegWrite) (u k : Nat) (hw : w < 32) (hk : k < 8) :
    (s.writeReg c w ws).validBit u k =
      (s.validBit u k && !(decide (crewOf u = c) && decide (w / 4 = k) && decide (laneOf u ∈ ws.map (·.lane)))) := by
  have h1 : (s.writeReg c w ws).valid = s.valid.set 0 (c * 8 + w / 4) (s.valid.get 0 (c * 8 + w / 4) &&& ~~~laneMask (ws.map (·.lane))) := by
    unfold writeReg setRow; dsimp only; split_ifs <;> rfl
  unfold validBit
  rw [h1, FMap.get_set]
  by_cases hc : crewOf u * 8 + k = c * 8 + w / 4
  · have hcj : crewOf u = c ∧ w / 4 = k := by omega
    rw [if_pos hc, BitVec.getLsbD_and, BitVec.getLsbD_not, laneMask_getLsbD _ _ (laneOf_lt u), hc]
    simp [hcj, laneOf_lt]
  · rw [if_neg hc]
    by_cases h2 : crewOf u = c ∧ w / 4 = k
    · exfalso; apply hc; rw [h2.1, h2.2]
    · have : (decide (crewOf u = c) && decide (w / 4 = k)) = false := by simpa using h2
      rw [this]; simp

theorem validBit_writeRegs (s : State) (c : Nat) (ws : List RegWrite) (u k : Nat) (hws : ∀ x ∈ ws, x.reg < 32) (hk : k < 8) :
    (s.writeRegs c ws).validBit u k =
      (s.validBit u k && !(decide (crewOf u = c) && ws.any fun w => w.reg / 4 == k && w.lane == laneOf u)) := by
  unfold writeRegs
  have key : ∀ vs : List Nat, (∀ v ∈ vs, v < 32) → ∀ s : State,
      ((vs.foldl (fun s v => s.writeReg c v (ws.filter fun w => w.reg == v)) s).validBit u k =
        (s.validBit u k && !(decide (crewOf u = c) && ws.any fun w => decide (w.reg ∈ vs) && (w.reg / 4 == k) && w.lane == laneOf u))) := by
    intro vs
    induction vs with
    | nil => intro _ s; simp
    | cons v vs ih =>
      intro hv s
      rw [List.foldl_cons, ih (fun x hx => hv x (by simp [hx])), validBit_writeReg _ _ _ _ _ _ (hv v (by simp)) hk, Bool.and_assoc]
      congr 1
      rw [Bool.eq_iff_iff]
      simp only [Bool.and_eq_true, Bool.not_eq_true', Bool.and_eq_false_iff, decide_eq_false_iff_not, List.any_eq_false,
        Bool.and_eq_true, decide_eq_true_eq, beq_iff_eq, List.mem_cons, List.mem_map, List.mem_filter]
      constructor
      · rintro ⟨h1, h2⟩
        by_cases hc : crewOf u = c
        · refine .inr fun w hw hh => ?_
          rcases h2 with h2 | h2
          · exact h2 hc
          · rcases hh.1.1 with e | e
            · rcases h1 with (h1 | h1) | h1
              · exact h1 hc
              · exact h1 (e ▸ hh.1.2)
              · exact h1 ⟨w, ⟨hw, e⟩, hh.2⟩
            · exact h2 w hw ⟨⟨e, hh.1.2⟩, hh.2⟩
        · exact .inl hc
      · intro h
        by_cases hc : crewOf u = c
        · rcases h with h | h
          · exact absurd hc h
          · refine ⟨?_, .inr fun w hw hh => h w hw ⟨⟨.inr hh.1.1, hh.1.2⟩, hh.2⟩⟩
            by_cases hk' : v / 4 = k
            · refine .inr ?_
              rintro ⟨w, ⟨hw, e⟩, hl⟩
              exact h w hw ⟨⟨.inl e, by rw [e]; exact hk'⟩, hl⟩
            · exact .inl (.inr hk')
        · exact ⟨.inl (.inl hc), .inl hc⟩
  rw [key _ (fun v hv => by
    obtain ⟨x, hx, rfl⟩ := List.mem_map.mp (List.mem_eraseDups.mp hv)
    exact hws x hx)]
  congr 3
  rw [Bool.eq_iff_iff]
  simp only [List.any_eq_true, Bool.and_eq_true, decide_eq_true_eq, List.mem_eraseDups, List.mem_map]
  exact ⟨fun ⟨w, hw, h⟩ => ⟨w, hw, h.1.2, h.2⟩, fun ⟨w, hw, h⟩ => ⟨w, hw, ⟨⟨w, hw, rfl⟩, h.1⟩, h.2⟩⟩

end State

end Sys2Proof.Machine
end

