-- ==== Sys2Proof/Laws/Forms.lean ====
section
/-! SUPPORT. What executing an instruction for a group can do when every thread of the group passes its checks: the law of `issue`
from which the statements about forms follow (R31, R33, R36, R97). -/

namespace Sys2Proof.Machine

/-- What a thread has done, as its lane's outcome. -/
def LaneDone.outcome (d : LaneDone) : Done := ⟨d.writes, d.caps, d.kills, d.next, .ready⟩

/-- What a form writes and kills lies among the 32 registers and 8 groups of a crew, each written once. -/
structure LaneDone.Shape (d : LaneDone) : Prop where
  writes : ∀ w ∈ d.writes, w.1 < 32
  kills : ∀ v ∈ d.kills, v < 32
  nodup : (d.writes.map (·.1)).Nodup
  caps : ∀ c ∈ d.caps, c.1 < 8
  single : d.caps.length ≤ 1

/-- A lane operation that carries out a form where its checks pass. -/
structure Form.CarriedOut (f : Form) (op : State → Nat → State × LaneRes) : Prop where
  run : ∀ s t, f.ok s t = true → s.rowCheck t ((f.writes s t).map (·.1)) = none →
    op s t = (f.act s t, .done ⟨f.writes s t, f.caps s t, f.kills s t, f.next s t, .ready⟩)
  shape : ∀ s t, f.ok s t = true → (⟨t, f.kills s t, f.writes s t, f.caps s t, f.next s t⟩ : LaneDone).Shape

namespace State

theorem thread_updThread (s : State) (t u : Nat) (f : Thread → Thread) (h : (s.threads.find? t).isSome) :
    (s.updThread t f).thread u = if u = t then f (s.thread t) else s.thread u := by
  unfold updThread thread FMap.get
  rw [FMap.find?_adjust]
  by_cases hu : u = t
  · subst hu
    obtain ⟨x, hx⟩ := Option.isSome_iff_exists.mp h
    simp [hx]
  · simp [hu]

theorem find?_updThread (s : State) (t u : Nat) (f : Thread → Thread) :
    ((s.updThread t f).threads.find? u).isSome = (s.threads.find? u).isSome := by
  unfold updThread
  rw [FMap.find?_adjust]
  by_cases hu : u = t <;> simp [hu]

/-- A thread that has completed goes on: at the end of a run it begins another. -/
theorem settleLane_ready (s : State) (e : Bool) (len t : Nat) (d : Done) (hd : d.stat = .ready)
    (hp : e = true → s.goesOn t = true) :
    s.settleLane e len t d = s.updThread t fun h => h.goOn e s.clock (d.next.getD ((s.thread t).pc + len)) := by
  unfold settleLane
  rw [hd]
  cases e with
  | false => rfl
  | true =>
    have h := hp rfl
    simp only [State.goesOn, Bool.or_eq_true, Option.isNone_iff_eq_none] at h
    rcases h with h | h
    · simp only [if_true, boundary, h]
      rfl
    · simp only [if_true, boundary, h, ite_self]
      rfl

theorem updThread_threads (s : State) (t : Nat) (f : Thread → Thread) :
    s.updThread t f = { s with threads := (s.updThread t f).threads } := rfl

theorem goOn_inSave (h : Thread) (e : Bool) (clock pc : Nat) : (h.goOn e clock pc).inSave = h.inSave := by
  unfold Thread.goOn; split <;> rfl

theorem goesOn_goOn (s : State) (t : Nat) (f : Thread → Thread) {u : Nat} (h : (s.threads.find? t).isSome)
    (hf : ∀ h, (f h).inSave = h.inSave) : (s.updThread t f).goesOn u = s.goesOn u := by
  have h1 : ((s.updThread t f).thread u).inSave = (s.thread u).inSave := by
    rw [thread_updThread _ _ _ _ h]
    by_cases hu : u = t
    · rw [if_pos hu, hf, hu]
    · rw [if_neg hu]
  unfold goesOn
  rw [h1]
  rfl

/-- Threads that have completed go on, each by itself. -/
theorem settle_all (e : Bool) (len : Nat) (ds : List (Nat × Done)) (s : State) (hnd : (ds.map (·.1)).Nodup)
    (hex : ∀ d ∈ ds, (s.threads.find? d.1).isSome) (hp : ∀ d ∈ ds, e = true → s.goesOn d.1 = true)
    (hst : ∀ d ∈ ds, d.2.stat = .ready) :
    let s' := ds.foldl (fun s td => s.settleLane e len td.1 td.2) s
    s' = { s with threads := s'.threads } ∧
      ∀ u, s'.thread u = match ds.find? fun d => d.1 == u with
        | none => s.thread u
        | some d => (s.thread u).goOn e s.clock (d.2.next.getD ((s.thread u).pc + len)) := by
  induction ds generalizing s with
  | nil => exact ⟨rfl, fun u => rfl⟩
  | cons d ds ih =>
    simp only [List.map_cons, List.nodup_cons] at hnd
    rw [List.foldl_cons, settleLane_ready _ _ _ _ _ (hst d (by simp)) (hp d (by simp))]
    generalize hf : (fun h : Thread => h.goOn e s.clock (d.2.next.getD ((s.thread d.1).pc + len))) = f
    obtain ⟨h1, h2⟩ := ih (s.updThread d.1 f) hnd.2 (fun x hx => by rw [find?_updThread]; exact hex x (by simp [hx]))
      (fun x hx he => by rw [goesOn_goOn _ _ _ (hex d (by simp)) (by rw [← hf]; exact fun h => goOn_inSave h _ _ _)]; exact hp x (by simp [hx]) he)
      (fun x hx => hst x (by simp [hx]))
    refine ⟨h1, fun u => ?_⟩
    rw [h2 u, List.find?_cons]
    by_cases hu : d.1 = u
    · subst hu
      have hno : (ds.find? fun x => x.1 == d.1) = none := by
        rw [List.find?_eq_none]
        intro x hx hh
        exact hnd.1 (List.mem_map.mpr ⟨x, hx, by simpa using hh⟩)
      simp only [hno, beq_self_eq_true]
      rw [thread_updThread _ _ _ _ (hex d (by simp)), if_pos rfl, ← hf]
    · have hb : (d.1 == u) = false := by simpa using hu
      have ht : (s.updThread d.1 f).thread u = s.thread u := by
        rw [thread_updThread _ _ _ _ (hex d (by simp)), if_neg (fun x => hu x.symm)]
      simp only [hb, ht]
      rfl

end State

namespace Form

variable {f : Form} {op : State → Nat → State × LaneRes}

/-- The lanes of an instruction that carries out a form do as the form says. -/
theorem CarriedOut.lanes (h : f.CarriedOut op) (ts : List Nat) (s : State) (hok : (f.lanes s ts).2.2 = true) :
    State.runLanes op s ts = ((f.lanes s ts).1, (f.lanes s ts).2.1.map fun d => (d.thread, .done d.outcome)) := by
  induction ts generalizing s with
  | nil => rfl
  | cons t ts ih =>
    simp only [Form.lanes, Bool.and_eq_true, Option.isNone_iff_eq_none] at hok
    simp only [State.runLanes, h.run s t hok.1.1 hok.1.2, ih _ hok.2, Form.lanes, List.map_cons]
    rfl

theorem lanes_threads (f : Form) (s : State) (ts : List Nat) : (f.lanes s ts).2.1.map (·.thread) = ts := by
  induction ts generalizing s with
  | nil => rfl
  | cons t ts ih => simp only [Form.lanes, List.map_cons, ih]

theorem CarriedOut.lane_shape (h : f.CarriedOut op) (ts : List Nat) (s : State) (hok : (f.lanes s ts).2.2 = true) :
    ∀ d ∈ (f.lanes s ts).2.1, d.Shape := by
  induction ts generalizing s with
  | nil => intro d hd; simp [Form.lanes] at hd
  | cons t ts ih =>
    simp only [Form.lanes, Bool.and_eq_true] at hok
    intro d hd
    simp only [Form.lanes, List.mem_cons] at hd
    rcases hd with rfl | hd
    · exact h.shape s t hok.1.1
    · exact ih _ hok.2 d hd

end Form

/-! ## Registers written back -/

/-- The lanes of threads that completed. -/
def doneLanes (ds : List LaneDone) : List (Nat × LaneRes) := ds.map fun d => (d.thread, .done d.outcome)

theorem allWrites_doneLanes (ds : List LaneDone) :
    State.allWrites (doneLanes ds) = ds.flatMap fun d => d.writes.map fun w => ⟨laneOf d.thread, w.1, w.2.1, w.2.2.1, w.2.2.2⟩ := by
  induction ds with
  | nil => rfl
  | cons d ds ih =>
    simp only [State.allWrites, doneLanes, List.map_cons, List.flatMap_cons] at ih ⊢
    rw [ih]; rfl

/-- A fold over the lanes of threads that completed. -/
theorem foldl_doneLanes (g : State → Nat × LaneRes → State) (g' : State → LaneDone → State)
    (h : ∀ s d, g s (d.thread, .done d.outcome) = g' s d) (ds : List LaneDone) (s : State) :
    (doneLanes ds).foldl g s = ds.foldl g' s := by
  induction ds generalizing s with
  | nil => rfl
  | cons d ds ih => simp only [doneLanes, List.map_cons, List.foldl_cons] at ih ⊢; rw [h, ih]

theorem foldl_kills (ds : List LaneDone) (s : State) :
    ds.foldl (fun s d => s.killRegs d.thread d.kills) s =
      (ds.map fun d => (d.thread, d.kills)).foldl (fun s k => s.killRegs k.1 k.2) s := by
  rw [List.foldl_map]

/-- The write-back of threads that completed: kills, writes, validity. -/
theorem writeBack_eq (ds : List LaneDone) (s : State) (c : Nat) :
    s.writeBack c (doneLanes ds) = ds.foldl (fun s d => d.caps.foldl (fun s c => s.setValid d.thread c.1 c.2) s)
      (((ds.map fun d => (d.thread, d.kills)).foldl (fun s k => s.killRegs k.1 k.2) s).writeRegs c (State.allWrites (doneLanes ds))) := by
  unfold State.writeBack
  rw [← foldl_kills]
  dsimp only
  rw [foldl_doneLanes _ (fun s d => d.caps.foldl (fun s c => s.setValid d.thread c.1 c.2) s) (fun _ _ => rfl),
    foldl_doneLanes _ (fun s d => s.killRegs d.thread d.kills) (fun _ _ => rfl)]

/-- Nothing but registers and their validity differs. -/
def OnlyRegisters (s s' : State) : Prop := ∃ r v, s' = { s with rows := r, valid := v }

theorem OnlyRegisters.refl (s : State) : OnlyRegisters s s := ⟨s.rows, s.valid, rfl⟩

theorem OnlyRegisters.trans {s t u : State} (h : OnlyRegisters s t) (h' : OnlyRegisters t u) : OnlyRegisters s u := by
  obtain ⟨r, v, rfl⟩ := h
  obtain ⟨r', v', rfl⟩ := h'
  exact ⟨r', v', rfl⟩

theorem OnlyRegisters.foldl {α : Type} (g : State → α → State) (h : ∀ s x, OnlyRegisters s (g s x)) (xs : List α) (s : State) :
    OnlyRegisters s (xs.foldl g s) := by
  induction xs generalizing s with
  | nil => exact .refl s
  | cons x xs ih => exact (h s x).trans (ih _)

theorem OnlyRegisters.killRegs (s : State) (t : Nat) (vs : List Nat) : OnlyRegisters s (s.killRegs t vs) := by
  rw [State.killRegs_rows]; exact ⟨_, s.valid, rfl⟩

theorem OnlyRegisters.writeRegs (s : State) (c : Nat) (ws : List RegWrite) : OnlyRegisters s (s.writeRegs c ws) := by
  rw [State.writeRegs_rows]; exact ⟨_, _, rfl⟩

theorem OnlyRegisters.setValid (s : State) (t k : Nat) (b : Bool) : OnlyRegisters s (s.setValid t k b) := ⟨s.rows, _, rfl⟩

theorem OnlyRegisters.caps (t : Nat) (cs : List (Nat × Bool)) (s : State) :
    OnlyRegisters s (cs.foldl (fun s c => s.setValid t c.1 c.2) s) :=
  OnlyRegisters.foldl (fun s (c : Nat × Bool) => s.setValid t c.1 c.2) (fun s c => OnlyRegisters.setValid s t c.1 c.2) cs s

theorem OnlyRegisters.allCaps (ds : List LaneDone) (s : State) :
    OnlyRegisters s (ds.foldl (fun s d => d.caps.foldl (fun s c => s.setValid d.thread c.1 c.2) s) s) :=
  OnlyRegisters.foldl (fun s (d : LaneDone) => d.caps.foldl (fun s c => s.setValid d.thread c.1 c.2) s)
    (fun s d => OnlyRegisters.caps d.thread d.caps s) ds s

/-- Writing back changes registers and validity alone. -/
theorem writeBack_only (ds : List LaneDone) (s : State) (c : Nat) : OnlyRegisters s (s.writeBack c (doneLanes ds)) := by
  rw [writeBack_eq]
  have h1 := OnlyRegisters.foldl (fun s (k : Nat × List Nat) => s.killRegs k.1 k.2) (fun s k => .killRegs s k.1 k.2)
    (ds.map fun d => (d.thread, d.kills)) s
  have h2 := h1.trans (OnlyRegisters.writeRegs _ c (State.allWrites (doneLanes ds)))
  exact h2.trans (OnlyRegisters.allCaps ds _)

theorem foldl_caps_rows (ds : List LaneDone) (s : State) :
    (ds.foldl (fun s d => d.caps.foldl (fun s c => s.setValid d.thread c.1 c.2) s) s).rows = s.rows := by
  have hc : ∀ (t : Nat) (cs : List (Nat × Bool)) (s : State), (cs.foldl (fun s c => s.setValid t c.1 c.2) s).rows = s.rows := by
    intro t cs
    induction cs with
    | nil => intro s; rfl
    | cons c cs ih => intro s; rw [List.foldl_cons, ih]; rfl
  induction ds generalizing s with
  | nil => rfl
  | cons d ds ih => rw [List.foldl_cons, ih, hc]

section Registers

variable {s : State} {c : Nat} {ds : List LaneDone} (hc : ∀ d ∈ ds, crewOf d.thread = c) (hnd : (ds.map (·.thread)).Nodup)
  (hs : ∀ d ∈ ds, d.Shape)

include hs in
/-- The row of a register after the write-back. -/
theorem writeBack_row (u v : Nat) (hv : v < 32) :
    ∃ q : Row, q.Left (s.row (crewOf u) v) (State.killedLanes (crewOf u) v (ds.map fun d => (d.thread, d.kills))) ∧
      (s.writeBack c (doneLanes ds)).row (crewOf u) v =
        if crewOf u = c ∧ v ∈ (State.allWrites (doneLanes ds)).map (·.reg)
        then q.write ((State.allWrites (doneLanes ds)).filter fun w => w.reg == v) else q := by
  have hk : ∀ k ∈ ds.map (fun d => (d.thread, d.kills)), ∀ w ∈ k.2, w < 32 := by
    intro k hk w hw
    obtain ⟨d, hd, rfl⟩ := List.mem_map.mp hk
    exact (hs d hd).kills w hw
  have hw : ∀ x ∈ State.allWrites (doneLanes ds), x.reg < 32 ∧ x.lane < 32 := by
    intro x hx
    rw [allWrites_doneLanes] at hx
    obtain ⟨d, hd, hx⟩ := List.mem_flatMap.mp hx
    obtain ⟨w, hw, rfl⟩ := List.mem_map.mp hx
    exact ⟨(hs d hd).writes w hw, laneOf_lt _⟩
  refine ⟨_, s.killAll_left (ds.map fun d => (d.thread, d.kills)) (crewOf u) v hk hv, ?_⟩
  rw [writeBack_eq]
  have e : ∀ x y : State, x.rows = y.rows → x.row (crewOf u) v = y.row (crewOf u) v := fun x y h => by unfold State.row; rw [h]
  rw [e _ _ (foldl_caps_rows ds _), State.writeRegs_row _ _ _ _ _ hw hv]
  by_cases h : crewOf u = c ∧ v ∈ (State.allWrites (doneLanes ds)).map (·.reg)
  · rw [if_pos h, if_pos h, h.1]
  · rw [if_neg h, if_neg h]

omit hc hnd hs in
theorem writesTo (v : Nat) :
    ((State.allWrites (doneLanes ds)).filter fun w => w.reg == v) =
      (Form.writers ds v).flatMap fun d => (d.writes.filter fun w => w.1 == v).map fun w =>
        (⟨laneOf d.thread, w.1, w.2.1, w.2.2.1, w.2.2.2⟩ : RegWrite) := by
  rw [allWrites_doneLanes]
  induction ds with
  | nil => rfl
  | cons d ds ih =>
    rw [List.flatMap_cons, List.filter_append, ih]
    unfold Form.writers
    rw [List.filter_cons]
    have e : ((d.writes.map fun w => (⟨laneOf d.thread, w.1, w.2.1, w.2.2.1, w.2.2.2⟩ : RegWrite)).filter fun w => w.reg == v) =
        (d.writes.filter fun w => w.1 == v).map fun w => ⟨laneOf d.thread, w.1, w.2.1, w.2.2.1, w.2.2.2⟩ := by
      rw [List.filter_map]; rfl
    split_ifs with h
    · rw [List.flatMap_cons, e]
    · rw [e]
      have : d.writes.filter (fun w => w.1 == v) = [] := by
        rw [List.filter_eq_nil_iff]
        intro w hw hh
        exact h (List.any_eq_true.mpr ⟨w, hw, hh⟩)
      rw [this]; rfl

include hs in
theorem writer_single (d : LaneDone) (hd : d ∈ ds) (w : Nat × BitVec 32 × BitVec 4 × BitVec 7) (hw : w ∈ d.writes) :
    (d.writes.filter fun x => x.1 == w.1) = [w] := by
  have h := (hs d hd).nodup
  generalize d.writes = ws at h hw
  induction ws with
  | nil => simp at hw
  | cons x ws ih =>
    simp only [List.map_cons, List.nodup_cons] at h
    rw [List.filter_cons]
    rcases List.mem_cons.mp hw with rfl | hw
    · rw [if_pos (by simp)]
      have : ws.filter (fun x => x.1 == w.1) = [] := by
        rw [List.filter_eq_nil_iff]
        intro y hy e
        exact h.1 (List.mem_map.mpr ⟨y, hy, by simpa using e⟩)
      rw [this]
    · rw [if_neg, ih h.2 hw]
      intro e
      exact h.1 (List.mem_map.mpr ⟨w, hw, (by simpa using e : x.1 = w.1).symm⟩)

include hs in
/-- The lanes that write a register, in order, each once. -/
theorem writesTo_lanes (v : Nat) :
    (((State.allWrites (doneLanes ds)).filter fun w => w.reg == v).map (·.lane)) = (Form.writers ds v).map fun d => laneOf d.thread := by
  rw [writesTo]
  have h : ∀ d ∈ Form.writers ds v, ((d.writes.filter fun w => w.1 == v).map fun w =>
      (⟨laneOf d.thread, w.1, w.2.1, w.2.2.1, w.2.2.2⟩ : RegWrite)).map (·.lane) = [laneOf d.thread] := by
    intro d hd
    obtain ⟨hd', hw'⟩ := List.mem_filter.mp hd
    obtain ⟨w, hw, e⟩ := List.any_eq_true.mp hw'
    have e : w.1 = v := by simpa using e
    subst e
    rw [writer_single hs d hd' w hw]; rfl
  rw [List.map_flatMap]
  generalize Form.writers ds v = ws at h
  induction ws with
  | nil => rfl
  | cons d ws ih =>
    rw [List.flatMap_cons, List.map_cons, h d (by simp), ih (fun x hx => h x (by simp [hx]))]; rfl

omit hc hnd hs in
theorem writesTo_tags (v : Nat) :
    (((State.allWrites (doneLanes ds)).filter fun w => w.reg == v).map fun w => (w.fmt, w.scl)) =
      (Form.writers ds v).flatMap fun d => (d.writes.filter fun w => w.1 == v).map fun w => (w.2.2.1, w.2.2.2) := by
  rw [writesTo, List.map_flatMap]
  congr 1; funext d
  rw [List.map_map]; rfl

include hc hnd in
theorem writers_lanes_nodup (v : Nat) : ((Form.writers ds v).map fun d => laneOf d.thread).Nodup := by
  have h1 : ((Form.writers ds v).map (·.thread)).Nodup := hnd.sublist (List.Sublist.map _ List.filter_sublist)
  have h2 : (Form.writers ds v).map (fun d => laneOf d.thread) = ((Form.writers ds v).map (·.thread)).map laneOf := by
    rw [List.map_map]; rfl
  rw [h2]
  refine List.Nodup.map_on ?_ h1
  intro x hx y hy e
  obtain ⟨a, ha, rfl⟩ := List.mem_map.mp hx
  obtain ⟨b, hb, rfl⟩ := List.mem_map.mp hy
  exact thread_eq.mpr ⟨by rw [hc a (List.mem_of_mem_filter ha), hc b (List.mem_of_mem_filter hb)], e⟩

include hc hnd hs in
/-- What the write-back does to the registers, as a form states it. -/
theorem writeBack_regs {s' : State} (hf : s'.freeCtr = s.freeCtr) (hr : s'.rows = (s.writeBack c (doneLanes ds)).rows) :
    Form.Regs s s' c ds := by
  have hrow : ∀ d v, s'.row d v = (s.writeBack c (doneLanes ds)).row d v := fun d v => by unfold State.row; rw [hr]
  refine ⟨fun d hd w hw => ?_, fun d hd v hv hno => ?_, fun u v hv hno => ?_⟩
  · have hv := (hs d hd).writes w hw
    obtain ⟨q, hq, hrw⟩ := writeBack_row (s := s) hs d.thread w.1 hv
    have hmem : (⟨laneOf d.thread, w.1, w.2.1, w.2.2.1, w.2.2.2⟩ : RegWrite) ∈ State.allWrites (doneLanes ds) := by
      rw [allWrites_doneLanes]
      exact List.mem_flatMap.mpr ⟨d, hd, List.mem_map.mpr ⟨w, hw, rfl⟩⟩
    rw [if_pos ⟨hc d hd, List.mem_map.mpr ⟨_, hmem, rfl⟩⟩] at hrw
    have hx := q.seen_write ((State.allWrites (doneLanes ds)).filter fun x => x.reg == w.1) _ (s'.freeOf d.thread w.1)
      (List.mem_filter.mpr ⟨hmem, by simp⟩) (laneOf_lt _) (by rw [writesTo_lanes hs]; exact writers_lanes_nodup hc hnd w.1)
    have hsee := s'.seen_eq d.thread w.1
    rw [hrow, hrw, hx] at hsee
    have h1 : _ = s'.tagOf d.thread w.1 := congrArg Prod.fst hsee
    have h2 : _ = s'.reg d.thread w.1 := congrArg Prod.snd hsee
    refine ⟨h2.symm, ?_⟩
    rw [← h1]
    dsimp only
    rw [hq.tagAfter, writesTo_lanes hs, writesTo_tags, hc d hd]
    unfold Form.tagAt
    congr 4
    apply BitVec.eq_of_getLsbD_eq
    intro i hi
    rw [laneMask_getLsbD _ _ hi, laneMask_getLsbD _ _ hi]
    congr 1
    rw [State.mem_killedLanes]
    simp only [List.mem_map, List.mem_filter, eq_iff_iff, List.contains_eq_mem, decide_eq_true_eq]
    constructor
    · rintro ⟨k, ⟨x, hx, rfl⟩, h1, h2, h3⟩; exact ⟨x, ⟨hx, h3⟩, h2⟩
    · rintro ⟨x, ⟨hx, h3⟩, h2⟩; exact ⟨_, ⟨x, hx, rfl⟩, hc x hx, h2, h3⟩
  · have hv32 := (hs d hd).kills v hv
    obtain ⟨q, hq, hrw⟩ := writeBack_row (s := s) hs d.thread v hv32
    have hkl : laneOf d.thread ∈ State.killedLanes (crewOf d.thread) v (ds.map fun d => (d.thread, d.kills)) := by
      rw [State.mem_killedLanes]; exact ⟨_, List.mem_map.mpr ⟨d, hd, rfl⟩, rfl, rfl, hv⟩
    have hdead := hq.seen (laneOf d.thread) (laneOf_lt _) (s'.freeOf d.thread v)
    rw [if_pos hkl] at hdead
    have hsee := s'.seen_eq d.thread v
    rw [hrow, hrw] at hsee
    have hnw : laneOf d.thread ∉ ((State.allWrites (doneLanes ds)).filter fun w => w.reg == v).map (·.lane) := by
      rw [writesTo_lanes hs]
      intro hm
      obtain ⟨x, hx, e⟩ := List.mem_map.mp hm
      obtain ⟨hxd, hxw⟩ := List.mem_filter.mp hx
      have : x.thread = d.thread := thread_eq.mpr ⟨by rw [hc x hxd, hc d hd], e⟩
      have : x = d := List.inj_on_of_nodup_map hnd hxd hd this
      subst this
      obtain ⟨w, hw, e⟩ := List.any_eq_true.mp hxw
      exact hno w hw (by simpa using e)
    have hlive := hq.live _ (laneOf_lt d.thread)
    rw [decide_eq_false (by simpa using hkl), Bool.and_false] at hlive
    have hpend : q.pend.get [] (laneOf d.thread) = [] := by rw [hq.pend, if_pos hkl]
    have hfin : (if crewOf d.thread = c ∧ v ∈ (State.allWrites (doneLanes ds)).map (·.reg)
        then q.write ((State.allWrites (doneLanes ds)).filter fun w => w.reg == v) else q).seen (laneOf d.thread) (s'.freeOf d.thread v) =
        ((0, 0), 0) := by
      split_ifs
      · exact q.seen_write_dead _ _ _ (laneOf_lt _) hnw hlive hpend
      · exact hdead
    rw [hfin] at hsee
    exact ⟨(congrArg Prod.snd hsee).symm, (congrArg Prod.fst hsee).symm⟩
  · obtain ⟨q, hq, hrw⟩ := writeBack_row (s := s) hs u v hv
    have hkl : laneOf u ∉ State.killedLanes (crewOf u) v (ds.map fun d => (d.thread, d.kills)) := by
      rw [State.mem_killedLanes]
      rintro ⟨k, hk, h1, h2, h3⟩
      obtain ⟨d, hd, rfl⟩ := List.mem_map.mp hk
      exact (hno d hd (thread_eq.mpr ⟨h1, h2⟩)).1 h3
    have hseen := hq.seen (laneOf u) (laneOf_lt u) (s.freeOf u v)
    rw [if_neg hkl] at hseen
    have hsee := s.seen_eq u v
    have hsee' := s'.seen_eq u v
    have hfo : s'.freeOf u v = s.freeOf u v := by unfold State.freeOf; rw [hf]
    rw [hrow, hrw, hfo] at hsee'
    have hno' : ∀ d ∈ Form.writers ds v, d.thread ≠ u := by
      intro d hd e
      obtain ⟨hd, hw⟩ := List.mem_filter.mp hd
      obtain ⟨w, hw, e'⟩ := List.any_eq_true.mp hw
      exact (hno d hd e).2 w hw (by simpa using e')
    by_cases hw : crewOf u = c ∧ v ∈ (State.allWrites (doneLanes ds)).map (·.reg)
    · rw [if_pos hw] at hsee'
      have hnw : laneOf u ∉ ((State.allWrites (doneLanes ds)).filter fun w => w.reg == v).map (·.lane) := by
        rw [writesTo_lanes hs]
        intro hm
        obtain ⟨x, hx, e⟩ := List.mem_map.mp hm
        exact hno' x hx (thread_eq.mpr ⟨by rw [hc x (List.mem_of_mem_filter hx), hw.1], e⟩)
      have h2 := q.seen_write_other _ _ (s.freeOf u v) (laneOf_lt u) hnw
      rw [hsee', hseen, hsee] at h2
      refine ⟨h2, fun h => ?_⟩
      rcases h with h | h
      · exact absurd hw.1 h
      · exfalso
        obtain ⟨x, hx, e⟩ := List.mem_map.mp hw.2
        have : x ∈ (State.allWrites (doneLanes ds)).filter fun w => w.reg == v := List.mem_filter.mpr ⟨hx, by simpa using e⟩
        rw [writesTo, h] at this
        simp at this
    · rw [if_neg hw, hseen, hsee] at hsee'
      exact ⟨(congrArg Prod.snd hsee').symm, fun _ => (congrArg Prod.fst hsee').symm⟩

omit hc hnd hs in
theorem killRegs_validBit (s : State) (ks : List (Nat × List Nat)) (u k : Nat) :
    (ks.foldl (fun s k => s.killRegs k.1 k.2) s).validBit u k = s.validBit u k := by
  rw [State.killAll_rows]; rfl

omit hc hnd hs in
theorem caps_validBit (ds : List LaneDone) (hnd : (ds.map (·.thread)).Nodup) (hs : ∀ d ∈ ds, d.Shape) (s : State) (u k : Nat) (hk : k < 8) :
    (ds.foldl (fun s d => d.caps.foldl (fun s c => s.setValid d.thread c.1 c.2) s) s).validBit u k =
      match ds.find? fun d => d.thread == u with
      | none => s.validBit u k
      | some d => match d.caps.find? fun c => c.1 == k with
        | some c => c.2
        | none => s.validBit u k := by
  induction ds generalizing s with
  | nil => rfl
  | cons d ds ih =>
    rw [List.map_cons, List.nodup_cons] at hnd
    rw [List.foldl_cons, ih hnd.2 (fun x hx => hs x (by simp [hx]))]
    have hd := hs d (by simp)
    have hone : ∀ s : State, (d.caps.foldl (fun s c => s.setValid d.thread c.1 c.2) s).validBit u k =
        if u = d.thread then (match d.caps.find? fun c => c.1 == k with | some c => c.2 | none => s.validBit u k) else s.validBit u k := by
      intro s
      have h1 := hd.single
      have h2 := hd.caps
      match hcs : d.caps, h1, h2 with
      | [], _, _ => simp
      | [x], _, h2 =>
        have hx : x.1 < 8 := h2 x (by simp)
        simp only [List.foldl_cons, List.foldl_nil, State.validBit_setValid _ _ _ _ _ _ hx hk, List.find?_cons, List.find?_nil]
        by_cases hu : u = d.thread
        · by_cases hx' : k = x.1
          · simp [hu, hx']
          · have : (x.1 == k) = false := by simpa using fun e => hx' e.symm
            simp [hu, hx', this]
        · simp [hu]
    rw [hone, List.find?_cons]
    by_cases hu : d.thread = u
    · subst hu
      have hno : (ds.find? fun x => x.thread == d.thread) = none := by
        rw [List.find?_eq_none]
        intro x hx hh
        exact hnd.1 (List.mem_map.mpr ⟨x, hx, by simpa using hh⟩)
      simp [hno]
    · have hb : (d.thread == u) = false := by simpa using hu
      have hu' : ¬u = d.thread := fun e => hu e.symm
      simp only [hb, hu', if_false]

include hc hnd hs in
/-- What the write-back does to validity, as a form states it. -/
theorem writeBack_valid {s' : State} (hv : s'.valid = (s.writeBack c (doneLanes ds)).valid) : Form.Valid s s' ds := by
  intro u k hk
  have h0 : s'.validBit u k = (s.writeBack c (doneLanes ds)).validBit u k := by unfold State.validBit; rw [hv]
  rw [h0, writeBack_eq, caps_validBit ds hnd hs _ u k hk, State.validBit_writeRegs _ _ _ _ _ (by
    intro x hx
    rw [allWrites_doneLanes] at hx
    obtain ⟨d, hd, hx⟩ := List.mem_flatMap.mp hx
    obtain ⟨w, hw, rfl⟩ := List.mem_map.mp hx
    exact (hs d hd).writes w hw) hk, killRegs_validBit]
  have hany : ∀ b, (ds.find? fun d => d.thread == u) = b →
      (decide (crewOf u = c) && (State.allWrites (doneLanes ds)).any fun w => w.reg / 4 == k && w.lane == laneOf u) =
        match b with | none => false | some d => d.writes.any fun w => w.1 / 4 == k := by
    intro b hb
    rw [Bool.eq_iff_iff]
    simp only [Bool.and_eq_true, decide_eq_true_eq, List.any_eq_true, beq_iff_eq, allWrites_doneLanes, List.mem_flatMap, List.mem_map]
    constructor
    · rintro ⟨h1, x, ⟨d, hd, w, hw, rfl⟩, h2, h3⟩
      have hdu : d.thread = u := thread_eq.mpr ⟨by rw [hc d hd, h1], h3⟩
      match b, hb with
      | none, hb =>
        rw [List.find?_eq_none] at hb
        exact absurd (hb d hd) (by simp [hdu])
      | some e, hb =>
        have he := List.find?_some hb
        have hem := List.mem_of_find?_eq_some hb
        have : e = d := List.inj_on_of_nodup_map hnd hem hd (by rw [hdu]; simpa using he)
        subst this
        exact List.any_eq_true.mpr ⟨w, hw, by simpa using h2⟩
    · match b, hb with
      | none, _ => intro h; simp at h
      | some e, hb =>
        intro h
        obtain ⟨w, hw, h2⟩ := List.any_eq_true.mp h
        have he : e.thread = u := by simpa using List.find?_some hb
        have hem := List.mem_of_find?_eq_some hb
        exact ⟨by rw [← he, hc e hem], _, ⟨e, hem, w, hw, rfl⟩, by simpa using h2, by rw [he]⟩
  rw [hany _ rfl]
  cases ds.find? fun d => d.thread == u with
  | none => simp
  | some d => rfl

end Registers

/-! ## The law of `issue` -/

theorem slotThreads_eq {s : State} {g : Group} (h : s.slots.find? s.cur = some g) :
    slotThreads s = (State.lanesOf g).map fun l => g.crew * 32 + l := by
  unfold slotThreads; rw [h]

theorem lanesOf_lt {g : Group} {l : Nat} (h : l ∈ State.lanesOf g) : l < 32 := by
  have : ∀ n a, ∀ x ∈ span a n, x < a + n := by
    intro n
    induction n with
    | zero => intro a x hx; simp [span] at hx
    | succ n ih =>
      intro a x hx
      simp only [span, List.mem_cons] at hx
      rcases hx with rfl | hx
      · omega
      · have := ih (a + 1) x hx; omega
  exact this 32 0 l (List.mem_of_mem_filter h)

theorem span_nodup (a n : Nat) : (span a n).Nodup := by
  have hlt : ∀ n a, ∀ x ∈ span a n, a ≤ x := by
    intro n
    induction n with
    | zero => intro a x hx; simp [span] at hx
    | succ n ih =>
      intro a x hx
      simp only [span, List.mem_cons] at hx
      rcases hx with rfl | hx
      · omega
      · have := ih (a + 1) x hx; omega
  induction n generalizing a with
  | zero => simp [span]
  | succ n ih =>
    rw [span, List.nodup_cons]
    exact ⟨fun h => by have := hlt n (a + 1) a h; omega, ih _⟩

theorem slotThreads_nodup (s : State) : (slotThreads s).Nodup := by
  unfold slotThreads
  split
  · simp
  · exact ((span_nodup 0 32).filter _).map (fun a b h => by simpa using h)

theorem slotThreads_crew {s : State} {g : Group} (h : s.slots.find? s.cur = some g) : ∀ t ∈ slotThreads s, crewOf t = g.crew := by
  intro t ht
  rw [slotThreads_eq h] at ht
  obtain ⟨l, hl, rfl⟩ := List.mem_map.mp ht
  have := lanesOf_lt hl
  unfold crewOf; omega

/-- No lane of threads that completed faults, parks, holds or ends its task. -/
theorem doneLanes_any (p : Nat × LaneRes → Bool) (h : ∀ t d, p (t, .done d) = false) (ds : List LaneDone) : (doneLanes ds).any p = false := by
  rw [List.any_eq_false]
  intro x hx
  obtain ⟨d, _, rfl⟩ := List.mem_map.mp hx
  simp [h]

theorem donesOf_doneLanes (ds : List LaneDone) : State.donesOf (doneLanes ds) = ds.map fun d => (d.thread, d.outcome) := by
  unfold State.donesOf
  induction ds with
  | nil => rfl
  | cons d ds ih => simp only [doneLanes, List.map_cons, List.filterMap_cons] at ih ⊢; rw [ih]

theorem anyPark_doneLanes (ds : List LaneDone) : State.anyPark (doneLanes ds) = false := doneLanes_any _ (fun _ _ => rfl) ds

theorem foldl_same (ds : List LaneDone) (s : State) : ds.foldl (fun s _ => s) s = s := by
  induction ds with
  | nil => rfl
  | cons d ds ih => rw [List.foldl_cons, ih]

/-- The end of an instruction whose threads all completed. -/
theorem finish_done (s : State) (q : Nat) (g : Group) (ct : Ctl) (len : Nat) (off : List Nat) (ds : List LaneDone) (hg : g.lanes ≠ 0) :
    s.finish q g ct len off (doneLanes ds) =
      let s3 := ((off.map fun t => (t, Done.nothing)) ++ ds.map fun d => (d.thread, d.outcome)).foldl
        (fun s td => s.settleLane ct.e len td.1 td.2) (s.writeBack g.crew (doneLanes ds))
      { s3 with slots := if ct.e then s3.slots.erase q else s3.slots.put q { g with held := false } } := by
  have hstay : ((doneLanes ds).filterMap fun tr =>
      if (State.stayers off (doneLanes ds)).contains tr.1 then none else some (laneOf tr.1)) = [] := by
    rw [List.filterMap_eq_nil_iff]
    intro x hx
    obtain ⟨d, hd, rfl⟩ := List.mem_map.mp hx
    rw [if_pos]
    unfold State.stayers
    rw [donesOf_doneLanes]
    simp only [List.contains_eq_mem, decide_eq_true_eq, List.mem_append, List.mem_filterMap, List.mem_map]
    exact .inr ⟨_, ⟨d, hd, rfl⟩, by simp [LaneDone.outcome]⟩
  have hm : g.lanes &&& ~~~laneMask [] = g.lanes := by
    have : laneMask [] = 0 := rfl
    rw [this]
    exact BitVec.and_allOnes
  unfold State.finish
  rw [foldl_doneLanes State.faultStep (fun s _ => s) (fun _ _ => rfl), foldl_same,
    foldl_doneLanes State.endStep (fun s _ => s) (fun _ _ => rfl), foldl_same,
    foldl_doneLanes (State.parkStep g) (fun s _ => s) (fun _ _ => rfl), foldl_same, anyPark_doneLanes, donesOf_doneLanes]
  unfold State.leaveSlot
  rw [hstay, hm, List.foldl_append, List.foldl_map (f := fun t => (t, Done.nothing))]
  dsimp only
  cases ct.e
  · rw [if_neg (by decide), if_neg (by decide), if_neg hg]; rfl
  · rfl

theorem device_of (s1 wb s3 : State) (x : FMap Group) (h : ∃ r v, wb = { s1 with rows := r, valid := v })
    (h' : ∃ th, s3 = { wb with threads := th }) :
    ({ s3 with slots := x } : State) = { s1 with rows := s3.rows, valid := s3.valid, threads := s3.threads, slots := x } := by
  obtain ⟨r, v, rfl⟩ := h
  obtain ⟨th, rfl⟩ := h'
  rfl

/-- What threads and validity take from a state, through updates that change other fields. -/
theorem wb_fields (s1 wb : State) (h : ∃ r v, wb = { s1 with rows := r, valid := v }) :
    wb.threads = s1.threads ∧ wb.clock = s1.clock ∧ wb.freeCtr = s1.freeCtr ∧ wb.slots = s1.slots ∧ wb.gangs = s1.gangs := by
  obtain ⟨r, v, rfl⟩ := h
  exact ⟨rfl, rfl, rfl, rfl, rfl⟩

theorem s3_fields (wb s3 : State) (h : ∃ th, s3 = { wb with threads := th }) :
    s3.rows = wb.rows ∧ s3.valid = wb.valid ∧ s3.freeCtr = wb.freeCtr ∧ s3.slots = wb.slots := by
  obtain ⟨th, rfl⟩ := h
  exact ⟨rfl, rfl, rfl, rfl⟩

/-- The threads of the group with what each does at the end of an instruction: those guarded off, then those that executed it. -/
def moveList (s : State) (ct : Ctl) (ds : List LaneDone) : List (Nat × Done) :=
  (((slotThreads s).filter fun t => s.guardedOff t ct).map fun t => (t, Done.nothing)) ++ ds.map fun d => (d.thread, d.outcome)

section Moves

variable {s : State} {ct : Ctl} {ds : List LaneDone} (hthr : ds.map (·.thread) = s.actors ct)

include hthr

theorem actor_mem {d : LaneDone} (hd : d ∈ ds) : d.thread ∈ s.actors ct := hthr ▸ List.mem_map_of_mem hd

theorem moveList_mem : ∀ x ∈ moveList s ct ds, x.1 ∈ slotThreads s ∧ x.2.stat = .ready := by
  intro x hx
  rcases List.mem_append.mp hx with hx | hx
  · obtain ⟨t, ht, rfl⟩ := List.mem_map.mp hx
    exact ⟨List.mem_of_mem_filter ht, rfl⟩
  · obtain ⟨d, hd, rfl⟩ := List.mem_map.mp hx
    exact ⟨List.mem_of_mem_filter (actor_mem hthr hd), rfl⟩

theorem not_off {d : LaneDone} (hd : d ∈ ds) : s.guardedOff d.thread ct = false := by
  have := (List.mem_filter.mp (actor_mem hthr hd)).2
  simpa using this

theorem moveList_nodup : ((moveList s ct ds).map (·.1)).Nodup := by
  unfold moveList
  rw [List.map_append, List.map_map, List.map_map, List.nodup_append]
  refine ⟨?_, ?_, ?_⟩
  · have : ((fun x : Nat × Done => x.1) ∘ fun t => (t, Done.nothing)) = id := rfl
    rw [this, List.map_id]
    exact (slotThreads_nodup s).filter _
  · have : ((fun x : Nat × Done => x.1) ∘ fun d : LaneDone => (d.thread, d.outcome)) = fun d => d.thread := rfl
    rw [this, hthr]
    exact (slotThreads_nodup s).filter _
  · intro a ha b hb e
    subst e
    obtain ⟨t, ht, rfl⟩ := List.mem_map.mp ha
    obtain ⟨d, hd, e⟩ := List.mem_map.mp hb
    have h1 := (List.mem_filter.mp ht).2
    have h2 := not_off hthr hd
    have e : d.thread = t := e
    rw [e, h1] at h2
    exact absurd h2 (by decide)

theorem moveList_find (u : Nat) : ((moveList s ct ds).find? fun d => d.1 == u) =
    if u ∈ slotThreads s then some (u, ((ds.find? fun d => d.thread == u).map (·.outcome)).getD Done.nothing) else none := by
  unfold moveList
  rw [List.find?_append]
  cases hoff : ((((slotThreads s).filter fun t => s.guardedOff t ct).map fun t => (t, Done.nothing)).find? fun d => d.1 == u) with
  | some x =>
    have hx := List.find?_some hoff
    obtain ⟨t, ht, rfl⟩ := List.mem_map.mp (List.mem_of_find?_eq_some hoff)
    have htu : t = u := by simpa using hx
    subst htu
    have hno : (ds.find? fun d => d.thread == t) = none := by
      rw [List.find?_eq_none]
      intro d hd e
      have e : d.thread = t := by simpa using e
      have h1 := (List.mem_filter.mp ht).2
      have h2 := not_off hthr hd
      rw [e, h1] at h2
      exact absurd h2 (by decide)
    rw [hno, if_pos (List.mem_of_mem_filter ht)]
    rfl
  | none =>
    rw [Option.none_or, List.find?_map]
    have hcomp : ((fun d : Nat × Done => d.1 == u) ∘ fun d : LaneDone => (d.thread, d.outcome)) = fun d => d.thread == u := rfl
    rw [hcomp]
    cases hds : ds.find? fun d => d.thread == u with
    | some d =>
      have hd : d.thread = u := by simpa using List.find?_some hds
      have hm := List.mem_of_mem_filter (actor_mem hthr (List.mem_of_find?_eq_some hds))
      rw [hd] at hm
      rw [if_pos hm]
      simp [hd]
    | none =>
      rw [if_neg]
      · rfl
      · intro hu
        by_cases hgd : s.guardedOff u ct = true
        · rw [List.find?_eq_none] at hoff
          exact hoff (u, Done.nothing) (List.mem_map.mpr ⟨u, List.mem_filter.mpr ⟨hu, hgd⟩, rfl⟩) (by simp)
        · have : u ∈ ds.map (·.thread) := by rw [hthr]; exact List.mem_filter.mpr ⟨hu, by simp [hgd]⟩
          obtain ⟨d, hd, e⟩ := List.mem_map.mp this
          rw [List.find?_eq_none] at hds
          exact hds d hd (by simp [e])

end Moves

/-- Every thread of a group goes on after the write-back. -/
theorem settle_moves (s s1 : State) (ct : Ctl) (len : Nat) (ds : List LaneDone) (hthr : ds.map (·.thread) = s.actors ct) (c : Nat)
    (hth : ∀ t ∈ slotThreads s, (s1.threads.find? t).isSome ∧ (ct.e = false ∨ s1.goesOn t = true)) :
    ∃ s3, (moveList s ct ds).foldl (fun s td => s.settleLane ct.e len td.1 td.2) (s1.writeBack c (doneLanes ds)) = s3 ∧
      (∃ th, s3 = { s1.writeBack c (doneLanes ds) with threads := th }) ∧
      ∀ u, s3.thread u =
        if u ∈ slotThreads s then
          (s1.thread u).goOn ct.e s1.clock (((ds.find? fun d => d.thread == u).bind (·.next)).getD ((s1.thread u).pc + len))
        else s1.thread u := by
  obtain ⟨rr, vv, hwb⟩ := writeBack_only ds s1 c
  obtain ⟨w1, w2, w3, w4, w5⟩ := wb_fields s1 _ ⟨rr, vv, hwb⟩
  have hthread : ∀ u, (s1.writeBack c (doneLanes ds)).thread u = s1.thread u := fun u => by unfold State.thread; rw [w1]
  have hpre : ∀ t, (s1.writeBack c (doneLanes ds)).goesOn t = s1.goesOn t := fun t => by
    unfold State.goesOn State.preemptOf; rw [w5, hthread]
  have hset := State.settle_all ct.e len (moveList s ct ds) (s1.writeBack c (doneLanes ds)) (moveList_nodup hthr)
    (fun x hx => by rw [w1]; exact (hth _ (moveList_mem hthr x hx).1).1)
    (fun x hx he => by
      rw [hpre]
      rcases (hth _ (moveList_mem hthr x hx).1).2 with h0 | h0
      · rw [he] at h0; exact absurd h0 (by decide)
      · exact h0)
    (fun x hx => (moveList_mem hthr x hx).2)
  obtain ⟨h3, h3t⟩ := hset
  refine ⟨_, rfl, ⟨_, h3⟩, fun u => ?_⟩
  have := h3t u
  rw [moveList_find hthr u, hthread u, w2] at this
  rw [this]
  by_cases hu : u ∈ slotThreads s
  · rw [if_pos hu, if_pos hu]
    dsimp only
    congr 2
    cases ds.find? fun d => d.thread == u <;> rfl
  · rw [if_neg hu, if_neg hu]

/-- An instruction for the group whose lanes are all done. -/
theorem issue_eq (s s1 : State) (g : Group) (hg : s.slots.find? s.cur = some g) (ct : Ctl) (len : Nat) (op : State → Nat → State × LaneRes)
    (ds : List LaneDone) (hrun : State.runLanes op s (s.actors ct) = (s1, doneLanes ds)) :
    s.issue ct len op = s1.finish s.cur g ct len ((slotThreads s).filter fun t => s.guardedOff t ct) (doneLanes ds) := by
  unfold State.issue
  rw [hg]
  dsimp only
  rw [← slotThreads_eq hg]
  have hr : State.runLanes op s ((slotThreads s).filter fun t => !s.guardedOff t ct) = (s1, doneLanes ds) := hrun
  rw [hr]
  dsimp only
  rw [doneLanes_any _ (fun _ _ => by rfl)]
  rfl

/-- An instruction whose lanes carry out a form does what the form says, for every group that executes it whole. -/
theorem Form.CarriedOut.issue {f : Form} {op : State → Nat → State × LaneRes} (h : f.CarriedOut op) (s : State) (hfit : f.fit s = true) :
    f.Done s (s.issue f.ct f.len op) := by
  unfold Form.fit at hfit
  simp only [Bool.and_eq_true, List.all_eq_true, Bool.or_eq_true, Bool.not_eq_true'] at hfit
  obtain ⟨⟨hne, hok⟩, hth⟩ := hfit
  cases hg : s.slots.find? s.cur with
  | none => simp [slotThreads, hg] at hne
  | some g =>
    have hrun := h.lanes (s.actors f.ct) s hok
    have hthr := f.lanes_threads s (s.actors f.ct)
    have hshape := h.lane_shape (s.actors f.ct) s hok
    unfold Form.Done
    generalize f.lanes s (s.actors f.ct) = r at *
    obtain ⟨s1, ds, b⟩ := r
    dsimp only at *
    have hcrew := slotThreads_crew hg
    have hcr : ∀ d ∈ ds, crewOf d.thread = g.crew := fun d hd => hcrew _ (List.mem_of_mem_filter (actor_mem hthr hd))
    have hnd : (ds.map (·.thread)).Nodup := hthr ▸ (slotThreads_nodup s).filter _
    have hl0 : g.lanes ≠ 0 := by
      intro h0
      have : State.lanesOf g = [] := by
        unfold State.lanesOf
        rw [List.filter_eq_nil_iff]
        intro l _
        rw [h0]; simp
      rw [slotThreads_eq hg, this] at hne
      simp at hne
    rw [issue_eq s s1 g hg f.ct f.len op ds hrun, finish_done _ _ _ _ _ _ _ hl0]
    obtain ⟨s3, he3, hth3, h3t⟩ := settle_moves s s1 f.ct f.len ds hthr g.crew hth
    have hwb := writeBack_only ds s1 g.crew
    obtain ⟨w1, w2, w3, w4, w5⟩ := wb_fields s1 _ hwb
    obtain ⟨hrows, hvalid, hfree', hslots'⟩ := s3_fields _ s3 hth3
    have he3' : (((((slotThreads s).filter fun t => s.guardedOff t f.ct).map fun t => (t, Done.nothing)) ++
      ds.map fun d => (d.thread, d.outcome)).foldl (fun s td => s.settleLane f.ct.e f.len td.1 td.2) (s1.writeBack g.crew (doneLanes ds))) = s3 := he3
    dsimp only
    rw [he3']
    have hfree : s3.freeCtr = s1.freeCtr := hfree'.trans w3
    have hslots : s3.slots = s1.slots := hslots'.trans w4
    refine ⟨device_of s1 _ s3 _ hwb hth3, ?_, ?_, h3t, fun q => ?_⟩
    · rw [hg]
      exact writeBack_regs hcr hnd hshape hfree hrows
    · exact writeBack_valid hcr hnd hshape hvalid
    · by_cases he : f.ct.e = true
      · rw [if_pos he, FMap.find?_erase, hslots]
        by_cases hq : q = s.cur
        · rw [if_pos hq, if_pos hq, if_pos he]
        · rw [if_neg hq, if_neg hq]
      · rw [if_neg he, FMap.find?_put, hslots]
        by_cases hq : q = s.cur
        · rw [if_pos hq, if_pos hq, if_neg he, hq, hg]; rfl
        · rw [if_neg hq, if_neg hq]

end Sys2Proof.Machine
end

