-- ==== Sys2Proof/Laws/Memory.lean ====
section
/-! SUPPORT. Memory: what a byte reads as after a write, and that every operation on the home slices, the memory behind the pool
port, the caches and the scratchpads keeps the canonical form. -/

namespace Sys2Proof.Machine

open FMap

/-- A run of bytes written at rising keys. -/
theorem wf_writeRun (key : Nat → Nat) (bs : List (BitVec 8)) (a : Nat) (m : Memory) (h : Memory.wf m = true) :
    Memory.wf (bs.foldl (fun (am : Nat × FMap (BitVec 8)) b => (am.1 + 1, am.2.set 0 (key am.1) b)) (a, m)).2 = true := by
  induction bs generalizing a m with
  | nil => exact h
  | cons b bs ih => exact ih _ _ (wf_set _ _ h)

/-- A byte read after a run of bytes written at the keys of their addresses. -/
theorem get_writeRun (key : Nat → Nat) (hinj : ∀ a b, key a = key b → a = b) (bs : List (BitVec 8)) (a j : Nat) (m : Memory) :
    (bs.foldl (fun (am : Nat × FMap (BitVec 8)) b => (am.1 + 1, am.2.set 0 (key am.1) b)) (a, m)).2.get 0 (key j) =
      if a ≤ j ∧ j < a + bs.length then bs.getD (j - a) 0 else m.get 0 (key j) := by
  induction bs generalizing a m with
  | nil =>
    simp
  | cons b bs ih =>
    simp only [List.foldl_cons, ih, get_set, List.length_cons]
    have hk : key j = key a ↔ j = a := ⟨fun h => hinj _ _ h, fun h => by rw [h]⟩
    simp only [hk]
    rcases Nat.lt_trichotomy j a with hj | rfl | hj
    · rw [if_neg (by omega), if_neg (by omega), if_neg (by omega)]
    · rw [if_neg (by omega), if_pos rfl, if_pos (by omega)]; simp
    · obtain ⟨k, rfl⟩ : ∃ k, j = a + (k + 1) := ⟨j - a - 1, by omega⟩
      have e1 : a + (k + 1) - (a + 1) = k := by omega
      have e2 : a + (k + 1) - a = k + 1 := by omega
      rw [e1, e2, if_neg (show ¬(a + (k + 1) = a) by omega)]
      by_cases hl : k < bs.length
      · rw [if_pos (by omega), if_pos (by omega)]; rfl
      · rw [if_neg (by omega), if_neg (by omega)]

/-! ## The home slices -/

/-- Reading a byte of the home slices after a plain write. -/
theorem homeByte_rawWrite (s : State) (pa a : Nat) (bs : List (BitVec 8)) :
    (s.rawWrite pa bs).homeByte a = if pa ≤ a ∧ a < pa + bs.length then bs.getD (a - pa) 0 else s.homeByte a :=
  get_writeRun id (fun _ _ h => h) bs pa a s.mem

/-- The memories of two states are the same. -/
structure SameMemories (s t : State) : Prop where
  mem : t.mem = s.mem
  pool : t.poolMem = s.poolMem
  spad : t.spad = s.spad
  snaps : t.snaps = s.snaps
  durable : t.durable = s.durable

theorem SameMemories.form {s t : State} (h : SameMemories s t) : t.memForm = s.memForm := by
  unfold State.memForm; rw [h.mem, h.pool, h.spad, h.snaps, h.durable]

theorem SameMemories.trans {s t u : State} (h : SameMemories s t) (k : SameMemories t u) : SameMemories s u :=
  ⟨k.1.trans h.1, k.2.trans h.2, k.3.trans h.3, k.4.trans h.4, k.5.trans h.5⟩

theorem SameMemories.foldl {α : Type} (g : State → α → State) (h : ∀ s x, SameMemories s (g s x)) (xs : List α) (s : State) :
    SameMemories s (xs.foldl g s) := by
  induction xs generalizing s with
  | nil => exact ⟨rfl, rfl, rfl, rfl, rfl⟩
  | cons x xs ih => exact (h s x).trans (ih _)

/-- A fold of operations that keep the form keeps it. -/
theorem memForm_foldl {α : Type} (g : State → α → State) (h : ∀ s x, s.memForm = true → (g s x).memForm = true) (xs : List α)
    (s : State) (hs : s.memForm = true) : (xs.foldl g s).memForm = true := by
  induction xs generalizing s with
  | nil => exact hs
  | cons x xs ih => exact ih _ (h s x hs)

theorem memForm_iff (s : State) : s.memForm = true ↔ Memory.wf s.mem = true ∧ Memory.wf s.poolMem = true ∧ Memory.wf s.spad = true ∧
    (s.snaps.all fun p => p.2.memForm) = true ∧ (s.durable.all fun p => p.2.memForm) = true := by
  unfold State.memForm; simp only [Bool.and_eq_true, and_assoc]

/-- New contents of the home slices in canonical form. -/
theorem memForm_mem {s t : State} (hs : s.memForm = true) (hm : Memory.wf t.mem = true) (hp : t.poolMem = s.poolMem)
    (hd : t.spad = s.spad) (hn : t.snaps = s.snaps) (hu : t.durable = s.durable) : t.memForm = true := by
  rw [memForm_iff] at *
  rw [hp, hd, hn, hu]; exact ⟨hm, hs.2⟩

theorem memForm_rawWrite (s : State) (pa : Nat) (bs : List (BitVec 8)) (h : s.memForm = true) : (s.rawWrite pa bs).memForm = true :=
  memForm_mem h (wf_writeRun id bs pa s.mem ((memForm_iff s).1 h).1) rfl rfl rfl rfl

theorem memForm_setMeta (s : State) (x : Nat) (f : LineMeta → LineMeta) : (s.setMeta x f).memForm = s.memForm := rfl

theorem refund_same (s : State) (es : List AliasEntry) : SameMemories s (s.refund es) := ⟨rfl, rfl, rfl, rfl, rfl⟩

theorem markLanded_same (s : State) (x : Nat) : SameMemories s (s.markLanded x) := ⟨rfl, rfl, rfl, rfl, rfl⟩

/-- What a landing writes keeps the canonical form. -/
theorem memForm_putLanded (s : State) (x : Nat) (d : LineData) (h : s.memForm = true) : (s.putLanded x d).memForm = true := by
  unfold State.putLanded
  rw [(markLanded_same _ _).form, memForm_setMeta]
  exact memForm_rawWrite _ _ _ h

theorem memForm_landLine (s : State) (x : Nat) (h : s.memForm = true) : (s.landLine x).memForm = true :=
  memForm_foldl (fun (s : State) (yd : Nat × LineData) => s.putLanded yd.1 yd.2) (fun s yd h => memForm_putLanded s yd.1 yd.2 h) _ s h

/-- What a write does once its line has landed, for any way of landing. -/
theorem memForm_before (land : State → Nat → State) (hl : ∀ s x, s.memForm = true → (land s x).memForm = true) (s : State) (x : Nat)
    (h : s.memForm = true) : (let s1 := if (s.lineMeta x).alias_ then land s x else s
      if (s1.lineMeta x).shadow then ((s1.dependents x).foldl land s1).setMeta x fun m => { m with shadow := false } else s1).memForm
        = true := by
  have h1 : (if (s.lineMeta x).alias_ = true then land s x else s).memForm = true := by
    split
    · exact hl _ _ h
    · exact h
  generalize (if (s.lineMeta x).alias_ = true then land s x else s) = s1 at h1 ⊢
  show (if (s1.lineMeta x).shadow = true then _ else s1).memForm = true
  split
  · rw [memForm_setMeta]; exact memForm_foldl land hl _ _ h1
  · exact h1

theorem memForm_beforeWrite (s : State) (x : Nat) (h : s.memForm = true) : (s.beforeWrite x).memForm = true :=
  memForm_before State.landLine memForm_landLine s x h

theorem memForm_homeWrite1 (s : State) (pa : Nat) (bs : List (BitVec 8)) (tag : Bool) (h : s.memForm = true) :
    (s.homeWrite1 pa bs tag).memForm = true := by
  have h1 := memForm_rawWrite _ pa bs (memForm_beforeWrite s (pa / 128) h)
  simp only [State.homeWrite1]
  rw [memForm_setMeta]
  exact h1

/-- Every write at the home slices keeps the canonical form. -/
theorem memForm_homeWrite (s : State) (pa : Nat) (bs : List (BitVec 8)) (tag : Bool) (h : s.memForm = true) :
    (s.homeWrite pa bs tag).memForm = true := by
  unfold State.homeWrite
  exact memForm_foldl (fun (s : State) (p : Nat × List (BitVec 8)) => s.homeWrite1 p.1 p.2 tag)
    (fun s p h => memForm_homeWrite1 s p.1 p.2 tag h) _ s h

theorem wf_foldl_set {α : Type} (key : α → Nat) (val : α → BitVec 8) (xs : List α) (m : Memory) (h : Memory.wf m = true) :
    Memory.wf (xs.foldl (fun m x => FMap.set 0 m (key x) (val x)) m) = true := by
  induction xs generalizing m with
  | nil => exact h
  | cons x xs ih => exact ih _ (wf_set _ _ h)

/-- A line written through to the memory behind the pool port keeps the canonical form. -/
theorem memForm_poolPush (s : State) (x : Nat) (h : s.memForm = true) : (s.poolPush x).memForm = true := by
  unfold State.poolPush
  generalize span (x * 128) 128 = as
  split
  · rw [memForm_iff] at *
    exact ⟨h.1, wf_foldl_set id s.homeByte as _ h.2.1, h.2.2⟩
  · exact h

/-! ## The caches -/

theorem useFrame_same (s : State) (pa : Nat) : SameMemories s (s.useFrame pa) := by
  unfold State.useFrame
  split <;> exact ⟨rfl, rfl, rfl, rfl, rfl⟩

theorem memForm_mergeHome (s : State) (x : Nat) (ds : List (Nat × BitVec 8)) (tags : BitVec 8) (poison : Bool) (h : s.memForm = true) :
    (s.mergeHome x ds tags poison).memForm = true := by
  have h1 := memForm_foldl (fun (s : State) (r : Nat × List (BitVec 8)) => s.rawWrite r.1 r.2)
    (fun s r h => memForm_rawWrite s r.1 r.2 h) (runs ds) _ (memForm_beforeWrite s x h)
  unfold State.mergeHome
  rw [(useFrame_same _ _).form]
  exact h1

theorem setCMeta_same (s : State) (u x : Nat) (f : CMeta → CMeta) : SameMemories s (s.setCMeta u x f) := by
  unfold State.setCMeta
  simp only
  repeat' split
  all_goals exact ⟨rfl, rfl, rfl, rfl, rfl⟩

theorem mergeCache_same (s : State) (u x w : Nat) (ds : List (Nat × BitVec 8)) (tags : BitVec 8) (poison : Bool) :
    SameMemories s (s.mergeCache u x w ds tags poison) := by
  unfold State.mergeCache
  refine SameMemories.trans ?_ (setCMeta_same _ _ _ _)
  exact ⟨rfl, rfl, rfl, rfl, rfl⟩

theorem cleanLine_same (s : State) (u x : Nat) (ds : List (Nat × BitVec 8)) : SameMemories s (s.cleanLine u x ds) := by
  unfold State.cleanLine
  refine SameMemories.trans ?_ (setCMeta_same _ _ _ _)
  exact ⟨rfl, rfl, rfl, rfl, rfl⟩

theorem memForm_pushQuad (p : Nat → Bool) (s : State) (u x : Nat) (h : s.memForm = true) : (State.pushQuad p s u x).memForm = true := by
  unfold State.pushQuad
  dsimp only
  split
  · exact h
  · refine memForm_mergeHome _ _ _ _ _ ?_
    rw [(cleanLine_same _ _ _ _).form]; exact h

/-- Bytes and metadata of the caches rewritten keep the canonical form. -/
theorem memForm_caches (s : State) (b : FMap CByte) (m : FMap CMeta) (h : s.memForm = true) :
    ({ s with cbytes := b, cmeta := m } : State).memForm = true := h

theorem memForm_yieldQuad (s : State) (u x : Nat) (h : s.memForm = true) : (s.yieldQuad u x).memForm = true :=
  memForm_caches _ _ _ (memForm_pushQuad _ s u x h)

theorem memForm_roomQuad (s : State) (u : Nat) (h : s.memForm = true) : (s.roomQuad u).memForm = true := by
  unfold State.roomQuad
  split
  · exact h
  · exact memForm_yieldQuad _ _ _ h

theorem memForm_claimQuad (s : State) (u x tag : Nat) (h : s.memForm = true) : (s.claimQuad u x tag).memForm = true := by
  unfold State.claimQuad
  split
  · exact memForm_roomQuad _ _ h
  · split
    · exact h
    · exact memForm_yieldQuad _ _ _ h

/-- A write-back of a line keeps the canonical form. -/
theorem memForm_pushLine (p : Nat → Bool) (s : State) (u x : Nat) (h : s.memForm = true) : (State.pushLine p s u x).memForm = true := by
  unfold State.pushLine
  dsimp only
  split
  · split
    · exact h
    · split
      · rw [(mergeCache_same _ _ _ _ _ _ _).form]
        refine memForm_claimQuad _ _ _ _ ?_
        rw [(cleanLine_same _ _ _ _).form]; exact h
      · split
        · exact h
        · refine memForm_mergeHome _ _ _ _ _ ?_
          rw [(cleanLine_same _ _ _ _).form]; exact h
  · exact memForm_pushQuad _ _ _ _ h

theorem memForm_pushUnit (s : State) (u : Nat) (h : s.memForm = true) : (s.pushUnit u).memForm = true :=
  memForm_foldl _ (fun s x h => memForm_pushLine _ s u x h) _ _ h

/-- A push at any scope keeps the canonical form. -/
theorem memForm_push (s : State) (core scope : Nat) (h : s.memForm = true) : (s.push core scope).memForm = true := by
  have h1 := memForm_foldl State.pushUnit memForm_pushUnit (below core scope) s h
  unfold State.push
  simp only
  split
  · exact memForm_foldl State.poolPush memForm_poolPush _ _ h1
  · exact h1

theorem discardLine_same (p : Nat → Bool) (s : State) (u x : Nat) : SameMemories s (State.discardLine p s u x) := by
  unfold State.discardLine
  refine SameMemories.trans ?_ (setCMeta_same _ _ _ _)
  exact ⟨rfl, rfl, rfl, rfl, rfl⟩

/-- A discard changes no memory. -/
theorem discard_same (s : State) (core scope : Nat) : SameMemories s (s.discard core scope) :=
  SameMemories.foldl _ (fun s u => SameMemories.foldl _ (fun s x => discardLine_same _ s u x) (s.linesOf u) s) (below core scope) s

theorem memForm_yieldLine (s : State) (u x : Nat) (h : s.memForm = true) : (s.yieldLine u x).memForm = true :=
  memForm_caches _ _ _ (memForm_pushLine _ s u x h)

/-- A line that leaves a full cache keeps the canonical form. -/
theorem memForm_room (s : State) (u : Nat) (h : s.memForm = true) : (s.room u).memForm = true := by
  unfold State.room
  split
  · exact h
  · exact memForm_yieldLine _ _ _ h

theorem memForm_claim (s : State) (u x w : Nat) (h : s.memForm = true) : (s.claim u x w).memForm = true := by
  unfold State.claim
  split
  · exact memForm_room _ _ h
  · split
    · exact h
    · exact memForm_yieldLine _ _ _ h

theorem install_same (s : State) (u x w : Nat) (bs : List (Option (BitVec 8))) (tags : BitVec 8) (poison : Bool) :
    SameMemories s (s.install u x w bs tags poison) := by
  unfold State.install
  refine SameMemories.trans ?_ (setCMeta_same _ _ _ _)
  exact ⟨rfl, rfl, rfl, rfl, rfl⟩

theorem memForm_cacheWrite (s : State) (u w pa : Nat) (bs : List (BitVec 8)) (tag : Bool) (h : s.memForm = true) :
    (s.cacheWrite u w pa bs tag).memForm = true := by
  unfold State.cacheWrite
  simp only
  rw [(setCMeta_same _ _ _ _).form]
  exact memForm_claim _ _ _ _ h

/-! ## Scratchpads -/

theorem spadKey_inj (gang a b : Nat) (h : spadKey gang a = spadKey gang b) : a = b := by
  unfold spadKey at h; omega

/-- Reading a byte of a gang's scratchpads after a write to them. -/
theorem spadByte_spadWrite (s : State) (gang la a : Nat) (bs : List (BitVec 8)) (tag : Bool) :
    (s.spadWrite gang la bs tag).spadByte gang a = if la ≤ a ∧ a < la + bs.length then bs.getD (a - la) 0 else s.spadByte gang a :=
  get_writeRun (spadKey gang) (spadKey_inj gang) bs la a s.spad

/-- A write to a scratchpad keeps the canonical form. -/
theorem memForm_spadWrite (s : State) (gang la : Nat) (bs : List (BitVec 8)) (tag : Bool) (h : s.memForm = true) :
    (s.spadWrite gang la bs tag).memForm = true := by
  rw [memForm_iff] at *
  exact ⟨h.1, h.2.1, wf_writeRun (spadKey gang) bs la s.spad h.2.2.1, h.2.2.2⟩

/-- A range of a memory erased, or replaced by the same range of another, keeps the canonical form. -/
theorem wf_spliceSlice {m n : Memory} (lo hi : Nat) (hlo : lo ≤ hi) (h : Memory.wf m = true) (hn : Memory.wf n = true) :
    Memory.wf (m.splice lo hi (n.slice lo hi)) = true :=
  wf_splice hlo h (wf_slice lo hi hn) fun _ hk => mem_slice hk

theorem wf_spliceNil {m : Memory} (lo hi : Nat) (hlo : lo ≤ hi) (h : Memory.wf m = true) : Memory.wf (m.splice lo hi []) = true :=
  wf_splice hlo h wf_nil (by simp)

/-- A gang's resources freed keep the canonical form. -/
theorem memForm_freeGang (s : State) (gang : Nat) (h : s.memForm = true) : (s.freeGang gang).memForm = true := by
  have hs : SameMemories s (s.dropSlots gang) := ⟨rfl, rfl, rfl, rfl, rfl⟩
  rw [memForm_iff] at *
  exact ⟨h.1, h.2.1, wf_spliceNil _ _ (by omega) h.2.2.1, h.2.2.2⟩

/-- A range erased at its home slices keeps the canonical form. -/
theorem memForm_erase (s : State) (lo hi : Nat) (hlo : lo ≤ hi) (h : s.memForm = true) : (s.erase lo hi).memForm = true :=
  memForm_mem h (wf_spliceNil lo hi hlo ((memForm_iff s).1 h).1) rfl rfl rfl rfl

/-- A Pool page brought into its frame keeps the canonical form. -/
theorem memForm_fillFrame (s : State) (page : Nat) (h : s.memForm = true) : (s.fillFrame page).memForm = true := by
  unfold State.fillFrame
  split
  · exact h
  · exact h

end Sys2Proof.Machine
end

