-- ==== Sys2Proof/Laws/Reads.lean ====
section
/-! SUPPORT. Reads of a memory that holds no poison: where no line is poisoned at home or in a cache, nothing is aliased or shared and every
cached line belongs to the reader's world, a read returns no poison and leaves such a state, as long as the caches have room. -/

namespace Sys2Proof.Machine

/-- No poison, no alias and no shared frame; thread `t` and every cached line are of world `w`; every cache has room for `n` more lines; `th`
and `sw` are the threads and the sweeps, and no page is re-enciphered. -/
def State.Plain (s : State) (t w n : Nat) (th : FMap Thread) (sw : FMap Sweep) : Prop :=
  s.alias_ = [] ∧ s.shared = [] ∧ s.meta_ = [] ∧ ((∀ kv ∈ s.cmeta, kv.2.world = w ∧ kv.2.poison = false) ∧ s.cmeta.length + n < 1024) ∧
    s.worldOf t = w ∧ s.threads = th ∧ s.sweeps = sw ∧ s.reenc = []

variable {s : State} {t w n : Nat} {th : FMap Thread} {sw : FMap Sweep}

theorem Plain.mono {m : Nat} (h : s.Plain t w n th sw) (hm : m ≤ n) : s.Plain t w m th sw :=
  ⟨h.1, h.2.1, h.2.2.1, ⟨h.2.2.2.1.1, by have := h.2.2.2.1.2; omega⟩, h.2.2.2.2⟩

theorem FMap.length_put {α : Type} (m : FMap α) (k : Nat) (v : α) : (m.put k v).length ≤ m.length + 1 := by
  induction m with
  | nil => simp [FMap.put]
  | cons a m ih =>
    simp only [FMap.put]
    split_ifs <;> simp_all

theorem FMap.length_erase {α : Type} (m : FMap α) (k : Nat) : (m.erase k).length ≤ m.length := by
  rw [FMap.erase_eq]; exact List.length_filter_le _ _

theorem FMap.length_slice {α : Type} (m : FMap α) (lo hi : Nat) : (m.slice lo hi).length ≤ m.length :=
  List.length_filter_le _ _

/-- A cache with room lets no line go. -/
theorem Plain.room (h : s.Plain t w n th sw) (u : Nat) : s.room u = s := by
  have h1 : s.leaver u = none := by
    unfold State.leaver State.leaverIf
    refine if_pos (Nat.lt_of_le_of_lt (FMap.length_slice _ _ _) ?_)
    have := h.2.2.2.1.2
    unfold capacity
    split <;> omega
  unfold State.room
  rw [h1]

theorem FMap.mem_of_find? {α : Type} {m : FMap α} {k : Nat} {v : α} (h : m.find? k = some v) : (k, v) ∈ m := by
  induction m with
  | nil => simp [FMap.find?] at h
  | cons a m ih =>
    obtain ⟨k', v'⟩ := a
    simp only [FMap.find?] at h
    split at h
    · simp_all
    · exact List.mem_cons_of_mem _ (ih h)

theorem Plain.lineTag (h : s.Plain t w n th sw) (v pa : Nat) : s.lineTag v pa = v := by
  simp [State.lineTag, h.2.1, FMap.find?]

theorem Plain.claim (h : s.Plain t w n th sw) (u x : Nat) : s.claim u x w = s := by
  unfold State.claim
  split
  · exact Plain.room h u
  · rename_i m hm
    rw [if_pos]
    rw [Plain.lineTag h]
    exact (h.2.2.2.1.1 _ (FMap.mem_of_find? hm)).1

theorem Plain.poison (h : s.Plain t w n th sw) (k : Nat) : (s.cmeta.get CMeta.none k).poison = false := by
  unfold FMap.get
  cases hm : s.cmeta.find? k with
  | none => rfl
  | some m => exact (h.2.2.2.1.1 _ (FMap.mem_of_find? hm)).2

theorem Plain.setCMeta (h : s.Plain t w (n + 1) th sw) (u x : Nat) (f : CMeta → CMeta)
    (hf : ∀ m, m.poison = false → (f m).world = w ∧ (f m).poison = false) : (s.setCMeta u x f).Plain t w n th sw := by
  have hl := h.2.2.2.1.2
  unfold State.setCMeta
  dsimp only
  split
  · refine ⟨h.1, h.2.1, h.2.2.1, ⟨fun kv hk => h.2.2.2.1.1 kv ?_, ?_⟩, h.2.2.2.2⟩
    · rw [FMap.erase_eq] at hk
      exact List.mem_of_mem_filter hk
    · have := FMap.length_erase s.cmeta (mKey u x)
      dsimp only
      omega
  · refine ⟨h.1, h.2.1, h.2.2.1, ⟨fun kv hk => ?_, ?_⟩, h.2.2.2.2⟩
    · rcases FMap.mem_put hk with rfl | hk
      · exact hf _ (Plain.poison h _)
      · exact h.2.2.2.1.1 kv hk
    · refine Nat.lt_of_le_of_lt (Nat.add_le_add_right (FMap.length_put _ _ _) n) ?_
      omega

theorem Plain.install (h : s.Plain t w (n + 1) th sw) (u x : Nat) (bs : List (Option (BitVec 8))) (tags : BitVec 8) :
    (s.install u x w bs tags false).Plain t w n th sw := by
  unfold State.install
  refine Plain.setCMeta ?_ u x _ ?_
  · exact h
  · exact fun m hm => ⟨Plain.lineTag h _ _, by simp [hm]⟩

theorem Plain.useFrame (h : s.Plain t w n th sw) (pa : Nat) : (s.useFrame pa).Plain t w n th sw := by
  unfold State.useFrame
  split <;> exact h

theorem Plain.raiseHot (h : s.Plain t w n th sw) (x : Nat) : s.raiseHot x = s := by
  simp [State.raiseHot, State.lineMeta, h.2.2.1, FMap.get, FMap.find?, LineMeta.clear]

theorem Plain.fillQuad (h : s.Plain t w (n + 1) th sw) (u x : Nat) : (s.fillQuad u x w).Plain t w n th sw := by
  have hp : (s.readAliased x).poison = false := by
    simp [State.readAliased, State.aliasPoison, State.lineMeta, h.2.2.1, FMap.get, FMap.find?, LineMeta.clear]
  unfold State.fillQuad
  dsimp only
  rw [hp, Plain.raiseHot h]
  exact Plain.install (Plain.useFrame h _) _ _ _ _

theorem Plain.readyQuad (h : s.Plain t w (n + 1) th sw) (u x : Nat) (as : List Nat) : (s.readyQuad u w x as).Plain t w n th sw := by
  unfold State.readyQuad
  dsimp only
  rw [Plain.claim h]
  split
  · exact Plain.mono h (Nat.le_succ n)
  · exact Plain.fillQuad h _ _

theorem Plain.fillL1 (h : s.Plain t w (n + 2) th sw) (core x : Nat) (as : List Nat) : (s.fillL1 core w x as).Plain t w n th sw := by
  have h1 : (s.readyQuad (quadUnit core) w x as).Plain t w (n + 1) th sw := Plain.readyQuad h _ x as
  unfold State.fillL1
  dsimp only
  rw [Plain.poison h1]
  exact Plain.install h1 _ _ _ _

theorem Plain.readyL1 (h : s.Plain t w (n + 2) th sw) (core x : Nat) (as : List Nat) : (s.readyL1 core w x as).Plain t w n th sw := by
  unfold State.readyL1
  dsimp only
  rw [Plain.claim h]
  split
  · exact Plain.mono h (Nat.le_add_right n 2)
  · exact Plain.fillL1 h _ _ _

theorem Plain.cacheLoad (h : s.Plain t w (n + 2) th sw) (core pa k : Nat) :
    (s.cacheLoad core w pa k).1.Plain t w n th sw ∧ (s.cacheLoad core w pa k).2.2.1 = false := by
  have h2 := Plain.readyL1 h core (pa / 128) (span pa k)
  exact ⟨h2, Plain.poison h2 _⟩

theorem Plain.memRead (h : s.Plain t w (n + 6) th sw) (p : Place) (k : Nat) (hp : ∃ pa, p = .global pa) :
    (s.memRead t p k).1.Plain t w n th sw ∧ (s.memRead t p k).2.2.1 = false := by
  obtain ⟨pa, rfl⟩ := hp
  have hw := h.2.2.2.2.1
  unfold State.memRead
  dsimp only
  rw [hw]
  have h1 := Plain.cacheLoad (n := n + 4) h (s.coreOf t) pa (min k (128 - pa % 128))
  split_ifs with h2 h3
  · exact ⟨Plain.mono h1.1 (by omega), h1.2⟩
  · have h4 := Plain.cacheLoad (n := n + 2) h1.1 (s.coreOf t) (pa + min k (128 - pa % 128)) (min (k - min k (128 - pa % 128)) 128)
    exact ⟨Plain.mono h4.1 (by omega), by simp [h1.2, h4.2]⟩
  · have h4 := Plain.cacheLoad (n := n + 2) h1.1 (s.coreOf t) (pa + min k (128 - pa % 128)) (min (k - min k (128 - pa % 128)) 128)
    have h5 := Plain.cacheLoad h4.1 (s.coreOf t) (pa + min k (128 - pa % 128) + min (k - min k (128 - pa % 128)) 128)
      (k - min k (128 - pa % 128) - min (k - min k (128 - pa % 128)) 128)
    exact ⟨h5.1, by simp [h1.2, h4.2, h5.2]⟩

/-- A record of one part in global memory is read with no poison, and the threads stay. -/
theorem Plain.readParts (pa k : Nat) (h : s.Plain t w (n + 6 * (pieces (k + 1) pa (List.replicate k 0)).length) th sw) :
    (s.readParts t [(.global pa, k)]).1.Plain t w n th sw ∧ (s.readParts t [(.global pa, k)]).2.2 = false := by
  unfold State.readParts
  simp only [List.foldl_cons, List.foldl_nil]
  generalize pieces (k + 1) pa (List.replicate k 0) = qs at h ⊢
  have key : ∀ (qs : List (Nat × List (BitVec 8))) (a : State × List (BitVec 8) × Bool), a.1.Plain t w (n + 6 * qs.length) th sw →
      a.2.2 = false →
      let r := qs.foldl (fun (a : State × List (BitVec 8) × Bool) q =>
        let r := a.1.memRead t (.global q.1) q.2.length
        (r.1, a.2.1 ++ r.2.1, a.2.2 || r.2.2.1)) a
      r.1.Plain t w n th sw ∧ r.2.2 = false := by
    intro qs
    induction qs with
    | nil => exact fun a hs ha => ⟨hs, ha⟩
    | cons q qs ih =>
      intro a hs ha
      have h1 := Plain.memRead (n := n + 6 * qs.length) (Plain.mono hs (by simp only [List.length_cons]; omega)) (.global q.1) q.2.length ⟨_, rfl⟩
      exact ih _ h1.1 (by simp [ha, h1.2])
  exact key qs (s, [], false) h rfl

theorem tagsAfter_clear (o n : Nat) : tagsAfter 0#8 o n false = 0#8 := by
  unfold tagsAfter
  generalize span 0 8 = l
  induction l with
  | nil => rfl
  | cons a l ih =>
    rw [List.foldl_cons]
    have : (if o < a * 16 + 16 ∧ a * 16 < o + n then
        setBit 0#8 a (false && decide (o ≤ a * 16) && decide (a * 16 + 16 ≤ o + n)) else 0#8) = 0#8 := by
      split
      · simp [setBit]
      · rfl
    rw [this, ih]

theorem Plain.homeWrite1 (h : s.Plain t w n th sw) (pa : Nat) (bs : List (BitVec 8)) : (s.homeWrite1 pa bs false).Plain t w n th sw := by
  have hm (x : Nat) : s.lineMeta x = LineMeta.clear := by simp [State.lineMeta, h.2.2.1, FMap.get, FMap.find?]
  have hb : s.beforeWrite (pa / 128) = s := by
    unfold State.beforeWrite
    simp [hm, LineMeta.clear]
  unfold State.homeWrite1
  dsimp only
  rw [hb]
  refine ⟨h.1, h.2.1, ?_, h.2.2.2.1, h.2.2.2.2⟩
  have hc : (s.rawWrite pa bs).lineMeta (pa / 128) = LineMeta.clear := hm _
  simp only [State.setMeta, hc]
  rw [show (s.rawWrite pa bs).meta_ = [] from h.2.2.1]
  have ht := tagsAfter_clear (pa % 128) bs.length
  simp [LineMeta.clear, LineMeta.setPoison, FMap.set, FMap.erase, ht]

theorem Plain.homeWrite (h : s.Plain t w n th sw) (pa : Nat) (bs : List (BitVec 8)) : (s.homeWrite pa bs false).Plain t w n th sw := by
  unfold State.homeWrite
  generalize pieces (bs.length + 1) pa bs = l
  induction l generalizing s with
  | nil => exact h
  | cons a l ih => exact ih (Plain.homeWrite1 h a.1 a.2)

theorem Plain.reportWord (h : s.Plain t w n th sw) (pa v : Nat) : (s.reportWord pa v).Plain t w n th sw := by
  unfold State.reportWord
  split
  · exact Plain.homeWrite h _ _
  · exact h

/-- Where no thread is halted, a service event changes no thread. -/
theorem serviceEvent_threads (h : s.threads = th) (hh : ∀ x ∈ th, x.2.stat ≠ .halted) (die : Nat) :
    (s.serviceEvent die).threads = th := by
  unfold State.serviceEvent
  dsimp only
  have key : ∀ (l : FMap Thread) (s1 : State) (n : Nat), (∀ x ∈ l, x.2.stat ≠ .halted) → s1.threads = th →
      (l.foldl (fun s th =>
        if th.2.stat == .halted && s.coreOf th.1 / 96 == die then
          (s.updThread th.1 fun h => { h with seen := n }).boundary th.1 (th.2.pc + 4)
        else s) s1).threads = th := by
    intro l
    induction l with
    | nil => exact fun s1 n _ h1 => h1
    | cons a l ih =>
      intro s1 n hl h1
      rw [List.foldl_cons, if_neg (by simp [hl a (by simp)])]
      exact ih s1 n (fun x hx => hl x (by simp [hx])) h1
  exact key s.threads _ _ (h ▸ hh) h

/-- A sweep that starts where none runs changes no thread. -/
theorem Plain.startSweep (h : s.Plain t w n th sw) (hh : ∀ x ∈ th, x.2.stat ≠ .halted) (v : Nat) (rs : List (Nat × Nat)) (d : Nat × Nat)
    (hs : sw.find? v = none) : (s.startSweep v rs d).threads = th := by
  unfold State.startSweep
  rw [h.2.2.2.2.2.2.1, hs]
  unfold State.sweepReport
  have h1 : ({ s with sweeps := sw.put v ⟨rs, [d], 0, false⟩ } : State).Plain t w n th (sw.put v ⟨rs, [d], 0, false⟩) :=
    ⟨h.1, h.2.1, h.2.2.1, h.2.2.2.1, h.2.2.2.2.1, h.2.2.2.2.2.1, rfl, h.2.2.2.2.2.2.2⟩
  generalize ({ s with sweeps := sw.put v ⟨rs, [d], 0, false⟩ } : State) = s1 at h1
  exact serviceEvent_threads (Plain.reportWord (Plain.reportWord h1 _ _) _ _).2.2.2.2.2.1 hh _

end Sys2Proof.Machine
end

