-- ==== Sys2Proof/Tests/Slice0.lean ====
section
/-! SUPPORT. Tests: decoding of words written out from the spec's encodings, single steps with results that the spec states, and for
every statement of Certificates/Slice0/Obligations.lean a witness that its hypotheses can be met. -/

namespace Sys2Proof.Tests

open Sys2Proof Sys2Proof.Machine

-- One theorem after another: each is a kernel evaluation, and many at once need too many threads.
set_option Elab.async false

/-- What an outcome that is a next state has to satisfy. -/
def next (o : Out) (p : State → Bool) : Bool :=
  match o with
  | .next s => p s
  | _ => false

/-- No guard, and END as said. -/
def ct (e : Bool) : Ctl := ⟨0, false, false, e⟩

/-- A register of every lane of a crew set to a word with a tag. -/
def setReg (s : State) (crew v : Nat) (x : BitVec 32) (fmt : BitVec 4) : State :=
  { s with rows := s.rows.put (crew * 32 + v) ⟨fmt, 0, (span 0 32).map fun l => (l, x), BitVec.allOnes 32, [], false⟩ }

/-- A capability group of every lane of a crew set and made valid. -/
def setCap (s : State) (crew k : Nat) (c : BitVec 128) : State :=
  let s1 := (span 0 4).foldl (fun s i => setReg s crew (4 * k + i) (c.extractLsb' (32 * i) 32) 11) s
  { s1 with valid := s1.valid.put (crew * 8 + k) (BitVec.allOnes 32) }

/-- A machine at a first instruction on a core, its task with pages 1 to 3, two ring tiles, a port grid and a handler at offset 64; `c0`
GLOBAL over page 2, `c1` LOCAL at `la`, `c2` SERVICE and `c3` RECORD over page 3, `v20` to `v24` two slots of the buffer, 2, and L6
elements. The scratchpad holds blocks of `mms`, `mmp` and `repi` at 0, 64 and 128, a barrier object of two threads at 256 and a buffer of
four slots of 64 bytes at 320, one filled, one held by a producer, one free and one acquired. -/
def rigOn (core : Nat) (flags : BitVec 16) (la : Nat) : State :=
  let s0 := { State.reset with cur := 4 * core }.placeWord 0xD0000001
  let s1 := s0.updTask 2 fun k => { k with
    lease := [⟨1, false, 1, true, 1⟩, ⟨2, true, 2, false, 1⟩, ⟨3, true, 3, false, 1⟩]
    record := { k.record with spad := 65536, flags := flags, gridH := 1, gridW := 1, ring := 2, handler := 64 } }
  let s2 := s1.updGang 1 fun g => { g with rings := 2 }
  let s3 := { s2 with tlb := [⟨core, 2, 1, 1, false, 1⟩, ⟨core, 2, 2, 2, true, 1⟩, ⟨core, 2, 3, 3, true, 1⟩] }
  let s4 := setCap (setCap s3 512 0 (Cap.make 0 0x7B 7 512 0x20000 64)) 512 1 (Cap.make 1 0x5B 15 512 0 la)
  let s5 := setCap (setCap s4 512 2 (Cap.make 4 0x03 7 512 0x30000 0)) 512 3 (Cap.make 3 0x03 7 512 0x30000 0)
  let r20 := setReg (setReg (setReg s5 512 20 8256 1) 512 21 8384 1) 512 22 2 1
  let s6 := (setReg (setReg r20 512 23 0x41041041 8) 512 24 0x3F800000 2).spadWrite 1 0 [1, 5, 5, 0, 16, 16, 16, 0] false
  let s7 := s6.spadWrite 1 64 [2, 5, 5, 4, 16, 16, 16, 0] false
  let s8 := s7.spadWrite 1 144 [8] false
  let s9 := s8.spadWrite 1 256 (leBytes 16 (BarObj.init 2).enc.toNat) false
  let s10 := s9.rawWrite 0x30000 ([1, 3] ++ List.replicate 14 0 ++ leBytes 8 0x1000 ++ leBytes 8 0x2000)
  s10.spadWrite 1 320 ((Hdr.enc ⟨8192, 64, 4, 0, 1, 2, 0, 1, 1, 0, 0⟩).flatMap fun w => leBytes 4 w.toNat) false

/-- The machine on the service core 0, in kernel mode. -/
def rig (la : Nat) : State := rigOn 0 8 la

/-- The same with an END on every form. -/
def fits (f : Option Form) (i : Instr) (s : State) : Bool := wellFormed i && f.any fun f => f.fit s

/-! ## Decoding: a word of every instruction, written from the bit positions of spec/03 and spec/04 (R26, R43 to R50) -/

/-- A 32-bit word decodes to an instruction. -/
def reads (x : BitVec 32 × Instr) : Bool :=
  match Decode.word32 x.1 with
  | .ok i => decide (i = x.2)
  | _ => false

/-- A 16-bit word decodes to an instruction. -/
def reads16 (x : BitVec 16 × Instr) : Bool :=
  match Decode.half16 x.1 with
  | .ok i => decide (i = x.2)
  | _ => false

/-- Guard `p11` negated, with END. -/
def g11 : Ctl := ⟨11, true, true, true⟩

theorem test_words_integer :
    ([(0x00A339BF, .add 20 12 28 true g11), (0x01A339BF, .sub 20 12 28 true g11), (0x02A339BF, .mul 20 12 28 true g11),
      (0x03A339BF, .mulh 20 12 28 true g11), (0x04A339BF, .mulhu 20 12 28 true g11), (0x05A339BF, .mad 20 12 28 true g11),
      (0x06A339BF, .min 20 12 28 true g11), (0x07A339BF, .max 20 12 28 true g11), (0x08A339BF, .minu 20 12 28 true g11),
      (0x09A339BF, .maxu 20 12 28 true g11), (0x0AA339BF, .and 20 12 28 true g11), (0x0BA339BF, .or 20 12 28 true g11),
      (0x0CA339BF, .xor 20 12 28 true g11), (0x0DA339BF, .andn 20 12 28 true g11), (0x0EA339BF, .shl 20 12 28 true g11),
      (0x0FA339BF, .shr 20 12 28 true g11), (0x10A339BF, .sra 20 12 28 true g11), (0x11A339BF, .rotl 20 12 28 true g11),
      (0x12A301BF, .popc 20 12 true g11), (0x13A301BF, .clz 20 12 true g11), (0x14A301BF, .brev 20 12 true g11),
      (0x15A339BF, .adds 20 12 28 true g11), (0x16A339BF, .subs 20 12 28 true g11), (0x17A339BF, .absd 20 12 28 true g11),
      (0x18A339BF, .bfx 20 12 28 true g11), (0x19A339BF, .bfi 20 12 28 true g11), (0x1AA301BF, .mov 20 12 true g11),
      (0x1BA339BF, .shfl 20 12 28 true g11), (0x1CA301BF, .ballot 20 12 true g11)] : List (BitVec 32 × Instr)).all reads = true := by
  decide +kernel

theorem test_words_half :
    ([(0x0A32, .mov16 20 12 true), (0x1A32, .add16 20 12 true), (0x2A32, .sub16 20 12 true), (0x3A32, .and16 20 12 true),
      (0x4A32, .or16 20 12 true), (0x5A32, .xor16 20 12 true), (0x6A32, .shl16 20 12 true), (0x7A32, .shr16 20 12 true),
      (0x8A32, .sra16 20 12 true), (0x9A32, .mul16 20 12 true), (0xAA32, .fadd16 20 12 true), (0xBA32, .fsub16 20 12 true),
      (0xCA32, .fmul16 20 12 true), (0xDA32, .fmin16 20 12 true), (0xEA32, .fmax16 20 12 true), (0xFA32, .addi16 20 12 true)] : List (BitVec 16 × Instr)).all reads16 = true := by
  decide +kernel

theorem test_words_float :
    ([(0x20A339BF, .fadd 20 12 28 true g11), (0x21A339BF, .fsub 20 12 28 true g11), (0x22A339BF, .fmul 20 12 28 true g11),
      (0x23A339BF, .ffma 20 12 28 true g11), (0x24A339BF, .fmin 20 12 28 true g11), (0x25A339BF, .fmax 20 12 28 true g11),
      (0x26A339BF, .fdiv 20 12 28 true g11), (0x27A301BF, .fsqrt 20 12 true g11), (0x28A339BF, .dadd 20 12 28 true g11),
      (0x29A339BF, .dsub 20 12 28 true g11), (0x2AA339BF, .dmul 20 12 28 true g11), (0x2BA339BF, .dfma 20 12 28 true g11),
      (0x2CA339BF, .dmin 20 12 28 true g11), (0x2DA339BF, .dmax 20 12 28 true g11), (0x2EA339BF, .ddiv 20 12 28 true g11),
      (0x2FA301BF, .dsqrt 20 12 true g11), (0x30A339BF, .hadd 20 12 28 true g11), (0x31A339BF, .hsub 20 12 28 true g11),
      (0x32A339BF, .hmul 20 12 28 true g11), (0x33A339BF, .hfma 20 12 28 true g11), (0x34A339BF, .hmin 20 12 28 true g11),
      (0x35A339BF, .hmax 20 12 28 true g11), (0x36D26BBF, .fcvt 26 9 21 true g11), (0x37A339BF, .fcpys 20 12 28 true g11),
      (0x38A301BF, .fneg 20 12 true g11), (0x39A301BF, .fabs 20 12 true g11), (0x3AA339BF, .lmul 20 12 28 true g11),
      (0x3BA339BF, .ldot 20 12 28 true g11), (0x3CA301BF, .fclass 20 12 true g11), (0x3DA309BF, .frnd 20 12 4 true g11)] : List (BitVec 32 × Instr)).all reads = true := by
  decide +kernel

theorem test_words_immediate :
    ([(0x428CA5BF, .addi 20 12 0xA5 g11), (0x468CA5BF, .andi 20 12 0xA5 g11), (0x4A8CA5BF, .ori 20 12 0xA5 g11),
      (0x4E8CA5BF, .xori 20 12 0xA5 g11), (0x528CA5BF, .shli 20 12 0xA5 g11), (0x568CA5BF, .shri 20 12 0xA5 g11),
      (0x5A8CA5BF, .srai 20 12 0xA5 g11), (0x5E8CA5BF, .muli 20 12 0xA5 g11), (0x748C5ABF, .movi 20 0x8C5A g11),
      (0x948C5ABF, .movhi 20 0x8C5A g11)] : List (BitVec 32 × Instr)).all reads = true := by
  decide +kernel

theorem test_words_memory :
    ([(0xA14B4BBF, .ldb 20 5 0xA5 true g11), (0xA34B4BBF, .ldbu 20 5 0xA5 true g11), (0xA54B4BBF, .ldh 20 5 0xA5 true g11),
      (0xA74B4BBF, .ldhu 20 5 0xA5 true g11), (0xA94B4BBF, .ldw 20 5 0xA5 true g11), (0xAB4B4BBF, .ldd 20 5 0xA5 true g11),
      (0xAD4B4BBF, .stb 20 5 0xA5 true g11), (0xAF4B4BBF, .sth 20 5 0xA5 true g11), (0xB14B4BBF, .stw 20 5 0xA5 true g11),
      (0xB34B4BBF, .std 20 5 0xA5 true g11), (0xB54B4BBF, .ldc 20 5 0xA5 true g11), (0xB74B4BBF, .stc 20 5 0xA5 true g11),
      (0xB83B4BBF, .pref 3 5 0xA5 true g11), (0xBA2A0BBF, .cflush 2 5 5 true g11)] : List (BitVec 32 × Instr)).all reads = true := by
  decide +kernel

theorem test_words_predicates_flow :
    ([(0xC09A32BF, .cmpeq 9 20 12 2 g11), (0xC19A32BF, .cmpne 9 20 12 2 g11), (0xC29A32BF, .cmplt 9 20 12 2 g11),
      (0xC39A32BF, .cmple 9 20 12 2 g11), (0xC49A32BF, .cmpltu 9 20 12 2 g11), (0xC59A32BF, .cmpleu 9 20 12 2 g11),
      (0xC69A32BF, .fcmpeq 9 20 12 2 g11), (0xC79A32BF, .fcmplt 9 20 12 2 g11), (0xC89A32BF, .fcmple 9 20 12 2 g11),
      (0xC99A32BF, .fcmpun 9 20 12 2 g11), (0xCA96DBBF, .pset 9 6 13 11 g11), (0xCBA400BF, .pmov 20 true g11),
      (0xCC8C5ABF, .bra 0x8C5A g11), (0xCD8C5ABF, .call 0x8C5A g11), (0xCEA000BF, .jmpr 20 g11), (0xCF0000BF, .exit g11),
      (0xD00000BF, .nop g11), (0xD1A528BF, .rdsr 20 0xA5 g11), (0xD2A528BF, .wrsr 20 0xA5 g11), (0xD3A555BF, .tag 20 10 0x55 g11),
      (0xD4A300BF, .tagrd 20 12 g11), (0xD596DBBF, .wait 9 6 13 11 g11), (0xD60000BF, .yield g11), (0xD7A500BF, .svc 0xA5 g11),
      (0xD88C5ABF, .trap 0x8C5A g11), (0xD94000BF, .bar 1 g11), (0xDAA580BF, .capr 20 5 8 g11), (0xDBAE80BF, .cadd 5 3 20 g11),
      (0xDCAE90BF, .cbnd 5 3 20 true g11), (0xDDAD54BF, .cprm 5 3 0x55 g11), (0xDEAC00BF, .cmov 5 3 g11), (0xDF9B44BF, .ctst 9 5 20 4 g11)] : List (BitVec 32 × Instr)).all reads = true := by
  decide +kernel

theorem test_words_wide :
    ([(0xE0ED63BF, .ldt 29 5 6 1 true g11), (0xE1DD33BF, .stt 27 5 3 1 true g11), (0xE2A565BF, .aadd 20 5 12 5 g11),
      (0xE3A565BF, .amin 20 5 12 5 g11), (0xE4A565BF, .amax 20 5 12 5 g11), (0xE5A565BF, .aminu 20 5 12 5 g11),
      (0xE6A565BF, .amaxu 20 5 12 5 g11), (0xE7A565BF, .aand 20 5 12 5 g11), (0xE8A565BF, .aor 20 5 12 5 g11),
      (0xE9A565BF, .axor 20 5 12 5 g11), (0xEAA565BF, .axchg 20 5 12 5 g11), (0xEBA565BF, .acas 20 5 12 5 g11),
      (0xECA565BF, .afadd 20 5 12 5 g11), (0xEDA565BF, .aaddD 20 5 12 5 g11), (0xEEA565BF, .acasD 20 5 12 5 g11),
      (0xEF3800BF, .fence 1 3 g11), (0xF0AE92BF, .cpy 5 3 20 4 true g11), (0xF1AF96BF, .tcpy 5 3 28 5 true g11),
      (0xF2A500BF, .aqry 20 5 g11), (0xF3B460BF, .amat 5 20 3 g11), (0xF4B000BF, .mms 5 2 g11), (0xF5B000BF, .mmp 5 2 g11)] : List (BitVec 32 × Instr)).all reads = true := by
  decide +kernel

theorem test_words_sync_system :
    ([(0xF614ACBF, .rld 20 5 12 g11), (0xF634ACBF, .rst 20 5 12 g11), (0xF64000BF, .rrel g11), (0xF67400BF, .repi 5 g11),
      (0xF69400BF, .rpos 20 g11), (0xF6A000BF, .rclr g11), (0xF7B400BF, .binit 5 20 g11), (0xF8B490BF, .barv 5 20 9 g11),
      (0xF9B400BF, .bexp 5 20 g11), (0xFAB496BF, .bwait 5 20 9 6 g11), (0xFBA500BF, .bacq 5 20 g11), (0xFBAD00BF, .brel 5 20 g11),
      (0xFBB500BF, .bget 5 20 g11), (0xFBBD00BF, .bput 5 20 g11), (0xFC2A00BF, .psend 2 20 g11), (0xFC6A00BF, .precv 2 20 g11),
      (0xFCAA00BF, .pstat 2 20 g11), (0xFDB400BF, .fetchw 5 20 g11), (0xFEB400BF, .tlaunch 5 20 g11), (0xFF0000BF, .tret g11),
      (0xFF1000BF, .park g11), (0xFF2A00BF, .ctxsv 5 g11), (0xFF3A00BF, .ctxld 5 g11), (0xFF4000BF, .halt g11),
      (0xFF5A00BF, .sweep 5 g11), (0xFF6A00BF, .svcget 5 g11), (0xFF7A00BF, .svcput 5 g11), (0xFF8A00BF, .fltrd 20 g11)] : List (BitVec 32 × Instr)).all reads = true := by
  decide +kernel

/-- Words that R28, R42, R50 and R56 refuse: an unassigned class function, sub-operation, a must-be-zero bit, the halfword of zeros; and a
word of R35 without its END. -/
theorem test_words_refused :
    ([0x1D000001, 0x3E000001, 0xBC000001, 0xF6C00001, 0xFCC00001, 0xFF900001, 0x12000201, 0xCF000101, 0xFF000801] : List (BitVec 32)).all
      (fun w => match Decode.word32 w with | .error .illegalOp => true | _ => false) = true ∧
    ([0xCF000001, 0xCC000101, 0xFA000001, 0xFF400001] : List (BitVec 32)).all
      (fun w => match Decode.word32 w with | .error .illegalRun => true | _ => false) = true ∧
    (match Decode.half16 0 with | .error .illegalOp => true | _ => false) = true := by decide +kernel

/-! ## Ill-formed terms: one for each check of WellFormed.lean -/

/-- No guard, N set: R27. -/
def badGuard : Ctl := ⟨0, true, false, true⟩

theorem test_refuses_guard : wellFormed (.add 1 2 3 false badGuard) = false ∧ wellFormed (.movi 1 2 ⟨3, false, false, false⟩) = false ∧
    wellFormed (.movi 1 2 ⟨3, true, true, false⟩) = true := by decide +kernel

/-- R29: an odd pair field, a group past `v31`, a capability group not at a multiple of 4. -/
theorem test_refuses_groups : let c := ct false
    ([.ldd 21 0 0 false c, .std 21 0 0 false c, .dadd 21 2 4 false c, .dadd 20 3 4 false c, .dadd 20 2 5 false c, .dsqrt 20 3 false c,
      .aaddD 21 0 2 0 c, .acasD 20 0 3 0 c, .fetchw 1 21 (ct true), .tlaunch 1 21 (ct true), .ldc 21 0 0 false c, .stc 2 0 0 false c,
      .ldt 30 0 1 1 false c, .stt 30 0 1 1 false c, .tcpy 1 2 29 0 false c] : List Instr).all (fun i => !wellFormed i) = true := by
  decide +kernel

/-- R44, R49, R50, R51, R53: field values with no meaning. -/
theorem test_refuses_fields : let c := ct false
    ([.fcvt 1 2 24 false c, .fcvt 1 3 4 false c, .fcvt 1 2 5 false c, .fcvt 1 29 14 false c, .fcvt 29 1 18 false c, .fcvt 1 28 20 false c,
      .fcvt 28 1 21 false c, .tag 1 11 0 c, .tag 1 5 1 c, .ldt 1 0 0 0 false c, .ldt 1 0 11 0 false c, .ldt 1 0 9 0 false c,
      .ldt 1 0 5 4 false c, .ldt 1 0 1 5 false c, .stt 1 0 1 1 true c, .stt 1 0 3 0 true c, .mov16 0 0 false, .cmpeq 1 2 3 3 c,
      .fcmpun 1 2 3 3 c, .frnd 1 2 5 false c, .pref 4 0 0 false c, .cflush 3 0 0 false c, .cflush 0 0 6 false c, .bar 2 (ct true),
      .capr 1 0 9 c, .ctst 1 0 2 5 c, .aadd 1 0 2 6 c, .afadd 1 0 2 7 c, .fence 6 0 c, .fence 2 3 c, .cpy 1 2 3 6 false c,
      .amat 1 2 6 c] : List Instr).all (fun i => !wellFormed i) = true := by
  decide +kernel

/-- R35, R50: no END where a run must end. -/
theorem test_refuses_no_end : let c := ct false
    ([.bra 0 c, .call 0 c, .jmpr 1 c, .exit c, .wait 0 0 0 0 c, .yield c, .bar 0 c, .bwait 0 1 2 3 c, .trap 0 c, .svc 0 c, .fetchw 1 2 c,
      .tlaunch 1 2 c, .tret c, .park c, .halt c] : List Instr).all (fun i => !wellFormed i) = true := by
  decide +kernel

/-! ## Witnesses: decoding and the step -/

/-- The state after an instruction or event, where it answers a next state. -/
def run (i : Instr) (s : State) : State :=
  match exec i s with
  | .next s' => s'
  | _ => s

/-- StepRunsDecoded: a 32-bit word and a 16-bit word at the PC, and an event. -/
theorem test_witness_step_word : let s := rig 0
    s.nextMove = ⟨.run 0, 1⟩ ∧ s.slots.find? 0 = some ⟨512, 1, 0, 65536, false, 0⟩ ∧ s.outsidePcc 16384 65536 = none ∧
    s.codeAt 16384 65536 = some 0x01 ∧ s.codeAt 16384 65537 = some 0 ∧ s.codeAt 16384 65538 = some 0 ∧
    s.codeAt 16384 65539 = some 0xD0 ∧ Decode.word32 0xD0000001 = .ok (.nop (ct false)) := by decide +kernel

theorem test_witness_step_half : let s := { rig 0 with mem := [(65536, 0x52), (65537, 0x1A)] }
    s.outsidePcc 16384 65536 = none ∧ s.codeAt 16384 65536 = some 0x52 ∧ s.codeAt 16384 65537 = some 0x1A ∧
    (Decode.half16 0x1A52).isOk = true := by decide +kernel

theorem test_witness_step_event : let s := { rig 0 with agenda := [⟨.event (.issueAgeing 16384), 9⟩] }
    s.nextMove = ⟨.event (.issueAgeing 16384), 9⟩ ∧ isEvent (.issueAgeing 16384) = true ∧
    next (step s) (fun t => decide (t.clock = s.clock + 9)) = true := by decide +kernel

/-- StepRunsDecoded: a halted device takes no other move than those of its recovery. -/
theorem test_witness_step_halted : let s := { rig 0 with boot := { (rig 0).boot with halt := 2 } }
    s.boot.halt ≠ 0 ∧ State.recovers (.issueAgeing 16384) = false ∧ State.recovers (.firmwareUpdate 9 true) = true ∧
    next (step s) (fun t => decide ((t.thread 16384).pc = 65536)) = true := by decide +kernel

/-- StepRunsDecoded: words that do not decode, a run without its END, and an L6 form that is not accepted; IllegalWords: each fetch that
fails. -/
theorem test_witness_fetch_fails :
    let at_ (w : BitVec 32) : State := { rig 0 with mem := (leBytes 4 w.toNat).mapIdx fun i b => (65536 + i, b) }
    let noL6 := { at_ 0x3A000001 with boot := { (rig 0).boot with featAccept := 0 } }
    let far := (rig 0).updThread 16384 fun h => { h with pc := 0x40000 }
    let bare := (rig 0).updTask 2 fun k => { k with lease := k.lease.filter fun b => b.block != 1 }
    let edge := { ((rig 0).updThread 16384 fun h => { h with pc := 0x1FFFE }).updTask 2 fun k => { k with
      record := { k.record with code := ⟨Cap.make 2 0x05 8 512 0x10000 0, true⟩ } } with mem := [(0x1FFFE, 1)] }
    let long := { rig 0 with slots := [(0, ⟨512, 1, 0, 65536, false, 24⟩)] }
    ([at_ 0, at_ 0x3E000001, at_ 0xCF000001, noL6, far, bare, edge, long] : List State).all (fun s =>
      s.boot.halt == 0 && s.nextMove == ⟨.run 0, 1⟩ && (s.slots.find? 0).isSome && slotThreads (s.atTurn 0 1) == [16384] &&
      (s.atTurn 0 1).canTrap 16384 && ((s.atTurn 0 1).tasks.find? ((s.atTurn 0 1).taskOf 16384)).any fun k =>
        k.code.isNone && k.stage != .completed) = true ∧
    ([at_ 0, at_ 0x3E000001, at_ 0xCF000001, noL6] : List State).all (fun s =>
      (s.atTurn 0 1).outsidePcc 16384 65536 == none && (span 65536 4).all fun va => ((s.atTurn 0 1).codeAt 16384 va).isSome) = true ∧
    Decode.word32 0x3A000001 = .ok (.lmul 0 0 0 false (ct false)) ∧ WellFormed.l6Gated (.lmul 0 0 0 false (ct false)) = true ∧
    (far.atTurn 0 1).outsidePcc 16384 0x40000 = some 0x40000 ∧
    (bare.atTurn 0 1).outsidePcc 16384 65536 = none ∧ (bare.atTurn 0 1).codeAt 16384 65536 = none ∧
    (edge.atTurn 0 1).outsidePcc 16384 0x1FFFE = none ∧ (edge.atTurn 0 1).codeAt 16384 0x1FFFE = some 1 ∧
    (edge.atTurn 0 1).codeAt 16384 0x1FFFF = some 0 ∧ (edge.atTurn 0 1).codeAt 16384 0x20000 = none ∧
    (long.atTurn 0 1).outsidePcc 16384 65536 = none ∧ ((long.atTurn 0 1).codeAt 16384 65536).isSome = true ∧
    ((long.atTurn 0 1).codeAt 16384 65537).isSome = true := by decide +kernel

/-- R224: the slice and the set of the spec's example, on a die with 64 live slices and on one with 47. -/
theorem test_home_set : let s := { rig 0 with boot := { (rig 0).boot with slices := [(5, 47)] } }
    ((rig 0).homeSlice 0x6D1A80, (rig 0).homeSet 0x6D1A80) = (53, 872) ∧ (s.homeSlice 0x6D1A80, s.homeSet 0x6D1A80) = (25, 868) := by
  decide +kernel

/-- DecodeEncode and DecodeSound. -/
theorem test_witness_decode : let i : Instr := .pset 4 1 2 8 (ct false)
    wellFormed i = true ∧ hasWord i = true ∧ Decode.bytes (encodeBytes i ++ [0xFF]) = .ok (i, [0xFF]) := by decide +kernel

/-- StepKeepsMemory and StepKeepsLists: a state that meets both, with a store under way. -/
theorem test_witness_invariants : let s := { run (.stw 20 0 0 false (ct false)) (rig 0) with agenda := [⟨.event (.storePerformed 4), 1⟩] }
    s.memForm = true ∧ s.listsForm = true ∧ s.tablesForm = true ∧ s.ops.length = 1 ∧
    next (step s) (fun t => t.memForm && t.tablesForm && t.ops.isEmpty && decide (t.cbytes ≠ [])) = true := by decide +kernel

/-! ## Witnesses: forms -/

theorem test_witness_integer : let c := ct false
    ([.add 25 20 21 false c, .sub 25 20 21 true c, .mul 25 20 21 false c, .mulh 25 20 21 false c, .mulhu 25 20 21 false c,
      .mad 25 20 21 false c, .min 25 20 21 false c, .max 25 20 21 false c, .minu 25 20 21 false c, .maxu 25 20 21 false c,
      .and 25 20 21 false c, .or 25 20 21 false c, .xor 25 20 21 false c, .andn 25 20 21 false c, .shl 25 20 21 false c,
      .shr 25 20 21 false c, .sra 25 20 21 false c, .rotl 25 20 21 false c, .popc 25 20 false c, .clz 25 20 false c,
      .brev 25 20 false c, .adds 25 20 21 false c, .subs 25 20 21 false c, .absd 25 20 21 false c, .bfx 25 20 21 false c,
      .bfi 25 20 21 false c, .addi 25 20 1 c, .andi 25 20 1 c, .ori 25 20 1 c, .xori 25 20 1 c, .shli 25 20 1 c,
      .shri 25 20 1 c, .srai 25 20 1 c, .muli 25 20 1 c, .movi 25 1 c, .movhi 25 1 c, .add16 25 20 true,
      .sub16 25 20 false, .and16 25 20 false, .or16 25 20 false, .xor16 25 20 false, .shl16 25 20 false, .shr16 25 20 false,
      .sra16 25 20 false, .mul16 25 20 false, .addi16 25 3 false] : List Instr).all (fun i => fits (integerForm i) i (rig 0)) = true := by
  decide +kernel

theorem test_witness_move : let c := ct false
    ([.mov 25 20 false c, .mov16 25 20 false, .shfl 25 20 21 false c, .ballot 25 20 false c, .tag 20 2 0 c, .tagrd 25 20 c,
      .rdsr 25 0x12 c, .wrsr 20 0x14 c, .pstat 0 25 c, .rpos 25 c] : List Instr).all (fun i => fits (moveForm i) i (rig 0)) = true := by
  decide +kernel

theorem test_witness_float : let c := ct false
    ([.fadd 25 24 26 false c, .fsub 25 24 26 true c, .fmul 25 24 26 false c, .ffma 25 24 26 false c, .fmin 25 24 26 false c,
      .fmax 25 24 26 false c, .fdiv 25 24 26 false c, .fsqrt 25 24 false c, .fadd16 24 24 false, .fsub16 24 24 false,
      .fmul16 24 24 false, .fmin16 24 24 false, .fmax16 24 24 true, .dadd 26 28 30 false c, .dsub 26 28 30 false c,
      .dmul 26 28 30 false c, .dfma 26 28 30 false c, .dmin 26 28 30 false c, .dmax 26 28 30 false c, .ddiv 26 28 30 false c,
      .dsqrt 26 28 false c, .hadd 25 26 27 false c, .hsub 25 26 27 false c, .hmul 25 26 27 false c, .hfma 25 26 27 false c,
      .hmin 25 26 27 false c, .hmax 25 26 27 false c] : List Instr).all (fun i => fits (floatForm i) i (rig 0)) = true := by
  decide +kernel

theorem test_witness_convert : let c := ct false
    ([.fcpys 25 24 24 false c, .fneg 25 24 false c, .fabs 25 24 false c, .fclass 25 24 false c, .frnd 25 24 4 false c,
      .fcvt 25 20 0 false c, .fcvt 26 24 5 false c, .lmul 25 23 23 false c, .ldot 25 23 23 false c] : List Instr).all
      (fun i => fits (convertForm i) i (rig 0)) = true := by
  decide +kernel

theorem test_witness_predicate : let c := ct false
    ([.cmpeq 2 20 21 0 c, .cmpne 2 20 21 1 c, .cmplt 2 20 21 2 c, .cmple 2 20 21 0 c, .cmpltu 2 20 21 0 c, .cmpleu 2 20 21 0 c,
      .fcmpeq 2 24 24 0 c, .fcmplt 2 24 24 0 c, .fcmple 2 24 24 0 c, .fcmpun 2 24 24 0 c, .pset 4 1 2 8 c, .pmov 20 true c,
      .pmov 25 false c, .ctst 2 0 22 1 c] : List Instr).all (fun i => fits (predicateForm i) i (rig 0)) = true := by
  decide +kernel

theorem test_witness_flow : let e := ct true
    ([.bra 4 e, .call 4 e, .jmpr 22 e, .nop (ct false)] : List Instr).all (fun i => fits (flowForm i) i (rig 0)) = true ∧
    fits (flowForm (.tret e)) (.tret e) ((rig 0).updThread 16384 fun h => { h with handling := true }) = true ∧
    fits (flowForm (.halt e)) (.halt e) { rig 0 with regs := { (rig 0).regs with evtSeq := [(0, 1)] } } = true := by
  decide +kernel

theorem test_witness_capability : let c := ct false
    ([.cadd 4 0 22 c, .cbnd 4 0 22 true c, .cprm 4 0 1 c, .cmov 4 1 c, .capr 25 0 0 c] : List Instr).all
      (fun i => fits (capabilityForm i) i (rig 0)) = true := by
  decide +kernel

theorem test_witness_access : let c := ct false
    ([.ldb 25 0 0 false c, .ldbu 25 1 0 false c, .ldh 25 0 1 false c, .ldhu 25 0 0 false c, .ldw 25 0 255 false c,
      .ldd 26 0 0 true c, .stb 20 0 0 false c, .sth 20 0 0 false c, .stw 20 1 0 true c, .std 20 0 0 false c,
      .ldc 24 0 0 false c, .stc 4 1 0 false c, .ldt 25 0 6 1 false c, .stt 24 0 6 1 false c] : List Instr).all
      (fun i => fits (accessForm i) i (rig 0)) = true := by
  decide +kernel

theorem test_witness_atomic : let c := ct false
    ([.aadd 25 0 22 2 c, .amin 25 0 22 2 c, .amax 25 0 22 2 c, .aminu 25 1 22 2 c, .amaxu 25 0 22 2 c, .aand 25 0 22 2 c,
      .aor 25 0 22 2 c, .axor 25 0 22 2 c, .axchg 25 0 22 2 c, .acas 25 0 22 2 c, .afadd 25 0 24 2 c, .aaddD 26 0 20 2 c,
      .acasD 26 0 22 2 c] : List Instr).all (fun i => fits (atomicForm i) i (rig 0)) = true := by
  decide +kernel

theorem test_witness_order : let c := ct false
    ([.fence 2 0 c, .fence 1 3 c, .pref 0 0 0 false c, .cflush 0 0 2 false c, .aqry 25 0 c, .amat 0 22 3 c,
      .cpy 1 0 22 3 false c, .tcpy 3 1 25 3 false c] : List Instr).all (fun i => fits (orderForm i) i (rig 0)) = true := by
  decide +kernel

theorem test_witness_matrix : let c := ct false
    ([.mms 1 0 c, .rrel c, .rclr c, .rld 25 0 22 c, .rst 20 0 22 c] : List Instr).all (fun i => fits (matrixForm i) i (rig 0)) = true ∧
    fits (matrixForm (.mmp 1 0 c)) (.mmp 1 0 c) (rig 64) = true ∧ fits (matrixForm (.repi 1 c)) (.repi 1 c) (rig 128) = true := by
  decide +kernel

theorem test_witness_sync : let c := ct false
    ([.binit 1 22 c, .barv 1 22 2 c, .bexp 1 22 c, .bwait 1 22 2 15 (ct true)] : List Instr).all
      (fun i => fits (syncForm i) i (rig 256)) = true ∧
    ([.bacq 1 25 c, .bget 1 25 c, .bput 1 20 c, .brel 1 21 c] : List Instr).all (fun i => fits (syncForm i) i (rig 320)) = true ∧
    ([.psend 0 20 c, .precv 0 25 c] : List Instr).all
      (fun i => fits (syncForm i) i { rig 0 with ports := [(16384 * 4, [⟨5, 1, 0⟩])] }) = true := by
  decide +kernel

theorem test_witness_kernel : let c := ct false
    ([.tlaunch 3 26 (ct true), .ctxsv 2 c, .ctxld 2 c, .svcget 2 c, .fltrd 25 c] : List Instr).all
      (fun i => fits (kernelForm i) i (rig 0)) = true := by
  decide +kernel

/-- The parts of a record at `c2`: one part, and a state that holds no poison. -/
theorem rig_parts : let r := (rig 0).partsOf 16384 2 1040 false
    r.2 = some [(.global 0x30000, 1040)] ∧ r.1.partsPending 16384 [(.global 0x30000, 1040)] = false ∧
    (r.1.alias_ = [] ∧ r.1.shared = [] ∧ r.1.meta_ = [] ∧ ((∀ kv ∈ r.1.cmeta, kv.2.world = 0 ∧ kv.2.poison = false) ∧
      r.1.cmeta.length + (0 + 6 * (pieces 1041 0x30000 (List.replicate 1040 0)).length) < 1024) ∧ r.1.worldOf 16384 = 0) ∧
    r.1.threads = (rig 0).threads ∧ (r.1.sweeps = [] ∧ r.1.reenc = []) ∧ r.1.acquiring 16384 = false ∧
    (∀ x ∈ (rig 0).threads, x.2.stat ≠ .halted) ∧
    (sweepBad (r.1.readParts 16384 [(.global 0x30000, 1040)]).2.1).isNone = true := by decide +kernel

theorem rig_sweep_fit : (rig 0).actors (ct false) = [16384] ∧ slotThreads (rig 0) = [16384] ∧
    (rig 0).serviceFit 16384 2 (·.r) 1040 16 = true ∧ wellFormed (.sweep 2 (ct false)) = true ∧
    ((rig 0).threads.find? 16384).isSome = true ∧ ((rig 0).rowCheck 16384 []).isNone = true := by decide +kernel

/-- One thread acts, and passes the checks of a form with no END that writes no register. -/
theorem fit_acting {f : Form} {s : State} {t : Nat} (hc : f.ct.e = false) (hw : f.writes s t = []) (h1 : s.actors f.ct = [t])
    (h2 : slotThreads s = [t]) (hrow : (s.rowCheck t []).isNone = true) (hok : f.ok s t = true)
    (hthr : ((f.act s t).threads.find? t).isSome = true) : f.fit s = true := by
  simp [Form.fit, Form.lanes, h1, h2, hrow, hok, hthr, hc, hw]

theorem recordReady_some {s1 : State} {t : Nat} {ps : List (Place × Nat)} (h0 : s1.acquiring t = false)
    (h1 : s1.partsPending t ps = false) (h3 : s1.reenc = []) (h2 : (s1.readParts t ps).2.2 = false) : recordReady (s1, some ps) t = true := by
  simp [recordReady, State.partsRoom, h0, h1, h2, h3]

theorem recordRead_some (s1 : State) (t : Nat) (ps : List (Place × Nat)) :
    recordRead (s1, some ps) t = ((s1.readParts t ps).1, (s1.readParts t ps).2.1, ps) := by
  simp only [recordRead]

theorem fits_of {f : Option Form} {i : Instr} {s : State} (h1 : wellFormed i = true) (h2 : f.any (fun f => f.fit s) = true) :
    fits f i s = true := by
  simp [fits, h1, h2]

/-- `sweep` where its record is one part of a memory with no poison. -/
theorem sweep_fit (s s1 : State) (g1 : s.actors (ct false) = [16384]) (g2 : slotThreads s = [16384])
    (g3 : s.serviceFit 16384 2 (·.r) 1040 16 = true) (g5 : (s.threads.find? 16384).isSome = true)
    (hrow : (s.rowCheck 16384 []).isNone = true) (hP : s.partsOf 16384 2 1040 false = (s1, some [(.global 0x30000, 1040)]))
    (h0 : s1.acquiring 16384 = false) (h2 : s1.partsPending 16384 [(.global 0x30000, 1040)] = false)
    (hp : s1.Plain 16384 0 (0 + 6 * (pieces 1041 0x30000 (List.replicate 1040 0)).length) s.threads [])
    (h6 : ∀ x ∈ s.threads, x.2.stat ≠ .halted)
    (h7 : (sweepBad (s1.readParts 16384 [(.global 0x30000, 1040)]).2.1).isNone = true) :
    (kernelForm (.sweep 2 (ct false))).any (fun f => f.fit s) = true := by
  have hr := Plain.readParts 0x30000 1040 hp
  change Form.fit _ s = true
  refine fit_acting rfl rfl g1 g2 hrow ?_ ?_
  · change (s.serviceFit 16384 2 (·.r) 1040 16 && recordReady (s.partsOf 16384 2 1040 false) 16384 &&
      (sweepBad (recordRead (s.partsOf 16384 2 1040 false) 16384).2.1).isNone &&
      reportFree (recordRead (s.partsOf 16384 2 1040 false) 16384)) = true
    rw [g3, hP, recordReady_some h0 h2 hp.2.2.2.2.2.2.2 hr.2, recordRead_some, h7]
    simp [reportFree, State.reportHeld, hr.1.2.2.2.2.2.2.2]
  · change ((match recordRead (s.partsOf 16384 2 1040 false) 16384 with
        | (s1, bs, (.global pa, _) :: _) =>
          s1.startSweep (leNat ((bs.drop 1).take 1) % 64) (sweepRanges bs) (pa, (s.partsOf 16384 2 1040 false).1.coreOf 16384 / 96)
        | (s1, _, _) => s1).threads.find? 16384).isSome = true
    rw [hP, recordRead_some]
    generalize s1.readParts 16384 [(.global 0x30000, 1040)] = R at *
    dsimp only
    rw [Plain.startSweep hr.1 h6 _ _ _ rfl]
    exact g5

/-- KernelForms: `sweep`, whose record is read at issue. -/
theorem test_witness_sweep : fits (kernelForm (.sweep 2 (ct false))) (.sweep 2 (ct false)) (rig 0) = true :=
  fits_of rig_sweep_fit.2.2.2.1 (sweep_fit (rig 0) ((rig 0).partsOf 16384 2 1040 false).1 rig_sweep_fit.1 rig_sweep_fit.2.1 rig_sweep_fit.2.2.1
    rig_sweep_fit.2.2.2.2.1 rig_sweep_fit.2.2.2.2.2 (Prod.ext rfl rig_parts.1)
    rig_parts.2.2.2.2.2.1 rig_parts.2.1 ⟨rig_parts.2.2.1.1, rig_parts.2.2.1.2.1, rig_parts.2.2.1.2.2.1, rig_parts.2.2.1.2.2.2.1, rig_parts.2.2.1.2.2.2.2,
      rig_parts.2.2.2.1, rig_parts.2.2.2.2.1⟩ rig_parts.2.2.2.2.2.2.1 rig_parts.2.2.2.2.2.2.2)

/-- A batch bound to `c2` whose callers have all gone. -/
def boundRig : State := { rig 0 with batches := [(900, ⟨3, 1, 0, 5, 512, [], some 0, some (16384, 0x30000), false⟩)] }

theorem bound_parts : let r := boundRig.partsOf 16384 2 1568 true
    r.2 = some [(.global 0x30000, 1568)] ∧ r.1.partsPending 16384 [(.global 0x30000, 1568)] = false ∧
    (r.1.alias_ = [] ∧ r.1.shared = [] ∧ r.1.meta_ = [] ∧ ((∀ kv ∈ r.1.cmeta, kv.2.world = 0 ∧ kv.2.poison = false) ∧
      r.1.cmeta.length + (0 + 6 * (pieces 1569 0x30000 (List.replicate 1568 0)).length) < 1024) ∧ r.1.worldOf 16384 = 0) ∧
    r.1.threads = boundRig.threads ∧ (r.1.sweeps = [] ∧ r.1.reenc = []) ∧ r.1.acquiring 16384 = false := by decide +kernel

theorem bound_fit : boundRig.actors (ct false) = [16384] ∧ slotThreads boundRig = [16384] ∧
    boundRig.serviceFit 16384 2 (fun c => c.r && c.w) 1568 16 = true ∧ wellFormed (.svcput 2 (ct false)) = true ∧
    (boundRig.threads.find? 16384).isSome = true ∧ (boundRig.thread 16384).st < 63 ∧
    boundBatch boundRig 16384 (boundRig.effAddr 16384 2 0).toNat = some (900, ⟨3, 1, 0, 5, 512, [], some 0, some (16384, 0x30000), false⟩) ∧
    (boundRig.rowCheck 16384 []).isNone = true := by
  decide +kernel

theorem incSt_isSome (s : State) (t : Nat) (h : (s.threads.find? t).isSome = true) :
    ((s.incSt t).threads.find? t).isSome = true := by
  simp [State.incSt, State.updThread, FMap.find?_adjust, h]

theorem answer_none (s : State) (k : Nat) (b : Batch) (rs : List (Nat × BitVec 32 × BitVec 32)) (h : b.callers = []) :
    answer s k b rs = s := by
  simp [answer, State.reply, State.writeRegs, h]

/-- `svcput` where its batch has no callers left and its record is one part of a memory with no poison. -/
theorem svcput_fit (s s1 : State) (k : Nat) (b : Batch) (g1 : s.actors (ct false) = [16384]) (g2 : slotThreads s = [16384])
    (g3 : s.serviceFit 16384 2 (fun c => c.r && c.w) 1568 16 = true) (g5 : (s.threads.find? 16384).isSome = true)
    (g6 : (s.thread 16384).st < 63) (g7 : boundBatch s 16384 (s.effAddr 16384 2 0).toNat = some (k, b)) (hb : b.callers = [])
    (hrow : (s.rowCheck 16384 []).isNone = true) (hP : s.partsOf 16384 2 1568 true = (s1, some [(.global 0x30000, 1568)]))
    (h0 : s1.acquiring 16384 = false) (h2 : s1.partsPending 16384 [(.global 0x30000, 1568)] = false)
    (hp : s1.Plain 16384 0 (0 + 6 * (pieces 1569 0x30000 (List.replicate 1568 0)).length) s.threads []) :
    (kernelForm (.svcput 2 (ct false))).any (fun f => f.fit s) = true := by
  have hr := Plain.readParts 0x30000 1568 hp
  change Form.fit _ s = true
  refine fit_acting rfl rfl g1 g2 hrow ?_ ?_
  · change (s.serviceFit 16384 2 (fun c => c.r && c.w) 1568 16 && (boundBatch s 16384 (s.effAddr 16384 2 0).toNat).isSome &&
      decide ((s.thread 16384).st < 63) && recordReady (s.partsOf 16384 2 1568 true) 16384) = true
    rw [g3, g7, hP, recordReady_some h0 h2 hp.2.2.2.2.2.2.2 hr.2, decide_eq_true g6]
    rfl
  · change ((match boundBatch s 16384 (s.effAddr 16384 2 0).toNat, recordRead (s.partsOf 16384 2 1568 true) 16384 with
        | some (k, b), (s1, bs, ps) =>
          ((answer { s1 with batches := s1.batches.erase k } k b (replies bs)).addOp 16384 (.batchPut ps)).incSt 16384
        | none, (s1, _, _) => s1).threads.find? 16384).isSome = true
    rw [hP, recordRead_some, g7]
    generalize s1.readParts 16384 [(.global 0x30000, 1568)] = R at *
    dsimp only
    refine incSt_isSome _ _ ?_
    rw [answer_none _ _ _ _ hb]
    have h10 : R.1.threads = s.threads := hr.1.2.2.2.2.2.1
    change (R.1.threads.find? 16384).isSome = true
    rw [h10]
    exact g5

/-- KernelForms: `svcput`, whose record is read at issue. -/
theorem test_witness_svcput : fits (kernelForm (.svcput 2 (ct false))) (.svcput 2 (ct false)) boundRig = true :=
  fits_of bound_fit.2.2.2.1 (svcput_fit boundRig (boundRig.partsOf 16384 2 1568 true).1 _ _ bound_fit.1 bound_fit.2.1 bound_fit.2.2.1
    bound_fit.2.2.2.2.1 bound_fit.2.2.2.2.2.1 bound_fit.2.2.2.2.2.2.1 rfl bound_fit.2.2.2.2.2.2.2 (Prod.ext rfl bound_parts.1)
    bound_parts.2.2.2.2.2 bound_parts.2.1 ⟨bound_parts.2.2.1.1, bound_parts.2.2.1.2.1, bound_parts.2.2.1.2.2.1, bound_parts.2.2.1.2.2.2.1,
      bound_parts.2.2.1.2.2.2.2, bound_parts.2.2.2.1, bound_parts.2.2.2.2.1⟩)

/-- PsetTable and NopDoesNothing. -/
theorem test_witness_whole : (rig 0).whole = true ∧ wellFormed (.nop (ct true)) = true ∧ (rig 0).actors (ct true) = [16384] := by
  decide +kernel

/-! ## Witnesses: where threads stop, stand and wait -/

/-- ExitEnds, YieldPassesOver, BarGathers where the thread is alone, and IllegalWords. -/
theorem test_witness_alone : let s := rig 0
    wellFormed (.exit (ct true)) = true ∧ wellFormed (.yield (ct true)) = true ∧ wellFormed (.bar 1 (ct true)) = true ∧
    s.whole = true ∧ s.listsForm = true ∧ s.batches = [] ∧ s.fencing 16384 = false ∧ slotThreads s = [16384] ∧
    s.canTrap 16384 = true ∧ ((run (.exit (ct true)) s).thread 16384).stat = .exited ∧
    ((run (.bar 1 (ct true)) s).thread 16384).stat = .ready ∧ (run (.yield (ct true)) s).slots = [] := by
  decide +kernel

/-- BarGathers where another thread of the team has not arrived. -/
theorem test_witness_bar_stands : let s := { rig 0 with threads := (rig 0).threads.put 16385 (Thread.fresh 65536) }
    s.whole = true ∧ s.listsForm = true ∧ teamOf 16385 = teamOf 16384 ∧ 16385 ∉ slotThreads s ∧ (s.thread 16385).stat = .ready ∧
    ((run (.bar 0 (ct true)) s).thread 16384).stat = .bar false := by
  decide +kernel

/-- WaitStands: a count above its bound, and a thread that stands in `wait`. -/
theorem test_witness_wait : let s := (rig 0).updThread 16384 fun h => { h with st := 2 }
    wellFormed (.wait 15 1 15 15 (ct true)) = true ∧ s.whole = true ∧ (s.thread 16384).metBounds 15 1 15 15 = false ∧
    ((run (.wait 15 1 15 15 (ct true)) s).thread 16384).stat = .wait 15 1 15 15 ∧
    (((run (.wait 15 1 15 15 (ct true)) s).decSt 16384).thread 16384).stat = .ready := by
  decide +kernel

theorem test_witness_svc : let s := rigOn 1 0 0
    wellFormed (.svc 5 (ct true)) = true ∧ s.whole = true ∧ 16384 ∈ s.actors (ct true) ∧
    (∀ u ∈ s.actors (ct true), s.coreOf u % 96 ≠ 0 ∧ s.readable u ((span 8 8).map fun v => (v, Acc.any)) = true ∧
      (s.rowCheck u [8, 9]).isNone = true) := by
  decide +kernel

theorem test_witness_bwait_stands : let s := rig 256
    wellFormed (.bwait 1 26 2 4 (ct true)) = true ∧ s.whole = true ∧
    (∀ t ∈ s.actors (ct true), s.objFit t 1 16 [26] false = true ∧ s.granulesPoisoned (gangOf t) (objAddr s t 1) 16 = false ∧
      s.objPhase (gangOf t) (objAddr s t 1) = (s.reg t 26).extractLsb' 0 4) := by
  decide +kernel

theorem test_witness_fetchw : let s := rig 384
    wellFormed (.fetchw 1 26 (ct true)) = true ∧ s.whole = true ∧
    (∀ t ∈ s.actors (ct true), s.clean t 1 = true ∧ s.readable t [(26, Acc.int), (27, Acc.int)] = true ∧
      s.capFit t 1 (· == 1) (fun c => c.r && c.w) (s.effAddr t 1 0) 32 16 = true ∧ s.ownPending t (objAddr s t 1) 32 false = false) := by
  decide +kernel

theorem test_witness_halt : let s := rig 0
    wellFormed (.halt (ct true)) = true ∧ s.whole = true ∧
    (∀ t ∈ s.actors (ct true), s.kernel t = true ∧ s.regs.evtSeq.get 0 (s.coreOf t / 96) ≤ (s.thread t).seen) := by
  decide +kernel

theorem test_witness_park : let s := (rig 0).updThread 16384 fun h => { h with inSave := true }
    wellFormed (.park (ct true)) = true ∧ s.whole = true ∧ (∀ t ∈ s.actors (ct true), (s.thread t).inSave = true) := by
  decide +kernel

/-! ## Witnesses: traps -/

theorem test_witness_trap : let s := rig 0
    wellFormed (.trap 0xA5 (ct true)) = true ∧ s.whole = true ∧ (∀ t ∈ s.actors (ct true), s.canTrap t = true) ∧
    (∀ t ∈ s.actors (ct true), (s.thread t).inSave = false) ∧ (∀ t ∈ s.actors (ct true), s.coreOf t % 96 = 0) := by
  decide +kernel

theorem test_witness_user : let s := rigOn 1 0 0
    s.whole = true ∧ (∀ t ∈ s.actors (ct true), s.canTrap t = true ∧ s.kernel t = false) ∧
    ([.wrsr 20 0 (ct true), .ctxsv 2 (ct true), .ctxld 2 (ct true), .halt (ct true), .sweep 2 (ct true), .svcget 2 (ct true),
      .svcput 2 (ct true), .fltrd 25 (ct true)] : List Instr).all
        (fun i => wellFormed i && (kernelOnly i == some (ct true))) = true := by
  decide +kernel

/-- The check of a form that fails first, where the thread of `rig` alone executes it and can trap. -/
def stopsWith (i : Instr) (s : State) : Option (BitVec 32 × BitVec 32) :=
  (formOf i).bind fun f =>
    if wellFormed i && s.whole && decide (s.actors f.ct = [16384]) && s.canTrap 16384 then firstFailure (f.checks s 16384) else none

/-- SourceTraps, the sources: the first, second and third one, of short, immediate, shuffle and float forms (R26, R58, R65). -/
theorem test_witness_sources : let c := ct false
    let p := setReg (rig 0) 512 20 5 15
    ([(.add 25 20 21 false c, p, Cause.poison, 20), (.add 25 20 24 false c, rig 0, Cause.format, 24), (.mad 24 20 21 false c, rig 0, Cause.format, 24),
      (.add16 20 24 false, rig 0, Cause.format, 24), (.addi 25 24 1 c, rig 0, Cause.format, 24), (.shr 25 24 20 false c, p, Cause.poison, 20),
      (.shfl 25 24 20 false c, p, Cause.poison, 20), (.ballot 25 20 false c, p, Cause.poison, 20), (.bfi 25 21 20 false c, p, Cause.poison, 20),
      (.fadd 25 24 20 false c, rig 0, Cause.format, 20), (.clz 25 20 false c, p, Cause.poison, 20)] :
      List (Instr × State × BitVec 32 × BitVec 32)).all (fun x => stopsWith x.1 x.2.1 == some x.2.2) = true := by
  decide +kernel

/-- SourceTraps, what comes after the sources: each check of a capability in the order of R68 and R175, the scope (R200), the port (R333), the
row (R303). -/
theorem test_witness_checks : let c := ct false
    let at_ (perm : BitVec 8) (off : Nat) : State := setCap (rig 0) 512 0 (Cap.make 0 perm 7 512 0x20000 off)
    let other : State := { (rig 0).updTask 2 fun k => { k with world := 3 } with
      worlds := [(0, World.fresh), (3, World.fresh)], owner := [(1, 3)] }
    let low : State := (rig 0).updTask 2 fun k => { k with record := { k.record with peak := 1 } }
    ([(.ldw 25 4 0 false c, rig 0, Cause.capTag, 0), (.ldw 25 2 0 false c, rig 0, Cause.capKind, 0x30000),
      (.stw 20 0 0 false c, at_ 0x01 64, Cause.capPerm, 0x20040), (.ldw 25 0 0 false c, at_ 0x7B 65534, Cause.capBounds, 0x2FFFE),
      (.ldw 25 0 0 false c, at_ 0x7B 66, Cause.misalign, 0x20042), (.fence 4 2 c, other, Cause.scopeDenied, insnWord (.fence 4 2 c)),
      (.precv 0 25 c, rig 0, Cause.portEdge, 0), (.movi 25 1 c, low, Cause.format, 0x100 ||| 25)] :
      List (Instr × State × BitVec 32 × BitVec 32)).all (fun x => stopsWith x.1 x.2.1 == some x.2.2) = true := by
  decide +kernel

/-- SourceTraps, what an object refuses: more arrivals than it waits for, more bytes than its count holds, a slot that is not held. -/
theorem test_witness_overrun : let c := ct false
    let a := setReg (rig 256) 512 9 5 1
    let b := { a with spad := ((rig 256).spadWrite 1 256 (leBytes 16 ({ BarObj.init 2 with bytes := 2 ^ 47 - 1 } : BarObj).enc.toNat) false).spad }
    ([a, b] : List State).all (fun s => s.whole && decide (s.actors c = [16384]) && s.canTrap 16384 && s.objFit 16384 1 16 [9] true &&
      decide (objAddr s 16384 1 = 256) && !s.granulesPoisoned 1 256 16 &&
      s.threads.all fun th => match th.2.stat with | .bwait _ _ _ _ => false | _ => true) = true ∧
    (a.objAt 1 256).pend < (a.reg 16384 9).toNat ∧ 2 ^ 47 - 1 < (b.objAt 1 256).bytes + (b.reg 16384 9).toNat ∧
    (rig 320).bufFit 16384 1 [20] = true ∧ (rig 320).bufFit 16384 1 [21] = true ∧
    ((rig 320).hdrAt 1 320).put (((rig 320).reg 16384 21).toNat % 2 ^ 24) = none ∧
    ((rig 320).hdrAt 1 320).rel (((rig 320).reg 16384 20).toNat % 2 ^ 24) = none := by decide +kernel

/-- AccessForms: the checks pass, and page 2 is not in the lease. -/
theorem test_witness_lease : let s := (rig 0).updTask 2 fun k => { k with lease := k.lease.filter fun b => b.block != 2 }
    ([.ldw 25 0 0 false (ct false), .stw 20 0 0 false (ct false), .aadd 25 0 22 2 (ct false)] : List Instr).all (fun i =>
      wellFormed i && (formOf i).any fun f => decide (s.actors f.ct = [16384]) && decide (firstFailure (f.checks s 16384) = none) &&
        !f.lease s 16384) = true ∧
    s.whole = true ∧ (s.thread 16384).ld < 63 ∧ (s.thread 16384).st < 63 ∧ (s.thread 16384).cp < 63 ∧
    ((span 0 33).all fun n => !s.rowsShort (crewOf 16384) n) = true ∧
    (s.tasks.find? (s.taskOf 16384)).any (fun k => k.code.isNone && decide (k.stage ≠ .completed)) = true := by decide +kernel

theorem test_witness_handler_fault :
    let none_ := (rig 0).updTask 2 fun k => { k with record := { k.record with handler := 0xFFFFFFFF } }
    let inside := (rig 0).updThread 16384 fun h => { h with handling := true }
    let saving := (rig 0).updThread 16384 fun h => { h with inSave := true }
    [none_, inside, saving].all (fun s => slotThreads s == [16384] && !s.guardedOff 16384 (ct true) && s.goesOn 16384 &&
      ((formOf (.ldw 25 4 0 false (ct true))).any fun f => firstFailure (f.checks s 16384) == some (Cause.capTag, 0)) &&
      (s.tasks.find? (s.taskOf 16384)).any fun k =>
        ((s.thread 16384).handling || (s.thread 16384).inSave || k.record.handler == 0xFFFFFFFF) && k.code.isNone &&
          k.stage != .completed) = true ∧
    wellFormed (.ldw 25 4 0 false (ct true)) = true ∧ wellFormed (.tret (ct true)) = true ∧ (saving.thread 16384).inSave = true := by
  decide +kernel

/-! ## Witnesses: issue and the operations in flight -/

/-- An operation of the thread of `rig`, put in flight as number 4. -/
def inFlight (s : State) (k : OpKind) : State := { s with ops := [(4, ⟨16384, 0, k⟩)], nextId := 5 }

/-- A machine of `rig` whose world maps the first gigabyte as it lies, through tables at 0x100000 and 0x110000. -/
def mapped (s : State) : State :=
  let s1 := (s.rawWrite 0x100000 (leBytes 8 0x110001)).rawWrite 0x110000 (leBytes 8 15)
  { s1 with worlds := s1.worlds.adjust 0 fun w => { w with root := 0x100000 } }.updTask 2 fun k => { k with gangs := [1] }

/-- GrantsInOrder: a free slot, with a group that has not yielded and with one that has; a thread due for a step; a group that waits
for rows. -/
theorem test_witness_grants : let s := { rig 0 with slots := [] }
    s.slots.find? 0 = none ∧ (s.ageReady 0).candidates 0 ≠ [] ∧
    (((s.ageReady 0).candidates 0).filter fun c => !(s.ageReady 0).didYield 0 c) ≠ [] ∧
    (let y := run (.yield (ct true)) (rig 0)
     y.slots.find? 0 = none ∧ (y.ageReady 0).candidates 0 ≠ [] ∧
       (((y.ageReady 0).candidates 0).filter fun c => !(y.ageReady 0).didYield 0 c) = []) ∧
    (let a := { rig 0 with clock := 100000 }
     (a.threads.find? 16384).isSome = true ∧ State.isReady (a.thread 16384) = true ∧
       (a.thread 16384).age < a.agedBy (a.thread 16384)) := by decide +kernel

/-- A quarter whose rows are all taken: 15 crews more hold 32 registers each above a floor of 8. -/
def crowded : State :=
  let s := (rig 0).updTask 2 fun k => { k with record := { k.record with floor := 8, peak := 32 } }
  let rows := (span (513 * 32) 480).map fun i => (i, (⟨0, 0, [(0, 1)], 1, [], false⟩ : Row))
  { s with
    slots := [(0, ⟨512, 1, 0, 65536, true, 32⟩)]
    rows := s.rows ++ rows
    crews := s.crews ++ (span 513 15).map fun c => (c, ⟨0, 0, 3, false⟩) }

/-- GrantsInOrder, the spill: the youngest crew of the quarter has registers above its floor. -/
theorem test_witness_spill : crowded.slots.find? 0 = some ⟨512, 1, 0, 65536, true, 32⟩ ∧ crowded.rowsShort 512 32 = true ∧
    crowded.spillVictim 0 512 = some 527 ∧ (crowded.poolRegs 527).drop (crowded.floorOf 527) ≠ [] ∧
    crowded.rowsShort 512 0 = false := by decide +kernel

/-- LoadsReturn: a load of one lane, and a ring load. -/
theorem test_witness_loads : let a := run (.ldw 25 0 0 false (ct false)) (rig 0)
    (a.ops.find? 4).any (fun o => o.kind.returns && decide (a.returning 4 o = [(4, o)]) && decide (a.loadGroup o = [(4, o)]) &&
      a.mayPerform 4 o && decide (o.thread = 16384) && decide (o.kind = .load (.plain 4 false) (.global 0x20040) 4 [25])) = true ∧
    (a.pending 16384 25).map (·.op) = [4] ∧ (a.memRead 16384 (.global 0x20040) 4).2.2.1 = false ∧
    (let r := run (.rld 25 0 22 (ct false)) (rig 0)
     (r.ops.find? 4).any (fun o => decide (o.kind = .ringLoad 0 0 2 25 0 false) && r.mayPerform 4 o && decide (o.thread = 16384)) = true ∧
       (r.pending 16384 25).map (·.op) = [4] ∧ (r.tiles.get Tile.clear (tileKey (gangOf 16384) 0 0)).poison = false) := by decide +kernel

/-- LoadsReturn, two lanes that read one place: the data comes to both at once, R69 (log entry 22). -/
theorem test_two_lanes_return : let k : OpKind := .load (.plain 1 true) (.scratch 1 0) 1 [25]
    let s := { rig 0 with ops := [(4, ⟨16384, 0, k⟩), (5, ⟨16385, 0, k⟩)] }
    (s.ops.find? 4).any (fun o => decide ((s.loadGroup o).map (·.1) = [4, 5]) && (s.loadGroup o).all fun y => s.mayPerform y.1 y.2) = true ∧
    (run (.loadDataReturn 4) s).ops = [] := by decide +kernel

/-- StoresPerform: to a scratchpad, to global memory where no line leaves the L1, and to a ring. -/
theorem test_witness_stores : let a := run (.stw 20 1 0 false (ct false)) (rig 64)
    let b := run (.stw 20 0 0 false (ct false)) (rig 64)
    let c := run (.rst 20 0 22 (ct false)) (rig 64)
    (a.ops.find? 4).any (fun o => o.kind.stores && a.mayPerform 4 o && (a.threads.find? o.thread).isSome &&
      decide (o.kind = .store (.scratch 1 64) (leBytes 4 8256) false)) = true ∧
    (b.ops.find? 4).any (fun o => b.mayPerform 4 o && decide (o.kind = .store (.global 0x20040) (leBytes 4 8256) false)) = true ∧
    b.keepsLines (b.coreOf 16384) (b.worldOf 16384) 0x20040 4 = true ∧ 0x20040 % 128 + 4 ≤ 128 ∧
    (c.ops.find? 4).any (fun o => c.mayPerform 4 o && decide (o.kind = .ringStore 0 0 2 0 8256) && decide (c.ringTail 1 0 ≤ 0)) = true := by decide +kernel

/-- AtomicsPerform, at a scratchpad: the lanes that act together are one. -/
theorem test_witness_atomics : let a := run (.aadd 25 1 22 2 (ct false)) (rig 0)
    (a.ops.find? 4).any (fun o => decide (a.atomGroup o (.scratch 1 0) = [(4, o)])) = true ∧
    (a.ops.find? 4).any (fun o => a.mayPerform 4 o && (a.threads.find? o.thread).isSome && decide (o.thread = 16384) &&
      decide (o.kind = .atomic .add 2 (.scratch 1 0) 4 [25] 2 0 0)) = true ∧
    (a.pending 16384 25).map (·.op) = [4] ∧ (a.spadLoad 1 0 4).2.1 = false := by decide +kernel

/-- FencesComplete: a fence, a flush of a line of global memory, and one in a scratchpad. -/
theorem test_witness_fences : let a := run (.fence 2 3 (ct false)) (rig 0)
    let b := run (.cflush 1 0 2 false (ct false)) (rig 0)
    let c := inFlight (rig 0) (.flush 0 2 (.scratch 1 64))
    (a.ops.find? 4).any (fun o => a.mayPerform 4 o && decide (o.kind = .fence 3 2)) = true ∧ a.listsForm = true ∧
    (b.ops.find? 4).any (fun o => b.mayPerform 4 o && (b.threads.find? o.thread).isSome &&
      decide (o.kind = .flush 1 2 (.global 0x20040))) = true ∧ b.listsForm = true ∧
    (c.ops.find? 4).any (fun o => c.mayPerform 4 o && (c.threads.find? o.thread).isSome) = true := by decide +kernel

/-- LinesMove: a dirty line that is written back, a clean one that a discard drops, a line that a load wants, a walk, a query. -/
theorem test_witness_lines : let a := { rig 0 with cbytes := [(cKey 0 0x20040, ⟨5, true⟩)] }
    let b := run (.ldw 25 0 0 false (ct false)) (rig 0)
    let c := mapped { rig 0 with tlb := [] }
    let d := run (.aqry 25 0 (ct false)) (rig 0)
    (a.listsForm = true ∧ a.held? 0 0x20040 = some ⟨5, true⟩ ∧ a.lineHeld (0x20040 / 128) = false ∧
      a.quadTakes (quadUnit 0) (0x20040 / 128) (a.cmeta.get CMeta.none (mKey 0 (0x20040 / 128))).world = true) ∧
    (let h := { rig 0 with cbytes := [(cKey 768 0x20040, ⟨5, true⟩)] }
     h.listsForm = true ∧ ¬ 768 < 768 ∧ h.lineHeld (0x20040 / 128) = false ∧ h.held? 768 0x20040 = some ⟨5, true⟩) ∧
    (b.fillOp 0 (0x20040 / 128) = some 4 ∧ 0x20040 / 128 < 2 ^ 45 ∧ b.listsForm = true ∧ b.cmeta = [] ∧
      (b.ops.find? 4).any (fun o => b.mayPerform 4 o && decide (o.kind = .load (.plain 4 false) (.global 0x20040) 4 [25])) = true) ∧
    (c.tasks.find? 2).any (fun k => decide (k.gangs.find? (fun g => c.gangWorld g == k.world && c.leased g (0x20040 / 65536) false) = some 1) &&
      (c.leaseBlock 1 (0x20040 / 65536) false).any fun b => c.mayUse k.world (b.frame * 65536 + 0x20040 % 65536) &&
        !c.tlbHit 0 2 b) = true ∧ (c.gangs.find? 1).map (·.task) = some 2 ∧
    (d.ops.find? 4).any (fun o => decide (o.kind = .query 0x20040 25) && (d.threads.find? o.thread).isSome) = true ∧
    (d.pending 16384 25).map (·.op) = [4] := by decide +kernel

/-! ## Witnesses: copies, landings, the matrix engine -/

/-- A copy of a thread of `rig` at a stage, with the barrier object at 256 or the buffer at 320. -/
def copyAt (object : Nat) (g : JobStage) : OpKind :=
  .copy ⟨0x007b1e00000000000200000000000040, 0x015b3e00000000000000000000000180, 2, 3, false, none, object, [], 0, g⟩

/-- An eager transfer of two bytes from page 2 to the scratchpad, read, with bytes written and not yet counted. -/
def underWay (wrote due : FMap Nat) : Moving :=
  let b (i : Nat) (x : BitVec 8) : Option (List ReadByte) := some [⟨x, false, some (.global (0x20040 + i)), false, 0⟩]
  ⟨⟨⟨0x007b1e00000000000200000000020040⟩, ⟨Cap.make 1 0x5B 15 512 0 384⟩, [(0x20040, 384), (0x20041, 385)], 1, 1, 0, 0, false, false, false, 0⟩,
    [], [b 0 5, b 1 7], 1, none, wrote, due, []⟩

/-- CopiesProceed, counting: some of a destination's bytes, and all that are left. -/
theorem test_witness_delivery : let m := underWay [(0, 2)] [(0, 2)]
    let s := inFlight (rig 0) (copyAt 256 (.moving m))
    (s.ops.find? 4).any (fun o => decide (o.kind = copyAt 256 (.moving m)) && (s.threads.find? o.thread).isSome) = true ∧
    2 ≤ m.due.get 0 0 ∧ State.moveDone { m with due := m.due.set 0 0 (2 - 2) } = true ∧
    State.moveDone { m with due := m.due.set 0 0 (2 - 1) } = false ∧ m.slot = none ∧ m.x.mcast = 0 ∧
    s.allocated 1 256 16 = true ∧ s.granulesPoisoned 1 256 16 = false := by decide +kernel

/-- CopiesProceed, the bytes of a transfer that has been read, counted and not. -/
theorem test_witness_written : let m := underWay [] []
    let s := inFlight (rig 0) (copyAt 256 (.moving m))
    m.got.length = m.x.pairs.length ∧ m.x.pairs ≠ [] ∧ m.x.mcast = 0 ∧ m.x.dbuf = false ∧ 0 < m.x.dsize ∧ m.wrote.get 0 0 = 0 ∧ m.due = [] ∧
    (s.ops.find? 4).any (fun o => match s.movedOf o.thread m 0 0 2 with
      | some (bs, e) => !e && !s.clash 4 o [] (bs.map (·.at_)) && decide (bs.length = 2) &&
          decide (bs.map fun b => (isGlobal b.at_, placeKey b.at_)).Nodup
      | none => false) = true ∧ s.allocated 1 256 16 = true := by decide +kernel

/-- CopiesProceed, the put of a filled slot. -/
theorem test_witness_put : let s := inFlight (rig 0) (copyAt 320 (.filling 8256))
    (s.ops.find? 4).any (fun o => (s.threads.find? o.thread).isSome) = true ∧ s.allocated 1 320 32 = true ∧
    s.granulesPoisoned 1 320 32 = false ∧ (s.hdrAt 1 320).firstBad = none ∧ ((s.hdrAt 1 320).put 8256).isSome = true := by decide +kernel

/-- CopiesProceed, a move: two bytes of page 2 to the scratchpad. -/
theorem test_witness_move_copy : let s := run (.cpy 1 0 22 3 false (ct false)) (rig 384)
    (s.ops.find? 4).any (fun o => (s.threads.find? o.thread).isSome && (match o.kind with
      | .copy j => decide (j.stage = .accepted) && decide (j.record = none) && (match s.choose 4 o j with
        | .move x s1 => !x.dbuf && decide (x.mcast = 0) && decide (x.pairs.length = 2) && decide (x.xform ≠ 3) &&
          (allSome (x.pairs.map (s1.readElem o.thread x 0))).isSome
        | _ => false)
      | _ => false)) = true := by decide +kernel

/-- CopiesProceed, a malformed record. -/
theorem test_witness_malformed : let s := run (.tcpy 3 1 25 3 false (ct false)) (rig 256)
    (s.ops.find? 4).any (fun o => (s.threads.find? o.thread).isSome && (match o.kind with
      | .copy j => decide (j.stage = .accepted) && s.allocated (gangOf o.thread) j.object 16 &&
        !s.granulesPoisoned (gangOf o.thread) j.object 16 && (match s.choose 4 o j with
        | .malformed _ => true
        | _ => false)
      | _ => false)) = true := by decide +kernel

/-- CopiesProceed, a recorded block: two bytes of page 2 over page 3, in a world with a quota; it is the copy's last block. -/
theorem test_witness_recording :
    let s := (inFlight (rig 0) (copyAt 0 (.recording 0x20040 0x30000 2 none false 0 []))).updWorld 0 fun w => { w with quota := 8 }
    (match s.rangePairs 16384 0x20040 0x30000 2 with
    | some ps => decide ((State.blockCuts ps).length = 1) && s.reenc.isEmpty && (s.ops.find? 4).any (fun o =>
          !s.clash 4 o [] (((State.blockCuts ps).getD 0 []).map fun p => .global p.1)) && (match (s.landFor (((State.blockCuts ps).getD 0 []).map (·.1))).entriesFor
          (s.worldOf 16384) none false ((s.landFor (((State.blockCuts ps).getD 0 []).map (·.1))).segments ((State.blockCuts ps).getD 0 [])) with
        | some [e] => decide (0 < e.len)
        | _ => false)
    | none => false) = true := by decide +kernel

/-- CopiesProceed, a recorded block for which no entry can be had: it takes the one of `looseEntry`, over the same bytes. -/
theorem test_witness_loose : let s := (inFlight (rig 0) (copyAt 0 (.recording 0x20040 0x30000 2 none false 0 []))).updWorld 0 fun w =>
      { w with used := Config.aliasTotal }
    (match s.rangePairs 16384 0x20040 0x30000 2 with
    | some ps => let s1 := s.landFor (((State.blockCuts ps).getD 0 []).map (·.1))
        (s1.entriesFor 0 none false (s1.segments ((State.blockCuts ps).getD 0 []))).isNone && (match State.pageSegs ((State.blockCuts ps).getD 0 []) with
        | [g] => decide ((s1.looseEntry 0 none false g).start = 0x30000) && decide ((s1.looseEntry 0 none false g).src = 0x20040) &&
            decide ((s1.looseEntry 0 none false g).len = 2)
        | _ => false)
    | none => false) = true := by decide +kernel

/-- CopiesProceed, a copy for the buffer at 320, whose slots are all taken: its record has been read, and it waits. -/
theorem test_witness_waits : let x : Xfer := { (underWay [] []).x with dbuf := true }
    let s := inFlight ((rig 0).setHdr 1 320 { (rig 0).hdrAt 1 320 with free := 0 }) (copyAt 320 (.waiting x))
    (s.hdrAt 1 320).firstBad = none ∧ (s.hdrAt 1 320).free = 0 ∧ s.allocated 1 320 32 = true ∧ s.granulesPoisoned 1 320 32 = false ∧
    (x.pairs.all fun p => x.pairs.all fun q => decide (q.2 + x.dsize - p.2 ≤ (s.hdrAt 1 320).slotb)) = true ∧
    ((run (.eagerCopy ⟨4, none, 0⟩) s).ops.find? 4).any (fun o => decide (o.kind = copyAt 320 (.waiting x))) = true := by decide +kernel

/-- An alias entry in LANDING over the first two bytes of page 3, taken from page 2. -/
def aliased : State :=
  { rig 0 with
    alias_ := [(0, ⟨~~~1, 2, 0, 0, false, 0, none, 0, 2, 48, 0x20040, 1, false⟩)]
    meta_ := [(0x30000 / 128, ⟨false, false, true, 0, 0⟩)] }

/-- LinesLand: the next line of an entry, `amat`, and a line of a snapshot. -/
theorem test_witness_landing : let s := run (.amat 0 22 3 (ct false)) (rig 0)
    (aliased.alias_.find? 0).any (fun e => decide (e.state = 2) &&
      decide ((span (e.dblk * 32) 32).find? e.shows = some (0x30000 / 128))) = true ∧ aliased.dependents (0x30000 / 128) = [] ∧
    (s.ops.find? 4).any (fun o => decide (o.kind = .materialise 0x20040 2 3) && s.mayPerform 4 o && (s.threads.find? o.thread).isSome &&
      (allSome ((span 0x20040 2).map fun a => (s.translate (s.coreOf o.thread) (gangOf o.thread) a false).2)).isSome) = true := by
  decide +kernel

/-- LinesLand, a line of a snapshot's area; ReadAfterWrite, a line that has not to leave. -/
theorem test_witness_area : let s := { rig 0 with snaps := [(3, ⟨700, [60], [(0x20000 / 128, 60 * 512)], [], [], [], World.fresh, [], [], [], [], [],
      [], [], [], [], [], [], [], [], [], [], [], [], []⟩)] }
    (s.snaps.find? 3).any (fun p => decide (p.todo.find? (fun xa => xa.2 == 60 * 512) = some (0x20000 / 128, 60 * 512))) = true ∧
    s.dependents (60 * 512) = [] ∧ (rig 0).keepsLines 0 0 0x20040 8 = true := by decide +kernel

/-- A load-stationary request of `mms`, granted. -/
def loading : State :=
  let s := run (.mms 1 0 (ct false)) (rig 0)
  match exec (.matrixGrant 0) s with
  | .next s' => s'
  | _ => s

/-- A pass of `mmp`, granted and permitted. -/
def passing : State :=
  let s := run (.mmp 1 0 (ct false)) (rig 64)
  { s with reqs := s.reqs.mapVals fun _ r => { r with granted := some 4, permit := true } }

/-- MatrixGrants: an entry that is ready, of a crew that has not retired and of one that has; one that has been for 8,192 cycles; a granted
pass that waits for its permit. -/
theorem test_witness_engine : let s := run (.mms 1 0 (ct false)) (rig 0)
    let p := { passing with reqs := passing.reqs.mapVals fun _ r => { r with permit := false } }
    (s.reqs.filter fun kr => kr.2.quad == 0 && s.entryReady kr.1 kr.2) ≠ [] ∧ (s.crews.find? 512).any (fun c => !c.retired) = true ∧
    (({ s with crews := s.crews.adjust 512 fun c => { c with retired := true } } : State).crews.find? 512).any (fun c => !c.retired) = false ∧
    (({ s.settled with clock := 8192 } : State).reqs.find? 4).any (fun r => decide (r.readyAt = some 0)) = true ∧
    (p.reqs.filter fun kr => kr.2.quad == 0 && kr.2.granted.isSome && !kr.2.permit &&
      (match kr.2.kind with | .pass _ _ _ => true | _ => false)) ≠ [] := by decide +kernel

/-- MatrixCompletes: operands that can be read, a sector of them ahead; a load, a pass and a saved plane whose turn it is. -/
theorem test_witness_completes : let l := { loading with reqs := loading.reqs.mapVals fun _ r => { r with fed := true } }
    let p := { passing with reqs := passing.reqs.mapVals fun _ r => { r with fed := true } }
    let v := { l with reqs := l.reqs.mapVals fun _ r => { r with kind := .restore ⟨some 512, 5, []⟩ true } }
    (passing.reqs.find? 4).any (fun r => State.reading r && (State.blockOf r.kind).isSome && (passing.readReq r).isSome &&
      decide ((passing.readSector r 0).sectors.length = 1)) = true ∧
    (l.reqs.find? 4).any (fun r => r.fed && !r.passed && l.turnOf r && (l.threads.find? r.thread).isSome &&
      (match r.kind with | .load _ => true | _ => false)) = true ∧
    (v.reqs.find? 4).any (fun r => r.fed && !r.passed && v.turnOf r) = true ∧
    (p.reqs.find? 4).any (fun r => r.fed && !r.passed && p.turnOf r && (p.threads.find? r.thread).isSome &&
      (match r.kind with
      | .pass b _ _ => (MatPath.of b.afmt b.bfmt).any (fun m => m.kind != 3) && b.op == 2 && !b.swap && decide (b.m ≤ 128) && decide (b.n ≤ 128)
      | _ => false)) = true := by decide +kernel

/-- MatrixCompletes, a bias range that is read again: it lies in no sector of the operands. -/
theorem test_witness_bias :
    let p := { passing with reqs := passing.reqs.mapVals fun _ r => { r with
      fed := true, bias := List.replicate 128 none
      kind := match r.kind with
        | .pass b pos _ => .pass { b with consumed := 0 } pos (some ⟨0, 4096, 0, 0, 8, 0, false, true, 512, 16⟩)
        | k => k } }
    (p.reqs.find? 4).any (fun r => r.fed && decide (r.bias.length = 128) && ((State.operandUnits r).all fun a => a / 64 != 64) &&
      (match r.kind with
      | .pass b _ (some e) => b.consumed == 0 && e.bias != 0
      | _ => false)) = true := by decide +kernel

/-- MatrixCompletes, an epilogue of `repi` at a tile of one row. -/
def draining : State :=
  let tl := (rig 0).setTile 1 0 0 fun t => { t with rows := 1, cols := 4 }
  { tl with
    ringH := [(ringKey 1 0, 1)]
    reqs := [(4, ⟨1, 0, 16384, .drain ⟨0, 0, 0, 0, 8, 0, false, true, 512, 16⟩, 0, true, none, false, false, none, false, true, [], [], [], [], [], some 4⟩)]
    nextId := 5 }

theorem test_witness_epilogue : (draining.reqs.find? 4).any (fun r => (State.epiOf r).isSome && draining.epiReady r && (draining.threads.find? r.thread).isSome &&
    (match r.kind with
    | .drain e => draining.epiSound r e
    | _ => false)) = true ∧ (draining.tileAt 1 0 (draining.ringTail 1 0)).rows = 1 := by decide +kernel

/-- MatrixCompletes, `rrel` and `rclr` where they wait for nothing, and where the counter of `rrel` has a tile to release. -/
def ringing (k : ReqKind) : State :=
  { draining with reqs := [(4, ⟨1, 0, 16384, k, 0, true, none, false, false, none, false, false, [], [], [], [], [], none⟩)] }

theorem test_witness_ring : let s := ringing .release
    let c := ringing (.clear 0 false)
    (s.reqs.find? 4).any (fun r => (s.threads.find? r.thread).isSome && (s.stream r.gang r.quad).all fun kx =>
      kx.2.epiNo.all (fun n => decide (4 < n)) && (match kx.2.kind with | .release => decide (4 ≤ kx.1) | _ => true) &&
        !(kx.2.kind.array && kx.2.kind.targets.contains (s.ringTail r.gang r.quad))) = true ∧ s.ringTail 1 0 < s.ringHead 1 0 ∧
    (c.reqs.find? 4).any (fun r => (c.threads.find? r.thread).isSome && (c.stream r.gang r.quad).all fun kx =>
      !(decide (kx.1 < 4) && kx.2.kind.array && kx.2.kind.targets.contains 0)) = true ∧ c.ringTail 1 0 ≤ 0 ∧
    0 < ({ c with ringT := [(ringKey 1 0, 1)] } : State).ringTail 1 0 := by decide +kernel

/-- A queue of world 0 with nothing in it. -/
def queue0 : Queue := ⟨0, 0x20000, 4, 0, 0, 0, 0, [], 0, [], 0, 1, 0, 0, 0, 0, 0, 0, 0, 0⟩

/-- A pass that reads a line of poison, with no relaunch asked for, and with some left or none. -/
def striking (flags : BitVec 16) (limit : Nat) : State :=
  let s := passing.updTask 2 fun k => { k with record := { k.record with flags := flags, rlimit := limit } }
  { s with spadPoison := [(spadKey 1 0 / 16, true)], queues := [(0, queue0)] }

/-- OperandFaultKills, in its three cases. -/
theorem test_witness_operand_fault : ([striking 8 0, striking 9 0, striking 9 1] : List State).all (fun s =>
    (s.reqs.find? 4).any (fun r => s.operandFails r && (match s.gangs.find? r.gang with
      | some g => (s.tasks.find? g.task).any fun k => (s.queues.find? k.queue).isSome && k.doomed.isNone
      | none => false) && decide (r.gang ≠ s.nextId))) = true ∧
    ((striking 8 0).tasks.find? 2).any (fun k => !k.record.flags.getLsbD 0) = true ∧
    ((striking 9 0).tasks.find? 2).any (fun k => k.record.flags.getLsbD 0 && decide (k.record.rlimit ≤ k.relaunches)) = true ∧
    ((striking 9 1).tasks.find? 2).any (fun k => k.record.flags.getLsbD 0 && decide (k.relaunches < k.record.rlimit)) = true := by
  decide +kernel

/-! ## Witnesses: waiting threads, calls, tasks -/

/-- The thread of `rig` in a standing. -/
def standing (x : TStat) : State := (rig 0).updThread 16384 fun h => { h with stat := x }

/-- WaitersWake: a bound that passes at the very clock, an entry behind one of another thread, a parked thread whose turn has come, a
`fetchw` not yet registered. -/
theorem test_witness_wakes : let b := standing (.bwait 256 0 4 (some 0))
    let f := { rig 0 with flights := [⟨16384, 20000, 0, ⟨1, 1, 0⟩, []⟩, ⟨20000, 16384, 0, ⟨5, 1, 0⟩, []⟩] }
    let p := { standing (.parked (.recv 0)) with ports := [(portKey 16384 0, [⟨5, 1, 0⟩])] }
    let q := standing (.parked (.acquire 320))
    let w := standing (.fetchw 384 9)
    (b.thread 16384).stat = .bwait 256 0 4 (some 0) ∧ (b.gangs.find? (gangOf 16384)).map (·.stat) = some .resident ∧ 0 ≤ b.clock ∧
    f.flights = [⟨16384, 20000, 0, ⟨1, 1, 0⟩, []⟩] ++ ⟨20000, 16384, 0, ⟨5, 1, 0⟩, []⟩ :: [] ∧
    ([⟨16384, 20000, 0, ⟨1, 1, 0⟩, []⟩] : List Flight).all (fun x => x.dest != 16384 || x.dir != 0) = true ∧
    (f.thread 16384).stat ≠ .exited ∧
    parkClear p 16384 (.recv 0) = true ∧ parkTurn p 16384 (.recv 0) = true ∧
    parkClear q 16384 (.acquire 320) = true ∧ parkTurn q 16384 (.acquire 320) = true ∧
    (w.thread 16384).stat = .fetchw 384 9 ∧ w.goesOn 16384 = true ∧
    (w.fetches.values.filter fun f => f.gang == gangOf 16384).length < 16 := by decide +kernel

/-- A batch of one caller, lane 0 of crew 512. -/
def oneCall (num : BitVec 8) : State := { standing (.svc 900) with batches := [(900, ⟨num, 0, 0, 5, 512, [(0, 4, [])], none, none, false⟩)] }

/-- CallsAnswered: a batch of a bound number, one of another, one whose buffer lies outside the lease, and one whose service context has
failed. -/
theorem test_witness_batches : ([oneCall 3, oneCall 9] : List State).all (fun s => (s.batches.find? 900).any (fun b => b.sent.isNone && !b.aborted &&
      (b.callers.all fun c => s.ops.values.all fun o => decide (o.thread ≠ b.crew * 32 + c.1) || !fenceWaits o.kind) &&
      decide (b.callers = [(0, 4, [])]) && decide (b.crew * 32 + 0 = 16384)) &&
      (s.threads.all fun th => th.2.stat != .halted || s.goesOn th.1) && decide ((s.thread 16384).stat = .svc 900) && s.goesOn 16384 &&
      !s.dirtyRewriting) = true ∧
    bufferDenied (oneCall 3) 1 3 [] = false ∧ bufferDenied (oneCall 3) 1 3 [0, 0, 0, 4] = true ∧
    ((oneCall 3).batches.find? 900).map (·.num) = some 3 ∧ ((oneCall 9).batches.find? 900).map (·.num) = some 9 ∧
    (({ oneCall 3 with batches := (oneCall 3).batches.adjust 900 fun b => { b with aborted := true } } : State).batches.find? 900).any (·.aborted) = true := by
  decide +kernel

/-- CallsAnswered, a submission under way. -/
theorem test_witness_launch_op : let s := run (.tlaunch 3 26 (ct true)) (rig 0)
    (s.ops.find? 4).any (fun o => decide (o.kind = .launch 0x30000 26) && s.mayPerform 4 o &&
      decide ((s.ops.filter fun ko => ko.2.insn == o.insn) = [(4, o)]) && (s.threads.find? o.thread).isSome) = true ∧
    (s.pending 16384 26).map (·.op) = [4] ∧ (s.pending 16384 27).map (·.op) = [4] := by decide +kernel

/-- The queue 0 of a world whose memory is mapped. -/
def office : State := { mapped (rig 0) with queues := [(0, queue0)] }

/-- A started device whose world 0 maps the first gigabyte as it lies, with queue 0 at 0x20000: its slot 0 names the record at
0x30000, whose capability fields cannot be minted, and its slot 1 no record. -/
def plain : State :=
  { State.reset with
    boot := { Boot.reset with stage := 7 }
    mem := [(0x20002, 3), (0x20010, 8), (0x3000F, 1), (0x3001F, 1), (0x3005F, 1), (0x100000, 1), (0x100002, 0x11), (0x110000, 15)]
    worlds := [(0, { World.fresh with tdisp := .run, root := 0x100000 })]
    queues := [(0, queue0)] }

theorem walk_low (s : State) (va : Nat) (h : va < 2 ^ 30) (hw : (s.worlds.find? 0).map (·.root) = some 0x100000)
    (h0 : s.ptEntry 0 0x100000 = ⟨true, false, false, false, 0x110001⟩) (h1 : s.ptEntry 0 0x110000 = ⟨true, true, true, true, 15⟩)
    (hb : s.boot.stage = 7 ∧ s.boot.frameN = 0) : s.walk 0 va = some ⟨va, true, true, 2 ^ 30⟩ := by
  unfold State.walk
  cases hx : s.worlds.find? 0 with
  | none => rw [hx] at hw; cases hw
  | some w =>
    rw [hx] at hw
    have hr : w.root = 0x100000 := by simpa using hw
    have a0 : va / 2 ^ 43 % 8192 = 0 := by omega
    have a1 : va / 2 ^ 30 % 8192 = 0 := by omega
    have a2 : ¬ 2 ^ 56 ≤ va := by omega
    have a3 : va % 1073741824 = va := by omega
    have hp : s.present va = true := by
      simp only [State.present, hb, isPool, State.localTop]
      have : va / 2 ^ 51 = 0 := by omega
      simp only [this]
      simp
      omega
    simp only [hr, ptLevels, State.walkFrom, a0, a1, a2, a3, if_false, Nat.zero_mul, Nat.add_zero, h0]
    simp [h1, hp]

theorem span_lt {a n x : Nat} (h : x ∈ span a n) : x < a + n := by
  induction n generalizing a with
  | zero => simp [span] at h
  | succ n ih =>
    simp only [span, List.mem_cons] at h
    rcases h with rfl | h
    · omega
    · have := ih h
      omega

theorem readRecord_low (s : State) (va : Nat) (h : va + 640 ≤ 2 ^ 30) (hw : ∀ a, a < 2 ^ 30 → s.walk 0 a = some ⟨a, true, true, 2 ^ 30⟩)
    (hu : ∀ a, a < 2 ^ 30 → s.mayUse 0 a = true) : (s.readRecord 0 va).isSome = true := by
  unfold State.readRecord
  dsimp only
  rw [if_pos]
  · rfl
  · simp only [List.all_map, List.all_eq_true, Function.comp]
    intro a ha
    have : a < 2 ^ 30 := by
      have := span_lt ha
      omega
    simp [State.worldByte, hw a this, hu a this]

theorem plain_tables : (plain.worlds.find? 0).map (·.root) = some 0x100000 ∧
    plain.ptEntry 0 0x100000 = ⟨true, false, false, false, 0x110001⟩ ∧ plain.ptEntry 0 0x110000 = ⟨true, true, true, true, 15⟩ ∧
    plain.boot.stage = 7 ∧ plain.boot.frameN = 0 := by decide +kernel

theorem plain_mayUse (a : Nat) (h : a < 2 ^ 30) : plain.mayUse 0 a = true := by
  have : a / 2251799813685248 % 2 = 0 := by omega
  simp [State.mayUse, State.listed, State.frameOwner, isPool, plain, State.reset, FMap.get, FMap.find?, this]

theorem plain_record (va : Nat) (h : va + 640 ≤ 2 ^ 30) : (plain.readRecord 0 va).isSome = true :=
  readRecord_low plain va h
    (fun a ha => walk_low plain a ha plain_tables.1 plain_tables.2.1 plain_tables.2.2.1 plain_tables.2.2.2) fun a h => plain_mayUse a h

theorem readRecord_eq {s : State} {w va : Nat} {r : TaskRec} (h : s.readRecord w va = some r) :
    r = TaskRec.dec (((span va 640).map (s.worldByte w)).map fun b => b.getD 0) fun i => s.worldTag w (va + 16 * i) := by
  unfold State.readRecord at h
  dsimp only at h
  split at h
  · exact (Option.some.inj h).symm
  · cases h

theorem plain_fields : ([0, 0x10, 0x50] : List Nat).foldl (State.mintField 0 0x30000) plain = plain ∧
    (TaskRec.dec (((span 0x30000 640).map (plain.worldByte 0)).map fun b => b.getD 0)
      fun i => plain.worldTag 0 (0x30000 + 16 * i)).regs = [] ∧
    (TaskRec.dec (((span 0x30000 640).map (plain.worldByte 0)).map fun b => b.getD 0)
      fun i => plain.worldTag 0 (0x30000 + 16 * i)).queue = 0 := by decide +kernel

/-- CallsAnswered, a submission: a record that can be read, whose queue has room, and one that cannot. -/
theorem test_witness_launch : plain.worldOf 16384 = 0 ∧ plain.readRecord 0 (2 ^ 40) = none ∧
    ((plain.queues.find? 0).any (fun q => q.world == 0) = true ∧ plain.openTasks 0 < 65535) ∧
    ∃ r, plain.readRecord 0 0x30000 = some r ∧ r.queue = 0 := by
  refine ⟨by decide +kernel, by decide +kernel, by decide +kernel, ?_⟩
  cases h : plain.readRecord 0 0x30000 with
  | none =>
    have := plain_record 0x30000 (by decide)
    rw [h] at this
    cases this
  | some r => exact ⟨r, rfl, (congrArg TaskRec.queue (readRecord_eq h)).trans plain_fields.2.2⟩

/-- A `fetchw` request of gang 1. -/
def asking (handle : BitVec 64) : State := { office with fetches := [(900, ⟨1, 384, handle⟩)] }

/-- A task at a stage in queue 0, with code in page 1 and its completion object in page 3; its grid has three gangs. -/
def taskAt (s : State) (t : Nat) (stage : Stage) : State :=
  match s.tasks.find? 2 with
  | none => s
  | some k =>
    { s with tasks := s.tasks.put t { k with
        record := { k.record with
          code := ⟨Cap.make 2 0x05 7 512 0x10000 0, true⟩, done := ⟨Cap.make 0 0x7B 7 512 0x30000 0, true⟩, ngx := 3 }
        stage := stage, handle := 9, next := 0, gangs := [], lease := [] } }

/-- CallsAnswered and FetchwAdopts: a handle that names no task, and one that names a task with a lease and gangs left. -/
theorem test_witness_fetch : let s := taskAt (asking 9) 3 .leased
    ([asking 9, s] : List State).all (fun s => (s.fetches.find? 900).any (fun f =>
      (s.fetches.all fun kf => decide (kf.2.gang ≠ f.gang) || decide (900 ≤ kf.1)) && s.allocated f.gang f.la 32 &&
      decide ((s.gangs.find? f.gang).map (·.stat) ≠ some .residue) && decide (f.gang ≠ s.nextId) && decide (f.handle = 9) &&
      decide (f.gang = 1))) = true ∧
    (asking 9).byHandle ((asking 9).gangWorld 1) 9 = none ∧
    (s.byHandle (s.gangWorld 1) 9).any (fun tk => decide (s.tasks.find? tk.1 = some tk.2) && tk.2.code.isNone && tk.2.doomed.isNone &&
      decide (tk.2.stage = .leased) && decide (s.requeued tk.2 = []) && decide (tk.2.next < tk.2.record.gangCount)) = true := by
  decide +kernel

/-- TasksStart: the head of a queue, a task that is denied its lease, one that is not, and a gang to be placed. -/
theorem test_witness_start :
    let h := (taskAt office 3 .queued).updQueue 0 fun q => { q with waiting := [3] }
    let d := (taskAt office 3 .window).updTask 3 fun k => { k with record := { k.record with code := ⟨0, false⟩ } }
    let l := taskAt office 3 .window
    let p := (taskAt office 3 .leased).updQueue 0 fun q => { q with deficit := 1 }
    (h.queues.find? 0).map (·.waiting) = some [3] ∧ (h.tasks.find? 3).isSome = true ∧
    (h.worlds.find? 0).any (fun w => decide (w.window.length < 256)) = true ∧
    ((h.queuesOf 0).all fun kq => decide (kq.2.waiting = []) || decide (0 ≤ kq.2.headAt)) = true ∧
    (d.tasks.find? 3).any (fun k => decide (k.stage = .window) && k.code.isNone && !d.heldBack 3 k && d.leaseDenied k) = true ∧
    (l.tasks.find? 3).any (fun k => decide (k.stage = .window) && k.code.isNone && !l.heldBack 3 k && !l.leaseDenied k &&
      !l.leaseUnswept k && (let pages := State.poolPages (l.leaseOf k.world k.record.cover)
        l.setsFit pages && pages.all fun p => decide ((l.frames.filter fun kf => l.poolSet kf.1 == l.poolSet p).length + l.mates pages p ≤ 16))) = true ∧
    p.placingStopped 0 = false ∧ p.servedClass 0 = some 0 ∧
    (match p.pendings 0 0 with
    | [(q, t, k, none)] => (p.queues.find? q).any (fun x => decide (0 < x.deficit)) &&
        (p.fitPending 0 (t, k, none)).any (fun sp => !sp.isEmpty) && decide (p.tasks.find? t = some k)
    | _ => false) = true := by decide +kernel

/-- GangsRetire: a team whose one thread has exited, and a gang whose one team is gone. -/
theorem test_witness_retire : let s := standing .exited
    let g := (rig 0).updGang 1 fun g => { g with deadTeams := 1 }
    (s.gangs.find? 1).any (fun x => decide (x.stat = .resident) && !x.deadTeams.getLsbD 0 &&
      (s.tasks.find? x.task).any fun k => decide (0 < k.record.teams)) = true ∧
    (s.threads.all fun th => decide (gangOf th.1 ≠ 1) || decide (teamIdx th.1 ≠ 0) || decide (th.2.stat = .exited)) = true ∧
    s.gangOps (fun t => gangOf t == 1 && teamIdx t == 0) = [] ∧ s.reqs = [] ∧
    (g.gangs.find? 1).any (fun x => decide (x.stat = .resident)) = true ∧ g.liveTeams 1 = 0 ∧ g.gangOps (fun t => gangOf t == 1) = [] ∧
    g.reqs = [] := by decide +kernel

/-- TasksEnd: a task whose gangs are over, with a completion object that can be written, and one that a fault has ended; a task of a world
in ERROR whose thread has stopped, with the code WORLD_POISON and without; a doomed task. -/
theorem test_witness_end :
    let c := (taskAt office 3 .leased).updTask 3 fun k => { k with next := 3 }
    let f := c.updTask 3 fun k => { k with code := some .handlerFault, next := 1 }
    let e := { standing .stopped with worlds := (rig 0).worlds.adjust 0 fun w => { w with tdisp := .error } }
    let d := (taskAt office 3 .leased).updTask 3 fun k => { k with doomed := some .matrixOperand }
    (c.tasks.find? 3).any (fun k => (c.worlds.find? k.world).isSome && decide (k.stage = .leased) && k.code.isNone && k.doomed.isNone &&
      decide (k.next = k.record.gangCount) && c.gangsOver k && !c.taskBusy 3 && !c.completionHeld k && k.record.doneOk &&
      ((c.pushWorld k.world).walk k.world k.record.done.cap.cursor).any fun x =>
        (c.pushWorld k.world).mayUse k.world x.pa && decide (x.pa % 16 = 0)) = true ∧ c.alias_ = [] ∧
    (f.tasks.find? 3).any (fun k => (f.worlds.find? k.world).isSome && decide (k.stage ≠ .completed) && decide (k.code = some .handlerFault) &&
      f.gangsOver k && !f.taskBusy 3 && !f.completionHeld k && (f.queues.find? k.queue).isSome &&
      ((f.pushWorld k.world).walk k.world k.record.done.cap.cursor).any fun x => !((f.pushWorld k.world).lineMeta (x.pa / 128)).poison) = true ∧
    (f.regs.faultLog.get [] 0).length < 256 ∧ (f.threads.all fun th => th.2.stat != .halted || f.goesOn th.1) = true ∧
    ([e, e.updTask 2 fun k => { k with code := some .worldPoison }] : List State).all (fun e => (e.tasks.find? 2).any fun k =>
      (e.worlds.find? k.world).any (fun w => decide (w.tdisp = .error)) && (k.code.isNone || decide (k.code = some .worldPoison)) &&
        decide (k.stage ≠ .completed)) = true ∧
    (e.threads.all fun th => decide (e.taskOf th.1 ≠ 2) || decide (th.2.stat = .stopped)) = true ∧
    (d.tasks.find? 3).any (fun k => decide (k.doomed = some .matrixOperand) && d.gangsOver k && k.code.isNone &&
      decide (k.stage ≠ .completed)) = true := by decide +kernel

/-! ## Witnesses: pre-emption, pages, sweeps, the device -/

/-- `office` with settings of the gang's record, and its queue 0. -/
def guard_ (save restore : Nat) (s : State) : State :=
  s.updTask 2 fun k => { k with record := { k.record with save := save, restore := restore } }

/-- The world of `office` in a standing of checkpoints. -/
def worldAs (f : World → World) (s : State) : State := { s with worlds := s.worlds.adjust 0 f }

/-- PreemptAndSave, `PREEMPT`: for a checkpoint on either path; for a world that does not run; for a gang of a higher class that does
not fit. -/
theorem test_witness_preempt :
    let c := worldAs (fun w => { w with trigger := true }) office
    let p := guard_ 64 64 c
    let r := worldAs (fun w => { w with restoring := true }) office
    let n := { rig 0 with
      worlds := [(0, World.fresh), (3, World.fresh)], tasks := (rig 0).tasks.adjust 2 fun k => { k with world := 3 } }
    let v := ((taskAt office 3 .leased).updTask 3 fun k => { k with cls := 1, record := { k.record with spad := 393216 } }).updTask 2
      fun k => { k with record := { k.record with spad := 393216 } }
    let v := match v.gangs.find? 1 with
      | some g => { v with gangs := v.gangs ++ (span 1 7).map fun i => (9 + i, { g with cores := [(0, 96 * i)], placed := 2 }) }
      | none => v
    ([c, p, r] : List State).all (fun s => (s.gangs.find? 1).any (fun x => decide (x.stat = .resident) && x.preempt.isNone &&
      (s.tasks.find? x.task).any fun k => k.world == 0) && s.listsForm && (s.snaps.find? 0).isNone &&
      (s.threads.all fun th => !th.2.handling) && (s.handlerOk 16384 64)) = true ∧
    (c.worlds.find? 0).any (·.trigger) = true ∧ (r.worlds.find? 0).any (·.restoring) = true ∧
    (p.tasks.find? 2).any (fun k => decide (k.record.save ≠ 0xFFFFFFFF) && decide (k.record.restore ≠ 0xFFFFFFFF)) = true ∧
    (n.worlds.find? 3).any (fun w => !w.running) = true ∧ (n.tasks.find? 2).any (fun k => k.world == 3) = true ∧
    v.roomVictim 0 1 1 = true := by decide +kernel

/-- PreemptAndSave, the saves and the swap. -/
theorem test_witness_save :
    let sv (x : TStat) (p : Option Bool) : State :=
      ({ standing x with queues := [(0, { queue0 with swapthr := 1 })], clock := 1024 } : State).updGang 1 fun g => { g with preempt := p }
    let k := sv .saved (some true)
    let h := sv .stopped (some false)
    let b := sv (.bwait 256 0 4 none) none
    let w := (sv (.bwait 256 0 4 (some 9)) none).updGang 1 fun g => { g with stat := .swapped, wake := some ⟨256, 1, some 9⟩ }
    let z := (sv (.bwait 256 0 4 (some 9)) none).updGang 1 fun g => { g with stat := .swapped, wake := some ⟨256, 0, some 9⟩ }
    ([k, h, b, w] : List State).all (fun s => (s.gangs.find? 1).any (fun x =>
      (s.tasks.find? x.task).any fun k => (s.queues.find? k.queue).any fun q => decide (q.swapthr ≠ 0)) && s.reqs.isEmpty && s.flights.isEmpty &&
      !s.dirtyRewriting) = true ∧
    (k.gangs.find? 1).any (fun x => decide (x.stat = .resident) && decide (x.preempt = some true)) = true ∧
    (k.threads.all fun th => decide (th.2.stat = .saved)) = true ∧ k.gangOps (fun t => gangOf t == 1) = [] ∧ k.reqsLeft 1 = false ∧
    (h.gangs.find? 1).any (fun x => decide (x.preempt = some false)) = true ∧ (h.threads.all fun th => decide (th.2.stat = .stopped)) = true ∧
    h.saveWaits 1 = false ∧ h.reqsLeft 1 = false ∧ (h.gangs.find? 1).any (fun x => h.fwdRoom ((h.forwardsOf 1 x).map (·.core))) = true ∧
    b.bwaitAll 1 = some (256, 0) ∧ 0 + 1 * 1024 ≤ b.clock ∧ (b.gangs.find? 1).any (fun x => x.preempt.isNone && b.fwdRoom x.liveCores.values) = true ∧
    (w.gangs.find? 1).any (fun x => decide (x.stat = .swapped) && x.wake.any fun k => decide (w.objPhase 1 k.la ≠ k.phase)) = true ∧
    (z.gangs.find? 1).any (fun x => x.wake.any fun k => k.bound.any fun b => decide (b ≤ z.clock)) = true := by
  decide +kernel

/-- A Pool page in a frame, and its number. -/
def poolPage : Nat := 2 ^ 35

/-- PagesMove: a shootdown that changes nothing, one that ends a task and one that gives a lease pages of the Pool; an eviction; the two
steps of re-enciphering; a sweep of a frame. -/
theorem test_witness_pages :
    let n := (mapped (rig 0)).rawWrite 0x110000 [0]
    let v := { (mapped (rig 0)).rawWrite 0x110000 (leBytes 8 (2 ^ 51 + 15)) with
      extents := [(900, ⟨0, 2 ^ 51, 2 ^ 30, none⟩)], boot := { (rig 0).boot with frameN := 1 } }
    let e := { rig 0 with frames := [(poolPage, ⟨0, 0, 0⟩)] }
    let r := { rig 0 with reenc := [poolPage] }
    let c := { rig 0 with poolCtr := [(poolPage * 512, BitVec.allOnes 56)] }
    let u := { rig 0 with unswept := [9] }
    ((mapped (rig 0)).tasks.all fun kt => !(mapped (rig 0)).narrowed kt.2 3 && decide ((mapped (rig 0)).pagesNew 0 3 kt.2 = [])) = true ∧
    (v.tasks.find? 2).any (fun k => decide ((v.tasks.filter fun kt => kt.2.world == 0 && kt.2.stage == .leased) = [(2, k)]) && !v.narrowed k 3 &&
      decide (v.pagesNew 0 3 k = [poolPage + 3]) &&
      ((v.pagesLeft 0 3 k).foldl (fun s p => s.pin p false) v).setsFit (v.pagesNew 0 3 k).eraseDups) = true ∧
    (n.tasks.find? 2).any (fun k => n.narrowed k 3 && decide (k.stage = .leased) && k.code.isNone) = true ∧
    (standing .stopped).taskAtBoundary 2 = true ∧
    (e.frames.find? poolPage).any (fun f => e.lruOf poolPage f) = true ∧ e.cmeta = [] ∧ e.alias_ = [] ∧
    isPool (poolPage * 65536) = true ∧ poolPage ∈ r.reenc ∧ poolPage ∉ c.reenc ∧ poolPage * 512 / 512 = poolPage ∧
    c.poolCtr.find? (poolPage * 512) = some (BitVec.allOnes 56) ∧ 9 ∈ u.unswept ∧ u.reenc = [] ∧
    (mapped (rig 0)).recordingAt 0 3 = false ∧ v.recordingAt 0 3 = false ∧ n.recordingAt 0 3 = false ∧
    u.rangeBusy (9 * 65536) (9 * 65536 + 65536) = false := by decide +kernel

/-- SweepsRevoke: a sweep that runs, one whose walk is over; a die whose threads are not halted. -/
theorem test_witness_sweeps :
    let s := { rig 0 with sweeps := [(0, ⟨[(0x20000, 0x30000)], [(0x30000, 0)], 0, false⟩)] }
    let w := { rig 0 with sweeps := [(0, ⟨[(0x20000, 0x30000)], [(0x30000, 0)], 1, true⟩)] }
    let h := standing .halted
    (s.sweeps.find? 0).isSome = true ∧ s.marked 0 0x20000 = true ∧ s.capValid 16384 0 = true ∧
    (w.sweeps.find? 0).any (fun r => r.walked && decide (r.descs = [(0x30000, 0)]) && !w.reportHeld r.descs) = true ∧ w.alias_ = [] ∧ 0x30000 % 16 = 0 ∧
    w.mayUse 0 0x30008 = true ∧ w.mayUse 0 0x3000C = true ∧ ({ w with owner := [(3, 5)] } : State).mayUse 0 0x30008 = false ∧
    h.listsForm = true ∧ (h.threads.all fun th => th.2.stat != .halted || h.goesOn th.1) = true ∧ (h.thread 16384).stat = .halted ∧
    h.coreOf 16384 / 96 = 0 := by decide +kernel

/-- DeviceBoots: each failing check, and none; the first write of the features accepted, and a second; an image taken, and refused. -/
theorem test_witness_boots :
    let r : BootReport := ⟨true, true, [0, 1, 2, 3, 4, 5, 6, 7, 8], true, true, [64, 0, 65]⟩
    let b := { State.reset with boot := { Boot.reset with stage := 6 } }
    let k := { State.reset with worlds := [(0, World.fresh), (3, { World.fresh with tdisp := .locked })] }
    State.reset.boot.imageOk = true ∧ (∀ i ∈ r.ids, i ∈ State.reset.boot.cert) ∧ (∀ i ∈ State.reset.boot.cert, i ∈ r.ids) ∧
    ([({ r with romOk := false }, 1), ({ r with imageOk := false }, 2), ({ r with ids := [0] }, 3), ({ r with hbmOk := false }, 4),
      ({ r with diesOk := false }, 5), (r, 6)] : List (BootReport × Nat)).all (fun x =>
        match exec (.deviceReset x.1) State.reset with
        | .next s => s.boot.stage == x.2 && (x.2 != 6 || s.boot.slices == [(0, 64), (1, 1), (2, 64)])
        | _ => false) = true ∧
    b.boot.stage = 6 ∧ b.boot.halt = 0 ∧ b.boot.accepted = false ∧ (rig 0).boot.accepted = true ∧
    State.reset.boot.halt = 0 ∧ (∀ w ∈ State.reset.worlds, w.1 ≠ 0 → w.2.tdisp ≠ .locked ∧ w.2.tdisp ≠ .run) ∧
    (3, { World.fresh with tdisp := .locked }) ∈ k.worlds := by decide +kernel

/-- A device with a tenant interface in a state; world 3 has a quota of 4. -/
def tenant (x : Tdisp) : State :=
  { rig 0 with worlds := [(0, { World.fresh with tdisp := .run }), (3, { World.fresh with tdisp := x, quota := 4 })], owner := [(40, 3)] }

/-- InterfacesLock. -/
theorem test_witness_interfaces :
    ([.unlocked, .locked, .run, .error] : List Tdisp).all (fun d => ((tenant d).worlds.find? 3).any fun x => decide (x.tdisp = d) &&
      !((tenant d).poolShown 3).any (tenant d).lineHeld && !x.conf && (tenant d).atRest 3 && decide (x.quota + (tenant d).lockedQuota 3 ≤ Config.aliasTotal)) = true ∧
    (let big := { tenant .unlocked with worlds := (tenant .unlocked).worlds.adjust 3 fun w => { w with quota := Config.aliasTotal + 1 } }
     (big.worlds.find? 3).any (fun x => decide (Config.aliasTotal < x.quota + big.lockedQuota 3)) = true) ∧
    (let busy := { tenant .run with tasks := (rig 0).tasks.adjust 2 fun k => { k with world := 3 } }
     busy.atRest 3 = false ∧ (busy.worlds.find? 3).any (fun x => decide (x.tdisp ≠ .unlocked)) = true) ∧
    (tenant .run).listsForm = true ∧ FMap.rising none (tenant .run).gangs = true ∧ (tenant .unlocked).frameOwner (40 * 65536) = some 3 ∧
    (tenant .unlocked).frameOwner (41 * 65536) ≠ some 3 ∧ (tenant .unlocked).rangeBusy (40 * 65536) (40 * 65536 + 65536) = false ∧
    (tenant .unlocked).openTasks 7 = 0 ∧ ((tenant .unlocked).worlds.all fun y => decide (y.1 = 0) || decide (y.1 = 3) ||
      decide (y.2.mask &&& 1 = 0)) = true ∧
    ((tenant .unlocked).worlds.all fun y => decide (7 ∉ y.2.queues)) = true := by
  decide +kernel

/-- The Pool extent of world 3, and a task of world 0 that has a page of it pinned. -/
def pooled (by_ : Option Nat) : State :=
  ({ tenant .run with
    boot := { (rig 0).boot with frameN := 1 }
    extents := [(900, ⟨3, poolPage * 65536, 65536, by_⟩)]
    clock := 5 } : State).updTask 2 fun k => { k with pins := [poolPage] }

/-- RegistersAndFrames. -/
theorem test_witness_registers :
    let q := { tenant .run with queues := [(7, { queue0 with world := 3 })] }
    let p := { (pooled none) with extents := [] }
    let o := { p with past := [⟨5, poolPage * 65536, 65536, none⟩] }
    (q.queues.find? 7).any (fun x => decide (x.world = 3)) = true ∧ q.openTasks 7 = 0 ∧ 0 < office.openTasks 0 ∧
    (q.queues.filter fun k => k.1 != 7 && k.2.domain == (0 : BitVec 128).extractLsb' 96 12).length < 64 ∧
    ((tenant .run).worlds.find? 3).isSome = true ∧ (tenant .run).owner.get 0 41 = 0 ∧ (tenant .run).frameClean 41 = true ∧
    41 * 65536 + 65536 ≤ (tenant .run).localTop ∧ (tenant .run).owner.get 0 40 = 3 ∧
    40 * 65536 + 65536 ≤ (tenant .run).localTop ∧ (tenant .run).inArea 40 = false ∧ (pooled none).reenc = [] ∧ (p.worlds.find? 3).isSome = true ∧
    p.past = [] ∧ (o.past.all fun e => decide (e.world ≠ 3) && decide (max (poolPage * 65536) e.base < min (poolPage * 65536 + 65536) (e.base + e.size))) = true ∧ p.boot.frameN ≠ 0 ∧ isPool (poolPage * 65536) = true ∧ poolPage * 65536 % 65536 = 0 ∧
    (p.extents.values.all fun e => decide (poolPage * 65536 + 65536 ≤ e.base)) = true ∧
    p.rangeBusy (poolPage * 65536) (poolPage * 65536 + 65536) = false ∧ o.rangeBusy (poolPage * 65536) (poolPage * 65536 + 65536) = false ∧
    ((pooled none).extents.find? 900).any (fun e => e.revoking.isNone) = true ∧
    ((pooled (some 6)).extents.find? 900).any (fun e => decide (e.revoking = some 6) && decide ((pooled (some 6)).holders e = [2])) = true ∧
    (pooled (some 6)).clock < 6 ∧
    ((pooled (some 5)).extents.find? 900).any (fun e => decide (e.revoking = some 5) && decide (5 ≤ (pooled (some 5)).clock)) = true ∧
    (pooled none).alias_ = [] ∧ ((pooled none).tasks.find? 2).any (fun y => decide (y.stage = .leased) && y.code.isNone) = true := by
  decide +kernel

/-- HostActs: no slot to take; one that names no record; one that does. -/
theorem test_witness_notify :
    (plain.queues.find? 0).any (fun x => x.world == 0 && decide ((0 + 2 ^ 32 - x.consumed.toNat) % 2 ^ x.size = 0) &&
      decide ((1 + 2 ^ 32 - x.consumed.toNat) % 2 ^ x.size = 1)) = true ∧
    plain.mayUse 0 0x20000 = true ∧ plain.reenc = [] ∧ plain.alias_ = [] ∧ leNat (plain.homeRead 0x20000 16).1 = 0x30000 ∧ 0x30000 % 16 = 0 ∧ leNat (plain.homeRead 0x20010 16).1 % 16 ≠ 0 ∧
    ∃ r, plain.readRecord 0 0x30000 = some r ∧ (plain.mintRecord 0 0x30000 r).readRecord 0 0x30000 = some r := by
  refine ⟨by decide +kernel, plain_mayUse _ (by decide), by decide, by decide, by decide +kernel, by decide +kernel, by decide +kernel, ?_⟩
  cases h : plain.readRecord 0 0x30000 with
  | none =>
    have := plain_record 0x30000 (by decide)
    rw [h] at this
    cases this
  | some r =>
    refine ⟨r, rfl, ?_⟩
    have hr : r.regs = [] := (congrArg TaskRec.regs (readRecord_eq h)).trans plain_fields.2.1
    have hm : plain.mintRecord 0 0x30000 r = plain := by
      unfold State.mintRecord
      rw [hr]
      exact plain_fields.1
    rw [hm, h]

/-- HostActs: an interface that does not run, a frame of another world, one of the world's own, a channel that is open. -/
theorem test_witness_host :
    let k := { tenant .locked with queues := [(7, { queue0 with world := 3 })] }
    let c := { tenant .run with chans := [(chanKey 3 1, ⟨4, 1, 0⟩), (chanKey 3 2, ⟨BitVec.allOnes 64 - 1, 1, 0⟩)] }
    let f := { tenant .run with
      boot := { (rig 0).boot with featAccept := 0x20 }
      worlds := (tenant .run).worlds.adjust 3 fun w => { w with conf := true } }
    (k.queues.find? 7).any (fun x => x.world == 3 && !((k.worlds.find? 3).any (·.running))) = true ∧
    (tenant .run).hostReach false 3 (41 * 65536) 4 = false ∧ (tenant .run).hostReach false 3 (40 * 65536) 4 = true ∧
    (tenant .run).hostReach false 3 (40 * 65536 + 65532) 4 = true ∧ (tenant .run).hostReach false 3 (40 * 65536 + 65533) 4 = false ∧
    (tenant .run).hostReach true 3 (41 * 65536) 16 = false ∧ (tenant .run).alias_ = [] ∧
    (tenant .run).rangeHeld (40 * 65536) 4 = false ∧ (tenant .run).rangeHeld (40 * 65536) 16 = false ∧
    c.hostReach false 3 (41 * 65536) 2 = false ∧ c.rangeHeld (40 * 65536) 2 = false ∧
    (c.chans.find? (chanKey 3 1)).any (fun x => x.state == 1 && x.last == 4) = true ∧
    (c.chans.find? (chanKey 3 2)).any (fun x => x.state == 1 && x.last + 1 == BitVec.allOnes 64) = true ∧
    c.hostReach false 3 (40 * 65536) 2 = true ∧ (tenant .run).hostReach true 3 (40 * 65536) 16 = true ∧
    (let bits := BitVec.ofNat 128 (leNat ((tenant .run).homeRead (40 * 65536) 16).1)
     (tenant .run).mintable 3 bits && !(tenant .run).marksCap 3 (leBytes 16 bits.toNat)) = true ∧
    (let s := { tenant .run with mem := [(40 * 65536 + 15, 0x01)] }
     s.mintable 3 (BitVec.ofNat 128 (leNat (s.homeRead (40 * 65536) 16).1)) = false) ∧
    ((f.worlds.find? 3).any (·.conf) = true ∧ f.boot.featAccept.getLsbD 5 = true) := by decide +kernel

/-- A checkpoint of world 3 with a line shipped. -/
def shot (todo : List (Nat × Nat)) (shipped : List Nat) : Snapshot :=
  ⟨700, [], todo, shipped, [(40 * 65536, 7)], [], World.fresh, [], [], [], [], [], [(16384, Thread.fresh 65536)], [], [], [], [], [], [], [], [], [],
    [], [(7, ⟨0, 3, 0, 9, 512, [(16384, 384, [])], none, none, false⟩)], [(8, ⟨16384, 384, 9⟩)]⟩

/-- CheckpointsRestore: the intervals, a trigger, the recording point, the end of shipping, and a restore in its three cases. -/
theorem test_witness_checkpoints :
    let t (ctl : BitVec 32) (clock : Nat) : State :=
      { tenant .run with regs := { (tenant .run).regs with ckptCtl := ctl }, clock := clock }
    let n := { tenant .run with
      regs := { (tenant .run).regs with ckptCtl := 0x1601 }
      worlds := (tenant .run).worlds.adjust 3 fun w => { w with completions := 1 } }
    let g := { tenant .run with worlds := (tenant .run).worlds.adjust 3 fun w => { w with trigger := true } }
    let r := { tenant .run with worlds := (tenant .run).worlds.adjust 3 fun w => { w with restoring := true } }
    let d := { r with durable := [(3, shot [] [20480])] }
    ((tenant .run).worlds.find? 3).any (fun x => x.running && !x.trigger && !x.restoring) = true ∧
    (let c := (t 0x1501 (2 ^ 24)).regs.ckptCtl
     c.extractLsb' 10 2 ≠ 0 ∧ c.extractLsb' 8 2 = 1 ∧ (c.extractLsb' 12 20).toNat = 1) ∧
    (t 0x1501 (2 ^ 24)).regs.ckptBase.get (t 0x1501 (2 ^ 24)).regs.ckptSince 3 + 1 * 2 ^ 24 ≤ (t 0x1501 (2 ^ 24)).clock ∧
    (t 0x1501 5).clock < 2 ^ 24 ∧
    (n.regs.ckptCtl.extractLsb' 10 2 ≠ 0 ∧ n.regs.ckptCtl.extractLsb' 8 2 = 2 ∧ (n.regs.ckptCtl.extractLsb' 12 20).toNat = 1 ∧
      n.regs.ckptBase.get 0 3 + 1 ≤ 1 ∧ n.regs.ckptBase.get 0 3 + 1 > 0) ∧
    (g.worlds.find? 3).any (·.trigger) = true ∧ g.snaps.find? 3 = none ∧ g.quiesced 3 = true ∧ g.alias_ = [] ∧
    (let s := { g with queues := [(7, { queue0 with world := 3, base := 40 * 65536 })] }
     let s1 := s.pushWorld 3
     s1.areaNeed 3 = 1 ∧ (s1.areaFrames (s1.areaNeed 3)).length = 1) ∧
    r.quiesced 3 = true ∧ r.durable.find? 3 = none ∧ d.quiesced 3 = true ∧ (d.durable.find? 3).any (fun p => decide (p.revoked = [])) = true ∧
    d.alias_ = [] ∧ d.reenc = [] ∧ d.snaps.find? 3 = none ∧
    (let e := { d with durable := [(3, { shot [] [20480] with tasks := (rig 0).tasks.adjust 2 fun k => { k with world := 3, lease := [⟨1, true, poolPage, false, 1⟩], pins := [poolPage] } })] }
     let e2 := { e with extents := [(900, ⟨3, 2 ^ 51, 2 ^ 30, none⟩)], boot := { (rig 0).boot with frameN := 1 } }
     (e2.durable.find? 3).any fun p => decide (e2.backPins 3 p = [poolPage]) && (e2.unpinWorld 3).setsFit [poolPage] &&
       decide ((e2.frames.filter fun kf => e2.poolSet kf.1 == e2.poolSet poolPage).length + e2.mates [poolPage] poolPage ≤ 16) &&
       FMap.rising none p.tasks) = true ∧
    r.mayUse 3 (20480 * 128) = true ∧ FMap.rising none (shot [] []).batches = true ∧
    FMap.rising none (shot [] []).fetches = true ∧ FMap.rising none (shot [] [20480]).threads = true ∧ (shot [] [20480]).threads.find? 16384 ≠ none ∧
    FMap.rising none [(0, queue0)] = true := by decide +kernel

/-- ErrorsReported: what each site strikes is there; a world that runs, and one that has a checkpoint. -/
theorem test_witness_errors :
    let p := { rig 0 with ports := [(16384 * 4, [⟨5, 1, 0⟩])] }
    ((rig 0).rows.find? (512 * 32 + 20)).isSome = true ∧ p.ports.get [] (16384 * 4 + (0 : BitVec 2).toNat) ≠ [] ∧
    ((rig 0).tasks.find? 2).any (fun k => k.code.isNone && decide (k.stage ≠ .completed)) = true ∧
    ((rig 0).threads.all fun th => th.2.stat != .halted || (rig 0).goesOn th.1) = true ∧
    ((tenant .run).worlds.find? 3).any (fun x => decide (x.tdisp = .run)) = true ∧
    (({ tenant .run with durable := [(3, shot [] [])] } : State).durable.find? 3).isSome = true := by decide +kernel

/-- CapDerivationsNarrow: `c0` of `rig`, at its cursor and at the last byte of its region; with nothing left there is no room. -/
theorem test_witness_narrow : let p : Cap := ⟨Cap.make 0 0x7B 7 512 0x20000 64⟩
    p.sound = true ∧ p.cursor < 2 ^ 56 ∧ p.cursor + (roundLen 1023).1 * 2 ^ (roundLen 1023).2 ≤ p.top ∧
    p.cursor + (roundLen 65472).1 * 2 ^ (roundLen 65472).2 = p.top ∧ p.top < p.cursor + (roundLen 65473).1 * 2 ^ (roundLen 65473).2 := by
  decide +kernel

/-! ## Single steps: what the spec says of one instruction on fixed values -/

/-- The machine with two registers of the crew's lanes as `va` and `vb`, and `vd` in `v11`. -/
def two (x y : BitVec 32) (f : BitVec 4) : State := setReg (setReg (rig 0) 512 9 x f) 512 10 y f

/-- The value that an instruction leaves in a register of the thread. -/
def gives (i : Instr) (s : State) (v : Nat) : BitVec 32 := (run i s).reg 16384 v

/-- R61: sums and products wrap, the saturating forms clamp, shifts take five bits of their amount. -/
theorem test_integer : let c := ct false
    gives (.add 25 9 10 false c) (two 0xFFFFFFFF 2 1) 25 = 1 ∧ gives (.sub 25 9 10 false c) (two 1 2 1) 25 = 0xFFFFFFFF ∧
    gives (.mul 25 9 10 false c) (two 0x10001 0x10001 1) 25 = 0x20001 ∧
    gives (.mulh 25 9 10 false c) (two 0xFFFFFFFF 2 1) 25 = 0xFFFFFFFF ∧ gives (.mulhu 25 9 10 false c) (two 0xFFFFFFFF 2 1) 25 = 1 ∧
    gives (.min 25 9 10 false c) (two 0xFFFFFFFF 2 1) 25 = 0xFFFFFFFF ∧ gives (.minu 25 9 10 false c) (two 0xFFFFFFFF 2 1) 25 = 2 ∧
    gives (.max 25 9 10 false c) (two 0xFFFFFFFF 2 1) 25 = 2 ∧ gives (.maxu 25 9 10 false c) (two 0xFFFFFFFF 2 1) 25 = 0xFFFFFFFF ∧
    gives (.mad 10 9 9 false c) (two 3 4 1) 10 = 13 ∧ gives (.absd 25 9 10 false c) (two 0x80000000 0x7FFFFFFF 1) 25 = 0xFFFFFFFF ∧
    gives (.adds 25 9 10 false c) (two 0x7FFFFFFF 1 1) 25 = 0x7FFFFFFF ∧
    gives (.subs 25 9 10 false c) (two 0x80000000 1 1) 25 = 0x80000000 := by decide +kernel

theorem test_bits : let c := ct false
    gives (.and 25 9 10 false c) (two 12 10 0) 25 = 8 ∧ gives (.or 25 9 10 false c) (two 12 10 0) 25 = 14 ∧
    gives (.xor 25 9 10 false c) (two 12 10 0) 25 = 6 ∧ gives (.andn 25 9 10 false c) (two 12 10 0) 25 = 4 ∧
    gives (.shl 25 9 10 false c) (two 1 33 0) 25 = 2 ∧ gives (.shr 25 9 10 false c) (two 0x80000000 31 0) 25 = 1 ∧
    gives (.sra 25 9 10 false c) (two 0x80000000 31 0) 25 = 0xFFFFFFFF ∧ gives (.rotl 25 9 10 false c) (two 0x80000001 1 0) 25 = 3 ∧
    gives (.popc 25 9 false c) (two 0xF0F 0 0) 25 = 8 ∧ gives (.clz 25 9 false c) (two 0 0 0) 25 = 32 ∧
    gives (.brev 25 9 false c) (two 1 0 0) 25 = 0x80000000 ∧
    gives (.bfx 25 9 10 false c) (two 0xABCD1234 0x0804 0) 25 = 0x23 ∧ gives (.bfx 25 9 10 false c) (two 0xABCD1234 0x3F1C 0) 25 = 0xA ∧
    gives (.bfi 9 10 10 false c) (two 0xFFFFFFFF 0x0804 0) 9 = 0xFFFFF04F ∧ gives (.bfi 9 10 10 false c) (two 7 4 0) 9 = 7 := by
  decide +kernel

/-- R26, R65, R66: the short forms read and write one register; immediates are sign-extended. -/
theorem test_immediates : let c := ct false
    gives (.addi 25 9 0xFF c) (two 5 0 1) 25 = 4 ∧ gives (.andi 25 9 0xF0 c) (two 0x123456 0 1) 25 = 0x123450 ∧
    gives (.ori 25 9 0x80 c) (two 1 0 1) 25 = 0xFFFFFF81 ∧ gives (.xori 25 9 0xFF c) (two 1 0 1) 25 = 0xFFFFFFFE ∧
    gives (.shli 25 9 4 c) (two 3 0 1) 25 = 48 ∧ gives (.shri 25 9 1 c) (two 0x80000000 0 1) 25 = 0x40000000 ∧
    gives (.srai 25 9 1 c) (two 0x80000000 0 1) 25 = 0xC0000000 ∧ gives (.muli 25 9 0xFE c) (two 5 0 1) 25 = 0xFFFFFFF6 ∧
    gives (.movi 25 0x8000 c) (rig 0) 25 = 0xFFFF8000 ∧ gives (.movhi 9 0x1234 c) (two 0xABCD 0 0) 9 = 0x1234ABCD ∧
    gives (.sub16 9 10 false) (two 1 2 1) 9 = 0xFFFFFFFF ∧ gives (.sra16 9 10 false) (two 0x80000000 31 0) 9 = 0xFFFFFFFF := by
  decide +kernel

/-- R74 to R76: COMB combines with the predicate; `pset` takes the bit of its table. -/
theorem test_predicates :
    let s := (two 0xFFFFFFFF 2 1).updThread 16384 fun h => { h with preds := 0x0002 }
    let c := ct false
    (run (.cmplt 2 9 10 0 c) s).pred 16384 2 = true ∧ (run (.cmpltu 2 9 10 0 c) s).pred 16384 2 = false ∧
    (run (.cmpltu 1 9 10 2 c) s).pred 16384 1 = true ∧ (run (.cmplt 0 9 10 1 c) s).pred 16384 0 = false ∧
    (run (.pset 4 1 2 0x8 c) s).pred 16384 4 = false ∧ (run (.pset 4 1 2 0x4 c) s).pred 16384 4 = true ∧
    gives (.pmov 25 false c) s 25 = 2 ∧ ((run (.pmov 10 true c) s).thread 16384).preds = 2 := by decide +kernel

/-- R114, R117, R118, R98: 1.0 / 0 sets DZ; 1 + 2^-24 ties to even and sets NX; an integral value keeps its sign (spec/07). -/
theorem test_floats : let c := ct false
    let fl (i : Instr) (s : State) : BitVec 32 := ((run i s).thread 16384).fctl
    gives (.fdiv 25 9 10 false c) (two 0x3F800000 0 2) 25 = 0x7F800000 ∧ fl (.fdiv 25 9 10 false c) (two 0x3F800000 0 2) = 0x20 ∧
    gives (.fadd 25 9 10 false c) (two 0x3F800000 0x33800000 2) 25 = 0x3F800000 ∧
    fl (.fadd 25 9 10 false c) (two 0x3F800000 0x33800000 2) = 4 ∧
    gives (.frnd 25 9 0 false c) (two 0xC0200000 0 2) 25 = 0xC0000000 ∧ fl (.frnd 25 9 0 false c) (two 0xC0200000 0 2) = 4 ∧
    gives (.frnd 25 9 3 false c) (two 0xBE800000 0 2) 25 = 0x80000000 ∧ gives (.fclass 25 9 false c) (two 0x7F800001 0 2) 25 = 0x100 ∧
    gives (.fmul 25 9 10 false c) (two 0x40000000 0x40400000 2) 25 = 0x40C00000 ∧ gives (.fsqrt 25 9 false c) (two 0x40800000 0 2) 25 = 0x40000000 ∧
    gives (.fcpys 25 9 10 false c) (two 0x3F800000 0x80000000 2) 25 = 0xBF800000 := by decide +kernel

/-- The dot product and the product of the worked example of spec/07 (A dot product of five L6 pairs). -/
theorem test_l6 :
    let s := setReg (setReg (setReg (rig 0) 512 9 0x04AB1007 8) 512 10 0x3C251006 8) 512 11 0x42C80000 0
    let s := { s with rows := s.rows.adjust (512 * 32 + 9) fun r => { r with scl := 1 } }
    let d := run (.ldot 11 9 10 false (ct false)) s
    let m := run (.lmul 25 9 10 false (ct false)) s
    d.reg 16384 11 = 0x428265D8 ∧ (d.thread 16384).fctl = 4 ∧ m.reg 16384 25 = 0x20BF100D ∧ (m.thread 16384).fctl = 0x1C ∧
    m.tagOf 16384 25 = (8, 1) := by decide +kernel

/-- The conversion of spec/06 (a scale carried through a row): CVS 2, 1,800, -1, 0 and 6 to E4M3 with saturation. -/
theorem test_e4m3 :
    let r := setReg (setReg (rig 0) 512 8 0x44E10000 2) 512 9 0xBF800000 2
    let s := (setReg (setReg r 512 10 0 2) 512 11 0x40C00000 2).updThread 16384 fun h => { h with fctl := 0x200 }
    let t := run (.fcvt 25 8 15 false (ct false)) s
    t.reg 16384 25 = 0x3C00A87E ∧ t.tagOf 16384 25 = (6, 2) ∧ (t.thread 16384).fctl = 0x204 := by decide +kernel

/-- R40, R77 to R79: displacements count halfwords from the word's own address; `call` leaves the return offset in `v30`. -/
theorem test_control : let e := ct true
    ((run (.bra 4 e) (rig 0)).thread 16384).pc = 65544 ∧ ((run (.call 4 e) (rig 0)).thread 16384).pc = 65544 ∧
    gives (.call 4 e) (rig 0) 30 = 4 ∧ ((run (.jmpr 9 e) (two 8 0 0)).thread 16384).pc = 65544 ∧
    ((run (.jmpr 9 e) (two 7 0 0)).thread 16384).tcause = 0x09 ∧ ((run (.jmpr 9 e) (two 7 0 0)).thread 16384).tval = 7 := by
  decide +kernel

/-- R370, R372: `trap` saves where it stood and goes to the handler; a POISON source names its register. -/
theorem test_traps :
    let t := (run (.trap 0x1234 (ct true)) (rig 0)).thread 16384
    let p := (run (.add 25 9 10 false (ct false)) (two 1 2 15)).thread 16384
    t.tcause = 0x0F ∧ t.tval = 0x1234 ∧ t.tpc = 0 ∧ t.pc = 65536 + 64 ∧ t.handling = true ∧ p.tcause = 0x0E ∧ p.tval = 9 := by
  decide +kernel

/-- R166 to R169: the cursor moves, the region narrows, the fields read; a cursor below the base loses validity. -/
theorem test_capabilities : let c := ct false
    let n := run (.cbnd 4 0 9 false c) (two 4096 0 1)
    let b := run (.cadd 4 0 9 c) (two 0xFFFFFF00 0 1)
    gives (.capr 25 0 0 c) (rig 0) 25 = 0x20040 ∧ ((run (.cadd 4 0 9 c) (two 16 0 1)).capGroup 16384 4).cursor = 0x20050 ∧
    (n.capGroup 16384 4).base = 0x20040 ∧ (n.capGroup 16384 4).length = 4096 ∧ n.capValid 16384 4 = true ∧ b.capValid 16384 4 = false ∧
    ((run (.cprm 4 0 0x41 c) (rig 0)).capGroup 16384 4).perm = 0x41 := by decide +kernel

/-- R69, R70: a load extends what it takes; a store leaves its low bytes, and no others, in the scratchpad. -/
theorem test_memory :
    let s := (rig 448).spadWrite 1 448 [0xFE, 0x80, 0x01, 0x02] false
    let back (i : Instr) : BitVec 32 := match exec (.loadDataReturn 4) (run i s) with
      | .next t => t.reg 16384 25
      | _ => 0
    let st := match exec (.storePerformed 4) (run (.sth 20 1 1 false (ct false)) s) with
      | .next t => t
      | _ => s
    back (.ldb 25 1 0 false (ct false)) = 0xFFFFFFFE ∧ back (.ldbu 25 1 0 false (ct false)) = 0xFE ∧
    back (.ldh 25 1 0 false (ct false)) = 0xFFFF80FE ∧ back (.ldw 25 1 0 false (ct false)) = 0x020180FE ∧
    st.spadByte 1 450 = 0x40 ∧ st.spadByte 1 451 = 0x20 ∧ st.spadByte 1 449 = 0x80 ∧ st.spadByte 1 452 = 0 := by decide +kernel

/-- R343, R344: the arrival that makes the count completes the phase, and says so. -/
theorem test_barrier :
    let s := rig 256
    let a := run (.barv 1 9 5 (ct false)) (setReg s 512 9 2 1)
    s.objPhase 1 256 = 0 ∧ a.objPhase 1 256 = 1 ∧ a.pred 16384 5 = true ∧
    (run (.barv 1 9 5 (ct false)) (setReg s 512 9 1 1)).pred 16384 5 = false := by decide +kernel

/-- A step fetches the word at the PC of the slot's group: `movi v25, #-2` and 1 + 1 in a short form (R22, R24, R66). -/
theorem test_steps :
    next (step (State.reset.placeWord 0x79FFFE01)) (fun s => s.reg 16384 25 == 0xFFFFFFFE && (s.thread 16384).pc == 65540) = true ∧
    next (step { setReg (rig 0) 512 9 1 1 with mem := [(65536, 0xA4), (65537, 0x14)] })
      (fun s => s.reg 16384 9 == 2 && (s.thread 16384).pc == 65538) = true := by decide +kernel

/-- R97: a write by one lane of a row whose other lanes are live keeps CAP over any other tag, and leaves RAW where two tags meet. -/
theorem test_row_tags :
    (run (.mov 12 9 false (ct false)) (two 1 0 1)).tagOf 16384 12 = (11, 0) ∧
    (run (.fabs 9 24 false (ct false)) (two 1 0 1)).tagOf 16384 9 = (0, 0) ∧
    (run (.mov 12 9 false (ct false)) (two 1 0 1)).capValid 16384 3 = false := by decide +kernel

end Sys2Proof.Tests
end

/-! SUPPORT. Finite maps whose listings are kept or replaced by their keys, tasks that are ended, and Pool ranges that are erased or
given up. -/

namespace Sys2Proof.Machine

/-! ## Listings kept or replaced by their keys -/

namespace FMap

variable {α : Type}

theorem find?_append (m n : FMap α) (k : Nat) : find? (m ++ n) k = (m.find? k).or (n.find? k) := by
  induction m with
  | nil => rfl
  | cons a m ih =>
    obtain ⟨k', v'⟩ := a
    simp only [List.cons_append, find?]
    split_ifs
    · rfl
    · exact ih

theorem find?_filterKey (p : Nat → Bool) (m : FMap α) (k : Nat) :
    find? (m.filter fun kv => p kv.1) k = if p k = true then m.find? k else none := by
  induction m with
  | nil => simp [find?]
  | cons a m ih =>
    obtain ⟨k', v'⟩ := a
    by_cases hk : k' = k
    · subst hk
      cases hp : p k' <;> simp [find?, hp, ih]
    · cases hp : p k' <;> simp [find?, hp, hk, ih]

theorem find?_slice (m : FMap α) (lo hi k : Nat) : (m.slice lo hi).find? k = if lo ≤ k ∧ k < hi then m.find? k else none := by
  unfold slice
  rw [find?_filterKey fun j => decide (lo ≤ j) && decide (j < hi)]
  simp

/-- The listings of a range replaced by others of the range. -/
theorem find?_splice (m new : FMap α) (lo hi k : Nat) (hnew : ¬(lo ≤ k ∧ k < hi) → new.find? k = none) :
    (m.splice lo hi new).find? k = if lo ≤ k ∧ k < hi then new.find? k else m.find? k := by
  unfold splice
  rw [find?_append, find?_append, find?_filterKey fun j => decide (j < lo), find?_filterKey fun j => decide (hi ≤ j)]
  by_cases hin : lo ≤ k ∧ k < hi
  · simp [hin.1.not_gt, hin.2.not_ge, hin]
  · rw [hnew hin, if_neg hin]
    by_cases hlo : k < lo
    · cases m.find? k <;> simp [hlo]
    · have hhi : hi ≤ k := by omega
      simp [hlo, hhi]

theorem get_spliceNil (d : α) (m : FMap α) (lo hi k : Nat) :
    (m.splice lo hi []).get d k = if lo ≤ k ∧ k < hi then d else m.get d k := by
  unfold get
  rw [find?_splice _ _ _ _ _ fun _ => rfl]
  split <;> rfl

/-- A range of a map replaced by the same range of another. -/
theorem get_spliceSlice (d : α) (m n : FMap α) (lo hi k : Nat) :
    (m.splice lo hi (n.slice lo hi)).get d k = if lo ≤ k ∧ k < hi then n.get d k else m.get d k := by
  unfold get
  rw [find?_splice _ _ _ _ _ fun h => by rw [find?_slice, if_neg h], find?_slice]
  split <;> rfl

theorem mem_mapVals {f : Nat → α → α} {m : FMap α} {y : Nat × α} (h : y ∈ m.mapVals f) :
    ∃ v, (y.1, v) ∈ m ∧ y.2 = f y.1 v := by
  induction m with
  | nil => simp [mapVals] at h
  | cons a m ih =>
    obtain ⟨k, v⟩ := a
    rcases List.mem_cons.mp h with rfl | h
    · exact ⟨v, by simp, rfl⟩
    · obtain ⟨w, hw, e⟩ := ih h
      exact ⟨w, List.mem_cons_of_mem _ hw, e⟩

end FMap

theorem mem_span {a n x : Nat} : x ∈ span a n ↔ a ≤ x ∧ x < a + n := by
  induction n generalizing a with
  | zero => simp [span]
  | succ n ih =>
    simp only [span, List.mem_cons, ih]
    omega

namespace State

/-! ## Tasks that are ended, R213, R379 -/

/-- The home slices, the memory behind the pool port and the redirects stay, and operations are at most dropped. -/
structure DropsOps (s t : State) : Prop where
  mem : t.mem = s.mem
  pool : t.poolMem = s.poolMem
  aliases : t.alias_ = s.alias_
  ops : ∀ y ∈ t.ops, y ∈ s.ops

theorem DropsOps.refl (s : State) : DropsOps s s := ⟨rfl, rfl, rfl, fun _ h => h⟩

theorem DropsOps.trans {s t u : State} (h : DropsOps s t) (k : DropsOps t u) : DropsOps s u :=
  ⟨k.mem.trans h.mem, k.pool.trans h.pool, k.aliases.trans h.aliases, fun y hy => h.ops y (k.ops y hy)⟩

theorem DropsOps.foldl {α : Type} (g : State → α → State) (h : ∀ s x, DropsOps s (g s x)) (xs : List α) (s : State) :
    DropsOps s (xs.foldl g s) := by
  induction xs generalizing s with
  | nil => exact DropsOps.refl s
  | cons x xs ih => exact (h s x).trans (ih _)

theorem updQueue_dropsOps (s : State) (q : Nat) (f : Queue → Queue) : DropsOps s (s.updQueue q f) := ⟨rfl, rfl, rfl, fun _ h => h⟩

theorem updTask_dropsOps (s : State) (k : Nat) (f : Task → Task) : DropsOps s (s.updTask k f) := ⟨rfl, rfl, rfl, fun _ h => h⟩

theorem freeGang_dropsOps (s : State) (gang : Nat) : DropsOps s (s.freeGang gang) := ⟨rfl, rfl, rfl, fun _ h => h⟩

theorem abortBatches_dropsOps (s : State) (p : Nat → Bool) : DropsOps s (s.abortBatches p) := ⟨rfl, rfl, rfl, fun _ h => h⟩

theorem dropOps_dropsOps (s : State) (p : Op → Bool) : DropsOps s (s.dropOps p) :=
  ⟨rfl, rfl, rfl, fun _ h => List.mem_of_mem_filter h⟩

/-- A charge is a write to one queue, or nothing. -/
theorem charge_cases (s : State) (gang n : Nat) : s.charge gang n = s ∨ ∃ q f, s.charge gang n = s.updQueue q f := by
  unfold charge
  split
  · exact .inl rfl
  · split
    · exact .inl rfl
    · exact .inr ⟨_, _, rfl⟩

theorem charge_dropsOps (s : State) (gang n : Nat) : DropsOps s (s.charge gang n) := by
  rcases charge_cases s gang n with h | ⟨q, f, h⟩
  · rw [h]; exact DropsOps.refl s
  · rw [h]; exact updQueue_dropsOps s q f

@[simp] theorem charge_tasks (s : State) (gang n : Nat) : (s.charge gang n).tasks = s.tasks := by
  rcases charge_cases s gang n with h | ⟨q, f, h⟩ <;> rw [h]
  exact updQueue_tasks s q f

/-- A gang is killed by freeing what it holds, once it has been charged if it is resident. -/
theorem killGang_cases (s : State) (gang : Nat) : ∃ s0 batches fetches f, (s0 = s ∨ ∃ n, s0 = s.charge gang n) ∧
    let s1 := ((s0.freeGang gang).abortBatches fun t => gangOf t == gang).dropOps fun o => gangOf o.thread == gang && dies o
    s.killGang gang = ({ s1 with fetches := fetches, batches := batches } : State).updGang gang f := by
  unfold killGang
  refine ⟨_, _, _, _, ?_, rfl⟩
  split
  · split
    · exact .inr ⟨_, rfl⟩
    · exact .inl rfl
  · exact .inl rfl

theorem killGang_dropsOps (s : State) (gang : Nat) : DropsOps s (s.killGang gang) := by
  obtain ⟨s0, batches, fetches, f, h0, h⟩ := killGang_cases s gang
  rw [h]
  have h1 : DropsOps s s0 := by
    rcases h0 with rfl | ⟨n, rfl⟩
    · exact DropsOps.refl s0
    · exact charge_dropsOps s gang n
  have h2 := ((freeGang_dropsOps s0 gang).trans (abortBatches_dropsOps _ fun t => gangOf t == gang)).trans
    (dropOps_dropsOps _ fun o => gangOf o.thread == gang && dies o)
  exact (h1.trans h2).trans ⟨rfl, rfl, rfl, fun _ hy => hy⟩

theorem killGang_tasks (s : State) (gang : Nat) : (s.killGang gang).tasks = s.tasks := by
  obtain ⟨s0, batches, fetches, f, h0, h⟩ := killGang_cases s gang
  have h1 : s0.tasks = s.tasks := by
    rcases h0 with h0 | ⟨n, h0⟩
    · rw [h0]
    · rw [h0, charge_tasks s gang n]
  rw [h, updGang_tasks]
  exact h1

/-- How a task that ends stops one of its gangs: it is killed unless it is over or adopted, R312, R379. -/
def stopGang (s : State) (g : Nat) : State :=
  match s.gangs.find? g with
  | none => s
  | some x => match x.stat with
    | .retired => s
    | .adopted _ => s
    | _ => s.killGang g

theorem stopGang_cases (s : State) (g : Nat) : s.stopGang g = s ∨ s.stopGang g = s.killGang g := by
  unfold stopGang
  split
  · exact .inl rfl
  · split
    · exact .inl rfl
    · exact .inl rfl
    · exact .inr rfl

theorem stopGang_dropsOps (s : State) (g : Nat) : DropsOps s (s.stopGang g) := by
  rcases stopGang_cases s g with h | h <;> rw [h]
  · exact DropsOps.refl s
  · exact killGang_dropsOps s g

@[simp] theorem stopGang_tasks (s : State) (g : Nat) : (s.stopGang g).tasks = s.tasks := by
  rcases stopGang_cases s g with h | h <;> rw [h]
  exact killGang_tasks s g

theorem stopGangs_tasks (gs : List Nat) (s : State) : (gs.foldl stopGang s).tasks = s.tasks := by
  induction gs generalizing s with
  | nil => rfl
  | cons g gs ih => rw [List.foldl_cons, ih, stopGang_tasks]

/-- A task that has not ended takes a code, or keeps the one that its interface has given it, and its gangs stop; the queues forget its
gangs. Any other is left alone. -/
theorem endTask_cases (s : State) (id : Nat) (code : EndCode) (why : Option (BitVec 32 × BitVec 32 × BitVec 32)) :
    (s.endTask id code why = s ∧ ∀ k, s.tasks.find? id = some k → k.code.isSome = true ∨ k.stage = .completed) ∨ ∃ k s1 queues, s.tasks.find? id = some k ∧ k.stage ≠ .completed ∧
      (k.code.isSome = true ∧ s1 = s ∨ k.code = none ∧ s1 = s.updTask id fun k => { k with code := some code, fault := why }) ∧
      s.endTask id code why = { k.gangs.foldl stopGang s1 with queues := queues } := by
  unfold endTask
  split
  · rename_i h
    exact .inl ⟨rfl, fun k hk => by simp [h] at hk⟩
  · rename_i k hk
    split
    · rename_i h
      refine .inl ⟨rfl, fun k' hk' => ?_⟩
      obtain rfl : k = k' := Option.some.inj (hk.symm.trans hk')
      exact h.imp_left And.left
    · rename_i h
      refine .inr ⟨k, _, _, hk, fun hc => h (.inr hc), ?_, rfl⟩
      cases hc : k.code
      · exact .inr ⟨rfl, rfl⟩
      · exact .inl ⟨rfl, rfl⟩

theorem endTask_dropsOps (s : State) (id : Nat) (code : EndCode) (why : Option (BitVec 32 × BitVec 32 × BitVec 32)) :
    DropsOps s (s.endTask id code why) := by
  rcases endTask_cases s id code why with ⟨h, -⟩ | ⟨k, s1, queues, -, -, h1, h⟩ <;> rw [h]
  · exact DropsOps.refl s
  · have hs : DropsOps s s1 := by
      rcases h1 with ⟨-, rfl⟩ | ⟨-, rfl⟩
      · exact DropsOps.refl s1
      · exact updTask_dropsOps s id _
    exact (hs.trans (DropsOps.foldl _ stopGang_dropsOps k.gangs s1)).trans ⟨rfl, rfl, rfl, fun _ hy => hy⟩

/-- The code of a task that has not completed, after one has ended: the first ending event stands, and every other task keeps its own. -/
theorem endTask_code {s : State} {t : Nat} {y : Task} (id : Nat) (code : EndCode) (why : Option (BitVec 32 × BitVec 32 × BitVec 32))
    (hy : s.tasks.find? t = some y) (hs : y.stage ≠ .completed) :
    ∃ y', (s.endTask id code why).tasks.find? t = some y' ∧ y'.stage = y.stage ∧
      y'.code = if t = id then y.code.or (some code) else y.code := by
  rcases endTask_cases s id code why with ⟨h, hk⟩ | ⟨k, s1, queues, hk, -, h1, h⟩
  · refine ⟨y, by rw [h, hy], rfl, ?_⟩
    split
    · rename_i e
      obtain ⟨c, hc⟩ := Option.isSome_iff_exists.mp ((hk y (e ▸ hy)).resolve_right hs)
      rw [hc, Option.some_or]
    · rfl
  · have ht : (s.endTask id code why).tasks = s1.tasks := by rw [h]; exact stopGangs_tasks k.gangs s1
    rw [ht]
    rcases h1 with ⟨hc, rfl⟩ | ⟨hc, rfl⟩
    · refine ⟨y, hy, rfl, ?_⟩
      split
      · rename_i e
        obtain rfl : k = y := Option.some.inj (hk.symm.trans (e ▸ hy))
        obtain ⟨c, hc⟩ := Option.isSome_iff_exists.mp hc
        rw [hc, Option.some_or]
      · rfl
    · rw [updTask, FMap.find?_adjust]
      split
      · rename_i e
        obtain rfl : k = y := Option.some.inj (hk.symm.trans (e ▸ hy))
        rw [hk]
        exact ⟨_, rfl, rfl, by rw [hc, Option.none_or]⟩
      · exact ⟨y, hy, rfl, rfl⟩

/-- Several tasks ended one after the other. -/
def endEach (s : State) (code : EndCode) (why : Option (BitVec 32 × BitVec 32 × BitVec 32)) (ids : List Nat) : State :=
  ids.foldl (fun s id => s.endTask id code why) s

theorem endEach_dropsOps (s : State) (code : EndCode) (why : Option (BitVec 32 × BitVec 32 × BitVec 32)) (ids : List Nat) :
    DropsOps s (s.endEach code why ids) :=
  DropsOps.foldl _ (fun s id => endTask_dropsOps s id code why) ids s

theorem endEach_code {s : State} {t : Nat} {y : Task} (code : EndCode) (why : Option (BitVec 32 × BitVec 32 × BitVec 32)) (ids : List Nat)
    (hy : s.tasks.find? t = some y) (hs : y.stage ≠ .completed) :
    ∃ y', (s.endEach code why ids).tasks.find? t = some y' ∧ y'.code = if t ∈ ids then y.code.or (some code) else y.code := by
  unfold endEach
  induction ids generalizing s y with
  | nil => exact ⟨y, hy, rfl⟩
  | cons id ids ih =>
    obtain ⟨y1, hy1, hs1, hc1⟩ := endTask_code id code why hy hs
    obtain ⟨y2, hy2, hc2⟩ := ih hy1 (hs1 ▸ hs)
    refine ⟨y2, hy2, hc2.trans ?_⟩
    rw [hc1]
    by_cases h1 : t = id <;> by_cases h2 : t ∈ ids <;> simp [h1, h2]

/-! ## Ranges that are erased, and extents that are released, R202, R216 -/

/-- Without aliases nothing takes bytes from a range. -/
theorem takersOf_noAlias {s : State} (h : s.alias_ = []) (lo hi : Nat) : s.takersOf lo hi = [] := by
  unfold takersOf
  rw [h]
  rfl

theorem dropAliases_noAlias {s : State} (h : s.alias_ = []) (lo hi : Nat) : s.dropAliases lo hi = s := by
  unfold dropAliases
  rw [h]
  show ({ s with alias_ := [] } : State) = s
  rw [← h]

/-- A cache holds nothing of a range that has been erased. -/
theorem held?_erase (s : State) (lo hi u a : Nat) (ha : a < 2 ^ 52) (hlo : lo ≤ a) (hhi : a < hi) : (s.erase lo hi).held? u a = none := by
  have hk : cKey u a % 2 ^ 52 = a := by unfold cKey; omega
  unfold held? erase FMap.keep
  dsimp only
  rw [FMap.find?_filterKey fun k => !(decide (lo ≤ k % 2 ^ 52) && decide (k % 2 ^ 52 < hi)), hk]
  simp [hlo, hhi]

/-- The release of an extent where nothing is aliased: its holders end, its bytes are written back, and what the caches, the frames, the
lists of worlds, the leases and the writes in flight have of it goes. -/
theorem releaseExtent_noAlias {s : State} (h : s.alias_ = []) (k : Nat) (e : Extent) :
    s.releaseExtent k e =
      let lo := e.base
      let hi := e.base + e.size
      let s1 := s.endEach .extentRevoked none (s.holders e)
      { s1.erase lo hi with
        poolMem := s1.poolMem.splice lo hi (s1.mem.slice lo hi), mem := s1.mem
        ops := s1.ops.mapVals fun _ o => { o with kind := OpKind.lose lo hi o.kind }
        frames := s1.frames.splice (lo / 65536) (hi / 65536) [], extents := s1.extents.erase k
        shared := s1.shared.splice (lo / 65536) (hi / 65536) [], past := s1.past ++ [e]
        tasks := s1.tasks.mapVals fun _ t =>
          { t with pins := t.pins.filter fun p => decide (p < lo / 65536) || decide (hi / 65536 ≤ p) } } := by
  have h1 : (s.endEach .extentRevoked none (s.holders e)).alias_ = [] := (endEach_dropsOps s _ _ _).aliases.trans h
  unfold releaseExtent
  extract_lets lo hi s1 s2 s3
  have e2 : s2 = s1 := by
    show (s1.takersOf lo hi).foldl landLine s1 = s1
    rw [takersOf_noAlias (s := s1) h1, List.foldl_nil]
  have e3 : s3 = ({ s1 with poolMem := s1.poolMem.splice lo hi (s1.mem.slice lo hi) } : State).erase lo hi := by
    simp only [s3, e2]
    rw [dropAliases_noAlias (s := { s1 with poolMem := s1.poolMem.splice lo hi (s1.mem.slice lo hi) }) h1]
  rw [e3, e2]
  rfl

theorem homeByte_erasePool (s : State) (lo hi a : Nat) :
    (s.erasePool lo hi).homeByte a = if lo ≤ a ∧ a < hi then 0 else s.homeByte a := by
  unfold erasePool
  split
  · exact FMap.get_spliceNil 0 s.mem lo hi a
  · rw [if_neg (by omega)]

theorem poolMem_erasePool (s : State) (lo hi a : Nat) :
    (s.erasePool lo hi).poolMem.get 0 a = if lo ≤ a ∧ a < hi then 0 else s.poolMem.get 0 a := by
  unfold erasePool
  split
  · exact FMap.get_spliceNil 0 s.poolMem lo hi a
  · rw [if_neg (by omega)]

/-- What a range `[lo, hi)` shares with several extents, erased, R202. -/
def eraseLeft (s : State) (lo hi : Nat) (es : List Extent) : State :=
  es.foldl (fun s e => s.erasePool (max lo e.base) (min hi (e.base + e.size))) s

/-- Extents that lie outside a range leave it as it is. -/
theorem eraseLeft_disjoint (s : State) (lo hi : Nat) (es : List Extent) (h : ∀ e ∈ es, e.base + e.size ≤ lo ∨ hi ≤ e.base) :
    s.eraseLeft lo hi es = s := by
  unfold eraseLeft
  induction es with
  | nil => rfl
  | cons e es ih =>
    have he := h e (by simp)
    rw [List.foldl_cons, erasePool, if_neg (by omega)]
    exact ih fun x hx => h x (List.mem_cons_of_mem _ hx)

/-- A byte that is erased on both sides of the pool port stays so. -/
theorem eraseLeft_keepsZero {s : State} {a : Nat} (lo hi : Nat) (es : List Extent) (h : s.homeByte a = 0 ∧ s.poolMem.get 0 a = 0) :
    (s.eraseLeft lo hi es).homeByte a = 0 ∧ (s.eraseLeft lo hi es).poolMem.get 0 a = 0 := by
  unfold eraseLeft
  induction es generalizing s with
  | nil => exact h
  | cons e es ih =>
    refine ih ?_
    rw [homeByte_erasePool, poolMem_erasePool, h.1, h.2, ite_self]
    exact ⟨rfl, rfl⟩

theorem eraseLeft_zero (s : State) {a : Nat} (lo hi : Nat) {es : List Extent} {e : Extent} (he : e ∈ es) (h1 : max lo e.base ≤ a)
    (h2 : a < min hi (e.base + e.size)) :
    (s.eraseLeft lo hi es).homeByte a = 0 ∧ (s.eraseLeft lo hi es).poolMem.get 0 a = 0 := by
  induction es generalizing s with
  | nil => cases he
  | cons x es ih =>
    rcases List.mem_cons.mp he with rfl | he
    · refine eraseLeft_keepsZero lo hi es ?_
      rw [homeByte_erasePool, poolMem_erasePool, if_pos ⟨h1, h2⟩, if_pos ⟨h1, h2⟩]
      exact ⟨rfl, rfl⟩
    · exact ih _ he

/-- No translation to a frame that has been forgotten is left, R197. -/
theorem forgetFrame_forgotten (s : State) (frame : Nat) : Forgotten (s.forgetFrame frame) frame := by
  refine ⟨fun e he => ?_, fun e he h => ?_⟩
  · have hno := (List.mem_filter.mp he).2
    rw [Bool.not_eq_true', List.any_eq_false] at hno
    by_contra hc
    have hin : frame - e.pa ∈ span 0 e.leaf := mem_span.2 (by omega)
    refine hno _ hin (beq_iff_eq.2 ?_)
    omega
  · have hno := (List.mem_filter.mp he).2
    simp [h] at hno

theorem mayUse_unswept {s : State} {f : Nat} (h : f ∈ s.unswept) (w : Nat) : s.mayUse w (f * 65536) = false := by
  have hf : f * 65536 / 65536 = f := Nat.mul_div_cancel f (by omega)
  unfold mayUse
  rw [hf, List.contains_iff_mem.2 h, Bool.not_true, Bool.and_false]

end State

/-! ## The privileged registers, R3, R203, R236, R311, R390, R411 -/

/-- QUEUE_SETTINGS of a queue that holds no task, in a domain with room, R311. -/
theorem exec_queueSettingsWrite {s : State} {w q : Nat} {x : Queue} (v : BitVec 128) (hq : s.queues.find? q = some x) (hw : x.world = w)
    (ho : s.openTasks q = 0)
    (hm : (s.queues.filter fun k => k.1 != q && k.2.domain == v.extractLsb' 96 12).length < 64) :
    exec (.queueSettingsWrite w q v) s = .next (s.updQueue q fun y => { y with
      domain := v.extractLsb' 96 12, swapthr := v.extractLsb' 64 32
      quantum := if v.extractLsb' 32 32 = 0 then 1 else v.extractLsb' 32 32 }) := by
  show execQueueSettingsWrite w q v s = _
  unfold execQueueSettingsWrite
  rw [hq]
  simp only [hw, ho, hm.not_ge, ne_eq, not_true_eq_false, Nat.lt_irrefl, decide_false, Bool.or_self, Bool.false_eq_true, if_false]

theorem exec_queueSettingsWrite_busy {s : State} {q : Nat} (w : Nat) (v : BitVec 128) (ho : 0 < s.openTasks q) :
    exec (.queueSettingsWrite w q v) s = .next s := by
  show execQueueSettingsWrite w q v s = _
  unfold execQueueSettingsWrite
  split
  · rfl
  · simp only [ho, decide_true, Bool.or_true, Bool.true_or, if_true]

/-- The value that CKPTCTL takes, R390: MODE 3 is stored as 0, and bits 1 to 7 are 0. -/
def ckptStored (v : BitVec 32) : BitVec 32 :=
  if v.extractLsb' 8 2 = 3 then v &&& 0xFFFFFF01 &&& 0xFFFFFCFF else v &&& 0xFFFFFF01

theorem ckptStored_bits (v : BitVec 32) :
    (ckptStored v).getLsbD 0 = v.getLsbD 0 ∧ (ckptStored v).extractLsb' 1 7 = 0 ∧
      (ckptStored v).extractLsb' 8 2 = (if v.extractLsb' 8 2 = 3 then 0 else v.extractLsb' 8 2) ∧
      (ckptStored v).extractLsb' 10 22 = v.extractLsb' 10 22 := by
  have mode : (0xFFFFFF01 : BitVec 32).extractLsb' 8 2 = BitVec.allOnes 2 := by decide
  have high : (0xFFFFFF01 : BitVec 32).extractLsb' 10 22 = BitVec.allOnes 22 := by decide
  have high' : (0xFFFFFCFF : BitVec 32).extractLsb' 10 22 = BitVec.allOnes 22 := by decide
  unfold ckptStored
  split
  · refine ⟨by simp, ?_, ?_, ?_⟩
    · simp [BitVec.extractLsb'_and]
    · simp [BitVec.extractLsb'_and]
    · rw [BitVec.extractLsb'_and, BitVec.extractLsb'_and, high, high', BitVec.and_allOnes, BitVec.and_allOnes]
  · refine ⟨by simp, ?_, ?_, ?_⟩
    · simp [BitVec.extractLsb'_and]
    · rw [BitVec.extractLsb'_and, mode, BitVec.and_allOnes]
    · rw [BitVec.extractLsb'_and, high, BitVec.and_allOnes]

theorem exec_ckptctlWrite (s : State) (v : BitVec 32) : exec (.ckptctlWrite 0 v) s = .next (s.setCkpt (ckptStored v)) := rfl

/-- ERASECAP holds a share of 1 to 10 sixteenths, R203 (log entry 33). -/
theorem eraseShare_toNat (v : BitVec 4) : (if v = 0 then 1 else if 10 < v.toNat then 10 else v).toNat = max 1 (min 10 v.toNat) := by
  revert v
  decide

/-- RETRAIN holds 1 to 1,000, R411. -/
theorem retrainPeriod_toNat (v : BitVec 16) :
    (if v = 0 then 1 else if 1000 < v.toNat then 1000 else v).toNat = max 1 (min 1000 v.toNat) := by
  split_ifs with h0 h1
  · subst h0; rfl
  · rw [Nat.min_eq_left h1.le]; rfl
  · have hpos : v.toNat ≠ 0 := fun h => h0 (BitVec.eq_of_toNat_eq (by simpa using h))
    omega

/-- The shares, thresholds and period that world 0 writes, each as its table has it. -/
theorem exec_registerWrite (s : State) (i : Nat) (v : BitVec 32) : ∃ share period,
    exec (.registerWrite 0 (.erasecap i) v) s = .next { s with regs := { s.regs with eraseCap := s.regs.eraseCap.set 2 i share } } ∧
    exec (.registerWrite 0 (.aliasctl i) v) s =
      .next { s with regs := { s.regs with aliasHot := s.regs.aliasHot.set 16 i (v.setWidth 6) } } ∧
    exec (.registerWrite 0 .retrain v) s = .next { s with regs := { s.regs with retrain := period } } ∧
    share.toNat = max 1 (min 10 (v.toNat % 16)) ∧ period.toNat = max 1 (min 1000 (v.toNat % 65536)) := by
  refine ⟨_, _, rfl, rfl, rfl, ?_, ?_⟩
  · exact (eraseShare_toNat _).trans (by rw [BitVec.toNat_setWidth])
  · exact (retrainPeriod_toNat _).trans (by rw [BitVec.toNat_setWidth])

/-- A read-only register and a retraining change nothing, and no world but 0 writes a privileged register, R3, R411. -/
theorem registers_refuse (s : State) (w c : Nat) (r : RegName) (v : BitVec 32) :
    exec (.registerWrite w .readOnly v) s = .next s ∧ exec (.retrainTimer c) s = .next s ∧
      (w ≠ 0 → exec (.registerWrite w r v) s = .next s ∧ exec (.ckptctlWrite w v) s = .next s) := by
  refine ⟨?_, rfl, fun hw => ⟨?_, ?_⟩⟩
  · show execRegisterWrite w .readOnly v s = _
    unfold execRegisterWrite
    rw [ite_self]
  · exact congrArg Host.Outcome.next (if_pos hw)
  · exact congrArg Host.Outcome.next (if_pos hw)

/-! ## Frames and Pool extents that change hands, R197, R203, R216, R409 -/

theorem exec_frameAssign {s : State} {w f : Nat} {x : World} (hw : s.worlds.find? w = some x) (ho : s.owner.get 0 f = 0)
    (hc : s.frameClean f = true) (ht : f * 65536 + 65536 ≤ s.localTop) :
    exec (.frameAssign w f) s = .next { s with owner := s.owner.set 0 f w } := by
  refine congrArg Host.Outcome.next (if_neg ?_)
  simp [hw, ho, hc, ht]

theorem exec_frameReturn {s : State} {w f : Nat} (ho : s.owner.get 0 f = w) (ht : f * 65536 + 65536 ≤ s.localTop)
    (ha : s.inArea f = false) : exec (.frameReturn w f) s = .next { s.forgetFrame f with
      shared := s.shared.erase f, unswept := if s.unswept.contains f then s.unswept else s.unswept ++ [f] } := by
  refine congrArg Host.Outcome.next (if_neg ?_)
  simp [ho, ht, ha]

/-- Whole pages of the Pool that nobody holds become an extent, and lose what other worlds have left there. -/
theorem exec_extentAdd {s : State} {w base size : Nat} {x : World} (hw : s.worlds.find? w = some x) (hn : s.boot.frameN ≠ 0)
    (hp : isPool base = true) (h0 : 0 < size) (hb : base % 65536 = 0) (hs : size % 65536 = 0)
    (hd : ∀ e ∈ s.extents.values, base + size ≤ e.base ∨ e.base + e.size ≤ base) (hr : s.rangeBusy base (base + size) = false) :
    exec (.extentAdd w base size) s = .next { s.eraseLeft base (base + size) (s.past.filter fun e => e.world != w) with
      extents := s.extents.put s.nextId ⟨w, base, size, none⟩, nextId := s.nextId + 1
      past := s.past.flatMap (Extent.without base (base + size)) } := by
  have hov : (s.extents.values.any fun e => decide (e.base < base + size) && decide (base < e.base + e.size)) = false := by
    rw [List.any_eq_false]
    intro e he
    have := hd e he
    simp only [Bool.and_eq_true, decide_eq_true_eq]
    omega
  refine congrArg Host.Outcome.next (if_neg ?_)
  simp [hw, hn, hp, h0.ne', hb, hs, hov, hr]

theorem exec_extentRevoke_later {s : State} {k grace : Nat} {e : Extent} (he : s.extents.find? k = some e) (hr : e.revoking = none)
    (hg : 0 < grace) : exec (.extentRevoke k grace) s =
      .next { s with extents := s.extents.put k { e with revoking := some (s.clock + grace) } } := by
  show execExtentRevoke k grace s = _
  unfold execExtentRevoke
  rw [he]
  simp [hr, hg.ne']

theorem exec_graceExpiry_early {s : State} {k by_ : Nat} {e : Extent} (he : s.extents.find? k = some e) (hr : e.revoking = some by_)
    (hc : s.clock < by_) (hh : s.holders e ≠ []) : exec (.graceExpiry k) s = .next s := by
  show execGraceExpiry k s = _
  unfold execGraceExpiry
  rw [he]
  simp [hr, hc.not_ge, hh]

/-- A revocation that is forced, or whose leases have ended, releases the extent. -/
theorem exec_releases {s : State} {k grace : Nat} {i : Instr} {e : Extent} (he : s.extents.find? k = some e)
    (hi : (i = .extentRevoke k 0 ∧ e.revoking = none) ∨
      (i = .graceExpiry k ∧ e.revoking = some grace ∧ (grace ≤ s.clock ∨ s.holders e = []))) (hr : s.reenc = []) :
    exec i s = .next (s.releaseExtent k e) := by
  have hrel : s.releasable e = true := by simp [State.releasable, hr]
  rcases hi with ⟨rfl, hn⟩ | ⟨rfl, hn, hg⟩
  · show execExtentRevoke k 0 s = _
    unfold execExtentRevoke
    rw [he]
    simp [hn, hrel]
  · show execGraceExpiry k s = _
    unfold execGraceExpiry
    rw [he]
    have hgo : ((s.holders e).isEmpty || decide (grace ≤ s.clock)) = true := by
      rcases hg with hg | hg <;> simp [hg]
    simp only [hn, hgo, hrel, Bool.and_self, if_true]

/-- What the release of an extent leaves where nothing is aliased, R216. -/
theorem releaseExtent_spec {s : State} (h : s.alias_ = []) (k : Nat) (e : Extent) :
    let s' := s.releaseExtent k e
    s'.extents.find? k = none ∧ s'.mem = s.mem ∧
    (∀ y ∈ s'.ops, ∃ o, (y.1, o) ∈ s.ops ∧ y.2 = { o with kind := State.OpKind.lose e.base (e.base + e.size) o.kind }) ∧
    (∀ a, s'.poolMem.get 0 a = if e.base ≤ a ∧ a < e.base + e.size then s.homeByte a else s.poolMem.get 0 a) ∧
    (∀ u a, a < 2 ^ 52 → e.base ≤ a → a < e.base + e.size → s'.held? u a = none) ∧
    ∀ t y, s.tasks.find? t = some y → t ∈ s.holders e → y.stage = .leased → y.code = none →
      (s'.tasks.find? t).map (·.code) = some (some .extentRevoked) := by
  have hd := s.endEach_dropsOps .extentRevoked none (s.holders e)
  rw [State.releaseExtent_noAlias h]
  refine ⟨?_, hd.mem, fun y hy => ?_, fun a => ?_, fun u a ha hlo hhi => ?_, fun t y hy ht hs hc => ?_⟩
  · exact (FMap.find?_erase _ k k).trans (if_pos rfl)
  · obtain ⟨o, ho, hyo⟩ := FMap.mem_mapVals hy
    exact ⟨o, hd.ops _ ho, hyo⟩
  · refine (FMap.get_spliceSlice _ _ _ _ _ _).trans ?_
    rw [hd.mem, hd.pool]
    rfl
  · exact State.held?_erase _ _ _ u a ha hlo hhi
  · obtain ⟨y', hy', hc'⟩ := State.endEach_code .extentRevoked none (s.holders e) hy (by rw [hs]; decide)
    dsimp only
    rw [FMap.find?_mapVals, hy', Option.map_some, Option.map_some, hc', if_pos ht, hc, Option.none_or]

/-- Settles O56: each register as its equation says, frames and extents by what an assignment, a return and a release leave. -/
theorem registersAndFrames : Obligations.RegistersAndFrames := by
  unfold Obligations.RegistersAndFrames
  refine ⟨?settings, ?busy, ?ckptctl, ?shares, ?refused, ?assigned, ?returned, ?added, ?revoked, ?grace, ?released⟩
  case settings =>
    intro s w q v x hq hw ho hm
    refine ⟨_, exec_queueSettingsWrite v hq hw ho hm, rfl, fun p hp => ?_, ?_⟩
    · exact (FMap.find?_adjust _ _ _ _).trans (if_neg hp)
    · rw [State.updQueue, FMap.find?_adjust, if_pos rfl, hq]
      rfl
  case busy =>
    exact fun s w q v ho => exec_queueSettingsWrite_busy w v ho
  case ckptctl =>
    intro s v
    obtain ⟨h0, h1, h8, h10⟩ := ckptStored_bits v
    exact ⟨_, exec_ckptctlWrite s v, rfl, h0, h1, h8, h10, rfl⟩
  case shares =>
    intro s i v
    obtain ⟨share, period, h1, h2, h3, hshare, hperiod⟩ := exec_registerWrite s i v
    refine ⟨_, _, _, h1, h2, h3, rfl, rfl, rfl, fun j => ?_, fun j => FMap.get_set _ _ _ _ _, hperiod⟩
    dsimp only
    rw [FMap.get_set, apply_ite BitVec.toNat, hshare]
  case refused =>
    exact registers_refuse
  case assigned =>
    intro s w f x hw ho hc ht
    exact ⟨_, exec_frameAssign hw ho hc ht, rfl, fun g => FMap.get_set _ _ _ _ _⟩
  case returned =>
    intro s w f ho ht ha
    have hf : f ∈ if s.unswept.contains f = true then s.unswept else s.unswept ++ [f] := by
      split
      · rename_i h; exact List.contains_iff_mem.1 h
      · simp
    exact ⟨_, exec_frameReturn ho ht ha, s.forgetFrame_forgotten f, rfl, hf, (FMap.find?_erase _ f f).trans (if_pos rfl),
      State.mayUse_unswept hf⟩
  case added =>
    intro s w base size x hw hn hp h0 hb hs hd hr
    refine ⟨_, exec_extentAdd hw hn hp h0 hb hs hd hr, FMap.find?_put_self _ _ _, fun k hk => ?_, fun e he hew a h1 h2 => ?_,
      fun hpast => ?_⟩
    · exact (FMap.find?_put _ _ _ _).trans (if_neg hk)
    · exact s.eraseLeft_zero base (base + size) (List.mem_filter.2 ⟨he, by simpa using hew⟩) h1 h2
    · rw [State.eraseLeft_disjoint]
      intro e he
      obtain ⟨he, hew⟩ := List.mem_filter.1 he
      exact (hpast e he).resolve_left (by simpa using hew)
  case revoked =>
    intro s k grace e he hr hg
    exact ⟨_, exec_extentRevoke_later he hr hg, rfl, FMap.find?_put_self _ _ _⟩
  case grace =>
    exact fun s k by_ e he hr hc hh => exec_graceExpiry_early he hr hc hh
  case released =>
    intro s k grace i e he hi ha hr
    exact ⟨_, exec_releases he hi hr, releaseExtent_spec ha k e⟩

end Sys2Proof.Machine

/-! SUPPORT. What is read back after a write to a scratchpad or a cache, and what a performed store changes. -/

namespace Sys2Proof.Machine

/-! ## Scratchpads and caches read back, R71, R222, R223 -/

/-- A key that none of the addresses of a run has reads as before. -/
theorem get_writeRun_other (key : Nat → Nat) {k : Nat} (a : Nat) (bs : List (BitVec 8)) (m : Memory)
    (hk : ∀ j, a ≤ j → j < a + bs.length → k ≠ key j) :
    (bs.foldl (fun (am : Nat × FMap (BitVec 8)) b => (am.1 + 1, am.2.set 0 (key am.1) b)) (a, m)).2.get 0 k = m.get 0 k := by
  induction bs generalizing a m with
  | nil => rfl
  | cons b bs ih =>
    rw [List.length_cons] at hk
    rw [List.foldl_cons, ih _ _ fun j h1 h2 => hk j (by omega) (by omega), FMap.get_set, if_neg (hk a (by omega) (by omega))]

theorem cKey_inj {u v a b : Nat} (ha : a < 2 ^ 52) (hb : b < 2 ^ 52) (h : cKey u a = cKey v b) : u = v ∧ a = b := by
  unfold cKey at h; omega

/-- Bytes written valid and dirty at the keys of their addresses in a cache. -/
def putDirty (u pa : Nat) (bs : List (BitVec 8)) (m : FMap CByte) : FMap CByte :=
  (bs.foldl (fun (am : Nat × FMap CByte) b => (am.1 + 1, am.2.put (cKey u am.1) ⟨b, true⟩)) (pa, m)).2

theorem putDirty_cons (u pa : Nat) (b : BitVec 8) (bs : List (BitVec 8)) (m : FMap CByte) :
    putDirty u pa (b :: bs) m = putDirty u (pa + 1) bs (m.put (cKey u pa) ⟨b, true⟩) := rfl

/-- A key that none of the written addresses has reads as before. -/
theorem find?_putDirty_other {u k : Nat} (pa : Nat) (bs : List (BitVec 8)) (m : FMap CByte)
    (hk : ∀ a, pa ≤ a → a < pa + bs.length → k ≠ cKey u a) : (putDirty u pa bs m).find? k = m.find? k := by
  induction bs generalizing pa m with
  | nil => rfl
  | cons b bs ih =>
    rw [List.length_cons] at hk
    rw [putDirty_cons, ih _ _ fun a h1 h2 => hk a (by omega) (by omega), FMap.find?_put,
      if_neg (hk pa (by omega) (by omega))]

theorem find?_putDirty_written {u a : Nat} (pa : Nat) (bs : List (BitVec 8)) (m : FMap CByte) (h1 : pa ≤ a)
    (h2 : a < pa + bs.length) : (putDirty u pa bs m).find? (cKey u a) = some ⟨bs.getD (a - pa) 0, true⟩ := by
  induction bs generalizing pa m with
  | nil => rw [List.length_nil] at h2; omega
  | cons b bs ih =>
    rw [putDirty_cons]
    rw [List.length_cons] at h2
    rcases h1.eq_or_lt with rfl | h1
    · rw [find?_putDirty_other, FMap.find?_put_self, Nat.sub_self, List.getD_cons_zero]
      intro b h3 h4 h5
      unfold cKey at h5; omega
    · rw [ih _ _ h1 (by omega), show a - pa = (a - (pa + 1)) + 1 by omega, List.getD_cons_succ]

namespace State

@[simp] theorem setCMeta_cbytes (s : State) (u x : Nat) (f : CMeta → CMeta) : (s.setCMeta u x f).cbytes = s.cbytes := by
  unfold setCMeta; dsimp only; split <;> rfl

/-- What a write leaves in the caches: the bytes, on top of what the claim of its line has left. -/
theorem cacheWrite_cbytes (s : State) (u w pa : Nat) (bs : List (BitVec 8)) (tag : Bool) :
    (s.cacheWrite u w pa bs tag).cbytes = putDirty u pa bs (s.claim u (pa / 128) w).cbytes :=
  setCMeta_cbytes _ _ _ _

theorem cacheWrite_memories (s : State) (u w pa : Nat) (bs : List (BitVec 8)) (tag : Bool) :
    SameMemories (s.claim u (pa / 128) w) (s.cacheWrite u w pa bs tag) := by
  unfold cacheWrite
  refine SameMemories.trans ?_ (setCMeta_same _ _ _ _)
  exact ⟨rfl, rfl, rfl, rfl, rfl⟩

/-- A cache with room for a line, or that holds it under its tag, lets no line go for it. -/
theorem claim_of_keepsLines {s : State} {u w pa n : Nat} (h : s.keepsLines u w pa n = true) : s.claim u (pa / 128) w = s := by
  have hx := List.all_eq_true.1 h (pa / 128) (mem_span.2 (by omega))
  unfold claim
  split
  · rename_i hm
    have hr : s.leaver u = none := by
      simp only [hm, decide_eq_true_eq] at hx
      exact if_pos (by omega)
    rw [room, hr]
  · rename_i m hm
    simp only [hm, beq_iff_eq] at hx
    exact if_pos hx

theorem held?_cacheWrite_written (s : State) {u a : Nat} (w pa : Nat) (bs : List (BitVec 8)) (tag : Bool) (h1 : pa ≤ a)
    (h2 : a < pa + bs.length) : (s.cacheWrite u w pa bs tag).held? u a = some ⟨bs.getD (a - pa) 0, true⟩ := by
  rw [held?, cacheWrite_cbytes, find?_putDirty_written pa bs _ h1 h2]

theorem held?_cacheWrite_other {s : State} {u v w pa a : Nat} {bs : List (BitVec 8)} (tag : Bool) (hpa : pa + bs.length ≤ 2 ^ 52)
    (ha : a < 2 ^ 52) (hk : s.keepsLines u w pa bs.length = true) (h : v ≠ u ∨ a < pa ∨ pa + bs.length ≤ a) :
    (s.cacheWrite u w pa bs tag).held? v a = s.held? v a := by
  rw [held?, cacheWrite_cbytes, claim_of_keepsLines hk, find?_putDirty_other]
  · rfl
  · intro b h1 h2 h3
    obtain ⟨rfl, rfl⟩ := cKey_inj ha (by omega) h3
    omega

/-- A byte of any gang's scratchpads after a write to one gang's. -/
theorem spadByte_spadWrite_all {s : State} {gang la a : Nat} (g : Nat) {bs : List (BitVec 8)} (tag : Bool) (hla : la + bs.length ≤ 2 ^ 24)
    (ha : a < 2 ^ 24) : (s.spadWrite gang la bs tag).spadByte g a =
      if g = gang ∧ la ≤ a ∧ a < la + bs.length then bs.getD (a - la) 0 else s.spadByte g a := by
  by_cases hg : g = gang
  · subst hg
    rw [spadByte_spadWrite]
    simp
  · rw [if_neg fun h => hg h.1]
    refine get_writeRun_other (spadKey gang) la bs s.spad fun b h1 h2 h3 => hg ?_
    unfold spadKey at h3; omega

end State

/-- Settles O8: the home slices by the law of a plain write, the scratchpads and caches by runs of keyed writes. -/
theorem readAfterWrite : Obligations.ReadAfterWrite := by
  unfold Obligations.ReadAfterWrite
  refine ⟨homeByte_rawWrite, ?scratchpad, ?written, ?other⟩
  case scratchpad =>
    exact fun s gang la g a bs tag hla ha => State.spadByte_spadWrite_all g tag hla ha
  case written =>
    exact fun s u w pa a bs tag h1 h2 => State.held?_cacheWrite_written s w pa bs tag h1 h2
  case other =>
    intro s u v w pa a bs tag hpa ha hk h
    have hmem := (State.cacheWrite_memories s u w pa bs tag).mem
    rw [State.claim_of_keepsLines hk] at hmem
    exact ⟨State.held?_cacheWrite_other tag hpa ha hk h, hmem⟩

end Sys2Proof.Machine
namespace Sys2Proof.Machine

namespace State

/-! ## What a performed store may change, R70, R222, R254 -/

/-- Nothing but the caches and what lies behind them differs: home slices and their metadata, redirects with the quotas that they
count in, and the ages of frames. -/
def OnlyCaches (s t : State) : Prop :=
  t = { s with
    mem := t.mem, meta_ := t.meta_, alias_ := t.alias_, worlds := t.worlds, cbytes := t.cbytes, cmeta := t.cmeta, frames := t.frames }

theorem OnlyCaches.refl (s : State) : OnlyCaches s s := rfl

theorem OnlyCaches.trans {s t u : State} (h : OnlyCaches s t) (k : OnlyCaches t u) : OnlyCaches s u := by
  unfold OnlyCaches at h k ⊢
  rw [h] at k
  exact k

theorem OnlyCaches.foldl {α : Type} (g : State → α → State) (h : ∀ s x, OnlyCaches s (g s x)) (xs : List α) (s : State) :
    OnlyCaches s (xs.foldl g s) := by
  induction xs generalizing s with
  | nil => exact .refl s
  | cons x xs ih => exact (h s x).trans (ih _)

theorem putLanded_onlyCaches (s : State) (x : Nat) (d : LineData) : OnlyCaches s (s.putLanded x d) := rfl

theorem landLine_onlyCaches (s : State) (x : Nat) : OnlyCaches s (s.landLine x) :=
  OnlyCaches.foldl _ (fun s (yd : Nat × LineData) => putLanded_onlyCaches s yd.1 yd.2) _ s

theorem beforeWrite_onlyCaches (s : State) (x : Nat) : OnlyCaches s (s.beforeWrite x) := by
  unfold beforeWrite
  extract_lets s1
  have h1 : OnlyCaches s s1 := by
    unfold s1
    split
    · exact landLine_onlyCaches s x
    · exact .refl s
  split
  · exact (h1.trans (OnlyCaches.foldl landLine landLine_onlyCaches _ s1)).trans rfl
  · exact h1

theorem rawWrite_onlyCaches (s : State) (pa : Nat) (bs : List (BitVec 8)) : OnlyCaches s (s.rawWrite pa bs) := rfl

theorem useFrame_onlyCaches (s : State) (pa : Nat) : OnlyCaches s (s.useFrame pa) := by
  unfold useFrame
  split <;> rfl

theorem mergeHome_onlyCaches (s : State) (x : Nat) (ds : List (Nat × BitVec 8)) (tags : BitVec 8) (poison : Bool) :
    OnlyCaches s (s.mergeHome x ds tags poison) := by
  unfold mergeHome
  refine OnlyCaches.trans ?_ (useFrame_onlyCaches _ _)
  have hruns := OnlyCaches.foldl _ (fun s (r : Nat × List (BitVec 8)) => rawWrite_onlyCaches s r.1 r.2) (runs ds) (s.beforeWrite x)
  exact ((beforeWrite_onlyCaches s x).trans hruns).trans rfl

theorem setCMeta_onlyCaches (s : State) (u x : Nat) (f : CMeta → CMeta) : OnlyCaches s (s.setCMeta u x f) := by
  unfold setCMeta
  dsimp only
  split <;> rfl

theorem cleanLine_onlyCaches (s : State) (u x : Nat) (ds : List (Nat × BitVec 8)) : OnlyCaches s (s.cleanLine u x ds) := by
  unfold cleanLine
  refine OnlyCaches.trans ?_ (setCMeta_onlyCaches _ _ _ _)
  rfl

theorem mergeCache_onlyCaches (s : State) (u x w : Nat) (ds : List (Nat × BitVec 8)) (tags : BitVec 8) (poison : Bool) :
    OnlyCaches s (s.mergeCache u x w ds tags poison) := by
  unfold mergeCache
  refine OnlyCaches.trans ?_ (setCMeta_onlyCaches _ _ _ _)
  rfl

theorem pushQuad_onlyCaches (p : Nat → Bool) (s : State) (u x : Nat) : OnlyCaches s (State.pushQuad p s u x) := by
  unfold pushQuad
  dsimp only
  split
  · exact .refl s
  · exact (cleanLine_onlyCaches _ _ _ _).trans (mergeHome_onlyCaches _ _ _ _ _)

theorem yieldQuad_onlyCaches (s : State) (u x : Nat) : OnlyCaches s (s.yieldQuad u x) :=
  (pushQuad_onlyCaches _ s u x).trans rfl

theorem claimQuad_onlyCaches (s : State) (u x tag : Nat) : OnlyCaches s (s.claimQuad u x tag) := by
  unfold claimQuad roomQuad
  split
  · split
    · exact .refl s
    · exact yieldQuad_onlyCaches _ _ _
  · split
    · exact .refl s
    · exact yieldQuad_onlyCaches _ _ _

theorem pushLine_onlyCaches (p : Nat → Bool) (s : State) (u x : Nat) : OnlyCaches s (State.pushLine p s u x) := by
  unfold pushLine
  dsimp only
  split
  · split
    · exact .refl s
    · split
      · exact ((cleanLine_onlyCaches _ _ _ _).trans (claimQuad_onlyCaches _ _ _ _)).trans (mergeCache_onlyCaches _ _ _ _ _ _ _)
      · split
        · exact .refl s
        · exact (cleanLine_onlyCaches _ _ _ _).trans (mergeHome_onlyCaches _ _ _ _ _)
  · exact pushQuad_onlyCaches p s u x

theorem yieldLine_onlyCaches (s : State) (u x : Nat) : OnlyCaches s (s.yieldLine u x) :=
  (pushLine_onlyCaches _ s u x).trans rfl

theorem claim_onlyCaches (s : State) (u x w : Nat) : OnlyCaches s (s.claim u x w) := by
  unfold claim room
  split
  · split
    · exact .refl s
    · exact yieldLine_onlyCaches _ _ _
  · split
    · exact .refl s
    · exact yieldLine_onlyCaches _ _ _

theorem cacheWrite_onlyCaches (s : State) (u w pa : Nat) (bs : List (BitVec 8)) (tag : Bool) :
    OnlyCaches s (s.cacheWrite u w pa bs tag) := by
  unfold cacheWrite
  refine OnlyCaches.trans ?_ (setCMeta_onlyCaches _ _ _ _)
  exact (claim_onlyCaches s u (pa / 128) w).trans rfl

/-- Nothing but where threads stand and what their predicates hold differs. -/
structure OnlyStands (s t : State) : Prop where
  only : t = { s with threads := t.threads }
  st : ∀ u, (t.thread u).st = (s.thread u).st
  there : ∀ u, (t.threads.find? u).isSome = (s.threads.find? u).isSome

theorem OnlyStands.refl (s : State) : OnlyStands s s := ⟨rfl, fun _ => rfl, fun _ => rfl⟩

theorem OnlyStands.trans {s t u : State} (h : OnlyStands s t) (k : OnlyStands t u) : OnlyStands s u := by
  refine ⟨?_, fun v => (k.st v).trans (h.st v), fun v => (k.there v).trans (h.there v)⟩
  have hk := k.only
  rw [h.only] at hk
  exact hk

theorem OnlyStands.foldl {α : Type} (g : State → α → State) (h : ∀ s x, OnlyStands s (g s x)) (xs : List α) (s : State) :
    OnlyStands s (xs.foldl g s) := by
  induction xs generalizing s with
  | nil => exact .refl s
  | cons x xs ih => exact (h s x).trans (ih _)

theorem thread_updThread_absent {s : State} {t : Nat} (u : Nat) (f : Thread → Thread) (h : s.threads.find? t = none) :
    (s.updThread t f).thread u = s.thread u := by
  unfold updThread thread FMap.get
  rw [FMap.find?_adjust, h]
  split
  · rename_i e; rw [e, h]; rfl
  · rfl

theorem updThread_onlyStands (s : State) (t : Nat) {f : Thread → Thread} (hf : ∀ h, (f h).st = h.st) : OnlyStands s (s.updThread t f) := by
  refine ⟨rfl, fun u => ?_, fun u => find?_updThread s t u f⟩
  cases h : s.threads.find? t with
  | none => rw [thread_updThread_absent u f h]
  | some x =>
    rw [thread_updThread s t u f (by rw [h]; rfl)]
    split
    · rename_i e; rw [hf, e]
    · rfl

theorem enter_onlyStands (s : State) (t pc : Nat) : OnlyStands s (s.enter t pc) := updThread_onlyStands s t fun _ => rfl

theorem setPred_onlyStands (s : State) (t : Nat) (p : BitVec 4) (b : Bool) : OnlyStands s (s.setPred t p b) :=
  updThread_onlyStands s t fun _ => rfl

theorem settleWait_onlyStands (s : State) (t : Nat) : OnlyStands s (s.settleWait t) := by
  unfold settleWait
  dsimp only
  split
  · split
    · exact enter_onlyStands s t _
    · exact .refl s
  · exact .refl s

theorem settleBwait_onlyStands (s : State) (t : Nat) : OnlyStands s (s.settleBwait t) := by
  unfold settleBwait
  dsimp only
  split
  · split
    · exact (setPred_onlyStands s t _ _).trans (enter_onlyStands _ t _)
    · split
      · exact enter_onlyStands s t _
      · split
        · exact (setPred_onlyStands s t _ _).trans (enter_onlyStands _ t _)
        · exact .refl s
  · exact .refl s

theorem settleObjects_onlyStands (s : State) (gang : Nat) : OnlyStands s (s.settleObjects gang) :=
  OnlyStands.foldl _ (fun s (th : Nat × Thread) => settleBwait_onlyStands s th.1) _ s

/-- What a store to memory may change: bytes, wherever they are held, and where threads stand. -/
structure OnlyStored (s t : State) : Prop where
  only : t = { s with
    mem := t.mem, meta_ := t.meta_, alias_ := t.alias_, worlds := t.worlds, cbytes := t.cbytes, cmeta := t.cmeta, frames := t.frames
    spad := t.spad, spadTag := t.spadTag, spadPoison := t.spadPoison, threads := t.threads, ring := t.ring }
  st : ∀ u, (t.thread u).st = (s.thread u).st
  there : ∀ u, (t.threads.find? u).isSome = (s.threads.find? u).isSome

theorem OnlyStored.refl (s : State) : OnlyStored s s := ⟨rfl, fun _ => rfl, fun _ => rfl⟩

theorem OnlyStored.trans {s t u : State} (h : OnlyStored s t) (k : OnlyStored t u) : OnlyStored s u := by
  refine ⟨?_, fun v => (k.st v).trans (h.st v), fun v => (k.there v).trans (h.there v)⟩
  have hk := k.only
  rw [h.only] at hk
  exact hk

theorem OnlyStored.foldl {α : Type} (g : State → α → State) (h : ∀ s x, OnlyStored s (g s x)) (xs : List α) (s : State) :
    OnlyStored s (xs.foldl g s) := by
  induction xs generalizing s with
  | nil => exact .refl s
  | cons x xs ih => exact (h s x).trans (ih _)

theorem OnlyCaches.stored {s t : State} (h : OnlyCaches s t) : OnlyStored s t := by
  have ht : t.threads = s.threads := by rw [h]
  refine ⟨?_, fun u => by unfold thread; rw [ht], fun u => by rw [ht]⟩
  unfold OnlyCaches at h
  rw [h]

theorem OnlyStands.stored {s t : State} (h : OnlyStands s t) : OnlyStored s t := by
  refine ⟨?_, h.st, h.there⟩
  rw [h.only]

theorem spadWrite_stored (s : State) (gang la : Nat) (bs : List (BitVec 8)) (tag : Bool) : OnlyStored s (s.spadWrite gang la bs tag) :=
  ⟨rfl, fun _ => rfl, fun _ => rfl⟩

theorem memWrite_stored (s : State) (t : Nat) (p : Place) (bs : List (BitVec 8)) (tag : Bool) : OnlyStored s (s.memWrite t p bs tag) := by
  cases p with
  | scratch g la => exact (spadWrite_stored s g la bs tag).trans (settleObjects_onlyStands _ g).stored
  | global pa =>
    exact OnlyStored.foldl _ (fun s (q : Nat × List (BitVec 8)) => (cacheWrite_onlyCaches s _ _ q.1 q.2 tag).stored) _ s

theorem writeParts_stored (s : State) (t : Nat) (ps : List (Place × Nat)) (bs : List (BitVec 8)) : OnlyStored s (s.writeParts t ps bs) := by
  unfold writeParts
  induction ps generalizing s bs with
  | nil => exact .refl s
  | cons p ps ih => exact (memWrite_stored s t p.1 _ false).trans (ih _ _)

/-- Registers read as before where the rows are as before, and with them the values that pending registers read as. -/
theorem sameRegisters_of {s t : State} (hr : t.rows = s.rows) (hc : t.freeCtr = s.freeCtr) : SameRegisters s t := by
  intro u v _
  unfold reg tagOf pending row
  rw [hr, hc]
  exact ⟨rfl, rfl⟩

/-! ## The end of a store -/

/-- A store of a thread is over, R70, R87. -/
def storeOver (s : State) (id t : Nat) : State := (s.dropOp id).decSt t

/-- The end of a store is the end of its operation, and a thread at a `wait` may go on. -/
theorem storeOver_only (s : State) (id t : Nat) : s.storeOver id t =
    { s with ops := s.ops.erase id, rewaits := s.rewaits.erase id, fwds := (s.storeOver id t).fwds, threads := (s.storeOver id t).threads } := by
  have h := (settleWait_onlyStands ((s.dropOp id).updThread t fun h => { h with st := h.st - 1 }) t).only
  unfold storeOver decSt
  rw [h]
  rfl

theorem storeOver_st {s : State} (id : Nat) {t : Nat} (h : (s.threads.find? t).isSome = true) :
    ((s.storeOver id t).thread t).st = (s.thread t).st - 1 := by
  unfold storeOver decSt
  rw [(settleWait_onlyStands _ t).st, thread_updThread (s.dropOp id) t t _ h, if_pos rfl]
  rfl

/-- The store that a performed operation makes, before its end. -/
def stored (s : State) (o : Op) : State :=
  match o.kind with
  | .store p data tag => s.memWrite o.thread p data tag
  | .ringStore quad tile slot count data =>
    if count < s.ringTail (gangOf o.thread) quad then s
    else { s with ring := s.ring.set 0 (slotKey (gangOf o.thread) quad tile slot) data }
  | .contextStore ps => ps.foldl (fun s p => s.memWrite o.thread p.1 p.2 false) s
  | .batchPut ps => s.writeParts o.thread ps (batchBytes none)
  | _ => s

theorem stored_onlyStored (s : State) (o : Op) : OnlyStored s (s.stored o) := by
  unfold stored
  split
  · exact memWrite_stored s _ _ _ _
  · split
    · exact .refl s
    · exact ⟨rfl, fun _ => rfl, fun _ => rfl⟩
  · exact OnlyStored.foldl _ (fun s (p : Place × List (BitVec 8)) => memWrite_stored s _ p.1 p.2 false) _ s
  · exact writeParts_stored s _ _ _
  · exact .refl s

end State

/-- The kinds of operations that stores are, R70, R159. -/
theorem OpKind.stores_cases {k : OpKind} (h : k.stores = true) : (∃ p data tag, k = .store p data tag) ∨
    (∃ quad tile slot n data, k = .ringStore quad tile slot n data) ∨ (∃ ps, k = .contextStore ps) ∨ ∃ ps, k = .batchPut ps := by
  cases k with
  | store p data tag => exact .inl ⟨p, data, tag, rfl⟩
  | ringStore quad tile slot n data => exact .inr (.inl ⟨quad, tile, slot, n, data, rfl⟩)
  | contextStore ps => exact .inr (.inr (.inl ⟨ps, rfl⟩))
  | batchPut ps => exact .inr (.inr (.inr ⟨ps, rfl⟩))
  | _ => cases h

/-- A store that may be performed is made, and is then over. -/
theorem exec_storePerformed {s : State} {id : Nat} {o : Op} (ho : s.ops.find? id = some o) (hk : o.kind.stores = true)
    (hp : s.mayPerform id o = true) : exec (.storePerformed id) s = .next ((s.stored o).storeOver id o.thread) := by
  show execStorePerformed id s = _
  unfold execStorePerformed State.stored
  rw [ho]
  simp only [hp, Bool.not_true, Bool.false_eq_true, if_false]
  obtain ⟨p, data, tag, h⟩ | ⟨quad, tile, slot, n, data, h⟩ | ⟨ps, h⟩ | ⟨ps, h⟩ := OpKind.stores_cases hk <;> rw [h] <;> rfl

/-- Bytes that lie in one line are one piece, or none where there are no bytes. -/
theorem pieces_oneLine {pa : Nat} {bs : List (BitVec 8)} (h : pa % 128 + bs.length ≤ 128) :
    pieces (bs.length + 1) pa bs = if bs = [] then [] else [(pa, bs)] := by
  cases bs with
  | nil => rfl
  | cons b bs =>
    rw [List.length_cons] at h
    rw [pieces, List.take_of_length_le (by rw [List.length_cons]; omega), List.drop_of_length_le (by rw [List.length_cons]; omega)]
    · rfl
    · exact List.cons_ne_nil b bs

/-- A store within one line is one write to the thread's L1. -/
theorem State.memWrite_oneLine {s : State} {pa : Nat} {bs : List (BitVec 8)} (t : Nat) (tag : Bool) (h : pa % 128 + bs.length ≤ 128) :
    s.memWrite t (.global pa) bs tag = if bs = [] then s else s.cacheWrite (s.coreOf t) (s.worldOf t) pa bs tag := by
  unfold State.memWrite
  dsimp only
  rw [pieces_oneLine h]
  split <;> rfl

/-- Settles O36: a store is what its kind writes, followed by the end of its operation; the addressed memory reads back by O8's laws. -/
theorem storesPerform : Obligations.StoresPerform := by
  unfold Obligations.StoresPerform
  refine ⟨?ended, ?scratch, ?global, ?ring⟩
  case ended =>
    intro s id o ho hk hp ht
    have hs := s.stored_onlyStored o
    have hend := (s.stored o).storeOver_only id o.thread
    refine ⟨_, exec_storePerformed ho hk hp, fun k => ?_, ?_, State.sameRegisters_of ?_ ?_, ?_, ?_, ?_⟩
    · rw [hend, hs.only]
      exact FMap.find?_erase _ _ _
    · rw [State.storeOver_st id ((hs.there _).trans ht), hs.st]
    all_goals rw [hend, hs.only]
  case scratch =>
    intro s id gang la data tag o ho hkind hp hla
    have hs : s.stored o = (s.spadWrite gang la data tag).settleObjects gang := by unfold State.stored; rw [hkind]; rfl
    have hset := (s.spadWrite gang la data tag).settleObjects_onlyStands gang
    refine ⟨_, exec_storePerformed ho (by rw [hkind]; rfl) hp, ?mem, ?pool, ?caches, fun g a ha => ?byte⟩
    case byte =>
      rw [State.storeOver_only, hs, hset.only]
      exact State.spadByte_spadWrite_all g tag hla ha
    all_goals rw [State.storeOver_only, hs, hset.only]; rfl
  case global =>
    intro s id pa data tag o ho hkind hp hpa hline
    have hs : s.stored o = if data = [] then s else s.cacheWrite (s.coreOf o.thread) (s.worldOf o.thread) pa data tag := by
      unfold State.stored
      rw [hkind]
      exact State.memWrite_oneLine o.thread tag hline
    refine ⟨_, exec_storePerformed ho (by rw [hkind]; rfl) hp, ?_, fun a h1 h2 => ?_, fun hk => ⟨?_, ?_, fun u a ha h => ?_⟩⟩
    · rw [State.storeOver_only, hs]
      split
      · rfl
      · rw [State.cacheWrite_onlyCaches]
    · have hd : data ≠ [] := by rintro rfl; rw [List.length_nil] at h2; omega
      rw [State.storeOver_only, hs, if_neg hd]
      exact State.held?_cacheWrite_written s _ pa data tag h1 h2
    · rw [State.storeOver_only, hs]
      split
      · rfl
      · exact (SameMemories.mem (s.cacheWrite_memories _ _ pa data tag)).trans (by rw [State.claim_of_keepsLines hk])
    · rw [State.storeOver_only, hs]
      split
      · rfl
      · exact (SameMemories.pool (s.cacheWrite_memories _ _ pa data tag)).trans (by rw [State.claim_of_keepsLines hk])
    · rw [State.storeOver_only, hs]
      split
      · rfl
      · exact State.held?_cacheWrite_other tag hpa ha hk h
  case ring =>
    intro s id quad tile slot n data o ho hkind hp
    have hs : s.stored o = if n < s.ringTail (gangOf o.thread) quad then s
        else { s with ring := s.ring.set 0 (slotKey (gangOf o.thread) quad tile slot) data } := by
      unfold State.stored; rw [hkind]
    refine ⟨_, exec_storePerformed ho (by rw [hkind]; rfl) hp, ?_, fun k => ?_⟩
    · rw [State.storeOver_only, hs]
      split <;> exact ⟨rfl, rfl, rfl, rfl⟩
    · rw [State.storeOver_only, hs]
      split
      · rename_i h
        rw [if_neg fun hk => absurd hk.1 (Nat.not_le.2 h)]
      · rename_i h
        rw [FMap.get_set]
        simp only [Nat.not_lt.1 h, true_and]

end Sys2Proof.Machine
namespace Sys2Proof.Machine

/-! ## Bring-up, feature acceptance and firmware, R12, R393, R410, R412 -/

namespace FMap

variable {α : Type}

/-- A map that lists consecutive keys. -/
theorem find?_spanMap (f : Nat → α) (a n k : Nat) :
    find? ((span a n).map fun w => (w, f w)) k = if a ≤ k ∧ k < a + n then some (f k) else none := by
  induction n generalizing a with
  | zero => rw [if_neg (by omega)]; rfl
  | succ n ih =>
    simp only [span, List.map_cons, find?, ih]
    rcases Nat.lt_trichotomy a k with h | rfl | h
    · rw [if_neg h.ne]
      exact if_congr (by omega) rfl rfl
    · rw [if_pos rfl, if_pos (by omega)]
    · rw [if_neg h.ne', if_neg (by omega), if_neg (by omega)]

/-- A map that lists the elements of a list by their places. -/
theorem find?_zipIdxMap {β : Type} (f : β → α) (xs : List β) (i k : Nat) :
    find? ((xs.zipIdx i).map fun nd => (nd.2, f nd.1)) (i + k) = xs[k]?.map f := by
  induction xs generalizing i k with
  | nil => rfl
  | cons x xs ih =>
    simp only [List.zipIdx_cons, List.map_cons, find?]
    cases k with
    | zero => rw [Nat.add_zero, if_pos rfl]; rfl
    | succ k => rw [if_neg (by omega), show i + (k + 1) = i + 1 + k by omega, ih, List.getElem?_cons_succ]

end FMap

/-- The live slices that stage 5 programs for a die, R12. -/
theorem find?_liveCounts {slices : List Nat} {d n : Nat} (hd : d < 8) (h : slices[d]? = some n) :
    (liveCounts slices).find? d = some (max 1 (min 64 n)) := by
  have hf := FMap.find?_zipIdxMap (fun n => max 1 (min 64 n)) (slices.take 8) 0 d
  rw [Nat.zero_add, List.getElem?_take_of_lt hd, h] at hf
  exact hf

/-! The stages of a bring-up in their order, R410: the first check that fails halts it. -/

section

variable {b : Boot} {r : BootReport}

theorem bootStage_rom (h : r.romOk = false) : bootStage b r = (1, 1) := by
  simp [bootStage, h]

theorem bootStage_image (h : r.romOk = true) (hi : r.imageOk = false ∨ b.imageOk = false) : bootStage b r = (2, 2) := by
  rcases hi with hi | hi <;> simp [bootStage, h, hi]

theorem idsKnown_iff (xs ys : List Nat) : (xs.all ys.contains && ys.all xs.contains) = true ↔ ∀ i, i ∈ xs ↔ i ∈ ys := by
  simp only [Bool.and_eq_true, List.all_eq_true, List.contains_iff_mem]
  exact ⟨fun h i => ⟨h.1 i, h.2 i⟩, fun h => ⟨fun i => (h i).1, fun i => (h i).2⟩⟩

theorem bootStage_ids (h : r.romOk = true) (hi : r.imageOk = true) (hb : b.imageOk = true)
    (hd : ∃ i, i ∈ r.ids ∧ i ∉ b.cert ∨ i ∈ b.cert ∧ i ∉ r.ids) : bootStage b r = (3, 3) := by
  have hno : (r.ids.all b.cert.contains && b.cert.all r.ids.contains) = false := by
    rw [← Bool.not_eq_true, idsKnown_iff]
    obtain ⟨i, hi⟩ := hd
    intro hall
    have := hall i
    tauto
  unfold bootStage
  simp only [h, hi, hb, hno, Bool.and_self, Bool.not_true, Bool.not_false, Bool.false_eq_true, if_false, if_true]

/-- Past the identities, the memory and then the dies are checked. -/
theorem bootStage_known (h : r.romOk = true) (hi : r.imageOk = true) (hb : b.imageOk = true) (hd : ∀ i, i ∈ r.ids ↔ i ∈ b.cert) :
    bootStage b r = if !r.hbmOk then (4, 4) else if !r.diesOk then (5, 5) else (6, 0) := by
  unfold bootStage
  simp only [h, hi, hb, (idsKnown_iff _ _).2 hd, Bool.and_self, Bool.not_true, Bool.false_eq_true, if_false]

end

theorem exec_deviceReset (s : State) (r : BootReport) : exec (.deviceReset r) s = .next { State.reset with
    boot := { Boot.reset with
      stage := (bootStage s.boot r).1, halt := (bootStage s.boot r).2, recovery := decide ((bootStage s.boot r).2 = 2)
      image := s.boot.image, imageOk := s.boot.imageOk, cert := s.boot.cert
      slices := if (bootStage s.boot r).1 = 6 then liveCounts r.slices else [] }
    mem := s.poolMem, poolMem := s.poolMem, durable := s.durable, past := s.past ++ s.extents.values
    agenda := s.agenda, freeCtr := s.freeCtr, nextId := s.nextId } := rfl

/-- The worlds as the first write of the features accepted leaves them, R412: world 0 runs, and the tenant interfaces are unlocked. -/
def startedWorlds : FMap World := (span 0 41).map fun w => (w, if w = 0 then { World.fresh with tdisp := .run } else World.fresh)

theorem startedWorlds_tdisp (w : Nat) :
    (startedWorlds.find? w).map (·.tdisp) = if w = 0 then some .run else if w ≤ 40 then some .unlocked else none := by
  rw [startedWorlds, FMap.find?_spanMap]
  rcases Nat.eq_zero_or_pos w with rfl | hw
  · rfl
  · by_cases h : w ≤ 40
    · rw [if_pos (by omega), Option.map_some, if_neg hw.ne', if_neg hw.ne', if_pos h]; rfl
    · rw [if_neg (by omega), if_neg hw.ne', if_neg h]; rfl

theorem exec_featacceptWrite_first {s : State} (value : BitVec 128) (n : Nat) (hs : s.boot.stage = 6) (hh : s.boot.halt = 0)
    (ha : s.boot.accepted = false) : exec (.featacceptWrite value n) s = .next { s with
      boot := { s.boot with
        featAccept := value &&& s.boot.featOffer, accepted := true, stage := 7
        frameN := if (value &&& s.boot.featOffer).getLsbD 4 then max 1 (min 5 n) else 0 }
      worlds := startedWorlds } := by
  refine congrArg Host.Outcome.next (if_neg ?_)
  simp [hs, hh, ha]

theorem exec_featacceptWrite_again {s : State} (value : BitVec 128) (n : Nat) (ha : s.boot.accepted = true) :
    exec (.featacceptWrite value n) s = .next s := by
  refine congrArg Host.Outcome.next (if_pos ?_)
  simp [ha]

theorem exec_firmwareUpdate_taken {s : State} (image : Nat) (ok : Bool)
    (hw : ∀ w ∈ s.worlds, w.1 ≠ 0 → w.2.tdisp ≠ .locked ∧ w.2.tdisp ≠ .run) (hh : s.boot.halt = 0 ∨ s.boot.recovery = true) :
    exec (.firmwareUpdate image ok) s = .next { s with boot := { s.boot with image := image, imageOk := ok } } := by
  refine congrArg Host.Outcome.next (if_neg ?_)
  have hidle : (s.worlds.any fun w => w.1 != 0 && (decide (w.2.tdisp = .locked) || decide (w.2.tdisp = .run))) = false := by
    rw [List.any_eq_false]
    intro w hm
    simpa using hw w hm
  rcases hh with hh | hh <;> simp [hidle, hh]

theorem exec_firmwareUpdate_refused {s : State} (image : Nat) (ok : Bool) {w : Nat} {x : World} (hx : (w, x) ∈ s.worlds) (hw : w ≠ 0)
    (ht : x.tdisp = .locked ∨ x.tdisp = .run) : exec (.firmwareUpdate image ok) s = .next s := by
  refine congrArg Host.Outcome.next (if_pos ?_)
  have hbusy : (s.worlds.any fun w => w.1 != 0 && (decide (w.2.tdisp = .locked) || decide (w.2.tdisp = .run))) = true :=
    List.any_eq_true.2 ⟨(w, x), hx, by simpa [hw] using ht⟩
  simp [hbusy]

/-- Settles O54: a reset by the stage that its bring-up reaches, the rest by the equation of each write. -/
theorem deviceBoots : Obligations.DeviceBoots := by
  unfold Obligations.DeviceBoots
  refine ⟨?reset, ?first, ?again, ?taken, ?refused⟩
  case reset =>
    intro s r
    refine ⟨_, exec_deviceReset s r, rfl, rfl, rfl, rfl, rfl, fun h => ?_, fun h hi => ?_, fun h hi hb => ⟨fun hd => ?_, fun hd => ?_⟩⟩
    · rw [bootStage_rom h]; exact ⟨rfl, rfl⟩
    · rw [bootStage_image h hi]; exact ⟨rfl, rfl, rfl⟩
    · rw [bootStage_ids h hi hb hd]; exact ⟨rfl, rfl⟩
    · rw [bootStage_known h hi hb hd]
      refine ⟨fun h1 => ?_, fun h1 h2 => ?_, fun h1 h2 => ?_⟩
      · rw [h1]; exact ⟨rfl, rfl⟩
      · rw [h1, h2]; exact ⟨rfl, rfl⟩
      · rw [h1, h2]; exact ⟨rfl, rfl, fun d n hlt hn => find?_liveCounts hlt hn⟩
  case first =>
    exact fun s value n hs hh ha => ⟨_, exec_featacceptWrite_first value n hs hh ha, rfl, startedWorlds_tdisp⟩
  case again =>
    exact fun s value n ha => exec_featacceptWrite_again value n ha
  case taken =>
    exact fun s image ok hw hh => exec_firmwareUpdate_taken image ok hw hh
  case refused =>
    exact fun s image w ok x hx hw ht => exec_firmwareUpdate_refused image ok hx hw ht

end Sys2Proof.Machine
namespace Sys2Proof.Machine

/-! ## A shootdown where a task number is listed twice, R15, R211, R215 -/

/-- A task of world 0 that has nothing. -/
def idleTask (stage : Stage) (lease : List LeaseBlk) : Task :=
  ⟨TaskRec.dec [] fun _ => false, 0, 0, 0, 0, 0, stage, lease, [], 0, none, none, none, 0, []⟩

/-- Two tasks that are listed under one number: one that is not leased, but whose lease names a page of the Pool which it does not pin, and
one that is leased and holds nothing. The set of the page is full, and a cache holds a byte of the page that is to leave it. -/
def doubledTask : State := { State.reset with
  boot := { Boot.reset with frameN := 1 }
  tasks := [(0, idleTask .completed [⟨0, false, 2 ^ 35, false, 1⟩]), (0, idleTask .leased [])]
  frames := (span 1 16).map fun i => (2 ^ 35 + i * 2 ^ 17, ⟨0, 0, 0⟩)
  cbytes := [(cKey 0 ((2 ^ 35 + 2 ^ 17) * 65536), ⟨1, false⟩)] }

/-- The shootdown renews the lease of the task that is found under the number, and the page that leaves the set for it takes its bytes out
of the caches. -/
theorem doubledTask_shootdown : ∃ s', exec (.shootdown 0 0) doubledTask = .next s' ∧ s'.cbytes = [] :=
  ⟨_, rfl, by decide +kernel⟩

/-- Refutes O52: nothing says that a task number is listed once (`State.tablesForm`). A shootdown renews the lease of the task that is found
under the number of a listed one, and where two are listed under it, the hypotheses on the listed one do not bound what the renewal brings
into the frames: a page leaves its set, and the caches lose its bytes. -/
theorem not_pagesMove : ¬ Obligations.PagesMove := by
  unfold Obligations.PagesMove
  rintro ⟨hshoot, -⟩
  obtain ⟨s1, h1, hmem, -⟩ := hshoot doubledTask 0 0 (by decide) (by decide) (by decide)
  obtain ⟨s2, h2, hgone⟩ := doubledTask_shootdown
  obtain rfl : s1 = s2 := Host.Outcome.next.inj (h1.symm.trans h2)
  obtain ⟨-, -, -, hkept⟩ := hmem
  have hheld : s1.cbytes = doubledTask.cbytes := hkept
  rw [hgone] at hheld
  exact absurd hheld.symm (List.cons_ne_nil _ _)

end Sys2Proof.Machine

/-! SUPPORT. Decoding and encoding agree: a word holds a row of fields where its parts are those fields, and the decoder reads the parts from
which the encoder puts the word together (spec/03 and spec/04, R22 to R30, R42 to R51, R56). -/

namespace Sys2Proof

namespace Encode

/-! ## The fields of a word -/

/-- The bits of `w` from bit `s` on are those of the field `x`. -/
def Holds {k n : Nat} (w : BitVec k) (s : Nat) (x : BitVec n) : Prop := w.extractLsb' s n = x

theorem Holds.eq {k n : Nat} {w : BitVec k} {s : Nat} {x : BitVec n} (h : Holds w s x) : w.extractLsb' s n = x := h

theorem holds_append {k n m : Nat} (w : BitVec k) (s : Nat) (x : BitVec n) (y : BitVec m) :
    Holds w s (x ++ y) ↔ Holds w (s + m) x ∧ Holds w s y := by
  have hw : w.extractLsb' (s + m) n ++ w.extractLsb' s m = w.extractLsb' s (n + m) :=
    BitVec.extractLsb'_append_extractLsb'_eq_extractLsb' rfl
  unfold Holds
  rw [← hw]
  constructor
  · intro h
    have hx := congrArg (BitVec.extractLsb' m n) h
    have hy := congrArg (BitVec.extractLsb' 0 m) h
    rw [BitVec.extractLsb'_append_eq_left, BitVec.extractLsb'_append_eq_left] at hx
    rw [BitVec.extractLsb'_append_eq_right, BitVec.extractLsb'_append_eq_right] at hy
    exact ⟨hx, hy⟩
  · rintro ⟨rfl, rfl⟩; rfl

theorem holds_bit {k : Nat} (w : BitVec k) (s : Nat) (b : Bool) : Holds w s (bit b) ↔ w.getLsbD s = b := by
  have hw : w.extractLsb' s 1 = bit (w.getLsbD s) := by
    apply BitVec.eq_of_getLsbD_eq
    intro i hi
    obtain rfl : i = 0 := by omega
    simp [bit]
  unfold Holds
  rw [hw]
  refine ⟨fun h => ?_, congrArg bit⟩
  simpa [bit] using congrArg (BitVec.getLsbD · 0) h

theorem holds_ctl (w : BitVec 32) (ct : Ctl) : Holds w 0 (ctl ct) ↔ Decode.ctlOf w = ct ∧ w.getLsbD 0 = true := by
  obtain ⟨gp, n, g, e⟩ := ct
  have h1 : 1#1 = bit true := rfl
  rw [ctl, h1]
  simp only [holds_append, holds_bit]
  simp only [Holds, Nat.reduceAdd, Decode.ctlOf, Ctl.mk.injEq, and_assoc]

theorem holds_self {k : Nat} (w x : BitVec k) : Holds w 0 x ↔ w = x := by rw [Holds, BitVec.extractLsb'_eq_self]


/-- A field is its high part and its low part. -/
theorem holds_split {k n : Nat} (w : BitVec k) (s : Nat) (x : BitVec n) (a b : Nat) (h : a + b = n) :
    Holds w s x ↔ Holds w (s + b) (x.extractLsb' b a) ∧ Holds w s (x.extractLsb' 0 b) := by
  subst h
  rw [← holds_append, BitVec.extractLsb'_append_extractLsb']

/-- The class and the function code of a word, R42, as its leading literal gives them, for each width that the encoder gives to it. -/
theorem holds_opcode (w : BitVec 32) :
    (∀ x : BitVec 6, Holds w 26 x ↔ Holds w 29 (x.extractLsb' 3 3) ∧ Holds w 26 (x.extractLsb' 0 3)) ∧
    (∀ x : BitVec 7, Holds w 25 x ↔ Holds w 29 (x.extractLsb' 4 3) ∧ Holds w 25 (x.extractLsb' 0 4)) ∧
    (∀ x : BitVec 8, Holds w 24 x ↔ Holds w 29 (x.extractLsb' 5 3) ∧ Holds w 24 (x.extractLsb' 0 5)) ∧
    (∀ x : BitVec 10, Holds w 22 x ↔ Holds w 24 (x.extractLsb' 2 8) ∧ Holds w 22 (x.extractLsb' 0 2)) ∧
    (∀ x : BitVec 11, Holds w 21 x ↔ Holds w 24 (x.extractLsb' 3 8) ∧ Holds w 21 (x.extractLsb' 0 3)) ∧
    (∀ x : BitVec 12, Holds w 20 x ↔ Holds w 24 (x.extractLsb' 4 8) ∧ Holds w 20 (x.extractLsb' 0 4)) ∧
    (∀ x : BitVec 24, Holds w 8 x ↔ Holds w 24 (x.extractLsb' 16 8) ∧ Holds w 8 (x.extractLsb' 0 16)) :=
  ⟨fun x => holds_split w 26 x 3 3 rfl, fun x => holds_split w 25 x 3 4 rfl, fun x => holds_split w 24 x 3 5 rfl,
    fun x => holds_split w 22 x 8 2 rfl, fun x => holds_split w 21 x 8 3 rfl, fun x => holds_split w 20 x 8 4 rfl,
    fun x => holds_split w 8 x 8 16 rfl⟩

theorem zeroIn_eq_some {ok : Bool} {i j : Instr} : Decode.zeroIn ok i = some j ↔ ok = true ∧ i = j := by
  unfold Decode.zeroIn
  cases ok <;> simp

theorem Holds.iff {k n : Nat} {w : BitVec k} {s : Nat} {x : BitVec n} (h : Holds w s x) (y : BitVec n) : Holds w s y ↔ x = y := by
  rw [← h.eq]; rfl

theorem holds_of_toNat {k n m : Nat} {w : BitVec k} {s : Nat} (h : (w.extractLsb' s n).toNat = m) : Holds w s (BitVec.ofNat n m) := by
  rw [Holds, ← h, BitVec.ofNat_toNat, BitVec.setWidth_eq]

theorem holds_field {k n : Nat} (w : BitVec k) (s : Nat) : Holds w s (w.extractLsb' s n) := rfl

theorem beq_iff_holds {k n : Nat} (w : BitVec k) (s : Nat) (x : BitVec n) : (w.extractLsb' s n == x) = true ↔ Holds w s x := beq_iff_eq

/-- The reading of an arm without a must-be-zero field, in the form of `zeroIn_eq_some`. -/
theorem some_eq_some_iff {i j : Instr} : some i = some j ↔ True ∧ i = j := by rw [Option.some.injEq, true_and]

/-! ## The two directions, for each class and sub-operation table of R42 to R50

Where word `w` of class `c` encodes `i`, the fields of `i` stand in `w`, and the classes other than `c` are out; the function code picks the
arm of the decoder, which reads those very fields. Conversely each arm names an instruction whose fields are the parts of `w`, and its
must-be-zero fields hold zero. -/

theorem rawInt_of_word32 {i : Instr} {w x : BitVec 32} (hc : Holds w 29 0#3) (h : word32 i = some x)
    (hw : Holds w 0 x) : Decode.rawInt w = some i := by
  cases i <;> cases h <;> simp only [holds_append, holds_bit, holds_ctl] at hw <;>
    simp only [Nat.reduceAdd, holds_opcode, hc.iff, BitVec.reduceExtractLsb', BitVec.reduceEq, false_and, true_and,
      and_assoc] at hw
  all_goals
    obtain ⟨hop, hw⟩ := hw
    rw [Decode.rawInt, hop.eq]
    dsimp only [BitVec.reduceToNat]
    simp only [Holds] at hw
    simp only [hw, zeroIn_eq_some, beq_self_eq_true, and_self]

theorem word32_of_rawInt {i : Instr} {w : BitVec 32} (hc : Holds w 29 0#3) (hb : w.getLsbD 0 = true)
    (h : Decode.rawInt w = some i) : ∃ x, word32 i = some x ∧ Holds w 0 x := by
  unfold Decode.rawInt at h
  split at h <;> rename_i hop <;> simp only [zeroIn_eq_some, some_eq_some_iff, beq_iff_holds, reduceCtorEq] at h
  all_goals
    obtain ⟨hz, rfl⟩ := h
    refine ⟨_, rfl, ?_⟩
    simp only [holds_append, holds_bit, holds_ctl]
    simp only [Nat.reduceAdd, holds_opcode, hc.iff, (holds_of_toNat hop).iff, BitVec.reduceExtractLsb', hb, holds_field,
      hz, and_self]

theorem rawFloat_of_word32 {i : Instr} {w x : BitVec 32} (hc : Holds w 29 1#3) (h : word32 i = some x)
    (hw : Holds w 0 x) : Decode.rawFloat w = some i := by
  cases i <;> cases h <;> simp only [holds_append, holds_bit, holds_ctl] at hw <;>
    simp only [Nat.reduceAdd, holds_opcode, hc.iff, BitVec.reduceExtractLsb', BitVec.reduceEq, false_and, true_and,
      and_assoc] at hw
  all_goals
    obtain ⟨hop, hw⟩ := hw
    rw [Decode.rawFloat, hop.eq]
    dsimp only [BitVec.reduceToNat]
    simp only [Holds] at hw
    simp only [hw, zeroIn_eq_some, beq_self_eq_true, and_self]

theorem word32_of_rawFloat {i : Instr} {w : BitVec 32} (hc : Holds w 29 1#3) (hb : w.getLsbD 0 = true)
    (h : Decode.rawFloat w = some i) : ∃ x, word32 i = some x ∧ Holds w 0 x := by
  unfold Decode.rawFloat at h
  split at h <;> rename_i hop <;> simp only [zeroIn_eq_some, some_eq_some_iff, beq_iff_holds, reduceCtorEq] at h
  all_goals
    obtain ⟨hz, rfl⟩ := h
    refine ⟨_, rfl, ?_⟩
    simp only [holds_append, holds_bit, holds_ctl]
    simp only [Nat.reduceAdd, holds_opcode, hc.iff, (holds_of_toNat hop).iff, BitVec.reduceExtractLsb', hb, holds_field,
      hz, and_self]

theorem rawImm_of_word32 {i : Instr} {w x : BitVec 32} (hc : Holds w 29 2#3) (h : word32 i = some x)
    (hw : Holds w 0 x) : Decode.rawImm w = some i := by
  cases i <;> cases h <;> simp only [holds_append, holds_bit, holds_ctl] at hw <;>
    simp only [Nat.reduceAdd, holds_opcode, hc.iff, BitVec.reduceExtractLsb', BitVec.reduceEq, false_and, true_and,
      and_assoc] at hw
  all_goals
    obtain ⟨hop, hw⟩ := hw
    rw [Decode.rawImm, hop.eq]
    dsimp only [BitVec.reduceToNat]
    simp only [Holds] at hw
    simp only [hw]

theorem word32_of_rawImm {i : Instr} {w : BitVec 32} (hc : Holds w 29 2#3) (hb : w.getLsbD 0 = true)
    (h : Decode.rawImm w = some i) : ∃ x, word32 i = some x ∧ Holds w 0 x := by
  unfold Decode.rawImm at h
  split at h <;> rename_i hop <;> simp only [some_eq_some_iff, reduceCtorEq] at h
  all_goals
    obtain ⟨hz, rfl⟩ := h
    refine ⟨_, rfl, ?_⟩
    simp only [holds_append, holds_ctl]
    simp only [Nat.reduceAdd, holds_opcode, hc.iff, (holds_of_toNat hop).iff, BitVec.reduceExtractLsb', hb, holds_field,
      and_self]

theorem rawMem_of_word32 {i : Instr} {w x : BitVec 32} (hc : Holds w 29 5#3) (h : word32 i = some x)
    (hw : Holds w 0 x) : Decode.rawMem w = some i := by
  cases i <;> cases h <;> simp only [holds_append, holds_bit, holds_ctl] at hw <;>
    simp only [Nat.reduceAdd, holds_opcode, hc.iff, BitVec.reduceExtractLsb', BitVec.reduceEq, false_and, true_and,
      and_assoc] at hw
  all_goals
    obtain ⟨hop, hw⟩ := hw
    rw [Decode.rawMem, hop.eq]
    dsimp only [BitVec.reduceToNat]
    simp only [Holds] at hw
    simp only [hw, zeroIn_eq_some, beq_self_eq_true, and_self]

theorem word32_of_rawMem {i : Instr} {w : BitVec 32} (hc : Holds w 29 5#3) (hb : w.getLsbD 0 = true)
    (h : Decode.rawMem w = some i) : ∃ x, word32 i = some x ∧ Holds w 0 x := by
  unfold Decode.rawMem at h
  split at h <;> rename_i hop <;> simp only [zeroIn_eq_some, some_eq_some_iff, beq_iff_holds, reduceCtorEq] at h
  all_goals
    obtain ⟨hz, rfl⟩ := h
    refine ⟨_, rfl, ?_⟩
    simp only [holds_append, holds_bit, holds_ctl]
    simp only [Nat.reduceAdd, holds_opcode, hc.iff, (holds_of_toNat hop).iff, BitVec.reduceExtractLsb', hb, holds_field,
      hz, and_self]

theorem rawX_of_word32 {i : Instr} {w x : BitVec 32} (hc : Holds w 29 6#3) (h : word32 i = some x)
    (hw : Holds w 0 x) : Decode.rawX w = some i := by
  cases i <;> cases h <;> simp only [holds_append, holds_bit, holds_ctl] at hw <;>
    simp only [Nat.reduceAdd, holds_opcode, hc.iff, BitVec.reduceExtractLsb', BitVec.reduceEq, false_and, true_and,
      and_assoc] at hw
  all_goals
    obtain ⟨hop, hw⟩ := hw
    rw [Decode.rawX, hop.eq]
    dsimp only [BitVec.reduceToNat]
    simp only [Holds] at hw
    simp only [hw, zeroIn_eq_some, beq_self_eq_true, Bool.and_self, and_self]

theorem word32_of_rawX {i : Instr} {w : BitVec 32} (hc : Holds w 29 6#3) (hb : w.getLsbD 0 = true)
    (h : Decode.rawX w = some i) : ∃ x, word32 i = some x ∧ Holds w 0 x := by
  unfold Decode.rawX at h
  split at h <;> rename_i hop <;> simp only [zeroIn_eq_some, some_eq_some_iff, beq_iff_holds, Bool.and_eq_true, reduceCtorEq] at h
  all_goals
    obtain ⟨hz, rfl⟩ := h
    refine ⟨_, rfl, ?_⟩
    simp only [holds_append, holds_bit, holds_ctl]
    simp only [Nat.reduceAdd, holds_opcode, hc.iff, (holds_of_toNat hop).iff, BitVec.reduceExtractLsb', hb, holds_field,
      hz, and_self]

theorem rawRing_of_word32 {i : Instr} {w x : BitVec 32} (hc : Holds w 29 7#3) (hk : Holds w 24 22#5) (h : word32 i = some x)
    (hw : Holds w 0 x) : Decode.rawRing w = some i := by
  cases i <;> cases h <;> simp only [holds_append, holds_bit, holds_ctl] at hw <;>
    simp only [Nat.reduceAdd, holds_opcode, holds_split w 8 (n := 16) _ 3 13 rfl, hc.iff, hk.iff, BitVec.reduceExtractLsb',
      BitVec.reduceEq, false_and, true_and, and_assoc] at hw
  all_goals
    obtain ⟨hop, hw⟩ := hw
    rw [Decode.rawRing, hop.eq]
    dsimp only [BitVec.reduceToNat]
    simp only [Holds] at hw
    simp only [hw, zeroIn_eq_some, beq_self_eq_true, and_self]

theorem word32_of_rawRing {i : Instr} {w : BitVec 32} (hc : Holds w 29 7#3) (hk : Holds w 24 22#5) (hb : w.getLsbD 0 = true)
    (h : Decode.rawRing w = some i) : ∃ x, word32 i = some x ∧ Holds w 0 x := by
  unfold Decode.rawRing at h
  split at h <;> rename_i hop <;> simp only [zeroIn_eq_some, some_eq_some_iff, beq_iff_holds, reduceCtorEq] at h
  all_goals
    obtain ⟨hz, rfl⟩ := h
    refine ⟨_, rfl, ?_⟩
    simp only [holds_append, holds_ctl]
    simp only [Nat.reduceAdd, holds_opcode, holds_split w 8 (n := 16) _ 3 13 rfl, hc.iff, hk.iff, (holds_of_toNat hop).iff,
      BitVec.reduceExtractLsb', hb, holds_field, hz, and_self]

theorem rawBuf_of_word32 {i : Instr} {w x : BitVec 32} (hc : Holds w 29 7#3) (hk : Holds w 24 27#5) (h : word32 i = some x)
    (hw : Holds w 0 x) : Decode.rawBuf w = some i := by
  cases i <;> cases h <;> simp only [holds_append, holds_bit, holds_ctl] at hw <;>
    simp only [Nat.reduceAdd, holds_opcode, hc.iff, hk.iff, BitVec.reduceExtractLsb', BitVec.reduceEq, false_and, true_and,
      and_assoc] at hw
  all_goals
    obtain ⟨hcap, hop, hw⟩ := hw
    rw [Decode.rawBuf, hop.eq]
    dsimp only [BitVec.reduceToNat]
    simp only [Holds] at hw
    simp only [hcap.eq, hw, zeroIn_eq_some, beq_self_eq_true, and_self]

theorem word32_of_rawBuf {i : Instr} {w : BitVec 32} (hc : Holds w 29 7#3) (hk : Holds w 24 27#5) (hb : w.getLsbD 0 = true)
    (h : Decode.rawBuf w = some i) : ∃ x, word32 i = some x ∧ Holds w 0 x := by
  unfold Decode.rawBuf at h
  have hlt := (w.extractLsb' 19 2).isLt
  split at h <;> rename_i hop <;> simp only [zeroIn_eq_some, beq_iff_holds] at h
  case' h_4 h0 h1 => replace hop : (w.extractLsb' 19 2).toNat = 3 := by rw [imp_false] at h0 h1 hop; omega
  all_goals
    obtain ⟨hz, rfl⟩ := h
    refine ⟨_, rfl, ?_⟩
    simp only [holds_append, holds_ctl]
    simp only [Nat.reduceAdd, holds_opcode, hc.iff, hk.iff, (holds_of_toNat hop).iff, BitVec.reduceExtractLsb', hb, holds_field,
      hz, and_self]

theorem rawPort_of_word32 {i : Instr} {w x : BitVec 32} (hc : Holds w 29 7#3) (hk : Holds w 24 28#5) (h : word32 i = some x)
    (hw : Holds w 0 x) : Decode.rawPort w = some i := by
  cases i <;> cases h <;> simp only [holds_append, holds_bit, holds_ctl] at hw <;>
    simp only [Nat.reduceAdd, holds_opcode, hc.iff, hk.iff, BitVec.reduceExtractLsb', BitVec.reduceEq, false_and, true_and,
      and_assoc] at hw
  all_goals
    obtain ⟨hop, hw⟩ := hw
    rw [Decode.rawPort, hop.eq]
    dsimp only [BitVec.reduceToNat]
    simp only [Holds] at hw
    simp only [hw, zeroIn_eq_some, beq_self_eq_true, and_self]

theorem word32_of_rawPort {i : Instr} {w : BitVec 32} (hc : Holds w 29 7#3) (hk : Holds w 24 28#5) (hb : w.getLsbD 0 = true)
    (h : Decode.rawPort w = some i) : ∃ x, word32 i = some x ∧ Holds w 0 x := by
  unfold Decode.rawPort at h
  split at h <;> rename_i hop <;> simp only [zeroIn_eq_some, beq_iff_holds, reduceCtorEq] at h
  all_goals
    obtain ⟨hz, rfl⟩ := h
    refine ⟨_, rfl, ?_⟩
    simp only [holds_append, holds_ctl]
    simp only [Nat.reduceAdd, holds_opcode, hc.iff, hk.iff, (holds_of_toNat hop).iff, BitVec.reduceExtractLsb', hb, holds_field,
      hz, and_self]

theorem rawSys_of_word32 {i : Instr} {w x : BitVec 32} (hc : Holds w 29 7#3) (hk : Holds w 24 31#5) (h : word32 i = some x)
    (hw : Holds w 0 x) : Decode.rawSys w = some i := by
  cases i <;> cases h <;> simp only [holds_append, holds_bit, holds_ctl] at hw <;>
    simp only [Nat.reduceAdd, holds_opcode, holds_split w 8 (n := 16) _ 4 12 rfl, hc.iff, hk.iff, BitVec.reduceExtractLsb',
      BitVec.reduceEq, false_and, true_and, and_assoc] at hw
  all_goals
    obtain ⟨hop, hw⟩ := hw
    rw [Decode.rawSys, hop.eq]
    dsimp only [BitVec.reduceToNat]
    simp only [Holds] at hw
    simp only [hw, zeroIn_eq_some, beq_self_eq_true, and_self]

theorem word32_of_rawSys {i : Instr} {w : BitVec 32} (hc : Holds w 29 7#3) (hk : Holds w 24 31#5) (hb : w.getLsbD 0 = true)
    (h : Decode.rawSys w = some i) : ∃ x, word32 i = some x ∧ Holds w 0 x := by
  unfold Decode.rawSys at h
  split at h <;> rename_i hop <;> simp only [zeroIn_eq_some, beq_iff_holds, reduceCtorEq] at h
  all_goals
    obtain ⟨hz, rfl⟩ := h
    refine ⟨_, rfl, ?_⟩
    simp only [holds_append, holds_ctl]
    simp only [Nat.reduceAdd, holds_opcode, holds_split w 8 (n := 16) _ 4 12 rfl, hc.iff, hk.iff, (holds_of_toNat hop).iff,
      BitVec.reduceExtractLsb', hb, holds_field, hz, and_self]

theorem rawW_of_word32 {i : Instr} {w x : BitVec 32} (hc : Holds w 29 7#3) (h : word32 i = some x) (hw : Holds w 0 x) :
    Decode.rawW w = some i := by
  by_cases hring : Holds w 24 22#5
  · rw [Decode.rawW, hring.eq]; exact rawRing_of_word32 hc hring h hw
  by_cases hbuf : Holds w 24 27#5
  · rw [Decode.rawW, hbuf.eq]; exact rawBuf_of_word32 hc hbuf h hw
  by_cases hport : Holds w 24 28#5
  · rw [Decode.rawW, hport.eq]; exact rawPort_of_word32 hc hport h hw
  by_cases hsys : Holds w 24 31#5
  · rw [Decode.rawW, hsys.eq]; exact rawSys_of_word32 hc hsys h hw
  cases i <;> cases h <;> simp only [holds_append, holds_bit, holds_ctl] at hw <;>
    simp only [Nat.reduceAdd, holds_opcode, hc.iff, hring, hbuf, hport, hsys, BitVec.reduceExtractLsb', BitVec.reduceEq, false_and,
      true_and, and_assoc] at hw
  all_goals
    obtain ⟨hop, hw⟩ := hw
    rw [Decode.rawW, hop.eq]
    dsimp only [BitVec.reduceToNat]
    simp only [Holds] at hw
    simp only [hw, zeroIn_eq_some, beq_self_eq_true, and_self]

theorem word32_of_rawW {i : Instr} {w : BitVec 32} (hc : Holds w 29 7#3) (hb : w.getLsbD 0 = true)
    (h : Decode.rawW w = some i) : ∃ x, word32 i = some x ∧ Holds w 0 x := by
  unfold Decode.rawW at h
  split at h <;> rename_i hop
  case h_23 => exact word32_of_rawRing hc (holds_of_toNat hop) hb h
  case h_28 => exact word32_of_rawBuf hc (holds_of_toNat hop) hb h
  case h_29 => exact word32_of_rawPort hc (holds_of_toNat hop) hb h
  case h_32 => exact word32_of_rawSys hc (holds_of_toNat hop) hb h
  all_goals simp only [zeroIn_eq_some, some_eq_some_iff, beq_iff_holds, reduceCtorEq] at h
  all_goals
    obtain ⟨hz, rfl⟩ := h
    refine ⟨_, rfl, ?_⟩
    simp only [holds_append, holds_bit, holds_ctl]
    simp only [Nat.reduceAdd, holds_opcode, hc.iff, (holds_of_toNat hop).iff, BitVec.reduceExtractLsb', hb, holds_field,
      hz, and_self]

theorem movi_of_word32 {i : Instr} {w x : BitVec 32} (h : word32 i = some x) (hw : Holds w 0 x) :
    (Holds w 29 3#3 → .movi (w.extractLsb' 24 5) (w.extractLsb' 8 16) (Decode.ctlOf w) = i) ∧
      (Holds w 29 4#3 → .movhi (w.extractLsb' 24 5) (w.extractLsb' 8 16) (Decode.ctlOf w) = i) := by
  constructor <;> intro hc <;> cases i <;> cases h <;> simp only [holds_append, holds_bit, holds_ctl] at hw <;>
    simp only [Nat.reduceAdd, holds_opcode, hc.iff, BitVec.reduceExtractLsb', BitVec.reduceEq, false_and, true_and,
      and_assoc] at hw
  all_goals
    simp only [Holds] at hw
    simp only [hw]

/-- The class of a word that is none of 0 to 6 is 7. -/
theorem holds_class7 {w : BitVec 32} (h : ∀ c < 7, (w.extractLsb' 29 3).toNat ≠ c) : Holds w 29 7#3 := by
  refine holds_of_toNat ?_
  have hlt := (w.extractLsb' 29 3).isLt
  by_contra hne
  exact h _ (by omega) rfl

/-! ## Words and halfwords -/

/-- The decoder reads what the encoder writes. -/
theorem raw32_of_word32 {i : Instr} {w : BitVec 32} (h : word32 i = some w) : Decode.raw32 w = some i := by
  have hw : Holds w 0 w := (holds_self w w).mpr rfl
  unfold Decode.raw32
  split
  next hc => exact rawInt_of_word32 (holds_of_toNat hc) h hw
  next hc => exact rawFloat_of_word32 (holds_of_toNat hc) h hw
  next hc => exact rawImm_of_word32 (holds_of_toNat hc) h hw
  next hc => exact congrArg some ((movi_of_word32 h hw).1 (holds_of_toNat hc))
  next hc => exact congrArg some ((movi_of_word32 h hw).2 (holds_of_toNat hc))
  next hc => exact rawMem_of_word32 (holds_of_toNat hc) h hw
  next hc => exact rawX_of_word32 (holds_of_toNat hc) h hw
  next h0 h1 h2 h3 h4 h5 h6 => exact rawW_of_word32 (holds_class7 fun c hc => by interval_cases c <;> assumption) h hw

/-- The encoder writes what the decoder reads. -/
theorem word32_of_raw32 {i : Instr} {w : BitVec 32} (hb : w.getLsbD 0 = true) (h : Decode.raw32 w = some i) : word32 i = some w := by
  suffices hx : ∃ x, word32 i = some x ∧ Holds w 0 x by
    obtain ⟨x, hi, hw⟩ := hx
    rw [hi, (holds_self w x).mp hw]
  unfold Decode.raw32 at h
  split at h
  next hc => exact word32_of_rawInt (holds_of_toNat hc) hb h
  next hc => exact word32_of_rawFloat (holds_of_toNat hc) hb h
  next hc => exact word32_of_rawImm (holds_of_toNat hc) hb h
  next hc =>
    cases h
    refine ⟨_, rfl, ?_⟩
    simp only [holds_append, holds_ctl]
    simp only [Nat.reduceAdd, (holds_of_toNat hc).iff, hb, holds_field, and_self]
  next hc =>
    cases h
    refine ⟨_, rfl, ?_⟩
    simp only [holds_append, holds_ctl]
    simp only [Nat.reduceAdd, (holds_of_toNat hc).iff, hb, holds_field, and_self]
  next hc => exact word32_of_rawMem (holds_of_toNat hc) hb h
  next hc => exact word32_of_rawX (holds_of_toNat hc) hb h
  next h0 h1 h2 h3 h4 h5 h6 => exact word32_of_rawW (holds_class7 fun c hc => by interval_cases c <;> assumption) hb h

theorem raw16_of_half16 {i : Instr} {h : BitVec 16} (he : half16 i = some h) : Decode.raw16 h = i := by
  obtain ⟨x, he, hw⟩ : ∃ x, half16 i = some x ∧ Holds h 0 x := ⟨h, he, (holds_self h h).mpr rfl⟩
  cases i <;> cases he <;> simp only [holds_append, holds_bit] at hw
  all_goals
    simp only [Nat.reduceAdd, and_assoc] at hw
    obtain ⟨hop, hw⟩ := hw
    rw [Decode.raw16, hop.eq]
    dsimp only [BitVec.reduceToNat]
    simp only [Holds] at hw
    simp only [hw]

theorem half16_of_raw16 {h : BitVec 16} (hb : h.getLsbD 0 = false) : half16 (Decode.raw16 h) = some h := by
  suffices hx : ∃ x, half16 (Decode.raw16 h) = some x ∧ Holds h 0 x by
    obtain ⟨x, hi, hw⟩ := hx
    rw [hi, (holds_self h x).mp hw]
  have hlt := (h.extractLsb' 12 4).isLt
  have h0 : Holds h 0 0#1 := (holds_bit h 0 false).mpr hb
  unfold Decode.raw16
  split <;> rename_i hop
  case' h_16 => replace hop : (h.extractLsb' 12 4).toNat = 15 := by simp only [imp_false] at *; omega
  all_goals
    refine ⟨_, rfl, ?_⟩
    simp only [holds_append, holds_bit]
    simp only [Nat.reduceAdd, (holds_of_toNat hop).iff, h0, holds_field, and_self]

theorem word32_bit0 {i : Instr} {w : BitVec 32} (h : word32 i = some w) : w.getLsbD 0 = true := by
  obtain ⟨x, h, hw⟩ : ∃ x, word32 i = some x ∧ Holds w 0 x := ⟨w, h, (holds_self w w).mpr rfl⟩
  cases i <;> cases h <;> simp only [holds_append, holds_ctl] at hw <;> exact hw.2.2

theorem half16_bit0 {i : Instr} {h : BitVec 16} (he : half16 i = some h) : h.getLsbD 0 = false := by
  obtain ⟨x, he, hw⟩ : ∃ x, half16 i = some x ∧ Holds h 0 x := ⟨h, he, (holds_self h h).mpr rfl⟩
  cases i <;> cases he <;> simp only [holds_append] at hw <;> exact (holds_bit h 0 false).mp hw.2

/-- A row with a 32-bit word has no halfword form. -/
theorem half16_of_word32 {i : Instr} {w : BitVec 32} (h : word32 i = some w) : half16 i = none := by
  cases i <;> cases h <;> rfl

theorem encodeBytes_of_half16 {i : Instr} {h : BitVec 16} (he : half16 i = some h) :
    encodeBytes i = [h.extractLsb' 0 8, h.extractLsb' 8 8] := by
  rw [encodeBytes, encode, he]; rfl

theorem encodeBytes_of_word32 {i : Instr} {w : BitVec 32} (h : word32 i = some w) :
    encodeBytes i = [w.extractLsb' 0 8, w.extractLsb' 8 8, w.extractLsb' 16 8, w.extractLsb' 24 8] := by
  have hx (s : Nat) (a : Nat) (ha : a + 8 ≤ 16) : (w.extractLsb' s 16).extractLsb' a 8 = w.extractLsb' (s + a) 8 := by
    apply BitVec.eq_of_getLsbD_eq
    intro j hj
    simp [hj, show a + j < 16 by omega, Nat.add_assoc]
  rw [encodeBytes, encode, half16_of_word32 h, h]
  simp [hx]

end Encode

namespace Decode

theorem accept_eq_ok {i j : Instr} : accept i = .ok j ↔ i = j ∧ wellFormed i = true := by
  unfold accept wellFormed
  cases WellFormed.fields i <;> cases WellFormed.ending i <;> simp

theorem half16_eq_ok {h : BitVec 16} {i : Instr} (hb : h.getLsbD 0 = false) :
    half16 h = .ok i ↔ Encode.half16 i = some h ∧ wellFormed i = true := by
  rw [half16, accept_eq_ok]
  constructor
  · rintro ⟨rfl, hwf⟩; exact ⟨Encode.half16_of_raw16 hb, hwf⟩
  · rintro ⟨he, hwf⟩
    rw [Encode.raw16_of_half16 he]; exact ⟨rfl, hwf⟩

theorem word32_eq_ok {w : BitVec 32} {i : Instr} (hb : w.getLsbD 0 = true) :
    word32 w = .ok i ↔ Encode.word32 i = some w ∧ wellFormed i = true := by
  unfold word32
  split
  next hr =>
    refine ⟨fun h => absurd h (by simp), fun ⟨he, _⟩ => ?_⟩
    rw [Encode.raw32_of_word32 he] at hr
    cases hr
  next j hr =>
    rw [accept_eq_ok]
    constructor
    · rintro ⟨rfl, hwf⟩; exact ⟨Encode.word32_of_raw32 hb hr, hwf⟩
    · rintro ⟨he, hwf⟩
      rw [Encode.raw32_of_word32 he] at hr
      cases hr
      exact ⟨rfl, hwf⟩

theorem map_pair_eq_ok {α β ε : Type} {x : Except ε α} {b : β} {y : α × β} :
    x.map (·, b) = .ok y ↔ x = .ok y.1 ∧ b = y.2 := by
  obtain ⟨a, c⟩ := y
  cases x <;> simp [Except.map]

/-- The two bytes of a halfword. -/
theorem half_bytes (h : BitVec 16) : h.extractLsb' 8 8 ++ h.extractLsb' 0 8 = h := BitVec.extractLsb'_append_extractLsb'

theorem word_bytes (w : BitVec 32) : w.extractLsb' 24 8 ++ w.extractLsb' 16 8 ++ w.extractLsb' 8 8 ++ w.extractLsb' 0 8 = w := by
  have h : Encode.Holds w 0 (w.extractLsb' 24 8 ++ w.extractLsb' 16 8 ++ w.extractLsb' 8 8 ++ w.extractLsb' 0 8) := by
    simp only [Encode.holds_append]
    exact ⟨⟨⟨rfl, rfl⟩, rfl⟩, rfl⟩
  exact ((Encode.holds_self w _).mp h).symm

theorem holds_bytes (b0 b1 b2 b3 : BitVec 8) :
    let w := b3 ++ b2 ++ b1 ++ b0
    ((Encode.Holds w 24 b3 ∧ Encode.Holds w 16 b2) ∧ Encode.Holds w 8 b1) ∧ Encode.Holds w 0 b0 := by
  have h := (Encode.holds_self (b3 ++ b2 ++ b1 ++ b0) _).mpr rfl
  simpa only [Encode.holds_append] using h

/-- Four bytes whose first has bit 0 set are read as the word that they make, R22. -/
theorem bytes_of_word {w : BitVec 32} (hb : w.getLsbD 0 = true) (rest : List (BitVec 8)) :
    bytes (w.extractLsb' 0 8 :: w.extractLsb' 8 8 :: w.extractLsb' 16 8 :: w.extractLsb' 24 8 :: rest) = (word32 w).map (·, rest) := by
  have h0 : (w.extractLsb' 8 8 ++ w.extractLsb' 0 8).getLsbD 0 = true := by
    rw [BitVec.getLsbD_append, if_pos (by decide), BitVec.getLsbD_extractLsb', hb]; rfl
  unfold bytes
  dsimp only
  rw [if_pos h0, word_bytes]

/-- Two bytes whose first has bit 0 clear are read as the halfword that they make, R22. -/
theorem bytes_of_half {h : BitVec 16} (hb : h.getLsbD 0 = false) (rest : List (BitVec 8)) :
    bytes (h.extractLsb' 0 8 :: h.extractLsb' 8 8 :: rest) = (half16 h).map (·, rest) := by
  unfold bytes
  dsimp only
  rw [half_bytes, if_neg (by rw [hb]; decide)]

end Decode

/-- Settles O3: the bytes of a well-formed instruction make the halfword or word that encodes it, and the decoder reads its fields there. -/
theorem decodeEncode : Obligations.DecodeEncode := by
  unfold Obligations.DecodeEncode
  intro i rest hwf hword
  cases hh : Encode.half16 i with
  | some h =>
    have hb := Encode.half16_bit0 hh
    rw [Encode.encodeBytes_of_half16 hh]
    exact (Decode.bytes_of_half hb rest).trans (Decode.map_pair_eq_ok.mpr ⟨(Decode.half16_eq_ok hb).mpr ⟨hh, hwf⟩, rfl⟩)
  | none =>
    cases hw : Encode.word32 i with
    | some w =>
      have hb := Encode.word32_bit0 hw
      rw [Encode.encodeBytes_of_word32 hw]
      exact (Decode.bytes_of_word hb rest).trans (Decode.map_pair_eq_ok.mpr ⟨(Decode.word32_eq_ok hb).mpr ⟨hw, hwf⟩, rfl⟩)
    | none => simp [hasWord, encode, hh, hw] at hword

/-- Settles O4: the instruction that is read from a halfword or word is accepted, and its fields put together are that halfword or word. -/
theorem decodeSound : Obligations.DecodeSound := by
  unfold Obligations.DecodeSound
  intro bs rest i h
  unfold Decode.bytes at h
  split at h
  next b0 b1 tail =>
    split at h
    next hb =>
      split at h
      next b2 b3 tail' =>
        obtain ⟨hi, rfl⟩ := Decode.map_pair_eq_ok.mp h
        have hbit : (b3 ++ b2 ++ b1 ++ b0).getLsbD 0 = true := by
          rw [BitVec.getLsbD_append, if_pos (by decide)] at hb ⊢; exact hb
        obtain ⟨he, hwf⟩ := (Decode.word32_eq_ok hbit).mp hi
        refine ⟨hwf, ?_⟩
        obtain ⟨⟨⟨h3, h2⟩, h1⟩, h0⟩ := Decode.holds_bytes b0 b1 b2 b3
        rw [Encode.encodeBytes_of_word32 he, h3.eq, h2.eq, h1.eq, h0.eq]
        rfl
      next => cases h
    next hb =>
      obtain ⟨hi, rfl⟩ := Decode.map_pair_eq_ok.mp h
      obtain ⟨he, hwf⟩ := (Decode.half16_eq_ok (by simpa using hb)).mp hi
      refine ⟨hwf, ?_⟩
      rw [Encode.encodeBytes_of_half16 he, BitVec.extractLsb'_append_eq_right, BitVec.extractLsb'_append_eq_left]
      rfl
  next => cases h
end Sys2Proof

/-! SUPPORT. Instructions that end a run: what becomes of the group when its lanes complete in a place other than the next instruction, and what
a register's reads show when a lane waits for other operations than before (R31, R33, R38, R39). -/

namespace Sys2Proof.Machine

/-! ## What a lane waits for -/

/-- Row `q` is row `r`, but for lane `k`, which waits for the operations `ps`. -/
structure Row.Waits (q r : Row) (k : Nat) (ps : List Pend) : Prop where
  live : q.live = r.live
  vals : q.vals = r.vals
  tag : r.live ≠ 0 → q.fmt = r.fmt ∧ q.scl = r.scl
  pend : ∀ l, q.pend.get [] l = if l = k then ps else r.pend.get [] l

/-- A lane that waits for what it waited for, if for anything, sees what it saw. -/
theorem Row.Waits.seen {q r : Row} {k : Nat} {ps : List Pend} (h : q.Waits r k ps) {l : Nat}
    (hl : l ≠ k ∨ (ps = [] ∧ r.pend.get [] k = [])) (free : BitVec 32) : q.seen l free = r.seen l free := by
  have hpend : q.pend.get [] l = r.pend.get [] l := by
    rw [h.pend l]
    by_cases hk : l = k
    · obtain ⟨hps, hr⟩ := hl.resolve_left (not_not.mpr hk)
      rw [if_pos hk, hps, hk, hr]
    · rw [if_neg hk]
  unfold Row.seen
  rw [hpend, h.live, h.vals]
  by_cases h0 : r.live = 0
  · simp [h0]
  · rw [(h.tag h0).1, (h.tag h0).2]

/-- Every register reads as before with its tag, and waits for what it waited for, but what `p` says of a thread's register. -/
def SeesBut (s s' : State) (p : Nat → Nat → Prop) : Prop :=
  ∀ u w, w < 32 → ¬ p u w → s'.pending u w = s.pending u w ∧ s'.tagOf u w = s.tagOf u w ∧ s'.reg u w = s.reg u w

theorem SeesBut.refl (s : State) (p : Nat → Nat → Prop) : SeesBut s s p := fun _ _ _ _ => ⟨rfl, rfl, rfl⟩

theorem SeesBut.trans {s t u : State} {p q : Nat → Nat → Prop} (h : SeesBut s t p) (k : SeesBut t u q) :
    SeesBut s u fun x w => p x w ∨ q x w := by
  intro x w hw hn
  obtain ⟨hp, hq⟩ := not_or.mp hn
  obtain ⟨h1, h2, h3⟩ := h x w hw hp
  obtain ⟨k1, k2, k3⟩ := k x w hw hq
  exact ⟨k1.trans h1, k2.trans h2, k3.trans h3⟩

theorem SeesBut.mono {s t : State} {p q : Nat → Nat → Prop} (h : SeesBut s t p) (hpq : ∀ u w, p u w → q u w) : SeesBut s t q :=
  fun u w hw hn => h u w hw fun hp => hn (hpq u w hp)

/-- What a thread's registers show depends on the rows and the source of free values alone. -/
theorem seesBut_of_rows {s t : State} (hr : t.rows = s.rows) (hf : t.freeCtr = s.freeCtr) (p : Nat → Nat → Prop) : SeesBut s t p := by
  intro u w _ _
  unfold State.tagOf State.reg State.pending State.row
  rw [hr, hf]
  exact ⟨rfl, rfl, rfl⟩

namespace State

theorem setRow_rows (s : State) (c v : Nat) (r : Row) : s.setRow c v r = { s with rows := (s.setRow c v r).rows } := by
  unfold setRow; split <;> rfl

/-- Where a row is stored in which one lane waits for other operations, that lane's register does, and no other register has changed; that
one reads as before too if it waits for nothing, before and after. -/
theorem setRow_waits {s : State} {t v : Nat} {q : Row} {ps : List Pend} (hv : v < 32)
    (h : q.Waits (s.row (crewOf t) v) (laneOf t) ps) :
    (s.setRow (crewOf t) v q).pending t v = ps ∧
      SeesBut s (s.setRow (crewOf t) v q) fun u w => u = t ∧ w = v ∧ ¬ (ps = [] ∧ s.pending t v = []) := by
  have hfree : (s.setRow (crewOf t) v q).freeCtr = s.freeCtr := by rw [setRow_rows]
  constructor
  · unfold pending
    rw [row_setRow _ _ _ _ _ _ hv hv, if_pos ⟨rfl, rfl⟩, Row.tidy_pend, h.pend, if_pos rfl]
  · intro u w hw hn
    by_cases hrow : crewOf u = crewOf t ∧ w = v
    · obtain ⟨hc, rfl⟩ := hrow
      have hl : laneOf u ≠ laneOf t ∨ (ps = [] ∧ s.pending t w = []) := by
        by_cases hlane : laneOf u = laneOf t
        · exact .inr (by simpa [thread_eq.mpr ⟨hc, hlane⟩] using hn)
        · exact .inl hlane
      have hr : (s.setRow (crewOf t) w q).row (crewOf u) w = if q.live = 0 ∧ q.pend.isEmpty then Row.empty else q := by
        rw [row_setRow _ _ _ _ _ _ hw hw, if_pos ⟨hc, rfl⟩]
      refine ⟨?_, seen_same hfree ?_⟩
      · unfold pending
        rw [hr, Row.tidy_pend, h.pend, hc]
        by_cases hlane : laneOf u = laneOf t
        · obtain ⟨hps, hnone⟩ := hl.resolve_left (not_not.mpr hlane)
          rw [if_pos hlane, hps, hlane]
          exact hnone.symm
        · rw [if_neg hlane]
      · rw [hr, Row.seen_tidy, h.seen hl, hc]
    · have hr : (s.setRow (crewOf t) v q).row (crewOf u) w = s.row (crewOf u) w := by
        rw [row_setRow _ _ _ _ _ _ hv hw, if_neg hrow]
      refine ⟨?_, seen_same hfree ?_⟩
      · unfold pending; rw [hr]
      · rw [hr]

end State

/-! ## The end of an instruction whose lanes complete -/

/-- The outcomes of lanes that completed. -/
def completed (ds : List (Nat × Done)) : List (Nat × LaneRes) := ds.map fun d => (d.1, .done d.2)

/-- A lane that wrote no register. -/
def Done.Plain (d : Done) : Prop := d.writes = [] ∧ d.caps = [] ∧ d.kills = []

/-- A lane operation that leaves the state alone gives each thread its outcome. -/
theorem runLanes_pure (f : State → Nat → LaneRes) (s : State) (ts : List Nat) :
    State.runLanes (State.pureLane f) s ts = (s, ts.map fun t => (t, f s t)) := by
  induction ts with
  | nil => rfl
  | cons t ts ih => rw [State.runLanes, State.pureLane]; dsimp only; rw [ih]; rfl

theorem foldl_completed {α : Type} (g : α → Nat × LaneRes → α) (h : ∀ a t d, g a (t, .done d) = a) (ds : List (Nat × Done)) (a : α) :
    (completed ds).foldl g a = a := by
  induction ds generalizing a with
  | nil => rfl
  | cons d ds ih => rw [completed, List.map_cons, List.foldl_cons, h]; exact ih a

theorem any_completed (p : Nat × LaneRes → Bool) (h : ∀ t d, p (t, .done d) = false) (ds : List (Nat × Done)) :
    (completed ds).any p = false := by
  rw [List.any_eq_false]
  intro x hx
  obtain ⟨d, -, rfl⟩ := List.mem_map.mp hx
  simp [h]

theorem donesOf_completed (ds : List (Nat × Done)) : State.donesOf (completed ds) = ds := by
  unfold State.donesOf completed
  rw [List.filterMap_map]
  exact List.filterMap_some

/-- Lanes that wrote no register leave the registers alone. -/
theorem writeBack_completed (s : State) (c : Nat) {ds : List (Nat × Done)} (h : ∀ d ∈ ds, d.2.Plain) : s.writeBack c (completed ds) = s := by
  have hw : State.allWrites (completed ds) = [] := by
    unfold State.allWrites
    rw [List.flatMap_eq_nil_iff]
    intro x hx
    obtain ⟨d, hd, rfl⟩ := List.mem_map.mp hx
    simp [(h d hd).1]
  have hfold : ∀ (g : State → Nat × LaneRes → State), (∀ s, ∀ d ∈ ds, g s (d.1, .done d.2) = s) → ∀ s, (completed ds).foldl g s = s := by
    intro g hg s
    clear hw h
    induction ds generalizing s with
    | nil => rfl
    | cons d ds ih =>
      rw [completed, List.map_cons, List.foldl_cons, hg s d (by simp)]
      exact ih (fun s d hd => hg s d (by simp [hd])) s
  unfold State.writeBack
  rw [hw]
  dsimp only
  rw [hfold _ fun s d hd => by dsimp only; rw [(h d hd).2.1]; rfl, hfold _ fun s d hd => by dsimp only; rw [(h d hd).2.2]; rfl]
  rfl

/-- The threads of the group that are guarded off. -/
def State.bystanders (s : State) (ct : Ctl) : List Nat := (slotThreads s).filter fun t => s.guardedOff t ct

theorem State.mem_bystanders {s : State} {ct : Ctl} {u : Nat} : u ∈ s.bystanders ct ↔ u ∈ slotThreads s ∧ u ∉ s.actors ct := by
  unfold bystanders actors
  simp only [List.mem_filter, Bool.not_eq_true', not_and, Bool.not_eq_false]
  exact ⟨fun h => ⟨h.1, fun _ => h.2⟩, fun h => ⟨h.1, h.2 h.1⟩⟩

/-- The end of an instruction that ends a run and whose lanes complete: those guarded off go on, the others go where the instruction puts
them, and the slot is given up. -/
theorem issue_completed {s s1 : State} {g : Group} (hg : s.slots.find? s.cur = some g) {ct : Ctl} (he : ct.e = true) (len : Nat)
    {op : State → Nat → State × LaneRes} {ds : List (Nat × Done)} (hrun : State.runLanes op s (s.actors ct) = (s1, completed ds))
    (hplain : ∀ d ∈ ds, d.2.Plain) :
    s.issue ct len op =
      let s2 := ds.foldl (fun s td => s.settleLane true len td.1 td.2)
        ((s.bystanders ct).foldl (fun s t => s.settleLane true len t Done.nothing) s1)
      { s2 with slots := s2.slots.erase s.cur } := by
  have hr : State.runLanes op s ((slotThreads s).filter fun t => !s.guardedOff t ct) = (s1, completed ds) := hrun
  unfold State.issue
  rw [hg]
  dsimp only
  rw [← slotThreads_eq hg, hr]
  dsimp only
  rw [any_completed _ (fun _ _ => rfl), if_neg (by decide)]
  unfold State.finish
  rw [foldl_completed State.faultStep (fun _ _ _ => rfl), foldl_completed State.endStep (fun _ _ _ => rfl),
    foldl_completed (State.parkStep g) (fun _ _ _ => rfl), donesOf_completed, writeBack_completed _ _ hplain]
  unfold State.leaveSlot State.anyPark State.bystanders
  rw [any_completed _ (fun _ _ => rfl), if_pos he, he]
  simp only [Bool.false_eq_true, if_false]

/-! ## Threads that are put in a place -/

namespace State

/-- Threads rewritten one by one. -/
def placeAll (s : State) (ts : List Nat) (f : Nat → Thread → Thread) : State := ts.foldl (fun s t => s.updThread t (f t)) s

theorem placeAll_nil (s : State) (f : Nat → Thread → Thread) : s.placeAll [] f = s := rfl

theorem placeAll_cons (s : State) (t : Nat) (ts : List Nat) (f : Nat → Thread → Thread) :
    s.placeAll (t :: ts) f = (s.updThread t (f t)).placeAll ts f := rfl

theorem placeAll_threads (s : State) (ts : List Nat) (f : Nat → Thread → Thread) :
    s.placeAll ts f = { s with threads := (s.placeAll ts f).threads } := by
  induction ts generalizing s with
  | nil => rfl
  | cons t ts ih => rw [placeAll_cons, ih]; rfl

theorem find?_placeAll (s : State) (ts : List Nat) (f : Nat → Thread → Thread) (u : Nat) :
    ((s.placeAll ts f).threads.find? u).isSome = (s.threads.find? u).isSome := by
  induction ts generalizing s with
  | nil => rfl
  | cons t ts ih => rw [placeAll_cons, ih, find?_updThread]

theorem thread_placeAll {s : State} {ts : List Nat} (hnd : ts.Nodup) (hex : ∀ t ∈ ts, (s.threads.find? t).isSome = true)
    (f : Nat → Thread → Thread) (u : Nat) : (s.placeAll ts f).thread u = if u ∈ ts then f u (s.thread u) else s.thread u := by
  induction ts generalizing s with
  | nil => rfl
  | cons t ts ih =>
    obtain ⟨ht, hnd⟩ := List.nodup_cons.mp hnd
    rw [placeAll_cons, ih hnd fun x hx => by rw [find?_updThread]; exact hex x (by simp [hx]),
      thread_updThread _ _ _ _ (hex t (by simp))]
    by_cases hu : u = t
    · subst hu; rw [if_neg ht, if_pos rfl, if_pos (by simp)]
    · simp [hu]

/-- What a thread becomes depends on what it is alone. -/
theorem updThread_congr {s : State} {t : Nat} {f g : Thread → Thread} (h : f (s.thread t) = g (s.thread t)) :
    s.updThread t f = s.updThread t g := by
  unfold updThread FMap.adjust
  cases hx : s.threads.find? t with
  | none => rfl
  | some x =>
    have : s.thread t = x := by unfold thread FMap.get; rw [hx]; rfl
    rw [this] at h
    dsimp only
    rw [h]

/-- A run boundary asks a thread for its save handler and its gang alone. -/
theorem goesOn_updThread {s : State} {t : Nat} (u : Nat) {f : Thread → Thread} (hex : (s.threads.find? t).isSome = true)
    (hf : ∀ h, (f h).inSave = h.inSave) : (s.updThread t f).goesOn u = s.goesOn u := goesOn_goOn s t f hex hf

/-- Threads each of which its lane's end rewrites, as long as pre-emption does not stop it. -/
theorem settle_placeAll {len : Nat} {f : Nat → Thread → Thread} (hf : ∀ t h, (f t h).inSave = h.inSave) (ds : List (Nat × Done)) (s : State)
    (hth : ∀ d ∈ ds, (s.threads.find? d.1).isSome = true ∧ s.goesOn d.1 = true)
    (hone : ∀ d ∈ ds, ∀ s' : State, s'.clock = s.clock → s'.goesOn d.1 = true →
      (s'.threads.find? d.1).isSome = true → s'.settleLane true len d.1 d.2 = s'.updThread d.1 (f d.1)) :
    ds.foldl (fun s td => s.settleLane true len td.1 td.2) s = s.placeAll (ds.map (·.1)) f := by
  induction ds generalizing s with
  | nil => rfl
  | cons d ds ih =>
    obtain ⟨hex, hgo⟩ := hth d (by simp)
    rw [List.foldl_cons, hone d (by simp) s rfl hgo hex, List.map_cons, placeAll_cons]
    refine ih _ (fun x hx => ?_) (fun x hx s' hc => hone x (by simp [hx]) s' hc)
    obtain ⟨hx1, hx2⟩ := hth x (by simp [hx])
    exact ⟨by rw [find?_updThread]; exact hx1, by rw [goesOn_updThread _ hex (hf d.1)]; exact hx2⟩

/-- Threads that are guarded off begin another run at the next instruction. -/
theorem settle_bystanders {s : State} {ts : List Nat} (len : Nat)
    (hth : ∀ t ∈ ts, (s.threads.find? t).isSome = true ∧ s.goesOn t = true) :
    ts.foldl (fun s t => s.settleLane true len t Done.nothing) s = s.placeAll ts fun _ h => h.goOn true s.clock (h.pc + len) := by
  have hmap : ts.foldl (fun s t => s.settleLane true len t Done.nothing) s =
      (ts.map fun t => (t, Done.nothing)).foldl (fun s td => s.settleLane true len td.1 td.2) s := by rw [List.foldl_map]
  rw [hmap, settle_placeAll (f := fun _ h => h.goOn true s.clock (h.pc + len)) (fun _ _ => goOn_inSave _ _ _ _)]
  · rw [List.map_map]; exact congrArg (fun l => placeAll s l _) (List.map_id ts)
  · intro d hd
    obtain ⟨t, ht, rfl⟩ := List.mem_map.mp hd
    exact hth t ht
  · intro d hd s' hc hgo hex
    obtain ⟨t, ht, rfl⟩ := List.mem_map.mp hd
    rw [settleLane_ready _ _ _ _ _ rfl fun _ => hgo, hc]
    exact updThread_congr rfl

/-- A thread comes to stand after its `svc`; PREEMPT stops it once the reply is there, R301, R353, R381. -/
theorem settleLane_svc (s : State) (len t pc id : Nat) :
    s.settleLane true len t (standAt pc (.svc id)) = s.updThread t fun h => h.standing s.clock pc (.svc id) := by
  have hsettle : s.settleLane true len t (standAt pc (.svc id)) =
      match (if ((s.updThread t fun h => h.standing s.clock pc (.svc id)).thread t).inSave then none
        else (s.updThread t fun h => h.standing s.clock pc (.svc id)).preemptOf t) with
      | some _ => s.updThread t fun h => h.standing s.clock pc (.svc id)
      | none => s.updThread t fun h => h.standing s.clock pc (.svc id) := rfl
  rw [hsettle]
  split <;> rfl

end State

/-- The group of a whole state holds the slot. -/
theorem State.whole_slot {s : State} (h : s.whole = true) : ∃ g, s.slots.find? s.cur = some g := by
  cases hg : s.slots.find? s.cur with
  | some g => exact ⟨g, rfl⟩
  | none => simp [State.whole, slotThreads, hg] at h

theorem State.whole_thread {s : State} (h : s.whole = true) {t : Nat} (ht : t ∈ slotThreads s) :
    (s.threads.find? t).isSome = true ∧ s.goesOn t = true := by
  unfold State.whole at h
  rw [Bool.and_eq_true, List.all_eq_true] at h
  simpa using h.2 t ht

theorem State.mem_actors {s : State} {ct : Ctl} {t : Nat} (h : t ∈ s.actors ct) : t ∈ slotThreads s := List.mem_of_mem_filter h

theorem State.actors_nodup (s : State) (ct : Ctl) : (s.actors ct).Nodup := (slotThreads_nodup s).filter _

/-! ## The group of a run that ends -/

theorem State.bystanders_nodup (s : State) (ct : Ctl) : (s.bystanders ct).Nodup := (slotThreads_nodup s).filter _

/-- Threads guarded off that begin another run, and then the others, each put in a place, with the slot given up. -/
theorem stands_of_placeAll {s s1 s' : State} {ct : Ctl} (hs : s.whole = true) (f : Nat → Thread → Thread)
    (hth : s1.threads = s.threads) (hclock : s1.clock = s.clock) (hsl : s1.slots = s.slots)
    (hthreads : s'.threads = ((s1.placeAll (s.bystanders ct) fun _ h => h.goOn true s1.clock (h.pc + 4)).placeAll (s.actors ct) f).threads)
    (hslots : s'.slots = s1.slots.erase s.cur) : Stands s s' ct fun u => f u (s.thread u) := by
  have hthread : ∀ u, s1.thread u = s.thread u := fun u => by unfold State.thread; rw [hth]
  have hex : ∀ t ∈ slotThreads s, (s1.threads.find? t).isSome = true := fun t ht => by rw [hth]; exact (State.whole_thread hs ht).1
  refine ⟨fun u => ?_, fun q => ?_⟩
  · have h' : s'.thread u =
        ((s1.placeAll (s.bystanders ct) fun _ h => h.goOn true s1.clock (h.pc + 4)).placeAll (s.actors ct) f).thread u := by
      unfold State.thread; rw [hthreads]
    rw [h', State.thread_placeAll (s.actors_nodup ct) (fun t ht => by rw [State.find?_placeAll]; exact hex t (State.mem_actors ht)),
      State.thread_placeAll (s.bystanders_nodup ct) (fun t ht => hex t (State.mem_bystanders.mp ht).1), hthread, hclock]
    by_cases ha : u ∈ s.actors ct
    · rw [if_pos ha, if_pos ha, if_neg fun hb => (State.mem_bystanders.mp hb).2 ha]
    · rw [if_neg ha, if_neg ha]
      by_cases hu : u ∈ slotThreads s
      · rw [if_pos hu, if_pos (State.mem_bystanders.mpr ⟨hu, ha⟩)]
      · rw [if_neg hu, if_neg fun hb => hu (State.mem_bystanders.mp hb).1]
  · rw [hslots, FMap.find?_erase, hsl]

/-! ## `park`, R397 -/

namespace State

/-- A thread's register waits for no operation any more. -/
def dropPend (s : State) (t v : Nat) : State :=
  if (s.pending t v).isEmpty then s
  else s.setRow (crewOf t) v { s.row (crewOf t) v with pend := (s.row (crewOf t) v).pend.erase (laneOf t) }

theorem dropPends_eq (s : State) (t : Nat) : s.dropPends t = (span 0 32).foldl (fun s v => s.dropPend t v) s := rfl

theorem dropPend_rows (s : State) (t v : Nat) : s.dropPend t v = { s with rows := (s.dropPend t v).rows } := by
  unfold dropPend
  split
  · rfl
  · rw [setRow_rows]

theorem setRow_updThread (s : State) (c v : Nat) (r : Row) (u : Nat) (f : Thread → Thread) :
    (s.updThread u f).setRow c v r = (s.setRow c v r).updThread u f := by
  unfold setRow; split <;> rfl

theorem dropPend_updThread (s : State) (t v u : Nat) (f : Thread → Thread) :
    (s.updThread u f).dropPend t v = (s.dropPend t v).updThread u f := by
  have hpend : (s.updThread u f).pending t v = s.pending t v := rfl
  have hrow : (s.updThread u f).row (crewOf t) v = s.row (crewOf t) v := rfl
  unfold dropPend
  rw [hpend, hrow, setRow_updThread]
  split <;> rfl

theorem dropPend_sees (s : State) (t : Nat) {v : Nat} (hv : v < 32) :
    (s.dropPend t v).pending t v = [] ∧ SeesBut s (s.dropPend t v) fun u w => u = t ∧ w = v ∧ s.pending t v ≠ [] := by
  unfold dropPend
  by_cases h : (s.pending t v).isEmpty = true
  · rw [if_pos h]
    exact ⟨List.isEmpty_iff.mp h, .refl s _⟩
  · rw [if_neg h]
    have hw : Row.Waits { s.row (crewOf t) v with pend := (s.row (crewOf t) v).pend.erase (laneOf t) } (s.row (crewOf t) v) (laneOf t) [] :=
      ⟨rfl, rfl, fun _ => ⟨rfl, rfl⟩, fun l => by rw [FMap.get_erase]⟩
    obtain ⟨h1, h2⟩ := setRow_waits hv hw
    exact ⟨h1, h2.mono fun u w ⟨hu, hw, hn⟩ => ⟨hu, hw, fun he => hn ⟨rfl, he⟩⟩⟩

/-- The registers of threads wait for no operation any more. -/
def dropAll (s : State) (ts : List Nat) : State := ts.foldl dropPends s

theorem dropAll_cons (s : State) (t : Nat) (ts : List Nat) : s.dropAll (t :: ts) = (s.dropPends t).dropAll ts := by
  rw [dropAll, List.foldl_cons, dropAll]

theorem dropPends_rows (s : State) (t : Nat) : s.dropPends t = { s with rows := (s.dropPends t).rows } := by
  rw [dropPends_eq]
  generalize span 0 32 = vs
  induction vs generalizing s with
  | nil => rfl
  | cons v vs ih => rw [List.foldl_cons, ih, dropPend_rows]

theorem dropPends_updThread (s : State) (t u : Nat) (f : Thread → Thread) : (s.updThread u f).dropPends t = (s.dropPends t).updThread u f := by
  have key : ∀ (vs : List Nat) (s : State), vs.foldl (fun s v => s.dropPend t v) (s.updThread u f) =
      (vs.foldl (fun s v => s.dropPend t v) s).updThread u f := by
    intro vs
    induction vs with
    | nil => exact fun _ => rfl
    | cons v vs ih => intro s; rw [List.foldl_cons, dropPend_updThread, ih, List.foldl_cons]
  exact key (span 0 32) s

theorem dropPends_placeAll (s : State) (t : Nat) (ts : List Nat) (f : Nat → Thread → Thread) :
    (s.dropPends t).placeAll ts f = (s.placeAll ts f).dropPends t := by
  induction ts generalizing s with
  | nil => rw [placeAll_nil, placeAll_nil]
  | cons u ts ih => rw [placeAll_cons, placeAll_cons, ← dropPends_updThread, ih]

/-- The registers of a thread that drops what it waits for: they wait for nothing, and those that waited for nothing read as before. -/
theorem dropPends_sees (s : State) (t : Nat) :
    (∀ v, v < 32 → (s.dropPends t).pending t v = []) ∧ SeesBut s (s.dropPends t) fun u w => u = t ∧ s.pending u w ≠ [] := by
  have key : ∀ vs : List Nat, (∀ v ∈ vs, v < 32) → ∀ s : State,
      (∀ v, v < 32 → v ∈ vs ∨ s.pending t v = [] → (vs.foldl (fun s v => s.dropPend t v) s).pending t v = []) ∧
        SeesBut s (vs.foldl (fun s v => s.dropPend t v) s) fun u w => u = t ∧ s.pending u w ≠ [] := by
    intro vs
    induction vs with
    | nil => exact fun _ s => ⟨fun v _ h => h.resolve_left List.not_mem_nil, .refl s _⟩
    | cons x vs ih =>
      intro hvs s
      obtain ⟨h1, h2⟩ := s.dropPend_sees t (hvs x (by simp))
      obtain ⟨h3, h4⟩ := ih (fun v hv => hvs v (by simp [hv])) (s.dropPend t x)
      refine ⟨fun v hv hm => h3 v hv ?_, fun u w hw hn => ?_⟩
      · by_cases hvx : v = x
        · exact .inr (by rw [hvx, h1])
        · rcases hm with hm | hm
          · exact .inl ((List.mem_cons.mp hm).resolve_left hvx)
          · exact .inr (by rw [(h2 t v hv fun hp => hvx hp.2.1).1, hm])
      · obtain ⟨k1, k2, k3⟩ := h2 u w hw fun ⟨hu, hwx, hne⟩ => hn ⟨hu, by rw [hu, hwx]; exact hne⟩
        obtain ⟨l1, l2, l3⟩ := h4 u w hw fun ⟨hu, hne⟩ => hn ⟨hu, by rwa [k1] at hne⟩
        exact ⟨l1.trans k1, l2.trans k2, l3.trans k3⟩
  rw [dropPends_eq]
  have h32 : ∀ v, v < 32 ↔ v ∈ span 0 32 := fun v => by rw [mem_span]; omega
  obtain ⟨h1, h2⟩ := key (span 0 32) (fun v hv => (h32 v).mpr hv) s
  exact ⟨fun v hv => h1 v hv (.inl ((h32 v).mp hv)), h2⟩

theorem dropAll_rows (s : State) (ts : List Nat) : s.dropAll ts = { s with rows := (s.dropAll ts).rows } := by
  induction ts generalizing s with
  | nil => rfl
  | cons t ts ih => rw [dropAll_cons, ih, dropPends_rows]

theorem dropAll_sees (s : State) (ts : List Nat) :
    (∀ u ∈ ts, ∀ v, v < 32 → (s.dropAll ts).pending u v = []) ∧ SeesBut s (s.dropAll ts) fun u w => u ∈ ts ∧ s.pending u w ≠ [] := by
  induction ts generalizing s with
  | nil => exact ⟨fun u hu => absurd hu List.not_mem_nil, .refl s _⟩
  | cons t ts ih =>
    rw [dropAll_cons]
    obtain ⟨h1, h2⟩ := s.dropPends_sees t
    obtain ⟨h3, h4⟩ := ih (s.dropPends t)
    have hsees : SeesBut s ((s.dropPends t).dropAll ts) fun u w => u ∈ t :: ts ∧ s.pending u w ≠ [] := by
      intro u w hw hn
      obtain ⟨k1, k2, k3⟩ := h2 u w hw fun ⟨hu, hne⟩ => hn ⟨by rw [hu]; simp, hne⟩
      obtain ⟨l1, l2, l3⟩ := h4 u w hw fun ⟨hu, hne⟩ => hn ⟨List.mem_cons_of_mem _ hu, by rwa [k1] at hne⟩
      exact ⟨l1.trans k1, l2.trans k2, l3.trans k3⟩
    refine ⟨fun u hu v hv => ?_, hsees⟩
    by_cases hin : u ∈ ts
    · exact h3 u hin v hv
    · obtain rfl := (List.mem_cons.mp hu).resolve_right hin
      exact ((h4 u v hv fun hp => hin hp.1).1).trans (h1 v hv)

/-- What a lane that parks in its save handler has done, R397. -/
def parked : Done := ⟨[], [], [], none, .saved⟩

/-- Threads that park in their save handlers: they stop where they are, and their registers wait for nothing any more, R397. -/
theorem settle_parked (len : Nat) (ts : List Nat) (s : State) :
    (ts.map fun t => (t, parked)).foldl (fun s td => s.settleLane true len td.1 td.2) s =
      (s.placeAll ts fun _ h => { h with stat := .saved }).dropAll ts := by
  induction ts generalizing s with
  | nil => rfl
  | cons t ts ih =>
    rw [List.map_cons, List.foldl_cons, ih, placeAll_cons]
    have hone : s.settleLane true len t parked = (s.updThread t fun h => { h with stat := .saved }).dropPends t := rfl
    dsimp only
    rw [hone, dropPends_placeAll, dropAll_cons]

end State

theorem exec_park (ct : Ctl) (s : State) : exec (.park ct) s = execPark ct s := rfl

/-- A thread in its save handler parks. -/
theorem park_lane {s : State} {ts : List Nat} (ct : Ctl) (h : ∀ t ∈ ts, (s.thread t).inSave = true) :
    State.runLanes (State.pureLane fun s t => State.lane do
      failIf (!(s.thread t).inSave) Cause.illegalOp (insnWord (.park ct))
      .ok (.done ⟨[], [], [], none, .saved⟩)) s ts = (s, completed (ts.map fun t => (t, State.parked))) := by
  rw [runLanes_pure, completed, List.map_map]
  refine congrArg (Prod.mk s) (List.map_congr_left fun t ht => ?_)
  rw [h t ht]
  rfl

/-- Settles O28. The lanes complete as parked: their threads are put in place, and then their registers drop what they wait for. -/
theorem parkStops : Obligations.ParkStops := by
  unfold Obligations.ParkStops
  intro ct s hwf hwhole hsave
  have he : ct.e = true := (Bool.and_eq_true _ _ ▸ hwf : _ ∧ _).2
  obtain ⟨g, hg⟩ := State.whole_slot hwhole
  refine ⟨_, exec_park ct s, ?_⟩
  rw [issue_completed hg he 4 (park_lane ct hsave) (by
    intro d hd
    obtain ⟨t, -, rfl⟩ := List.mem_map.mp hd
    exact ⟨rfl, rfl, rfl⟩),
    State.settle_bystanders 4 fun t ht => State.whole_thread hwhole (State.mem_bystanders.mp ht).1, State.settle_parked]
  generalize hp : (s.placeAll (s.bystanders ct) fun _ h => h.goOn true s.clock (h.pc + 4)).placeAll (s.actors ct)
    (fun _ h => { h with stat := .saved }) = p
  obtain ⟨hnone, hsees⟩ := p.dropAll_sees (s.actors ct)
  obtain ⟨rows, hrows⟩ : ∃ rows, p.dropAll (s.actors ct) = { p with rows := rows } := ⟨_, p.dropAll_rows (s.actors ct)⟩
  rw [hrows] at hnone hsees ⊢
  obtain ⟨th, rfl⟩ : ∃ th, p = { s with threads := th } := ⟨_, by rw [← hp, State.placeAll_threads, State.placeAll_threads]⟩
  refine ⟨rfl, rfl, ?_, fun u v hv hn => ?_, fun u hu v hv => hnone u hu v hv⟩
  · have hth := congrArg State.threads hp.symm
    exact stands_of_placeAll hwhole (fun _ h => { h with stat := .saved }) rfl rfl rfl hth rfl
  · obtain ⟨-, htag, hreg⟩ := hsees u v hv fun ⟨hu, hne⟩ => hn.elim (fun h => h hu) hne
    exact ⟨hreg, htag⟩

/-! ## `svc`, R353 -/

namespace State

theorem readSrc_ok {s : State} {t v : Nat} {acc : BitVec 4 → Bool} (h : s.readable t [(v, acc)] = true) :
    s.readSrc t v acc = .ok (s.reg t v) := by
  simp only [readable, List.all_cons, List.all_nil, Bool.and_true, Bool.and_eq_true, bne_iff_ne] at h
  unfold readSrc
  rw [if_neg h.1, if_pos h.2]

/-- A group whose registers can be read gives their bits. -/
theorem readGroup_ok {s : State} {t : Nat} {acc : BitVec 4 → Bool} (n v : Nat) (h : s.readable t ((span v n).map fun v => (v, acc)) = true) :
    s.readGroup t acc v n = .ok ((span v n).map (s.reg t)) := by
  induction n generalizing v with
  | zero => rfl
  | succ n ih =>
    have hsplit : s.readable t [(v, acc)] = true ∧ s.readable t ((span (v + 1) n).map fun v => (v, acc)) = true := by
      rw [span, List.map_cons] at h
      simp only [readable, List.all_cons, List.all_nil, Bool.and_true, Bool.and_eq_true] at h ⊢
      exact h
    rw [readGroup, readSrc_ok hsplit.1, ih _ hsplit.2]
    rfl

theorem pend_rows (s : State) (t id v : Nat) : s.pend t id v = { s with rows := (s.pend t id v).rows } := by
  unfold pend; rw [setRow_rows]

/-- A register that is to be written waits for one operation more, and no other register has changed, R38. -/
theorem pend_sees (s : State) (t id : Nat) {v : Nat} (hv : v < 32) :
    (s.pend t id v).pending t v = s.pending t v ++ [⟨id, (s.tagOf t v).1, (s.tagOf t v).2⟩] ∧
      SeesBut s (s.pend t id v) fun u w => u = t ∧ w = v := by
  unfold pend
  dsimp only
  generalize hr : ({ s.row (crewOf t) v with
    fmt := if (s.row (crewOf t) v).live = 0 ∧ (s.row (crewOf t) v).pend.isEmpty then 0 else (s.row (crewOf t) v).fmt
    scl := if (s.row (crewOf t) v).live = 0 ∧ (s.row (crewOf t) v).pend.isEmpty then 0 else (s.row (crewOf t) v).scl
    pend := (s.row (crewOf t) v).pend.put (laneOf t) (s.pending t v ++ [⟨id, (s.tagOf t v).1, (s.tagOf t v).2⟩]) } : Row) = r
  have hw : r.Waits (s.row (crewOf t) v) (laneOf t) (s.pending t v ++ [⟨id, (s.tagOf t v).1, (s.tagOf t v).2⟩]) := by
    subst hr
    exact ⟨rfl, rfl, fun h0 => ⟨if_neg fun h => h0 h.1, if_neg fun h => h0 h.1⟩, fun l => FMap.get_put _ _ _ _ _⟩
  obtain ⟨h1, h2⟩ := setRow_waits hv hw
  exact ⟨h1, h2.mono fun u w h => ⟨h.1, h.2.1⟩⟩

/-- A register that waits for an operation has a row. -/
theorem row_of_pending {s : State} {t v : Nat} (h : s.pending t v ≠ []) : (s.rows.find? (crewOf t * 32 + v)).isSome = true := by
  cases hr : s.rows.find? (crewOf t * 32 + v) with
  | some r => rfl
  | none =>
    refine absurd ?_ h
    unfold pending row FMap.get
    rw [hr]
    rfl

/-- Registers that have rows need no new ones, and pass the row test, R303, R304. -/
theorem rowCheck_held {s : State} {t : Nat} {vs : List Nat} (h : ∀ v ∈ vs, (s.rows.find? (crewOf t * 32 + v)).isSome = true) :
    s.rowCheck t vs = none := by
  have hnew : s.newRows (crewOf t) vs = [] := by
    unfold newRows
    rw [List.filter_eq_nil_iff]
    intro v hv
    rw [Option.isNone_eq_false_iff.mpr (h v (List.mem_eraseDups.mp hv))]
    simp
  have hshort : s.rowsShort (crewOf t) 0 = false := by
    unfold rowsShort
    rw [decide_eq_false_iff_not]
    have := Nat.le_max_right (s.floorOf (crewOf t)) (s.poolRows (crewOf t))
    omega
  unfold rowCheck
  dsimp only
  rw [hnew, List.drop_nil]
  exact if_neg (by rw [List.length_nil, hshort]; decide)

/-- What a lane puts into the batch of its `svc`, R353. -/
def callerOf (s : State) (u : Nat) : Nat × Nat × List (BitVec 32) := (laneOf u, tidOf u, (span 8 8).map (s.reg u))

/-- The batch that threads of the crew of `t` form, R353. -/
def batchOf (s : State) (n : BitVec 8) (t : Nat) (us : List Nat) : Batch :=
  { num := n, world := s.worldOf t, die := s.coreOf t / 96, task := ((s.tasks.find? (s.taskOf t)).map (·.handle)).getD 0,
    crew := crewOf t, callers := us.map s.callerOf, sent := none, bound := none, aborted := false }

/-- Threads of one crew are of one gang and one team, and run on one core. -/
theorem batchOf_mate (s : State) (n : BitVec 8) {t u : Nat} (h : crewOf u = crewOf t) (us : List Nat) : s.batchOf n u us = s.batchOf n t us := by
  have hg : gangOf u = gangOf t := by unfold crewOf at h; unfold gangOf; omega
  have hi : teamIdx u = teamIdx t := by unfold crewOf at h; unfold teamIdx; omega
  unfold batchOf worldOf coreOf taskOf
  rw [hg, hi, h]

/-- What a lane of `svc` does. -/
def svcLane (n : BitVec 8) (ct : Ctl) (id : Nat) (s : State) (t : Nat) : State × LaneRes :=
  laneS s do
    failIf (s.coreOf t % 96 == 0) Cause.privilege (insnWord (.svc n ct))
    let args ← s.readGroup t Acc.any 8 8
    s.rowsFor t [8, 9]
    let handle := ((s.tasks.find? (s.taskOf t)).map (·.handle)).getD 0
    let fresh : Batch :=
      { num := n, world := s.worldOf t, die := s.coreOf t / 96, task := handle, crew := crewOf t, callers := [],
        sent := none, bound := none, aborted := false }
    let b : Batch := if s.nextId = id then fresh else (s.batches.find? id).getD fresh
    let b' := { b with callers := b.callers ++ [(laneOf t, tidOf t, args)] }
    let s1 := { s with batches := s.batches.put id b', nextId := id + 1 }
    .ok ((s1.pend t id 8).pend t id 9, .done (standAt ((s.thread t).pc + 4) (.svc id)))

theorem exec_svc (n : BitVec 8) (ct : Ctl) (s : State) : exec (.svc n ct) s = .next (s.issue ct 4 (svcLane n ct s.nextId)) := rfl

/-- The state once the lanes `pre` have called: their registers `v8` and `v9` wait for the batch that holds them. -/
structure Called (s : State) (n : BitVec 8) (t : Nat) (pre : List Nat) (x : State) : Prop where
  rest : ∃ rows batches next, x = { s with rows := rows, batches := batches, nextId := next }
  start : pre = [] → x = s
  next : pre ≠ [] → x.nextId = s.nextId + 1
  batch : pre ≠ [] → ∀ k, x.batches.find? k = if k = s.nextId then some (s.batchOf n t pre) else s.batches.find? k
  waits : ∀ u ∈ pre, ∀ v, v = 8 ∨ v = 9 → x.pending u v = s.pending u v ++ [⟨s.nextId, (s.tagOf u v).1, (s.tagOf u v).2⟩]
  sees : SeesBut s x fun u v => u ∈ pre ∧ (v = 8 ∨ v = 9)

theorem Called.nil (s : State) (n : BitVec 8) (t : Nat) : Called s n t [] s :=
  ⟨⟨s.rows, s.batches, s.nextId, rfl⟩, fun _ => rfl, fun h => absurd rfl h, fun h => absurd rfl h,
    fun _ h => absurd h List.not_mem_nil, .refl s _⟩

/-- The lane's state after its checks: the batch that holds it, and its registers waiting. -/
def joinBatch (x : State) (id : Nat) (b : Batch) (u : Nat) : State :=
  (({ x with batches := x.batches.put id b, nextId := id + 1 } : State).pend u id 8).pend u id 9

theorem joinBatch_rest (x : State) (id : Nat) (b : Batch) (u : Nat) : x.joinBatch id b u =
    { x with rows := (x.joinBatch id b u).rows, batches := x.batches.put id b, nextId := id + 1 } := by
  unfold joinBatch
  rw [pend_rows, pend_rows]

/-- A lane that joins a batch: its two registers wait for it, and no other register has changed. -/
theorem joinBatch_sees (x : State) (id : Nat) (b : Batch) (u : Nat) :
    (∀ v, v = 8 ∨ v = 9 → (x.joinBatch id b u).pending u v = x.pending u v ++ [⟨id, (x.tagOf u v).1, (x.tagOf u v).2⟩]) ∧
      SeesBut x (x.joinBatch id b u) fun w v => w = u ∧ (v = 8 ∨ v = 9) := by
  unfold joinBatch
  generalize hy : ({ x with batches := x.batches.put id b, nextId := id + 1 } : State) = y
  have hxy : ∀ w v, y.pending w v = x.pending w v ∧ y.tagOf w v = x.tagOf w v ∧ y.reg w v = x.reg w v := by
    intro w v; rw [← hy]; exact ⟨rfl, rfl, rfl⟩
  obtain ⟨h8, k8⟩ := y.pend_sees u id (v := 8) (by decide)
  obtain ⟨h9, k9⟩ := (y.pend u id 8).pend_sees u id (v := 9) (by decide)
  have hother := k8.trans k9
  refine ⟨fun v hv => ?_, fun w v hv hn => ?_⟩
  · rcases hv with rfl | rfl
    · rw [(k9 u 8 (by decide) fun h => absurd h.2 (by decide)).1, h8, (hxy u 8).1, (hxy u 8).2.1]
    · obtain ⟨e1, e2, -⟩ := k8 u 9 (by decide) fun h => absurd h.2 (by decide)
      rw [h9, e1, e2, (hxy u 9).1, (hxy u 9).2.1]
  · obtain ⟨e1, e2, e3⟩ := hother w v hv fun h => hn (h.elim (fun h => ⟨h.1, .inl h.2⟩) fun h => ⟨h.1, .inr h.2⟩)
    obtain ⟨f1, f2, f3⟩ := hxy w v
    exact ⟨e1.trans f1, e2.trans f2, e3.trans f3⟩

/-- A lane that can call joins the batch of the lanes before it. -/
theorem Called.step {s x : State} {n : BitVec 8} {t : Nat} {pre : List Nat} (h : Called s n t pre x) (ct : Ctl) {u : Nat} (hu : u ∉ pre)
    (hcrew : ∀ w ∈ u :: pre, crewOf w = crewOf t) (hcore : s.coreOf u % 96 ≠ 0)
    (hread : s.readable u ((span 8 8).map fun v => (v, Acc.any)) = true) (hrows : s.rowCheck u [8, 9] = none) :
    ∃ x', svcLane n ct s.nextId x u = (x', .done (standAt ((s.thread u).pc + 4) (.svc s.nextId))) ∧ Called s n t (pre ++ [u]) x' := by
  have hsee : ∀ v, v < 32 → x.pending u v = s.pending u v ∧ x.tagOf u v = s.tagOf u v ∧ x.reg u v = s.reg u v :=
    fun v hv => h.sees u v hv fun hp => hu hp.1
  have hx : x.coreOf u = s.coreOf u ∧ x.thread u = s.thread u ∧ x.batchOf n u [] = s.batchOf n u [] := by
    obtain ⟨rows, batches, next, rfl⟩ := h.rest; exact ⟨rfl, rfl, rfl⟩
  have hrow : x.rowCheck u [8, 9] = none := by
    cases pre with
    | nil => rw [h.start rfl]; exact hrows
    | cons p pre =>
      refine rowCheck_held fun v hv => ?_
      have hpv : x.pending p v ≠ [] := by
        rw [h.waits p (by simp) v (by simpa using hv)]; simp
      have := row_of_pending hpv
      rwa [hcrew p (by simp), ← hcrew u (by simp)] at this
  have hargs : x.readGroup u Acc.any 8 8 = .ok ((span 8 8).map (s.reg u)) := by
    have hlt : ∀ v ∈ span 8 8, v < 32 := fun v hv => by rw [mem_span] at hv; omega
    rw [readGroup_ok 8 8]
    · exact congrArg Except.ok (List.map_congr_left fun v hv => (hsee v (hlt v hv)).2.2)
    · unfold readable fmtOf at hread ⊢
      rw [List.all_map, List.all_eq_true] at hread ⊢
      intro v hv
      have := hread v hv
      simp only [Function.comp_apply, (hsee v (hlt v hv)).2.1] at this ⊢
      exact this
  have hbatch : (if x.nextId = s.nextId then x.batchOf n u [] else (x.batches.find? s.nextId).getD (x.batchOf n u [])) = s.batchOf n t pre := by
    rw [hx.2.2, batchOf_mate s n (hcrew u (by simp)) []]
    cases pre with
    | nil => rw [h.start rfl, if_pos rfl]
    | cons p pre => rw [h.next (by simp), if_neg (by omega), h.batch (by simp), if_pos rfl]; rfl
  have hlane : svcLane n ct s.nextId x u =
      (x.joinBatch s.nextId (s.batchOf n t (pre ++ [u])) u, .done (standAt ((s.thread u).pc + 4) (.svc s.nextId))) := by
    have hfit : failIf (x.coreOf u % 96 == 0) Cause.privilege (insnWord (.svc n ct)) = .ok () := by
      rw [hx.1]; exact if_neg (by simpa using hcore)
    have hroom : x.rowsFor u [8, 9] = .ok () := by unfold rowsFor; rw [hrow]
    have hrun : svcLane n ct s.nextId x u =
        (x.joinBatch s.nextId
          { (if x.nextId = s.nextId then x.batchOf n u [] else (x.batches.find? s.nextId).getD (x.batchOf n u [])) with
            callers := (if x.nextId = s.nextId then x.batchOf n u [] else (x.batches.find? s.nextId).getD (x.batchOf n u [])).callers
              ++ [s.callerOf u] } u, .done (standAt ((x.thread u).pc + 4) (.svc s.nextId))) := by
      unfold svcLane
      rw [hfit, hargs, hroom]
      rfl
    have hjoin : (s.batchOf n t (pre ++ [u])).callers = (s.batchOf n t pre).callers ++ [s.callerOf u] := List.map_append
    rw [hrun, hbatch, hx.2.1, ← hjoin]
    rfl
  obtain ⟨hw, hs⟩ := x.joinBatch_sees s.nextId (s.batchOf n t (pre ++ [u])) u
  refine ⟨_, hlane, ?_, ?_, ?_, ?_, ?_, ?_⟩
  · rw [joinBatch_rest]
    obtain ⟨rows, batches, next, rfl⟩ := h.rest
    exact ⟨_, _, _, rfl⟩
  · intro h0; simp at h0
  · intro _; rw [joinBatch_rest]
  · intro _ k
    rw [joinBatch_rest]
    dsimp only
    rw [FMap.find?_put]
    by_cases hk : k = s.nextId
    · rw [if_pos hk, if_pos hk]
    · rw [if_neg hk, if_neg hk]
      cases pre with
      | nil => rw [h.start rfl]
      | cons p pre => rw [h.batch (by simp), if_neg hk]
  · intro w hwm v hv
    have hv32 : v < 32 := by omega
    by_cases hwu : w = u
    · rw [hwu, hw v hv, (hsee v hv32).1, (hsee v hv32).2.1]
    · have hwp : w ∈ pre := by simpa [hwu] using hwm
      rw [(hs w v hv32 fun h => hwu h.1).1, h.waits w hwp v hv]
  · exact (h.sees.trans hs).mono fun w v hp => hp.elim (fun h => ⟨by simp [h.1], h.2⟩) fun h => ⟨by simp [h.1], h.2⟩

/-- Lanes that can call, called one after the other. -/
theorem Called.lanes {s : State} {n : BitVec 8} {t : Nat} (ct : Ctl) (us : List Nat) {pre : List Nat} {x : State} (h : Called s n t pre x)
    (hnd : (pre ++ us).Nodup) (hcrew : ∀ w ∈ pre ++ us, crewOf w = crewOf t)
    (hcan : ∀ u ∈ us, s.coreOf u % 96 ≠ 0 ∧ s.readable u ((span 8 8).map fun v => (v, Acc.any)) = true ∧
      (s.rowCheck u [8, 9]).isNone = true) :
    ∃ x', runLanes (svcLane n ct s.nextId) x us = (x', completed (us.map fun u => (u, standAt ((s.thread u).pc + 4) (.svc s.nextId)))) ∧
      Called s n t (pre ++ us) x' := by
  induction us generalizing pre x with
  | nil => exact ⟨x, rfl, by rwa [List.append_nil]⟩
  | cons u us ih =>
    obtain ⟨hcore, hread, hrows⟩ := hcan u (by simp)
    have hu : u ∉ pre := fun hp => (List.nodup_append.mp hnd).2.2 u hp u (by simp) rfl
    obtain ⟨x1, hlane, h1⟩ := h.step ct hu
      (fun w hw => hcrew w ((List.mem_cons.mp hw).elim (fun e => by simp [e]) fun hp => by simp [hp]))
      hcore hread (Option.isNone_iff_eq_none.mp hrows)
    have happ : pre ++ [u] ++ us = pre ++ u :: us := by simp
    obtain ⟨x2, hlanes, h2⟩ := ih h1 (happ ▸ hnd) (happ ▸ hcrew) fun w hw => hcan w (by simp [hw])
    exact ⟨x2, by rw [runLanes, hlane]; dsimp only; rw [hlanes]; rfl, happ ▸ h2⟩

end State

/-- Threads that have called come to stand after their `svc`, one by one. -/
theorem settle_callers {s : State} (id : Nat) (ts : List Nat) (hnd : ts.Nodup) {m : State} (hclock : m.clock = s.clock)
    (hsame : ∀ u ∈ ts, m.thread u = s.thread u) (hex : ∀ u ∈ ts, (m.threads.find? u).isSome = true) :
    (ts.map fun u => (u, standAt ((s.thread u).pc + 4) (.svc id))).foldl (fun s td => s.settleLane true 4 td.1 td.2) m =
      m.placeAll ts fun _ h => h.standing s.clock (h.pc + 4) (.svc id) := by
  induction ts generalizing m with
  | nil => rfl
  | cons u ts ih =>
    obtain ⟨hu, hnd⟩ := List.nodup_cons.mp hnd
    have hone : m.updThread u (fun h => h.standing m.clock ((s.thread u).pc + 4) (.svc id)) =
        m.updThread u fun h => h.standing s.clock (h.pc + 4) (.svc id) :=
      State.updThread_congr (by rw [hclock, hsame u (by simp)])
    rw [List.map_cons, List.foldl_cons, State.settleLane_svc, hone, State.placeAll_cons]
    refine ih hnd hclock (fun v hv => ?_) fun v hv => ?_
    · rw [State.thread_updThread _ _ _ _ (hex u (by simp)), if_neg fun e => hu (by rwa [← e])]
      exact hsame v (by simp [hv])
    · rw [State.find?_updThread]; exact hex v (by simp [hv])

/-- What `svc` does for a group of which every thread can call: the batch is formed, those guarded off go on, and the callers stand. -/
theorem issue_svc {s : State} {n : BitVec 8} {ct : Ctl} {t : Nat} (he : ct.e = true) (hwhole : s.whole = true) (ht : t ∈ s.actors ct)
    (hcan : ∀ u ∈ s.actors ct, s.coreOf u % 96 ≠ 0 ∧ s.readable u ((span 8 8).map fun v => (v, Acc.any)) = true ∧
      (s.rowCheck u [8, 9]).isNone = true) :
    ∃ x p, State.Called s n t (s.actors ct) x ∧
      p = (x.placeAll (s.bystanders ct) fun _ h => h.goOn true x.clock (h.pc + 4)).placeAll (s.actors ct)
        (fun _ h => h.standing s.clock (h.pc + 4) (.svc s.nextId)) ∧
      s.issue ct 4 (State.svcLane n ct s.nextId) = { p with slots := p.slots.erase s.cur } := by
  obtain ⟨g, hg⟩ := State.whole_slot hwhole
  have hcrew : ∀ u ∈ s.actors ct, crewOf u = crewOf t := fun u hu =>
    (slotThreads_crew hg u (State.mem_actors hu)).trans (slotThreads_crew hg t (State.mem_actors ht)).symm
  obtain ⟨x, hrun, hx⟩ := (State.Called.nil s n t).lanes ct (s.actors ct) (s.actors_nodup ct) hcrew hcan
  refine ⟨x, _, hx, rfl, ?_⟩
  have hrest : x.threads = s.threads ∧ x.clock = s.clock ∧ (∀ u, x.thread u = s.thread u) ∧ ∀ u, x.goesOn u = s.goesOn u := by
    obtain ⟨rows, batches, next, rfl⟩ := hx.rest
    exact ⟨rfl, rfl, fun _ => rfl, fun _ => rfl⟩
  obtain ⟨hth, hclock, hthread, hgo⟩ := hrest
  have hthere : ∀ u ∈ slotThreads s, (x.threads.find? u).isSome = true ∧ x.goesOn u = true := fun u hu => by
    rw [hth, hgo]; exact State.whole_thread hwhole hu
  rw [issue_completed hg he 4 hrun (by
    intro d hd
    obtain ⟨u, -, rfl⟩ := List.mem_map.mp hd
    exact ⟨rfl, rfl, rfl⟩),
    State.settle_bystanders 4 fun u hu => hthere u (State.mem_bystanders.mp hu).1]
  generalize hm : (x.placeAll (s.bystanders ct) fun _ h => h.goOn true x.clock (h.pc + 4)) = m
  have hmrest : m.clock = s.clock ∧ ∀ u ∈ s.actors ct, m.thread u = s.thread u := by
    subst hm
    refine ⟨by rw [State.placeAll_threads]; exact hclock, fun u hu => ?_⟩
    rw [State.thread_placeAll (s.bystanders_nodup ct) (fun v hv => (hthere v (State.mem_bystanders.mp hv).1).1),
      if_neg fun hb => (State.mem_bystanders.mp hb).2 hu, hthread]
  rw [settle_callers s.nextId (s.actors ct) (s.actors_nodup ct) hmrest.1 hmrest.2 fun u hu => by
    rw [← hm, State.find?_placeAll]; exact (hthere u (State.mem_actors hu)).1]

/-- Settles O26. The lanes call one after the other, each into the batch that the first has opened, and then stand. -/
theorem svcBatches : Obligations.SvcBatches := by
  unfold Obligations.SvcBatches
  intro n ct s t hwf hwhole ht hcan
  obtain ⟨x, p, hx, hp, hissue⟩ := issue_svc (n := n) (Bool.and_eq_true _ _ ▸ hwf : _ ∧ _).2 hwhole ht hcan
  have hne : s.actors ct ≠ [] := List.ne_nil_of_mem ht
  obtain ⟨⟨rows, batches, next, rfl⟩, -, hnext, hbatch, hwaits, hsees⟩ := hx
  obtain ⟨th, rfl⟩ : ∃ th, p = { s with rows := rows, batches := batches, nextId := next, threads := th } :=
    ⟨_, by rw [hp, State.placeAll_threads, State.placeAll_threads]⟩
  refine ⟨_, (State.exec_svc n ct s).trans (congrArg _ hissue), rfl, rfl, fun u v hv hn => ?_, hwaits, ?_, hnext hne, hbatch hne⟩
  · obtain ⟨-, htag, hreg⟩ := hsees u v hv fun ⟨hu, hv⟩ => hn.elim (fun h => h hu) fun h => hv.elim h.1 h.2
    exact ⟨hreg, htag⟩
  · have hth := congrArg State.threads hp
    exact stands_of_placeAll (s1 := { s with rows := rows, batches := batches, nextId := next }) hwhole
      (fun _ h => h.standing s.clock (h.pc + 4) (.svc s.nextId)) rfl rfl rfl hth rfl

/-! ## An `exit` where a thread is listed twice, R80, R318 -/

/-- A thread of gang 0 that is listed with a state. -/
def listedAs (st : TStat) : Thread := { Thread.fresh 0 with stat := st }

/-- Thread 0 holds the slot of quarter 0, and thread 1 is listed twice: as exited, which is how it reads, and then as standing in the
team's barrier. -/
def doubledThread : State := { State.reset with
  threads := [(0, listedAs .ready), (1, listedAs .exited), (1, listedAs (.bar false))]
  slots := [(0, ⟨0, 1, 0, 0, false, 0⟩)] }

/-- The barrier of the team counts the second listing, completes when thread 0 has exited, and makes thread 1 ready. -/
theorem doubledThread_exit : ∃ s', exec (.exit ⟨0, false, false, true⟩) doubledThread = .next s' ∧ (s'.thread 1).stat = .ready :=
  ⟨_, rfl, by decide +kernel⟩

/-- Refutes O22: nothing says that a thread is listed once (`State.listsForm`). `exit` settles the barriers of its gang over every listed
thread that is not listed as exited; where a thread is listed as exited and again as standing in a barrier, the barrier completes and the
thread, which had exited, is ready. -/
theorem not_exitEnds : ¬ Obligations.ExitEnds := by
  unfold Obligations.ExitEnds
  intro h
  obtain ⟨s1, h1, -, -, -, -, -, -, -, -, hstays, -⟩ :=
    h ⟨0, false, false, true⟩ doubledThread (by decide) (by decide +kernel) (fun kb hkb => absurd hkb List.not_mem_nil)
  obtain ⟨s2, h2, hready⟩ := doubledThread_exit
  obtain rfl : s1 = s2 := Host.Outcome.next.inj (h1.symm.trans h2)
  have hexited : (s1.thread 1).stat = .exited := (hstays 1 (by decide +kernel)).mpr (by decide +kernel)
  rw [hready] at hexited
  exact absurd hexited (by decide)

end Sys2Proof.Machine

/-! SUPPORT. Events that let a standing thread go on, or bring an entry to a port (R321, R327, R332 to R334, R351). -/

namespace Sys2Proof.Machine

/-! ## Threads that stand -/

namespace State

/-- A thread that has not exited is there. -/
theorem isSome_of_stat {s : State} {t : Nat} (h : (s.thread t).stat ≠ .exited) : (s.threads.find? t).isSome = true := by
  cases hf : s.threads.find? t with
  | some x => rfl
  | none =>
    refine absurd ?_ h
    unfold thread FMap.get
    rw [hf]
    rfl

theorem updThread_keepsOthers (s : State) (t : Nat) (f : Thread → Thread) : KeepsOthers s (s.updThread t f) t := by
  intro u hu
  unfold updThread thread FMap.get
  rw [FMap.find?_adjust, if_neg hu]

theorem updThread_updThread {s : State} {t : Nat} (f g : Thread → Thread) (u : Nat) (hex : (s.threads.find? t).isSome = true) :
    ((s.updThread t f).updThread t g).thread u = if u = t then g (f (s.thread t)) else s.thread u := by
  rw [thread_updThread _ _ _ _ (by rw [find?_updThread]; exact hex), thread_updThread _ _ _ _ hex, thread_updThread _ _ _ _ hex, if_pos rfl]
  by_cases hu : u = t
  · rw [if_pos hu, if_pos hu]
  · rw [if_neg hu, if_neg hu, if_neg hu]

/-- A thread begins a run, R33. -/
theorem enter_eq (s : State) (t pc : Nat) : s.enter t pc = s.updThread t fun h => h.goOn true s.clock pc := rfl

/-- A run boundary that pre-emption does not stop begins a run. -/
theorem boundary_goesOn {s : State} {t : Nat} (pc : Nat) (h : s.goesOn t = true) : s.boundary t pc = s.updThread t fun h => h.goOn true s.clock pc := by
  have hnone : (if (s.thread t).inSave then none else s.preemptOf t) = none := by
    unfold goesOn at h
    cases hsave : (s.thread t).inSave with
    | true => rfl
    | false => simpa [hsave] using h
  unfold boundary
  rw [hnone]
  rfl

end State

theorem resident_any {s : State} {g : Nat} (h : (s.gangs.find? g).map (·.stat) = some .resident) :
    (s.gangs.find? g).any (fun x => decide (x.stat = GStat.resident)) = true := by
  obtain ⟨x, hx, hstat⟩ := Option.map_eq_some_iff.mp h
  rw [hx]
  exact decide_eq_true hstat

/-! ## What each event does -/

theorem exec_bwaitTimeout {s : State} {t la b : Nat} {ph pd : BitVec 4} (hstat : (s.thread t).stat = .bwait la ph pd (some b))
    (hb : b ≤ s.clock) (hres : (s.gangs.find? (gangOf t)).map (·.stat) = some .resident) :
    exec (.bwaitTimeout t) s = .next ((s.setPred t pd false).enter t ((s.thread t).pc + 4)) := by
  have hexec : exec (.bwaitTimeout t) s = execBwaitTimeout t s := rfl
  rw [hexec, execBwaitTimeout]
  dsimp only
  rw [hstat]
  dsimp only
  rw [if_pos ⟨hb, resident_any hres⟩]

/-- The first element that a test accepts is taken out of a list. -/
theorem takeFirst_append {α : Type} {p : α → Bool} {pre : List α} {x : α} (post : List α) (hpre : ∀ y ∈ pre, p y = false) (hx : p x = true) :
    takeFirst p (pre ++ x :: post) = some (x, pre ++ post) := by
  induction pre with
  | nil => rw [List.nil_append, takeFirst, if_pos hx]; rfl
  | cons y pre ih =>
    rw [List.cons_append, takeFirst, if_neg (by rw [hpre y (by simp)]; decide), ih fun z hz => hpre z (by simp [hz])]
    rfl

/-- The oldest entry on its way to a port, whose releases are complete: it arrives, or its thread is gone. -/
theorem exec_portEntryArrival {s : State} {t : Nat} {dir : BitVec 2} {f : Flight} {pre post : List Flight} (hf : s.flights = pre ++ f :: post)
    (hdest : f.dest = t) (hdir : f.dir = dir) (hpre : ∀ x ∈ pre, x.dest ≠ t ∨ x.dir ≠ dir) (hfences : ∀ x ∈ f.fences, s.ops.find? x = none) :
    exec (.portEntryArrival t dir) s = .next (if gone s t then { s with flights := pre ++ post } else
      { s with flights := pre ++ post, ports := s.ports.set [] (portKey t dir) (s.ports.get [] (portKey t dir) ++ [f.entry]) }) := by
  have hexec : exec (.portEntryArrival t dir) s = execPortEntryArrival t dir s := rfl
  have htake := takeFirst_append (p := fun f : Flight => f.dest == t && f.dir == dir) (x := f) post
    (fun y hy => by
      rcases hpre y hy with h | h
      · simp [h]
      · simp [h])
    (by simp [hdest, hdir])
  have hdone : (f.fences.any fun x => (s.ops.find? x).isSome) = false := by
    rw [List.any_eq_false]
    intro x hx
    rw [hfences x hx]
    decide
  rw [hexec, execPortEntryArrival, hf, htake]
  dsimp only
  rw [if_neg (by rw [hdone]; decide)]

theorem exec_parkWake {s : State} {t : Nat} {why : ParkWhy} (hstat : (s.thread t).stat = .parked why) (hclear : parkClear s t why = true)
    (hturn : parkTurn s t why = true) (hres : (s.gangs.find? (gangOf t)).map (·.stat) = some .resident) :
    exec (.parkWake t) s = .next (s.updThread t fun h => { h with stat := .woken why, since := s.clock, age := 0 }) := by
  have hexec : exec (.parkWake t) s = execParkWake t s := rfl
  rw [hexec, execParkWake, hstat]
  dsimp only
  rw [resident_any hres, hclear, hturn]
  rfl

theorem exec_fetchwRegistered {s : State} {t la : Nat} {handle : BitVec 64} (hstat : (s.thread t).stat = .fetchw la handle)
    (hgo : s.goesOn t = true) (hfew : (s.fetches.values.filter fun f => f.gang == gangOf t).length < 16) :
    exec (.fetchwRegistered t) s =
      .next ({ s with fetches := s.fetches.put s.nextId ⟨gangOf t, la, handle⟩, nextId := s.nextId + 1 }.updThread t
        fun h => h.goOn true s.clock (s.thread t).pc) := by
  have hexec : exec (.fetchwRegistered t) s = execFetchwRegistered t s := rfl
  rw [hexec, execFetchwRegistered]
  dsimp only
  rw [hstat]
  dsimp only
  rw [if_pos hfew]
  exact congrArg Host.Outcome.next (State.boundary_goesOn
    (s := { s with fetches := s.fetches.put s.nextId ⟨gangOf t, la, handle⟩, nextId := s.nextId + 1 }) _ hgo)

/-- Settles O45, event by event. -/
theorem waitersWake : Obligations.WaitersWake := by
  unfold Obligations.WaitersWake
  refine ⟨fun s t la b ph pd hstat hb hres => ?timeout, fun s t dir f pre post hf hdest hdir hpre hfences => ?arrival,
    fun s t why hstat hclear hturn hres => ?wake, fun s t la handle hstat hgo hfew => ?registered⟩
  case timeout =>
    have hex := State.isSome_of_stat (s := s) (t := t) (by rw [hstat]; exact TStat.noConfusion)
    refine ⟨_, exec_bwaitTimeout hstat hb hres, rfl, fun u hu => ?_, fun p => ?_, ?_⟩
    · rw [State.enter_eq, State.setPred, State.updThread_updThread _ _ _ hex, if_neg hu]
    · unfold State.pred
      rw [State.enter_eq, State.setPred, State.updThread_updThread _ _ _ hex, if_pos rfl]
      have hbit := setBit_getLsbD (s.thread t).preds pd.toNat p.toNat false p.isLt
      exact hbit.trans (if_congr BitVec.toNat_inj rfl rfl)
    · rw [State.enter_eq, State.setPred, State.updThread_updThread _ _ _ hex, if_pos rfl]
      rfl
  case arrival =>
    refine ⟨_, exec_portEntryArrival hf hdest hdir hpre hfences, ?_, fun k => ?_⟩
    · split <;> rfl
    · by_cases hgone : (s.thread t).stat = .exited
      · rw [if_pos (show gone s t = true by unfold gone; rw [hgone]; rfl), if_neg fun h => h.2 hgone]
      · rw [if_neg (show ¬ gone s t = true by unfold gone; simpa using hgone)]
        dsimp only
        rw [FMap.get_set]
        by_cases hk : k = portKey t dir
        · rw [if_pos hk, if_pos ⟨hk, hgone⟩, hk]
        · rw [if_neg hk, if_neg fun h => hk h.1]
  case wake =>
    have hex := State.isSome_of_stat (s := s) (t := t) (by rw [hstat]; exact TStat.noConfusion)
    exact ⟨_, exec_parkWake hstat hclear hturn hres, rfl, State.updThread_keepsOthers s t _,
      (State.thread_updThread _ _ _ _ hex).trans (if_pos rfl)⟩
  case registered =>
    have hex := State.isSome_of_stat (s := s) (t := t) (by rw [hstat]; exact TStat.noConfusion)
    refine ⟨_, exec_fetchwRegistered hstat hgo hfew, rfl, State.updThread_keepsOthers _ t _, ?_, ?_⟩
    · exact (State.thread_updThread _ _ _ _ hex).trans (if_pos rfl)
    · exact FMap.find?_put_self _ _ _

end Sys2Proof.Machine

/-! SUPPORT. A fault that strikes the whole group, a task that ends at a fetch, and the turn of a group (R24, R31, R34, R56, R213, R373). -/

namespace Sys2Proof.Machine

theorem FMap.put_put {α : Type} (m : FMap α) (k : Nat) (v w : α) : (m.put k v).put k w = m.put k w := by
  induction m with
  | nil => simp [FMap.put]
  | cons a m ih =>
    obtain ⟨k', x⟩ := a
    rcases Nat.lt_trichotomy k k' with h | rfl | h
    · simp [FMap.put, h.ne', h]
    · simp [FMap.put]
    · simp [FMap.put, h.ne, h.not_gt, ih]

namespace State

/-! ## Threads that trap, R373 -/

/-- Two rewrites of a thread are one. -/
theorem updThread_comp (s : State) (t : Nat) (f g : Thread → Thread) : (s.updThread t f).updThread t g = s.updThread t fun h => g (f h) := by
  unfold updThread FMap.adjust
  cases hx : s.threads.find? t with
  | none => simp only [hx]
  | some x => simp only [FMap.find?_put_self, FMap.put_put]

/-- What `canTrap` asks of a thread's task and gang. -/
theorem canTrap_iff {s : State} {t : Nat} : s.canTrap t = true ↔
    (s.threads.find? t).isSome = true ∧ (s.thread t).handling = false ∧ (s.thread t).inSave = false ∧ s.preemptOf t = none ∧
      ∃ r, s.recordOf t = some r ∧ r.handler ≠ 0xFFFFFFFF ∧ s.handlerOk t r.handler = true := by
  unfold canTrap
  simp only [Bool.and_eq_true, Bool.not_eq_true', Option.isNone_iff_eq_none, and_assoc]
  cases s.recordOf t with
  | none => simp
  | some r => simp

/-- What a byte of code is depends on no thread and no slot. -/
theorem aliasByte_threads (s : State) (th : FMap Thread) (sl : FMap Group) (n pa : Nat) :
    State.aliasByte n { s with threads := th, slots := sl } pa = State.aliasByte n s pa := by
  induction n generalizing pa with
  | zero => rfl
  | succ n ih =>
    have hsup : ({ s with threads := th, slots := sl } : State).supplier pa = s.supplier pa := rfl
    unfold State.aliasByte
    rw [hsup]
    cases s.supplier pa with
    | none => rfl
    | some e =>
      have hmap : (e.srcsOf pa).map (State.aliasByte n { s with threads := th, slots := sl }) = (e.srcsOf pa).map (State.aliasByte n s) :=
        List.map_congr_left fun a _ => ih a
      dsimp only
      rw [hmap, ih]

theorem codeByte_threads (s : State) (th : FMap Thread) (sl : FMap Group) (t va : Nat) :
    ({ s with threads := th, slots := sl } : State).codeByte t va = s.codeByte t va := by
  have hlease : ({ s with threads := th, slots := sl } : State).leaseBlock (gangOf t) (va / 65536) false =
      s.leaseBlock (gangOf t) (va / 65536) false := rfl
  unfold codeByte
  rw [hlease]
  cases s.leaseBlock (gangOf t) (va / 65536) false with
  | none => rfl
  | some b => exact aliasByte_threads s th sl s.alias_.length _

/-- Whether a handler can be entered depends on no thread and no slot. -/
theorem handlerOk_threads (s : State) (th : FMap Thread) (sl : FMap Group) (t off : Nat) :
    ({ s with threads := th, slots := sl } : State).handlerOk t off = s.handlerOk t off := by
  have hpcc : ({ s with threads := th, slots := sl } : State).pccOf t = s.pccOf t := rfl
  unfold handlerOk outsidePcc
  rw [hpcc, codeByte_threads]

/-- What a trap asks of a thread is its own alone: other threads and the slots do not count. -/
theorem canTrap_threads {s : State} {th : FMap Thread} {u : Nat} (sl : FMap Group) (h : th.find? u = s.threads.find? u) :
    ({ s with threads := th, slots := sl } : State).canTrap u = s.canTrap u := by
  have hthread : ({ s with threads := th, slots := sl } : State).thread u = s.thread u := by unfold thread FMap.get; rw [h]
  have hrec : ({ s with threads := th, slots := sl } : State).recordOf u = s.recordOf u := rfl
  have hpre : ({ s with threads := th, slots := sl } : State).preemptOf u = s.preemptOf u := rfl
  unfold canTrap
  rw [hthread, hrec, hpre, h]
  cases s.recordOf u with
  | none => rfl
  | some r => dsimp only; rw [handlerOk_threads]

theorem canTrap_updThread {s : State} {t u : Nat} (f : Thread → Thread) (hu : u ≠ t) : (s.updThread t f).canTrap u = s.canTrap u :=
  canTrap_threads (s := s) (th := s.threads.adjust t f) s.slots (by rw [FMap.find?_adjust, if_neg hu])

/-- A thread that can trap does: it enters the handler of its task. -/
theorem trapEntry_canTrap {s : State} {t : Nat} (h : s.canTrap t = true) (pc : Nat) (cause tval : BitVec 32) :
    s.trapEntry t pc cause tval = s.updThread t fun h => h.trapped (s.pcOffset t pc) cause tval (s.handlerAt t) s.clock := by
  obtain ⟨-, hhand, hsave, hpre, r, hr, hne, hok⟩ := canTrap_iff.mp h
  have hat : s.handlerAt t = (s.pccOf t).base + r.handler := by unfold handlerAt; rw [hr]; rfl
  have hgo : (if (s.thread t).inSave then none else s.preemptOf t) = none := by rw [hsave]; exact hpre
  have hin : ((s.thread t).handling || (s.thread t).inSave || r.handler == 0xFFFFFFFF || !s.handlerOk t r.handler) = false := by
    rw [hhand, hsave, hok]
    simpa using hne
  unfold trapEntry
  dsimp only
  rw [hgo, hr]
  dsimp only
  rw [hin, if_neg (by decide), hat]
  exact updThread_comp s t _ _

/-- Threads that trap one after the other. -/
theorem foldl_trapEntry {s : State} (cause tval : BitVec 32) (ts : List Nat) (hnd : ts.Nodup) (h : ∀ t ∈ ts, s.canTrap t = true) :
    ts.foldl (fun s t => s.trapEntry t (s.thread t).pc cause tval) s =
      s.placeAll ts fun t h => h.trapped (s.pcOffset t h.pc) cause tval (s.handlerAt t) s.clock := by
  induction ts generalizing s with
  | nil => rfl
  | cons t ts ih =>
    obtain ⟨ht, hnd⟩ := List.nodup_cons.mp hnd
    have hone : s.updThread t (fun h => h.trapped (s.pcOffset t (s.thread t).pc) cause tval (s.handlerAt t) s.clock) =
        s.updThread t fun h => h.trapped (s.pcOffset t h.pc) cause tval (s.handlerAt t) s.clock := updThread_congr rfl
    rw [List.foldl_cons, trapEntry_canTrap (h t (by simp)), hone, placeAll_cons, ih hnd]
    · rfl
    · intro u hu
      rw [canTrap_updThread _ fun e => ht (by rwa [← e])]
      exact h u (by simp [hu])

/-- A fault strikes every thread of the group, guarded off or not, R31. -/
theorem faultGroup_eq {s : State} {g : Group} (hg : s.slots.find? s.cur = some g) (cause tval : BitVec 32)
    (h : ∀ t ∈ slotThreads s, s.canTrap t = true) :
    s.faultGroup cause tval = { s with
      slots := s.slots.erase s.cur
      threads := (s.placeAll (slotThreads s) fun t h => h.trapped (s.pcOffset t h.pc) cause tval (s.handlerAt t) s.clock).threads } := by
  have hfold : s.faultGroup cause tval = (slotThreads s).foldl (fun s t => s.trapEntry t (s.thread t).pc cause tval)
      { s with slots := s.slots.erase s.cur } := by
    unfold faultGroup
    rw [slotThreads_eq hg, List.foldl_map, hg]
  have hplace : ∀ (ts : List Nat) (f : Nat → Thread → Thread) (s : State) (sl : FMap Group),
      ({ s with slots := sl } : State).placeAll ts f = { s with slots := sl, threads := (s.placeAll ts f).threads } := by
    intro ts f
    induction ts with
    | nil => exact fun s sl => rfl
    | cons t ts ih => intro s sl; rw [placeAll_cons, placeAll_cons]; exact ih (s.updThread t (f t)) sl
  rw [hfold, foldl_trapEntry cause tval (slotThreads s) (slotThreads_nodup s) fun t ht => (canTrap_threads (s := s) _ rfl).trans (h t ht)]
  exact hplace (slotThreads s) _ s (s.slots.erase s.cur)

end State

/-- A group whose threads can trap, and that takes a fault as one, has trapped. -/
theorem faultGroup_trapped {s : State} (cause tval : BitVec 32) (hne : slotThreads s ≠ []) (h : ∀ t ∈ slotThreads s, s.canTrap t = true) :
    Trapped s (s.faultGroup cause tval) (slotThreads s) (State.ctl16 true) cause tval := by
  obtain ⟨g, hg⟩ : ∃ g, s.slots.find? s.cur = some g := by
    cases hg : s.slots.find? s.cur with
    | some g => exact ⟨g, rfl⟩
    | none => simp [slotThreads, hg] at hne
  have hthread : ∀ u, (s.faultGroup cause tval).thread u =
      (s.placeAll (slotThreads s) fun t h => h.trapped (s.pcOffset t h.pc) cause tval (s.handlerAt t) s.clock).thread u := by
    intro u; rw [State.faultGroup_eq hg cause tval h]; rfl
  refine ⟨?_, ?_, fun u => ?_, fun q => ?_⟩
  · rw [State.faultGroup_eq hg cause tval h]; rfl
  · rw [State.faultGroup_eq hg cause tval h]; exact ⟨rfl, rfl⟩
  · rw [hthread, State.thread_placeAll (slotThreads_nodup s) fun t ht => (State.canTrap_iff.mp (h t ht)).1]
    by_cases hu : u ∈ slotThreads s
    · rw [if_pos hu, if_pos hu]
    · rw [if_neg hu, if_neg hu, if_neg hu]
  · rw [State.faultGroup_eq hg cause tval h]
    dsimp only
    rw [FMap.find?_erase]
    by_cases hq : q = s.cur
    · rw [if_pos hq, if_pos hq, hq, hg]; rfl
    · rw [if_neg hq, if_neg hq]

/-! ## A task that ends, R213, R379 -/

namespace State

theorem charge_gangs (s : State) (gang n : Nat) : (s.charge gang n).gangs = s.gangs := by
  rcases charge_cases s gang n with h | ⟨q, f, h⟩ <;> rw [h]
  exact updQueue_gangs s q f

/-- A killed gang has retired, and no other gang has changed. -/
theorem killGang_gangs (s : State) (g h : Nat) : (s.killGang g).gangs.find? h =
    if h = g then (s.gangs.find? g).map (fun x => { x with stat := .retired, preempt := none, wake := none }) else s.gangs.find? h := by
  have hfreed : ∃ s2 : State, s2.gangs = s.gangs ∧
      s.killGang g = s2.updGang g fun x => { x with stat := .retired, preempt := none, wake := none } := by
    unfold killGang
    refine ⟨_, ?_, rfl⟩
    have hrest : ∀ s0 : State, s0.gangs = s.gangs →
        (((s0.freeGang g).abortBatches fun t => gangOf t == g).dropOps fun o => gangOf o.thread == g && dies o).gangs = s.gangs :=
      fun _ h => h
    refine hrest _ ?_
    split
    · split
      · exact charge_gangs s g _
      · rfl
    · rfl
  obtain ⟨s2, hs2, hk⟩ := hfreed
  rw [hk, updGang, FMap.find?_adjust, hs2]

/-- A gang that an end has stopped: it has retired, or it was adopted and stays so, R312. -/
def Stopped (s : State) (g : Nat) (x : Option Gang) : Prop :=
  ∀ y, x = some y → y.stat = .retired ∨ ((∃ a, y.stat = .adopted a) ∧ s.gangs.find? g = some y)

theorem stopGang_stopped (s : State) (g : Nat) : s.Stopped g ((s.stopGang g).gangs.find? g) := by
  intro y hy
  unfold stopGang at hy
  cases hx : s.gangs.find? g with
  | none => rw [hx] at hy; exact absurd (hx.symm.trans hy) (by simp)
  | some x =>
    rw [hx] at hy
    dsimp only at hy
    split at hy
    · obtain rfl : x = y := Option.some.inj (hx.symm.trans hy)
      exact .inl ‹_›
    · obtain rfl : x = y := Option.some.inj (hx.symm.trans hy)
      exact .inr ⟨⟨_, ‹_›⟩, rfl⟩
    · rw [killGang_gangs, if_pos rfl, hx] at hy
      obtain rfl := Option.some.inj hy
      exact .inl rfl

/-- Stopping a gang leaves every other as it is, and one that has retired or is adopted. -/
theorem stopGang_other (s : State) (g h : Nat) (hn : h ≠ g ∨ ∃ x, s.gangs.find? h = some x ∧ (x.stat = .retired ∨ ∃ a, x.stat = .adopted a)) :
    (s.stopGang g).gangs.find? h = s.gangs.find? h := by
  by_cases hhg : h = g
  · subst hhg
    obtain ⟨x, hx, hstat⟩ := hn.resolve_left (not_not.mpr rfl)
    unfold stopGang
    rw [hx]
    dsimp only
    rcases hstat with hr | ⟨a, ha⟩
    · rw [hr]; exact hx
    · rw [ha]; exact hx
  · rcases stopGang_cases s g with e | e <;> rw [e]
    rw [killGang_gangs, if_neg hhg]

/-- The gangs of a list have stopped, once each of them has been. -/
theorem stopGangs_stopped (gs : List Nat) (s : State) : ∀ g ∈ gs, s.Stopped g ((gs.foldl stopGang s).gangs.find? g) := by
  have hkeep : ∀ (gs : List Nat) (s : State) (g : Nat) (x : Gang), s.gangs.find? g = some x →
      (x.stat = .retired ∨ ∃ a, x.stat = .adopted a) → (gs.foldl stopGang s).gangs.find? g = some x := by
    intro gs
    induction gs with
    | nil => exact fun _ _ _ hx _ => hx
    | cons h gs ih =>
      intro s g x hx hstat
      exact ih _ g x ((stopGang_other s h g (.inr ⟨x, hx, hstat⟩)).trans hx) hstat
  have hnone : ∀ (gs : List Nat) (s : State) (g : Nat), s.gangs.find? g = none → (gs.foldl stopGang s).gangs.find? g = none := by
    intro gs
    induction gs with
    | nil => exact fun _ _ h => h
    | cons h gs ih =>
      intro s g hx
      refine ih _ g ?_
      by_cases hgh : g = h
      · subst hgh
        have hstop : s.stopGang g = s := by unfold stopGang; rw [hx]
        rw [hstop, hx]
      · rw [stopGang_other s h g (.inl hgh), hx]
  induction gs generalizing s with
  | nil => exact fun g hg => absurd hg List.not_mem_nil
  | cons h gs ih =>
    intro g hg y hy
    rw [List.foldl_cons] at hy
    by_cases hgh : g = h
    · subst hgh
      have hstop := stopGang_stopped s g
      cases hx : (s.stopGang g).gangs.find? g with
      | none => rw [hnone gs _ g hx] at hy; simp at hy
      | some x =>
        have hxs := hstop x hx
        rw [hkeep gs _ g x hx (hxs.imp_right And.left)] at hy
        obtain rfl := Option.some.inj hy
        exact hxs
    · have := ih (s.stopGang h) g ((List.mem_cons.mp hg).resolve_left hgh) y hy
      rwa [stopGang_other s h g (.inl hgh)] at this

/-- A task that has no code and has not completed ends with the code that it is given. -/
theorem endTask_endedWith {s : State} {id : Nat} {k : Task} (code : EndCode) (why : Option (BitVec 32 × BitVec 32 × BitVec 32))
    (hk : s.tasks.find? id = some k) (hcode : k.code = none) (hstage : k.stage ≠ .completed) :
    EndedWith s (s.endTask id code why) id k code why := by
  have hkeeps := endTask_dropsOps s id code why
  rcases endTask_cases s id code why with ⟨-, hdone⟩ | ⟨k', s1, queues, hk', -, h1, h⟩
  · rcases hdone k hk with hc | hc
    · rw [hcode] at hc; simp at hc
    · exact absurd hc hstage
  · obtain rfl : k = k' := Option.some.inj (hk.symm.trans hk')
    obtain ⟨-, rfl⟩ := h1.resolve_left fun hc => by rw [hcode] at hc; simp at hc
    refine ⟨?_, hkeeps.mem, hkeeps.pool, fun g hg x hx => ?_⟩
    · rw [h]
      dsimp only
      rw [stopGangs_tasks, updTask, FMap.find?_adjust, if_pos rfl, hk]
      rfl
    · rw [h] at hx
      exact stopGangs_stopped k.gangs (s.updTask id fun k => { k with code := some code, fault := why }) g hg x hx

/-! ## The turn of a group -/

/-- What settles before a move is when entries are ready and what queues are owed, R134, R309. -/
theorem settled_rest (s : State) : ∃ reqs queues, s.settled = { s with reqs := reqs, queues := queues } := by
  unfold settled settleDeficits
  split
  · exact ⟨_, _, rfl⟩
  · exact ⟨_, _, rfl⟩

/-- The turn of a group, R56. -/
theorem step_run {s : State} {q c : Nat} {g : Group} (hh : s.boot.halt = 0) (hm : s.nextMove = ⟨.run q, c⟩) (hg : s.slots.find? q = some g) :
    step s = (s.atTurn q c).runSlot ∧ (s.atTurn q c).slots.find? (s.atTurn q c).cur = some g := by
  obtain ⟨reqs, queues, hs⟩ := s.settled_rest
  have hadv : s.advance ⟨.run q, c⟩ = s.atTurn q c := by unfold advance atTurn; rw [hs]
  have hhalt : (s.atTurn q c).boot.halt = 0 := by unfold atTurn; rw [hs]; exact hh
  constructor
  · unfold step
    rw [hm, hadv]
    exact if_pos hhalt
  · unfold atTurn; rw [hs]; exact hg

end State

/-! ## What a turn does, by what its fetch finds -/

section Turn

variable {s : State} {g : Group} (hg : s.slots.find? s.cur = some g)

include hg

theorem runSlot_outside {va : Nat} (hf : s.fetch g = .outside va) : s.runSlot = .next (s.faultGroup Cause.capBounds (BitVec.ofNat 32 va)) := by
  unfold State.runSlot; rw [hg]; dsimp only; rw [hf]

theorem runSlot_unmapped (hf : s.fetch g = .unmapped) : s.runSlot = .next (s.endGroup g) := by
  unfold State.runSlot; rw [hg]; dsimp only; rw [hf]

theorem runSlot_runLength (hf : s.fetch g = .runLength) :
    s.runSlot = .next (s.faultGroup Cause.runLength (s.pcOffset (g.crew * 32 + (State.lanesOf g).headD 0) g.start)) := by
  unfold State.runSlot; rw [hg]; dsimp only; rw [hf]

theorem runSlot_illegal {w : BitVec 32} (hf : s.fetch g = .illegal w) : s.runSlot = exec (.unassignedFunctionCode w) s := by
  unfold State.runSlot; rw [hg]; dsimp only; rw [hf]; rfl

theorem runSlot_illegalRun {w : BitVec 32} (hf : s.fetch g = .illegalRun w) : s.runSlot = exec (.illegalRun w) s := by
  unfold State.runSlot; rw [hg]; dsimp only; rw [hf]; rfl

theorem runSlot_insn {i : Instr} (hf : s.fetch g = .insn i) : s.runSlot = exec i ((s.fetchHot g).countInsn s.cur g) := by
  unfold State.runSlot; rw [hg]; dsimp only; rw [hf]

end Turn

/-! ## What a fetch finds -/

section Fetch

variable {s : State} {g : Group}

/-- The thread whose PC a group fetches at. -/
def leader (g : Group) : Nat := g.crew * 32 + (State.lanesOf g).headD 0

/-- The address at which a group fetches. -/
def State.fetchPc (s : State) (g : Group) : Nat := (s.thread (leader g)).pc

theorem fetch_outside {va : Nat} (h : s.outsidePcc (leader g) (s.fetchPc g) = some va) : s.fetch g = .outside va := by
  unfold leader State.fetchPc leader at h
  unfold State.fetch; dsimp only; rw [h]

theorem fetch_unmapped (h : s.outsidePcc (leader g) (s.fetchPc g) = none)
    (hb : s.codeAt (leader g) (s.fetchPc g) = none ∨ s.codeAt (leader g) (s.fetchPc g + 1) = none) : s.fetch g = .unmapped := by
  unfold leader State.fetchPc leader at h hb
  unfold State.fetch; dsimp only; rw [h]
  dsimp only
  rcases hb with hb | hb
  · rw [hb]
  · rw [hb]; cases s.codeAt _ _ <;> rfl

theorem fetch_runLength (h : s.outsidePcc (leader g) (s.fetchPc g) = none) {b0 b1 : BitVec 8}
    (h0 : s.codeAt (leader g) (s.fetchPc g) = some b0) (h1 : s.codeAt (leader g) (s.fetchPc g + 1) = some b1)
    (hcount : 24 ≤ g.count) (hheld : g.held = false) : s.fetch g = .runLength := by
  have hrun : (decide (Config.runLimit ≤ g.count) && !g.held) = true := by
    rw [hheld, decide_eq_true (show Config.runLimit ≤ g.count from hcount)]; rfl
  unfold leader State.fetchPc leader at h h0 h1
  unfold State.fetch; dsimp only; rw [h, h0, h1]
  dsimp only
  rw [if_pos hrun]

/-- A run has room for another instruction, or its instruction has been counted, R34. -/
theorem inRun (hcount : g.count < 24 ∨ g.held = true) : (decide (Config.runLimit ≤ g.count) && !g.held) = false := by
  rcases hcount with hc | hc
  · rw [decide_eq_false (show ¬ Config.runLimit ≤ g.count from Nat.not_le.mpr hc)]; rfl
  · rw [hc, Bool.not_true, Bool.and_false]

/-- The low bit of the first byte tells a word of four bytes from a half of two, R26. -/
theorem firstHalf_bit (b0 b1 : BitVec 8) : (b1 ++ b0).getLsbD 0 = b0.getLsbD 0 := by
  rw [BitVec.getLsbD_append]; rfl

theorem fetch_half (h : s.outsidePcc (leader g) (s.fetchPc g) = none) {b0 b1 : BitVec 8}
    (h0 : s.codeAt (leader g) (s.fetchPc g) = some b0) (h1 : s.codeAt (leader g) (s.fetchPc g + 1) = some b1)
    (hcount : g.count < 24 ∨ g.held = true) (hbit : b0.getLsbD 0 = false) :
    s.fetch g = s.gate ((b1 ++ b0).setWidth 32) (Decode.half16 (b1 ++ b0)) := by
  have hrun := inRun hcount
  unfold leader State.fetchPc leader at h h0 h1
  unfold State.fetch; dsimp only; rw [h, h0, h1]
  dsimp only
  rw [if_neg (by rw [hrun]; decide), if_pos (by rw [firstHalf_bit, hbit]; rfl)]

/-- The second halfword of a word, and the word that it makes with the first. -/
def State.fetchLong (s : State) (t pc : Nat) (h : BitVec 16) : Fetched :=
  match s.codeAt t (pc + 2), s.codeAt t (pc + 3) with
  | some b2, some b3 => s.gate (b3 ++ b2 ++ h) (Decode.word32 (b3 ++ b2 ++ h))
  | _, _ => .unmapped

theorem fetch_long (h : s.outsidePcc (leader g) (s.fetchPc g) = none) {b0 b1 : BitVec 8}
    (h0 : s.codeAt (leader g) (s.fetchPc g) = some b0) (h1 : s.codeAt (leader g) (s.fetchPc g + 1) = some b1)
    (hcount : g.count < 24 ∨ g.held = true) (hbit : b0.getLsbD 0 = true) :
    s.fetch g = s.fetchLong (leader g) (s.fetchPc g) (b1 ++ b0) := by
  have hrun := inRun hcount
  unfold leader State.fetchPc leader at h h0 h1
  unfold State.fetch; dsimp only; rw [h, h0, h1]
  dsimp only
  rw [if_neg (by rw [hrun]; decide), if_neg (by rw [firstHalf_bit, hbit]; decide)]
  rfl

theorem fetchLong_word {t pc : Nat} (h : BitVec 16) {b2 b3 : BitVec 8} (h2 : s.codeAt t (pc + 2) = some b2)
    (h3 : s.codeAt t (pc + 3) = some b3) : s.fetchLong t pc h = s.gate (b3 ++ b2 ++ h) (Decode.word32 (b3 ++ b2 ++ h)) := by
  unfold State.fetchLong; rw [h2, h3]

theorem fetchLong_unmapped {t pc : Nat} (h : BitVec 16) (hb : s.codeAt t (pc + 2) = none ∨ s.codeAt t (pc + 3) = none) :
    s.fetchLong t pc h = .unmapped := by
  unfold State.fetchLong
  rcases hb with hb | hb
  · rw [hb]
  · rw [hb]; cases s.codeAt t (pc + 2) <;> rfl

end Fetch

/-- Settles O32. A word that does not decode strikes the group as one, and a fetch that fails does so too, or ends the task. -/
theorem illegalWords : Obligations.IllegalWords := by
  unfold Obligations.IllegalWords
  refine ⟨fun w s hne htrap => ⟨⟨_, rfl, faultGroup_trapped _ w hne htrap⟩, ⟨_, rfl, faultGroup_trapped _ w hne htrap⟩⟩,
    fun s q c g => ?_⟩
  intro s1 t pc strikes leaseEnds hh hm hg
  obtain ⟨hstep, hslot⟩ := State.step_run hh hm hg
  have hstrikes : ∀ cause tval, s1.runSlot = .next (s1.faultGroup cause tval) → strikes cause tval := fun cause tval hr hne htrap =>
    ⟨_, hstep.trans hr, faultGroup_trapped cause tval hne htrap⟩
  have hends : s1.fetch g = .unmapped → leaseEnds := fun hf k hk hcode hstage =>
    ⟨_, hstep.trans (runSlot_unmapped hslot hf), State.endTask_endedWith .lease none hk hcode hstage⟩
  refine ⟨fun va hva => hstrikes _ _ (runSlot_outside hslot (fetch_outside hva)), fun hin hb => hends (fetch_unmapped hin hb),
    fun hin h0 h1 hcount hheld => ?_, fun b hin h0 hbit h1 hcount hb => ?_⟩
  · obtain ⟨b0, h0⟩ := Option.isSome_iff_exists.mp h0
    obtain ⟨b1, h1⟩ := Option.isSome_iff_exists.mp h1
    exact hstrikes _ _ (runSlot_runLength hslot (fetch_runLength hin h0 h1 hcount hheld))
  · obtain ⟨b1, h1⟩ := Option.isSome_iff_exists.mp h1
    exact hends ((fetch_long hin h0 h1 hcount hbit).trans (fetchLong_unmapped _ hb))

/-! ## A step, by its move -/

/-- A decoded instruction whose feature, if it has one, is accepted is executed, R54. -/
theorem gate_insn {s : State} (word : BitVec 32) {i : Instr} (h : WellFormed.l6Gated i = true → s.boot.featAccept.getLsbD 0 = true) :
    s.gate word (.ok i) = .insn i := by
  unfold State.gate
  dsimp only
  refine if_neg ?_
  cases hg : WellFormed.l6Gated i with
  | false => exact Bool.false_ne_true
  | true => rw [h hg]; decide

/-- A word that decodes to nothing, or whose feature is not accepted, is ILLEGAL_OP, R54, R56. -/
theorem gate_illegal {s : State} (word : BitVec 32) {r : Except DecodeFault Instr} (h : r = .error .illegalOp ∨
    ∃ i, r = .ok i ∧ WellFormed.l6Gated i = true ∧ s.boot.featAccept.getLsbD 0 = false) : s.gate word r = .illegal word := by
  unfold State.gate
  rcases h with rfl | ⟨i, rfl, hg, hf⟩
  · rfl
  · dsimp only
    rw [hg, hf]
    rfl

/-- What a fetch of an instruction inside the PCC, the lease and the run decodes, R24, R26, R34, R54. -/
theorem fetch_decodes {s : State} {g : Group} {b0 b1 b2 b3 : BitVec 8} {r : Except DecodeFault Instr} {word : BitVec 32}
    (hin : s.outsidePcc (leader g) (s.fetchPc g) = none) (hcount : g.count < 24 ∨ g.held = true)
    (h0 : s.codeAt (leader g) (s.fetchPc g) = some b0) (h1 : s.codeAt (leader g) (s.fetchPc g + 1) = some b1)
    (hhalf : b0.getLsbD 0 = false → word = (b1 ++ b0).setWidth 32 ∧ Decode.half16 (b1 ++ b0) = r)
    (hword : b0.getLsbD 0 = true → word = b3 ++ b2 ++ (b1 ++ b0) ∧ s.codeAt (leader g) (s.fetchPc g + 2) = some b2 ∧
      s.codeAt (leader g) (s.fetchPc g + 3) = some b3 ∧ Decode.word32 word = r) : s.fetch g = s.gate word r := by
  cases hbit : b0.getLsbD 0 with
  | false =>
    obtain ⟨rfl, rfl⟩ := hhalf hbit
    exact fetch_half hin h0 h1 hcount hbit
  | true =>
    obtain ⟨rfl, h2, h3, rfl⟩ := hword hbit
    exact (fetch_long hin h0 h1 hcount hbit).trans (fetchLong_word _ h2 h3)

namespace State

theorem atTurn_boot (s : State) (q c : Nat) : (s.atTurn q c).boot = s.boot := by
  obtain ⟨reqs, queues, hs⟩ := s.settled_rest
  unfold atTurn; rw [hs]

/-- HOT rises in the redirects alone, R241. -/
theorem raiseHot_aliases (s : State) (x : Nat) : s.raiseHot x = { s with alias_ := (s.raiseHot x).alias_ } := by
  unfold raiseHot; split <;> rfl

theorem raiseHots_aliases (xs : List Nat) (s : State) : xs.foldl raiseHot s = { s with alias_ := (xs.foldl raiseHot s).alias_ } := by
  induction xs generalizing s with
  | nil => rfl
  | cons x xs ih => rw [List.foldl_cons, ih, raiseHot_aliases]

theorem fetchHot_aliases (s : State) (g : Group) : s.fetchHot g = { s with alias_ := (s.fetchHot g).alias_ } := by
  unfold fetchHot
  split
  · rfl
  · exact raiseHots_aliases _ s

/-- A step that is no turn is made in the state in which its cycles have passed. -/
theorem step_event {s : State} {i : Instr} {c : Nat} (hm : s.nextMove = ⟨.event i, c⟩) (hi : isEvent i = true)
    (hh : s.boot.halt = 0 ∨ recovers i = true) :
    step s = exec i { s.settled with agenda := s.agenda.tail, clock := s.clock + c, freeCtr := s.freeCtr + 1 } := by
  obtain ⟨reqs, queues, hs⟩ := s.settled_rest
  have hruns : (isEvent i && (s.boot.halt == 0 || recovers i)) = true := by
    rw [hi]
    rcases hh with hh | hh
    · rw [hh]; rfl
    · rw [hh, Bool.or_true]; rfl
  unfold step
  rw [hm]
  unfold advance
  rw [hs]
  exact if_pos hruns

/-- A halted device makes no move but those of its recovery, R393, R410. -/
theorem step_halted {s : State} (hh : s.boot.halt ≠ 0) (hrec : ∀ i, s.nextMove.act = .event i → recovers i = false) :
    step s = .next (s.advance s.nextMove) := by
  obtain ⟨reqs, queues, hs⟩ := s.settled_rest
  have hhalt : (s.advance s.nextMove).boot.halt ≠ 0 := by unfold advance; rw [hs]; exact hh
  unfold step perform
  cases hact : s.nextMove.act with
  | idle => rfl
  | run q => exact if_neg hhalt
  | event i =>
    refine if_neg ?_
    rw [hrec i hact, Bool.or_false, Bool.and_eq_true, beq_iff_eq]
    exact fun h => hhalt h.2

/-- Queues without pending gangs lose their deficits, and nothing else of a queue changes, R309. -/
theorem settled_queues (s : State) (q : Nat) :
    (s.settled.queues.find? q).map (fun x => { x with deficit := 0 }) = (s.queues.find? q).map fun x => { x with deficit := 0 } := by
  unfold settled settleDeficits
  split
  · rfl
  · dsimp only
    rw [FMap.find?_mapVals]
    have hq : s.stampReady.queues = s.queues := rfl
    rw [hq]
    cases s.queues.find? q with
    | none => rfl
    | some x =>
      simp only [Option.map_some, Option.some.injEq]
      split <;> rfl

theorem settled_reqs (s : State) (id : Nat) : s.settled.reqs.find? id = (s.reqs.find? id).map fun r =>
    if s.entryReady id r = true then { r with readyAt := some (r.readyAt.getD s.clock) } else { r with readyAt := none, aged := false } := by
  have hr : s.settled.reqs = s.stampReady.reqs := by
    unfold settled settleDeficits
    split <;> rfl
  rw [hr, stampReady, FMap.find?_mapVals]

end State

/-- Settles O1, move by move: what the fetch of a turn decodes, and the moves that are no turn. -/
theorem stepRunsDecoded : Obligations.StepRunsDecoded := by
  unfold Obligations.StepRunsDecoded
  refine ⟨?runs, ?refused, fun s g => ⟨s.fetchHot_aliases g, fun h => ?_⟩, fun s i c hm hi hh => State.step_event hm hi hh, ?halted,
    fun s => ⟨?_, s.settled_reqs, s.settled_queues⟩⟩
  case runs =>
    intro s q c g i b0 b1 b2 b3 s1 t pc hh hm hg hin hcount h0 h1 hhalf hword hgate
    obtain ⟨hstep, hslot⟩ := State.step_run hh hm hg
    intro s2
    have hfetch := fetch_decodes (r := .ok i) (word := if b0.getLsbD 0 then b3 ++ b2 ++ (b1 ++ b0) else (b1 ++ b0).setWidth 32)
      hin hcount h0 h1 (fun hbit => ⟨by rw [hbit]; rfl, hhalf hbit⟩)
      (fun hbit => by
        obtain ⟨h2, h3, hdec⟩ := hword hbit
        rw [hbit]
        exact ⟨rfl, h2, h3, hdec⟩)
    have hboot : s1.boot = s.boot := s.atTurn_boot q c
    rw [gate_insn _ fun hl => by rw [hboot]; exact hgate hl] at hfetch
    rw [hstep, runSlot_insn hslot hfetch]
    rfl
  case refused =>
    intro s q c g b0 b1 b2 b3 r word s1 t pc hh hm hg hin hcount h0 h1 hhalf hword
    obtain ⟨hstep, hslot⟩ := State.step_run hh hm hg
    have hfetch := fetch_decodes hin hcount h0 h1 hhalf hword
    refine ⟨fun hr => hstep.trans (runSlot_illegal hslot (hfetch.trans (gate_illegal word ?_))), fun hr => ?_⟩
    · rw [State.atTurn_boot]; exact hr
    · rw [hr] at hfetch
      exact hstep.trans (runSlot_illegalRun hslot hfetch)
  case halted =>
    intro s m hm hh hrec
    subst hm
    refine ⟨_, State.step_halted hh hrec, ?_⟩
    obtain ⟨reqs, queues, hs⟩ := s.settled_rest
    unfold State.advance
    rw [hs]
  · unfold State.fetchHot; rw [h]; rfl
  · obtain ⟨reqs, queues, hs⟩ := s.settled_rest
    rw [hs]
end Sys2Proof.Machine

/-! SUPPORT. What data that returns to registers may change, and what it leaves (R39, R69, R87, R97, R126, R159, R399). -/

namespace Sys2Proof.Machine

namespace State

/-! ## Reads of memory change the caches alone, R254 -/

theorem install_onlyCaches (s : State) (u x w : Nat) (bytes : List (Option (BitVec 8))) (tags : BitVec 8) (poison : Bool) :
    OnlyCaches s (s.install u x w bytes tags poison) := by
  unfold install
  refine OnlyCaches.trans ?_ (setCMeta_onlyCaches _ _ _ _)
  rfl

theorem fillQuad_onlyCaches (s : State) (u x w : Nat) : OnlyCaches s (s.fillQuad u x w) := by
  have hhot : OnlyCaches s (s.raiseHot x) := by
    rw [raiseHot_aliases]; rfl
  exact (hhot.trans (useFrame_onlyCaches _ _)).trans (install_onlyCaches _ _ _ _ _ _ _)

theorem readyQuad_onlyCaches (s : State) (u w x : Nat) (as : List Nat) : OnlyCaches s (s.readyQuad u w x as) := by
  unfold readyQuad
  dsimp only
  split
  · exact claim_onlyCaches s u x w
  · exact (claim_onlyCaches s u x w).trans (fillQuad_onlyCaches _ _ _ _)

theorem readyL1_onlyCaches (s : State) (core w x : Nat) (as : List Nat) : OnlyCaches s (s.readyL1 core w x as) := by
  unfold readyL1 fillL1
  dsimp only
  split
  · exact claim_onlyCaches s core x w
  · exact ((claim_onlyCaches s core x w).trans (readyQuad_onlyCaches _ _ _ _ _)).trans (install_onlyCaches _ _ _ _ _ _ _)

theorem cacheLoad_onlyCaches (s : State) (core w pa n : Nat) : OnlyCaches s (s.cacheLoad core w pa n).1 :=
  readyL1_onlyCaches s core w (pa / 128) (span pa n)

theorem memRead_onlyCaches (s : State) (t : Nat) (p : Place) (n : Nat) : OnlyCaches s (s.memRead t p n).1 := by
  cases p with
  | scratch g la => exact .refl s
  | global pa =>
    unfold memRead
    dsimp only
    split
    · exact cacheLoad_onlyCaches s _ _ _ _
    · split
      · exact (cacheLoad_onlyCaches s _ _ _ _).trans (cacheLoad_onlyCaches _ _ _ _ _)
      · exact ((cacheLoad_onlyCaches s _ _ _ _).trans (cacheLoad_onlyCaches _ _ _ _ _)).trans (cacheLoad_onlyCaches _ _ _ _ _)

theorem readParts_onlyCaches (s : State) (t : Nat) (ps : List (Place × Nat)) : OnlyCaches s (s.readParts t ps).1 := by
  have hfold : ∀ {α : Type} (g : State × List (BitVec 8) × Bool → α → State × List (BitVec 8) × Bool),
      (∀ a x, OnlyCaches a.1 (g a x).1) → ∀ (xs : List α) (a : State × List (BitVec 8) × Bool), OnlyCaches a.1 (xs.foldl g a).1 := by
    intro α g hg xs
    induction xs with
    | nil => exact fun a => .refl a.1
    | cons x xs ih => exact fun a => (hg a x).trans (ih _)
  exact hfold _ (fun a p => hfold _ (fun a q => memRead_onlyCaches a.1 t _ _) _ a) ps (s, [], false)

/-! ## LOADS of threads, R87 -/

/-- Every thread has the LOADS that it had. -/
def SameLoads (s t : State) : Prop := ∀ u, (t.thread u).ld = (s.thread u).ld

theorem SameLoads.refl (s : State) : SameLoads s s := fun _ => rfl

theorem SameLoads.trans {s t u : State} (h : SameLoads s t) (k : SameLoads t u) : SameLoads s u := fun v => (k v).trans (h v)

theorem SameLoads.foldl {α : Type} (g : State → α → State) (h : ∀ s x, SameLoads s (g s x)) (xs : List α) (s : State) :
    SameLoads s (xs.foldl g s) := by
  induction xs generalizing s with
  | nil => exact .refl s
  | cons x xs ih => exact (h s x).trans (ih _)

theorem SameLoads.of_threads {s t : State} (h : t.threads = s.threads) : SameLoads s t := fun u => by unfold thread; rw [h]

theorem updThread_sameLoads (s : State) (t : Nat) {f : Thread → Thread} (hf : ∀ h, (f h).ld = h.ld) : SameLoads s (s.updThread t f) := by
  intro u
  cases h : s.threads.find? t with
  | none => rw [thread_updThread_absent u f h]
  | some x =>
    rw [thread_updThread s t u f (by rw [h]; rfl)]
    split
    · rename_i e; rw [hf, e]
    · rfl

theorem thread_updThread_other (s : State) {t u : Nat} {f : Thread → Thread} (h : u ≠ t) : (s.updThread t f).thread u = s.thread u := by
  cases ht : s.threads.find? t with
  | none => exact thread_updThread_absent u f ht
  | some x => rw [thread_updThread s t u f (by rw [ht]; rfl), if_neg h]

theorem enter_sameLoads (s : State) (t pc : Nat) : SameLoads s (s.enter t pc) := updThread_sameLoads s t fun _ => rfl

theorem setPred_sameLoads (s : State) (t : Nat) (p : BitVec 4) (b : Bool) : SameLoads s (s.setPred t p b) :=
  updThread_sameLoads s t fun _ => rfl

theorem settleWait_sameLoads (s : State) (t : Nat) : SameLoads s (s.settleWait t) := by
  unfold settleWait
  dsimp only
  split
  · split
    · exact enter_sameLoads s t _
    · exact .refl s
  · exact .refl s

theorem settleBwait_sameLoads (s : State) (t : Nat) : SameLoads s (s.settleBwait t) := by
  unfold settleBwait
  dsimp only
  split
  · split
    · exact (setPred_sameLoads s t _ _).trans (enter_sameLoads _ t _)
    · split
      · exact enter_sameLoads s t _
      · split
        · exact (setPred_sameLoads s t _ _).trans (enter_sameLoads _ t _)
        · exact .refl s
  · exact .refl s

theorem settleObjects_sameLoads (s : State) (gang : Nat) : SameLoads s (s.settleObjects gang) :=
  SameLoads.foldl _ (fun s (th : Nat × Thread) => settleBwait_sameLoads s th.1) _ s

theorem memWrite_sameLoads (s : State) (t : Nat) (p : Place) (bs : List (BitVec 8)) (tag : Bool) : SameLoads s (s.memWrite t p bs tag) := by
  cases p with
  | scratch g la => exact (SameLoads.of_threads (s := s) (t := s.spadWrite g la bs tag) rfl).trans (settleObjects_sameLoads _ g)
  | global pa =>
    refine SameLoads.foldl _ (fun s (q : Nat × List (BitVec 8)) => .of_threads ?_) _ s
    rw [cacheWrite_onlyCaches]

theorem writeParts_sameLoads (s : State) (t : Nat) (ps : List (Place × Nat)) (bs : List (BitVec 8)) : SameLoads s (s.writeParts t ps bs) := by
  unfold writeParts
  induction ps generalizing s bs with
  | nil => exact .refl s
  | cons p ps ih => exact (memWrite_sameLoads s t p.1 _ false).trans (ih _ _)

/-! ## A row stored in which some lanes have changed -/

end State

/-- Whether an operation is a load. -/
def OpKind.isLoad : OpKind → Bool
  | .load _ _ _ _ => true
  | _ => false

theorem OpKind.isLoad_iff (k : OpKind) : k.isLoad = true ↔ ∃ fn p n regs, k = .load fn p n regs := by
  unfold OpKind.isLoad
  split
  · exact iff_of_true rfl ⟨_, _, _, _, rfl⟩
  · rename_i hn
    exact iff_of_false Bool.false_ne_true fun ⟨fn, p, n, regs, hk⟩ => hn fn p n regs hk

/-- A lane of row `q` waits for what it waits for in row `r`, and holds the bits that it holds there, if it is live. -/
structure Row.Agrees (q r : Row) (l : Nat) : Prop where
  pend : q.pend.get [] l = r.pend.get [] l
  live : q.live.getLsbD l = r.live.getLsbD l
  vals : q.live.getLsbD l = true → q.vals.get 0 l = r.vals.get 0 l

namespace State

/-- A row as it is found after one has been stored. -/
theorem row_setRow_key (s : State) (c v d w : Nat) (r : Row) : (s.setRow c v r).row d w =
    if d * 32 + w = c * 32 + v then (if r.live = 0 ∧ r.pend.isEmpty then Row.empty else r) else s.row d w := by
  unfold setRow row
  by_cases h1 : r.live = 0 ∧ r.pend.isEmpty = true
  · rw [if_pos h1, if_pos h1]; exact FMap.get_erase _ _ _ _
  · rw [if_neg h1, if_neg h1]; exact FMap.get_put _ _ _ _ _

/-- A thread's register reads and waits as before. -/
def SameReg (s t : State) (u v : Nat) : Prop := t.pending u v = s.pending u v ∧ t.reg u v = s.reg u v

theorem SameReg.refl (s : State) (u v : Nat) : SameReg s s u v := ⟨rfl, rfl⟩

theorem SameReg.trans {s t x : State} {u v : Nat} (h : SameReg s t u v) (k : SameReg t x u v) : SameReg s x u v :=
  ⟨k.1.trans h.1, k.2.trans h.2⟩

theorem SameReg.of_rows {s t : State} (hr : t.rows = s.rows) (hf : t.freeCtr = s.freeCtr) (u v : Nat) : SameReg s t u v := by
  unfold SameReg reg pending row
  rw [hr, hf]
  exact ⟨rfl, rfl⟩

/-- Rows that agree in a thread's lane show it one register. -/
theorem SameReg.of_row {s t : State} {u v : Nat} (hf : t.freeCtr = s.freeCtr) (h : (t.row (crewOf u) v).Agrees (s.row (crewOf u) v) (laneOf u)) :
    SameReg s t u v := by
  unfold SameReg reg pending
  rw [h.pend, hf]
  refine ⟨rfl, ?_⟩
  cases (s.row (crewOf u) v).pend.get [] (laneOf u) with
  | cons p ps => rfl
  | nil =>
    dsimp only
    by_cases hl : (t.row (crewOf u) v).live.getLsbD (laneOf u) = true
    · rw [if_pos hl, if_pos (h.live ▸ hl), h.vals hl]
    · rw [if_neg hl, if_neg (h.live ▸ hl)]

theorem setRow_sameReg {s : State} {c v : Nat} {q : Row} {u w : Nat}
    (h : crewOf u * 32 + w = c * 32 + v → q.Agrees (s.row c v) (laneOf u)) : SameReg s (s.setRow c v q) u w := by
  refine .of_row (by rw [setRow_rows]) ?_
  rw [row_setRow_key]
  by_cases hk : crewOf u * 32 + w = c * 32 + v
  · have hrow : s.row (crewOf u) w = s.row c v := by unfold row; rw [hk]
    obtain ⟨hp, hl, hv⟩ := h hk
    rw [if_pos hk, hrow]
    by_cases h0 : q.live = 0 ∧ q.pend.isEmpty = true
    · have hnone : q.pend = [] := List.isEmpty_iff.mp h0.2
      rw [h0.1] at hl
      rw [hnone] at hp
      rw [if_pos h0]
      exact ⟨hp, hl, fun hlive => absurd hlive (by simp [Row.empty])⟩
    · rw [if_neg h0]; exact ⟨hp, hl, hv⟩
  · rw [if_neg hk]
    exact ⟨rfl, rfl, fun _ => rfl⟩

/-! ## What a return may change -/

/-- What operations `ids` that return data may change, of which `ended` are over, by number and thread: registers that wait for them, and the
LOADS of their threads. -/
structure Returned (s t : State) (ids : List Nat) (ended : List (Nat × Nat)) : Prop where
  gangs : t.gangs = s.gangs
  tasks : t.tasks = s.tasks
  free : t.freeCtr = s.freeCtr
  there : ∀ u, (t.threads.find? u).isSome = (s.threads.find? u).isSome
  ops : ∀ k, t.ops.find? k = if k ∈ ended.map (·.1) then none else s.ops.find? k
  loads : ∀ u, (s.threads.find? u).isSome = true → (t.thread u).ld = (s.thread u).ld - (ended.map (·.2)).count u
  regs : ∀ u v, v < 32 → (∀ p ∈ s.pending u v, p.op ∉ ids) → SameReg s t u v

theorem Returned.trans {s t x : State} {ids : List Nat} {a b : List (Nat × Nat)} (h : Returned s t ids a) (k : Returned t x ids b) :
    Returned s x ids (a ++ b) := by
  refine ⟨k.gangs.trans h.gangs, k.tasks.trans h.tasks, k.free.trans h.free, fun u => (k.there u).trans (h.there u), fun i => ?_,
    fun u hu => ?_, fun u v hv hn => ?_⟩
  · rw [k.ops, h.ops, List.map_append]
    by_cases hb : i ∈ b.map (·.1)
    · rw [if_pos hb, if_pos (List.mem_append_right _ hb)]
    · rw [if_neg hb]
      by_cases ha : i ∈ a.map (·.1)
      · rw [if_pos ha, if_pos (List.mem_append_left _ ha)]
      · rw [if_neg ha, if_neg fun hab => (List.mem_append.mp hab).elim ha hb]
  · rw [k.loads u (by rw [h.there]; exact hu), h.loads u hu, List.map_append, List.count_append, Nat.sub_sub]
  · have h1 := h.regs u v hv hn
    exact h1.trans (k.regs u v hv (by rw [h1.1]; exact hn))

theorem Returned.mono {s t : State} {ids js : List Nat} {ended : List (Nat × Nat)} (h : Returned s t ids ended) (hsub : ∀ i ∈ ids, i ∈ js) :
    Returned s t js ended :=
  { h with regs := fun u v hv hn => h.regs u v hv fun p hp hi => hn p hp (hsub _ hi) }

/-- A step that ends no operation. -/
theorem Returned.of_same {s t : State} {ids : List Nat} (hg : t.gangs = s.gangs) (ht : t.tasks = s.tasks) (hf : t.freeCtr = s.freeCtr)
    (hthere : ∀ u, (t.threads.find? u).isSome = (s.threads.find? u).isSome) (ho : t.ops = s.ops) (hl : SameLoads s t)
    (hr : ∀ u v, v < 32 → (∀ p ∈ s.pending u v, p.op ∉ ids) → SameReg s t u v) : Returned s t ids [] :=
  ⟨hg, ht, hf, hthere, fun k => by rw [ho, if_neg (by simp)], fun u _ => by rw [hl u]; simp, hr⟩

theorem Returned.refl (s : State) (ids : List Nat) : Returned s s ids [] :=
  .of_same rfl rfl rfl (fun _ => rfl) rfl (.refl s) fun u v _ _ => .refl s u v

theorem Returned.andThen {s t x : State} {ids : List Nat} (h : Returned s t ids []) (k : Returned t x ids []) : Returned s x ids [] := h.trans k

theorem Returned.foldl {α : Type} {ids : List Nat} (g : State → α → State) (h : ∀ s x, Returned s (g s x) ids []) (xs : List α) (s : State) :
    Returned s (xs.foldl g s) ids [] := by
  induction xs generalizing s with
  | nil => exact .refl s ids
  | cons x xs ih => exact (h s x).trans (ih _)

/-- A step that changes neither rows nor threads nor operations. -/
theorem Returned.of_fields {s t : State} (ids : List Nat) (hg : t.gangs = s.gangs) (ht : t.tasks = s.tasks) (hf : t.freeCtr = s.freeCtr)
    (hth : t.threads = s.threads) (ho : t.ops = s.ops) (hr : t.rows = s.rows) : Returned s t ids [] :=
  .of_same hg ht hf (fun u => by rw [hth]) ho (.of_threads hth) fun u v _ _ => .of_rows hr hf u v

theorem OnlyCaches.returned {s t : State} (h : OnlyCaches s t) (ids : List Nat) : Returned s t ids [] := by
  unfold OnlyCaches at h
  rw [h]
  exact .of_fields ids rfl rfl rfl rfl rfl rfl

theorem updThread_returned (s : State) (ids : List Nat) (t : Nat) {f : Thread → Thread} (hf : ∀ h, (f h).ld = h.ld) :
    Returned s (s.updThread t f) ids [] :=
  .of_same rfl rfl rfl (fun u => find?_updThread s t u f) rfl (updThread_sameLoads s t hf) fun u v _ _ => .of_rows rfl rfl u v

theorem setValid_returned (s : State) (ids : List Nat) (t k : Nat) (b : Bool) : Returned s (s.setValid t k b) ids [] :=
  .of_fields ids rfl rfl rfl rfl rfl rfl

theorem raise_returned (s : State) (ids : List Nat) (t : Nat) (fl : BitVec 32) : Returned s (s.raise t fl) ids [] := by
  unfold raise
  split
  · exact .refl s ids
  · exact updThread_returned s ids t fun _ => rfl

theorem OnlyStored.returned {s t : State} (h : OnlyStored s t) (hl : SameLoads s t) (ids : List Nat) : Returned s t ids [] := by
  obtain ⟨honly, -, hthere⟩ := h
  refine .of_same ?_ ?_ ?_ hthere ?_ hl fun u v _ _ => .of_rows ?_ ?_ u v <;> rw [honly]

/-! ## One register of a return, R39 -/

/-- Data that a register waits for is the register's, and it waits for the later operations alone; what none waits for is discarded. -/
theorem deliverReg_cases (s : State) (t id insn : Nat) (w : Nat × BitVec 32 × BitVec 4 × BitVec 7) :
    (s.targets t id w.1 = false ∧ (s.deliverReg t id insn w).1 = s) ∨
    (s.targets t id w.1 = true ∧ ∃ accs valid q, (s.deliverReg t id insn w).1 = { s.setRow (crewOf t) w.1 q with accs := accs, valid := valid } ∧
      q.vals.get 0 (laneOf t) = w.2.1 ∧ q.live.getLsbD (laneOf t) = true ∧
      q.pend.get [] (laneOf t) = ((s.pending t w.1).filter fun p => decide (id < p.op)) ∧
      ∀ l, l < 32 → l ≠ laneOf t → q.Agrees (s.row (crewOf t) w.1) l) := by
  unfold deliverReg
  dsimp only
  cases ht : s.targets t id w.1 with
  | false => exact .inl ⟨rfl, rfl⟩
  | true =>
    refine .inr ⟨rfl, _, _, _, rfl, ?_, ?_, ?_, fun l hl hne => ⟨?_, ?_, fun _ => ?_⟩⟩
    · exact (FMap.get_put _ _ _ _ _).trans (if_pos rfl)
    · exact (setBit_getLsbD _ _ _ _ (laneOf_lt t)).trans (if_pos rfl)
    · dsimp only
      generalize (s.pending t w.1).filter (fun p => decide (id < p.op)) = left
      cases left with
      | nil => exact (FMap.get_erase _ _ _ _).trans (if_pos rfl)
      | cons p ps => exact (FMap.get_put _ _ _ _ _).trans (if_pos rfl)
    · dsimp only
      split
      · rw [FMap.get_erase, if_neg hne]
      · rw [FMap.get_put, if_neg hne]
    · exact (setBit_getLsbD _ _ _ _ hl).trans (if_neg hne)
    · exact (FMap.get_put _ _ _ _ _).trans (if_neg hne)

/-- A register keeps what it reads and waits for unless it is the one that data returns to, and waits for it. -/
theorem deliverReg_keeps {s : State} {t id insn : Nat} {w : Nat × BitVec 32 × BitVec 4 × BitVec 7} {u v : Nat}
    (h : s.targets t id w.1 = true → crewOf u * 32 + v = crewOf t * 32 + w.1 → laneOf u ≠ laneOf t) :
    SameReg s (s.deliverReg t id insn w).1 u v := by
  rcases deliverReg_cases s t id insn w with ⟨-, he⟩ | ⟨ht, accs, valid, q, he, -, -, -, hother⟩ <;> rw [he]
  · exact .refl s u v
  · have hrow : SameReg s (s.setRow (crewOf t) w.1 q) u v := setRow_sameReg fun hk => hother _ (laneOf_lt u) (h ht hk)
    exact hrow

/-- A register that waits for one operation, whose data returns to it, takes the data and waits for nothing. -/
theorem deliverReg_takes {s : State} {t id insn : Nat} {w : Nat × BitVec 32 × BitVec 4 × BitVec 7}
    (h : (s.pending t w.1).map (·.op) = [id]) :
    (s.deliverReg t id insn w).1.pending t w.1 = [] ∧ (s.deliverReg t id insn w).1.reg t w.1 = w.2.1 := by
  obtain ⟨p, hp, hpid⟩ : ∃ p, s.pending t w.1 = [p] ∧ p.op = id := by
    match hs : s.pending t w.1, h with
    | [p], h => exact ⟨p, rfl, by simpa [hs] using h⟩
  have ht : s.targets t id w.1 = true := by unfold targets; rw [hp]; simp [hpid]
  rcases deliverReg_cases s t id insn w with ⟨hn, -⟩ | ⟨-, accs, valid, q, he, hval, hlive, hpend, -⟩
  · rw [ht] at hn; exact absurd hn (by decide)
  · have hnone : q.pend.get [] (laneOf t) = [] := by rw [hpend, hp]; simp [hpid]
    have hfound : (s.setRow (crewOf t) w.1 q).row (crewOf t) w.1 = q := by
      rw [row_setRow_key, if_pos rfl, if_neg]
      rintro ⟨h0, -⟩
      rw [h0] at hlive
      exact absurd hlive (by simp)
    have hrow : (s.setRow (crewOf t) w.1 q).pending t w.1 = [] ∧ (s.setRow (crewOf t) w.1 q).reg t w.1 = w.2.1 := by
      unfold reg pending
      rw [hfound, hnone]
      exact ⟨rfl, (if_pos hlive).trans hval⟩
    rw [he]
    exact hrow

/-- A register that does not wait for an operation is no target of it. -/
theorem not_targets {s : State} {t id u v w : Nat} (h : ∀ p ∈ s.pending u v, p.op ∉ [id]) (hk : crewOf u * 32 + v = crewOf t * 32 + w)
    (hl : laneOf u = laneOf t) : s.targets t id w = false := by
  have hp : s.pending t w = s.pending u v := by unfold pending row; rw [hk, hl]
  unfold targets
  rw [hp, List.any_eq_false]
  intro p hm
  have := h p hm
  simpa using this

theorem deliverReg_returned (s : State) (t id insn : Nat) (w : Nat × BitVec 32 × BitVec 4 × BitVec 7) :
    Returned s (s.deliverReg t id insn w).1 [id] [] := by
  have hregs : ∀ u v, v < 32 → (∀ p ∈ s.pending u v, p.op ∉ [id]) → SameReg s (s.deliverReg t id insn w).1 u v :=
    fun u v _ hn => deliverReg_keeps fun ht hk hl => by rw [not_targets hn hk hl] at ht; exact absurd ht (by decide)
  rcases deliverReg_cases s t id insn w with ⟨-, he⟩ | ⟨-, accs, valid, q, he, -⟩
  · rw [he]; exact .refl s _
  · rw [he] at hregs ⊢
    refine .of_same ?_ ?_ ?_ ?_ ?_ ?_ hregs <;> rw [setRow_rows]
    · exact fun _ => rfl
    · exact fun _ => rfl

theorem deliver_cons (s : State) (t id insn : Nat) (w : Nat × BitVec 32 × BitVec 4 × BitVec 7) (ws : List (Nat × BitVec 32 × BitVec 4 × BitVec 7)) :
    (s.deliver t id insn (w :: ws)).1 = ((s.deliverReg t id insn w).1.deliver t id insn ws).1 := by
  have hcount : ∀ (ws : List (Nat × BitVec 32 × BitVec 4 × BitVec 7)) (s : State) (n m : Nat),
      (ws.foldl (fun (sn : State × Nat) w =>
        ((sn.1.deliverReg t id insn w).1, sn.2 + (if (sn.1.deliverReg t id insn w).2 then 1 else 0))) (s, n)).1 =
      (ws.foldl (fun (sn : State × Nat) w =>
        ((sn.1.deliverReg t id insn w).1, sn.2 + (if (sn.1.deliverReg t id insn w).2 then 1 else 0))) (s, m)).1 := by
    intro ws
    induction ws with
    | nil => exact fun _ _ _ => rfl
    | cons w ws ih => exact fun s n m => ih _ _ _
  exact hcount ws _ _ 0

theorem deliver_returned (s : State) (t id insn : Nat) (ws : List (Nat × BitVec 32 × BitVec 4 × BitVec 7)) :
    Returned s (s.deliver t id insn ws).1 [id] [] := by
  induction ws generalizing s with
  | nil => exact .refl s _
  | cons w ws ih => rw [deliver_cons]; exact (deliverReg_returned s t id insn w).trans (ih _)

/-- Registers that wait for one operation alone take its data. -/
theorem deliver_takes {s : State} {t id : Nat} (insn : Nat) {ws : List (Nat × BitVec 32 × BitVec 4 × BitVec 7)} (hnd : (ws.map (·.1)).Nodup)
    (hw : ∀ w ∈ ws, w.1 < 32 ∧ (s.pending t w.1).map (·.op) = [id]) :
    ∀ w ∈ ws, (s.deliver t id insn ws).1.pending t w.1 = [] ∧ (s.deliver t id insn ws).1.reg t w.1 = w.2.1 := by
  induction ws generalizing s with
  | nil => exact fun w hm => absurd hm List.not_mem_nil
  | cons x ws ih =>
    obtain ⟨hx, hnd⟩ := List.nodup_cons.mp hnd
    have hhead := deliverReg_takes (insn := insn) (hw x (by simp)).2
    have htail : ∀ w ∈ ws, w.1 < 32 ∧ ((s.deliverReg t id insn x).1.pending t w.1).map (·.op) = [id] := by
      intro w hm
      obtain ⟨hlt, hp⟩ := hw w (by simp [hm])
      have hne : w.1 ≠ x.1 := fun e => hx (List.mem_map.mpr ⟨w, hm, e⟩)
      have hkeep : SameReg s (s.deliverReg t id insn x).1 t w.1 := deliverReg_keeps fun _ hk => absurd hk (by omega)
      exact ⟨hlt, by rw [hkeep.1, hp]⟩
    rw [deliver_cons]
    intro w hm
    rcases List.mem_cons.mp hm with rfl | hm
    · have hkeep := (deliver_returned (s.deliverReg t id insn w).1 t id insn ws).regs t w.1 (hw w (by simp)).1
        (by rw [hhead.1]; exact fun p hp => absurd hp List.not_mem_nil)
      exact ⟨hkeep.1.trans hhead.1, hkeep.2.trans hhead.2⟩
    · exact ih hnd htail w hm

/-! ## A context record and the end of a load -/

theorem deliverDead_returned (s : State) (t id v : Nat) : Returned s (s.deliverDead t id v) [id] [] := by
  unfold deliverDead
  dsimp only
  cases ht : s.targets t id v with
  | false => exact .refl s _
  | true =>
    rw [if_pos rfl]
    generalize hleft : (s.pending t v).filter (fun p => decide (id < p.op)) = left
    refine Returned.andThen ?_ (setValid_returned _ [id] t (v / 4) false)
    refine .of_same ?_ ?_ ?_ ?_ ?_ ?_ fun u w hw hn => setRow_sameReg fun hk => ?_
    · rw [setRow_rows]
    · rw [setRow_rows]
    · rw [setRow_rows]
    · rw [setRow_rows]; exact fun _ => rfl
    · rw [setRow_rows]
    · rw [setRow_rows]; exact fun _ => rfl
    · have hl : laneOf u ≠ laneOf t := fun hl => by rw [not_targets hn hk hl] at ht; exact absurd ht (by decide)
      refine ⟨?_, ?_, fun _ => ?_⟩
      · dsimp only [Row.kill]
        split
        · rw [FMap.get_erase, if_neg hl]
        · rw [FMap.get_put, if_neg hl, FMap.get_erase, if_neg hl]
      · exact (setBit_getLsbD _ _ _ _ (laneOf_lt u)).trans (if_neg hl)
      · exact (FMap.get_erase _ _ _ _).trans (if_neg hl)

theorem restoreContext_returned (s : State) (t id insn : Nat) (bs : List (BitVec 8)) (poison : Bool) :
    Returned s (s.restoreContext t id insn bs poison) [id] [] := by
  unfold restoreContext
  dsimp only
  split
  · exact deliver_returned s t id insn _
  · refine Returned.andThen (t := List.foldl _ _ _) ?_ (updThread_returned _ [id] t fun h => ?_)
    · refine Returned.andThen (t := List.foldl _ _ _) ?_ (Returned.foldl _ (fun s k => setValid_returned s [id] t k _) _ _)
      refine Returned.foldl _ (fun s v => ?_) _ s
      split
      · exact deliverReg_returned s t id insn _
      · exact deliverDead_returned s t id v
    · split <;> rfl

/-- The tag of a row that an instruction wrote, once the instruction is done, R97. -/
theorem tagRow_returned (s : State) (a : FMap Acc) (va : FMap (BitVec 32)) (crew v : Nat) (f : BitVec 4) (c : BitVec 7) :
    Returned s ({ s with accs := a, valid := va }.setRow crew v { s.row crew v with fmt := f, scl := c }) [] [] := by
  refine .of_same ?_ ?_ ?_ ?_ ?_ ?_ fun u w _ _ => ?_
  · rw [setRow_rows]
  · rw [setRow_rows]
  · rw [setRow_rows]
  · rw [setRow_rows]; exact fun _ => rfl
  · rw [setRow_rows]
  · rw [setRow_rows]; exact fun _ => rfl
  · have hrow : SameReg { s with accs := a, valid := va }
        ({ s with accs := a, valid := va }.setRow crew v { s.row crew v with fmt := f, scl := c }) u w :=
      setRow_sameReg fun _ => ⟨rfl, rfl, fun _ => rfl⟩
    exact hrow

/-- The rows of an instruction that is done take their tags, and no register reads otherwise, R97. -/
theorem settleTags_returned (s : State) (crew insn : Nat) : Returned s (s.settleTags crew insn) [] [] := by
  unfold settleTags
  split
  · exact .refl s []
  · refine Returned.foldl _ (fun s ka => ?_) _ s
    dsimp only
    by_cases hcap : (tagAfter (s.row crew (ka.1 % 32)).live ka.2.lanes ((s.row crew (ka.1 % 32)).fmt, (s.row crew (ka.1 % 32)).scl)
      (if ka.2.poison then (15, 0) else ka.2.tag.getD (0, 0))).1 = 11
    · rw [if_pos hcap]
      split
      · exact tagRow_returned s _ s.valid crew _ _ _
      · exact .of_fields [] rfl rfl rfl rfl rfl rfl
    · rw [if_neg hcap]
      split
      · exact tagRow_returned s _ _ crew _ _ _
      · exact .of_fields [] rfl rfl rfl rfl rfl rfl

theorem dropOp_returned (s : State) (id t : Nat) : (∀ k, (s.dropOp id).ops.find? k = if k ∈ [(id, t)].map (·.1) then none else s.ops.find? k) ∧
    ∀ u v, SameReg s (s.dropOp id) u v := by
  refine ⟨fun k => ?_, fun u v => .of_rows rfl rfl u v⟩
  simp only [dropOp, FMap.find?_erase, List.map_cons, List.map_nil, List.mem_singleton]

/-- The end of a load, R69, R87. -/
theorem endLoad_returned (s : State) (id : Nat) (o : Op) : Returned s (s.endLoad id o) [] [(id, o.thread)] := by
  obtain ⟨hops, hregs⟩ := dropOp_returned s id o.thread
  have htags := settleTags_returned (s.dropOp id) (crewOf o.thread) o.insn
  unfold endLoad decLd
  generalize (s.dropOp id).settleTags (crewOf o.thread) o.insn = x at htags
  have hthere : ∀ u, (x.threads.find? u).isSome = (s.threads.find? u).isSome := htags.there
  have hstands := settleWait_onlyStands (x.updThread o.thread fun h => { h with ld := h.ld - 1 }) o.thread
  have hlds := settleWait_sameLoads (x.updThread o.thread fun h => { h with ld := h.ld - 1 }) o.thread
  generalize (x.updThread o.thread fun h => { h with ld := h.ld - 1 }).settleWait o.thread = y at hstands hlds
  have honly := hstands.only
  refine ⟨?_, ?_, ?_, fun u => ?_, fun k => ?_, fun u hu => ?_, fun u v hv _ => ?_⟩
  · rw [honly]; exact htags.gangs
  · rw [honly]; exact htags.tasks
  · rw [honly]; exact htags.free
  · rw [hstands.there, find?_updThread]; exact hthere u
  · rw [← hops k, honly]
    exact (htags.ops k).trans (if_neg List.not_mem_nil)
  · have hld : (x.thread u).ld = (s.thread u).ld := by rw [htags.loads u hu, List.map_nil, List.count_nil]; rfl
    rw [hlds u]
    by_cases hut : u = o.thread
    · rw [hut] at hu hld ⊢
      rw [thread_updThread x _ _ _ (by rw [hthere]; exact hu), if_pos rfl]
      simp [hld]
    · rw [List.map_singleton, List.count_singleton, if_neg (by simpa using Ne.symm hut), ← hld]
      rw [thread_updThread_other x hut, Nat.sub_zero]
  · exact ((hregs u v).trans (htags.regs u v hv fun p _ => List.not_mem_nil)).trans (.of_rows (by rw [honly]; rfl) (by rw [honly]; rfl) u v)

/-! ## A load's data, R69 -/

theorem loadReturn_returned (s : State) (id : Nat) (o : Op) (fn : LoadFn) (regs : List Nat) (bs : List (BitVec 8)) (poison tag : Bool) :
    Returned s (s.loadReturn id o fn regs bs poison tag) [id] [] := by
  cases fn with
  | plain size sext =>
    unfold loadReturn
    dsimp only
    split <;> exact deliver_returned s _ id _ _
  | typed mf cv rm cvs =>
    unfold loadReturn
    dsimp only
    split
    · exact deliver_returned s _ id _ _
    · exact (deliver_returned s _ id _ _).andThen (raise_returned _ [id] _ _)
  | cap lc =>
    unfold loadReturn
    dsimp only
    split
    · exact deliver_returned s _ id _ _
    · split
      · exact (deliver_returned s _ id _ _).andThen (setValid_returned _ [id] _ _ _)
      · exact deliver_returned s _ id _ _

/-- A plain load's registers, where the data is not poisoned, R69. -/
theorem loadReturn_plain {s : State} {id : Nat} {o : Op} {size : Nat} {sext : Bool} {regs : List Nat} {bs : List (BitVec 8)} {tag : Bool}
    (h : Awaits s o.thread id regs) (i : Nat) (hi : i < regs.length) :
    (s.loadReturn id o (.plain size sext) regs bs false tag).pending o.thread regs[i] = [] ∧
    (s.loadReturn id o (.plain size sext) regs bs false tag).reg o.thread regs[i] =
      extend (min size 4) sext ((bs.drop (4 * i)).take 4) := by
  obtain ⟨hnd, hw⟩ := h
  refine deliver_takes o.insn (ws := regs.zipIdx.map fun vi => (vi.1, extend (min size 4) sext ((bs.drop (4 * vi.2)).take 4), 0, 0)) ?_ ?_
    (regs[i], extend (min size 4) sext ((bs.drop (4 * i)).take 4), 0, 0) ?_
  · rw [List.map_map]
    have hfst : regs.zipIdx.map ((fun w : Nat × BitVec 32 × BitVec 4 × BitVec 7 => w.1) ∘ fun vi : Nat × Nat =>
        (vi.1, extend (min size 4) sext ((bs.drop (4 * vi.2)).take 4), 0, 0)) = regs := List.zipIdx_map_fst 0 regs
    rw [hfst]
    exact hnd
  · intro w hm
    obtain ⟨vi, hvi, rfl⟩ := List.mem_map.mp hm
    exact hw vi.1 (List.fst_mem_of_mem_zipIdx hvi)
  · exact List.mem_map.mpr ⟨(regs[i], i), List.mk_mem_zipIdx_iff_getElem?.mpr (List.getElem?_eq_getElem hi), rfl⟩

/-- One lane of a load as it returns what was read: its registers take the data, and it is over. -/
def loadStep (bs : List (BitVec 8)) (poison tag : Bool) (s : State) (x : Nat × Op) : State :=
  match x.2.kind with
  | .load fn _ _ regs => (s.loadReturn x.1 x.2 fn regs bs poison tag).endLoad x.1 x.2
  | _ => s

/-- The lane of an operation, by number and thread. -/
def laneOfOp (x : Nat × Op) : Nat × Nat := (x.1, x.2.thread)

theorem Returned.ends {s t : State} {id : Nat} {o : Op} (h : Returned s t [id] []) : Returned s (t.endLoad id o) [id] [laneOfOp (id, o)] :=
  h.trans ((endLoad_returned t id o).mono fun _ hi => absurd hi List.not_mem_nil)

theorem loadStep_returned (bs : List (BitVec 8)) (poison tag : Bool) (s : State) {x : Nat × Op} (hx : x.2.kind.isLoad = true) :
    Returned s (loadStep bs poison tag s x) [x.1] [laneOfOp x] := by
  obtain ⟨fn, p, n, regs, hk⟩ := (OpKind.isLoad_iff _).mp hx
  unfold loadStep
  rw [hk]
  exact (loadReturn_returned s x.1 x.2 fn regs bs poison tag).ends

theorem loadSteps_returned (bs : List (BitVec 8)) (poison tag : Bool) (s : State) (xs : List (Nat × Op)) (h : ∀ x ∈ xs, x.2.kind.isLoad = true) :
    Returned s (xs.foldl (loadStep bs poison tag) s) (xs.map (·.1)) (xs.map laneOfOp) := by
  induction xs generalizing s with
  | nil => exact .refl s _
  | cons x xs ih =>
    have hx := (loadStep_returned bs poison tag s (h x (by simp))).mono (js := (x :: xs).map (·.1)) (by simp)
    exact hx.trans ((ih _ fun y hy => h y (by simp [hy])).mono fun i hi => by simp only [List.map_cons, List.mem_cons]; exact .inr hi)

/-! ## The lanes of a load -/

theorem mem_loadGroup {s : State} {o : Op} {x : Nat × Op} (h : x ∈ s.loadGroup o) : x.2.kind.isLoad = true ∧ o.kind.isLoad = true := by
  have ho : oneLoad x.2 o = true := (List.mem_filter.mp h).2
  unfold oneLoad at ho
  split at ho
  · rename_i hx hy
    rw [hx, hy]
    exact ⟨rfl, rfl⟩
  · simp at ho

theorem self_mem_loadGroup {s : State} {id : Nat} {o : Op} (h : s.ops.find? id = some o) (hl : o.kind.isLoad = true) : (id, o) ∈ s.loadGroup o := by
  refine List.mem_filter.mpr ⟨FMap.mem_of_find? h, ?_⟩
  obtain ⟨fn, p, n, regs, hk⟩ := (OpKind.isLoad_iff _).mp hl
  unfold oneLoad
  rw [hk]
  simp

/-- An operation other than a load returns alone. -/
theorem loadGroup_nil (s : State) {o : Op} (h : o.kind.isLoad = false) : s.loadGroup o = [] := by
  refine List.eq_nil_iff_forall_not_mem.mpr fun x hx => ?_
  rw [(mem_loadGroup hx).2] at h
  exact absurd h (by decide)

/-- The first listing of a key, among the entries that a predicate keeps. -/
theorem filter_first {m : FMap Op} {p : Nat × Op → Bool} {k : Nat} {o : Op} (h : m.find? k = some o) (hp : p (k, o) = true) :
    ∃ pre post, m.filter p = pre ++ (k, o) :: post ∧ ∀ x ∈ pre, x.1 ≠ k := by
  induction m with
  | nil => exact absurd h (by simp [FMap.find?])
  | cons x m ih =>
    obtain ⟨i, q⟩ := x
    unfold FMap.find? at h
    split at h
    · rename_i hik
      obtain rfl : q = o := Option.some.inj h
      subst hik
      exact ⟨[], m.filter p, List.filter_cons_of_pos hp, fun _ hm => absurd hm List.not_mem_nil⟩
    · rename_i hik
      obtain ⟨pre, post, he, hpre⟩ := ih h
      cases hq : p (i, q) with
      | true =>
        refine ⟨(i, q) :: pre, post, by rw [List.filter_cons_of_pos hq, he]; rfl, fun x hm => ?_⟩
        rcases List.mem_cons.mp hm with rfl | hm
        · exact hik
        · exact hpre x hm
      | false => exact ⟨pre, post, by rw [List.filter_cons_of_neg (by simp [hq]), he], hpre⟩

/-! ## The step of a return -/

theorem returning_load (s : State) (id : Nat) {o : Op} (h : o.kind.isLoad = true) : s.returning id o = s.loadGroup o := by
  obtain ⟨fn, p, n, regs, hk⟩ := (OpKind.isLoad_iff _).mp h
  unfold returning
  rw [hk]

theorem returning_other (s : State) (id : Nat) {o : Op} (h : o.kind.isLoad = false) : s.returning id o = [(id, o)] := by
  unfold returning
  split
  · rename_i hk
    rw [hk] at h
    exact absurd h.symm Bool.false_ne_true
  · rfl

/-- What returns with an operation may return, if each of it may be performed. -/
theorem mayReturn_of_returning {s : State} {id : Nat} {o : Op} (h : s.ops.find? id = some o)
    (hm : ∀ y ∈ s.returning id o, s.mayPerform y.1 y.2 = true) : s.mayReturn id o = true ∧ (id, o) ∈ s.returning id o := by
  have hself : (id, o) ∈ s.returning id o ∧ ∀ y ∈ s.loadGroup o, y ∈ s.returning id o := by
    cases hl : o.kind.isLoad with
    | true =>
      rw [returning_load s id hl]
      exact ⟨self_mem_loadGroup h hl, fun _ hy => hy⟩
    | false =>
      rw [returning_other s id hl, loadGroup_nil s hl]
      exact ⟨List.mem_singleton_self _, fun _ hy => absurd hy List.not_mem_nil⟩
  obtain ⟨hself, hgroup⟩ := hself
  refine ⟨?_, hself⟩
  unfold mayReturn
  rw [Bool.and_eq_true, List.all_eq_true]
  exact ⟨hm _ hself, fun y hy => hm y (hgroup y hy)⟩

theorem exec_loadDataReturn {s : State} {id : Nat} {o : Op} (h : s.ops.find? id = some o) (hm : s.mayReturn id o = true) :
    exec (.loadDataReturn id) s = .next (match o.kind with
      | .load _ p n _ =>
        (s.loadGroup o).foldl (loadStep (s.memRead o.thread p n).2.1 (s.memRead o.thread p n).2.2.1 (s.memRead o.thread p n).2.2.2)
          (s.memRead o.thread p n).1
      | .ringLoad quad tile slot reg _ undef =>
        let tl := s.tiles.get Tile.clear (tileKey (gangOf o.thread) quad tile)
        let bits := if undef then Config.freeWord (s.freeCtr * 65536 + laneOf o.thread * 32 + reg)
          else s.ring.get 0 (slotKey (gangOf o.thread) quad tile slot)
        let fmt : BitVec 4 := if tl.poison then 15 else if tl.kind = 2 then 1 else if tl.kind = 1 then 2 else 0
        ((s.deliver o.thread id o.insn (if tl.poison then s.poisoned o.thread [reg] else [(reg, bits, fmt, 0)])).1).endLoad id o
      | .contextLoad ps =>
        ((s.readParts o.thread ps).1.restoreContext o.thread id o.insn (s.readParts o.thread ps).2.1 (s.readParts o.thread ps).2.2).endLoad id o
      | .batchGet ps batch skip => (s.writeParts o.thread ps ((batchBytes (batch.bind s.batches.find?)).drop skip)).endLoad id o
      | _ => s) := by
  have hexec : exec (.loadDataReturn id) s = execLoadDataReturn id s := rfl
  rw [hexec]
  unfold execLoadDataReturn
  rw [h]
  dsimp only
  rw [hm, if_neg (by decide)]
  cases o.kind <;> rfl

/-- Data that returns changes what waits for it, and ends the operations that it returns with. -/
theorem loadDataReturn_returned {s : State} {id : Nat} {o : Op} (h : s.ops.find? id = some o) (hk : o.kind.returns = true)
    (hm : ∀ y ∈ s.returning id o, s.mayPerform y.1 y.2 = true) :
    ∃ s', exec (.loadDataReturn id) s = .next s' ∧ Returned s s' ((s.returning id o).map (·.1)) ((s.returning id o).map laneOfOp) := by
  refine ⟨_, exec_loadDataReturn h (mayReturn_of_returning h hm).1, ?_⟩
  unfold returning
  cases hkind : o.kind <;> rw [hkind] at hk
  case load fn p n regs =>
    exact ((memRead_onlyCaches s o.thread p n).returned _).trans
      (loadSteps_returned _ _ _ _ _ fun x hx => (mem_loadGroup hx).1)
  case ringLoad quad tile slot reg n undef => exact (deliver_returned s _ id _ _).ends
  case contextLoad ps =>
    exact (((readParts_onlyCaches s o.thread ps).returned _).andThen (restoreContext_returned _ _ id _ _ _)).ends
  case batchGet ps batch skip => exact ((writeParts_stored s _ ps _).returned (writeParts_sameLoads s _ ps _) [id]).ends
  all_goals exact absurd hk Bool.false_ne_true

theorem Returned.keeps {s t : State} {lanes ended : List (Nat × Op)} (h : Returned s t (lanes.map (·.1)) (ended.map laneOfOp)) :
    LanesWriteOnly s t lanes := by
  intro u v hv hn
  refine (h.regs u v hv fun p hp hi => ?_).2
  obtain ⟨y, hy, hpy⟩ := List.mem_map.mp hi
  have := List.all_eq_true.mp (hn y hy) p hp
  simp [hpy] at this

/-- What returns is over, LOADS falls, and no register changes but those that wait for it (R39, R69, R87). -/
theorem loadDataReturn_ends (s : State) (id : Nat) (o : Op) (h : s.ops.find? id = some o) (hk : o.kind.returns = true)
    (hm : ∀ y ∈ s.returning id o, s.mayPerform y.1 y.2 = true) :
    ∃ s', exec (.loadDataReturn id) s = .next s' ∧ OpsOver s s' (s.returning id o) ∧ s'.ops.find? id = none ∧
      LoadsFall s s' ((s.returning id o).map (·.2.thread)) ∧ LanesWriteOnly s s' (s.returning id o) ∧ s'.gangs = s.gangs ∧
      s'.tasks = s.tasks := by
  obtain ⟨s', hexec, hr⟩ := loadDataReturn_returned h hk hm
  have hself := (mayReturn_of_returning h hm).2
  generalize s.returning id o = lanes at hr hself ⊢
  have hids : (lanes.map laneOfOp).map (·.1) = lanes.map (·.1) := by rw [List.map_map]; rfl
  have hthreads : (lanes.map laneOfOp).map (·.2) = lanes.map (·.2.thread) := by rw [List.map_map]; rfl
  have hops : OpsOver s s' lanes := fun k => by
    rw [hr.ops, hids]
    exact if_congr List.contains_iff_mem.symm rfl rfl
  refine ⟨s', hexec, hops, ?_, fun u hu => ?_, hr.keeps, hr.gangs, hr.tasks⟩
  · rw [hops id, if_pos]
    exact List.contains_iff_mem.mpr (List.mem_map_of_mem hself)
  · rw [hr.loads u hu, hthreads]

/-- Each lane of a plain load takes the bytes that were read, R69. -/
theorem plainLoad_values (s : State) (id n size : Nat) (sext : Bool) (p : Place) (o : Op) (regs : List Nat) (h : s.ops.find? id = some o)
    (hk : o.kind = .load (.plain size sext) p n regs) (hm : ∀ y ∈ s.loadGroup o, s.mayPerform y.1 y.2 = true)
    (hpoison : (s.memRead o.thread p n).2.2.1 = false) :
    ∃ s', exec (.loadDataReturn id) s = .next s' ∧
      ∀ y ∈ s.loadGroup o, ∀ sz sx rs, y.2.kind = .load (.plain sz sx) p n rs → s.ops.find? y.1 = some y.2 → Awaits s y.2.thread y.1 rs →
        ∀ i (hi : i < rs.length),
          s'.reg y.2.thread rs[i] = extend (min sz 4) sx (((s.memRead o.thread p n).2.1.drop (4 * i)).take 4) := by
  have hret : s.returning id o = s.loadGroup o := returning_load s id (by rw [hk]; rfl)
  have hexec := exec_loadDataReturn h (mayReturn_of_returning h (by rw [hret]; exact hm)).1
  rw [hk] at hexec
  refine ⟨_, hexec, fun y hy sz sx rs hyk hfind hawaits i hi => ?_⟩
  obtain ⟨pre, post, hsplit, hpre⟩ := filter_first (p := fun x => oneLoad x.2 o) hfind (List.mem_filter.mp hy).2
  have hgroup : s.loadGroup o = pre ++ y :: post := hsplit
  have hload : ∀ x ∈ pre ++ y :: post, x.2.kind.isLoad = true := fun x hx => (mem_loadGroup (hgroup ▸ hx)).1
  dsimp only
  rw [hpoison, hgroup, List.foldl_append, List.foldl_cons]
  generalize (s.memRead o.thread p n).2.1 = bs
  generalize (s.memRead o.thread p n).2.2.2 = tag
  -- the lanes before it leave its registers waiting for it
  have hbefore := ((memRead_onlyCaches s o.thread p n).returned _).trans
    (loadSteps_returned bs false tag (s.memRead o.thread p n).1 pre fun x hx => hload x (List.mem_append_left _ hx))
  generalize pre.foldl (loadStep bs false tag) (s.memRead o.thread p n).1 = a at hbefore ⊢
  have hstill : Awaits a y.2.thread y.1 rs := by
    refine ⟨hawaits.1, fun v hv => ?_⟩
    obtain ⟨hlt, hp⟩ := hawaits.2 v hv
    refine ⟨hlt, ?_⟩
    rw [(hbefore.regs y.2.thread v hlt fun q hq hi => ?_).1, hp]
    have hqy : q.op = y.1 := List.mem_singleton.mp (hp ▸ List.mem_map_of_mem hq)
    obtain ⟨x, hx, hxq⟩ := List.mem_map.mp hi
    exact hpre x hx (hxq.trans hqy)
  -- its own step writes them, and nothing waits any more
  have hlt : rs[i] < 32 := (hawaits.2 _ (List.getElem_mem hi)).1
  obtain ⟨hnone, hval⟩ := loadReturn_plain (size := sz) (sext := sx) (bs := bs) (tag := tag) hstill i hi
  have hstep : loadStep bs false tag a y = (a.loadReturn y.1 y.2 (.plain sz sx) rs bs false tag).endLoad y.1 y.2 := by
    unfold loadStep; rw [hyk]
  have hafter := ((endLoad_returned (a.loadReturn y.1 y.2 (.plain sz sx) rs bs false tag) y.1 y.2).mono
    (js := post.map (·.1)) fun _ hj => absurd hj List.not_mem_nil).trans
    (loadSteps_returned bs false tag _ post fun x hx => hload x (List.mem_append_right _ (List.mem_cons_of_mem _ hx)))
  rw [hstep, ← hval]
  exact (hafter.regs y.2.thread rs[i] hlt (by rw [hnone]; exact fun _ hq => absurd hq List.not_mem_nil)).2

/-- A thread is one lane of one crew. -/
theorem thread_of_lane {u t : Nat} (hc : crewOf u = crewOf t) (hl : laneOf u = laneOf t) : u = t := by
  unfold crewOf at hc
  unfold laneOf at hl
  omega

/-- A register that data returns to alone, and waits for that alone, takes it, and no other register changes, R39. -/
theorem deliver_one {s : State} {t id v : Nat} (insn : Nat) (bits : BitVec 32) (fmt : BitVec 4) (scl : BitVec 7) (h : Awaits s t id [v]) :
    (s.deliver t id insn [(v, bits, fmt, scl)]).1.reg t v = bits ∧ WritesOnly s (s.deliver t id insn [(v, bits, fmt, scl)]).1 t id := by
  obtain ⟨hlt, hp⟩ := h.2 v (List.mem_singleton_self v)
  rw [deliver_cons]
  refine ⟨(deliverReg_takes hp).2, fun u w hw hother => (deliverReg_keeps fun _ hrow hlane => ?_).2⟩
  obtain ⟨hcrew, rfl⟩ : crewOf u = crewOf t ∧ w = v := by
    dsimp only at hrow
    omega
  obtain ⟨q, hq⟩ : ∃ q, q ∈ s.pending t w := List.exists_mem_of_ne_nil _ fun he => by rw [he] at hp; simp at hp
  have hqid : q.op = id := List.mem_singleton.mp (hp ▸ List.mem_map_of_mem hq)
  have hnot := List.all_eq_true.mp (hother (thread_of_lane hcrew hlane)) q hq
  simp [hqid] at hnot

/-- A ring load's register takes the slot, and no other register changes, R159. -/
theorem ringLoad_values (s : State) (id t quad tile slot v n : Nat) (o : Op) (h : s.ops.find? id = some o) (ht : o.thread = t)
    (hk : o.kind = .ringLoad quad tile slot v n false) (hm : s.mayPerform id o = true) (hawaits : Awaits s t id [v])
    (hpoison : (s.tiles.get Tile.clear (tileKey (gangOf t) quad tile)).poison = false) :
    ∃ s', exec (.loadDataReturn id) s = .next s' ∧ WritesOnly s s' t id ∧ s'.reg t v = s.ring.get 0 (slotKey (gangOf t) quad tile slot) := by
  subst ht
  have hret : s.returning id o = [(id, o)] := returning_other s id (by rw [hk]; rfl)
  have hexec := exec_loadDataReturn h (mayReturn_of_returning h (by rw [hret]; exact fun y hy => List.mem_singleton.mp hy ▸ hm)).1
  rw [hk] at hexec
  dsimp only at hexec
  rw [hpoison, if_neg Bool.false_ne_true, if_neg Bool.false_ne_true, if_neg Bool.false_ne_true] at hexec
  generalize (if (s.tiles.get Tile.clear (tileKey (gangOf o.thread) quad tile)).kind = 2 then (1 : BitVec 4) else _) = fmt at hexec
  obtain ⟨hval, honly⟩ := deliver_one o.insn (s.ring.get 0 (slotKey (gangOf o.thread) quad tile slot)) fmt 0 hawaits
  have hend := (endLoad_returned (s.deliver o.thread id o.insn [(v, s.ring.get 0 (slotKey (gangOf o.thread) quad tile slot), fmt, 0)]).1 id o).regs
  refine ⟨_, hexec, fun u w hw hother => ?_, ?_⟩
  · exact (hend u w hw fun _ _ => List.not_mem_nil).2.trans (honly u w hw hother)
  · exact (hend o.thread v (hawaits.2 v (List.mem_singleton_self v)).1 fun _ _ => List.not_mem_nil).2.trans hval

end State

/-- Settles O35: what returns writes only registers that wait for it, each lane's end lowers its own LOADS, and the lanes before and after one
leave the registers that wait for it. -/
theorem loadsReturn : Obligations.LoadsReturn :=
  ⟨State.loadDataReturn_ends, State.plainLoad_values, State.ringLoad_values⟩

end Sys2Proof.Machine

/-! SUPPORT. Words written out from the encoding tables of spec/04 are the encodings of their instructions (R42 to R57). -/

namespace Sys2Proof.Machine

/-- A table word that is the encoding of a well-formed instruction decodes to it, R28. -/
theorem decodeTableWord_of_encodeBytes {i : Instr} {w : Nat} (hwf : wellFormed i = true) (hword : hasWord i = true)
    (h : bytesOf 4 (w % 2 ^ 32) = encodeBytes i) : decodeTableWord 32 w = some i := by
  have hdec : Decode.bytes (encodeBytes i) = .ok (i, []) := by
    have hd := decodeEncode i [] hwf hword
    rwa [List.append_nil] at hd
  unfold decodeTableWord
  rw [h, hdec]

/-- Settles O2: each word is the encoding of its instruction, and each reserved word is refused. -/
theorem wordsDecode : Obligations.WordsDecode := by
  unfold Obligations.WordsDecode
  refine ⟨?nop, ?pset, ?bra, ?trap, ?add, ?ctxsv, ?zeroHalfword, ?unassignedFunction, ?braWithoutEnd, ?reservedBarrier⟩
  case nop => exact decodeTableWord_of_encodeBytes (by decide) (by decide) (by decide)
  case pset => exact decodeTableWord_of_encodeBytes (by decide) (by decide) (by decide)
  case bra => exact decodeTableWord_of_encodeBytes (by decide) (by decide) (by decide)
  case trap => exact decodeTableWord_of_encodeBytes (by decide) (by decide) (by decide)
  case add => exact decodeTableWord_of_encodeBytes (by decide) (by decide) (by decide)
  case ctxsv => exact decodeTableWord_of_encodeBytes (by decide) (by decide) (by decide)
  case zeroHalfword => decide
  case unassignedFunction => decide
  case braWithoutEnd => decide
  case reservedBarrier => decide

end Sys2Proof.Machine

/-! SUPPORT. An instruction whose acting lanes all fault: each thread traps with what its own lane raises, those guarded off go on, and the
instruction has none of its effect (R31, R33, R36, R373). -/

namespace Sys2Proof.Machine

/-! ## The lanes of such an instruction -/

/-- The outcomes of lanes that fault, each with the cause and TVAL that `why` gives its thread. -/
def faulted (why : Nat → BitVec 32 × BitVec 32) (ts : List Nat) : List (Nat × LaneRes) := ts.map fun t => (t, .fault (why t).1 (why t).2)

section Faulted

variable (why : Nat → BitVec 32 × BitVec 32) (ts : List Nat)

theorem runLanes_faulted {op : State → Nat → State × LaneRes} {s : State} {ts : List Nat} {why : Nat → BitVec 32 × BitVec 32}
    (h : ∀ t ∈ ts, op s t = (s, .fault (why t).1 (why t).2)) : State.runLanes op s ts = (s, faulted why ts) := by
  induction ts with
  | nil => rfl
  | cons t ts ih =>
    rw [State.runLanes, h t (by simp)]
    dsimp only
    rw [ih fun u hu => h u (by simp [hu])]
    rfl

theorem foldl_faulted {α : Type} (g : α → Nat × LaneRes → α) (h : ∀ a t c v, g a (t, .fault c v) = a) (a : α) :
    (faulted why ts).foldl g a = a := by
  induction ts with
  | nil => rfl
  | cons t ts ih => rw [faulted, List.map_cons, List.foldl_cons, h]; exact ih

theorem any_faulted (p : Nat × LaneRes → Bool) (h : ∀ t c v, p (t, .fault c v) = false) : (faulted why ts).any p = false := by
  rw [List.any_eq_false]
  intro x hx
  obtain ⟨t, -, rfl⟩ := List.mem_map.mp hx
  simp [h]

theorem donesOf_faulted : State.donesOf (faulted why ts) = [] := by
  unfold State.donesOf faulted
  rw [List.filterMap_map]
  exact List.filterMap_eq_nil_iff.mpr fun _ _ => rfl

theorem writeBack_faulted (s : State) (c : Nat) : s.writeBack c (faulted why ts) = s := by
  have hw : State.allWrites (faulted why ts) = [] := by
    unfold State.allWrites faulted
    rw [List.flatMap_map]
    exact List.flatMap_eq_nil_iff.mpr fun _ _ => rfl
  unfold State.writeBack
  rw [hw]
  dsimp only
  rw [foldl_faulted why ts _ fun _ _ _ _ => rfl, foldl_faulted why ts _ fun _ _ _ _ => rfl]
  rfl

end Faulted

namespace State

/-! ## Where the threads of the group go -/

/-- Threads that are guarded off go on at the next instruction, or begin another run there, R31, R33. -/
theorem settle_guardedOff (e : Bool) (len : Nat) {s : State} {ts : List Nat}
    (hth : ∀ t ∈ ts, (s.threads.find? t).isSome = true ∧ s.goesOn t = true) :
    ts.foldl (fun s t => s.settleLane e len t Done.nothing) s = s.placeAll ts fun _ h => h.goOn e s.clock (h.pc + len) := by
  cases e with
  | true => exact settle_bystanders len hth
  | false =>
    clear hth
    induction ts generalizing s with
    | nil => rfl
    | cons t ts ih =>
      rw [List.foldl_cons, placeAll_cons, settleLane_ready _ _ _ _ _ rfl (fun h => absurd h (by decide)), ih]
      exact congrArg (fun s : State => s.placeAll ts _) (updThread_congr rfl)

/-- The slot of a group whose acting lanes have all faulted: given up at the end of a run, and where no lane is left, R33, R36. -/
def slotLeft (s : State) (q : Nat) (g : Group) (e : Bool) (gone : List Nat) : FMap Group :=
  let left := g.lanes &&& ~~~laneMask (gone.map laneOf)
  if e = true ∨ left = 0 then s.slots.erase q else s.slots.put q { g with lanes := left, held := false }

theorem find?_slotLeft (s : State) {q : Nat} {g : Group} (hg : s.slots.find? q = some g) (e : Bool) (gone : List Nat) (p : Nat) :
    (s.slotLeft q g e gone).find? p = if p = q then (s.slots.find? p).bind fun g =>
        let left := g.lanes &&& ~~~laneMask (gone.map laneOf)
        if e = true ∨ left = 0 then none else some { g with lanes := left, held := false }
      else s.slots.find? p := by
  unfold slotLeft
  dsimp only
  by_cases hp : p = q
  · subst hp
    rw [if_pos rfl, hg, Option.bind_some]
    split
    · rw [FMap.find?_erase, if_pos rfl]
    · rw [FMap.find?_put, if_pos rfl]
  · rw [if_neg hp]
    split
    · rw [FMap.find?_erase, if_neg hp]
    · rw [FMap.find?_put, if_neg hp]

theorem leaveSlot_faulted (s : State) (q : Nat) (g : Group) (e : Bool) (why : Nat → BitVec 32 × BitVec 32) {off ts : List Nat}
    (h : ∀ t ∈ ts, t ∉ off) : s.leaveSlot q g e false off (faulted why ts) = { s with slots := s.slotLeft q g e ts } := by
  have hleft : ((faulted why ts).filterMap fun tr => if off.contains tr.1 then none else some (laneOf tr.1)) = ts.map laneOf := by
    unfold faulted
    rw [List.filterMap_map]
    clear e
    induction ts with
    | nil => rfl
    | cons t ts ih =>
      rw [List.filterMap_cons, List.map_cons, ih fun u hu => h u (by simp [hu])]
      simp [h t (by simp)]
  unfold leaveSlot slotLeft
  rw [hleft]
  dsimp only
  cases e with
  | true => rfl
  | false =>
    simp only [Bool.false_eq_true, if_false, false_or]
    split <;> rfl

/-- Threads that trap one after the other, each with its own cause and TVAL. -/
theorem foldl_faultStep {s : State} (why : Nat → BitVec 32 × BitVec 32) (ts : List Nat) (hnd : ts.Nodup) (h : ∀ t ∈ ts, s.canTrap t = true) :
    (faulted why ts).foldl faultStep s =
      s.placeAll ts fun t h => h.trapped (s.pcOffset t h.pc) (why t).1 (why t).2 (s.handlerAt t) s.clock := by
  induction ts generalizing s with
  | nil => rfl
  | cons t ts ih =>
    obtain ⟨ht, hnd⟩ := List.nodup_cons.mp hnd
    have hone : s.faultStep (t, .fault (why t).1 (why t).2) =
        s.updThread t fun h => h.trapped (s.pcOffset t h.pc) (why t).1 (why t).2 (s.handlerAt t) s.clock :=
      (trapEntry_canTrap (h t (by simp)) _ _ _).trans (updThread_congr rfl)
    rw [faulted, List.map_cons, List.foldl_cons, hone, placeAll_cons]
    refine ih hnd fun u hu => ?_
    rw [canTrap_updThread _ fun e => ht (by rwa [← e])]
    exact h u (by simp [hu])

theorem canTrap_placeAll {s : State} {ts : List Nat} (f : Nat → Thread → Thread) {u : Nat} (hu : u ∉ ts) :
    (s.placeAll ts f).canTrap u = s.canTrap u := by
  induction ts generalizing s with
  | nil => rfl
  | cons t ts ih => rw [placeAll_cons, ih fun h => hu (by simp [h]), canTrap_updThread _ fun h => hu (by simp [h])]

end State

/-! ## The law of an instruction that faults -/

section Law

variable {s : State} {ct : Ctl} {len : Nat} {why : Nat → BitVec 32 × BitVec 32}

/-- The end of an instruction whose acting lanes have all faulted: those guarded off go on, the slot is left, and the others trap. -/
theorem finish_faulted_eq {g : Group} (len : Nat) (why : Nat → BitVec 32 × BitVec 32) (hs : s.whole = true) :
    s.finish s.cur g ct len (s.bystanders ct) (faulted why (s.actors ct)) =
      (faulted why (s.actors ct)).foldl State.faultStep { s with
        threads := (s.placeAll (s.bystanders ct) fun _ h => h.goOn ct.e s.clock (h.pc + len)).threads
        slots := s.slotLeft s.cur g ct.e (s.actors ct) } := by
  have hstay : State.stayers (s.bystanders ct) (faulted why (s.actors ct)) = s.bystanders ct := by
    unfold State.stayers; rw [donesOf_faulted]; exact List.append_nil _
  have hpark : State.anyPark (faulted why (s.actors ct)) = false := any_faulted why _ _ fun _ _ _ => rfl
  unfold State.finish
  dsimp only
  rw [writeBack_faulted, donesOf_faulted, foldl_faulted why _ State.endStep (fun _ _ _ _ => rfl),
    foldl_faulted why _ (State.parkStep g) (fun _ _ _ _ => rfl), List.foldl_nil,
    State.settle_guardedOff _ _ fun t ht => State.whole_thread hs (State.mem_bystanders.mp ht).1, hstay, hpark,
    State.leaveSlot_faulted _ _ _ _ why fun t ht hb => (State.mem_bystanders.mp hb).2 ht, State.placeAll_threads]
  rfl

/-- When all acting lanes of an instruction have faulted, each thread has trapped with what its lane raised, R36, R373. -/
theorem finish_faulted {g : Group} (hs : s.whole = true) (hg : s.slots.find? s.cur = some g) (hlen : ct.g = true → len = 4)
    (htrap : ∀ t ∈ s.actors ct, s.canTrap t = true) :
    TrappedAs s (s.finish s.cur g ct len (s.bystanders ct) (faulted why (s.actors ct))) (s.actors ct) ct why := by
  rw [finish_faulted_eq len why hs]
  have hgo : ∀ t ∈ s.bystanders ct, (s.threads.find? t).isSome = true :=
    fun t ht => (State.whole_thread hs (State.mem_bystanders.mp ht).1).1
  have hthread := State.thread_placeAll (s.bystanders_nodup ct) hgo fun _ h => h.goOn ct.e s.clock (h.pc + len)
  have hcan : ∀ t ∈ s.actors ct, (s.placeAll (s.bystanders ct) fun _ h => h.goOn ct.e s.clock (h.pc + len)).canTrap t = true :=
    fun t ht => (State.canTrap_placeAll _ fun hb => (State.mem_bystanders.mp hb).2 ht).trans (htrap t ht)
  rw [State.placeAll_threads] at hthread hcan
  generalize (s.placeAll (s.bystanders ct) fun _ h => h.goOn ct.e s.clock (h.pc + len)).threads = th at hthread hcan ⊢
  have hcan' : ∀ t ∈ s.actors ct, ({ s with threads := th, slots := s.slotLeft s.cur g ct.e (s.actors ct) } : State).canTrap t = true :=
    fun t ht => (State.canTrap_threads (s := { s with threads := th }) _ rfl).trans (hcan t ht)
  rw [State.foldl_faultStep why _ (s.actors_nodup ct) hcan', State.placeAll_threads]
  refine ⟨rfl, ⟨rfl, rfl⟩, fun u => ?_, State.find?_slotLeft s hg ct.e _⟩
  refine (State.thread_placeAll (s.actors_nodup ct) (fun t ht => (State.canTrap_iff.mp (hcan' t ht)).1) _ u).trans ?_
  have hu : ({ s with threads := th, slots := s.slotLeft s.cur g ct.e (s.actors ct) } : State).thread u = _ := hthread u
  rw [hu]
  by_cases ha : u ∈ s.actors ct
  · rw [if_pos ha, if_pos ha, if_neg fun hb => (State.mem_bystanders.mp hb).2 ha]
    rfl
  · rw [if_neg ha, if_neg ha]
    by_cases hm : u ∈ slotThreads s
    · have hb : u ∈ s.bystanders ct := State.mem_bystanders.mpr ⟨hm, ha⟩
      have hguard : ct.g = true := by
        have := (List.mem_filter.mp hb).2
        unfold State.guardedOff at this
        exact (Bool.and_eq_true_iff.mp this).1
      rw [if_pos hb, if_pos hm, hlen hguard]
    · rw [if_neg hm, if_neg fun hb => hm (State.mem_bystanders.mp hb).1]

/-- An instruction whose acting lanes all fault, in a state in which scratchpads alone may have changed. -/
theorem issue_faulted {s1 : State} {op : State → Nat → State × LaneRes} (hs : s.whole = true) (hlen : ct.g = true → len = 4)
    (honly : s1 = { s with spad := s1.spad, spadTag := s1.spadTag, spadPoison := s1.spadPoison })
    (hrun : State.runLanes op s (s.actors ct) = (s1, faulted why (s.actors ct))) (htrap : ∀ t ∈ s.actors ct, s1.canTrap t = true) :
    TrappedAs s1 (s.issue ct len op) (s.actors ct) ct why := by
  obtain ⟨g, hg⟩ := State.whole_slot hs
  have hissue : s.issue ct len op = s1.finish s.cur g ct len (s.bystanders ct) (faulted why (s.actors ct)) := by
    have hr : State.runLanes op s ((slotThreads s).filter fun t => !s.guardedOff t ct) = (s1, faulted why (s.actors ct)) := hrun
    unfold State.issue
    rw [hg]
    dsimp only
    rw [← slotThreads_eq hg, hr]
    dsimp only
    rw [any_faulted why _ _ fun _ _ _ => rfl]
    rfl
  rw [hissue]
  generalize s1.spad = m, s1.spadTag = tags, s1.spadPoison = poison at honly
  subst honly
  exact finish_faulted (s := { s with spad := m, spadTag := tags, spadPoison := poison }) hs hg hlen htrap

/-- An instruction whose acting lanes all fault and change nothing. -/
theorem issue_traps {op : State → Nat → State × LaneRes} (hs : s.whole = true) (hlen : ct.g = true → len = 4)
    (hop : ∀ t ∈ s.actors ct, s.canTrap t = true ∧ op s t = (s, .fault (why t).1 (why t).2)) :
    TrappedAs s (s.issue ct len op) (s.actors ct) ct why :=
  issue_faulted hs hlen rfl (runLanes_faulted fun t ht => (hop t ht).2) fun t ht => (hop t ht).1

end Law

end Sys2Proof.Machine

/-! SUPPORT. Reads and checks against the lists of checks of a form: the first check that fails is what the read raises, and where none
fails it gives its value (R36, R55, R58, R68, R175, R200, R303, R340, R395). -/

namespace Sys2Proof.Machine

/-! ## Lists of checks -/

theorem firstFailure_nil : firstFailure [] = none := rfl

theorem firstFailure_cons (c : Check) (cs : List Check) : firstFailure (c :: cs) = if c.1 then some c.2 else firstFailure cs := by
  unfold firstFailure
  rw [List.find?_cons]
  cases c.1 <;> rfl

theorem firstFailure_append (cs ds : List Check) : firstFailure (cs ++ ds) = (firstFailure cs).or (firstFailure ds) := by
  unfold firstFailure
  rw [List.find?_append]
  cases cs.find? (·.1) <;> rfl

/-- A read or check raises what the first failing check of `cs` raises, and gives `v` where none fails. -/
structure Checks {α : Type} (r : Rd α) (cs : List Check) (v : α) : Prop where
  raises : ∀ why, firstFailure cs = some why → r = .error (.fault why.1 why.2)
  passes : firstFailure cs = none → r = .ok v

/-- A lane operation changes nothing and faults where a check of `cs` fails. -/
def Stops (x : State × LaneRes) (s : State) (cs : List Check) : Prop :=
  ∀ why, firstFailure cs = some why → x = (s, .fault why.1 why.2)

namespace Checks

variable {α β : Type} {r : Rd α} {cs ds : List Check} {v : α} {f : α → Rd β}

theorem ok (v : α) : Checks (.ok v) [] v := ⟨fun _ h => (by cases h), fun _ => rfl⟩

/-- A check that passes. -/
theorem of_false {c : Bool} (hc : c = false) (why : BitVec 32 × BitVec 32) (v : α) : Checks (.ok v) [(c, why)] v := by
  subst hc
  exact ⟨fun _ h => (by cases h), fun _ => rfl⟩

/-- A check that fails. -/
theorem of_true {c : Bool} (hc : c = true) (cause tval : BitVec 32) (v : α) : Checks (fail cause tval) [(c, cause, tval)] v := by
  subst hc
  exact ⟨fun _ h => by cases h; rfl, fun h => nomatch h⟩

theorem failIf (c : Bool) (cause tval : BitVec 32) : Checks (failIf c cause tval) [(c, cause, tval)] () := by
  cases c
  · exact of_false rfl _ ()
  · exact of_true rfl _ _ ()

/-- A check that is made in other words. -/
theorem failIf_of {c c' : Bool} (h : c = c') (cause tval : BitVec 32) : Checks (Machine.failIf c cause tval) [(c', cause, tval)] () :=
  h ▸ failIf c cause tval

theorem bind {w : β} (h : Checks r cs v) (hf : Checks (f v) ds w) : Checks (r >>= f) (cs ++ ds) w := by
  constructor
  · intro why hw
    rw [firstFailure_append, Option.or_eq_some_iff] at hw
    rcases hw with hw | ⟨hn, hw⟩
    · rw [h.raises why hw]; rfl
    · rw [h.passes hn]; exact hf.raises why hw
  · intro hn
    rw [firstFailure_append, Option.or_eq_none_iff] at hn
    rw [h.passes hn.1]
    exact hf.passes hn.2

theorem raises_bind (h : Checks r cs v) {why : BitVec 32 × BitVec 32} (hw : firstFailure cs = some why) :
    (r >>= f) = .error (.fault why.1 why.2) := by
  rw [h.raises why hw]; rfl

/-- Nothing is checked after a read whose value is passed on. -/
theorem bind_ok {w : β} (h : Checks r cs v) (hf : f v = .ok w) : Checks (r >>= f) cs w := by
  have hb := h.bind (f := f) (ds := []) (hf ▸ Checks.ok w)
  rwa [List.append_nil] at hb

end Checks

theorem Stops.nil (x : State × LaneRes) (s : State) : Stops x s [] := fun _ h => nomatch h

section Bind

variable {α β : Type} {s : State} {t : Nat} {r : Rd α} {cs ds : List Check} {v : α}

/-- After a check that passes, a lane stops where what follows stops; `k` is how the outcome of the checks becomes that of the lane. -/
theorem Checks.stops (k : Rd β → State × LaneRes) (hk : ∀ e, k (.error e) = (s, e)) {f : α → Rd β} (h : Checks r cs v)
    (hf : Stops (k (f v)) s ds) : Stops (k (r >>= f)) s (cs ++ ds) := by
  intro why hw
  rw [firstFailure_append, Option.or_eq_some_iff] at hw
  rcases hw with hw | ⟨hn, hw⟩
  · rw [h.raises why hw]; exact hk _
  · rw [h.passes hn]; exact hf why hw

/-- The last check of a lane. -/
theorem Checks.stops_last (k : Rd β → State × LaneRes) (hk : ∀ e, k (.error e) = (s, e)) {f : α → Rd β} (h : Checks r cs v) :
    Stops (k (r >>= f)) s cs := by
  have hs := h.stops k hk (f := f) (Stops.nil _ s)
  rwa [List.append_nil] at hs

theorem Checks.stops_lastS {f : α → Rd (State × LaneRes)} (h : Checks r cs v) : Stops (State.laneS s (r >>= f)) s cs :=
  h.stops_last (State.laneS s) fun _ => rfl

theorem Checks.stops_lane {f : α → Rd LaneRes} (h : Checks r cs v) (hf : Stops (s, State.lane (f v)) s ds) :
    Stops (s, State.lane (r >>= f)) s (cs ++ ds) := h.stops (fun r => (s, State.lane r)) (fun _ => rfl) hf

theorem Checks.stops_laneS {f : α → Rd (State × LaneRes)} (h : Checks r cs v) (hf : Stops (State.laneS s (f v)) s ds) :
    Stops (State.laneS s (r >>= f)) s (cs ++ ds) := h.stops (State.laneS s) (fun _ => rfl) hf

theorem Checks.stops_flagLane {f : α → Rd (Done × BitVec 32)} (h : Checks r cs v) (hf : Stops (flagLane s t (f v)) s ds) :
    Stops (flagLane s t (r >>= f)) s (cs ++ ds) := h.stops (flagLane s t) (fun _ => rfl) hf

theorem Checks.stops_predLane {p : BitVec 4} {m : BitVec 2} {f : α → Rd (Bool × BitVec 32)} (h : Checks r cs v)
    (hf : Stops (predLane p m s t (f v)) s ds) : Stops (predLane p m s t (r >>= f)) s (cs ++ ds) := h.stops (predLane p m s t) (fun _ => rfl) hf

end Bind

/-! ## Register sources, R55, R58, R102 -/

theorem sourceChecks_append (s : State) (t : Nat) (xs ys : List (Nat × (BitVec 4 → Bool))) :
    sourceChecks s t (xs ++ ys) = sourceChecks s t xs ++ sourceChecks s t ys := List.flatMap_append

theorem sourceChecks_cons (s : State) (t : Nat) (x : Nat × (BitVec 4 → Bool)) (xs : List (Nat × (BitVec 4 → Bool))) :
    sourceChecks s t (x :: xs) = sourceChecks s t [x] ++ sourceChecks s t xs := sourceChecks_append s t [x] xs

namespace Checks

variable (s : State) (t : Nat)

theorem readSrc (v : Nat) (acc : BitVec 4 → Bool) : Checks (s.readSrc t v acc) (sourceChecks s t [(v, acc)]) (s.reg t v) := by
  have hread : s.readSrc t v acc = (Machine.failIf ((s.tagOf t v).1 == 15) Cause.poison (regNo v) >>= fun _ =>
      Machine.failIf (!acc (s.fmtOf t v)) Cause.format (regNo v) >>= fun _ => .ok (s.reg t v)) := by
    unfold State.readSrc Machine.failIf
    simp only [beq_iff_eq]
    split
    · rfl
    · cases acc (s.fmtOf t v) <;> rfl
  rw [hread]
  exact (failIf _ _ _).bind ((failIf _ _ _).bind_ok rfl)

theorem readPair (v : Nat) (acc : BitVec 4 → Bool) :
    Checks (s.readPair t v acc) (sourceChecks s t [(v, acc), (v + 1, acc)]) (s.reg t (v + 1) ++ s.reg t v) :=
  (readSrc s t v acc).bind ((readSrc s t (v + 1) acc).bind_ok rfl)

theorem readGroup (acc : BitVec 4 → Bool) (n v : Nat) :
    Checks (s.readGroup t acc v n) (sourceChecks s t ((span v n).map fun v => (v, acc))) ((span v n).map (s.reg t)) := by
  induction n generalizing v with
  | zero => exact ok _
  | succ n ih => exact (readSrc s t v acc).bind ((ih (v + 1)).bind_ok rfl)

/-- Registers that are listed one after the other. -/
theorem readListed (acc : BitVec 4 → Bool) {v : Nat} {vs : List Nat} (h : vs = span v vs.length) :
    Checks (s.readGroup t acc v vs.length) (sourceChecks s t (vs.map fun v => (v, acc))) (vs.map (s.reg t)) := by
  have hread := readGroup s t acc vs.length v
  rwa [← h] at hread

theorem widthCheck (vs : List Nat) : Checks (widthCheck vs) (pairChecks vs) () := by
  induction vs with
  | nil => exact ok _
  | cons v vs ih =>
    have hstep : Machine.widthCheck (v :: vs) = (Machine.failIf (v % 2 == 1) Cause.format (regNo v) >>= fun _ => Machine.widthCheck vs) := by
      rw [Machine.widthCheck, Machine.failIf]
      simp only [beq_iff_eq]
      split <;> rfl
    rw [hstep]
    exact (failIf _ _ _).bind ih

/-! ## Capabilities, scopes, kernel mode, R68, R175, R200, R340, R395 -/

theorem capPoison (k : Nat) : Checks (s.capPoison t k) (groupChecks s t k) () := by
  have hfirst : firstFailure (groupChecks s t k) =
      ((span (4 * k) 4).find? fun v => (s.tagOf t v).1 == 15).map fun v => (Cause.poison, regNo v) := by
    unfold firstFailure groupChecks
    rw [List.find?_map, Option.map_map]
    rfl
  unfold State.capPoison
  constructor
  · intro why hw
    rw [hfirst, Option.map_eq_some_iff] at hw
    obtain ⟨v, hv, rfl⟩ := hw
    rw [hv]; rfl
  · intro hn
    rw [hfirst, Option.map_eq_none_iff] at hn
    rw [hn]

theorem not_inBounds (c : Cap) (ea : Int) (n : Nat) : (!s.inBounds t c ea n) =
    (decide (ea < c.base) || decide ((c.top : Int) < ea + n) || (c.kind == 1 && !s.allocated (gangOf t) ea.toNat n)) := by
  simp only [State.inBounds, Bool.not_and, Bool.not_or, ← decide_not, Int.not_le, bne, Bool.not_not]

theorem capChecks (k : Nat) (kind : Nat → Bool) (perm : Cap → Bool) (ea : Int) (n align : Nat) :
    Checks (s.capChecks t k kind perm ea n align (State.addrNo ea)) (capabilityChecks s t k kind perm ea n align) () := by
  unfold capabilityChecks
  dsimp only
  rw [← not_inBounds]
  exact (failIf _ _ _).bind ((failIf _ _ _).bind ((failIf _ _ _).bind ((failIf _ _ _).bind (failIf _ _ _))))

theorem plainAccess (k : Nat) (off : Int) (size : Nat) (perm : Cap → Bool) :
    Checks (s.plainAccess t k off size perm) (capabilityChecks s t k State.memKind perm (s.effAddr t k off) size size) (s.effAddr t k off) :=
  (capChecks s t k State.memKind perm _ size size).bind_ok rfl

theorem scopeCheck (o : BitVec 3) (word : BitVec 32) : Checks (s.scopeCheck t o word) (scopeChecks s t o word) () := failIf _ _ _

theorem kernelCheck (word : BitVec 32) : Checks (s.kernelCheck t word) (kernelChecks s t word) () := failIf _ _ _

theorem serviceRef (k : Nat) (word : BitVec 32) (perm : Cap → Bool) (n align : Nat) :
    Checks (s.serviceRef t k word perm n align) (serviceChecks s t k word perm n align) (s.effAddr t k 0).toNat := by
  unfold serviceChecks
  rw [List.append_assoc]
  exact (kernelCheck s t word).bind ((capPoison s t k).bind ((capChecks s t k _ perm _ n align).bind_ok rfl))

/-- `ObjRef`, R340, with the checks of its sources. -/
theorem objRef {α : Type} {r : Rd α} {cs : List Check} {v : α} (k size : Nat) (h : Checks r cs v) :
    Checks (s.objRef t k size r)
      (groupChecks s t k ++ cs ++ capabilityChecks s t k (· == 1) (fun c => c.r && c.w) (s.effAddr t k 0) size 16) (objAddr s t k, v) := by
  rw [List.append_assoc]
  exact (capPoison s t k).bind (h.bind ((capChecks s t k _ _ _ size 16).bind_ok rfl))

/-! ## Rows, R303 -/

theorem rowCheck_of_rowChecks {s : State} {t : Nat} {vs : List Nat} {why : BitVec 32 × BitVec 32}
    (h : firstFailure (rowChecks s t vs) = some why) : s.rowCheck t vs = some (.fault why.1 why.2) := by
  unfold rowChecks at h
  unfold State.rowCheck
  dsimp only
  split at h
  next => cases h
  next v _ hv => rw [hv]; cases h; rfl

end Checks

theorem finishLane_of_rowChecks {s : State} {t : Nat} {d : Done} {why : BitVec 32 × BitVec 32}
    (h : firstFailure (rowChecks s t (d.writes.map (·.1))) = some why) : s.finishLane t d = .fault why.1 why.2 := by
  unfold State.finishLane
  rw [Checks.rowCheck_of_rowChecks h]

section Rows

variable (s : State) (t : Nat) (d : Done)

theorem stops_finishLane : Stops (s, s.finishLane t d) s (rowChecks s t (d.writes.map (·.1))) :=
  fun _ h => by rw [finishLane_of_rowChecks h]

theorem stops_flagLane (fl : BitVec 32) : Stops (flagLane s t (.ok (d, fl))) s (rowChecks s t (d.writes.map (·.1))) := by
  intro why h
  unfold flagLane
  dsimp only
  rw [finishLane_of_rowChecks h]

theorem stops_rowsFor (vs : List Nat) (f : Unit → Rd (State × LaneRes)) : Stops (State.laneS s (s.rowsFor t vs >>= f)) s (rowChecks s t vs) := by
  intro why h
  unfold State.rowsFor
  rw [Checks.rowCheck_of_rowChecks h]
  rfl

end Rows

end Sys2Proof.Machine

/-! SUPPORT. Each form of an instruction is carried out by a lane operation that stops at the first of the form's checks that fails. -/

namespace Sys2Proof.Machine

/-- An instruction executes a form, and each of its lanes changes nothing and faults at the first check of the form that fails. -/
def Form.StopsOn (f : Form) (i : Instr) : Prop :=
  ∃ op, (∀ s, exec i s = .next (s.issue f.ct f.len op)) ∧ (f.ct.g = true → f.len = 4) ∧ ∀ s t, Stops (op s t) s (f.checks s t)

/-- A 16-bit form has no guard, R26. -/
theorem ctl16_unguarded {e : Bool} {len : Nat} (h : (State.ctl16 e).g = true) : len = 4 := absurd h Bool.false_ne_true

/-! ## Integer forms, R61 to R66 -/

section Integer

variable {i : Instr} {acc : BitVec 4 → Bool} {fmt : BitVec 4} {d a b : BitVec 5} {l : Bool} {ct : Ctl} {len : Nat}

theorem alu1_stopsOn {g g' : BitVec 32 → BitVec 32} (h : ∀ s, exec i s = .next (alu1 acc fmt g' d a l ct len s))
    (hlen : ct.g = true → len = 4) : (Form.one acc fmt g d a l ct len).StopsOn i :=
  ⟨_, h, hlen, fun s t => (Checks.readSrc s t a.toNat acc).stops_lane (stops_finishLane s t _)⟩

theorem alu2_stopsOn {g g' : BitVec 32 → BitVec 32 → BitVec 32} (h : ∀ s, exec i s = .next (alu2 acc fmt g' d a b l ct len s))
    (hlen : ct.g = true → len = 4) : (Form.two acc fmt g d a b l ct len).StopsOn i :=
  ⟨_, h, hlen, fun s t => (Checks.readSrc s t a.toNat acc).stops_lane ((Checks.readSrc s t b.toNat acc).stops_lane (stops_finishLane s t _))⟩

theorem alu3_stopsOn {g g' : BitVec 32 → BitVec 32 → BitVec 32 → BitVec 32} (h : ∀ s, exec i s = .next (alu3 acc fmt g' d a b l ct s)) :
    (Form.three acc fmt g d a b l ct).StopsOn i :=
  ⟨_, h, fun _ => rfl, fun s t => (Checks.readSrc s t a.toNat acc).stops_lane ((Checks.readSrc s t b.toNat acc).stops_lane
    ((Checks.readSrc s t d.toNat acc).stops_lane (stops_finishLane s t _)))⟩

end Integer

theorem integerForm_stopsOn {i : Instr} {f : Form} (h : integerForm i = some f) : f.StopsOn i := by
  cases i with
  | popc | clz | brev | addi | andi | ori | xori | shli | shri | srai | muli | movhi => cases h; exact alu1_stopsOn (fun _ => rfl) fun _ => rfl
  | addi16 => cases h; exact alu1_stopsOn (fun _ => rfl) ctl16_unguarded
  | add | sub | mul | mulh | mulhu | min | max | minu | maxu | and | or | xor | andn | shl | shr | sra | rotl | adds | subs | absd | bfx =>
    cases h; exact alu2_stopsOn (fun _ => rfl) fun _ => rfl
  | add16 | sub16 | and16 | or16 | xor16 | shl16 | shr16 | sra16 | mul16 =>
    cases h; exact alu2_stopsOn (fun _ => rfl) ctl16_unguarded
  | mad | bfi => cases h; exact alu3_stopsOn fun _ => rfl
  | movi => cases h; exact ⟨_, fun _ => rfl, fun _ => rfl, fun s t => stops_finishLane s t _⟩
  | _ => cases h

end Sys2Proof.Machine

/-! SUPPORT. The forms of moves, floating point, predicates, flow and capabilities stop at the first of their checks that fails. -/

namespace Sys2Proof.Machine

/-! ## Moves, tags and special registers, R61 to R63, R82 to R86, R161, R336 -/

/-- Lane `j` of a thread's crew executes with the thread where it is one of the group's threads, R62. -/
theorem inGroup_eq (s : State) (t : Nat) {j : Nat} (hj : j < 32) : inGroup s t j = (slotThreads s).contains (crewOf t * 32 + j) := by
  cases hg : s.slots.find? s.cur with
  | none => simp [inGroup, slotThreads, hg]
  | some g =>
    have hmem : crewOf t * 32 + j ∈ (State.lanesOf g).map (fun l => g.crew * 32 + l) ↔ g.crew = crewOf t ∧ g.lanes.getLsbD j = true := by
      rw [List.mem_map]
      constructor
      · rintro ⟨l, hl, he⟩
        have hl32 := lanesOf_lt hl
        obtain ⟨hc, rfl⟩ : g.crew = crewOf t ∧ l = j := by omega
        exact ⟨hc, (List.mem_filter.mp hl).2⟩
      · rintro ⟨hc, hl⟩
        exact ⟨j, List.mem_filter.mpr ⟨mem_span.mpr ⟨Nat.zero_le j, by omega⟩, hl⟩, by rw [hc]⟩
    rw [slotThreads_eq hg, Bool.eq_iff_iff, List.contains_iff_mem, hmem, inGroup, hg]
    simp

section Move

variable {i : Instr} {d a b : BitVec 5} {l : Bool} {ct : Ctl} {len : Nat}

theorem movReg_stopsOn (h : ∀ s, exec i s = .next (movReg d a l ct len s)) (hlen : ct.g = true → len = 4) :
    (Form.copyReg d a l ct len).StopsOn i :=
  ⟨_, h, hlen, fun s t => (Checks.readSrc s t a.toNat Acc.any).stops_lane (stops_finishLane s t _)⟩

/-- An instruction that reads nothing and writes registers. -/
theorem noSource_stopsOn {done : State → Nat → Done} {writes : State → Nat → List (Nat × BitVec 32 × BitVec 4 × BitVec 7)}
    (h : ∀ s, exec i s = .next (s.issue ct 4 (State.pureLane fun s t => s.finishLane t (done s t))))
    (hw : ∀ s t, (done s t).writes.map (·.1) = (writes s t).map (·.1)) : (Form.regs ct 4 [] false writes).StopsOn i := by
  refine ⟨_, h, fun _ => rfl, fun s t => ?_⟩
  have hs := stops_finishLane s t (done s t)
  rw [hw] at hs
  exact hs

theorem shfl_stops (d a b : Nat) (l : Bool) (s : State) (t : Nat) :
    Stops (s, State.lane (shflLane d a b l s t)) s (sourceChecks s t [(b, Acc.any)] ++
      ([(shflTakes s t a b && (s.row (crewOf t) a).fmt == 15, Cause.poison, BitVec.ofNat 32 a)] ++ rowChecks s t [d])) := by
  have htakes : (inGroup s t ((s.reg t b).toNat % 32) && liveOrPending s (crewOf t * 32 + (s.reg t b).toNat % 32) a) = shflTakes s t a b := by
    rw [inGroup_eq s t (Nat.mod_lt _ (by decide))]; rfl
  refine (Checks.readSrc s t b Acc.any).stops_lane ?_
  rw [← htakes]
  exact (Checks.failIf _ _ _).stops_lane (stops_finishLane s t _)

theorem rdsr_stopsOn (d : BitVec 5) (x : BitVec 8) (ct : Ctl) {f : Form} (h : moveForm (.rdsr d x ct) = some f) : f.StopsOn (.rdsr d x ct) := by
  cases h
  refine ⟨_, fun _ => rfl, fun _ => rfl, fun s t why hw => ?_⟩
  rw [finishLane_of_rowChecks (d := oneReg d.toNat (sreg s t x.toNat) 1 0 false []) hw]

end Move

theorem moveForm_stopsOn {i : Instr} {f : Form} (h : moveForm i = some f) : f.StopsOn i := by
  cases i with
  | mov => cases h; exact movReg_stopsOn (fun _ => rfl) fun _ => rfl
  | mov16 => cases h; exact movReg_stopsOn (fun _ => rfl) ctl16_unguarded
  | shfl => cases h; exact ⟨_, fun _ => rfl, fun _ => rfl, fun s t => shfl_stops _ _ _ _ s t⟩
  | ballot | tag =>
    cases h
    exact ⟨_, fun _ => rfl, fun _ => rfl, fun s t => (Checks.readSrc s t _ Acc.any).stops_lane (stops_finishLane s t _)⟩
  | tagrd | pstat | rpos => cases h; exact noSource_stopsOn (fun _ => rfl) fun _ _ => rfl
  | rdsr d x ct => exact rdsr_stopsOn d x ct h
  | wrsr a x ct =>
    cases h
    exact ⟨_, fun _ => rfl, fun _ => rfl, fun s t => (Checks.failIf _ _ _).stops_laneS
      (Checks.readSrc s t a.toNat Acc.any).stops_lastS⟩
  | _ => cases h

/-! ## Floating point, R113 to R122 -/

/-- A read that is made only where an operand is used; what is checked afterwards does not depend on its value. -/
theorem stops_optional {α : Type} {s : State} {t : Nat} {r : Rd α} {cs ds : List Check} {v w : α} {f : α → Rd (Done × BitVec 32)}
    (use : Bool) (h : use = true → Checks r cs v) (hf : ∀ x, Stops (flagLane s t (f x)) s ds) :
    Stops (flagLane s t (if use then r >>= f else .ok w >>= f)) s ((if use then cs else []) ++ ds) := by
  cases use
  · exact hf w
  · exact (h rfl).stops_flagLane (hf v)

section Float

variable {i : Instr} {d a b : BitVec 5} {l : Bool} {ct : Ctl} {len : Nat}

theorem f32_stopsOn (op : FOp) (useS useD : Bool) (h : ∀ s, exec i s = .next (fExec op useS useD d a b l ct len s))
    (hlen : ct.g = true → len = 4) : (Form.f32 op useS useD d a b l ct len).StopsOn i := by
  refine ⟨_, h, hlen, fun s t => ?_⟩
  have hchecks : (Form.f32 op useS useD d a b l ct len).checks s t = sourceChecks s t [(a.toNat, Acc.f32)] ++
      ((if useS then sourceChecks s t [(b.toNat, Acc.f32)] else []) ++ ((if useD then sourceChecks s t [(d.toNat, Acc.f32)] else []) ++
        rowChecks s t [d.toNat])) := by
    cases useS <;> cases useD <;> rfl
  rw [hchecks]
  exact (Checks.readSrc s t a.toNat Acc.f32).stops_flagLane (stops_optional useS (fun _ => Checks.readSrc s t b.toNat Acc.f32)
    fun _ => stops_optional useD (fun _ => Checks.readSrc s t d.toNat Acc.f32) fun _ => stops_flagLane s t _ _)

theorem f64_stopsOn (op : FOp) (useS useD : Bool) (h : ∀ s, exec i s = .next (dExec op useS useD d a b l ct s)) :
    (Form.f64 op useS useD d a b l ct).StopsOn i := by
  refine ⟨_, h, fun _ => rfl, fun s t => ?_⟩
  have hchecks : (Form.f64 op useS useD d a b l ct).checks s t = sourceChecks s t [(a.toNat, Acc.f64), (a.toNat + 1, Acc.f64)] ++
      ((if useS then sourceChecks s t [(b.toNat, Acc.f64), (b.toNat + 1, Acc.f64)] else []) ++
        ((if useD then sourceChecks s t [(d.toNat, Acc.f64), (d.toNat + 1, Acc.f64)] else []) ++ rowChecks s t [d.toNat, d.toNat + 1])) := by
    cases useS <;> cases useD <;> rfl
  rw [hchecks]
  exact (Checks.readPair s t a.toNat Acc.f64).stops_flagLane (stops_optional useS (fun _ => Checks.readPair s t b.toNat Acc.f64)
    fun _ => stops_optional useD (fun _ => Checks.readPair s t d.toNat Acc.f64) fun _ => stops_flagLane s t _ _)

/-- A packed source checked against the format `p` of the form: the sources before it agree on `sofar`, R96. -/
theorem Checks.readPacked (s : State) (t v : Nat) {sofar : Option (BitVec 4)} {p : BitVec 4}
    (hp : s.fmtOf t v ≠ 0 → sofar.getD (s.fmtOf t v) = p) :
    Checks (readPacked s t v sofar)
      (sourceChecks s t [(v, Acc.packed)] ++ [(s.fmtOf t v != 0 && s.fmtOf t v != p, Cause.format, BitVec.ofNat 32 v)])
      (s.reg t v, if s.fmtOf t v = 0 then sofar else some p) := by
  refine (Checks.readSrc s t v Acc.packed).bind ?_
  by_cases hraw : s.fmtOf t v = 0
  · rw [if_pos hraw, if_pos hraw]
    exact .of_false (by rw [hraw]; rfl) _ _
  · rw [if_neg hraw, if_neg hraw]
    cases sofar with
    | none =>
      have hagree : s.fmtOf t v = p := hp hraw
      rw [hagree]
      exact .of_false (by simp) _ _
    | some g =>
      obtain rfl : g = p := hp hraw
      dsimp only
      by_cases hg : s.fmtOf t v = g
      · rw [if_pos hg]
        exact .of_false (by simp [hg]) _ _
      · rw [if_neg hg]
        exact .of_true (by simpa [hg] using hraw) _ _ _

theorem packedFmt_cons (s : State) (t v : Nat) (vs : List Nat) :
    packedFmt s t (v :: vs) = if s.fmtOf t v = 0 then packedFmt s t vs else s.fmtOf t v := by
  unfold packedFmt
  rw [List.map_cons, List.find?_cons]
  by_cases h : s.fmtOf t v = 0
  · rw [h]; rfl
  · rw [if_neg h, (by simpa using h : (s.fmtOf t v != 0) = true)]; rfl

/-- The checks of one packed source. -/
def packedChecks (s : State) (t : Nat) (p : BitVec 4) (v : Nat) : List Check :=
  sourceChecks s t [(v, Acc.packed)] ++ [(s.fmtOf t v != 0 && s.fmtOf t v != p, Cause.format, BitVec.ofNat 32 v)]

theorem packed_stops (op : FOp) (useD : Bool) (d a b : Nat) (l : Bool) (s : State) (t : Nat) :
    let p := packedFmt s t ([a, b] ++ (if useD then [d] else []))
    Stops (flagLane s t (packedForm op useD d a b l s t)) s (packedChecks s t p a ++ (packedChecks s t p b ++
      ((if useD then packedChecks s t p d else []) ++ rowChecks s t [d]))) := by
  intro p
  have hp : p = if s.fmtOf t a = 0 then if s.fmtOf t b = 0 then packedFmt s t (if useD then [d] else []) else s.fmtOf t b else s.fmtOf t a := by
    rw [← packedFmt_cons, ← packedFmt_cons]; rfl
  refine (Checks.readPacked s t a (p := p) fun h => ?first).stops_flagLane ((Checks.readPacked s t b (p := p) fun h => ?second).stops_flagLane
    (stops_optional useD (fun hD => Checks.readPacked s t d (p := p) fun h => ?third) fun _ => stops_flagLane s t _ _))
  case first => rw [hp, if_neg h]; rfl
  case second =>
    by_cases ha : s.fmtOf t a = 0
    · rw [hp, if_pos ha, if_pos ha, if_neg h]; rfl
    · rw [if_neg ha]; rfl
  case third =>
    by_cases hb : s.fmtOf t b = 0
    · by_cases ha : s.fmtOf t a = 0
      · rw [hp, hD, if_pos rfl, packedFmt_cons, if_pos ha, if_pos hb, if_pos hb, if_pos ha, if_neg h]; rfl
      · rw [if_pos hb, if_neg ha]; rfl
    · rw [if_neg hb]; rfl

theorem packed_stopsOn (op : FOp) (useD : Bool) (h : ∀ s, exec i s = .next (hExec op useD d a b l ct s)) :
    (Form.packed op useD d a b l ct).StopsOn i := by
  refine ⟨_, h, fun _ => rfl, fun s t => ?_⟩
  have hs := packed_stops op useD d.toNat a.toNat b.toNat l s t
  cases useD <;> exact hs

end Float

theorem floatForm_stopsOn {i : Instr} {f : Form} (h : floatForm i = some f) : f.StopsOn i := by
  cases i with
  | fadd | fsub | fmul | ffma | fmin | fmax | fdiv | fsqrt => cases h; exact f32_stopsOn _ _ _ (fun _ => rfl) fun _ => rfl
  | fadd16 | fsub16 | fmul16 | fmin16 | fmax16 => cases h; exact f32_stopsOn _ _ _ (fun _ => rfl) ctl16_unguarded
  | dadd | dsub | dmul | dfma | dmin | dmax | ddiv | dsqrt => cases h; exact f64_stopsOn _ _ _ fun _ => rfl
  | hadd | hsub | hmul | hfma | hmin | hmax => cases h; exact packed_stopsOn _ _ fun _ => rfl
  | _ => cases h

/-! ## Sign, rounding, conversion and L6 forms, R116 to R122 -/

theorem signForm_stops (g : Bool → Bool) (d a : BitVec 5) (l : Bool) (ct : Ctl) (s : State) (t : Nat) :
    Stops (s, State.lane (signForm g d.toNat a.toNat l s t)) s ((Form.sign g d a l ct).checks s t) := by
  refine (Checks.readSrc s t a.toNat _).stops_lane ?_
  dsimp only
  by_cases hwide : s.fmtOf t a.toNat = 3
  · rw [if_pos hwide, if_pos (beq_iff_eq.mpr hwide)]
    exact (Checks.widthCheck _).stops_lane ((Checks.readSrc s t (a.toNat + 1) Acc.f64).stops_lane (stops_finishLane s t _))
  · rw [if_neg hwide, if_neg (mt beq_iff_eq.mp hwide)]
    split <;> exact stops_finishLane s t _

/-- An `fcvt` raises what its sources raise first, whatever its selector, R119. -/
theorem cvtForm_raises (sel d a : Nat) (s : State) (t : Nat) {why : BitVec 32 × BitVec 32}
    (h : firstFailure (sourceChecks s t (cvtSources sel a)) = some why) : cvtForm sel d a s t = .error (.fault why.1 why.2) :=
  match sel, h with
  | 0, h | 1, h | 2, h | 3, h | 5, h | 6, h | 8, h | 9, h | 10, h | 11, h | 18, h | 19, h | 21, h => (Checks.readSrc s t a _).raises_bind h
  | 4, h | 7, h => (Checks.readPair s t a _).raises_bind h
  | 12, h | 13, h => (Checks.readGroup s t _ 2 a).raises_bind h
  | 14, h | 15, h | 16, h | 17, h | 22, h => (Checks.readGroup s t _ 4 a).raises_bind h
  | 20, h => (Checks.readGroup s t _ 5 a).raises_bind h
  | _ + 23, h => (Checks.readSrc s t a _).raises_bind h

theorem fcvt_stops (sel d a : Nat) (l : Bool) (s : State) (t : Nat) : Stops (flagLane s t do
      let (ws, srcs, fl) ← cvtForm sel d a s t
      .ok (⟨ws, [], if l then srcs else [], none, .ready⟩, fl)) s (sourceChecks s t (cvtSources sel a)) := by
  intro why h
  rw [cvtForm_raises sel d a s t h]
  rfl

theorem convertForm_stopsOn {i : Instr} {f : Form} (h : convertForm i = some f) : f.StopsOn i := by
  cases i with
  | fcpys => cases h; exact alu2_stopsOn (fun _ => rfl) fun _ => rfl
  | fclass => cases h; exact alu1_stopsOn (fun _ => rfl) fun _ => rfl
  | fneg | fabs => cases h; exact ⟨_, fun _ => rfl, fun _ => rfl, signForm_stops _ _ _ _ _⟩
  | frnd => cases h; exact ⟨_, fun _ => rfl, fun _ => rfl, fun s t => (Checks.readSrc s t _ _).stops_flagLane (stops_flagLane s t _ _)⟩
  | fcvt => cases h; exact ⟨_, fun _ => rfl, fun _ => rfl, fcvt_stops _ _ _ _⟩
  | lmul => cases h; exact ⟨_, fun _ => rfl, fun _ => rfl, fun s t => (Checks.readSrc s t _ _).stops_flagLane
      ((Checks.readSrc s t _ _).stops_flagLane ((Checks.failIf _ _ _).stops_flagLane (stops_flagLane s t _ _)))⟩
  | ldot => cases h; exact ⟨_, fun _ => rfl, fun _ => rfl, fun s t => (Checks.readSrc s t _ _).stops_flagLane
      ((Checks.readSrc s t _ _).stops_flagLane ((Checks.readSrc s t _ _).stops_flagLane (stops_flagLane s t _ _)))⟩
  | _ => cases h

/-! ## Predicates, R74 to R76, R124, R188 -/

section Predicate

variable {i : Instr} {p : BitVec 4} {a b : BitVec 5} {m : BitVec 2} {ct : Ctl}

theorem compare_stopsOn {acc : BitVec 4 → Bool} {g g' : BitVec 32 → BitVec 32 → Bool}
    (h : ∀ s, exec i s = .next (cmpExec acc g' p a b m ct s)) : (Form.compare acc g p a b m ct).StopsOn i :=
  ⟨_, h, fun _ => rfl, fun s t => (Checks.readSrc s t a.toNat acc).stops_predLane ((Checks.readSrc s t b.toNat acc).stops_predLane (.nil _ s))⟩

theorem Checks.fcmpOperands (s : State) (t a b : Nat) : ∃ v, Checks (fcmpOperands s t a b)
    (sourceChecks s t [(a, fun f => f == 0 || f == 2 || f == 3)] ++
      if s.fmtOf t a = 3 then pairChecks [a, b] ++ sourceChecks s t [(a + 1, Acc.f64), (b, Acc.f64), (b + 1, Acc.f64)]
      else sourceChecks s t [(b, Acc.f32)]) v := by
  by_cases hwide : s.fmtOf t a = 3
  · rw [if_pos hwide]
    refine ⟨(f64.dec (s.reg t (a + 1) ++ s.reg t a).toNat, f64.dec (s.reg t (b + 1) ++ s.reg t b).toNat), (Checks.readSrc s t a _).bind ?_⟩
    rw [if_pos hwide]
    exact (Checks.widthCheck [a, b]).bind ((Checks.readSrc s t (a + 1) Acc.f64).bind ((Checks.readPair s t b Acc.f64).bind_ok rfl))
  · rw [if_neg hwide]
    refine ⟨(f32.dec (s.reg t a).toNat, f32.dec (s.reg t b).toNat), (Checks.readSrc s t a _).bind ?_⟩
    rw [if_neg hwide]
    exact (Checks.readSrc s t b Acc.f32).bind_ok rfl

theorem fcompare_stopsOn {quiet : Bool} {g g' : Val → Val → Bool} (h : ∀ s, exec i s = .next (fcmpExec quiet g' p a b m ct s)) :
    (Form.fcompare quiet g p a b m ct).StopsOn i := by
  refine ⟨_, h, fun _ => rfl, fun s t => ?_⟩
  obtain ⟨v, hv⟩ := Checks.fcmpOperands s t a.toNat b.toNat
  exact hv.stops_last (predLane p m s t) fun _ => rfl

end Predicate

theorem pmov_stopsOn (v : BitVec 5) (r : Bool) (ct : Ctl) {f : Form} (h : predicateForm (.pmov v r ct) = some f) : f.StopsOn (.pmov v r ct) := by
  cases h
  cases r with
  | true => exact ⟨_, fun _ => rfl, fun _ => rfl, fun s t => (Checks.readSrc s t v.toNat Acc.any).stops_lastS⟩
  | false => exact ⟨_, fun _ => rfl, fun _ => rfl, fun s t => stops_finishLane s t _⟩

theorem ctst_stopsOn (p : BitVec 4) (c : BitVec 3) (v : BitVec 5) (k : BitVec 4) (ct : Ctl) {f : Form}
    (h : predicateForm (.ctst p c v k ct) = some f) : f.StopsOn (.ctst p c v k ct) := by
  cases h
  refine ⟨_, fun _ => rfl, fun _ => rfl, fun s t => (Checks.capPoison s t c.toNat).stops_laneS ?_⟩
  by_cases hlen : k = 1 ∨ k = 2
  · rw [if_pos hlen, if_pos hlen]
    exact (Checks.readSrc s t v.toNat Acc.int).stops_lastS
  · rw [if_neg hlen, if_neg hlen]
    exact .nil _ s

theorem predicateForm_stopsOn {i : Instr} {f : Form} (h : predicateForm i = some f) : f.StopsOn i := by
  cases i with
  | cmpeq | cmpne | cmplt | cmple | cmpltu | cmpleu => cases h; exact compare_stopsOn fun _ => rfl
  | fcmpeq | fcmplt | fcmple | fcmpun => cases h; exact fcompare_stopsOn fun _ => rfl
  | pset => cases h; exact ⟨_, fun _ => rfl, fun _ => rfl, fun s _ => .nil _ s⟩
  | pmov v r ct => exact pmov_stopsOn v r ct h
  | ctst p c v k ct => exact ctst_stopsOn p c v k ct h
  | _ => cases h

/-! ## Control transfer, R77 to R81, R375, R396, R400 -/

theorem flowForm_stopsOn {i : Instr} {f : Form} (h : flowForm i = some f) : f.StopsOn i := by
  cases i with
  | bra => cases h; exact ⟨_, fun _ => rfl, fun _ => rfl, fun s t => (Checks.failIf _ _ _).stops_lane (.nil _ s)⟩
  | call => cases h; exact ⟨_, fun _ => rfl, fun _ => rfl, fun s t => (Checks.failIf _ _ _).stops_lane (stops_finishLane s t _)⟩
  | jmpr => cases h; exact ⟨_, fun _ => rfl, fun _ => rfl, fun s t => (Checks.readSrc s t _ Acc.any).stops_lane
      ((Checks.failIf _ _ _).stops_lane ((Checks.failIf _ _ _).stops_lane (.nil _ s)))⟩
  | nop | tret | halt => cases h; exact ⟨_, fun _ => rfl, fun _ => rfl, fun s _ => .nil _ s⟩
  | _ => cases h

/-! ## Capabilities, R185 to R187 -/

/-- The rows of a derived capability, R185, R303. -/
theorem stops_writeCap (s : State) (t : Nat) (d : BitVec 3) (q : BitVec 128) (ok : Bool) :
    Stops (s, writeCap s t d.toNat q ok) s (rowChecks s t (span (4 * d.toNat) 4)) := stops_finishLane s t _

theorem inexact_eq (x : Bool) (m n : Nat) : (x && decide (m ≠ n)) = (x && m != n) := by
  by_cases h : m = n <;> simp [h]

theorem capabilityForm_stopsOn {i : Instr} {f : Form} (h : capabilityForm i = some f) : f.StopsOn i := by
  cases i with
  | cadd d f v ct =>
    cases h
    exact ⟨_, fun _ => rfl, fun _ => rfl, fun s t => (Checks.capPoison s t _).stops_lane ((Checks.readSrc s t _ Acc.int).stops_lane
      ((Checks.failIf _ _ _).stops_lane (stops_writeCap s t _ _ _)))⟩
  | cbnd =>
    cases h
    exact ⟨_, fun _ => rfl, fun _ => rfl, fun s t => (Checks.capPoison s t _).stops_lane ((Checks.readSrc s t _ Acc.int).stops_lane
      ((Checks.failIf _ _ _).stops_lane ((Checks.failIf _ _ _).stops_lane ((Checks.failIf_of (inexact_eq _ _ _) _ _).stops_lane
        (stops_writeCap s t _ _ _)))))⟩
  | cprm =>
    cases h
    exact ⟨_, fun _ => rfl, fun _ => rfl, fun s t => (Checks.capPoison s t _).stops_lane
      ((Checks.failIf _ _ _).stops_lane (stops_writeCap s t _ _ _))⟩
  | cmov =>
    cases h
    exact ⟨_, fun _ => rfl, fun _ => rfl, fun s t => (Checks.capPoison s t _).stops_lane (stops_writeCap s t _ _ _)⟩
  | capr =>
    cases h
    exact ⟨_, fun _ => rfl, fun _ => rfl, fun s t => (Checks.capPoison s t _).stops_lane (stops_finishLane s t _)⟩
  | _ => cases h

end Sys2Proof.Machine

/-! SUPPORT. The forms that reach memory, the matrix engine, objects, ports and records stop at the first of their checks that fails. -/

namespace Sys2Proof.Machine

/-! ## Loads, stores and atomics, R68 to R73, R125 to R127, R189, R190, R271, R272 -/

section Access

variable {i : Instr} {d : BitVec 5} {c : BitVec 3} {o : BitVec 8} {l : Bool} {ct : Ctl} {off : Int} {size : Nat} {vs kills : List Nat}

theorem load_stopsOn {fn fn' : State → Nat → LoadFn} (h : ∀ s, exec i s = .next (s.issue ct 4 (loadLane c.toNat off size l vs fn'))) :
    (Form.load ct c off size l vs fn).StopsOn i :=
  ⟨_, h, fun _ => rfl, fun s t => (Checks.capPoison s t c.toNat).stops_laneS
    ((Checks.plainAccess s t c.toNat off size (·.r)).stops_laneS (stops_rowsFor s t vs _))⟩

theorem store_stops {own : List Check} {data : State → Nat → Rd (List (BitVec 8) × BitVec 32)} {s : State} {t : Nat}
    {v : List (BitVec 8) × BitVec 32} (c : Nat) (off : Int) (size : Nat) (l : Bool) (srcs : List Nat) (hd : Checks (data s t) own v) :
    Stops (storeLane c off size l srcs data s t) s
      (groupChecks s t c ++ own ++ capabilityChecks s t c State.memKind (·.w) (s.effAddr t c off) size size) := by
  rw [List.append_assoc]
  exact (Checks.capPoison s t c).stops_laneS (hd.stops_laneS ((Checks.plainAccess s t c off size (·.w)).stops_laneS (.nil _ s)))

theorem plainStore_stopsOn (h : ∀ s, exec i s = .next (storeExec size d c o l ct s)) : (Form.plainStore size d c o l ct).StopsOn i := by
  refine ⟨_, h, fun _ => rfl, fun s t => store_stops c.toNat _ size l _ ((Checks.readListed s t Acc.any ?_).bind_ok rfl)⟩
  split <;> rfl

end Access

theorem accessForm_stopsOn {i : Instr} {f : Form} (h : accessForm i = some f) : f.StopsOn i := by
  cases i with
  | ldb | ldbu | ldh | ldhu | ldw | ldd | ldc | ldt => cases h; exact load_stopsOn fun _ => rfl
  | stb | sth | stw | std => cases h; exact plainStore_stopsOn fun _ => rfl
  | stc d c o l ct =>
    cases h
    exact ⟨_, fun _ => rfl, fun _ => rfl, fun s t => (Checks.capPoison s t c.toNat).stops_laneS ((Checks.capPoison s t (d.toNat / 4)).stops_laneS
      ((Checks.plainAccess s t c.toNat _ 16 (·.w)).stops_laneS ((Checks.failIf _ _ _).stops_laneS ((Checks.failIf _ _ _).stops_laneS
        (.nil _ s)))))⟩
  | stt x c m k sat ct =>
    cases h
    exact ⟨_, fun _ => rfl, fun _ => rfl, fun s t => store_stops c.toNat _ 4 false _ ((Checks.readGroup s t (sttAccept m k) _ _).bind_ok rfl)⟩
  | _ => cases h

/-- The operands of an atomic, R55, R271. -/
theorem Checks.atomOperands (fn : AtomFn) (d v : Nat) (s : State) (t : Nat) :
    ∃ x e, Checks (atomOperands fn d v s t) (atomSources fn d v s t) (x, e, atomWide fn s t v) := by
  cases fn with
  | cas => exact ⟨_, _, (readSrc s t v _).bind ((readSrc s t d _).bind_ok rfl)⟩
  | casD => exact ⟨_, _, (readPair s t v _).bind ((readPair s t d _).bind_ok rfl)⟩
  | addD => exact ⟨_, _, (readPair s t v _).bind_ok rfl⟩
  | fadd =>
    have hwide : atomWide .fadd s t v = (s.fmtOf t v == 3) := rfl
    rw [hwide]
    unfold atomSources Machine.atomOperands
    by_cases h3 : s.fmtOf t v = 3
    · rw [if_pos h3, beq_iff_eq.mpr h3]
      refine ⟨s.reg t (v + 1) ++ s.reg t v, 0, (readSrc s t v _).bind ?_⟩
      rw [if_pos h3]
      exact (Checks.widthCheck [d, v]).bind ((readSrc s t (v + 1) _).bind_ok rfl)
    · rw [if_neg h3, beq_eq_false_iff_ne.mpr h3, List.append_nil]
      refine ⟨(s.reg t v).setWidth 64, 0, (readSrc s t v _).bind_ok ?_⟩
      rw [if_neg h3]
  | add | smin | smax | umin | umax | and | or | xor | xchg => exact ⟨_, _, (readSrc s t v _).bind_ok rfl⟩

theorem atomic_stopsOn {i : Instr} {fn : AtomFn} {d : BitVec 5} {c : BitVec 3} {v : BitVec 5} {o : BitVec 3} {ct : Ctl} {word : BitVec 32}
    (h : ∀ s, exec i s = .next (atomExec fn d c v o ct word s)) : (Form.atomic fn d c v o ct word).StopsOn i := by
  refine ⟨_, h, fun _ => rfl, fun s t => ?_⟩
  obtain ⟨x, e, hops⟩ := Checks.atomOperands fn d.toNat v.toNat s t
  have hstop : Stops (atomLane fn d.toNat c.toNat v.toNat o word s t) s _ := (Checks.scopeCheck s t o word).stops_laneS
    ((Checks.capPoison s t c.toNat).stops_laneS (hops.stops_laneS ((Checks.plainAccess s t c.toNat 0 _ fun c => c.r && c.w).stops_laneS
      (stops_rowsFor s t _ _))))
  simp only [← List.append_assoc] at hstop
  exact hstop

theorem atomicForm_stopsOn {i : Instr} {f : Form} (h : atomicForm i = some f) : f.StopsOn i := by
  cases i with
  | aadd | amin | amax | aminu | amaxu | aand | aor | axor | axchg | acas | afadd | aaddD | acasD => cases h; exact atomic_stopsOn fun _ => rfl
  | _ => cases h

end Sys2Proof.Machine

/-! SUPPORT. The forms of fences and copies, of the matrix engine, of objects and ports, and of kernel mode stop at the first of their checks
that fails. -/

namespace Sys2Proof.Machine

/-! ## Fences, hints, flushes, queries and copies, R245, R285, R287 -/

/-- The capability of a copy, checked at its cursor, R237. -/
theorem Checks.copyCap (s : State) (t k : Nat) (kind : Nat → Bool) (perm : Cap → Bool) (n align : Nat) :
    Checks (copyCap s t k kind perm n align) (capabilityChecks s t k kind perm (s.capGroup t k).cursor n align) () :=
  capChecks s t k kind perm _ n align

theorem cpy_stopsOn (d f : BitVec 3) (v : BitVec 5) (o : BitVec 3) (x : Bool) (ct : Ctl) {fm : Form}
    (h : orderForm (.cpy d f v o x ct) = some fm) : fm.StopsOn (.cpy d f v o x ct) := by
  cases h
  exact ⟨_, fun _ => rfl, fun _ => rfl, fun s t => (Checks.scopeCheck s t o _).stops_laneS ((Checks.capPoison s t d.toNat).stops_laneS
    ((Checks.capPoison s t f.toNat).stops_laneS ((Checks.readSrc s t v.toNat Acc.int).stops_laneS
      ((Checks.copyCap s t f.toNat _ _ _ 1).stops_laneS
        (Checks.copyCap s t d.toNat _ _ _ 1).stops_lastS))))⟩

theorem tcpy_stopsOn (k b : BitVec 3) (v : BitVec 5) (o : BitVec 3) (x : Bool) (ct : Ctl) {fm : Form}
    (h : orderForm (.tcpy k b v o x ct) = some fm) : fm.StopsOn (.tcpy k b v o x ct) := by
  cases h
  exact ⟨_, fun _ => rfl, fun _ => rfl, fun s t => (Checks.scopeCheck s t o _).stops_laneS ((Checks.capPoison s t k.toNat).stops_laneS
    ((Checks.capPoison s t b.toNat).stops_laneS ((Checks.readGroup s t Acc.int 4 v.toNat).stops_laneS
      ((Checks.copyCap s t k.toNat _ _ 384 16).stops_laneS
        (Checks.copyCap s t b.toNat _ _ 16 16).stops_lastS))))⟩

theorem orderForm_stopsOn {i : Instr} {f : Form} (h : orderForm i = some f) : f.StopsOn i := by
  cases i with
  | fence =>
    cases h
    exact ⟨_, fun _ => rfl, fun _ => rfl, fun s t => (Checks.scopeCheck s t _ _).stops_lastS⟩
  | pref => cases h; exact ⟨_, fun _ => rfl, fun _ => rfl, fun s _ => .nil _ s⟩
  | cflush =>
    cases h
    exact ⟨_, fun _ => rfl, fun _ => rfl, fun s t => (Checks.scopeCheck s t _ _).stops_laneS ((Checks.capPoison s t _).stops_laneS
      (Checks.capChecks s t _ _ _ _ 1 1).stops_lastS)⟩
  | aqry =>
    cases h
    exact ⟨_, fun _ => rfl, fun _ => rfl, fun s t => (Checks.capPoison s t _).stops_laneS
      ((Checks.capChecks s t _ _ _ _ 1 1).stops_laneS (stops_rowsFor s t _ _))⟩
  | amat =>
    cases h
    exact ⟨_, fun _ => rfl, fun _ => rfl, fun s t => (Checks.scopeCheck s t _ _).stops_laneS ((Checks.capPoison s t _).stops_laneS
      ((Checks.readSrc s t _ _).stops_laneS (Checks.capChecks s t _ _ _ _ _ 1).stops_lastS))⟩
  | cpy d f v o x ct => exact cpy_stopsOn d f v o x ct h
  | tcpy k b v o x ct => exact tcpy_stopsOn k b v o x ct h
  | _ => cases h

/-- A lane stops where a read stops that its other steps follow. -/
theorem stops_of_raises {α : Type} {s : State} {r : Rd α} {cs : List Check} (f : α → Rd (State × LaneRes))
    (h : ∀ why, firstFailure cs = some why → r = .error (.fault why.1 why.2)) : Stops (State.laneS s (r >>= f)) s cs := by
  intro why hw
  rw [h why hw]
  rfl

/-! ## The matrix engine and the ring, R152 to R163 -/

/-- A block raises what its checks raise before it is read, R153, R163. -/
theorem readBlock_raises (s : State) (t k n : Nat) (why : BitVec 32 × BitVec 32) (h : firstFailure (blockChecks s t k n) = some why) :
    s.readBlock t k n (· == 1) (fun c => c.r && c.e) = .error (.fault why.1 why.2) := by
  have hchecks := (Checks.capPoison s t k).bind (f := fun _ => _) (Checks.capChecks s t k (· == 1) (fun c => c.r && c.e) (s.effAddr t k 0) n n)
  unfold State.readBlock
  rw [← bind_assoc]
  exact hchecks.raises_bind h

/-- The tile of the ring that an offset names, R159. -/
theorem Checks.ringTile (s : State) (t : Nat) (o : BitVec 3) :
    Checks (ringTile s t o.toNat) (ringChecks s t o) (s.ringTail (gangOf t) (s.quadOf t) + o.toNat) := by
  have hempty : (s.ringC (gangOf t) == 0 || decide (s.ringC (gangOf t) ≤ o.toNat)) = decide (s.ringC (gangOf t) ≤ o.toNat) := by
    by_cases h : s.ringC (gangOf t) = 0 <;> simp [h]
  exact (failIf_of hempty _ _).bind_ok rfl

theorem matrixForm_stopsOn {i : Instr} {f : Form} (h : matrixForm i = some f) : f.StopsOn i := by
  cases i with
  | mms c | mmp c => cases h; exact ⟨_, fun _ => rfl, fun _ => rfl, fun s t => stops_of_raises _ (readBlock_raises s t c.toNat 64)⟩
  | repi c => cases h; exact ⟨_, fun _ => rfl, fun _ => rfl, fun s t => stops_of_raises _ (readBlock_raises s t c.toNat 32)⟩
  | rrel | rclr => cases h; exact ⟨_, fun _ => rfl, fun _ => rfl, fun s _ => .nil _ s⟩
  | rld d o v =>
    cases h
    exact ⟨_, fun _ => rfl, fun _ => rfl, fun s t => (Checks.readSrc s t v.toNat Acc.any).stops_laneS
      ((Checks.ringTile s t o).stops_laneS (stops_rowsFor s t _ _))⟩
  | rst x o v =>
    cases h
    exact ⟨_, fun _ => rfl, fun _ => rfl, fun s t => (Checks.readSrc s t x.toNat Acc.any).stops_laneS
      ((Checks.readSrc s t v.toNat Acc.any).stops_laneS (Checks.ringTile s t o).stops_lastS)⟩
  | _ => cases h

/-! ## Barrier objects, buffers and ports, R319 to R333, R340 to R346 -/

section Objects

variable {i : Instr} {c : BitVec 3} {d : BitVec 5} {ct : Ctl}

/-- `ObjRef` with one register source, R340. -/
theorem Checks.objRefReg (s : State) (t k size v : Nat) :
    Checks (s.objRef t k size (s.readSrc t v Acc.int)) (objectChecks s t k size [v]) (objAddr s t k, s.reg t v) :=
  objRef s t k size (readSrc s t v Acc.int)

theorem bufHeader_raises {α : Type} {s : State} {t k : Nat} {r : Rd α} {cs : List Check} {x : Nat × α} (hr : Checks (s.objRef t k 32 r) cs x)
    (why : BitVec 32 × BitVec 32) (h : firstFailure cs = some why) : bufHeader s t k r = .error (.fault why.1 why.2) := hr.raises_bind h

theorem take_stopsOn {why : Nat → ParkWhy} {count : Hdr → Nat} {act : Hdr → Hdr × Nat}
    (h : ∀ s, exec i s = .next (s.issue ct 4 fun s t => bufTake s t c.toNat d.toNat why count act)) : (Form.take ct c d why count act).StopsOn i :=
  ⟨_, h, fun _ => rfl, fun s t => stops_of_raises _ (bufHeader_raises (Checks.objRef s t c.toNat 32 (.ok ())))⟩

theorem give_stopsOn {act : Hdr → Nat → Option Hdr} (h : ∀ s, exec i s = .next (s.issue ct 4 fun s t => bufGive s t c.toNat d.toNat act)) :
    (Form.give ct c d act).StopsOn i :=
  ⟨_, h, fun _ => rfl, fun s t => stops_of_raises _ (bufHeader_raises (Checks.objRefReg s t c.toNat 32 d.toNat))⟩

end Objects

/-- Nobody is there to receive: no neighbour, or one that has exited, R333. -/
theorem receiver_isNone (s : State) (t : Nat) (r : BitVec 2) :
    (match neighbour s t r with | none => true | some n => gone s n) = (receiver s t r).isNone := by
  unfold receiver
  cases neighbour s t r with
  | none => rfl
  | some n => cases hg : gone s n <;> simp [Option.filter, hg]

theorem precv_stopsOn (r : BitVec 2) (v : BitVec 5) (ct : Ctl) {f : Form} (h : syncForm (.precv r v ct) = some f) :
    f.StopsOn (.precv r v ct) := by
  cases h
  refine ⟨_, fun _ => rfl, fun _ => rfl, fun s t => ?_⟩
  dsimp only
  cases s.ports.get [] (portKey t r) with
  | nil => exact (Checks.failIf_of (congrArg (· && portCount s t r == 0) (receiver_isNone s t r)) _ _).stops_lastS
  | cons e rest =>
    intro why hw
    dsimp only
    rw [finishLane_of_rowChecks (d := oneReg v.toNat e.bits e.fmt e.scl false []) hw]
    rfl

theorem syncForm_stopsOn {i : Instr} {f : Form} (h : syncForm i = some f) : f.StopsOn i := by
  cases i with
  | binit c v =>
    cases h
    exact ⟨_, fun _ => rfl, fun _ => rfl, fun s t => (Checks.objRefReg s t c.toNat 16 v.toNat).stops_laneS
      (Checks.failIf _ _ _).stops_lastS⟩
  | barv c v | bexp c v | bwait c v =>
    cases h
    exact ⟨_, fun _ => rfl, fun _ => rfl, fun s t => (Checks.objRefReg s t c.toNat 16 v.toNat).stops_lastS⟩
  | bacq | bget => cases h; exact take_stopsOn fun _ => rfl
  | brel | bput => cases h; exact give_stopsOn fun _ => rfl
  | psend r v => cases h; exact ⟨_, fun _ => rfl, fun _ => rfl, fun s t => (Checks.readSrc s t v.toNat Acc.any).stops_lastS⟩
  | precv r v ct => exact precv_stopsOn r v ct h
  | _ => cases h

/-! ## Kernel mode, R347 to R349, R395 to R403 -/

theorem svcput_stopsOn (c : BitVec 3) (ct : Ctl) {f : Form} (h : kernelForm (.svcput c ct) = some f) : f.StopsOn (.svcput c ct) := by
  cases h
  refine ⟨_, fun _ => rfl, fun _ => rfl, fun s t => (Checks.serviceRef s t c.toNat _ (fun c => c.r && c.w) 1568 16).stops_laneS ?_⟩
  unfold boundBatch
  dsimp only
  cases (s.batches.filter fun kb => kb.2.die == s.coreOf t / 96 && kb.2.bound.any fun x => x.2 == (s.effAddr t c.toNat 0).toNat).getLast? with
  | none => intro why hw; cases hw; rfl
  | some => intro why hw; cases hw

theorem fltrd_stopsOn (d : BitVec 5) (ct : Ctl) {f : Form} (h : kernelForm (.fltrd d ct) = some f) : f.StopsOn (.fltrd d ct) := by
  cases h
  refine ⟨_, fun _ => rfl, fun _ => rfl, fun s t => (Checks.kernelCheck s t _).stops_laneS fun why hw => ?_⟩
  dsimp only
  rw [finishLane_of_rowChecks (d := oneReg d.toNat _ 0 0 false []) hw]
  rfl

theorem kernelForm_stopsOn {i : Instr} {f : Form} (h : kernelForm i = some f) : f.StopsOn i := by
  cases i with
  | tlaunch =>
    cases h
    exact ⟨_, fun _ => rfl, fun _ => rfl, fun s t => (Checks.capPoison s t _).stops_laneS
      ((Checks.capChecks s t _ _ _ _ 640 16).stops_laneS (stops_rowsFor s t _ _))⟩
  | ctxsv =>
    cases h
    exact ⟨_, fun _ => rfl, fun _ => rfl, fun s t => (Checks.serviceRef s t _ _ _ 256 64).stops_laneS
      (Checks.failIf _ _ _).stops_lastS⟩
  | ctxld =>
    cases h
    exact ⟨_, fun _ => rfl, fun _ => rfl, fun s t => (Checks.serviceRef s t _ _ _ 256 64).stops_laneS (stops_rowsFor s t _ _)⟩
  | sweep =>
    cases h
    exact ⟨_, fun _ => rfl, fun _ => rfl, fun s t => (Checks.serviceRef s t _ _ _ 1040 16).stops_lastS⟩
  | svcget =>
    cases h
    exact ⟨_, fun _ => rfl, fun _ => rfl, fun s t => (Checks.serviceRef s t _ _ _ 1568 16).stops_lastS⟩
  | svcput c ct => exact svcput_stopsOn c ct h
  | fltrd d ct => exact fltrd_stopsOn d ct h
  | _ => cases h

/-! ## Every form -/

theorem formOf_stopsOn {i : Instr} {f : Form} (h : formOf i = some f) : f.StopsOn i := by
  simp only [formOf, Option.or_eq_some_iff] at h
  rcases h with h | ⟨-, h | ⟨-, h | ⟨-, h | ⟨-, h | ⟨-, h | ⟨-, h |
    ⟨-, h | ⟨-, h | ⟨-, h | ⟨-, h | ⟨-, h | ⟨-, h⟩⟩⟩⟩⟩⟩⟩⟩⟩⟩⟩⟩
  · exact integerForm_stopsOn h
  · exact moveForm_stopsOn h
  · exact floatForm_stopsOn h
  · exact convertForm_stopsOn h
  · exact predicateForm_stopsOn h
  · exact flowForm_stopsOn h
  · exact capabilityForm_stopsOn h
  · exact accessForm_stopsOn h
  · exact atomicForm_stopsOn h
  · exact orderForm_stopsOn h
  · exact matrixForm_stopsOn h
  · exact syncForm_stopsOn h
  · exact kernelForm_stopsOn h

/-- An instruction whose form has a check that fails in every acting lane has none of its effect, and each thread traps with what its own
first failing check raises, R36, R373. -/
theorem formOf_traps {i : Instr} {f : Form} {s : State} {why : Nat → BitVec 32 × BitVec 32} (h : formOf i = some f) (hs : s.whole = true)
    (hfail : ∀ t ∈ s.actors f.ct, s.canTrap t = true ∧ firstFailure (f.checks s t) = some (why t)) :
    ∃ s', exec i s = .next s' ∧ TrappedAs s s' (s.actors f.ct) f.ct why := by
  obtain ⟨op, hexec, hlen, hstop⟩ := formOf_stopsOn h
  exact ⟨_, hexec s, issue_traps hs hlen fun t ht => ⟨(hfail t ht).1, hstop s t _ (hfail t ht).2⟩⟩

end Sys2Proof.Machine

/-! SUPPORT. Structures in scratchpads: one that an instruction can use, and an arrival, an expectation or a slot that is refused (R320, R327,
R340, R343, R345). -/

namespace Sys2Proof.Machine

/-! ## Checks that pass -/

theorem firstFailure_eq_none {cs : List Check} : firstFailure cs = none ↔ ∀ c ∈ cs, c.1 = false := by
  unfold firstFailure
  rw [Option.map_eq_none_iff, List.find?_eq_none]
  simp only [Bool.not_eq_true]

theorem firstFailure_groupChecks {s : State} {t k : Nat} (h : s.clean t k = true) : firstFailure (groupChecks s t k) = none := by
  rw [firstFailure_eq_none, groupChecks, List.forall_mem_map]
  intro v hv
  exact beq_eq_false_iff_ne.mpr (bne_iff_ne.mp (List.all_eq_true.mp h v hv))

theorem firstFailure_sourceChecks {s : State} {t : Nat} {srcs : List (Nat × (BitVec 4 → Bool))} (h : s.readable t srcs = true) :
    firstFailure (sourceChecks s t srcs) = none := by
  rw [firstFailure_eq_none, sourceChecks, List.forall_mem_flatMap]
  intro x hx
  obtain ⟨hlive, hacc⟩ := Bool.and_eq_true_iff.mp (List.all_eq_true.mp h x hx)
  simpa using And.intro (bne_iff_ne.mp hlive) hacc

theorem firstFailure_capabilityChecks {s : State} {t k n align : Nat} {kind : Nat → Bool} {perm : Cap → Bool} {ea : Int}
    (h : s.capFit t k kind perm ea n align = true) : firstFailure (capabilityChecks s t k kind perm ea n align) = none := by
  unfold State.capFit at h
  simp only [Bool.and_eq_true] at h
  obtain ⟨⟨⟨⟨hvalid, hkind⟩, hperm⟩, hin⟩, halign⟩ := h
  unfold capabilityChecks
  dsimp only
  rw [← Checks.not_inBounds, hvalid, hkind, hperm, hin, bne, halign]
  rfl

namespace State

/-! ## The conditions of a structure in a scratchpad, R340 -/

theorem objFit_iff {s : State} {t k size : Nat} {srcs : List Nat} {write : Bool} : s.objFit t k size srcs write = true ↔
    s.clean t k = true ∧ s.readable t (srcs.map fun v => (v, Acc.int)) = true ∧
      s.capFit t k (· == 1) (fun c => c.r && c.w) (s.effAddr t k 0) size 16 = true ∧ s.releasing t = false ∧
      s.ownPending t (objAddr s t k) size write = false := by
  unfold objFit
  simp only [Bool.and_eq_true, Bool.not_eq_true', and_assoc]

/-- A local address in bounds of a LOCAL capability is an address of the gang's scratchpads, R176. -/
theorem objAddr_lt {s : State} {t k size : Nat} {srcs : List Nat} {write : Bool} (h : s.objFit t k size srcs write = true) (hsize : 0 < size) :
    objAddr s t k + size ≤ 2 ^ 24 := by
  obtain ⟨-, -, hcap, -⟩ := objFit_iff.mp h
  unfold capFit inBounds at hcap
  simp only [Bool.and_eq_true, Bool.or_eq_true, bne, Bool.not_eq_true', and_assoc] at hcap
  obtain ⟨-, hkind, -, -, -, -, hall, -⟩ := hcap
  have hall : s.allocated (gangOf t) (objAddr s t k) size = true := hall.resolve_left (by rw [hkind]; decide)
  have hlast := List.all_eq_true.mp hall (objAddr s t k + (size - 1)) (mem_span.mpr (by omega))
  have hlt := of_decide_eq_true (Bool.and_eq_true_iff.mp hlast).1
  omega

end State

theorem objRef_ok {s : State} {t k size v : Nat} {write : Bool} (h : s.objFit t k size [v] write = true) :
    s.objRef t k size (s.readSrc t v Acc.int) = .ok (objAddr s t k, s.reg t v) := by
  obtain ⟨hclean, hread, hcap, -⟩ := State.objFit_iff.mp h
  refine (Checks.objRefReg s t k size v).passes ?_
  unfold objectChecks
  rw [firstFailure_append, firstFailure_append, firstFailure_groupChecks hclean, firstFailure_sourceChecks hread,
    firstFailure_capabilityChecks hcap]
  rfl

theorem objHold_ok {s : State} {t k size : Nat} {srcs : List Nat} {write : Bool} (h : s.objFit t k size srcs write = true) :
    objHold s t (objAddr s t k) size write = .ok () := by
  obtain ⟨-, -, -, hrel, hpend⟩ := State.objFit_iff.mp h
  unfold objHold
  rw [hrel, hpend]
  rfl

theorem objPoison_ok {s : State} {t la size : Nat} (h : s.granulesPoisoned (gangOf t) la size = false) : s.objPoison t la size = .ok () := by
  unfold State.objPoison
  rw [h]
  rfl

/-! ## Slots that are refused, R327, R345 -/

theorem bufHeader_ok {s : State} {t k d : Nat} (h : s.bufFit t k [d] = true) :
    bufHeader s t k (s.readSrc t d Acc.int) = .ok (objAddr s t k, s.hdrAt (gangOf t) (objAddr s t k), s.reg t d) := by
  unfold State.bufFit at h
  simp only [Bool.and_eq_true, Bool.not_eq_true', and_assoc, Option.isNone_iff_eq_none] at h
  obtain ⟨hfit, hpoison, hbad⟩ := h
  unfold bufHeader
  rw [objRef_ok hfit]
  simp only [bind, Except.bind, objHold_ok hfit, objPoison_ok hpoison, hbad]

theorem bufGive_refused {s : State} {t k d : Nat} {act : Hdr → Nat → Option Hdr} (h : s.bufFit t k [d] = true)
    (hact : act (s.hdrAt (gangOf t) (objAddr s t k)) ((s.reg t d).toNat % 2 ^ 24) = none) :
    bufGive s t k d act = (s, .fault Cause.barrierOverrun (regNo ((s.reg t d).toNat % 2 ^ 24))) := by
  unfold bufGive
  rw [bufHeader_ok h]
  simp only [bind, Except.bind, hact]
  rfl

/-- A slot that is refused: each thread traps, and the header is as before. -/
theorem give_traps {i : Instr} {c : BitVec 3} {d : BitVec 5} {ct : Ctl} {s : State} {act : Hdr → Nat → Option Hdr}
    (hexec : ∀ s, exec i s = .next (s.issue ct 4 fun s t => bufGive s t c.toNat d.toNat act)) (hs : s.whole = true)
    (hfit : ∀ t ∈ s.actors ct, s.canTrap t = true ∧ s.bufFit t c.toNat [d.toNat] = true)
    (hact : ∀ t ∈ s.actors ct, act (s.hdrAt (gangOf t) (objAddr s t c.toNat)) ((s.reg t d.toNat).toNat % 2 ^ 24) = none) :
    ∃ s', exec i s = .next s' ∧
      TrappedAs s s' (s.actors ct) ct fun t => (Cause.barrierOverrun, BitVec.ofNat 32 ((s.reg t d.toNat).toNat % 2 ^ 24)) :=
  ⟨_, hexec s, issue_traps hs (fun _ => rfl) fun t ht => ⟨(hfit t ht).1, bufGive_refused (hfit t ht).2 (hact t ht)⟩⟩

/-! ## The bytes of an object, R319 -/

/-- The fields of an object read back from its 16 bytes. -/
theorem BarObj.dec_enc (bytes : BitVec 48) (pend expect : BitVec 16) (txerr ovr : Bool) (phase : BitVec 4) :
    dec (enc ⟨bytes.toInt, pend.toNat, expect.toNat, txerr, ovr, phase.toNat⟩) =
      ⟨bytes.toInt, pend.toNat, expect.toNat, txerr, ovr, phase.toNat⟩ := by
  unfold enc
  simp only [BitVec.ofInt_toInt, BitVec.ofNat_toNat, BitVec.setWidth_eq]
  generalize hb : 0#40 ++ bytes ++ pend ++ expect ++ 0#2 ++ BitVec.ofBool txerr ++ BitVec.ofBool ovr ++ phase = b
  have hbit (j : Nat) : b.getLsbD j = (0#40 ++ bytes ++ pend ++ expect ++ 0#2 ++ BitVec.ofBool txerr ++ BitVec.ofBool ovr ++ phase).getLsbD j :=
    hb ▸ rfl
  simp only [BitVec.getLsbD_append] at hbit
  have hbytes : b.extractLsb' 40 48 = bytes := BitVec.eq_of_getElem_eq fun j hj => by
    rw [BitVec.getElem_extractLsb', hbit]; grind
  have hpend : b.extractLsb' 24 16 = pend := BitVec.eq_of_getElem_eq fun j hj => by
    rw [BitVec.getElem_extractLsb', hbit]; grind
  have hexpect : b.extractLsb' 8 16 = expect := BitVec.eq_of_getElem_eq fun j hj => by
    rw [BitVec.getElem_extractLsb', hbit]; grind
  have hphase : b.extractLsb' 0 4 = phase := BitVec.eq_of_getElem_eq fun j hj => by
    rw [BitVec.getElem_extractLsb', hbit]; grind
  unfold dec
  rw [hbytes, hpend, hexpect, hphase, hbit, hbit]
  simp

theorem BarObj.dec_enc_ovr (b : BitVec 128) : dec (enc { dec b with ovr := true }) = { dec b with ovr := true } := dec_enc _ _ _ _ true _

theorem leNat_leBytes (n v : Nat) : leNat (leBytes n v) = v % 256 ^ n := by
  induction n generalizing v with
  | zero => rw [Nat.pow_zero, Nat.mod_one]; rfl
  | succ n ih =>
    rw [leBytes, leNat, ih, BitVec.toNat_ofNat, Nat.pow_succ' (m := 256)]
    exact Nat.mod_mul.symm

theorem length_leBytes (n v : Nat) : (leBytes n v).length = n := by
  induction n generalizing v with
  | zero => rfl
  | succ n ih => rw [leBytes, List.length_cons, ih]

namespace State

/-- The bytes of a scratchpad where they were written. -/
theorem map_spadByte_spadWrite (s : State) (gang la : Nat) (bs : List (BitVec 8)) (tag : Bool) :
    (span la bs.length).map ((s.spadWrite gang la bs tag).spadByte gang) = bs := by
  have hread (n k : Nat) (hk : k + n = bs.length) : (span (la + k) n).map ((s.spadWrite gang la bs tag).spadByte gang) = bs.drop k := by
    induction n generalizing k with
    | zero => rw [List.drop_of_length_le (by omega)]; rfl
    | succ n ih =>
      rw [span, List.map_cons, Nat.add_assoc, ih (k + 1) (by omega), spadByte_spadWrite, if_pos (by omega), Nat.add_sub_cancel_left,
        List.getD_eq_getElem _ _ (by omega : k < bs.length)]
      exact (List.drop_eq_getElem_cons _).symm
  exact hread bs.length 0 (Nat.zero_add _)

theorem objAt_congr {s s' : State} {gang la : Nat} (h : s'.spadByte gang = s.spadByte gang) : s'.objAt gang la = s.objAt gang la := by
  unfold objAt spadNat
  rw [h]

theorem objAt_spadWrite (s : State) (gang la : Nat) (o : BarObj) :
    (s.spadWrite gang la (leBytes 16 o.enc.toNat) false).objAt gang la = BarObj.dec o.enc := by
  have hbytes := s.map_spadByte_spadWrite gang la (leBytes 16 o.enc.toNat) false
  rw [length_leBytes] at hbytes
  unfold objAt spadNat
  rw [hbytes, leNat_leBytes, Nat.mod_eq_of_lt (Nat.lt_of_lt_of_eq o.enc.isLt (by decide)), BitVec.ofNat_toNat, BitVec.setWidth_eq]

/-- No thread re-examines an object where none of the gang stands at one, R321. -/
theorem settleObjects_of_noWaiter {s : State} {gang : Nat} (h : ∀ u, gangOf u = gang → ∀ a ph p b, (s.thread u).stat ≠ .bwait a ph p b) :
    s.settleObjects gang = s := by
  have hone : ∀ th ∈ s.gangThreads gang, s.settleBwait th.1 = s := by
    intro th hth
    have hin := FMap.mem_slice hth
    unfold settleBwait
    dsimp only
    split
    next hstat => exact absurd hstat (h th.1 (by unfold gangOf; omega) _ _ _ _)
    next => rfl
  unfold settleObjects
  generalize s.gangThreads gang = ths at hone
  induction ths with
  | nil => rfl
  | cons th ths ih => rw [List.foldl_cons, hone th (by simp)]; exact ih fun x hx => hone x (by simp [hx])

/-- An object is written, and nobody waits at it. -/
theorem setObj_of_noWaiter {s : State} {gang la : Nat} {o : BarObj}
    (h : ∀ u, gangOf u = gang → ∀ a ph p b, (s.thread u).stat ≠ .bwait a ph p b) :
    s.setObj gang la o = s.spadWrite gang la (leBytes 16 o.enc.toNat) false := settleObjects_of_noWaiter h

/-! ## Scratchpads hold no code -/

section Scratch

variable (s : State) (m : Memory) (tags poison : FMap Bool)

/-- The state with other scratchpads. -/
def withSpad : State := { s with spad := m, spadTag := tags, spadPoison := poison }

theorem aliasByte_withSpad (n pa : Nat) : aliasByte n (s.withSpad m tags poison) pa = aliasByte n s pa := by
  induction n generalizing pa with
  | zero => rfl
  | succ n ih =>
    have hsup : (s.withSpad m tags poison).supplier pa = s.supplier pa := rfl
    unfold aliasByte
    rw [hsup]
    cases s.supplier pa with
    | none => rfl
    | some e =>
      have hmap : (e.srcsOf pa).map (aliasByte n (s.withSpad m tags poison)) = (e.srcsOf pa).map (aliasByte n s) :=
        List.map_congr_left fun a _ => ih a
      dsimp only
      rw [hmap, ih]

theorem codeByte_withSpad (t va : Nat) : (s.withSpad m tags poison).codeByte t va = s.codeByte t va := by
  have hlease : (s.withSpad m tags poison).leaseBlock (gangOf t) (va / 65536) false = s.leaseBlock (gangOf t) (va / 65536) false := rfl
  unfold codeByte
  rw [hlease]
  cases s.leaseBlock (gangOf t) (va / 65536) false with
  | none => rfl
  | some b => exact aliasByte_withSpad s m tags poison s.alias_.length _

theorem handlerOk_withSpad (t off : Nat) : (s.withSpad m tags poison).handlerOk t off = s.handlerOk t off := by
  have hpcc : (s.withSpad m tags poison).pccOf t = s.pccOf t := rfl
  unfold handlerOk outsidePcc
  rw [hpcc, codeByte_withSpad]

theorem canTrap_withSpad (t : Nat) : (s.withSpad m tags poison).canTrap t = s.canTrap t := by
  have hthread : (s.withSpad m tags poison).thread t = s.thread t := rfl
  have hrec : (s.withSpad m tags poison).recordOf t = s.recordOf t := rfl
  have hpre : (s.withSpad m tags poison).preemptOf t = s.preemptOf t := rfl
  have hth : (s.withSpad m tags poison).threads = s.threads := rfl
  unfold canTrap
  rw [hthread, hrec, hpre, hth]
  cases s.recordOf t with
  | none => rfl
  | some r => dsimp only; rw [handlerOk_withSpad]

end Scratch

end State

end Sys2Proof.Machine

/-! SUPPORT. Arrivals and expectations that are refused, and the obligation on checks that fail. -/

namespace Sys2Proof.Machine

/-! ## Arrivals and expectations that are refused, R320, R343 -/

/-- A lane of an object's instruction that is refused: OVR is set, and the thread faults with the count it asked for. -/
def Overruns (op : State → Nat → State × LaneRes) (s : State) (t k v : Nat) : Prop :=
  op s t = (s.setObj (gangOf t) (objAddr s t k) { s.objAt (gangOf t) (objAddr s t k) with ovr := true },
    .fault Cause.barrierOverrun (s.reg t v))

section Refused

variable {s : State} {t : Nat} {c : BitVec 3} {v : BitVec 5} (ct : Ctl) (hfit : s.objFit t c.toNat 16 [v.toNat] true = true)
  (hpoison : s.granulesPoisoned (gangOf t) (objAddr s t c.toNat) 16 = false)

include hfit hpoison

theorem barv_overruns (p : BitVec 4) (h : (s.objAt (gangOf t) (objAddr s t c.toNat)).pend < (s.reg t v.toNat).toNat) :
    ∃ op, (∀ s, exec (.barv c v p ct) s = .next (s.issue ct 4 op)) ∧ Overruns op s t c.toNat v.toNat := by
  refine ⟨_, fun _ => rfl, ?_⟩
  have hnone : (s.objAt (gangOf t) (objAddr s t c.toNat)).arrive (s.reg t v.toNat).toNat = none := if_pos h
  unfold Overruns
  dsimp only
  rw [objRef_ok hfit]
  simp only [bind, Except.bind, objHold_ok hfit, objPoison_ok hpoison, hnone]
  rfl

theorem bexp_overruns (h : 2 ^ 47 - 1 < (s.objAt (gangOf t) (objAddr s t c.toNat)).bytes + (s.reg t v.toNat).toNat) :
    ∃ op, (∀ s, exec (.bexp c v ct) s = .next (s.issue ct 4 op)) ∧ Overruns op s t c.toNat v.toNat := by
  refine ⟨_, fun _ => rfl, ?_⟩
  have hnone : (s.objAt (gangOf t) (objAddr s t c.toNat)).expecting (s.reg t v.toNat).toNat = none := if_pos h
  unfold Overruns
  dsimp only
  rw [objRef_ok hfit]
  simp only [bind, Except.bind, objHold_ok hfit, objPoison_ok hpoison, hnone]
  rfl

end Refused

/-- A lone thread whose lane writes to a scratchpad and faults: the bytes are there, and the thread traps. -/
theorem issue_spadWrite_faulted {op : State → Nat → State × LaneRes} {s : State} {t gang la : Nat} {ct : Ctl} {bs : List (BitVec 8)} {tag : Bool}
    {cause tval : BitVec 32} (hop : op s t = (s.spadWrite gang la bs tag, .fault cause tval)) (hs : s.whole = true) (hone : s.actors ct = [t])
    (htrap : s.canTrap t = true) :
    let s' := s.issue ct 4 op
    s'.spad = (s.spadWrite gang la bs tag).spad ∧
      Trapped { s with spad := s'.spad, spadTag := s'.spadTag, spadPoison := s'.spadPoison } s' [t] ct cause tval := by
  intro s'
  have honly : s.spadWrite gang la bs tag = s.withSpad (s.spadWrite gang la bs tag).spad (s.spadWrite gang la bs tag).spadTag
    (s.spadWrite gang la bs tag).spadPoison := rfl
  have htraps : TrappedAs (s.spadWrite gang la bs tag) s' (s.actors ct) ct fun _ => (cause, tval) := by
    refine issue_faulted hs (fun _ => rfl) honly ?_ fun u hu => ?_
    · rw [hone, State.runLanes, hop]; rfl
    · rw [hone] at hu
      obtain rfl := List.mem_singleton.mp hu
      exact (State.canTrap_withSpad s _ _ _ u).trans htrap
  rw [hone] at htraps
  have hkeeps := htraps.1
  unfold KeepsDevice at hkeeps
  have hmem : s'.spad = (s.spadWrite gang la bs tag).spad := (congrArg State.spad hkeeps).trans rfl
  have htags : s'.spadTag = (s.spadWrite gang la bs tag).spadTag := (congrArg State.spadTag hkeeps).trans rfl
  have hmarks : s'.spadPoison = (s.spadWrite gang la bs tag).spadPoison := (congrArg State.spadPoison hkeeps).trans rfl
  refine ⟨hmem, ?_⟩
  rw [hmem, htags, hmarks]
  exact htraps

/-- An object's instruction that is refused: OVR is set in the object, every other byte of the scratchpads is as before, and the thread traps. -/
theorem overruns_traps {op : State → Nat → State × LaneRes} {s : State} {t k v : Nat} {ct : Ctl} {srcs : List Nat} {write : Bool}
    (hop : Overruns op s t k v) (hs : s.whole = true) (hone : s.actors ct = [t]) (htrap : s.canTrap t = true)
    (hfit : s.objFit t k 16 srcs write = true) (hwait : ∀ u, gangOf u = gangOf t → ∀ a ph p b, (s.thread u).stat ≠ .bwait a ph p b) :
    let s' := s.issue ct 4 op
    let la := objAddr s t k
    s'.objAt (gangOf t) la = { s.objAt (gangOf t) la with ovr := true } ∧
      (∀ g a, a < 2 ^ 24 → g ≠ gangOf t ∨ a < la ∨ la + 16 ≤ a → s'.spadByte g a = s.spadByte g a) ∧
      Trapped { s with spad := s'.spad, spadTag := s'.spadTag, spadPoison := s'.spadPoison } s' [t] ct Cause.barrierOverrun (s.reg t v) := by
  intro s' la
  have hbound : la + 16 ≤ 2 ^ 24 := State.objAddr_lt hfit (by decide)
  rw [Overruns, State.setObj_of_noWaiter hwait] at hop
  obtain ⟨hspad, htraps⟩ := issue_spadWrite_faulted hop hs hone htrap
  have hbyte (g : Nat) : s'.spadByte g = (s.spadWrite (gangOf t) la _ false).spadByte g :=
    funext fun a => congrArg (fun m : Memory => m.get 0 (spadKey g a)) hspad
  refine ⟨?object, fun g a ha hout => ?frame, htraps⟩
  case object =>
    exact (State.objAt_congr (hbyte _)).trans ((State.objAt_spadWrite s _ la _).trans (BarObj.dec_enc_ovr _))
  case frame =>
    rw [hbyte, State.spadByte_spadWrite_all g false (by rw [length_leBytes]; exact hbound) ha, if_neg]
    rw [length_leBytes]
    omega

/-- An arrival or an expectation that is refused, by a lone thread. -/
theorem object_traps {i : Instr} {c : BitVec 3} {v : BitVec 5} {ct : Ctl} {s : State} {t : Nat} (hs : s.whole = true) (hone : s.actors ct = [t])
    (htrap : s.canTrap t = true) (hfit : s.objFit t c.toNat 16 [v.toNat] true = true)
    (hpoison : s.granulesPoisoned (gangOf t) (objAddr s t c.toNat) 16 = false)
    (hwait : ∀ u, gangOf u = gangOf t → ∀ a ph p b, (s.thread u).stat ≠ .bwait a ph p b) :
    let la := objAddr s t c.toNat
    let o := s.objAt (gangOf t) la
    (∃ p, i = .barv c v p ct ∧ o.pend < (s.reg t v.toNat).toNat) ∨ (i = .bexp c v ct ∧ 2 ^ 47 - 1 < o.bytes + (s.reg t v.toNat).toNat) →
    ∃ s', exec i s = .next s' ∧ s'.objAt (gangOf t) la = { o with ovr := true } ∧
      (∀ g a, a < 2 ^ 24 → g ≠ gangOf t ∨ a < la ∨ la + 16 ≤ a → s'.spadByte g a = s.spadByte g a) ∧
      Trapped { s with spad := s'.spad, spadTag := s'.spadTag, spadPoison := s'.spadPoison } s' [t] ct 0x0C (s.reg t v.toNat) := by
  rintro la o (⟨p, rfl, hrefused⟩ | ⟨rfl, hrefused⟩)
  · obtain ⟨op, hexec, hop⟩ := barv_overruns ct hfit hpoison p hrefused
    exact ⟨_, hexec s, overruns_traps hop hs hone htrap hfit hwait⟩
  · obtain ⟨op, hexec, hop⟩ := bexp_overruns ct hfit hpoison hrefused
    exact ⟨_, hexec s, overruns_traps hop hs hone htrap hfit hwait⟩

/-- Settles O31: each lane of a form stops at the first of the form's checks that fails, and an instruction whose acting lanes all fault has
none of its effect; a refused arrival, expectation or slot passes its checks and faults in the object or header. -/
theorem sourceTraps : Obligations.SourceTraps := by
  unfold Obligations.SourceTraps
  refine ⟨?checks, ?object, ?slot⟩
  case checks => exact fun i f s why hform _ hs hfail => formOf_traps hform hs hfail
  case object => exact fun i c v ct s t _ hs hone htrap hfit hpoison hwait => object_traps hs hone htrap hfit hpoison hwait
  case slot =>
    rintro i c d ct s - hs slot hdr hfit (⟨rfl, hrefused⟩ | ⟨rfl, hrefused⟩)
    · exact give_traps (fun _ => rfl) hs hfit hrefused
    · exact give_traps (fun _ => rfl) hs hfit hrefused

end Sys2Proof.Machine

/-! SUPPORT. Reads and checks that pass, and instructions whose lanes carry out their form (R31, R36, R58, R68, R175, R200, R303). -/

namespace Sys2Proof.Machine

/-! ## Reads and checks that pass -/

namespace State

variable {s : State} {t : Nat}

theorem readable_cons {x : Nat × (BitVec 4 → Bool)} {xs : List (Nat × (BitVec 4 → Bool))} :
    s.readable t (x :: xs) = true ↔ s.readable t [x] = true ∧ s.readable t xs = true := by
  simp only [readable, List.all_cons, List.all_nil, Bool.and_true, Bool.and_eq_true]

theorem readPair_ok {v : Nat} {acc : BitVec 4 → Bool} (h : s.readable t [(v, acc), (v + 1, acc)] = true) :
    s.readPair t v acc = .ok (s.reg t (v + 1) ++ s.reg t v) := (Checks.readPair s t v acc).passes (firstFailure_sourceChecks h)

theorem capPoison_ok {k : Nat} (h : s.clean t k = true) : s.capPoison t k = .ok () :=
  (Checks.capPoison s t k).passes (firstFailure_groupChecks h)

theorem capChecks_ok {k n align : Nat} {kind : Nat → Bool} {perm : Cap → Bool} {ea : Int} (h : s.capFit t k kind perm ea n align = true) :
    s.capChecks t k kind perm ea n align (addrNo ea) = .ok () :=
  (Checks.capChecks s t k kind perm ea n align).passes (firstFailure_capabilityChecks h)

theorem plainAccess_ok {k size : Nat} {off : Int} {perm : Cap → Bool} (h : s.capFit t k memKind perm (s.effAddr t k off) size size = true) :
    s.plainAccess t k off size perm = .ok (s.effAddr t k off) :=
  (Checks.plainAccess s t k off size perm).passes (firstFailure_capabilityChecks h)

theorem scopeCheck_ok {o : BitVec 3} (word : BitVec 32) (h : s.scopeFit t o = true) : s.scopeCheck t o word = .ok () := by
  have hpass : (s.worldOf t != 0 && ((o == 4 && !((s.worlds.find? (s.worldOf t)).getD World.fresh).devScope) ||
      (o == 5 && !((s.worlds.find? (s.worldOf t)).getD World.fresh).sysScope))) = false := by
    unfold scopeFit at h
    grind
  unfold scopeCheck
  dsimp only
  rw [hpass]
  rfl

theorem rowsFor_ok {vs : List Nat} (h : (s.rowCheck t vs).isNone = true) : s.rowsFor t vs = .ok () := by
  unfold rowsFor
  rw [Option.isNone_iff_eq_none.mp h]

theorem roomIn_ok {n : Nat} (h : n < 63) : roomIn n = .ok () := if_pos h

theorem finishLane_ok {d : Done} (h : s.rowCheck t (d.writes.map (·.1)) = none) : s.finishLane t d = .done d := by
  unfold finishLane
  rw [h]

end State

/-! ## Forms that are carried out -/

/-- A form that the lanes of its instruction carry out completes. -/
theorem Form.CarriedOut.completes {f : Form} {i : Instr} {op : State → Nat → State × LaneRes}
    (hexec : ∀ s, exec i s = .next (s.issue f.ct f.len op)) (h : wellFormed i = true → f.CarriedOut op) : f.Completes i :=
  fun hwf s hfit => ⟨_, hexec s, (h hwf).issue s hfit⟩

/-- Registers that a form may write: among the 32, each once. -/
def FitWrites (ws : List (Nat × BitVec 32 × BitVec 4 × BitVec 7)) : Prop := (∀ w ∈ ws, w.1 < 32) ∧ (ws.map (·.1)).Nodup

theorem FitWrites.nil : FitWrites [] := ⟨by simp, by simp⟩

theorem FitWrites.single (d : BitVec 5) (x : BitVec 32 × BitVec 4 × BitVec 7) : FitWrites [(d.toNat, x)] :=
  ⟨by simpa using d.isLt, by simp⟩

theorem FitWrites.shape {t : Nat} {kills : List Nat} {ws : List (Nat × BitVec 32 × BitVec 4 × BitVec 7)} {next : Option Nat}
    (h : FitWrites ws) (hk : ∀ v ∈ kills, v < 32) : (⟨t, kills, ws, [], next⟩ : LaneDone).Shape :=
  ⟨h.1, hk, h.2, by simp, by simp⟩

/-- A lane that reads registers and writes registers. -/
theorem Form.regs_carriedOut {ct : Ctl} {len : Nat} {srcs : List (Nat × (BitVec 4 → Bool))} {l : Bool}
    {writes : State → Nat → List (Nat × BitVec 32 × BitVec 4 × BitVec 7)} {op : State → Nat → State × LaneRes}
    (hsrcs : ∀ v ∈ srcs.map (·.1), v < 32) (hw : ∀ s t, FitWrites (writes s t))
    (hrun : ∀ s t, s.readable t srcs = true →
      op s t = (s, s.finishLane t ⟨writes s t, [], if l then srcs.map (·.1) else [], none, .ready⟩)) :
    (Form.regs ct len srcs l writes).CarriedOut op := by
  refine ⟨fun s t hok hrow => ?_, fun s t _ => (hw s t).shape ?_⟩
  · rw [hrun s t hok, State.finishLane_ok hrow]
    rfl
  · cases l with
    | true => exact hsrcs
    | false => exact fun _ hv => nomatch hv

/-! ## Instructions whose lanes are compared one by one -/

/-- Lanes that leave the state as it is run alike where each does. -/
theorem runLanes_congr {op op' : State → Nat → State × LaneRes} {s : State} {ts : List Nat} (h : ∀ t ∈ ts, op s t = op' s t ∧ (op s t).1 = s) :
    State.runLanes op s ts = State.runLanes op' s ts := by
  induction ts with
  | nil => rfl
  | cons t ts ih =>
    obtain ⟨heq, hsame⟩ := h t (by simp)
    have hsame' : (op' s t).1 = s := heq ▸ hsame
    simp only [State.runLanes, heq, hsame', ih fun u hu => h u (by simp [hu])]

theorem issue_congr {op op' : State → Nat → State × LaneRes} {s : State} {ct : Ctl} (len : Nat)
    (h : State.runLanes op s (s.actors ct) = State.runLanes op' s (s.actors ct)) : s.issue ct len op = s.issue ct len op' := by
  unfold State.issue
  cases hg : s.slots.find? s.cur with
  | none => rfl
  | some g =>
    dsimp only
    rw [← slotThreads_eq hg]
    have h' : State.runLanes op s ((slotThreads s).filter fun t => !s.guardedOff t ct) =
      State.runLanes op' s ((slotThreads s).filter fun t => !s.guardedOff t ct) := h
    rw [h']

end Sys2Proof.Machine

/-! SUPPORT. The operations of the integer forms, as R61 to R66 give them. -/

namespace Sys2Proof.Machine

theorem span_eq_range' (a n : Nat) : span a n = List.range' a n := by
  induction n generalizing a with
  | zero => rfl
  | succ n ih => rw [span, List.range'_succ, ih]

/-- Bits that are written one after the other, each at a place of its own: bit `j` is that of the one index whose place it is. -/
theorem foldl_setBit {w : Nat} (place : Nat → Nat) (g : Nat → Bool) {i₀ j : Nat} (hj : j < w) (is : List Nat)
    (h : ∀ i ∈ is, j = place i ↔ i = i₀) (m : BitVec w) :
    (is.foldl (fun m i => setBit m (place i) (g i)) m).getLsbD j = if i₀ ∈ is then g i₀ else m.getLsbD j := by
  induction is generalizing m with
  | nil => rfl
  | cons i is ih =>
    rw [List.foldl_cons, ih (fun k hk => h k (by simp [hk])), setBit_getLsbD _ _ _ _ hj]
    have hi := h i (by simp)
    by_cases h0 : i₀ = i
    · subst h0
      rw [if_pos (hi.mpr rfl), if_pos (List.mem_cons_self ..), ite_self]
    · rw [if_neg (mt hi.mp (Ne.symm h0))]
      simp only [List.mem_cons, h0, false_or]

namespace Alu

theorem extract_high (x : BitVec 64) : x.extractLsb' 32 32 = BitVec.ofInt 32 (x.toInt / 2 ^ 32) := by
  apply BitVec.eq_of_toNat_eq
  have hx := x.isLt
  rw [BitVec.extractLsb'_toNat, BitVec.toNat_ofInt, Nat.shiftRight_eq_div_pow, BitVec.toInt_eq_toNat_cond]
  split <;> omega

theorem toInt_mul_signExtend (a s : BitVec 32) : (a.signExtend 64 * s.signExtend 64).toInt = a.toInt * s.toInt := by
  have ha := BitVec.two_mul_toInt_lt (x := a)
  have ha' := BitVec.le_two_mul_toInt (x := a)
  have hs := BitVec.two_mul_toInt_lt (x := s)
  have hs' := BitVec.le_two_mul_toInt (x := s)
  have hlo : -(2 ^ 62) ≤ a.toInt * s.toInt := by nlinarith
  have hhi : a.toInt * s.toInt ≤ 2 ^ 62 := by nlinarith
  rw [BitVec.toInt_mul, BitVec.toInt_signExtend_of_le (by decide), BitVec.toInt_signExtend_of_le (by decide)]
  exact Int.bmod_eq_of_le (by omega) (by omega)

theorem mulh_eq (a s : BitVec 32) : mulh a s = BitVec.ofInt 32 (a.toInt * s.toInt / 2 ^ 32) := by
  unfold mulh
  rw [extract_high, toInt_mul_signExtend]

theorem mulhu_eq (a s : BitVec 32) : mulhu a s = BitVec.ofNat 32 (a.toNat * s.toNat / 2 ^ 32) := by
  apply BitVec.eq_of_toNat_eq
  have h : a.toNat * s.toNat < 2 ^ 32 * 2 ^ 32 := Nat.mul_lt_mul'' a.isLt s.isLt
  simp only [mulhu, BitVec.extractLsb'_toNat, BitVec.toNat_mul, BitVec.toNat_setWidth, BitVec.toNat_ofNat, Nat.shiftRight_eq_div_pow]
  rw [Nat.mod_eq_of_lt (a := a.toNat) (by omega), Nat.mod_eq_of_lt (a := s.toNat) (by omega)]
  omega

theorem min_eq (a s : BitVec 32) : min a s = BitVec.ofInt 32 (Min.min a.toInt s.toInt) := by
  unfold min
  rw [BitVec.slt_eq_decide]
  split
  next h => rw [Int.min_eq_right (by simpa using (of_decide_eq_true h).le), BitVec.ofInt_toInt]
  next h => rw [Int.min_eq_left (by simpa using h), BitVec.ofInt_toInt]

theorem max_eq (a s : BitVec 32) : max a s = BitVec.ofInt 32 (Max.max a.toInt s.toInt) := by
  unfold max
  rw [BitVec.slt_eq_decide]
  split
  next h => rw [Int.max_eq_right (by simpa using (of_decide_eq_true h).le), BitVec.ofInt_toInt]
  next h => rw [Int.max_eq_left (by simpa using h), BitVec.ofInt_toInt]

theorem minu_eq (a s : BitVec 32) : minu a s = BitVec.ofNat 32 (Min.min a.toNat s.toNat) := by
  unfold minu
  rw [BitVec.ult_eq_decide]
  split
  next h => rw [Nat.min_eq_right (by simpa using (of_decide_eq_true h).le), BitVec.ofNat_toNat, BitVec.setWidth_eq]
  next h => rw [Nat.min_eq_left (by simpa using h), BitVec.ofNat_toNat, BitVec.setWidth_eq]

theorem maxu_eq (a s : BitVec 32) : maxu a s = BitVec.ofNat 32 (Max.max a.toNat s.toNat) := by
  unfold maxu
  rw [BitVec.ult_eq_decide]
  split
  next h => rw [Nat.max_eq_right (by simpa using (of_decide_eq_true h).le), BitVec.ofNat_toNat, BitVec.setWidth_eq]
  next h => rw [Nat.max_eq_left (by simpa using h), BitVec.ofNat_toNat, BitVec.setWidth_eq]

theorem sra_eq (a s : BitVec 32) : sra a s = BitVec.ofInt 32 (a.toInt / 2 ^ (s.toNat % 32)) := by
  unfold sra amount BitVec.sshiftRight
  rw [Int.shiftRight_eq_div_pow]
  push_cast
  rfl

theorem rotl_eq (a s : BitVec 32) : rotl a s = a <<< (s.toNat % 32) ||| a >>> (32 - s.toNat % 32) := by
  unfold rotl amount BitVec.rotateLeft BitVec.rotateLeftAux
  rw [Nat.mod_mod]

theorem absd_eq (a s : BitVec 32) : absd a s = BitVec.ofInt 32 |a.toInt - s.toInt| := by
  unfold absd
  rw [Int.abs_eq_natAbs]
  rfl

theorem popc_eq (a : BitVec 32) : popc a = BitVec.ofNat 32 ((List.range 32).countP fun i => a.getLsbD i) := by
  unfold popc
  rw [span_eq_range', ← List.range_eq_range', List.countP_eq_length_filter]

theorem brev_eq (a : BitVec 32) : brev a = a.reverse := by
  apply BitVec.eq_of_getLsbD_eq
  intro j hj
  have hplace : ∀ i ∈ span 0 32, j = 31 - i ↔ i = 31 - j := fun i hi => by have := mem_span.mp hi; omega
  rw [brev, foldl_setBit (fun i => 31 - i) _ hj _ hplace, if_pos (mem_span.mpr (by omega)), BitVec.getLsbD_reverse, BitVec.getMsbD_eq_getLsbD]
  simp [hj]

theorem countP_upTo (c n : Nat) : (List.range n).countP (fun i => decide (0 < i ∧ i ≤ c)) = Min.min (n - 1) c := by
  induction n with
  | zero => simp
  | succ n ih =>
    rw [List.range_succ, List.countP_append, ih, List.countP_singleton]
    split <;> rename_i h <;> simp only [decide_eq_true_eq] at h <;> omega

theorem clz_eq (a : BitVec 32) : clz a = BitVec.ofNat 32 ((List.range 33).countP fun i => 0 < i && a.toNat < 2 ^ (32 - i)) := by
  have hcount (c : Nat) (hc : c ≤ 32) (h : ∀ i, 0 < i → i < 33 → (a.toNat < 2 ^ (32 - i) ↔ i ≤ c)) :
      ((List.range 33).countP fun i => 0 < i && a.toNat < 2 ^ (32 - i)) = c := by
    rw [show c = Min.min (33 - 1) c by omega, ← countP_upTo]
    refine List.countP_congr fun i hi => ?_
    have hi := List.mem_range.mp hi
    by_cases h0 : 0 < i
    · simp [h0, h i h0 hi]
    · simp [h0]
  unfold clz
  by_cases ha : a = 0
  · subst ha
    rw [if_pos rfl, hcount 32 (le_refl _) fun i _ hi => ⟨fun _ => by omega, fun _ => Nat.two_pow_pos _⟩]
  · have hne : a.toNat ≠ 0 := fun h => ha (BitVec.eq_of_toNat_eq h)
    rw [if_neg ha, hcount (31 - a.toNat.log2) (by omega)]
    intro i h0 hi
    rw [← Nat.log2_lt hne]
    have hlog : a.toNat.log2 < 32 := (Nat.log2_lt hne).mpr a.isLt
    omega

theorem ones_getLsbD (n j : Nat) (hj : j < 32) : (ones n).getLsbD j = decide (j < n) := by
  rw [ones, BitVec.getLsbD_ofNat, Nat.testBit_two_pow_sub_one]
  simp [hj]

theorem bfx_eq (a s : BitVec 32) :
    bfx a s = BitVec.ofNat 32 (a.toNat / 2 ^ (s.toNat % 32) % 2 ^ Min.min (s.toNat / 256 % 64) (32 - s.toNat % 32)) := by
  change bfx a s = BitVec.ofNat 32 (a.toNat / 2 ^ pos s % 2 ^ len s)
  apply BitVec.eq_of_getLsbD_eq
  intro j hj
  rw [bfx, BitVec.getLsbD_and, BitVec.getLsbD_ushiftRight, ones_getLsbD _ _ hj, BitVec.getLsbD_ofNat, Nat.testBit_mod_two_pow,
    Nat.testBit_div_two_pow, ← BitVec.testBit_toNat]
  simp [hj, Bool.and_comm, Nat.add_comm]

theorem bfi_eq (a s d : BitVec 32) :
    bfi a s d =
      let pos := s.toNat % 32
      let len := Min.min (s.toNat / 256 % 64) (32 - pos)
      BitVec.ofNat 32 (d.toNat % 2 ^ pos + a.toNat % 2 ^ len * 2 ^ pos + d.toNat / 2 ^ (pos + len) * 2 ^ (pos + len)) := by
  change bfi a s d = BitVec.ofNat 32 (d.toNat % 2 ^ pos s + a.toNat % 2 ^ len s * 2 ^ pos s +
    d.toNat / 2 ^ (pos s + len s) * 2 ^ (pos s + len s))
  have hsum : d.toNat % 2 ^ pos s + a.toNat % 2 ^ len s * 2 ^ pos s + d.toNat / 2 ^ (pos s + len s) * 2 ^ (pos s + len s) =
      2 ^ pos s * (2 ^ len s * (d.toNat / 2 ^ (pos s + len s)) + a.toNat % 2 ^ len s) + d.toNat % 2 ^ pos s := by
    rw [Nat.pow_add]; ring
  apply BitVec.eq_of_getLsbD_eq
  intro j hj
  rw [hsum, BitVec.getLsbD_ofNat, Nat.testBit_two_pow_mul_add _ (Nat.mod_lt _ (Nat.two_pow_pos _)),
    Nat.testBit_two_pow_mul_add _ (Nat.mod_lt _ (Nat.two_pow_pos _)), Nat.testBit_mod_two_pow, Nat.testBit_mod_two_pow,
    Nat.testBit_div_two_pow, BitVec.testBit_toNat, BitVec.testBit_toNat, BitVec.testBit_toNat]
  simp only [bfi, BitVec.getLsbD_or, BitVec.getLsbD_and, BitVec.getLsbD_not, BitVec.getLsbD_shiftLeft]
  by_cases hlow : j < pos s
  · simp [hlow, hj]
  · rw [ones_getLsbD _ _ (by omega)]
    by_cases hmid : j - pos s < len s
    · simp [hlow, hmid, hj]
    · have hplace : j - pos s - len s + (pos s + len s) = j := by omega
      simp [hlow, hmid, hj, hplace]

end Alu
end Sys2Proof.Machine

/-! SUPPORT. The integer and move forms are carried out by the lanes of their instructions (R26, R61 to R66, R82 to R86, R161, R336). -/

namespace Sys2Proof.Machine

/-! ## Integer forms, R61 to R66 -/

section Integer

variable {i : Instr} {acc : BitVec 4 → Bool} {fmt : BitVec 4} {d a b : BitVec 5} {l : Bool} {ct : Ctl} {len : Nat}

theorem alu1_completes {g g' : BitVec 32 → BitVec 32} (h : ∀ s, exec i s = .next (alu1 acc fmt g' d a l ct len s)) (hg : ∀ x, g' x = g x) :
    (Form.one acc fmt g d a l ct len).Completes i := by
  obtain rfl : g' = g := funext hg
  refine Form.CarriedOut.completes h fun _ => Form.regs_carriedOut ?_ (fun _ _ => .single d _) fun s t hread => ?_
  · simpa using a.isLt
  · simp only [State.pureLane, State.readSrc_ok hread, bind, Except.bind]
    rfl

theorem alu2_completes {g g' : BitVec 32 → BitVec 32 → BitVec 32} (h : ∀ s, exec i s = .next (alu2 acc fmt g' d a b l ct len s))
    (hg : ∀ x y, g' x y = g x y) : (Form.two acc fmt g d a b l ct len).Completes i := by
  obtain rfl : g' = g := funext fun x => funext (hg x)
  refine Form.CarriedOut.completes h fun _ => Form.regs_carriedOut ?_ (fun _ _ => .single d _) fun s t hread => ?_
  · simpa using ⟨a.isLt, b.isLt⟩
  · obtain ⟨ha, hb⟩ := State.readable_cons.mp hread
    simp only [State.pureLane, State.readSrc_ok ha, State.readSrc_ok hb, bind, Except.bind]
    rfl

theorem alu3_completes {g g' : BitVec 32 → BitVec 32 → BitVec 32 → BitVec 32} (h : ∀ s, exec i s = .next (alu3 acc fmt g' d a b l ct s))
    (hg : ∀ x y z, g' x y z = g x y z) : (Form.three acc fmt g d a b l ct).Completes i := by
  obtain rfl : g' = g := funext fun x => funext fun y => funext (hg x y)
  refine Form.CarriedOut.completes h fun _ => Form.regs_carriedOut ?_ (fun _ _ => .single d _) fun s t hread => ?_
  · simpa using ⟨a.isLt, b.isLt, d.isLt⟩
  · obtain ⟨ha, hread⟩ := State.readable_cons.mp hread
    obtain ⟨hb, hd⟩ := State.readable_cons.mp hread
    simp only [State.pureLane, State.readSrc_ok ha, State.readSrc_ok hb, State.readSrc_ok hd, bind, Except.bind]
    rfl

end Integer

/-- The amount of an immediate shift is that of its low five bits. -/
theorem amount_signExtend (m : BitVec 8) : Alu.amount (m.signExtend 32) = m.toNat % 32 := by
  have hm := m.isLt
  unfold Alu.amount
  rw [BitVec.toNat_signExtend, BitVec.toNat_setWidth]
  split <;> omega

theorem sra_immediate (a : BitVec 32) (m : BitVec 8) : Alu.sra a (m.signExtend 32) = BitVec.ofInt 32 (a.toInt / 2 ^ (m.toNat % 32)) := by
  rw [Alu.sra_eq, ← amount_signExtend m]
  rfl

/-- Settles O9: each lane reads its sources, which are readable, and writes what its operation gives; the operations are those of R61 to R66. -/
theorem integerForms : Obligations.IntegerForms := by
  unfold Obligations.IntegerForms
  intro i f h
  cases i with
  | add | sub | mul | and | or | xor | andn | shl | shr | adds | subs =>
    cases h; exact alu2_completes (fun _ => rfl) fun _ _ => rfl
  | mulh => cases h; exact alu2_completes (fun _ => rfl) Alu.mulh_eq
  | mulhu => cases h; exact alu2_completes (fun _ => rfl) Alu.mulhu_eq
  | min => cases h; exact alu2_completes (fun _ => rfl) Alu.min_eq
  | max => cases h; exact alu2_completes (fun _ => rfl) Alu.max_eq
  | minu => cases h; exact alu2_completes (fun _ => rfl) Alu.minu_eq
  | maxu => cases h; exact alu2_completes (fun _ => rfl) Alu.maxu_eq
  | sra => cases h; exact alu2_completes (fun _ => rfl) Alu.sra_eq
  | rotl => cases h; exact alu2_completes (fun _ => rfl) Alu.rotl_eq
  | absd => cases h; exact alu2_completes (fun _ => rfl) Alu.absd_eq
  | bfx => cases h; exact alu2_completes (fun _ => rfl) Alu.bfx_eq
  | mad => cases h; exact alu3_completes (fun _ => rfl) fun _ _ _ => rfl
  | bfi => cases h; exact alu3_completes (fun _ => rfl) Alu.bfi_eq
  | popc => cases h; exact alu1_completes (fun _ => rfl) Alu.popc_eq
  | clz => cases h; exact alu1_completes (fun _ => rfl) Alu.clz_eq
  | brev => cases h; exact alu1_completes (fun _ => rfl) Alu.brev_eq
  | addi | andi | ori | xori | muli | movhi => cases h; exact alu1_completes (fun _ => rfl) fun _ => rfl
  | shli _ _ m => cases h; exact alu1_completes (fun _ => rfl) fun a => congrArg (a <<< ·) (amount_signExtend m)
  | shri _ _ m => cases h; exact alu1_completes (fun _ => rfl) fun a => congrArg (a >>> ·) (amount_signExtend m)
  | srai _ _ m => cases h; exact alu1_completes (fun _ => rfl) fun a => sra_immediate a m
  | movi d =>
    cases h
    exact Form.CarriedOut.completes (fun _ => rfl) fun _ => Form.regs_carriedOut (by simp) (fun _ _ => .single d _) fun _ _ _ => rfl
  | add16 | sub16 | and16 | or16 | xor16 | shl16 | shr16 | mul16 => cases h; exact alu2_completes (fun _ => rfl) fun _ _ => rfl
  | sra16 => cases h; exact alu2_completes (fun _ => rfl) Alu.sra_eq
  | addi16 => cases h; exact alu1_completes (fun _ => rfl) fun _ => rfl
  | _ => cases h

end Sys2Proof.Machine

/-! SUPPORT. The move and predicate forms are carried out by the lanes of their instructions (R61 to R63, R74 to R76, R82 to R86, R124, R161,
R188, R336). -/

namespace Sys2Proof.Machine

/-! ## Moves, tags and special registers, R61 to R63, R82 to R86, R161, R336 -/

section Move

variable {i : Instr} {d a b : BitVec 5} {l : Bool} {ct : Ctl} {len : Nat}

theorem movReg_completes (h : ∀ s, exec i s = .next (movReg d a l ct len s)) : (Form.copyReg d a l ct len).Completes i := by
  refine Form.CarriedOut.completes h fun _ => Form.regs_carriedOut ?_ (fun _ _ => .single d _) fun s t hread => ?_
  · simpa using a.isLt
  · simp only [State.pureLane, State.readSrc_ok hread, bind, Except.bind]
    rfl

/-- An instruction that reads nothing and writes registers. -/
theorem noSource_completes {writes writes' : State → Nat → List (Nat × BitVec 32 × BitVec 4 × BitVec 7)}
    (h : ∀ s, exec i s = .next (s.issue ct 4 (State.pureLane fun s t => s.finishLane t ⟨writes' s t, [], [], none, .ready⟩)))
    (hw : ∀ s t, FitWrites (writes s t)) (heq : ∀ s t, writes' s t = writes s t) : (Form.regs ct 4 [] false writes).Completes i := by
  obtain rfl : writes' = writes := funext fun s => funext (heq s)
  exact Form.CarriedOut.completes h fun _ => Form.regs_carriedOut (by simp) hw fun _ _ _ => rfl

theorem shflLane_ok {s : State} {t d a b : Nat} {l : Bool} (hread : s.readable t [(b, Acc.any)] = true)
    (hpoison : (shflTakes s t a b && (s.row (crewOf t) a).fmt == 15) = false) :
    shflLane d a b l s t = .ok (s.finishLane t ⟨if shflTakes s t a b then
        [(d, s.reg (shflFrom s t b) a, (s.row (crewOf t) a).fmt, (s.row (crewOf t) a).scl)] else [(d, 0, 0, 0)],
      [], if l then [a, b] else [], none, .ready⟩) := by
  have htakes : (inGroup s t ((s.reg t b).toNat % 32) && liveOrPending s (crewOf t * 32 + (s.reg t b).toNat % 32) a) = shflTakes s t a b := by
    rw [inGroup_eq s t (Nat.mod_lt _ (by decide))]; rfl
  unfold shflLane
  simp only [State.readSrc_ok hread, bind, Except.bind, htakes, hpoison]
  cases shflTakes s t a b <;> rfl

theorem shfl_completes (d a x : BitVec 5) (l : Bool) (ct : Ctl) {f : Form} (h : moveForm (.shfl d a x l ct) = some f) :
    f.Completes (.shfl d a x l ct) := by
  cases h
  refine Form.CarriedOut.completes (fun _ => rfl) fun _ => ⟨fun s t hok hrow => ?run, fun s t _ => FitWrites.shape ?writes ?kills⟩
  case run =>
    obtain ⟨hread, hpoison⟩ := Bool.and_eq_true_iff.mp hok
    have hlane := shflLane_ok (d := d.toNat) (l := l) hread (Bool.eq_false_of_not_eq_true' hpoison)
    simp only [State.pureLane, hlane]
    exact Prod.ext rfl (State.finishLane_ok hrow)
  case writes =>
    dsimp only [Form.regs]
    split <;> exact .single d _
  case kills =>
    cases l with
    | true => simpa [Form.regs] using ⟨a.isLt, x.isLt⟩
    | false => exact fun _ hv => nomatch hv

/-! ### `ballot`, whose lanes see the whole group, R63 -/

/-- What a form says that one lane does. -/
def Form.lane (f : Form) (s : State) (t : Nat) : State × LaneRes :=
  (f.act s t, .done ⟨f.writes s t, f.caps s t, f.kills s t, f.next s t, .ready⟩)

theorem Form.fit_lanes {f : Form} {s : State} (h : f.fit s = true) : (f.lanes s (s.actors f.ct)).2.2 = true := by
  unfold Form.fit at h
  simp only [Bool.and_eq_true] at h
  exact h.1.2

/-- Where the lanes of a form leave the state as it is, each passes its checks there. -/
theorem Form.lanes_ok {f : Form} (hact : ∀ s t, f.act s t = s) {s : State} {ts : List Nat} (h : (f.lanes s ts).2.2 = true) :
    ∀ t ∈ ts, f.ok s t = true ∧ s.rowCheck t ((f.writes s t).map (·.1)) = none := by
  induction ts with
  | nil => simp
  | cons t ts ih =>
    simp only [Form.lanes, hact, Bool.and_eq_true, Option.isNone_iff_eq_none] at h
    obtain ⟨⟨hok, hrow⟩, hrest⟩ := h
    intro u hu
    rcases List.mem_cons.mp hu with rfl | hu
    · exact ⟨hok, hrow⟩
    · exact ih hrest u hu

/-- A form whose lanes change nothing but registers completes where each lane of a group that executes it whole does what it says. -/
theorem Form.completes_of_actors {f : Form} {i : Instr} {op : State → Nat → State × LaneRes}
    (hexec : ∀ s, exec i s = .next (s.issue f.ct f.len op)) (hact : ∀ s t, f.act s t = s)
    (hshape : ∀ s t, f.ok s t = true → (⟨t, f.kills s t, f.writes s t, f.caps s t, f.next s t⟩ : LaneDone).Shape)
    (hrun : ∀ s t, t ∈ s.actors f.ct → f.ok s t = true → s.rowCheck t ((f.writes s t).map (·.1)) = none → op s t = f.lane s t) :
    f.Completes i := by
  intro _ s hfit
  have hcarried : f.CarriedOut f.lane := ⟨fun _ _ _ _ => rfl, hshape⟩
  have hlanes : ∀ t ∈ s.actors f.ct, op s t = f.lane s t ∧ (op s t).1 = s := fun t ht => by
    obtain ⟨hok, hrow⟩ := Form.lanes_ok hact (Form.fit_lanes hfit) t ht
    rw [hrun s t ht hok hrow]
    exact ⟨rfl, hact s t⟩
  refine ⟨_, hexec s, ?_⟩
  rw [issue_congr f.len (runLanes_congr hlanes)]
  exact hcarried.issue s hfit

/-- The mask of a lane of the group names the group's acting threads that pass the test. -/
theorem ballotMask_eq {s : State} {t : Nat} (a : Nat) {ct : Ctl} (ht : t ∈ s.actors ct) :
    ballotMask a ct s t = laneMask (((s.actors ct).filter fun u => (s.tagOf u a).1 != 15 && s.reg u a != 0).map laneOf) := by
  obtain ⟨g, hg⟩ : ∃ g, s.slots.find? s.cur = some g := by
    cases hg : s.slots.find? s.cur with
    | some g => exact ⟨g, rfl⟩
    | none => have := State.mem_actors ht; simp [slotThreads, hg] at this
  have hcrew := slotThreads_crew hg
  apply BitVec.eq_of_getLsbD_eq
  intro j hj
  have hbit := foldl_setBit (fun i => i) (fun i => inGroup s t i && !s.guardedOff (crewOf t * 32 + i) ct &&
    (s.tagOf (crewOf t * 32 + i) a).1 != 15 && s.reg (crewOf t * 32 + i) a != 0) hj (span 0 32) (fun i _ => eq_comm) 0#32
  rw [if_pos (mem_span.mpr (by omega))] at hbit
  refine hbit.trans ?_
  rw [laneMask_getLsbD _ _ hj, inGroup_eq s t hj, Bool.eq_iff_iff, decide_eq_true_iff]
  simp only [Bool.and_eq_true, List.mem_map, List.mem_filter, List.contains_iff_mem, State.actors]
  constructor
  · rintro ⟨⟨⟨hmem, hon⟩, hlive⟩, hreg⟩
    exact ⟨_, ⟨⟨hmem, hon⟩, hlive, hreg⟩, by unfold laneOf; omega⟩
  · rintro ⟨u, ⟨⟨hmem, hon⟩, hlive, hreg⟩, hlane⟩
    have hu : crewOf t * 32 + j = u := by
      have hsame : crewOf u = crewOf t := (hcrew u hmem).trans (hcrew t (State.mem_actors ht)).symm
      unfold crewOf laneOf at *
      omega
    rw [hu]
    exact ⟨⟨⟨hmem, hon⟩, hlive⟩, hreg⟩

theorem ballot_completes (d a : BitVec 5) (l : Bool) (ct : Ctl) {f : Form} (h : moveForm (.ballot d a l ct) = some f) :
    f.Completes (.ballot d a l ct) := by
  cases h
  refine Form.completes_of_actors (fun _ => rfl) (fun _ _ => rfl) (fun s t _ => (FitWrites.single d _).shape ?kills)
    fun s t ht hread hrow => ?run
  case kills =>
    cases l with
    | true => simpa [Form.regs] using a.isLt
    | false => exact fun _ hv => nomatch hv
  case run =>
    have hmask := ballotMask_eq a.toNat (ct := ct) ht
    simp only [State.pureLane, State.readSrc_ok hread, bind, Except.bind, hmask]
    exact Prod.ext rfl (State.finishLane_ok hrow)

theorem tagrd_word (tag : BitVec 4 × BitVec 7) : (tag.2 ++ tag.1).setWidth 32 = BitVec.ofNat 32 (tag.1.toNat + tag.2.toNat * 16) := by
  apply BitVec.eq_of_toNat_eq
  have h1 := tag.1.isLt
  have h2 := tag.2.isLt
  rw [BitVec.toNat_setWidth, BitVec.toNat_append, BitVec.toNat_ofNat, Nat.shiftLeft_eq, Nat.or_comm, ← Nat.mul_comm (2 ^ 4),
    Nat.or_comm, ← Nat.two_pow_add_eq_or_of_lt h1]
  congr 1
  omega

theorem rdsr_completes (d : BitVec 5) (x : BitVec 8) (ct : Ctl) {f : Form} (h : moveForm (.rdsr d x ct) = some f) : f.Completes (.rdsr d x ct) := by
  cases h
  refine Form.CarriedOut.completes (fun _ => rfl) fun _ => ⟨fun s t _ hrow => ?_, fun s t _ => (FitWrites.single d _).shape (by simp [Form.regs])⟩
  rw [State.finishLane_ok (d := oneReg d.toNat (sreg s t x.toNat) 1 0 false []) hrow]
  rfl

theorem wrsr_completes (a : BitVec 5) (x : BitVec 8) (ct : Ctl) {f : Form} (h : moveForm (.wrsr a x ct) = some f) : f.Completes (.wrsr a x ct) := by
  cases h
  refine Form.CarriedOut.completes (fun _ => rfl) fun _ => ⟨fun s t hok _ => ?_, fun s t _ => FitWrites.nil.shape fun _ hv => nomatch hv⟩
  obtain ⟨hmode, hread⟩ := Bool.and_eq_true_iff.mp hok
  have hmay : (x != 0x14 && !s.kernel t) = false := by
    rw [bne, ← Bool.not_or, hmode]; rfl
  simp only [hmay, State.readSrc_ok hread, bind, Except.bind, failIf]
  rfl

end Move

/-- Settles O10: each lane reads its source, and writes its bits or its tag or what the device knows of the thread. -/
theorem moveForms : Obligations.MoveForms := by
  unfold Obligations.MoveForms
  intro i f h
  cases i with
  | mov | mov16 => cases h; exact movReg_completes fun _ => rfl
  | shfl d a x l ct => exact shfl_completes d a x l ct h
  | ballot d a l ct => exact ballot_completes d a l ct h
  | tag d f k =>
    cases h
    refine Form.CarriedOut.completes (fun _ => rfl) fun _ => Form.regs_carriedOut ?_ (fun _ _ => .single d _) fun s t hread => ?_
    · simpa using d.isLt
    · simp only [State.pureLane, State.readSrc_ok hread, bind, Except.bind]
      rfl
  | tagrd d a =>
    cases h
    exact noSource_completes (fun _ => rfl) (fun _ _ => .single d _) fun s t => by rw [tagrd_word]
  | rdsr d x ct => exact rdsr_completes d x ct h
  | wrsr a x ct => exact wrsr_completes a x ct h
  | pstat r v => cases h; exact noSource_completes (fun _ => rfl) (fun _ _ => .single v _) fun _ _ => rfl
  | rpos d => cases h; exact noSource_completes (fun _ => rfl) (fun _ _ => .single d _) fun _ _ => rfl
  | _ => cases h

end Sys2Proof.Machine

namespace Sys2Proof.Machine

/-! ## Predicates, R74 to R76, R124, R188 -/

/-- A form that writes no register: what a lane that passes its checks does to the state, and the registers that it kills. -/
theorem Form.acting_carriedOut {ct : Ctl} {ok : State → Nat → Bool} {kills : List Nat} {act : State → Nat → State}
    {op : State → Nat → State × LaneRes} (hkills : ∀ v ∈ kills, v < 32)
    (hrun : ∀ s t, ok s t = true → op s t = (act s t, killing kills)) : (Form.acting ct ok kills act).CarriedOut op :=
  ⟨fun s t hok _ => hrun s t hok, fun _ _ _ => FitWrites.nil.shape hkills⟩

/-- A form is carried out whatever checks it lists. -/
theorem Form.CarriedOut.relist {f : Form} {op : State → Nat → State × LaneRes} (h : f.CarriedOut op) (cs : State → Nat → List Check)
    (lease : State → Nat → Bool) : Form.CarriedOut { f with checks := cs, lease := lease } op :=
  ⟨h.run, h.shape⟩

theorem comb_eq (m : BitVec 2) (old c : Bool) : combine m old c = comb m old c := by revert m old c; decide

section Predicate

variable {i : Instr} {p : BitVec 4} {a b : BitVec 5} {m : BitVec 2} {ct : Ctl}

theorem compare_completes {acc : BitVec 4 → Bool} {g g' : BitVec 32 → BitVec 32 → Bool}
    (h : ∀ s, exec i s = .next (cmpExec acc g' p a b m ct s)) (hg : ∀ x y, g' x y = g x y) : (Form.compare acc g p a b m ct).Completes i := by
  obtain rfl : g' = g := funext fun x => funext (hg x)
  refine Form.CarriedOut.completes h fun _ => (Form.acting_carriedOut (by simp) fun s t hread => ?_).relist _ _
  obtain ⟨ha, hb⟩ := State.readable_cons.mp hread
  simp only [predLane, State.readSrc_ok ha, State.readSrc_ok hb, bind, Except.bind, comb_eq]
  rfl

theorem pairBits_decode (s : State) (t v : Nat) : (s.reg t (v + 1) ++ s.reg t v).toNat = pairBits s t v := by
  have h := (s.reg t v).isLt
  unfold pairBits
  rw [BitVec.toNat_append, Nat.shiftLeft_eq, Nat.mul_comm, ← Nat.two_pow_add_eq_or_of_lt h, Nat.mul_comm, Nat.add_comm]

theorem widthCheck_ok {vs : List Nat} (h : ∀ v ∈ vs, v % 2 = 0) : widthCheck vs = .ok () := by
  refine (Checks.widthCheck vs).passes (firstFailure_eq_none.mpr ?_)
  unfold pairChecks
  rw [List.forall_mem_map]
  intro v hv
  simp [h v hv]

/-- The operands of a compare whose registers can be read, R124. -/
theorem fcmpOperands_ok {s : State} {t a b : Nat} (ha : s.readable t [(a, fun f => f == 0 || f == 2 || f == 3)] = true)
    (h : (if s.fmtOf t a = 3 then a % 2 == 0 && b % 2 == 0 && s.readable t [(a + 1, Acc.f64), (b, Acc.f64), (b + 1, Acc.f64)]
      else s.readable t [(b, Acc.f32)]) = true) : fcmpOperands s t a b = .ok (fcmpVals s t a b) := by
  unfold fcmpOperands fcmpVals
  by_cases h3 : s.fmtOf t a = 3
  · rw [if_pos h3] at h ⊢
    simp only [Bool.and_eq_true, beq_iff_eq] at h
    obtain ⟨⟨haeven, hbeven⟩, hread⟩ := h
    obtain ⟨hhigh, hpair⟩ := State.readable_cons.mp hread
    have hwidth : widthCheck [a, b] = .ok () := widthCheck_ok (by simp [haeven, hbeven])
    simp only [State.readSrc_ok ha, State.readSrc_ok hhigh, State.readPair_ok hpair, hwidth, bind, Except.bind, if_pos h3, pairBits_decode]
  · rw [if_neg h3] at h ⊢
    simp only [State.readSrc_ok ha, State.readSrc_ok h, bind, Except.bind, if_neg h3]

theorem fcompare_completes {quiet : Bool} {g : Val → Val → Bool} (h : ∀ s, exec i s = .next (fcmpExec quiet g p a b m ct s)) :
    (Form.fcompare quiet g p a b m ct).Completes i := by
  refine Form.CarriedOut.completes h fun _ => (Form.acting_carriedOut (by simp) fun s t hok => ?_).relist _ _
  obtain ⟨ha, hb⟩ := Bool.and_eq_true_iff.mp hok
  simp only [predLane, fcmpOperands_ok ha hb, bind, Except.bind, comb_eq]
  rfl

end Predicate

theorem pmov_completes (v : BitVec 5) (r : Bool) (ct : Ctl) {f : Form} (h : predicateForm (.pmov v r ct) = some f) : f.Completes (.pmov v r ct) := by
  cases h
  cases r with
  | true =>
    refine Form.CarriedOut.completes (fun _ => rfl) fun _ => (Form.acting_carriedOut (by simp) fun s t hread => ?_).relist _ _
    simp only [if_true, State.readSrc_ok hread, bind, Except.bind]
    rfl
  | false =>
    exact Form.CarriedOut.completes (fun _ => rfl) fun _ => Form.regs_carriedOut (by simp) (fun _ _ => .single v _) fun _ _ _ => rfl

theorem ctst_completes (p : BitVec 4) (c : BitVec 3) (v : BitVec 5) (k : BitVec 4) (ct : Ctl) {f : Form}
    (h : predicateForm (.ctst p c v k ct) = some f) : f.Completes (.ctst p c v k ct) := by
  cases h
  refine Form.CarriedOut.completes (fun _ => rfl) fun _ => (Form.acting_carriedOut (by simp) fun s t hok => ?_).relist _ _
  obtain ⟨hclean, hread⟩ := Bool.and_eq_true_iff.mp hok
  by_cases hlen : k = 1 ∨ k = 2
  · have hread : s.readable t [(v.toNat, Acc.int)] = true := by rcases hlen with rfl | rfl <;> exact hread
    simp only [State.capPoison_ok hclean, if_pos hlen, State.readSrc_ok hread, bind, Except.bind]
    rfl
  · simp only [State.capPoison_ok hclean, if_neg hlen, bind, Except.bind]
    rfl

/-- Settles O12: each lane reads its sources and writes its predicate, or the register that `pmov` names. -/
theorem predicateForms : Obligations.PredicateForms := by
  unfold Obligations.PredicateForms
  intro i f h
  cases i with
  | cmpeq | cmpne => cases h; exact compare_completes (fun _ => rfl) fun _ _ => rfl
  | cmplt => cases h; exact compare_completes (fun _ => rfl) fun _ _ => BitVec.slt_eq_decide
  | cmple => cases h; exact compare_completes (fun _ => rfl) fun _ _ => BitVec.sle_eq_decide
  | cmpltu => cases h; exact compare_completes (fun _ => rfl) fun _ _ => BitVec.ult_eq_decide
  | cmpleu => cases h; exact compare_completes (fun _ => rfl) fun _ _ => BitVec.ule_eq_decide
  | fcmpeq | fcmplt | fcmple | fcmpun => cases h; exact fcompare_completes fun _ => rfl
  | pset =>
    cases h
    exact Form.CarriedOut.completes (fun _ => rfl) fun _ => Form.acting_carriedOut (by simp) fun _ _ _ => rfl
  | pmov v r ct => exact pmov_completes v r ct h
  | ctst p c v k ct => exact ctst_completes p c v k ct h
  | _ => cases h

end Sys2Proof.Machine

/-! SUPPORT. The forms that reach memory are carried out by the lanes of their instructions: loads, stores, atomics, fences, hints, flushes,
queries and copies at issue (R68 to R71, R87, R125 to R127, R189, R190, R256, R271 to R287). -/

namespace Sys2Proof.Machine

/-! ## Little-endian bytes -/

theorem take_leBytes {m n : Nat} (h : m ≤ n) (v : Nat) : (leBytes n v).take m = leBytes m v := by
  induction m generalizing n v with
  | zero => rfl
  | succ m ih =>
    obtain ⟨k, rfl⟩ : ∃ k, n = k + 1 := ⟨n - 1, by omega⟩
    rw [leBytes, leBytes, List.take_succ_cons, ih (by omega)]

theorem leBytes_add (m n v : Nat) : leBytes (m + n) v = leBytes m v ++ leBytes n (v / 256 ^ m) := by
  induction m generalizing v with
  | zero => simp [leBytes]
  | succ m ih =>
    rw [Nat.add_right_comm, leBytes, leBytes, ih, List.cons_append, Nat.div_div_eq_div_mul, Nat.pow_succ']

theorem leBytes_mod (m v : Nat) : leBytes m (v % 256 ^ m) = leBytes m v := by
  induction m generalizing v with
  | zero => rfl
  | succ m ih =>
    have hlow : v % 256 ^ (m + 1) % 256 = v % 256 := by
      rw [Nat.pow_succ']; exact Nat.mod_mul_right_mod ..
    have hhigh : v % 256 ^ (m + 1) / 256 = v / 256 % 256 ^ m := by
      rw [Nat.pow_succ']; exact Nat.mod_mul_right_div_self ..
    rw [leBytes, leBytes, hhigh, ih]
    congr 1
    exact BitVec.eq_of_toNat_eq hlow

/-- The bytes of a pair are those of its two registers, R71, R102. -/
theorem leBytes_pairBits (s : State) (t v : Nat) :
    leBytes 4 (s.reg t v).toNat ++ leBytes 4 (s.reg t (v + 1)).toNat = leBytes 8 (pairBits s t v) := by
  have h := (s.reg t v).isLt
  have hlow : pairBits s t v % 256 ^ 4 = (s.reg t v).toNat := by unfold pairBits; omega
  have hhigh : pairBits s t v / 256 ^ 4 = (s.reg t (v + 1)).toNat := by unfold pairBits; omega
  rw [leBytes_add 4 4, hhigh, ← leBytes_mod 4 (pairBits s t v), hlow]

/-! ## Loads and stores, R68 to R73, R125 to R127, R189, R190 -/

theorem groupRegs_lt (c : BitVec 3) : ∀ v ∈ State.groupRegs c.toNat, v < 32 := by
  intro v hv
  have hc := c.isLt
  have := mem_span.mp hv
  omega

/-- An access whose place lies within the lease acts there. -/
theorem atPlace_ok {s : State} {t k : Nat} {off : Int} {write : Bool} (h : (s.placeOf t k off write).isSome = true)
    (act : State → Place → State) (r : LaneRes) :
    atPlace s t (s.capGroup t k) (s.effAddr t k off).toNat write (fun s p => (act s p, r)) = (s.atPlaceOf t k off write act, r) := by
  unfold State.placeOf at h
  unfold atPlace State.atPlaceOf
  cases hp : s.place t (s.capGroup t k) (s.effAddr t k off).toNat write with
  | mk s1 p =>
    rw [hp] at h
    cases p with
    | none => cases h
    | some p => rfl

/-- A translation at issue changes what the TLBs hold and which redirected lines are hot, R220, R241. -/
theorem place_translations (s : State) (t : Nat) (c : Cap) (ea : Nat) (write : Bool) :
    ∃ tlb aliases, (s.place t c ea write).1 = { s with tlb := tlb, alias_ := aliases } := by
  have hwalk (w va : Nat) : ∃ aliases, s.walkHot w va = { s with alias_ := aliases } := by
    unfold State.walkHot
    split
    · exact ⟨s.alias_, rfl⟩
    · split
      · exact ⟨s.alias_, rfl⟩
      · exact ⟨_, State.raiseHots_aliases _ s⟩
  unfold State.place
  split
  · exact ⟨s.tlb, s.alias_, rfl⟩
  · unfold State.translate
    dsimp only
    split
    · exact ⟨s.tlb, s.alias_, rfl⟩
    · split
      · exact ⟨s.tlb, s.alias_, rfl⟩
      · split
        · exact ⟨s.tlb, s.alias_, rfl⟩
        · obtain ⟨aliases, hhot⟩ := hwalk (s.gangWorld (gangOf t)) ea
          rw [hhot]
          exact ⟨_, aliases, rfl⟩

theorem atPlace_congr {s : State} {t : Nat} {c : Cap} {ea : Nat} {write : Bool} {k k' : State → Place → State × LaneRes}
    (h : ∀ tlb aliases p, k { s with tlb := tlb, alias_ := aliases } p = k' { s with tlb := tlb, alias_ := aliases } p) :
    atPlace s t c ea write k = atPlace s t c ea write k' := by
  obtain ⟨tlb, aliases, hplace⟩ := place_translations s t c ea write
  unfold atPlace
  generalize s.place t c ea write = r at hplace
  obtain ⟨s1, p⟩ := r
  dsimp only at hplace
  subst hplace
  cases p with
  | none => rfl
  | some p => exact h tlb aliases p

section Access

variable {i : Instr} {d : BitVec 5} {c : BitVec 3} {o : BitVec 8} {l : Bool} {ct : Ctl} {off : Int} {size : Nat} {vs kills : List Nat}

theorem load_completes {fn : State → Nat → LoadFn} (h : ∀ s, exec i s = .next (s.issue ct 4 (loadLane c.toNat off size l vs fn))) :
    (Form.load ct c off size l vs fn).Completes i := by
  refine Form.CarriedOut.completes h fun _ => (Form.acting_carriedOut (by simp) fun s t hok => ?_).relist _ _
  simp only [Bool.and_eq_true, decide_eq_true_eq] at hok
  obtain ⟨⟨⟨⟨hclean, hcap⟩, hrows⟩, hroom⟩, hplace⟩ := hok
  simp only [loadLane, State.capPoison_ok hclean, State.plainAccess_ok hcap, State.rowsFor_ok hrows, State.roomIn_ok hroom, bind, Except.bind]
  exact atPlace_ok hplace _ _

theorem store_carriedOut {ok : State → Nat → Bool} {own : State → Nat → List Check} {data : State → Nat → List (BitVec 8) × Bool × BitVec 32}
    {op : State → Nat → State × LaneRes} (hkills : ∀ v ∈ kills, v < 32)
    (hrun : ∀ s t, s.clean t c.toNat = true → ok s t = true → s.plainAccess t c.toNat off size (·.w) = .ok (s.effAddr t c.toNat off) →
      State.roomIn (s.thread t).st = .ok () → op s t = atPlace s t (s.capGroup t c.toNat) (s.effAddr t c.toNat off).toNat true fun s1 p =>
        (((s1.addOp t (.store p (data s t).1 (data s t).2.1)).incSt t).raise t (data s t).2.2, killing kills)) :
    (Form.store ct c off size kills ok own data).CarriedOut op := by
  refine (Form.acting_carriedOut hkills fun s t hok => ?_).relist _ _
  simp only [Bool.and_eq_true, decide_eq_true_eq] at hok
  obtain ⟨⟨⟨⟨hclean, hown⟩, hcap⟩, hroom⟩, hplace⟩ := hok
  rw [hrun s t hclean hown (State.plainAccess_ok hcap) (State.roomIn_ok hroom)]
  exact atPlace_ok hplace _ _

/-- The registers that the last-read bit of a store kills: its capability group and what it stores. -/
theorem storeKills_lt (l : Bool) (c : BitVec 3) {srcs : List Nat} (h : l = true → ∀ v ∈ srcs, v < 32) :
    ∀ v ∈ (if l then State.groupRegs c.toNat ++ srcs else []), v < 32 := by
  cases l with
  | false => exact fun _ hv => nomatch hv
  | true =>
    intro v hv
    rcases List.mem_append.mp hv with hv | hv
    · exact groupRegs_lt c v hv
    · exact h rfl v hv

theorem storeLane_carriedOut {srcs : List Nat} {ok : State → Nat → Bool} {own : State → Nat → List Check}
    {data : State → Nat → List (BitVec 8) × Bool × BitVec 32} {data' : State → Nat → Rd (List (BitVec 8) × BitVec 32)}
    (hsrcs : l = true → ∀ v ∈ srcs, v < 32)
    (hdata : ∀ s t, ok s t = true → data' s t = .ok ((data s t).1, (data s t).2.2) ∧ (data s t).2.1 = false) :
    (Form.store ct c off size (if l then State.groupRegs c.toNat ++ srcs else []) ok own data).CarriedOut
      (storeLane c.toNat off size l srcs data') := by
  refine store_carriedOut (storeKills_lt l c hsrcs) fun s t hclean hown haccess hroom => ?_
  obtain ⟨hread, htag⟩ := hdata s t hown
  simp only [storeLane, State.capPoison_ok hclean, haccess, hroom, hread, bind, Except.bind, htag]
  rfl

/-- The registers of a plain store are those that hold its bytes. -/
theorem storedRegs (size : Nat) (d : BitVec 5) : (if size = 8 then [d.toNat, d.toNat + 1] else [d.toNat]) =
    span d.toNat (if size = 8 then [d.toNat, d.toNat + 1] else [d.toNat]).length := by
  split <;> rfl

theorem storedRegs_lt {size : Nat} {d : BitVec 5} (heven : size = 8 → d.toNat % 2 = 0) :
    ∀ v ∈ (if size = 8 then [d.toNat, d.toNat + 1] else [d.toNat]), v < 32 := by
  have hd := d.isLt
  intro v hv
  split at hv
  next h8 =>
    have := heven h8
    simp only [List.mem_cons, List.not_mem_nil, or_false] at hv
    omega
  next =>
    obtain rfl := List.mem_singleton.mp hv
    exact hd

/-- The bytes that a plain store takes from its registers, R70. -/
theorem storedBytes (s : State) (t : Nat) (hsize : size = 8 ∨ size ≤ 4) :
    (((if size = 8 then [d.toNat, d.toNat + 1] else [d.toNat]).map (s.reg t)).flatMap fun x => leBytes 4 x.toNat).take size =
      leBytes size (if size = 8 then pairBits s t d.toNat else (s.reg t d.toNat).toNat) := by
  by_cases h8 : size = 8
  · subst h8
    have htake : (leBytes 8 (pairBits s t d.toNat)).take 8 = leBytes 8 (pairBits s t d.toNat) := take_leBytes (Nat.le_refl 8) _
    simp only [if_true, List.map_cons, List.map_nil, List.flatMap_cons, List.flatMap_nil, List.append_nil, leBytes_pairBits, htake]
  · simp only [if_neg h8, List.map_cons, List.map_nil, List.flatMap_cons, List.flatMap_nil, List.append_nil]
    exact take_leBytes (hsize.resolve_left h8) _

theorem plainStore_completes (hsize : size = 8 ∨ size ≤ 4) (h : ∀ s, exec i s = .next (storeExec size d c o l ct s))
    (heven : size = 8 → wellFormed i = true → d.toNat % 2 = 0) : (Form.plainStore size d c o l ct).Completes i := by
  refine Form.CarriedOut.completes h fun hwf =>
    storeLane_carriedOut (fun _ => storedRegs_lt fun h8 => heven h8 hwf) fun s t hread => ⟨?_, rfl⟩
  have hregs := (Checks.readListed s t Acc.any (storedRegs size d)).passes (firstFailure_sourceChecks hread)
  rw [hregs]
  exact congrArg (fun bs => Except.ok (bs, (0 : BitVec 32))) (storedBytes s t hsize)

theorem stc_completes {f : Form} (h : accessForm (.stc d c o l ct) = some f) : f.Completes (.stc d c o l ct) := by
  cases h
  have hgroup : ∀ v ∈ State.groupRegs (d.toNat / 4), v < 32 := fun v hv => by
    have hd := d.isLt
    have := mem_span.mp hv
    omega
  refine Form.CarriedOut.completes (fun _ => rfl) fun _ =>
    (store_carriedOut (storeKills_lt l c fun _ => hgroup) fun s t hclean hown haccess hroom => ?_).relist _ _
  obtain ⟨hclean', hmay⟩ := Bool.and_eq_true_iff.mp hown
  have hsc : (s.capValid t (d.toNat / 4) && !(s.capGroup t c.toNat).sc) = false := by grind
  have hg : (s.capValid t (d.toNat / 4) && (s.capGroup t c.toNat).kind == 0 && !(s.capGroup t (d.toNat / 4)).g) = false := by grind
  have haccess : s.plainAccess t c.toNat (memOff o 16) 16 (·.w) = .ok (s.effAddr t c.toNat (o.toInt * 16)) := haccess
  simp only [State.capPoison_ok hclean, State.capPoison_ok hclean', haccess, hroom, hsc, hg, failIf, bind, Except.bind]
  exact atPlace_congr fun _ _ _ => rfl

end Access

theorem accessForm_completes {i : Instr} {f : Form} (h : accessForm i = some f) : f.Completes i := by
  cases i with
  | ldb | ldbu | ldh | ldhu | ldw | ldd | ldc | ldt => cases h; exact load_completes fun _ => rfl
  | stb | sth | stw => cases h; exact plainStore_completes (.inr (by decide)) (fun _ => rfl) fun h8 => absurd h8 (by decide)
  | std d c o l ct =>
    cases h
    refine plainStore_completes (.inl rfl) (fun _ => rfl) fun _ hwf => ?_
    have hfields : (WellFormed.guard ct && WellFormed.even d) = true := (Bool.and_eq_true_iff.mp hwf).1
    exact beq_iff_eq.mp (Bool.and_eq_true_iff.mp hfields).2
  | stc => exact stc_completes h
  | stt x c m k sat ct =>
    cases h
    refine Form.CarriedOut.completes (fun _ => rfl) fun _ =>
      storeLane_carriedOut (l := false) (srcs := []) (fun hl => nomatch hl) fun s t hread => ⟨?_, rfl⟩
    simp only [State.readGroup_ok _ _ hread, bind, Except.bind]
    rfl
  | _ => cases h

end Sys2Proof.Machine

namespace Sys2Proof.Machine

/-! ## Atomics, R271, R272 -/

/-- The 64 bits that an atomic takes from a register, or from its pair, R271. -/
def atomBits (fn : AtomFn) (s : State) (t v x : Nat) : BitVec 64 :=
  if atomWide fn s t v then BitVec.ofNat 64 (pairBits s t x) else (s.reg t x).setWidth 64

/-- Whether an atomic compares with D. -/
def AtomFn.swaps (fn : AtomFn) : Bool := match fn with | .cas | .casD => true | _ => false

theorem pair_eq (s : State) (t v : Nat) : s.reg t (v + 1) ++ s.reg t v = BitVec.ofNat 64 (pairBits s t v) := by
  rw [← pairBits_decode, BitVec.ofNat_toNat, BitVec.setWidth_eq]

theorem atomOperands_ok {fn : AtomFn} {d v : Nat} {s : State} {t : Nat}
    (hread : s.readable t ((v, atomAccept fn) :: (if atomWide fn s t v then [(v + 1, if s.fmtOf t v = 3 ∧ fn = .fadd then Acc.f64 else atomAccept fn)]
      else []) ++ (if fn.swaps then (if atomWide fn s t v then [d, d + 1] else [d]).map fun x => (x, Acc.any) else [])) = true)
    (heven : (fn != .fadd || !atomWide fn s t v || (d % 2 == 0 && v % 2 == 0)) = true) :
    atomOperands fn d v s t = .ok (atomBits fn s t v v, if fn.swaps then atomBits fn s t v d else 0, atomWide fn s t v) := by
  rw [List.cons_append] at hread
  obtain ⟨hv, hrest⟩ := State.readable_cons.mp hread
  cases fn with
  | cas =>
    have hd : s.readable t [(d, Acc.any)] = true := hrest
    simp only [atomOperands, State.readSrc_ok (acc := Acc.any) hv, State.readSrc_ok hd, bind, Except.bind]
    rfl
  | casD =>
    obtain ⟨hv1, hdd⟩ := State.readable_cons.mp hrest
    have hpair : s.readable t [(v, Acc.any), (v + 1, Acc.any)] = true := State.readable_cons.mpr ⟨hv, by simpa [atomAccept] using hv1⟩
    have hdd : s.readable t [(d, Acc.any), (d + 1, Acc.any)] = true := hdd
    simp only [atomOperands, State.readPair_ok hpair, State.readPair_ok hdd, pair_eq, bind, Except.bind]
    rfl
  | addD =>
    have hpair : s.readable t [(v, Acc.int), (v + 1, Acc.int)] = true :=
      State.readable_cons.mpr ⟨hv, by simpa [atomAccept, atomWide, AtomFn.swaps] using hrest⟩
    simp only [atomOperands, State.readPair_ok hpair, pair_eq, bind, Except.bind]
    rfl
  | fadd =>
    have hwide : atomWide .fadd s t v = (s.fmtOf t v == 3) := rfl
    have hnoswap : AtomFn.fadd.swaps = false := rfl
    rw [hwide] at hrest heven
    unfold atomBits
    rw [hwide, hnoswap]
    by_cases h3 : s.fmtOf t v = 3
    · have heven : d % 2 = 0 ∧ v % 2 = 0 := by simpa [h3] using heven
      have hhigh : s.readable t [(v + 1, Acc.f64)] = true := by simpa [h3, hnoswap] using hrest
      have hwidth : widthCheck [d, v] = .ok () := widthCheck_ok (by simp [heven])
      simp only [atomOperands, State.readSrc_ok hv, State.readSrc_ok hhigh, hwidth, if_pos h3, beq_iff_eq.mpr h3, pair_eq, bind, Except.bind]
      rfl
    · simp only [atomOperands, State.readSrc_ok hv, if_neg h3, beq_eq_false_iff_ne.mpr h3, bind, Except.bind]
      rfl
  | add | smin | smax | umin | umax | and | or | xor | xchg =>
    simp only [atomOperands, State.readSrc_ok hv, bind, Except.bind]
    rfl

theorem atomic_completes {i : Instr} {fn : AtomFn} {d : BitVec 5} {c : BitVec 3} {v : BitVec 5} {o : BitVec 3} {ct : Ctl} {word : BitVec 32}
    (h : ∀ s, exec i s = .next (atomExec fn d c v o ct word s)) : (Form.atomic fn d c v o ct word).Completes i := by
  refine Form.CarriedOut.completes h fun _ => (Form.acting_carriedOut (by simp) fun s t hok => ?_).relist _ _
  simp only [Bool.and_eq_true, decide_eq_true_eq] at hok
  obtain ⟨⟨⟨⟨⟨⟨⟨hscope, hclean⟩, hread⟩, heven⟩, hcap⟩, hrows⟩, hroom⟩, hplace⟩ := hok
  simp only [atomLane, State.scopeCheck_ok word hscope, State.capPoison_ok hclean, atomOperands_ok hread heven, State.plainAccess_ok hcap,
    State.rowsFor_ok hrows, State.roomIn_ok hroom, bind, Except.bind]
  refine (atPlace_congr fun _ _ _ => ?_).trans (atPlace_ok hplace _ _)
  rfl

theorem atomicForm_completes {i : Instr} {f : Form} (h : atomicForm i = some f) : f.Completes i := by
  cases i with
  | aadd | amin | amax | aminu | amaxu | aand | aor | axor | axchg | acas | afadd | aaddD | acasD => cases h; exact atomic_completes fun _ => rfl
  | _ => cases h

/-! ## Fences, hints, flushes, queries and copies, R256, R275 to R287 -/

theorem fence_completes (o : BitVec 3) (k : BitVec 2) (ct : Ctl) {f : Form} (h : orderForm (.fence o k ct) = some f) :
    f.Completes (.fence o k ct) := by
  cases h
  refine Form.CarriedOut.completes (fun _ => rfl) fun _ => (Form.acting_carriedOut (by simp) fun s t hscope => ?_).relist _ _
  simp only [State.scopeCheck_ok _ hscope, bind, Except.bind]
  rfl

theorem lastRead_lt (l : Bool) (c : BitVec 3) : ∀ v ∈ (if l then State.groupRegs c.toNat else []), v < 32 := by
  cases l with
  | false => exact fun _ hv => nomatch hv
  | true => exact groupRegs_lt c

theorem cflush_completes (p : BitVec 5) (c : BitVec 3) (x : BitVec 3) (l : Bool) (ct : Ctl) {f : Form}
    (h : orderForm (.cflush p c x l ct) = some f) : f.Completes (.cflush p c x l ct) := by
  cases h
  refine Form.CarriedOut.completes (fun _ => rfl) fun _ => (Form.acting_carriedOut (lastRead_lt l c) fun s t hok => ?_).relist _ _
  simp only [Bool.and_eq_true, decide_eq_true_eq] at hok
  obtain ⟨⟨⟨⟨hscope, hclean⟩, hcap⟩, hroom⟩, hplace⟩ := hok
  simp only [State.scopeCheck_ok _ hscope, State.capPoison_ok hclean, State.capChecks_ok hcap, State.roomIn_ok hroom, bind, Except.bind]
  exact atPlace_ok hplace _ _

theorem aqry_completes (d : BitVec 5) (c : BitVec 3) (ct : Ctl) {f : Form} (h : orderForm (.aqry d c ct) = some f) : f.Completes (.aqry d c ct) := by
  cases h
  refine Form.CarriedOut.completes (fun _ => rfl) fun _ => (Form.acting_carriedOut (by simp) fun s t hok => ?_).relist _ _
  simp only [Bool.and_eq_true, decide_eq_true_eq] at hok
  obtain ⟨⟨⟨⟨hclean, hcap⟩, hrows⟩, hroom⟩, hplace⟩ := hok
  simp only [State.capPoison_ok hclean, State.capChecks_ok hcap, State.rowsFor_ok hrows, State.roomIn_ok hroom, bind, Except.bind]
  exact atPlace_ok hplace _ _

theorem amat_completes (c : BitVec 3) (v : BitVec 5) (o : BitVec 3) (ct : Ctl) {f : Form} (h : orderForm (.amat c v o ct) = some f) :
    f.Completes (.amat c v o ct) := by
  cases h
  refine Form.CarriedOut.completes (fun _ => rfl) fun _ => (Form.acting_carriedOut (by simp) fun s t hok => ?_).relist _ _
  simp only [Bool.and_eq_true, decide_eq_true_eq] at hok
  obtain ⟨⟨⟨⟨hscope, hclean⟩, hread⟩, hcap⟩, hroom⟩ := hok
  simp only [State.scopeCheck_ok _ hscope, State.capPoison_ok hclean, State.readSrc_ok hread, State.capChecks_ok hcap, State.roomIn_ok hroom,
    bind, Except.bind]
  rfl

theorem copyCap_ok {s : State} {t k n align : Nat} {kind : Nat → Bool} {perm : Cap → Bool}
    (h : s.capFit t k kind perm (s.capGroup t k).cursor n align = true) : copyCap s t k kind perm n align = .ok () := State.capChecks_ok h

theorem cpy_completes (d g : BitVec 3) (v : BitVec 5) (o : BitVec 3) (x : Bool) (ct : Ctl) {f : Form}
    (h : orderForm (.cpy d g v o x ct) = some f) : f.Completes (.cpy d g v o x ct) := by
  cases h
  refine Form.CarriedOut.completes (fun _ => rfl) fun _ => (Form.acting_carriedOut (by simp) fun s t hok => ?_).relist _ _
  simp only [Bool.and_eq_true, decide_eq_true_eq] at hok
  obtain ⟨⟨⟨⟨⟨⟨hscope, hclean⟩, hclean'⟩, hread⟩, hsrc⟩, hdst⟩, hroom⟩ := hok
  simp only [State.scopeCheck_ok _ hscope, State.capPoison_ok hclean, State.capPoison_ok hclean', State.readSrc_ok hread, copyCap_ok hsrc,
    copyCap_ok hdst, State.roomIn_ok hroom, bind, Except.bind]
  rfl

theorem tcpy_completes (k b : BitVec 3) (v : BitVec 5) (o : BitVec 3) (x : Bool) (ct : Ctl) {f : Form}
    (h : orderForm (.tcpy k b v o x ct) = some f) : f.Completes (.tcpy k b v o x ct) := by
  cases h
  refine Form.CarriedOut.completes (fun _ => rfl) fun _ => (Form.acting_carriedOut (by simp) fun s t hok => ?_).relist _ _
  simp only [Bool.and_eq_true, decide_eq_true_eq] at hok
  obtain ⟨⟨⟨⟨⟨⟨hscope, hclean⟩, hclean'⟩, hread⟩, hrecord⟩, hobject⟩, hroom⟩ := hok
  simp only [State.scopeCheck_ok _ hscope, State.capPoison_ok hclean, State.capPoison_ok hclean', State.readGroup_ok _ _ hread,
    copyCap_ok hrecord, copyCap_ok hobject, State.roomIn_ok hroom, bind, Except.bind]
  rfl

/-- Settles O16: each lane passes its checks and lists its operation; a hint acts or is dropped, whatever its checks say. -/
theorem orderForms : Obligations.OrderForms := by
  unfold Obligations.OrderForms
  intro i f h
  cases i with
  | fence o k ct => exact fence_completes o k ct h
  | pref _ c _ l =>
    cases h
    exact Form.CarriedOut.completes (fun _ => rfl) fun _ => Form.acting_carriedOut (lastRead_lt l c) fun _ _ _ => rfl
  | cflush p c x l ct => exact cflush_completes p c x l ct h
  | aqry d c ct => exact aqry_completes d c ct h
  | amat c v o ct => exact amat_completes c v o ct h
  | cpy d g v o x ct => exact cpy_completes d g v o x ct h
  | tcpy k b v o x ct => exact tcpy_completes k b v o x ct h
  | _ => cases h

end Sys2Proof.Machine

/-! SUPPORT. An access outside the lease: the lane of every form that reaches memory at issue ends its task, and the group goes on without it
(R72, R213). -/

namespace Sys2Proof.Machine

/-! ## Lanes that reach outside the lease -/

/-- A thread whose counters take one more operation and whose crew has the rows that an instruction may need, R89, R304. -/
structure State.HasRoom (s : State) (t : Nat) : Prop where
  loads : (s.thread t).ld < 63
  stores : (s.thread t).st < 63
  rows : ∀ n ≤ 32, s.rowsShort (crewOf t) n = false

/-- The outcome of a lane whose access lies outside the lease: a translation may have been filled, and the task ends. -/
def Leaves (x : State × LaneRes) (s : State) : Prop :=
  ∃ tlb aliases, x = ({ s with tlb := tlb, alias_ := aliases }, .ends .lease)

/-- An instruction executes a form, and a lane of it that passes its checks and reaches outside the lease ends its task. -/
def Form.EndsOutside (f : Form) (i : Instr) : Prop :=
  ∃ op, (∀ s, exec i s = .next (s.issue f.ct f.len op)) ∧
    ∀ s t, s.HasRoom t → firstFailure (f.checks s t) = none → f.lease s t = false → Leaves (op s t) s

theorem firstFailure_append_none {cs ds : List Check} : firstFailure (cs ++ ds) = none ↔ firstFailure cs = none ∧ firstFailure ds = none := by
  rw [firstFailure_append, Option.or_eq_none_iff]

theorem length_eraseDups_le (l : List Nat) : l.eraseDups.length ≤ l.length :=
  (List.subperm_of_subset (nodup_eraseDups l) fun _ h => List.mem_eraseDups.mp h).length_le

/-- The row test passes where its check does and the rows are free, R303, R304. -/
theorem State.HasRoom.rowsFor {s : State} {t : Nat} (h : s.HasRoom t) {vs : List Nat} (hlen : vs.length ≤ 32)
    (hpass : firstFailure (rowChecks s t vs) = none) : s.rowsFor t vs = .ok () := by
  have hnew : (s.newRows (crewOf t) vs).length ≤ 32 :=
    ((List.length_filter_le ..).trans (length_eraseDups_le vs)).trans hlen
  have hnone : s.rowCheck t vs = none := by
    unfold rowChecks at hpass
    unfold State.rowCheck
    dsimp only
    split at hpass
    next hnil => rw [hnil, h.rows _ hnew]; rfl
    next => cases hpass
  unfold State.rowsFor
  rw [hnone]

theorem atPlace_outside {s : State} {t k : Nat} {off : Int} {write : Bool} (h : (s.placeOf t k off write).isSome = false)
    (act : State → Place → State × LaneRes) : Leaves (atPlace s t (s.capGroup t k) (s.effAddr t k off).toNat write act) s := by
  obtain ⟨tlb, aliases, hplace⟩ := place_translations s t (s.capGroup t k) (s.effAddr t k off).toNat write
  unfold State.placeOf at h
  refine ⟨tlb, aliases, ?_⟩
  unfold atPlace
  generalize s.place t (s.capGroup t k) (s.effAddr t k off).toNat write = r at *
  obtain ⟨s1, p⟩ := r
  cases p with
  | some p => cases h
  | none => exact Prod.ext hplace rfl

/-- The parts of a record are translated as an access is. -/
theorem parts_translations (s : State) (t : Nat) (c : Cap) (ea n : Nat) (write : Bool) :
    ∃ tlb aliases, (s.parts t c ea n write).1 = { s with tlb := tlb, alias_ := aliases } := by
  obtain ⟨tlb, aliases, hfirst⟩ := place_translations s t c ea write
  unfold State.parts
  dsimp only
  generalize s.place t c ea write = r at hfirst
  obtain ⟨s1, p⟩ := r
  dsimp only at hfirst
  cases p with
  | none => exact ⟨tlb, aliases, hfirst⟩
  | some p =>
    dsimp only
    split
    · exact ⟨tlb, aliases, hfirst⟩
    · obtain ⟨tlb', aliases', hsecond⟩ := place_translations s1 t c (ea + min n (65536 - ea % 65536)) write
      generalize s1.place t c (ea + min n (65536 - ea % 65536)) write = r' at hsecond
      obtain ⟨s2, q⟩ := r'
      dsimp only at hsecond
      rw [hfirst] at hsecond
      cases q <;> exact ⟨tlb', aliases', hsecond⟩

theorem atParts_outside {s : State} {t k n : Nat} {write : Bool} (h : (s.partsOf t k n write).2.isSome = false)
    (act : State → List (Place × Nat) → State × LaneRes) : Leaves (atParts s t (s.capGroup t k) (s.effAddr t k 0).toNat n write act) s := by
  obtain ⟨tlb, aliases, hparts⟩ := parts_translations s t (s.capGroup t k) (s.effAddr t k 0).toNat n write
  unfold State.partsOf at h
  refine ⟨tlb, aliases, ?_⟩
  unfold atParts
  generalize s.parts t (s.capGroup t k) (s.effAddr t k 0).toNat n write = r at *
  obtain ⟨s1, ps⟩ := r
  cases ps with
  | some ps => cases h
  | none => exact Prod.ext hparts rfl

/-! ## The forms that reach memory at issue -/

section Access

variable {i : Instr} {d : BitVec 5} {c : BitVec 3} {o : BitVec 8} {l : Bool} {ct : Ctl} {off : Int} {size : Nat} {vs : List Nat}

theorem load_endsOutside {fn fn' : State → Nat → LoadFn} (hlen : vs.length ≤ 32)
    (h : ∀ s, exec i s = .next (s.issue ct 4 (loadLane c.toNat off size l vs fn'))) : (Form.load ct c off size l vs fn).EndsOutside i := by
  refine ⟨_, h, fun s t hroom hpass hlease => ?_⟩
  obtain ⟨hpass, hrows⟩ := firstFailure_append_none.mp hpass
  obtain ⟨hgroup, hcap⟩ := firstFailure_append_none.mp hpass
  simp only [loadLane, (Checks.capPoison s t _).passes hgroup, (Checks.plainAccess s t _ off size _).passes hcap, hroom.rowsFor hlen hrows,
    State.roomIn_ok hroom.loads, bind, Except.bind]
  exact atPlace_outside hlease _

theorem storeLane_leaves {own : List Check} {data : State → Nat → Rd (List (BitVec 8) × BitVec 32)} {s : State} {t : Nat}
    {v : List (BitVec 8) × BitVec 32} {srcs : List Nat} (hd : Checks (data s t) own v) (hroom : s.HasRoom t)
    (hpass : firstFailure (groupChecks s t c.toNat ++ own ++
      capabilityChecks s t c.toNat State.memKind (·.w) (s.effAddr t c.toNat off) size size) = none)
    (hlease : (s.placeOf t c.toNat off true).isSome = false) : Leaves (storeLane c.toNat off size l srcs data s t) s := by
  obtain ⟨hpass, hcap⟩ := firstFailure_append_none.mp hpass
  obtain ⟨hgroup, hown⟩ := firstFailure_append_none.mp hpass
  simp only [storeLane, (Checks.capPoison s t _).passes hgroup, hd.passes hown, (Checks.plainAccess s t _ off size _).passes hcap,
    State.roomIn_ok hroom.stores, bind, Except.bind]
  exact atPlace_outside hlease _

theorem plainStore_endsOutside (h : ∀ s, exec i s = .next (storeExec size d c o l ct s)) : (Form.plainStore size d c o l ct).EndsOutside i :=
  ⟨_, h, fun s t hroom hpass hlease =>
    storeLane_leaves ((Checks.readListed s t Acc.any (storedRegs size d)).bind_ok rfl) hroom hpass hlease⟩

theorem stc_endsOutside {f : Form} (h : accessForm (.stc d c o l ct) = some f) : f.EndsOutside (.stc d c o l ct) := by
  cases h
  refine ⟨_, fun _ => rfl, fun s t hroom hpass hlease => ?_⟩
  obtain ⟨hpass, hown⟩ := firstFailure_append_none.mp hpass
  obtain ⟨hpass, hcap⟩ := firstFailure_append_none.mp hpass
  obtain ⟨hgroup, hgroup'⟩ := firstFailure_append_none.mp hpass
  obtain ⟨hsc, hg⟩ := firstFailure_append_none (cs := [_]).mp hown
  have haccess := (Checks.plainAccess s t c.toNat (memOff o 16) 16 (·.w)).passes hcap
  have hsc' : failIf _ _ (State.addrNo (s.effAddr t c.toNat (memOff o 16))) = _ := (Checks.failIf _ _ _).passes hsc
  have hg' : failIf _ _ (State.addrNo (s.effAddr t c.toNat (memOff o 16))) = _ := (Checks.failIf _ _ _).passes hg
  simp only [(Checks.capPoison s t _).passes hgroup, (Checks.capPoison s t _).passes hgroup', haccess, hsc', hg', State.roomIn_ok hroom.stores,
    bind, Except.bind]
  exact atPlace_outside hlease _

end Access

theorem oneOrTwo_le (p : Prop) [Decidable p] (v w : Nat) : (if p then [v, w] else [v]).length ≤ 32 := by
  split <;> simp

theorem typedGroup_le (m : BitVec 4) (k : BitVec 3) : WellFormed.typedGroup m k ≤ 32 := by revert m k; decide

theorem length_span (a n : Nat) : (span a n).length = n := by rw [span_eq_range', List.length_range']

theorem accessForm_endsOutside {i : Instr} {f : Form} (h : accessForm i = some f) : f.EndsOutside i := by
  cases i with
  | ldb | ldbu | ldh | ldhu | ldw | ldd => cases h; exact load_endsOutside (oneOrTwo_le _ _ _) fun _ => rfl
  | ldc d => cases h; exact load_endsOutside (by rw [length_span]; decide) fun _ => rfl
  | ldt d c m k => cases h; exact load_endsOutside (by rw [length_span]; exact typedGroup_le m k) fun _ => rfl
  | stb | sth | stw | std => cases h; exact plainStore_endsOutside fun _ => rfl
  | stc => exact stc_endsOutside h
  | stt x c m k sat ct =>
    cases h
    exact ⟨_, fun _ => rfl, fun s t hroom hpass hlease =>
      storeLane_leaves ((Checks.readGroup s t (sttAccept m k) _ _).bind_ok rfl) hroom hpass hlease⟩
  | _ => cases h

theorem atomic_endsOutside {i : Instr} {fn : AtomFn} {d : BitVec 5} {c : BitVec 3} {v : BitVec 5} {o : BitVec 3} {ct : Ctl} {word : BitVec 32}
    (h : ∀ s, exec i s = .next (atomExec fn d c v o ct word s)) : (Form.atomic fn d c v o ct word).EndsOutside i := by
  refine ⟨_, h, fun s t hroom hpass hlease => ?_⟩
  obtain ⟨x, e, hops⟩ := Checks.atomOperands fn d.toNat v.toNat s t
  obtain ⟨hpass, hrows⟩ := firstFailure_append_none.mp hpass
  obtain ⟨hpass, hcap⟩ := firstFailure_append_none.mp hpass
  obtain ⟨hpass, hsrcs⟩ := firstFailure_append_none.mp hpass
  obtain ⟨hscope, hgroup⟩ := firstFailure_append_none.mp hpass
  simp only [atomLane, (Checks.scopeCheck s t o word).passes hscope, (Checks.capPoison s t _).passes hgroup, hops.passes hsrcs,
    (Checks.plainAccess s t c.toNat 0 _ fun c => c.r && c.w).passes hcap, hroom.rowsFor (oneOrTwo_le _ _ _) hrows, State.roomIn_ok hroom.loads,
    bind, Except.bind]
  exact atPlace_outside hlease _

theorem atomicForm_endsOutside {i : Instr} {f : Form} (h : atomicForm i = some f) : f.EndsOutside i := by
  cases i with
  | aadd | amin | amax | aminu | amaxu | aand | aor | axor | axchg | acas | afadd | aaddD | acasD => cases h; exact atomic_endsOutside fun _ => rfl
  | _ => cases h

theorem orderForm_endsOutside {i : Instr} {f : Form} (h : orderForm i = some f) : f.EndsOutside i := by
  cases i with
  | fence | pref | amat | cpy | tcpy => cases h; exact ⟨_, fun _ => rfl, fun _ _ _ _ hlease => nomatch hlease⟩
  | cflush =>
    cases h
    refine ⟨_, fun _ => rfl, fun s t hroom hpass hlease => ?_⟩
    obtain ⟨hpass, hcap⟩ := firstFailure_append_none.mp hpass
    obtain ⟨hscope, hgroup⟩ := firstFailure_append_none.mp hpass
    simp only [(Checks.scopeCheck s t _ _).passes hscope, (Checks.capPoison s t _).passes hgroup, (Checks.capChecks s t _ _ _ _ 1 1).passes hcap,
      State.roomIn_ok hroom.stores, bind, Except.bind]
    exact atPlace_outside hlease _
  | aqry =>
    cases h
    refine ⟨_, fun _ => rfl, fun s t hroom hpass hlease => ?_⟩
    obtain ⟨hpass, hrows⟩ := firstFailure_append_none.mp hpass
    obtain ⟨hgroup, hcap⟩ := firstFailure_append_none.mp hpass
    simp only [(Checks.capPoison s t _).passes hgroup, (Checks.capChecks s t _ _ _ _ 1 1).passes hcap,
      hroom.rowsFor (vs := [_]) (by decide : 1 ≤ 32) hrows, State.roomIn_ok hroom.loads, bind, Except.bind]
    exact atPlace_outside hlease _
  | _ => cases h

/-! ## Records of kernel mode, R395, R398 to R402 -/

theorem svcput_endsOutside (c : BitVec 3) (ct : Ctl) {f : Form} (h : kernelForm (.svcput c ct) = some f) : f.EndsOutside (.svcput c ct) := by
  cases h
  refine ⟨_, fun _ => rfl, fun s t hroom hpass hlease => ?_⟩
  obtain ⟨href, hbound⟩ := firstFailure_append_none.mp hpass
  simp only [(Checks.serviceRef s t c.toNat _ (fun c => c.r && c.w) 1568 16).passes href, bind, Except.bind]
  unfold boundBatch at hbound
  generalize (s.batches.filter fun kb => kb.2.die == s.coreOf t / 96 &&
    kb.2.bound.any fun x => x.2 == (s.effAddr t c.toNat 0).toNat).getLast? = b at *
  cases b with
  | none => cases hbound
  | some kb =>
    simp only [State.roomIn_ok hroom.stores]
    exact atParts_outside hlease _

theorem kernelForm_endsOutside {i : Instr} {f : Form} (h : kernelForm i = some f) : f.EndsOutside i := by
  cases i with
  | tlaunch | fltrd => cases h; exact ⟨_, fun _ => rfl, fun _ _ _ _ hlease => nomatch hlease⟩
  | ctxsv =>
    cases h
    refine ⟨_, fun _ => rfl, fun s t hroom hpass hlease => ?_⟩
    obtain ⟨href, hloads⟩ := firstFailure_append_none.mp hpass
    simp only [(Checks.serviceRef s t _ _ _ 256 64).passes href, (Checks.failIf _ _ _).passes hloads, State.roomIn_ok hroom.stores, bind, Except.bind]
    exact atParts_outside hlease _
  | ctxld =>
    cases h
    refine ⟨_, fun _ => rfl, fun s t hroom hpass hlease => ?_⟩
    obtain ⟨href, hrows⟩ := firstFailure_append_none.mp hpass
    simp only [(Checks.serviceRef s t _ _ _ 256 64).passes href, hroom.rowsFor (length_span 0 32).le hrows, State.roomIn_ok hroom.loads,
      bind, Except.bind]
    exact atParts_outside hlease _
  | sweep =>
    cases h
    refine ⟨_, fun _ => rfl, fun s t hroom hpass hlease => ?_⟩
    simp only [(Checks.serviceRef s t _ _ _ 1040 16).passes hpass, bind, Except.bind]
    exact atParts_outside hlease _
  | svcget =>
    cases h
    refine ⟨_, fun _ => rfl, fun s t hroom hpass hlease => ?_⟩
    simp only [(Checks.serviceRef s t _ _ _ 1568 16).passes hpass, State.roomIn_ok hroom.loads, bind, Except.bind]
    exact atParts_outside hlease _
  | svcput c ct => exact svcput_endsOutside c ct h
  | _ => cases h

/-! ## Every form -/

theorem predicateForm_lease {i : Instr} {f : Form} (h : predicateForm i = some f) (s : State) (t : Nat) : f.lease s t = true := by
  cases i with
  | pmov v r =>
    cases h
    cases r <;> rfl
  | _ => cases h <;> rfl

/-- The families whose forms reach no memory at issue. -/
theorem reachesNothing {i : Instr} {f : Form} (h : (integerForm i = some f ∨ moveForm i = some f ∨ floatForm i = some f) ∨
    (convertForm i = some f ∨ flowForm i = some f ∨ capabilityForm i = some f) ∨ matrixForm i = some f ∨ syncForm i = some f)
    (s : State) (t : Nat) : f.lease s t = true := by
  rcases h with (h | h | h) | (h | h | h) | h | h <;> cases i <;> cases h <;> rfl

/-- A form that is told to reach outside the lease is one of those that reach memory at issue. -/
theorem formOf_endsOutside {i : Instr} {f : Form} {s : State} {t : Nat} (h : formOf i = some f) (hlease : f.lease s t = false) :
    f.EndsOutside i := by
  have hno {p : Prop} (htrue : f.lease s t = true) : p := absurd (hlease.symm.trans htrue) Bool.false_ne_true
  simp only [formOf, Option.or_eq_some_iff] at h
  rcases h with h | ⟨-, h | ⟨-, h | ⟨-, h | ⟨-, h | ⟨-, h | ⟨-, h |
    ⟨-, h | ⟨-, h | ⟨-, h | ⟨-, h | ⟨-, h | ⟨-, h⟩⟩⟩⟩⟩⟩⟩⟩⟩⟩⟩⟩
  · exact hno (reachesNothing (.inl (.inl h)) s t)
  · exact hno (reachesNothing (.inl (.inr (.inl h))) s t)
  · exact hno (reachesNothing (.inl (.inr (.inr h))) s t)
  · exact hno (reachesNothing (.inr (.inl (.inl h))) s t)
  · exact hno (predicateForm_lease h s t)
  · exact hno (reachesNothing (.inr (.inl (.inr (.inl h)))) s t)
  · exact hno (reachesNothing (.inr (.inl (.inr (.inr h)))) s t)
  · exact accessForm_endsOutside h
  · exact atomicForm_endsOutside h
  · exact orderForm_endsOutside h
  · exact hno (reachesNothing (.inr (.inr (.inl h))) s t)
  · exact hno (reachesNothing (.inr (.inr (.inr h))) s t)
  · exact kernelForm_endsOutside h

/-! ## The group of a lone thread whose task ends, R213, R379 -/

theorem leaveSlot_slots (s : State) (q : Nat) (g : Group) (e : Bool) (stay : List Nat) (rs : List (Nat × LaneRes)) :
    ∃ slots, s.leaveSlot q g e false stay rs = { s with slots := slots } := by
  unfold State.leaveSlot
  cases e with
  | true => exact ⟨_, rfl⟩
  | false =>
    dsimp only
    rw [if_neg Bool.false_ne_true, if_neg Bool.false_ne_true]
    split <;> exact ⟨_, rfl⟩

/-- The end of an instruction whose one acting lane ends its task: those guarded off go on, and then the task ends. -/
theorem finish_ends {s : State} {q len t : Nat} {g : Group} {ct : Ctl} {off : List Nat} (code : EndCode)
    (hoff : ∀ u ∈ off, (s.threads.find? u).isSome = true ∧ s.goesOn u = true) :
    ∃ threads slots, s.finish q g ct len off [(t, .ends code)] =
      State.endTask { s with threads := threads, slots := slots } (s.taskOf t) code none := by
  have hsettle := State.settle_guardedOff ct.e len hoff
  rw [State.placeAll_threads] at hsettle
  let placed := s.placeAll off fun _ h => h.goOn ct.e s.clock (h.pc + len)
  obtain ⟨slots, hslots⟩ := leaveSlot_slots { s with threads := placed.threads } q g ct.e (State.stayers off [(t, .ends code)]) [(t, .ends code)]
  refine ⟨placed.threads, slots, ?_⟩
  have hwrites : s.writeBack g.crew [(t, .ends code)] = s := rfl
  have hdones : State.donesOf [(t, .ends code)] = [] := rfl
  have hpark : State.anyPark [(t, .ends code)] = false := rfl
  unfold State.finish
  dsimp only
  rw [hwrites, hdones, hpark, hsettle]
  exact congrArg (fun s : State => State.endTask s (s.taskOf t) code none) hslots

/-- A lone acting thread whose access lies outside the lease ends its task. -/
theorem issue_leaves {s : State} {t len : Nat} {ct : Ctl} {op : State → Nat → State × LaneRes} {k : Task} (hs : s.whole = true)
    (hone : s.actors ct = [t]) (hop : Leaves (op s t) s) (hk : s.tasks.find? (s.taskOf t) = some k) (hcode : k.code = none)
    (hstage : k.stage ≠ .completed) : EndedWith s (s.issue ct len op) (s.taskOf t) k .lease none := by
  obtain ⟨g, hg⟩ := State.whole_slot hs
  obtain ⟨tlb, aliases, hop⟩ := hop
  have hrun : State.runLanes op s ((slotThreads s).filter fun t => !s.guardedOff t ct) =
      ({ s with tlb := tlb, alias_ := aliases }, [(t, .ends .lease)]) := by
    have hactors : ((slotThreads s).filter fun t => !s.guardedOff t ct) = [t] := hone
    rw [hactors, State.runLanes, hop]
    rfl
  have hissue : s.issue ct len op = State.finish { s with tlb := tlb, alias_ := aliases } s.cur g ct len (s.bystanders ct) [(t, .ends .lease)] := by
    unfold State.issue
    rw [hg]
    dsimp only
    rw [← slotThreads_eq hg, hrun]
    rfl
  obtain ⟨threads, slots, hfinish⟩ := finish_ends (s := { s with tlb := tlb, alias_ := aliases }) (q := s.cur) (len := len) (t := t) (g := g)
    (ct := ct) (off := s.bystanders ct) .lease fun u hu => State.whole_thread hs (State.mem_bystanders.mp hu).1
  rw [hissue, hfinish]
  exact State.endTask_endedWith (s := { s with tlb := tlb, alias_ := aliases, threads := threads, slots := slots }) .lease none hk hcode hstage

/-- Settles O15: each lane of a load, store or atomic passes its checks, reaches its place and lists its operation; a lane of a form that
reaches outside the lease ends its task. -/
theorem accessForms : Obligations.AccessForms := by
  unfold Obligations.AccessForms
  refine ⟨?complete, ?outside⟩
  case complete =>
    rintro i f (h | h)
    · exact accessForm_completes h
    · exact atomicForm_completes h
  case outside =>
    intro i f s t k h _ hs hone hpass hlease hld hst _ hrows hk hcode hstage
    obtain ⟨op, hexec, hends⟩ := formOf_endsOutside h hlease
    exact ⟨_, hexec s, issue_leaves hs hone (hends s t ⟨hld, hst, hrows⟩ hpass hlease) hk hcode hstage⟩

end Sys2Proof.Machine

/-! SUPPORT. Instructions whose lanes write no register: the group goes on, or comes to stand, with every register as it was (R75, R81, R90,
R91). -/

namespace Sys2Proof.Machine

/-! ## The group goes on -/

theorem State.whole_lanes {s : State} (h : s.whole = true) {g : Group} (hg : s.slots.find? s.cur = some g) : g.lanes ≠ 0 := by
  intro h0
  have hnone : slotThreads s = [] := by
    rw [slotThreads_eq hg, List.map_eq_nil_iff, State.lanesOf, List.filter_eq_nil_iff]
    intro l _
    rw [h0]; simp
  simp [State.whole, hnone] at h

/-- What a lane has done that wrote no register. -/
def idleDone (t : Nat) : LaneDone := ⟨t, [], [], [], none⟩

theorem doneLanes_idle (ts : List Nat) : doneLanes (ts.map idleDone) = completed (ts.map fun t => (t, Done.nothing)) := by
  unfold doneLanes completed
  rw [List.map_map, List.map_map]
  rfl

theorem find?_idle_next (ts : List Nat) (u : Nat) : (((ts.map idleDone).find? fun d => d.thread == u).bind (·.next)) = none := by
  rw [List.find?_map]
  cases ts.find? ((fun d : LaneDone => d.thread == u) ∘ idleDone) <;> rfl

/-- What `Obligations.NopDoesNothing` and `Obligations.PsetTable` say of a group that goes on, with the threads as `s1` has them. -/
structure GoesOn (s s1 s' : State) (ct : Ctl) (len : Nat) : Prop where
  device : KeepsDevice s s'
  registers : KeepsRegisters s s'
  thread : ∀ u, s'.thread u = if u ∈ slotThreads s then (s1.thread u).goOn ct.e s.clock ((s1.thread u).pc + len) else s1.thread u
  slots : ∀ q, s'.slots.find? q =
    if q = s.cur then (if ct.e then none else (s.slots.find? q).map fun g => { g with held := false }) else s.slots.find? q

/-- A group each of whose lanes completes and writes no register goes on at the next instruction; `s1` holds what the lanes did to their
threads. -/
theorem issue_goesOn {s s1 : State} (hs : s.whole = true) {ct : Ctl} {len : Nat} {op : State → Nat → State × LaneRes}
    (hrun : State.runLanes op s (s.actors ct) = (s1, (s.actors ct).map fun t => (t, .done Done.nothing)))
    (hs1 : s1 = { s with threads := s1.threads })
    (hth : ∀ t, (s1.threads.find? t).isSome = (s.threads.find? t).isSome ∧ s1.goesOn t = s.goesOn t) :
    GoesOn s s1 (s.issue ct len op) ct len := by
  obtain ⟨g, hg⟩ := State.whole_slot hs
  have hthr : ((s.actors ct).map idleDone).map (·.thread) = s.actors ct := by rw [List.map_map]; exact List.map_id _
  have hwhole : ∀ t ∈ slotThreads s, (s1.threads.find? t).isSome = true ∧ (ct.e = false ∨ s1.goesOn t = true) := fun t ht => by
    obtain ⟨hin, hgo⟩ := State.whole_thread hs ht
    exact ⟨(hth t).1.trans hin, .inr ((hth t).2.trans hgo)⟩
  have hwb : s1.writeBack g.crew (doneLanes ((s.actors ct).map idleDone)) = s1 := by
    rw [doneLanes_idle]
    refine writeBack_completed s1 g.crew fun d hd => ?_
    obtain ⟨t, -, rfl⟩ := List.mem_map.mp hd
    exact ⟨rfl, rfl, rfl⟩
  have hlanes : State.runLanes op s (s.actors ct) = (s1, doneLanes ((s.actors ct).map idleDone)) := by
    rw [hrun, doneLanes_idle, completed, List.map_map]; rfl
  obtain ⟨s3, he3, ⟨th, hs3⟩, hthread⟩ := settle_moves s s1 ct len _ hthr g.crew hwhole
  have hissue : s.issue ct len op = { s3 with slots := if ct.e then s3.slots.erase s.cur else s3.slots.put s.cur { g with held := false } } :=
    (issue_eq s s1 g hg ct len op _ hlanes).trans ((finish_done _ _ _ _ _ _ _ (State.whole_lanes hs hg)).trans
      (congrArg (fun s' : State => { s' with slots := if ct.e then s'.slots.erase s.cur else s'.slots.put s.cur { g with held := false } }) he3))
  rw [hwb, hs1] at hs3
  have hclock : s1.clock = s.clock := by rw [hs1]
  have hslots : s3.slots = s.slots := by rw [hs3]
  rw [hissue]
  refine ⟨by rw [hs3]; rfl, by rw [hs3]; exact ⟨rfl, rfl⟩, fun u => ?_, fun q => ?_⟩
  · have := hthread u
    rw [find?_idle_next, hclock] at this
    exact this
  · dsimp only
    rw [hslots]
    cases ct.e with
    | true => simp only [if_true, FMap.find?_erase]
    | false =>
      simp only [Bool.false_eq_true, if_false, FMap.find?_put]
      by_cases hq : q = s.cur
      · rw [if_pos hq, if_pos hq, hq, hg]; rfl
      · rw [if_neg hq, if_neg hq]

/-- A lane operation that rewrites its thread and completes. -/
theorem runLanes_placeAll (f : Nat → Thread → Thread) (op : State → Nat → State × LaneRes) (d : Done)
    (hop : ∀ s t, op s t = (s.updThread t (f t), .done d)) (s : State) (ts : List Nat) :
    State.runLanes op s ts = (s.placeAll ts f, ts.map fun t => (t, .done d)) := by
  induction ts generalizing s with
  | nil => rfl
  | cons t ts ih => rw [State.runLanes, hop]; dsimp only; rw [ih]; rfl

theorem goesOn_placeAll {f : Nat → Thread → Thread} (hf : ∀ t h, (f t h).inSave = h.inSave) {s : State} {ts : List Nat}
    (hex : ∀ t ∈ ts, (s.threads.find? t).isSome = true) (u : Nat) : (s.placeAll ts f).goesOn u = s.goesOn u := by
  induction ts generalizing s with
  | nil => rfl
  | cons t ts ih =>
    rw [State.placeAll_cons, ih fun x hx => by rw [State.find?_updThread]; exact hex x (by simp [hx]),
      State.goesOn_updThread u (hex t (by simp)) (hf t)]

/-! ## `nop` and `pset`, R75, R81 -/

/-- Settles O21: the lanes of `nop` leave the state alone. -/
theorem nopDoesNothing : Obligations.NopDoesNothing := by
  unfold Obligations.NopDoesNothing
  refine ⟨by decide, fun ct s _ hs => ⟨_, rfl, ?_⟩⟩
  obtain ⟨hdev, hregs, hthread, hslots⟩ := issue_goesOn hs (ct := ct) (len := 4) (runLanes_pure (fun _ _ => .done Done.nothing) s _) rfl
    fun _ => ⟨rfl, rfl⟩
  refine ⟨hdev, hregs, fun u => ?_, hslots⟩
  exact hthread u

/-- The bit of a `pset` table that two predicates select, R75. -/
def psetBit (tt a b : BitVec 4) (h : Thread) : Bool :=
  tt.getLsbD (2 * (if h.preds.getLsbD a.toNat then 1 else 0) + (if h.preds.getLsbD b.toNat then 1 else 0))

/-- A thread after `pset`. -/
def psetThread (p a b tt : BitVec 4) (h : Thread) : Thread := { h with preds := setBit h.preds p.toNat (psetBit tt a b h) }

theorem pset_lane (p a b tt : BitVec 4) (s : State) (t : Nat) :
    s.setPred t p (tt.getLsbD ((if s.pred t a then 2 else 0) + (if s.pred t b then 1 else 0))) = s.updThread t (psetThread p a b tt) := by
  refine State.updThread_congr ?_
  have hbit : tt.getLsbD ((if s.pred t a then 2 else 0) + (if s.pred t b then 1 else 0)) = psetBit tt a b (s.thread t) := by
    unfold psetBit State.pred
    cases (s.thread t).preds.getLsbD a.toNat <;> rfl
  unfold psetThread
  rw [hbit]

theorem psetThread_preds (p a b tt q : BitVec 4) (h : Thread) :
    (psetThread p a b tt h).preds.getLsbD q.toNat = if q = p then psetBit tt a b h else h.preds.getLsbD q.toNat := by
  rw [psetThread, setBit_getLsbD _ _ _ _ q.isLt]
  simp only [BitVec.toNat_inj]

/-- Where `pset` leaves a thread: its predicates as the table says, all else as at the next instruction. -/
theorem psetThread_goOn {p a b tt : BitVec 4} {h h' : Thread} {e : Bool} {clock pc : Nat} (hh : h' = (psetThread p a b tt h).goOn e clock pc) :
    (∀ q : BitVec 4, h'.preds.getLsbD q.toNat = if q = p then psetBit tt a b h else h.preds.getLsbD q.toNat) ∧
      h' = ({ h with preds := h'.preds } : Thread).goOn e clock pc := by
  have hpreds : h'.preds = (psetThread p a b tt h).preds := by rw [hh]; unfold Thread.goOn; split <;> rfl
  exact ⟨fun q => by rw [hpreds, psetThread_preds], by rw [hpreds]; exact hh⟩

/-- Settles O20: each lane of `pset` rewrites the predicates of its own thread and nothing else. -/
theorem psetTable : Obligations.PsetTable := by
  unfold Obligations.PsetTable
  refine ⟨by decide, fun p a b tt ct s _ hs => ⟨_, rfl, ?_⟩⟩
  have hex : ∀ t ∈ s.actors ct, (s.threads.find? t).isSome = true := fun t ht => (State.whole_thread hs (State.mem_actors ht)).1
  have hrun := runLanes_placeAll (fun _ => psetThread p a b tt) _ Done.nothing
    (fun s t => congrArg (fun s' : State => (s', LaneRes.done Done.nothing)) (pset_lane p a b tt s t)) s (s.actors ct)
  obtain ⟨hdev, hregs, hthread, -⟩ := issue_goesOn hs (len := 4) hrun (State.placeAll_threads _ _ _) fun t =>
    ⟨State.find?_placeAll _ _ _ t, goesOn_placeAll (f := fun _ => psetThread p a b tt) (fun _ _ => rfl) hex t⟩
  refine ⟨hdev, hregs, fun t ht => ?_⟩
  have hlands := hthread t
  rw [if_pos (State.mem_actors ht), State.thread_placeAll (s.actors_nodup ct) hex, if_pos ht] at hlands
  exact psetThread_goOn hlands

/-! ## The group ends its run -/

theorem placeAll_clock (s : State) (ts : List Nat) (f : Nat → Thread → Thread) : (s.placeAll ts f).clock = s.clock := by
  rw [State.placeAll_threads]

/-- A group whose run ends and each of whose lanes completes and writes no register: those guarded off begin another run, and the others stand
where `f` puts them. -/
theorem issue_stands {s : State} (hs : s.whole = true) {ct : Ctl} (he : ct.e = true) {d : State → Nat → Done} {f : Nat → Thread → Thread}
    (hplain : ∀ s t, (d s t).Plain) (hf : ∀ t h, (f t h).inSave = h.inSave)
    (hone : ∀ t, ∀ s' : State, s'.clock = s.clock → s'.goesOn t = true → (s'.threads.find? t).isSome = true →
      s'.settleLane true 4 t (d s t) = s'.updThread t (f t)) :
    let s' := s.issue ct 4 (State.pureLane fun s t => .done (d s t))
    KeepsDevice s s' ∧ KeepsRegisters s s' ∧ (∀ t, (s'.threads.find? t).isSome = (s.threads.find? t).isSome) ∧
      Stands s s' ct fun u => f u (s.thread u) := by
  obtain ⟨g, hg⟩ := State.whole_slot hs
  have hrun : State.runLanes (State.pureLane fun s t => .done (d s t)) s (s.actors ct) =
      (s, completed ((s.actors ct).map fun t => (t, d s t))) := by
    rw [runLanes_pure, completed, List.map_map]; rfl
  have hissue := issue_completed hg he 4 hrun fun x hx => by
    obtain ⟨t, -, rfl⟩ := List.mem_map.mp hx
    exact hplain s t
  let waiting := s.placeAll (s.bystanders ct) fun _ h => h.goOn true s.clock (h.pc + 4)
  have hby : ∀ t ∈ s.bystanders ct, (s.threads.find? t).isSome = true ∧ s.goesOn t = true := fun t ht =>
    State.whole_thread hs (State.mem_bystanders.mp ht).1
  have hplaced : ((s.actors ct).map fun t => (t, d s t)).foldl (fun s td => s.settleLane true 4 td.1 td.2)
      ((s.bystanders ct).foldl (fun s t => s.settleLane true 4 t Done.nothing) s) = waiting.placeAll (s.actors ct) f := by
    have hclock : waiting.clock = s.clock := placeAll_clock s _ _
    rw [State.settle_bystanders 4 hby, State.settle_placeAll hf]
    · rw [List.map_map]; exact congrArg (fun ts => waiting.placeAll ts f) (List.map_id _)
    · intro x hx
      obtain ⟨t, ht, rfl⟩ := List.mem_map.mp hx
      obtain ⟨hin, hgo⟩ := State.whole_thread hs (State.mem_actors ht)
      exact ⟨(State.find?_placeAll _ _ _ _).trans hin,
        (goesOn_placeAll (fun _ _ => State.goOn_inSave _ _ _ _) (fun t ht => (hby t ht).1) t).trans hgo⟩
    · intro x hx s' hc
      obtain ⟨t, -, rfl⟩ := List.mem_map.mp hx
      exact hone t s' (hc.trans hclock)
  have hs' : waiting.placeAll (s.actors ct) f = { s with threads := (waiting.placeAll (s.actors ct) f).threads } := by
    rw [State.placeAll_threads waiting]
    exact congrArg (fun s' : State => { s' with threads := (waiting.placeAll (s.actors ct) f).threads }) (State.placeAll_threads s _ _)
  rw [hissue]
  dsimp only
  rw [hplaced]
  refine ⟨?_, ?_, fun t => (State.find?_placeAll _ _ _ t).trans (State.find?_placeAll _ _ _ t), stands_of_placeAll hs f rfl rfl rfl rfl ?_⟩
  · rw [hs']; rfl
  · rw [hs']; exact ⟨rfl, rfl⟩
  · rw [hs']

/-! ## `yield`, R91 -/

/-- The lanes that execute an instruction now, within their crew. -/
theorem actors_lanes {s : State} {g : Group} (hg : s.slots.find? s.cur = some g) (ct : Ctl) :
    (s.actors ct).map laneOf = (State.lanesOf g).filter fun l => !s.guardedOff (g.crew * 32 + l) ct := by
  have hactors : s.actors ct = ((State.lanesOf g).filter fun l => !s.guardedOff (g.crew * 32 + l) ct).map fun l => g.crew * 32 + l := by
    rw [State.actors, slotThreads_eq hg, List.filter_map]; rfl
  rw [hactors, List.map_map]
  refine (List.map_congr_left fun l hl => ?_).trans (List.map_id _)
  have hlt := lanesOf_lt (List.mem_of_mem_filter hl)
  exact (Nat.mul_add_mod_self_right _ _ _).trans (Nat.mod_eq_of_lt hlt)

theorem KeepsDevice.yielded {s s' : State} (h : KeepsDevice s s') : s'.yielded = s.yielded := by
  unfold KeepsDevice at h
  rw [h]

/-- The claim of a group that yields leaves out what the quarter remembers. -/
theorem KeepsDevice.remembers {s s' : State} (h : KeepsDevice s s') (y : FMap Group) :
    KeepsDevice s { ({ s' with yielded := y } : State) with yielded := s.yielded } := by
  unfold KeepsDevice at h
  rw [h]
  rfl

/-- What the quarter remembers of a group that yields, R91. -/
def yieldedAfter (s : State) (g : Group) (ct : Ctl) : FMap Group :=
  if s.actors ct = [] then s.yielded else s.yielded.put s.cur { g with lanes := laneMask ((s.actors ct).map laneOf) }

theorem exec_yield {s : State} {g : Group} (hg : s.slots.find? s.cur = some g) {ct : Ctl}
    (hkeep : (s.issue ct 4 (State.pureLane fun _ _ => .done Done.nothing)).yielded = s.yielded) :
    exec (.yield ct) s = .next { s.issue ct 4 (State.pureLane fun _ _ => .done Done.nothing) with yielded := yieldedAfter s g ct } := by
  have hexec : exec (.yield ct) s = .next (match s.slots.find? s.cur with
    | none => s.issue ct 4 (State.pureLane fun _ _ => .done Done.nothing)
    | some g =>
      let on := (State.lanesOf g).filter fun l => !s.guardedOff (g.crew * 32 + l) ct
      let s1 := s.issue ct 4 (State.pureLane fun _ _ => .done Done.nothing)
      if on.isEmpty then s1 else { s1 with yielded := s1.yielded.put s.cur { g with lanes := laneMask on } }) := rfl
  rw [hexec, hg]
  dsimp only
  rw [← actors_lanes hg]
  unfold yieldedAfter
  by_cases hnone : s.actors ct = []
  · rw [if_pos hnone, ← hkeep, hnone]; rfl
  · rw [if_neg hnone, if_neg (by simpa using hnone), hkeep]

/-- Settles O23: each lane of `yield` completes and does nothing, and then the quarter's entry is written. -/
theorem yieldPassesOver : Obligations.YieldPassesOver := by
  unfold Obligations.YieldPassesOver
  intro ct s g hwf hs hg
  have he : ct.e = true := by
    unfold wellFormed at hwf
    exact (Bool.and_eq_true _ _ ▸ hwf).2
  obtain ⟨hdev, hregs, -, hstands⟩ := issue_stands hs he (d := fun _ _ => Done.nothing) (f := fun _ h => h.goOn true s.clock (h.pc + 4))
    (fun _ _ => ⟨rfl, rfl, rfl⟩) (fun _ _ => State.goOn_inSave _ _ _ _) fun t s' hc hgo _ => by
      rw [State.settleLane_ready _ _ _ _ _ rfl fun _ => hgo, hc]
      exact State.updThread_congr rfl
  refine ⟨_, exec_yield hg hdev.yielded, hdev.remembers _, hregs, hstands, fun q => ?_⟩
  dsimp only [yieldedAfter]
  by_cases hnone : s.actors ct = []
  · rw [if_pos hnone, if_neg fun h => h.2 hnone]
  · rw [if_neg hnone, FMap.find?_put]
    simp only [hnone, ne_eq, not_false_eq_true, and_true]

/-! ## `wait`, R90 -/

/-- A thread that stands in a `wait` after its counts have been looked at, R90. -/
def waited (clock : Nat) (h : Thread) : Thread :=
  match h.stat with
  | .wait l st c tl => if h.metBounds l st c tl then h.goOn true clock (h.pc + 4) else h
  | _ => h

theorem settleWait_of_wait {s : State} {t : Nat} {l st c tl : BitVec 4} (hst : (s.thread t).stat = .wait l st c tl) :
    s.settleWait t = if (s.thread t).metBounds l st c tl then s.enter t ((s.thread t).pc + 4) else s := by
  unfold State.settleWait
  dsimp only
  rw [hst]
  rfl

theorem settleWait_of_other {s : State} {t : Nat} (hst : ∀ l st c tl, (s.thread t).stat ≠ .wait l st c tl) : s.settleWait t = s := by
  unfold State.settleWait
  dsimp only
  split
  · next h => exact absurd h (hst _ _ _ _)
  · rfl

theorem waited_of_wait {h : Thread} {l st c tl : BitVec 4} (hst : h.stat = .wait l st c tl) (clock : Nat) :
    waited clock h = if h.metBounds l st c tl then h.goOn true clock (h.pc + 4) else h := by
  unfold waited
  rw [hst]

theorem waited_of_other {h : Thread} (hst : ∀ l st c tl, h.stat ≠ .wait l st c tl) (clock : Nat) : waited clock h = h := by
  unfold waited
  split
  · next heq => exact absurd heq (hst _ _ _ _)
  · rfl

theorem thread_settleWait {s : State} {t : Nat} (hex : (s.threads.find? t).isSome = true) (u : Nat) :
    (s.settleWait t).thread u = if u = t then waited s.clock (s.thread t) else s.thread u := by
  have hsame : s.thread u = if u = t then s.thread t else s.thread u := by
    by_cases hu : u = t
    · rw [if_pos hu, hu]
    · rw [if_neg hu]
  by_cases hwait : ∃ l st c tl, (s.thread t).stat = .wait l st c tl
  · obtain ⟨l, st, c, tl, hst⟩ := hwait
    rw [settleWait_of_wait hst, waited_of_wait hst]
    by_cases hmet : (s.thread t).metBounds l st c tl = true
    · rw [if_pos hmet, if_pos hmet, State.enter_eq, State.thread_updThread _ _ _ _ hex]
    · rw [if_neg hmet, if_neg hmet]
      exact hsame
  · have hst : ∀ l st c tl, (s.thread t).stat ≠ .wait l st c tl := fun l st c tl h => hwait ⟨l, st, c, tl, h⟩
    rw [settleWait_of_other hst, waited_of_other hst]
    exact hsame

theorem settleWait_threads (s : State) (t : Nat) : s.settleWait t = { s with threads := (s.settleWait t).threads } := by
  unfold State.settleWait
  dsimp only
  split
  · split <;> rfl
  · rfl

theorem find?_settleWait (s : State) (t u : Nat) : ((s.settleWait t).threads.find? u).isSome = (s.threads.find? u).isSome := by
  unfold State.settleWait
  dsimp only
  split
  · split
    · exact State.find?_updThread _ _ _ _
    · rfl
  · rfl

theorem settleWaits_threads (ts : List Nat) (s : State) :
    ts.foldl State.settleWait s = { s with threads := (ts.foldl State.settleWait s).threads } := by
  induction ts generalizing s with
  | nil => rfl
  | cons t ts ih =>
    rw [List.foldl_cons, ih]
    exact congrArg (fun s' : State => { s' with threads := (ts.foldl State.settleWait (s.settleWait t)).threads }) (settleWait_threads s t)

theorem thread_settleWaits {s : State} {ts : List Nat} (hnd : ts.Nodup) (hex : ∀ t ∈ ts, (s.threads.find? t).isSome = true) (u : Nat) :
    (ts.foldl State.settleWait s).thread u = if u ∈ ts then waited s.clock (s.thread u) else s.thread u := by
  induction ts generalizing s with
  | nil => rfl
  | cons t ts ih =>
    obtain ⟨ht, hnd⟩ := List.nodup_cons.mp hnd
    have hclock : (s.settleWait t).clock = s.clock := by rw [settleWait_threads]
    rw [List.foldl_cons, ih hnd fun x hx => by rw [find?_settleWait]; exact hex x (by simp [hx]), hclock, thread_settleWait (hex t (by simp))]
    by_cases hu : u = t
    · subst hu; rw [if_neg ht, if_pos rfl, if_pos (by simp)]
    · simp [hu]

/-- A thread comes to stand in a `wait`. -/
theorem settleLane_wait {s : State} {t : Nat} (hex : (s.threads.find? t).isSome = true) (hgo : s.goesOn t = true) (len pc : Nat)
    (l st c tl : BitVec 4) :
    s.settleLane true len t (standAt pc (.wait l st c tl)) = s.updThread t fun h => h.standing s.clock pc (.wait l st c tl) := by
  let s1 := s.updThread t fun h => h.standing s.clock pc (.wait l st c tl)
  have hgo1 : s1.goesOn t = true := (State.goesOn_updThread (f := fun h => h.standing s.clock pc (.wait l st c tl)) t hex fun _ => rfl).trans hgo
  have hnone : (if (s1.thread t).inSave then none else s1.preemptOf t) = none := by
    unfold State.goesOn at hgo1
    cases hin : (s1.thread t).inSave with
    | true => rfl
    | false => rw [hin] at hgo1; simpa using hgo1
  have hsettle : s.settleLane true len t (standAt pc (.wait l st c tl)) =
      match (if (s1.thread t).inSave then none else s1.preemptOf t) with
      | some coop => s1.stopThread t pc coop
      | none => s1 := rfl
  rw [hsettle, hnone]

theorem waited_standing (h : Thread) (clock pc : Nat) (l st c tl : BitVec 4) :
    waited clock (h.standing clock pc (.wait l st c tl)) =
      if h.metBounds l st c tl then h.goOn true clock (pc + 4) else h.standing clock pc (.wait l st c tl) := rfl

theorem waited_goOn (h : Thread) (clock pc : Nat) : waited clock (h.goOn true clock pc) = h.goOn true clock pc := rfl

/-- Settles O24: each lane comes to stand, and then every thread of the group looks at its counts; a count that falls does the same. -/
theorem waitStands : Obligations.WaitStands := by
  unfold Obligations.WaitStands
  refine ⟨fun l st c tl ct s hwf hs => ⟨_, rfl, ?_⟩, fun s t l st c tl hex hst => ?_⟩
  · have he : ct.e = true := by
      unfold wellFormed at hwf
      exact (Bool.and_eq_true _ _ ▸ hwf).2
    obtain ⟨hdev, hregs, hex, hstands⟩ := issue_stands hs he (d := fun s t => standAt (s.thread t).pc (.wait l st c tl))
      (f := fun u h => h.standing s.clock (s.thread u).pc (.wait l st c tl)) (fun _ _ => ⟨rfl, rfl, rfl⟩) (fun _ _ => rfl)
      fun t s' hc hgo hex => by rw [settleLane_wait hex hgo, hc]
    generalize s.issue ct 4 (State.pureLane fun s t => .done (standAt (s.thread t).pc (.wait l st c tl))) = s1 at hdev hregs hex hstands ⊢
    have hclock : s1.clock = s.clock := by unfold KeepsDevice at hdev; rw [hdev]
    have hfold := settleWaits_threads (slotThreads s) s1
    obtain ⟨hthread, hslots⟩ := hstands
    have hin : ∀ t ∈ slotThreads s, (s1.threads.find? t).isSome = true := fun t ht => (hex t).trans (State.whole_thread hs ht).1
    refine ⟨?_, ?_, fun u => ?_, fun q => ?_⟩
    · unfold KeepsDevice at hdev ⊢
      rw [hfold, hdev]
    · rw [hfold]; exact hregs
    · rw [thread_settleWaits (slotThreads_nodup s) hin, hclock, hthread]
      by_cases hact : u ∈ s.actors ct
      · rw [if_pos (State.mem_actors hact), if_pos hact, if_pos hact, waited_standing]
      · by_cases hu : u ∈ slotThreads s
        · rw [if_pos hu, if_neg hact, if_neg hact, if_pos hu, waited_goOn]
        · rw [if_neg hu, if_neg hact, if_neg hact, if_neg hu]
    · rw [hfold]; exact hslots q
  · unfold State.decSt
    rw [thread_settleWait ((State.find?_updThread _ _ _ _).trans hex), if_pos rfl, State.thread_updThread _ _ _ _ hex, if_pos rfl,
      waited_of_wait (show ({ s.thread t with st := (s.thread t).st - 1 } : Thread).stat = _ from hst)]
    rfl

end Sys2Proof.Machine

/-! SUPPORT. The checks of privilege and of handler mode: an instruction that fails one has none of its effect (R84, R353, R373, R395 to
R397). -/

namespace Sys2Proof.Machine

/-- A form whose checks begin with that of R395 on a thread in user mode. -/
def Form.Privileged (f : Form) (i : Instr) (ct : Ctl) : Prop :=
  f.ct = ct ∧ ∀ s t, s.kernel t = false → firstFailure (f.checks s t) = some (Cause.privilege, insnWord i)

theorem firstFailure_kernelChecks {s : State} {t : Nat} (h : s.kernel t = false) (word : BitVec 32) (cs : List Check) :
    firstFailure (kernelChecks s t word ++ cs) = some (Cause.privilege, word) := by
  rw [firstFailure_append, kernelChecks, firstFailure_cons, h]
  rfl

theorem firstFailure_serviceChecks {s : State} {t : Nat} (h : s.kernel t = false) (k : Nat) (word : BitVec 32) (perm : Cap → Bool) (n align : Nat)
    (cs : List Check) : firstFailure (serviceChecks s t k word perm n align ++ cs) = some (Cause.privilege, word) := by
  unfold serviceChecks
  rw [List.append_assoc, List.append_assoc]
  exact firstFailure_kernelChecks h word _

theorem firstFailure_serviceChecks_alone {s : State} {t : Nat} (h : s.kernel t = false) (k : Nat) (word : BitVec 32) (perm : Cap → Bool)
    (n align : Nat) : firstFailure (serviceChecks s t k word perm n align) = some (Cause.privilege, word) := by
  rw [← List.append_nil (serviceChecks _ _ _ _ _ _ _)]
  exact firstFailure_serviceChecks h k word perm n align []

/-- Every kernel instruction but `halt` executes a form that checks the mode first, R84, R395. -/
theorem kernelOnly_privileged {i : Instr} {ct : Ctl} (h : kernelOnly i = some ct) (hhalt : i ≠ .halt ct) :
    ∃ f, formOf i = some f ∧ f.Privileged i ct := by
  cases i with
  | wrsr a x c =>
    have h : (if x = 0x14 then none else some c) = some ct := h
    by_cases hx : x = 0x14
    · rw [if_pos hx] at h; cases h
    · rw [if_neg hx] at h
      cases h
      refine ⟨_, rfl, rfl, fun s t hk => ?_⟩
      have hx : (x != 0x14) = true := by simpa using hx
      refine (firstFailure_cons _ _).trans ?_
      rw [hx, hk]; rfl
  | ctxsv | ctxld | svcput => cases h; exact ⟨_, rfl, rfl, fun s t hk => firstFailure_serviceChecks hk _ _ _ _ _ _⟩
  | sweep | svcget => cases h; exact ⟨_, rfl, rfl, fun s t hk => firstFailure_serviceChecks_alone hk _ _ _ _ _⟩
  | fltrd => cases h; exact ⟨_, rfl, rfl, fun s t hk => firstFailure_kernelChecks hk _ _⟩
  | halt => cases h; exact absurd rfl hhalt
  | _ => cases h

/-- Settles O30: a kernel instruction fails the first check of its form; `halt`, `svc`, `tret` and `park` fail the first check of their
lanes. -/
theorem modeTraps : Obligations.ModeTraps := by
  unfold Obligations.ModeTraps
  refine ⟨?kernel, ?svc, ?tret, ?park⟩
  case kernel =>
    intro i ct s _ hkernel hs hact
    by_cases hhalt : i = .halt ct
    · subst hhalt
      refine ⟨_, rfl, issue_traps hs (fun _ => rfl) fun t ht => ⟨(hact t ht).1, ?_⟩⟩
      have hcheck : s.kernelCheck t (insnWord (.halt ct)) = fail Cause.privilege (insnWord (.halt ct)) := by
        unfold State.kernelCheck failIf
        rw [(hact t ht).2]; rfl
      rw [hcheck]; rfl
    · obtain ⟨f, hform, rfl, hfirst⟩ := kernelOnly_privileged hkernel hhalt
      exact formOf_traps hform hs fun t ht => ⟨(hact t ht).1, hfirst s t (hact t ht).2⟩
  case svc =>
    intro n ct s _ hs hact
    refine ⟨_, rfl, issue_traps hs (fun _ => rfl) fun t ht => ⟨(hact t ht).1, ?_⟩⟩
    have hcore : (s.coreOf t % 96 == 0) = true := beq_iff_eq.mpr (hact t ht).2
    rw [hcore]; rfl
  case tret =>
    intro ct s _ hs hact
    refine ⟨_, rfl, issue_traps hs (fun _ => rfl) fun t ht => ⟨hact t ht, ?_⟩⟩
    have hmode : (!(s.thread t).handling || (s.thread t).inSave) = true := by
      obtain ⟨-, hhandling, -⟩ := State.canTrap_iff.mp (hact t ht)
      rw [hhandling]; rfl
    rw [hmode]; rfl
  case park =>
    intro ct s _ hs hact
    refine ⟨_, rfl, issue_traps hs (fun _ => rfl) fun t ht => ⟨(hact t ht).1, ?_⟩⟩
    dsimp only [State.pureLane]
    rw [(hact t ht).2]; rfl

end Sys2Proof.Machine

/-! SUPPORT. The choice of the next run, and rows that go to the spill region and come back (R91, R301, R302, R304). -/

namespace Sys2Proof.Machine

/-! ## Rows that go and come back, R304 -/

/-- Nothing but rows differs, and every row shows each lane what it showed. -/
structure Respilled (s s' : State) : Prop where
  only : s' = { s with rows := s'.rows }
  seen : ∀ k l free, (s'.rows.get Row.empty k).seen l free = (s.rows.get Row.empty k).seen l free

namespace Respilled

theorem refl (s : State) : Respilled s s := ⟨rfl, fun _ _ _ => rfl⟩

theorem trans {s t u : State} (h : Respilled s t) (h' : Respilled t u) : Respilled s u := by
  refine ⟨?_, fun k l free => (h'.seen k l free).trans (h.seen k l free)⟩
  rw [h'.only, h.only]

theorem sameRegisters {s s' : State} (h : Respilled s s') : SameRegisters s s' := by
  intro u v _
  have hfree : s'.freeCtr = s.freeCtr := by rw [h.only]
  exact (State.seen_same hfree (h.seen _ _ _)).symm

/-- Where a row takes another's place in the table that shows each lane the same. -/
theorem of_get {s : State} {rows : FMap Row} {k : Nat} {r : Row}
    (hget : ∀ j, rows.get Row.empty j = if j = k then r else s.rows.get Row.empty j)
    (hr : ∀ l free, r.seen l free = (s.rows.get Row.empty k).seen l free) : Respilled s { s with rows := rows } := by
  refine ⟨rfl, fun j l free => ?_⟩
  dsimp only
  rw [hget]
  by_cases hj : j = k
  · rw [if_pos hj, hr, hj]
  · rw [if_neg hj]

end Respilled

/-- A row that stands in the spill region. -/
def Row.outside (r : Row) : Row := { r with spilled := true }

namespace State

theorem spillRows_cons (s : State) (crew v : Nat) (vs : List Nat) : s.spillRows crew (v :: vs) =
    State.spillRows { s with rows := s.rows.put (crew * 32 + v) (s.rows.get Row.empty (crew * 32 + v)).outside } crew vs := rfl

theorem spillRows_respilled (s : State) (crew : Nat) (vs : List Nat) : Respilled s (s.spillRows crew vs) := by
  induction vs generalizing s with
  | nil => exact .refl s
  | cons v vs ih =>
    rw [spillRows_cons]
    exact (Respilled.of_get (r := (s.rows.get Row.empty (crew * 32 + v)).outside) (fun j => FMap.get_put _ _ _ _ _) fun _ _ => rfl).trans (ih _)

/-- Every row that goes to the spill region stands there, with those that stood there. -/
theorem spillRows_spilled (crew v : Nat) (vs : List Nat) (s : State)
    (h : v ∈ vs ∨ (s.rows.find? (crew * 32 + v)).any (·.spilled) = true) :
    ((s.spillRows crew vs).rows.find? (crew * 32 + v)).any (·.spilled) = true := by
  induction vs generalizing s with
  | nil => exact h.resolve_left List.not_mem_nil
  | cons w vs ih =>
    rw [spillRows_cons]
    refine ih _ ?_
    dsimp only
    rw [FMap.find?_put]
    by_cases hk : crew * 32 + v = crew * 32 + w
    · rw [if_pos hk]; exact .inr rfl
    · rw [if_neg hk]
      refine h.imp (fun hm => (List.mem_cons.mp hm).resolve_left fun hv => hk (by rw [hv])) id

theorem spillFor_respilled (s : State) (quarter crew : Nat) : Respilled s (s.spillFor quarter crew) := by
  unfold spillFor
  split
  · exact .refl s
  · exact spillRows_respilled _ _ _

theorem backRow_respilled (s : State) (crew v : Nat) : Respilled s (s.setRow crew v { s.row crew v with spilled := false }) := by
  have hseen : ∀ l free, ({ s.row crew v with spilled := false } : Row).seen l free = (s.row crew v).seen l free := fun _ _ => rfl
  unfold setRow
  by_cases hidle : ({ s.row crew v with spilled := false } : Row).live = 0 ∧ ({ s.row crew v with spilled := false } : Row).pend.isEmpty = true
  · rw [if_pos hidle]
    refine .of_get (fun j => FMap.get_erase _ _ _ _) fun l free => ?_
    have htidy := Row.seen_tidy { s.row crew v with spilled := false } l free
    rw [if_pos hidle] at htidy
    exact htidy.trans (hseen l free)
  · rw [if_neg hidle]
    exact .of_get (fun j => FMap.get_put _ _ _ _ _) hseen

theorem backRows_respilled (s : State) (crew : Nat) : Respilled s (s.backRows crew) := by
  unfold backRows
  generalize span 0 32 = vs
  induction vs generalizing s with
  | nil => exact .refl s
  | cons v vs ih =>
    rw [List.foldl_cons]
    refine Respilled.trans ?_ (ih _)
    split
    · exact s.backRow_respilled crew v
    · exact .refl s

theorem reload_respilled (s : State) (quarter crew n : Nat) : Respilled s (s.reload quarter crew n) := by
  induction n generalizing s with
  | zero => exact s.backRows_respilled crew
  | succ n ih =>
    rw [reload]
    split
    · exact (s.spillFor_respilled quarter crew).trans (ih _)
    · exact s.backRows_respilled crew

/-! ## Threads rewritten in turn -/

/-- Threads each rewritten by what the state then says. -/
theorem updThreads_only {α : Type} (key : α → Nat) (f : State → Thread → Thread) (ts : List α) (s : State) :
    ts.foldl (fun s x => s.updThread (key x) (f s)) s = { s with threads := (ts.foldl (fun s x => s.updThread (key x) (f s)) s).threads } := by
  induction ts generalizing s with
  | nil => rfl
  | cons x ts ih => rw [List.foldl_cons, ih]; rfl

theorem ageReady_only (s : State) (q : Nat) : s.ageReady q = { s with threads := (s.ageReady q).threads } :=
  updThreads_only (fun th : Nat × Thread => th.1) (fun s h => { h with age := s.agedBy h }) _ s

end State

/-! ## The first of a list, R302 -/

/-- The best of a list so far: `better` says whether an element takes the place of the one found before it. -/
def bestStep {α : Type} (better : α → α → Bool) (best : Option α) (c : α) : Option α :=
  match best with
  | none => some c
  | some b => if better c b then some c else some b

section Best

variable {α : Type} {better : α → α → Bool} {r : α → α → Prop} (hrefl : ∀ a, r a a) (htrans : ∀ {a b c}, r a b → r b c → r a c)
  (hbetter : ∀ {b c}, better c b = true → r b c) (hnot : ∀ {b c}, better c b = false → r c b)

include hrefl htrans hbetter hnot

theorem foldl_bestStep_some (cs : List α) (b : α) :
    ∃ c, cs.foldl (bestStep better) (some b) = some c ∧ (c = b ∨ c ∈ cs) ∧ r b c ∧ ∀ d ∈ cs, r d c := by
  induction cs generalizing b with
  | nil => exact ⟨b, rfl, .inl rfl, hrefl b, fun _ h => absurd h List.not_mem_nil⟩
  | cons x cs ih =>
    rw [List.foldl_cons]
    cases hx : better x b with
    | true =>
      obtain ⟨c, hc, hmem, hbest, hall⟩ := ih x
      refine ⟨c, ?_, .inr (by rcases hmem with rfl | h <;> simp [*]), htrans (hbetter hx) hbest, fun d hd => ?_⟩
      · rw [bestStep, if_pos hx]; exact hc
      · rcases List.mem_cons.mp hd with rfl | hd
        · exact hbest
        · exact hall d hd
    | false =>
      obtain ⟨c, hc, hmem, hbest, hall⟩ := ih b
      refine ⟨c, ?_, hmem.imp_right fun h => by simp [h], hbest, fun d hd => ?_⟩
      · rw [bestStep, if_neg (by simp [hx])]; exact hc
      · rcases List.mem_cons.mp hd with rfl | hd
        · exact htrans (hnot hx) hbest
        · exact hall d hd

/-- What is found in a list that is not empty lies in it, and nothing comes before it. -/
theorem foldl_bestStep {cs : List α} (hne : cs ≠ []) : ∃ c, cs.foldl (bestStep better) none = some c ∧ c ∈ cs ∧ ∀ d ∈ cs, r d c := by
  cases cs with
  | nil => exact absurd rfl hne
  | cons b cs =>
    obtain ⟨c, hc, hmem, hbest, hall⟩ := foldl_bestStep_some hrefl htrans hbetter hnot cs b
    refine ⟨c, hc, List.mem_cons.mpr hmem, fun d hd => ?_⟩
    rcases List.mem_cons.mp hd with rfl | hd
    · exact hbest
    · exact hall d hd

end Best

theorem lexLt_iff (as bs : List Nat) : State.lexLt as bs = true ↔ as < bs := by
  induction as generalizing bs with
  | nil => cases bs <;> simp [State.lexLt]
  | cons a as ih =>
    cases bs with
    | nil => simp [State.lexLt]
    | cons b bs => simp [State.lexLt, ih, List.cons_lt_cons_iff]

theorem lexLt_false_iff (as bs : List Nat) : State.lexLt as bs = false ↔ bs ≤ as := by
  rw [← Bool.not_eq_true, lexLt_iff, not_lt]

/-- The first of some groups in the order of R302. -/
theorem firstCand_first (s : State) {cs : List Cand} (hne : cs ≠ []) :
    ∃ c, s.firstCand cs = some c ∧ c ∈ cs ∧ ∀ d ∈ cs, State.lexLt (s.rank d) (s.rank c) = false := by
  have hfold : s.firstCand cs = cs.foldl (bestStep fun c b => State.lexLt (s.rank c) (s.rank b)) none :=
    congrArg (fun step => cs.foldl step none) (by funext best c; cases best <;> rfl)
  rw [hfold]
  simp only [lexLt_false_iff]
  exact foldl_bestStep (r := fun d c => s.rank c ≤ s.rank d) (fun _ => le_refl _) (fun h h' => h'.trans h)
    (fun h => ((lexLt_iff _ _).mp h).le) (fun h => (lexLt_false_iff _ _).mp h) hne

theorem firstCand_nil (s : State) : s.firstCand [] = none := rfl

/-- The group that is granted next: the first of those that did not yield, or of all where each did, R91, R302. -/
theorem nextCand_first (s : State) (q : Nat) (hne : s.candidates q ≠ []) :
    let fresh := (s.candidates q).filter fun c => !s.didYield q c
    ∃ c ∈ s.candidates q, s.nextCand q = some c ∧
      (fresh ≠ [] → c ∈ fresh ∧ ∀ d ∈ fresh, State.lexLt (s.rank d) (s.rank c) = false) ∧
      (fresh = [] → ∀ d ∈ s.candidates q, State.lexLt (s.rank d) (s.rank c) = false) := by
  intro fresh
  have hnext : s.nextCand q = match s.firstCand fresh with
    | some c => some c
    | none => s.firstCand (s.candidates q) := rfl
  rw [hnext]
  by_cases hf : fresh = []
  · obtain ⟨c, hc, hmem, hall⟩ := firstCand_first s hne
    refine ⟨c, hmem, ?_, fun h => absurd hf h, fun _ => hall⟩
    rw [hf, firstCand_nil]
    exact hc
  · obtain ⟨c, hc, hmem, hall⟩ := firstCand_first s hf
    refine ⟨c, List.mem_of_mem_filter hmem, ?_, fun _ => ⟨hmem, hall⟩, fun h => absurd h hf⟩
    rw [hc]

/-- The crew that gives up its rows: of those that hold some above their floor, none was placed later, R304. -/
theorem spillVictim_youngest {s : State} {q crew c : Nat} (h : s.spillVictim q crew = some c) :
    c ∈ s.crewsOn q ∧ c ≠ crew ∧ s.floorOf c < s.poolRows c ∧ ∀ d ∈ s.crewsOn q, d ≠ crew → s.floorOf d < s.poolRows d →
      ((s.crews.find? d).map (·.placed)).getD 0 ≤ ((s.crews.find? c).map (·.placed)).getD 0 := by
  let placed (d : Nat) : Nat := ((s.crews.find? d).map (·.placed)).getD 0
  let rivals := (s.crewsOn q).filter fun c => c != crew && decide (s.floorOf c < s.poolRows c)
  have hmem : ∀ d, d ∈ rivals ↔ d ∈ s.crewsOn q ∧ d ≠ crew ∧ s.floorOf d < s.poolRows d := fun d => by
    rw [List.mem_filter]; simp
  have hfold : s.spillVictim q crew = rivals.foldl (bestStep fun c b => decide (placed b ≤ placed c)) none := by
    refine congrArg (fun step => rivals.foldl step none) ?_
    funext best c
    cases best
    · rfl
    · unfold bestStep; simp only [decide_eq_true_eq]; rfl
  have hne : rivals ≠ [] := fun h0 => by rw [hfold, h0] at h; cases h
  obtain ⟨c', hc, hin, hall⟩ := foldl_bestStep (better := fun c b => decide (placed b ≤ placed c)) (r := fun d c => placed d ≤ placed c)
    (fun _ => le_refl _) (fun h h' => h.trans h') (fun h => of_decide_eq_true h) (fun h => (not_le.mp (of_decide_eq_false h)).le) hne
  rw [hfold, hc] at h
  obtain rfl : c' = c := Option.some.inj h
  obtain ⟨h1, h2, h3⟩ := (hmem c').mp hin
  exact ⟨h1, h2, h3, fun d hd hdc hdf => hall d ((hmem d).mpr ⟨hd, hdc, hdf⟩)⟩

/-! ## The grant, R301 -/

/-- What a grant changes: rows that come back, threads, the slot of its quarter and what that remembers. -/
theorem grant_eq (s : State) (q : Nat) (c : Cand) : ∃ threads g,
    s.grant q c = { s with
      rows := (s.reload q c.crew 16).rows
      threads := threads
      slots := s.slots.put q g
      yielded := s.yielded.erase q } ∧
      (g.crew, g.lanes, g.held) = (c.crew, laneMask (c.threads.map fun th => laneOf th.1), false) := by
  let h := (c.threads.headD (0, Thread.fresh 0)).2
  let g : Group :=
    { crew := c.crew, lanes := laneMask (c.threads.map fun th => laneOf th.1), count := h.runLen,
      start := if h.cont = 0 then h.pc else h.runStart, held := false, short := 0 }
  let placed := c.threads.foldl (fun s th => s.updThread th.1 fun h => { h with age := 0, since := s.clock }) (s.reload q c.crew 16)
  have hthreads : placed = { s.reload q c.crew 16 with threads := placed.threads } :=
    State.updThreads_only (fun th : Nat × Thread => th.1) (fun s h => { h with age := 0, since := s.clock }) c.threads _
  have hplaced : placed = { s with rows := (s.reload q c.crew 16).rows, threads := placed.threads } :=
    hthreads.trans (congrArg (fun s' : State => { s' with threads := placed.threads }) (s.reload_respilled q c.crew 16).only)
  exact ⟨placed.threads, g, congrArg (fun s' : State => { s' with slots := s'.slots.put q g, yielded := s'.yielded.erase q }) hplaced, rfl⟩

/-- A grant writes the slot of its quarter and changes no register. -/
theorem grant_takes (s : State) (q : Nat) (c : Cand) :
    SameRegisters s (s.grant q c) ∧ KeepsMemory s (s.grant q c) ∧
      ((s.grant q c).slots.find? q).map (fun g => (g.crew, g.lanes, g.held)) =
        some (c.crew, laneMask (c.threads.map fun th => laneOf th.1), false) ∧
      (∀ p, p ≠ q → (s.grant q c).slots.find? p = s.slots.find? p) ∧ (s.grant q c).yielded.find? q = none := by
  obtain ⟨threads, g, hgrant, hg⟩ := grant_eq s q c
  have hreload := s.reload_respilled q c.crew 16
  have hfree : (s.grant q c).freeCtr = (s.reload q c.crew 16).freeCtr := by rw [hgrant, hreload.only]
  have hsame := State.sameRegisters_of (s := s.reload q c.crew 16) (t := s.grant q c) (by rw [hgrant]) hfree
  refine ⟨fun u v hv => ?_, ?_⟩
  · obtain ⟨h1, h2⟩ := hsame u v hv
    obtain ⟨k1, k2⟩ := hreload.sameRegisters u v hv
    exact ⟨h1.trans k1, h2.trans k2⟩
  · rw [hgrant]
    refine ⟨⟨rfl, rfl, rfl, rfl⟩, ?_, fun p hp => ?_, ?_⟩
    · rw [FMap.find?_put, if_pos rfl, Option.map_some, hg]
    · rw [FMap.find?_put, if_neg hp]
    · rw [FMap.find?_erase, if_pos rfl]

/-- Settles O34: the folds that pick a group and a crew find a first one, and every row that goes or comes back shows what it showed. -/
theorem grantsInOrder : Obligations.GrantsInOrder := by
  unfold Obligations.GrantsInOrder
  refine ⟨?grant, ?ageing, ?spill, ?idle⟩
  case grant =>
    intro s q hfree hne s1 cs fresh
    obtain ⟨c, hmem, hnext, hfirst, hall⟩ := nextCand_first s1 q hne
    have hs1 : s1 = { s with threads := s1.threads } := s.ageReady_only q
    have hkeeps : s1.rows = s.rows ∧ s1.freeCtr = s.freeCtr ∧ s1.slots = s.slots := by rw [hs1]; exact ⟨rfl, rfl, rfl⟩
    obtain ⟨hrows, hfreeCtr, hs1slots⟩ := hkeeps
    have hexec : exec (.issueGrant q) s = .next (s1.grant q c) := by
      have hrun : exec (.issueGrant q) s = .next (match s.slots.find? q with
        | some _ => s
        | none => match s1.nextCand q with
          | none => s
          | some c => s1.grant q c) := rfl
      rw [hrun, hfree, hnext]
    obtain ⟨hregs, hmemory, hslot, hslots, hyield⟩ := grant_takes s1 q c
    have hsame : SameRegisters s s1 := State.sameRegisters_of hrows hfreeCtr
    refine ⟨c, hmem, hfirst, hall, _, hexec, fun u v hv => ?_, ?_, hslot, fun p hp => ?_, hyield⟩
    · obtain ⟨h1, h2⟩ := hregs u v hv
      obtain ⟨k1, k2⟩ := hsame u v hv
      exact ⟨h1.trans k1, h2.trans k2⟩
    · obtain ⟨h1, h2, h3, h4⟩ := hmemory
      rw [hs1] at h1 h2 h3 h4
      rw [hs1]
      exact ⟨h1, h2, h3, h4⟩
    · rw [hslots p hp, hs1slots]
  case ageing =>
    intro s t hex hready hage
    have hexec : exec (.issueAgeing t) s = .next (s.updThread t fun h => { h with age := h.age + 1 }) := by
      have hrun : exec (.issueAgeing t) s = .next (if State.isReady (s.thread t) && decide ((s.thread t).age < s.agedBy (s.thread t))
        then s.updThread t fun h => { h with age := h.age + 1 } else s) := rfl
      rw [hrun, if_pos (by rw [hready, decide_eq_true hage]; rfl)]
    refine ⟨_, hexec, rfl, fun u hu => ?_, ?_⟩
    · rw [State.thread_updThread _ _ _ _ hex, if_neg hu]
    · rw [State.thread_updThread _ _ _ _ hex, if_pos rfl]
  case spill =>
    intro s q g hg hheld hshort
    have hexec : exec (.registerSpill q g.crew) s = .next (s.spillFor q g.crew) := by
      have hrun : exec (.registerSpill q g.crew) s = .next (match s.slots.find? q with
        | none => s
        | some g' => if g'.crew = g.crew ∧ g'.held = true ∧ s.rowsShort g.crew g'.short = true then s.spillFor q g.crew else s) := rfl
      rw [hrun, hg]
      dsimp only
      rw [if_pos ⟨rfl, hheld, hshort⟩]
    have hspill := s.spillFor_respilled q g.crew
    refine ⟨_, hexec, hspill.only, hspill.sameRegisters, fun c hc => ⟨spillVictim_youngest hc, fun v hv => ?_⟩⟩
    have hrows : s.spillFor q g.crew = s.spillRows c ((s.poolRegs c).drop (s.floorOf c)) := by
      unfold State.spillFor
      rw [hc]
    rw [hrows]
    exact State.spillRows_spilled c v _ s (.inl hv)
  case idle =>
    intro s q crew hidle
    have hrun : exec (.registerSpill q crew) s = .next (match s.slots.find? q with
      | none => s
      | some g => if g.crew = crew ∧ g.held = true ∧ s.rowsShort crew g.short = true then s.spillFor q crew else s) := rfl
    rw [hrun]
    cases hg : s.slots.find? q with
    | none => rfl
    | some g =>
      dsimp only
      rw [if_neg]
      rintro ⟨-, hheld, hshort⟩
      rcases hidle g hg with h | h
      · rw [h] at hheld; cases hheld
      · rw [h] at hshort; cases hshort

end Sys2Proof.Machine

/-! SUPPORT. The lanes of an atomic instruction that are performed together: what each step writes, and that its operation is over (R87, R271
to R273, R289). -/

namespace Sys2Proof.Machine

namespace State

/-! ## The point of an atomic -/

theorem discardLine_onlyCaches (p : Nat → Bool) (s : State) (u x : Nat) : OnlyCaches s (discardLine p s u x) := by
  unfold discardLine
  refine OnlyCaches.trans ?_ (setCMeta_onlyCaches _ u x id)
  rfl

theorem homeWrite_onlyCaches (s : State) (pa : Nat) (bs : List (BitVec 8)) (tag : Bool) : OnlyCaches s (s.homeWrite pa bs tag) := by
  refine OnlyCaches.foldl _ (fun s (q : Nat × List (BitVec 8)) => ?_) _ s
  exact ((beforeWrite_onlyCaches s _).trans (rawWrite_onlyCaches _ q.1 q.2)).trans rfl

theorem poolPush_returned (s : State) (x : Nat) (ids : List Nat) : Returned s (s.poolPush x) ids [] := by
  unfold poolPush
  split
  · exact .of_fields ids rfl rfl rfl rfl rfl rfl
  · exact .refl s ids

theorem atomReady_returned (s : State) (core w scope x : Nat) (as ids : List Nat) : Returned s (s.atomReady core w scope x as) ids [] := by
  unfold atomReady
  dsimp only
  have hbelow := (OnlyCaches.foldl (fun s u => discardLine as.contains (pushLine as.contains s u x) u x)
    (fun s u => (pushLine_onlyCaches as.contains s u x).trans (discardLine_onlyCaches as.contains _ u x)) (below core scope) s).returned ids
  refine hbelow.andThen ?_
  split
  · exact (readyL1_onlyCaches _ core w x as).returned ids
  · exact (readyQuad_onlyCaches _ (quadUnit core) w x as).returned ids
  · exact (((beforeWrite_onlyCaches _ x).returned ids).andThen (poolPush_returned _ x ids)).andThen ((useFrame_onlyCaches _ _).returned ids)
  · exact ((beforeWrite_onlyCaches _ x).trans (useFrame_onlyCaches _ _)).returned ids

theorem atomWrite_returned (s : State) (t scope : Nat) (p : Place) (bs : List (BitVec 8)) (ids : List Nat) :
    Returned s (s.atomWrite t scope p bs) ids [] := by
  cases p with
  | scratch g la => exact (memWrite_stored s t (.scratch g la) bs false).returned (memWrite_sameLoads s t (.scratch g la) bs false) ids
  | global pa =>
    unfold atomWrite
    dsimp only
    split
    · exact (cacheWrite_onlyCaches s _ _ pa bs false).returned ids
    · exact (cacheWrite_onlyCaches s _ _ pa bs false).returned ids
    · exact ((homeWrite_onlyCaches s pa bs false).returned ids).andThen (poolPush_returned _ _ ids)
    · exact (homeWrite_onlyCaches s pa bs false).returned ids

/-! ## One lane's step, R272 -/

/-- What an atomic writes at its point: nothing where its result is none. -/
def atomStored (s : State) (t scope : Nat) (p : Place) (n : Nat) (v : Option (BitVec 64)) : State :=
  match v with
  | none => s
  | some v => s.atomWrite t scope p (leBytes n v.toNat)

/-- The registers of an atomic: those of a pair take the two halves of the old value. -/
def atomWrites (regs : List Nat) (old : BitVec 64) (fmt : BitVec 4) : List (Nat × BitVec 32 × BitVec 4 × BitVec 7) :=
  regs.zipIdx.map fun vi => (vi.1, old.extractLsb' (32 * vi.2) 32, fmt, 0)

theorem atomStored_returned (s : State) (t scope : Nat) (p : Place) (n : Nat) (v : Option (BitVec 64)) (ids : List Nat) :
    Returned s (s.atomStored t scope p n v) ids [] := by
  cases v with
  | none => exact .refl s ids
  | some v => exact atomWrite_returned s t scope p _ ids

section Step

variable {s : State} {id : Nat} {o : Op} {fn : AtomFn} {scope : Nat} {p : Place} {n : Nat} {regs : List Nat} {x e : BitVec 64} {rm : BitVec 2}

theorem atomStep_poisoned (h : (s.atomRead o.thread scope p n).2 = true) :
    s.atomStep id o fn scope p n regs x e rm = ((s.deliver o.thread id o.insn (s.poisoned o.thread regs)).1).endLoad id o := by
  unfold atomStep
  dsimp only
  rw [if_pos h]

theorem atomStep_clean (h : (s.atomRead o.thread scope p n).2 = false) :
    let old := BitVec.ofNat 64 (leNat (s.atomRead o.thread scope p n).1)
    let r := atomResult fn (n == 8) old x e rm.toNat
    let d := (s.atomStored o.thread scope p n r.1).deliver o.thread id o.insn (atomWrites regs old r.2.2)
    s.atomStep id o fn scope p n regs x e rm = (if d.2 = 0 then d.1 else d.1.raise o.thread r.2.1).endLoad id o := by
  unfold atomStep
  dsimp only
  rw [if_neg (by rw [h]; decide)]
  rfl

theorem atomStep_returned (s : State) (id : Nat) (o : Op) (fn : AtomFn) (scope : Nat) (p : Place) (n : Nat) (regs : List Nat)
    (x e : BitVec 64) (rm : BitVec 2) : Returned s (s.atomStep id o fn scope p n regs x e rm) [id] [laneOfOp (id, o)] := by
  cases h : (s.atomRead o.thread scope p n).2 with
  | true =>
    rw [atomStep_poisoned h]
    exact (deliver_returned s _ id _ _).ends
  | false =>
    rw [atomStep_clean h]
    refine Returned.ends ?_
    have hdeliver (v : Option (BitVec 64)) (ws : List (Nat × BitVec 32 × BitVec 4 × BitVec 7)) :
        Returned s ((s.atomStored o.thread scope p n v).deliver o.thread id o.insn ws).1 [id] [] :=
      (atomStored_returned s o.thread scope p n v [id]).andThen (deliver_returned _ o.thread id o.insn ws)
    split
    · exact hdeliver _ _
    · exact (hdeliver _ _).andThen (raise_returned _ [id] _ _)

end Step

/-! ## The lanes of a line, R289 -/

/-- The step of a lane that is performed with others. -/
def atomLaneStep (scope : Nat) (s : State) (x : Nat × Op) : State :=
  match x.2.kind with
  | .atomic fn _ q n regs a e rm => s.atomStep x.1 x.2 fn scope q n regs a e rm
  | _ => s

theorem atomLaneStep_atomic {x : Nat × Op} {fn : AtomFn} {sc n : Nat} {q : Place} {regs : List Nat} {a e : BitVec 64} {rm : BitVec 2}
    (h : x.2.kind = .atomic fn sc q n regs a e rm) (scope : Nat) (s : State) :
    atomLaneStep scope s x = s.atomStep x.1 x.2 fn scope q n regs a e rm := by
  unfold atomLaneStep
  rw [h]

/-- Lanes whose operations are over, with LOADS fallen for each. -/
theorem Returned.lanesOver {s s' : State} {lanes : List (Nat × Op)} {ids : List Nat} (hr : Returned s s' ids (lanes.map laneOfOp)) {id : Nat} {o : Op}
    (hself : (id, o) ∈ lanes) : OpsOver s s' lanes ∧ s'.ops.find? id = none ∧ LoadsFall s s' (lanes.map (·.2.thread)) ∧
      s'.gangs = s.gangs ∧ s'.tasks = s.tasks := by
  have hids : (lanes.map laneOfOp).map (·.1) = lanes.map (·.1) := by rw [List.map_map]; rfl
  have hthreads : (lanes.map laneOfOp).map (·.2) = lanes.map (·.2.thread) := by rw [List.map_map]; rfl
  have hops : OpsOver s s' lanes := fun k => by
    rw [hr.ops, hids]
    exact if_congr List.contains_iff_mem.symm rfl rfl
  refine ⟨hops, ?_, fun u hu => ?_, hr.gangs, hr.tasks⟩
  · rw [hops id, if_pos (List.contains_iff_mem.mpr (List.mem_map_of_mem hself))]
  · rw [hr.loads u hu, hthreads]

/-- The lanes of an atomic, each performed, are over. -/
theorem atomLaneSteps_returned (scope : Nat) (s : State) (xs : List (Nat × Op))
    (h : ∀ x ∈ xs, ∃ fn sc q n regs a e rm, x.2.kind = .atomic fn sc q n regs a e rm) :
    Returned s (xs.foldl (atomLaneStep scope) s) (xs.map (·.1)) (xs.map laneOfOp) := by
  induction xs generalizing s with
  | nil => exact .refl s _
  | cons x xs ih =>
    obtain ⟨fn, sc, q, n, regs, a, e, rm, hk⟩ := h x (by simp)
    have hx : Returned s (atomLaneStep scope s x) ((x :: xs).map (·.1)) [laneOfOp x] := by
      rw [atomLaneStep_atomic hk]
      exact (atomStep_returned s x.1 x.2 fn scope q n regs a e rm).mono (by simp)
    exact hx.trans ((ih _ fun y hy => h y (by simp [hy])).mono fun i hi => by simp only [List.map_cons, List.mem_cons]; exact .inr hi)

theorem mem_atomGroup {s : State} {o : Op} {p : Place} {x : Nat × Op} (h : x ∈ s.atomGroup o p) :
    ∃ fn sc q n regs a e rm, x.2.kind = .atomic fn sc q n regs a e rm := by
  have ho := (Bool.and_eq_true_iff.mp (List.mem_filter.mp h).2).1
  unfold oneAtomic at ho
  split at ho
  · exact ⟨_, _, _, _, _, _, _, _, ‹_›⟩
  · simp at ho

theorem self_mem_atomGroup {s : State} {id : Nat} {o : Op} {fn : AtomFn} {scope n : Nat} {p : Place} {regs : List Nat} {x e : BitVec 64}
    {rm : BitVec 2} (h : s.ops.find? id = some o) (hk : o.kind = .atomic fn scope p n regs x e rm) : (id, o) ∈ s.atomGroup o p := by
  refine List.mem_filter.mpr ⟨FMap.mem_of_find? h, ?_⟩
  have hline : sameLine p p = true := by cases p <;> simp [sameLine]
  unfold oneAtomic
  rw [hk]
  simp [hline]

/-- The state in which the lanes on a line take their steps: the line is ready at its point. -/
def atomLine (s : State) (o : Op) (scope : Nat) (p : Place) : State :=
  match p with
  | .scratch _ _ => s
  | .global pa =>
    let as := ((s.atomGroup o p).flatMap fun x => x.2.kind.ranges.flatMap fun r =>
      match r.1 with | .global a => span a r.2.1 | .scratch _ _ => []).eraseDups
    s.atomReady (s.coreOf o.thread) (s.worldOf o.thread) scope (pa / 128) as

theorem atomLine_returned (s : State) (o : Op) (scope : Nat) (p : Place) (ids : List Nat) : Returned s (s.atomLine o scope p) ids [] := by
  cases p with
  | scratch g la => exact .refl s ids
  | global pa => exact atomReady_returned s _ _ scope _ _ ids

theorem exec_atomicPerform {s : State} {id : Nat} {o : Op} {fn : AtomFn} {scope n : Nat} {p : Place} {regs : List Nat} {x e : BitVec 64}
    {rm : BitVec 2} (h : s.ops.find? id = some o) (hk : o.kind = .atomic fn scope p n regs x e rm)
    (hm : ∀ y ∈ s.atomGroup o p, s.mayPerform y.1 y.2 = true) :
    exec (.atomicPerform id) s = .next ((s.atomGroup o p).foldl (atomLaneStep scope) (s.atomLine o scope p)) := by
  have hexec : exec (.atomicPerform id) s = execAtomicPerform id s := rfl
  have hall : ((s.atomGroup o p).all fun x => s.mayPerform x.1 x.2) = true := List.all_eq_true.mpr hm
  rw [hexec]
  unfold execAtomicPerform
  rw [h]
  dsimp only
  rw [hk]
  dsimp only
  rw [if_pos hall]
  rfl

/-- The lanes on a line are over, and LOADS has fallen for each (R87, R272). -/
theorem atomicPerform_ends (s : State) (id scope n : Nat) (fn : AtomFn) (p : Place) (regs : List Nat) (x e : BitVec 64) (rm : BitVec 2) (o : Op)
    (h : s.ops.find? id = some o) (hk : o.kind = .atomic fn scope p n regs x e rm) (hm : ∀ y ∈ s.atomGroup o p, s.mayPerform y.1 y.2 = true) :
    ∃ s', exec (.atomicPerform id) s = .next s' ∧ OpsOver s s' (s.atomGroup o p) ∧ s'.ops.find? id = none ∧
      LoadsFall s s' ((s.atomGroup o p).map (·.2.thread)) ∧ s'.gangs = s.gangs ∧ s'.tasks = s.tasks := by
  have hself := self_mem_atomGroup h hk
  have hr := (atomLine_returned s o scope p ((s.atomGroup o p).map (·.1))).trans (atomLaneSteps_returned scope _ _ fun x hx => mem_atomGroup hx)
  refine ⟨_, exec_atomicPerform h hk hm, ?_⟩
  generalize (s.atomGroup o p).foldl (atomLaneStep scope) (s.atomLine o scope p) = s' at hr
  exact hr.lanesOver hself

end State

end Sys2Proof.Machine

/-! SUPPORT. What an atomic leaves in registers, flags and scratchpad bytes (R99, R271, R272). -/

namespace Sys2Proof.Machine

namespace State

/-! ## What a delivery leaves alone -/

/-- Nothing but registers, their tags at work and their validity differs. -/
def OnlyRegs (s t : State) : Prop := t = { s with rows := t.rows, accs := t.accs, valid := t.valid }

theorem OnlyRegs.refl (s : State) : OnlyRegs s s := rfl

theorem OnlyRegs.trans {s t u : State} (h : OnlyRegs s t) (k : OnlyRegs t u) : OnlyRegs s u := by
  unfold OnlyRegs at h k ⊢
  rw [h] at k
  exact k

theorem OnlyRegs.foldl {α : Type} (g : State → α → State) (h : ∀ s x, OnlyRegs s (g s x)) (xs : List α) (s : State) :
    OnlyRegs s (xs.foldl g s) := by
  induction xs generalizing s with
  | nil => exact .refl s
  | cons x xs ih => exact (h s x).trans (ih _)

theorem OnlyRegs.ite {s t u : State} {c : Prop} [Decidable c] (h : OnlyRegs s t) (k : OnlyRegs s u) : OnlyRegs s (if c then t else u) := by
  split
  · exact h
  · exact k

theorem setRow_onlyRegs (s : State) (c v : Nat) (r : Row) : OnlyRegs s (s.setRow c v r) := by
  unfold setRow
  split <;> rfl

theorem deliverReg_onlyRegs (s : State) (t id insn : Nat) (w : Nat × BitVec 32 × BitVec 4 × BitVec 7) :
    OnlyRegs s (s.deliverReg t id insn w).1 := by
  rcases deliverReg_cases s t id insn w with ⟨-, he⟩ | ⟨-, accs, valid, q, he, -⟩
  · rw [he]; exact .refl s
  · rw [he]; exact (setRow_onlyRegs s _ _ q).trans rfl

theorem deliver_onlyRegs (s : State) (t id insn : Nat) (ws : List (Nat × BitVec 32 × BitVec 4 × BitVec 7)) :
    OnlyRegs s (s.deliver t id insn ws).1 := by
  induction ws generalizing s with
  | nil => exact .refl s
  | cons w ws ih => rw [deliver_cons]; exact (deliverReg_onlyRegs s t id insn w).trans (ih _)

theorem settleTags_onlyRegs (s : State) (crew insn : Nat) : OnlyRegs s (s.settleTags crew insn) := by
  unfold settleTags
  split
  · exact .refl s
  · refine OnlyRegs.foldl _ (fun s ka => ?_) _ s
    refine .ite ((OnlyRegs.ite ?_ ?_).trans (setRow_onlyRegs _ _ _ _)) (.ite ?_ ?_) <;> rfl

/-- A delivery to a register that waits for it counts. -/
theorem deliver_count {s : State} {t id : Nat} (insn : Nat) {w : Nat × BitVec 32 × BitVec 4 × BitVec 7}
    (ws : List (Nat × BitVec 32 × BitVec 4 × BitVec 7)) (h : s.targets t id w.1 = true) : (s.deliver t id insn (w :: ws)).2 ≠ 0 := by
  have hgrows : ∀ (ws : List (Nat × BitVec 32 × BitVec 4 × BitVec 7)) (s : State) (n : Nat), n ≤
      (ws.foldl (fun (sn : State × Nat) w =>
        ((sn.1.deliverReg t id insn w).1, sn.2 + (if (sn.1.deliverReg t id insn w).2 then 1 else 0))) (s, n)).2 := by
    intro ws
    induction ws with
    | nil => exact fun _ _ => Nat.le_refl _
    | cons w ws ih => exact fun s n => (Nat.le_add_right _ _).trans (ih _ _)
  have hfirst : (s.deliverReg t id insn w).2 = true := by
    unfold deliverReg
    dsimp only
    rw [if_pos h]
  have hle : (0 + if (s.deliverReg t id insn w).2 then 1 else 0) ≤ (s.deliver t id insn (w :: ws)).2 := hgrows ws _ _
  rw [hfirst] at hle
  exact Nat.ne_of_gt hle

/-- A delivery to one thread writes no register of another. -/
theorem deliver_other {s : State} {t u v : Nat} (id insn : Nat) (hu : u ≠ t) (hv : v < 32)
    {ws : List (Nat × BitVec 32 × BitVec 4 × BitVec 7)} (hws : ∀ w ∈ ws, w.1 < 32) : SameReg s (s.deliver t id insn ws).1 u v := by
  induction ws generalizing s with
  | nil => exact .refl s u v
  | cons w ws ih =>
    rw [deliver_cons]
    have hw := hws w (by simp)
    have hfirst : SameReg s (s.deliverReg t id insn w).1 u v :=
      deliverReg_keeps fun _ hrow hlane => hu (thread_of_lane (by omega) hlane)
    exact hfirst.trans (ih fun x hx => hws x (by simp [hx]))

/-! ## Flags, R99 -/

/-- Every thread's FCTL is as before. -/
def SameFlags (s t : State) : Prop := ∀ u, (t.thread u).fctl = (s.thread u).fctl

theorem SameFlags.refl (s : State) : SameFlags s s := fun _ => rfl

theorem SameFlags.trans {s t u : State} (h : SameFlags s t) (k : SameFlags t u) : SameFlags s u := fun v => (k v).trans (h v)

theorem SameFlags.of_threads {s t : State} (h : t.threads = s.threads) : SameFlags s t := fun u => by unfold thread; rw [h]

theorem updThread_sameFlags (s : State) (t : Nat) {f : Thread → Thread} (hf : ∀ h, (f h).fctl = h.fctl) : SameFlags s (s.updThread t f) := by
  intro u
  cases h : s.threads.find? t with
  | none => rw [thread_updThread_absent u f h]
  | some x =>
    rw [thread_updThread s t u f (by rw [h]; rfl)]
    split
    · rename_i e; rw [hf, e]
    · rfl

theorem enter_sameFlags (s : State) (t pc : Nat) : SameFlags s (s.enter t pc) := updThread_sameFlags s t fun _ => rfl

theorem settleWait_sameFlags (s : State) (t : Nat) : SameFlags s (s.settleWait t) := by
  unfold settleWait
  dsimp only
  split
  · split
    · exact enter_sameFlags s t _
    · exact .refl s
  · exact .refl s

theorem settleBwait_sameFlags (s : State) (t : Nat) : SameFlags s (s.settleBwait t) := by
  have hgone (pd : BitVec 4) (b : Bool) (pc : Nat) : SameFlags s ((s.setPred t pd b).enter t pc) :=
    (updThread_sameFlags s t (f := fun h => { h with preds := setBit h.preds pd.toNat b }) fun _ => rfl).trans (enter_sameFlags _ t pc)
  unfold settleBwait
  dsimp only
  split
  · split
    · exact hgone _ _ _
    · split
      · exact enter_sameFlags s t _
      · split
        · exact hgone _ _ _
        · exact .refl s
  · exact .refl s

theorem settleObjects_sameFlags (s : State) (gang : Nat) : SameFlags s (s.settleObjects gang) := by
  unfold settleObjects
  generalize s.gangThreads gang = ths
  induction ths generalizing s with
  | nil => exact .refl s
  | cons th ths ih => exact (settleBwait_sameFlags s th.1).trans (ih _)

/-! ## The end of a lane -/

/-- No byte of memory, of a cache or of a scratchpad differs, and no mark of poison in a scratchpad. -/
def SameBytes (s t : State) : Prop := KeepsMemory s t ∧ t.spadPoison = s.spadPoison

theorem SameBytes.trans {s t u : State} (h : SameBytes s t) (k : SameBytes t u) : SameBytes s u := by
  obtain ⟨⟨h1, h2, h3, h4⟩, h5⟩ := h
  obtain ⟨⟨k1, k2, k3, k4⟩, k5⟩ := k
  exact ⟨⟨k1.trans h1, k2.trans h2, k3.trans h3, k4.trans h4⟩, k5.trans h5⟩

theorem OnlyRegs.sameBytes {s t : State} (h : OnlyRegs s t) : SameBytes s t := by
  unfold OnlyRegs at h
  rw [h]
  exact ⟨⟨rfl, rfl, rfl, rfl⟩, rfl⟩

theorem OnlyStands.sameBytes {s t : State} (h : OnlyStands s t) : SameBytes s t := by
  rw [h.only]
  exact ⟨⟨rfl, rfl, rfl, rfl⟩, rfl⟩

theorem OnlyRegs.sameFlags {s t : State} (h : OnlyRegs s t) : SameFlags s t := .of_threads (by rw [h])

/-- The end of a load changes no byte and no flag. -/
theorem endLoad_keeps (s : State) (id : Nat) (o : Op) : SameBytes s (s.endLoad id o) ∧ SameFlags s (s.endLoad id o) := by
  have htags := settleTags_onlyRegs (s.dropOp id) (crewOf o.thread) o.insn
  unfold endLoad decLd
  generalize (s.dropOp id).settleTags (crewOf o.thread) o.insn = x at htags
  have hstep : SameBytes x (x.updThread o.thread fun h => { h with ld := h.ld - 1 }) := ⟨⟨rfl, rfl, rfl, rfl⟩, rfl⟩
  have hdrop : SameBytes s (s.dropOp id) := ⟨⟨rfl, rfl, rfl, rfl⟩, rfl⟩
  have hflags : SameFlags x (x.updThread o.thread fun h => { h with ld := h.ld - 1 }) := updThread_sameFlags x o.thread fun _ => rfl
  have hdropFlags : SameFlags s (s.dropOp id) := .of_threads rfl
  exact ⟨((hdrop.trans htags.sameBytes).trans hstep).trans (settleWait_onlyStands _ _).sameBytes,
    ((hdropFlags.trans htags.sameFlags).trans hflags).trans (settleWait_sameFlags _ _)⟩

theorem raise_sameBytes (s : State) (t : Nat) (fl : BitVec 32) : SameBytes s (s.raise t fl) := by
  unfold raise
  split <;> exact ⟨⟨rfl, rfl, rfl, rfl⟩, rfl⟩

theorem raise_fctl {s : State} {t : Nat} (h : (s.threads.find? t).isSome = true) (fl : BitVec 32) :
    ((s.raise t fl).thread t).fctl = if fl = 0 then (s.thread t).fctl else fctlRaise (s.thread t).fctl fl := by
  unfold raise
  split
  · rfl
  · rw [thread_updThread _ _ _ _ h, if_pos rfl]

/-! ## One lane at a scratchpad, R271, R272 -/

theorem spadByte_congr {s t : State} (h : SameBytes s t) (g a : Nat) : t.spadByte g a = s.spadByte g a := by
  unfold spadByte
  rw [h.1.2.2.1]

/-- The scratchpad write of an atomic, before the waiters on its objects look again. -/
def atomSpad (s : State) (gang la n : Nat) (v : Option (BitVec 64)) : State :=
  match v with
  | none => s
  | some v => s.spadWrite gang la (leBytes n v.toNat) false

/-- What the write step of an atomic at a scratchpad leaves: the bytes written, and the rows and flags as they were. -/
theorem atomStored_scratch (s : State) (t scope gang la n : Nat) (v : Option (BitVec 64)) :
    SameBytes (s.atomSpad gang la n v) (s.atomStored t scope (.scratch gang la) n v) ∧
      SameFlags s (s.atomStored t scope (.scratch gang la) n v) ∧ (s.atomStored t scope (.scratch gang la) n v).rows = s.rows := by
  cases v with
  | none => exact ⟨⟨⟨rfl, rfl, rfl, rfl⟩, rfl⟩, .refl s, rfl⟩
  | some v =>
    have hstands := settleObjects_onlyStands (s.spadWrite gang la (leBytes n v.toNat) false) gang
    have hthreads : SameFlags s (s.spadWrite gang la (leBytes n v.toNat) false) := .of_threads rfl
    have hrows : ((s.spadWrite gang la (leBytes n v.toNat) false).settleObjects gang).rows = s.rows := by rw [hstands.only]; rfl
    exact ⟨hstands.sameBytes, hthreads.trans (settleObjects_sameFlags _ gang), hrows⟩

theorem atomWrites_regs (regs : List Nat) (old : BitVec 64) (fmt : BitVec 4) : (atomWrites regs old fmt).map (·.1) = regs := by
  unfold atomWrites
  rw [List.map_map]
  exact List.zipIdx_map_fst 0 regs

section Lane

variable {s : State} {id : Nat} {o : Op} {fn : AtomFn} {scope n gang la : Nat} {regs : List Nat} {x e : BitVec 64} {rm : BitVec 2}
  (hclean : (s.spadLoad gang la n).2.1 = false)

include hclean

/-- The bytes after one lane's step at a scratchpad. -/
theorem atomStep_bytes : SameBytes
    (s.atomSpad gang la n (atomResult fn (n == 8) (BitVec.ofNat 64 (s.spadNat gang la n)) x e rm.toNat).1)
    (s.atomStep id o fn scope (.scratch gang la) n regs x e rm) := by
  have hbytes (v : Option (BitVec 64)) (ws : List (Nat × BitVec 32 × BitVec 4 × BitVec 7)) : SameBytes (s.atomSpad gang la n v)
      ((s.atomStored o.thread scope (.scratch gang la) n v).deliver o.thread id o.insn ws).1 :=
    (s.atomStored_scratch o.thread scope gang la n v).1.trans (deliver_onlyRegs _ _ _ _ _).sameBytes
  rw [atomStep_clean (show (s.atomRead o.thread scope (.scratch gang la) n).2 = false from hclean)]
  refine SameBytes.trans ?_ (endLoad_keeps _ id o).1
  split
  · exact hbytes _ _
  · exact (hbytes _ _).trans (raise_sameBytes _ _ _)

variable (hawaits : Awaits s o.thread id regs)

include hawaits

/-- The flags and registers after one lane's step at a scratchpad, where its registers wait for it alone. -/
theorem atomStep_values (hregs : regs ≠ []) (hex : (s.threads.find? o.thread).isSome = true) :
    let old := BitVec.ofNat 64 (s.spadNat gang la n)
    let r := atomResult fn (n == 8) old x e rm.toNat
    let s' := s.atomStep id o fn scope (.scratch gang la) n regs x e rm
    (∀ i (h : i < regs.length), s'.reg o.thread regs[i] = old.extractLsb' (32 * i) 32) ∧
      (s'.thread o.thread).fctl = if r.2.1 = 0 then (s.thread o.thread).fctl else fctlRaise (s.thread o.thread).fctl r.2.1 := by
  intro old r s'
  let a := s.atomStored o.thread scope (.scratch gang la) n r.1
  let ws := atomWrites regs old r.2.2
  let d := a.deliver o.thread id o.insn ws
  have hstored : Returned s a [id] [] := atomStored_returned s o.thread scope _ n r.1 [id]
  obtain ⟨-, hflags, hrows⟩ := s.atomStored_scratch o.thread scope gang la n r.1
  obtain ⟨hnd, hwait⟩ := hawaits
  have hpending (v : Nat) : a.pending o.thread v = s.pending o.thread v := by
    unfold pending row
    rw [show a.rows = s.rows from hrows]
  have hwaits : ∀ w ∈ ws, w.1 < 32 ∧ (a.pending o.thread w.1).map (·.op) = [id] := by
    intro w hw
    obtain ⟨vi, hvi, rfl⟩ := List.mem_map.mp hw
    rw [hpending]
    exact hwait vi.1 (List.fst_mem_of_mem_zipIdx hvi)
  have hfst : ws.map (·.1) = regs := atomWrites_regs regs old r.2.2
  have htakes := deliver_takes o.insn (hfst.symm ▸ hnd) hwaits
  have hcount : d.2 ≠ 0 := by
    obtain ⟨w, ws', hws⟩ : ∃ w ws', ws = w :: ws' := List.exists_cons_of_ne_nil fun h => hregs (by rw [← hfst, h]; rfl)
    have htargets : a.targets o.thread id w.1 = true := by
      have hw := (hwaits w (by rw [hws]; simp)).2
      unfold targets
      match hp : a.pending o.thread w.1, hw with
      | [p], hw => simpa [hp] using hw
    show (a.deliver o.thread id o.insn ws).2 ≠ 0
    rw [hws]
    exact deliver_count o.insn ws' htargets
  have hs' : s' = (d.1.raise o.thread r.2.1).endLoad id o := by
    have h := atomStep_clean (id := id) (fn := fn) (regs := regs) (x := x) (e := e) (rm := rm)
      (show (s.atomRead o.thread scope (.scratch gang la) n).2 = false from hclean)
    refine h.trans ?_
    exact congrArg (fun s : State => s.endLoad id o) (if_neg hcount)
  have hregs' := deliver_onlyRegs a o.thread id o.insn ws
  rw [hs']
  refine ⟨fun i hi => ?_, ?_⟩
  · have hmem : (regs[i], old.extractLsb' (32 * i) 32, r.2.2, (0 : BitVec 7)) ∈ ws :=
      List.mem_map.mpr ⟨(regs[i], i), List.mk_mem_zipIdx_iff_getElem?.mpr (List.getElem?_eq_getElem hi), rfl⟩
    have hend := (endLoad_returned (d.1.raise o.thread r.2.1) id o).regs o.thread regs[i] (hwaits _ hmem).1 fun _ _ => List.not_mem_nil
    have hraise : SameReg d.1 (d.1.raise o.thread r.2.1) o.thread regs[i] := .of_rows (raise_rows _ _ _) (by unfold raise; split <;> rfl) _ _
    exact hend.2.trans (hraise.2.trans (htakes _ hmem).2)
  · have hthreads : d.1.threads = a.threads := by rw [show d.1 = _ from hregs']
    have hin : (d.1.threads.find? o.thread).isSome = true := by rw [hthreads, hstored.there]; exact hex
    rw [(endLoad_keeps (d.1.raise o.thread r.2.1) id o).2, raise_fctl hin, hregs'.sameFlags, hflags]


/-- A lane's step writes no register of another thread. -/
theorem atomStep_other {u v : Nat} (hu : u ≠ o.thread) (hv : v < 32) :
    SameReg s (s.atomStep id o fn scope (.scratch gang la) n regs x e rm) u v := by
  obtain ⟨-, hwait⟩ := hawaits
  have hdeliver (r : Option (BitVec 64)) (old : BitVec 64) (fmt : BitVec 4) : SameReg s
      ((s.atomStored o.thread scope (.scratch gang la) n r).deliver o.thread id o.insn (atomWrites regs old fmt)).1 u v := by
    have hstored := s.atomStored_returned o.thread scope (.scratch gang la) n r []
    refine (hstored.regs u v hv fun _ _ => List.not_mem_nil).trans (deliver_other id o.insn hu hv fun w hw => ?_)
    have hmem : w.1 ∈ regs := atomWrites_regs regs old fmt ▸ List.mem_map_of_mem hw
    exact (hwait w.1 hmem).1
  rw [atomStep_clean (show (s.atomRead o.thread scope (.scratch gang la) n).2 = false from hclean)]
  refine SameReg.trans ?_ ((endLoad_returned _ id o).regs u v hv fun _ _ => List.not_mem_nil)
  split
  · exact hdeliver _ _ _
  · exact (hdeliver _ _ _).trans ((raise_returned _ [] _ _).regs u v hv fun _ _ => List.not_mem_nil)

end Lane

theorem atomSpad_keeps (s : State) (gang la n : Nat) (v : Option (BitVec 64)) :
    (s.atomSpad gang la n v).mem = s.mem ∧ (s.atomSpad gang la n v).poolMem = s.poolMem ∧ (s.atomSpad gang la n v).cbytes = s.cbytes := by
  cases v <;> exact ⟨rfl, rfl, rfl⟩

theorem spadByte_atomSpad (s : State) (gang la n : Nat) (v : Option (BitVec 64)) (hla : la + n ≤ 2 ^ 24) (g a : Nat) (ha : a < 2 ^ 24) :
    (s.atomSpad gang la n v).spadByte g a = if g = gang ∧ la ≤ a ∧ a < la + n then (match v with
      | some v => (leBytes n v.toNat).getD (a - la) 0
      | none => s.spadByte g a) else s.spadByte g a := by
  cases v with
  | none => exact (ite_self _).symm
  | some v =>
    refine (spadByte_spadWrite_all g false (by rw [length_leBytes]; exact hla) ha).trans ?_
    rw [length_leBytes]

/-- An atomic alone on its line, at a scratchpad (R99, R271, R272). -/
theorem atomicPerform_scratch (s : State) (id t scope n gang la : Nat) (fn : AtomFn) (regs : List Nat) (x e : BitVec 64) (rm : BitVec 2) (o : Op)
    (h : s.ops.find? id = some o) (ht : o.thread = t) (hex : (s.threads.find? t).isSome = true)
    (hk : o.kind = .atomic fn scope (.scratch gang la) n regs x e rm) (hone : s.atomGroup o (.scratch gang la) = [(id, o)])
    (hm : s.mayPerform id o = true) (hregs : regs ≠ []) (hawaits : Awaits s t id regs) (hla : la + n ≤ 2 ^ 24)
    (hclean : (s.spadLoad gang la n).2.1 = false) :
    let old := BitVec.ofNat 64 (s.spadNat gang la n)
    let r := atomResult fn (n == 8) old x e rm.toNat
    ∃ s', exec (.atomicPerform id) s = .next s' ∧ WritesOnly s s' t id ∧ s'.mem = s.mem ∧ s'.poolMem = s.poolMem ∧
      s'.cbytes = s.cbytes ∧
      (∀ i (h : i < regs.length), s'.reg t regs[i] = old.extractLsb' (32 * i) 32) ∧
      (s'.thread t).fctl = (if r.2.1 = 0 then (s.thread t).fctl else fctlRaise (s.thread t).fctl r.2.1) ∧
      ∀ g a, a < 2 ^ 24 → s'.spadByte g a =
        if g = gang ∧ la ≤ a ∧ a < la + n then (match r.1 with
          | some v => (leBytes n v.toNat).getD (a - la) 0
          | none => s.spadByte g a) else s.spadByte g a := by
  intro old r
  subst ht
  have hexec := exec_atomicPerform h hk (by rw [hone]; exact fun y hy => List.mem_singleton.mp hy ▸ hm)
  have hstep : (s.atomGroup o (.scratch gang la)).foldl (atomLaneStep scope) (s.atomLine o scope (.scratch gang la)) =
      s.atomStep id o fn scope (.scratch gang la) n regs x e rm := by
    rw [hone]
    exact atomLaneStep_atomic hk scope s
  rw [hstep] at hexec
  obtain ⟨hvals, hfctl⟩ := atomStep_values (s := s) (id := id) (fn := fn) (scope := scope) (x := x) (e := e) (rm := rm) hclean hawaits hregs hex
  have hbytes := atomStep_bytes (id := id) (o := o) (fn := fn) (scope := scope) (regs := regs) (x := x) (e := e) (rm := rm) hclean
  have hreturned := atomStep_returned s id o fn scope (.scratch gang la) n regs x e rm
  have hread := spadByte_congr hbytes
  obtain ⟨⟨hmem, hpool, -, hcache⟩, -⟩ := hbytes
  obtain ⟨hmem', hpool', hcache'⟩ := s.atomSpad_keeps gang la n r.1
  refine ⟨_, hexec, fun u v hv hother => ?_, ?_, ?_, ?_, hvals, hfctl, fun g a ha => ?_⟩
  · by_cases hu : u = o.thread
    · refine (hreturned.regs u v hv fun p hp hi => ?_).2
      have := List.all_eq_true.mp (hother hu) p (hu ▸ hp)
      simp [List.mem_singleton.mp hi] at this
    · exact (atomStep_other hclean hawaits hu hv).2
  · exact hmem.trans hmem'
  · exact hpool.trans hpool'
  · exact hcache.trans hcache'
  · rw [hread]
    exact spadByte_atomSpad s gang la n r.1 hla g a ha

/-! ## Lanes that add to one word, R273, R289 -/

/-- An operation that adds `x` to a word of a scratchpad. -/
def Adds (gang la : Nat) (y : Op) (x : BitVec 64) : Prop :=
  ∃ scope regs e rm, y.kind = .atomic .add scope (.scratch gang la) 4 regs x e rm

theorem leNat_lt (bs : List (BitVec 8)) : leNat bs < 256 ^ bs.length := by
  induction bs with
  | nil => exact Nat.one_pos
  | cons b bs ih =>
    have hb := b.isLt
    rw [leNat, List.length_cons, Nat.pow_succ]
    omega

theorem spadNat_congr {s t : State} (h : SameBytes s t) (gang la n : Nat) : t.spadNat gang la n = s.spadNat gang la n := by
  have hbyte : t.spadByte gang = s.spadByte gang := funext fun a => spadByte_congr h gang a
  unfold spadNat
  rw [hbyte]

theorem spadNat_spadWrite (s : State) (gang la : Nat) (bs : List (BitVec 8)) (tag : Bool) :
    (s.spadWrite gang la bs tag).spadNat gang la bs.length = leNat bs := by
  unfold spadNat
  rw [map_spadByte_spadWrite]

/-- A write to a scratchpad marks no granule as poisoned. -/
theorem spadPoison_spadWrite (s : State) (gang la : Nat) (bs : List (BitVec 8)) (tag : Bool) (k : Nat)
    (h : s.spadPoison.get false k = false) : (s.spadWrite gang la bs tag).spadPoison.get false k = false := by
  unfold spadWrite
  dsimp only
  generalize ((span la bs.length).map fun a => spadKey gang a / 16).eraseDups = gs
  generalize s.spadPoison = m at h
  induction gs generalizing m with
  | nil => exact h
  | cons g gs ih =>
    rw [List.foldl_cons]
    refine ih _ ?_
    split
    · rw [FMap.get_set]
      split
      · rfl
      · exact h
    · exact h

theorem spadLoad_clean_iff {s : State} {gang la n : Nat} :
    (s.spadLoad gang la n).2.1 = false ↔ ∀ a ∈ span la n, s.spadPoison.get false (spadKey gang a / 16) = false := by
  unfold spadLoad
  rw [List.any_eq_false]
  simp only [Bool.not_eq_true]

/-- One lane's sum, R271. -/
theorem atomStep_adds {s : State} {gang la : Nat} {x : BitVec 64} {regs : List Nat} {e : BitVec 64} {rm : BitVec 2} (id : Nat) (o : Op)
    (scope : Nat) (hclean : (s.spadLoad gang la 4).2.1 = false) :
    let s' := s.atomStep id o .add scope (.scratch gang la) 4 regs x e rm
    s'.spadNat gang la 4 = (s.spadNat gang la 4 + x.toNat) % 2 ^ 32 ∧ (s'.spadLoad gang la 4).2.1 = false := by
  intro s'
  let v : BitVec 64 := ((BitVec.ofNat 64 (s.spadNat gang la 4)).setWidth 32 + x.setWidth 32 : BitVec 32).setWidth 64
  have hbytes : SameBytes (s.spadWrite gang la (leBytes 4 v.toNat) false) s' :=
    atomStep_bytes (id := id) (o := o) (fn := .add) (scope := scope) (regs := regs) (x := x) (e := e) (rm := rm) hclean
  constructor
  · have hwrite := s.spadNat_spadWrite gang la (leBytes 4 v.toNat) false
    rw [length_leBytes, leNat_leBytes] at hwrite
    have hv : v.toNat = (s.spadNat gang la 4 + x.toNat) % 2 ^ 32 := by
      simp only [v, BitVec.toNat_setWidth, BitVec.toNat_add, BitVec.toNat_ofNat]
      omega
    rw [spadNat_congr hbytes, hwrite, hv]
    exact Nat.mod_mod _ _
  · rw [spadLoad_clean_iff] at hclean ⊢
    intro a ha
    rw [hbytes.2]
    exact spadPoison_spadWrite s gang la _ false _ (hclean a ha)

/-- Lanes that add to one word leave the sum. -/
theorem atomLaneSteps_add (scope : Nat) {gang la : Nat} (a : Op → BitVec 64) (xs : List (Nat × Op)) (h : ∀ y ∈ xs, Adds gang la y.2 (a y.2))
    (s : State) (hclean : (s.spadLoad gang la 4).2.1 = false) :
    (xs.foldl (atomLaneStep scope) s).spadNat gang la 4 = (s.spadNat gang la 4 + (xs.map fun y => (a y.2).toNat).sum) % 2 ^ 32 := by
  induction xs generalizing s with
  | nil =>
    have hlt := leNat_lt ((span la 4).map (s.spadByte gang))
    rw [List.length_map, length_span] at hlt
    exact (Nat.mod_eq_of_lt hlt).symm
  | cons y xs ih =>
    obtain ⟨sc, regs, e, rm, hk⟩ := h y (by simp)
    obtain ⟨hsum, hstill⟩ := atomStep_adds (x := a y.2) (regs := regs) (e := e) (rm := rm) y.1 y.2 scope hclean
    rw [List.foldl_cons, atomLaneStep_atomic hk, ih (fun z hz => h z (by simp [hz])) _ hstill, hsum, List.map_cons, List.sum_cons]
    omega

end State

/-! ## The new values, R271 -/

theorem extractLsb'_zero_eq (x : BitVec 64) : x.extractLsb' 0 32 = x.setWidth 32 := by
  apply BitVec.eq_of_toNat_eq
  rw [BitVec.extractLsb'_toNat, BitVec.toNat_setWidth, Nat.shiftRight_zero]

/-- Settles O37: the lanes on a line take their steps in turn, and each is the law of one step. -/
theorem atomicsPerform : Obligations.AtomicsPerform := by
  unfold Obligations.AtomicsPerform
  refine ⟨State.atomicPerform_ends, State.atomicPerform_scratch, ?sum, ?values⟩
  case sum =>
    intro s id gang la o a h lanes addsHere ho hall _ hclean
    obtain ⟨scope, regs, e, rm, hk⟩ := ho
    refine ⟨_, State.exec_atomicPerform h hk fun y hy => (hall y hy).2, ?_⟩
    exact State.atomLaneSteps_add scope a _ (fun y hy => (hall y hy).1) s hclean
  case values =>
    intro w old x e rm a b wide
    have ha : old.setWidth 32 = a := (extractLsb'_zero_eq old).symm
    have hb : x.setWidth 32 = b := (extractLsb'_zero_eq x).symm
    unfold atomResult
    dsimp only
    rw [ha, hb, extractLsb'_zero_eq e]
    refine ⟨rfl, congrArg wide (Alu.min_eq a b), congrArg wide (Alu.max_eq a b), congrArg wide (Alu.minu_eq a b),
      congrArg wide (Alu.maxu_eq a b), rfl, rfl, rfl, rfl, rfl, rfl, rfl⟩

end Sys2Proof.Machine

/-! SUPPORT. Submissions of `tlaunch` and requests of `fetchw`: what each leaves as it was, and what it answers (R87, R241, R313, R347 to
R349, R351). -/

namespace Sys2Proof.Machine

namespace State

/-! ## What a submission changes -/

theorem walkHot_aliases (s : State) (w va : Nat) : s.walkHot w va = { s with alias_ := (s.walkHot w va).alias_ } := by
  unfold walkHot
  split
  · rfl
  · split
    · rfl
    · exact raiseHots_aliases _ s

theorem walkHots_aliases {α : Type} (w : Nat) (va : α → Nat) (bs : List α) (s : State) :
    bs.foldl (fun s b => s.walkHot w (va b)) s = { s with alias_ := (bs.foldl (fun s b => s.walkHot w (va b)) s).alias_ } := by
  induction bs generalizing s with
  | nil => rfl
  | cons b bs ih => rw [List.foldl_cons, ih, walkHot_aliases]

theorem recordHot_aliases (s : State) (w va : Nat) : s.recordHot w va = { s with alias_ := (s.recordHot w va).alias_ } := by
  unfold recordHot
  split
  · rfl
  · dsimp only
    rw [raiseHots_aliases, walkHots_aliases]

theorem entryHot_aliases (s : State) (w : Nat) (r : TaskRec) : s.entryHot w r = { s with alias_ := (s.entryHot w r).alias_ } := by
  unfold entryHot
  dsimp only
  split
  · rfl
  · split
    · split
      · rw [raiseHot_aliases, walkHot_aliases]
      · exact walkHot_aliases _ _ _
    · exact walkHot_aliases _ _ _

/-- Nothing but redirects, tasks, queues and the next number differs. -/
def OnlySubmits (s t : State) : Prop :=
  t = { s with alias_ := t.alias_, tasks := t.tasks, queues := t.queues, nextId := t.nextId }

theorem OnlySubmits.trans {s t u : State} (h : OnlySubmits s t) (k : OnlySubmits t u) : OnlySubmits s u := by
  unfold OnlySubmits at h k ⊢
  rw [h] at k
  exact k

theorem recordHot_onlySubmits (s : State) (w va : Nat) : OnlySubmits s (s.recordHot w va) := by
  rw [recordHot_aliases]; rfl

theorem submit_onlySubmits (s : State) (q va : Nat) (r : TaskRec) (cls : Nat) : OnlySubmits s (s.submit q va r cls).1 := by
  unfold submit
  split
  · rfl
  · dsimp only [updQueue]
    rw [entryHot_aliases]
    rfl

end State

theorem launch_onlySubmits (s : State) (t va : Nat) : State.OnlySubmits s (launch s t va).1 := by
  have hhot := s.recordHot_onlySubmits (s.worldOf t) va
  unfold launch
  dsimp only
  split
  · exact hhot
  · split
    · exact hhot
    · split
      · exact hhot
      · split
        · exact hhot
        · split
          · exact hhot
          · exact hhot.trans (State.submit_onlySubmits _ _ _ _ _)

/-! ## What a submission answers, R349 -/

/-- A record that cannot be read is refused. -/
theorem launch_unread {s : State} {t va : Nat} (h : (s.recordHot (s.worldOf t) va).readRecord (s.worldOf t) va = none) :
    launch s t va = (s.recordHot (s.worldOf t) va, 0x8000000000000004) := by
  unfold launch
  dsimp only
  rw [h]
  rfl

section Submits

variable {s : State} {t va : Nat} {r : TaskRec} {q : Queue} (hread : (s.recordHot (s.worldOf t) va).readRecord (s.worldOf t) va = some r)
  (hq : s.queues.find? r.queue = some q) (hworld : q.world = s.worldOf t)
  (hrun : s.worldOf t = 0 ∨ (s.worlds.find? (s.worldOf t)).any (·.running) = true)

include hread hq hworld hrun

/-- A record that can be read, for a queue of a world that runs, is submitted unless the queue is full. -/
theorem launch_readable : launch s t va =
    if 65535 ≤ s.openTasks r.queue then (s.recordHot (s.worldOf t) va, 0x8000000000000001)
    else (s.recordHot (s.worldOf t) va).submit r.queue va r
      (min r.prio (((s.tasks.find? (s.taskOf t)).map (·.cls)).getD 0)) := by
  have hhot := s.recordHot_aliases (s.worldOf t) va
  have hqueues : (s.recordHot (s.worldOf t) va).queues = s.queues := by rw [hhot]
  have htasks : (s.recordHot (s.worldOf t) va).tasks = s.tasks := by rw [hhot]
  have hworlds : (s.recordHot (s.worldOf t) va).worlds = s.worlds := by rw [hhot]
  have hgangs : (s.recordHot (s.worldOf t) va).gangs = s.gangs := by rw [hhot]
  have hopen : (s.recordHot (s.worldOf t) va).openTasks r.queue = s.openTasks r.queue := by unfold State.openTasks; rw [htasks]
  have htask : (s.recordHot (s.worldOf t) va).taskOf t = s.taskOf t := by unfold State.taskOf; rw [hgangs]
  have hrunning : (s.worldOf t == 0 || (s.worlds.find? (s.worldOf t)).any (·.running)) = true := by simpa using hrun
  unfold launch
  dsimp only
  rw [hread]
  dsimp only
  rw [hqueues, hq]
  dsimp only
  rw [if_neg (not_not.mpr hworld), hworlds, hrunning, htasks, hopen, htask]
  rfl

/-- A submission that is not refused takes the next SEQ of its queue, joins its tail, and is answered with its handle. -/
theorem launch_submitted (hroom : ¬ 65535 ≤ s.openTasks r.queue) :
    let n : BitVec 32 := if q.seq + 1 = 0 then 1 else q.seq + 1
    (launch s t va).2 = BitVec.ofNat 32 r.queue ++ n ∧
      ((launch s t va).1.tasks.find? s.nextId).map (fun k => (k.record, k.world, k.queue, k.stage)) =
        some (r, q.world, r.queue, .queued) ∧
      ((launch s t va).1.queues.find? r.queue).map (fun q => (q.seq, q.waiting)) = some (n, q.waiting ++ [s.nextId]) := by
  have hhot := s.recordHot_aliases (s.worldOf t) va
  have hqueues : (s.recordHot (s.worldOf t) va).queues.find? r.queue = some q := by rw [hhot]; exact hq
  have hnext : (s.recordHot (s.worldOf t) va).nextId = s.nextId := by rw [hhot]
  have hlaunch := launch_readable hread hq hworld hrun
  rw [if_neg hroom] at hlaunch
  rw [hlaunch]
  unfold State.submit
  rw [hqueues]
  dsimp only [State.updQueue]
  rw [hnext]
  refine ⟨rfl, ?_, ?_⟩
  · rw [FMap.find?_put, if_pos rfl]
    rfl
  · have hentry : ((s.recordHot (s.worldOf t) va).entryHot q.world r).queues.find? r.queue = some q := by
      rw [State.entryHot_aliases]; exact hqueues
    rw [FMap.find?_adjust, if_pos rfl, hentry]
    rfl

end Submits

/-! ## The lanes that submit, R87, R348 -/

namespace State

/-- A state without its tasks and gangs, in which a submission is a step that ends no operation. -/
def untasked (s : State) : State := { s with tasks := [], gangs := [] }

theorem Returned.untasked {s t : State} {ids : List Nat} {ended : List (Nat × Nat)} (h : Returned s t ids ended) :
    Returned s.untasked t.untasked ids ended := ⟨rfl, rfl, h.free, h.there, h.ops, h.loads, h.regs⟩

theorem push_onlyCaches (s : State) (core scope : Nat) (h : scope ≠ 5) : OnlyCaches s (s.push core scope) := by
  unfold push
  dsimp only
  rw [if_neg h]
  exact OnlyCaches.foldl _ (fun s u => OnlyCaches.foldl _ (fun s x => pushLine_onlyCaches _ s u x) _ s) _ s

/-- The two registers of a submission take its handle or refusal word. -/
def handleWrites (v : Nat) (w : BitVec 64) : List (Nat × BitVec 32 × BitVec 4 × BitVec 7) :=
  [(v, w.extractLsb' 0 32, 0, 0), (v + 1, w.extractLsb' 32 32, 0, 0)]

end State

section Lane

variable {s : State} {id : Nat} {o : Op} {va v : Nat}

theorem launchLane_eq (hk : o.kind = .launch va v) : launchLane s id o =
    let r := launch (s.push (s.coreOf o.thread) 3) o.thread va
    ((r.1.deliver o.thread id o.insn (State.handleWrites v r.2)).1).endLoad id o := by
  unfold launchLane
  rw [hk]
  rfl

theorem launch_returned (s : State) (t va : Nat) (ids : List Nat) :
    State.Returned s.untasked (launch (s.push (s.coreOf t) 3) t va).1.untasked ids [] := by
  have hpush := (s.push_onlyCaches (s.coreOf t) 3 (by decide)).returned ids
  refine hpush.untasked.andThen ?_
  have honly := launch_onlySubmits (s.push (s.coreOf t) 3) t va
  unfold State.OnlySubmits at honly
  rw [honly]
  exact .of_fields ids rfl rfl rfl rfl rfl rfl

theorem launchLane_returned (hk : o.kind = .launch va v) :
    State.Returned s.untasked (launchLane s id o).untasked [id] [State.laneOfOp (id, o)] := by
  rw [launchLane_eq hk]
  exact (launch_returned s o.thread va [id]).trans (State.deliver_returned _ o.thread id o.insn _).ends.untasked

end Lane

theorem launchLanes_returned (xs : List (Nat × Op)) (h : ∀ x ∈ xs, ∃ va v, x.2.kind = .launch va v) (s : State) :
    State.Returned s.untasked (xs.foldl (fun s x => launchLane s x.1 x.2) s).untasked (xs.map (·.1)) (xs.map State.laneOfOp) := by
  induction xs generalizing s with
  | nil => exact .refl _ _
  | cons x xs ih =>
    obtain ⟨va, v, hk⟩ := h x (by simp)
    have hx := (launchLane_returned (s := s) (id := x.1) hk).mono (js := (x :: xs).map (·.1)) (by simp)
    exact hx.trans ((ih (fun y hy => h y (by simp [hy])) _).mono fun i hi => by simp only [List.map_cons, List.mem_cons]; exact .inr hi)

theorem exec_tlaunchSubmit {s : State} {id : Nat} {o : Op} {va v : Nat} (h : s.ops.find? id = some o) (hk : o.kind = .launch va v)
    (hm : ∀ y ∈ s.ops.filter fun ko => ko.2.insn == o.insn, s.mayPerform y.1 y.2 = true) :
    exec (.tlaunchSubmit id) s = .next ((s.ops.filter fun ko => ko.2.insn == o.insn).foldl (fun s x => launchLane s x.1 x.2) s) := by
  have hexec : exec (.tlaunchSubmit id) s = execTlaunchSubmit id s := rfl
  have hall : ((s.ops.filter fun ko => ko.2.insn == o.insn).all fun ko => s.mayPerform ko.1 ko.2) = true := List.all_eq_true.mpr hm
  rw [hexec]
  unfold execTlaunchSubmit
  rw [h]
  dsimp only
  rw [hk]
  dsimp only
  rw [if_pos hall]

/-- The lanes of one instruction submit together, and LOADS falls for each, R348. -/
theorem tlaunchSubmit_ends (s : State) (id : Nat) (o : Op) (h : s.ops.find? id = some o) (hk : ∃ va v, o.kind = .launch va v)
    (hm : ∀ y ∈ s.ops.filter fun ko => ko.2.insn == o.insn, (∃ va v, y.2.kind = .launch va v) ∧ s.mayPerform y.1 y.2 = true) :
    ∃ s', exec (.tlaunchSubmit id) s = .next s' ∧ OpsOver s s' (s.ops.filter fun ko => ko.2.insn == o.insn) ∧
      LoadsFall s s' ((s.ops.filter fun ko => ko.2.insn == o.insn).map (·.2.thread)) := by
  obtain ⟨va, v, hk⟩ := hk
  have hself : (id, o) ∈ s.ops.filter fun ko => ko.2.insn == o.insn :=
    List.mem_filter.mpr ⟨FMap.mem_of_find? h, beq_self_eq_true _⟩
  obtain ⟨hops, -, hloads, -⟩ := (launchLanes_returned _ (fun y hy => (hm y hy).1) s).lanesOver hself
  exact ⟨_, exec_tlaunchSubmit h hk fun y hy => (hm y hy).2, hops, hloads⟩

theorem endLoad_queues (s : State) (id : Nat) (o : Op) : (s.endLoad id o).queues = s.queues := by
  have htags := State.settleTags_onlyRegs (s.dropOp id) (crewOf o.thread) o.insn
  unfold State.endLoad State.decLd
  rw [settleWait_threads, htags]
  rfl

/-- A lone submission's two registers take its answer, R349. -/
theorem tlaunchSubmit_answers (s : State) (id va v : Nat) (o : Op) (h : s.ops.find? id = some o) (hk : o.kind = .launch va v)
    (hm : s.mayPerform id o = true) (hone : (s.ops.filter fun ko => ko.2.insn == o.insn) = [(id, o)]) (hawaits : Awaits s o.thread id [v, v + 1]) :
    let r := launch (s.push (s.coreOf o.thread) 3) o.thread va
    ∃ s', exec (.tlaunchSubmit id) s = .next s' ∧ WritesOnly s s' o.thread id ∧ OpOver s s' id ∧
      LoadsFall s s' [o.thread] ∧ s'.tasks = r.1.tasks ∧ s'.queues = r.1.queues ∧
      s'.reg o.thread v = r.2.extractLsb' 0 32 ∧ s'.reg o.thread (v + 1) = r.2.extractLsb' 32 32 := by
  intro r
  have hexec := exec_tlaunchSubmit h hk (by rw [hone]; exact fun y hy => List.mem_singleton.mp hy ▸ hm)
  rw [hone] at hexec
  have hlane : launchLane s id o = ((r.1.deliver o.thread id o.insn (State.handleWrites v r.2)).1).endLoad id o := launchLane_eq hk
  have hreturned := launchLane_returned (s := s) (id := id) hk
  have hlaunch := launch_returned s o.thread va []
  obtain ⟨hnd, hwait⟩ := hawaits
  have hlaunched (u w : Nat) (hw : w < 32) : State.SameReg s r.1 u w := hlaunch.regs u w hw fun _ _ => List.not_mem_nil
  have hws : ∀ w ∈ State.handleWrites v r.2, w.1 ∈ [v, v + 1] := by simp [State.handleWrites]
  have htakes := State.deliver_takes (s := r.1) o.insn (ws := State.handleWrites v r.2) hnd fun w hw => by
    obtain ⟨hlt, hp⟩ := hwait w.1 (hws w hw)
    exact ⟨hlt, by rw [(hlaunched o.thread w.1 hlt).1, hp]⟩
  have hend := State.endLoad_returned ((r.1.deliver o.thread id o.insn (State.handleWrites v r.2)).1) id o
  have hreads : ∀ w ∈ State.handleWrites v r.2, (launchLane s id o).reg o.thread w.1 = w.2.1 := fun w hw => by
    rw [hlane, (hend.regs o.thread w.1 (hwait w.1 (hws w hw)).1 fun _ _ => List.not_mem_nil).2, (htakes w hw).2]
  refine ⟨launchLane s id o, hexec, fun u w hw hother => ?_, fun k => ?_, hreturned.loads, ?_, ?_,
    hreads _ (List.mem_cons_self ..), hreads _ (List.mem_cons_of_mem _ (List.mem_cons_self ..))⟩
  · by_cases hu : u = o.thread
    · refine (hreturned.regs u w hw fun p hp hi => ?_).2
      have := List.all_eq_true.mp (hother hu) p (hu ▸ hp)
      simp [List.mem_singleton.mp hi] at this
    · rw [hlane]
      exact (((hlaunched u w hw).trans (State.deliver_other id o.insn hu hw fun x hx => (hwait x.1 (hws x hx)).1)).trans
        (hend.regs u w hw fun _ _ => List.not_mem_nil)).2
  · exact (hreturned.ops k).trans (if_congr List.mem_singleton rfl rfl)
  · rw [hlane, hend.tasks, (State.deliver_returned r.1 o.thread id o.insn _).tasks]
  · rw [hlane, endLoad_queues, State.deliver_onlyRegs]

/-! ## `fetchw`, R313, R351 -/

/-- The bytes of a mailbox that is answered with status 2. -/
def emptyMailbox : List (BitVec 8) := leBytes 4 2 ++ leBytes 28 0

theorem length_emptyMailbox : emptyMailbox.length = 32 := by decide

theorem emptyMailbox_getD {i : Nat} (hi : i < 28) : emptyMailbox.getD (4 + i) 0 = 0 := by
  have hall : ∀ j : Fin 28, emptyMailbox.getD (4 + j.val) 0 = 0 := by decide
  exact hall ⟨i, hi⟩

/-- An empty mailbox, as it is read. -/
theorem mailbox_reads (s : State) (gang la : Nat) :
    (s.spadWrite gang la emptyMailbox false).spadNat gang la 4 = 2 ∧
      ∀ i, i < 28 → (s.spadWrite gang la emptyMailbox false).spadByte gang (la + 4 + i) = 0 := by
  have hbyte (a : Nat) := spadByte_spadWrite s gang la a emptyMailbox false
  rw [length_emptyMailbox] at hbyte
  refine ⟨?_, fun i hi => ?_⟩
  · have hall := s.map_spadByte_spadWrite gang la emptyMailbox false
    rw [length_emptyMailbox] at hall
    have hfour : span la 4 = (span la 32).take 4 := rfl
    have hword : leNat (emptyMailbox.take 4) = 2 := by decide
    unfold State.spadNat
    rw [hfour, List.map_take, hall, hword]
  · rw [hbyte, if_pos (by omega), Nat.add_assoc, Nat.add_sub_cancel_left]
    exact emptyMailbox_getD hi

/-- What a write to a scratchpad, and the threads that then look again, leave as it was. -/
theorem spadWrite_settled (s : State) (gang la : Nat) (bs : List (BitVec 8)) :
    let s' := (s.spadWrite gang la bs false).settleObjects gang
    SameRegisters s s' ∧ s'.mem = s.mem ∧ s'.fetches = s.fetches ∧ s'.gangs = s.gangs ∧ State.SameBytes (s.spadWrite gang la bs false) s' := by
  have hstands := (s.spadWrite gang la bs false).settleObjects_onlyStands gang
  have hbytes := hstands.sameBytes
  generalize (s.spadWrite gang la bs false).settleObjects gang = s' at hstands hbytes
  have honly := hstands.only
  refine ⟨State.sameRegisters_of ?_ ?_, ?_, ?_, ?_, hbytes⟩ <;> rw [honly] <;> rfl

/-- An answer to a request without a task, where its mailbox is there. -/
theorem writeMailbox_none {s : State} {gang la : Nat} (handle : BitVec 64) (h : s.allocated gang la 32 = true) :
    writeMailbox s gang la none handle = (s.spadWrite gang la emptyMailbox false).settleObjects gang := by
  unfold writeMailbox
  dsimp only
  rw [if_pos h]
  rfl

theorem exec_fetchwAnswer_noTask {s : State} {id : Nat} {f : Fetch} (h : s.fetches.find? id = some f)
    (hfirst : ∀ kf ∈ s.fetches, kf.2.gang = f.gang → id ≤ kf.1) (hhere : (s.gangs.find? f.gang).map (·.stat) ≠ some .residue)
    (hnone : s.byHandle (s.gangWorld f.gang) f.handle = none) :
    exec (.fetchwAnswer id) s = .next (writeMailbox { s with fetches := s.fetches.erase id } f.gang f.la none 0) := by
  have hrun : exec (.fetchwAnswer id) s = execFetchwAnswer id s := rfl
  have hall : (s.fetches.all fun kf => kf.2.gang != f.gang || decide (id ≤ kf.1)) = true := by
    rw [List.all_eq_true]
    intro kf hkf
    by_cases hg : kf.2.gang = f.gang
    · rw [decide_eq_true (hfirst kf hkf hg), Bool.or_true]
    · rw [bne_iff_ne.mpr hg, Bool.true_or]
  have haway : ((s.gangs.find? f.gang).any fun g => decide (g.stat = GStat.residue)) = false := by
    cases hg : s.gangs.find? f.gang with
    | none => rfl
    | some g =>
      rw [hg] at hhere
      exact decide_eq_false fun hr => hhere (congrArg some hr)
  rw [hrun]
  unfold execFetchwAnswer
  rw [h]
  dsimp only
  rw [hall, haway, hnone]
  rfl

/-- The oldest request of a gang whose handle names no task of its world is answered with status 2. -/
theorem fetchwAnswer_noTask (s : State) (id : Nat) (f : Fetch) (h : s.fetches.find? id = some f)
    (hfirst : ∀ kf ∈ s.fetches, kf.2.gang = f.gang → id ≤ kf.1) (hhere : (s.gangs.find? f.gang).map (·.stat) ≠ some .residue)
    (hnone : s.byHandle (s.gangWorld f.gang) f.handle = none) (hspad : s.allocated f.gang f.la 32 = true) :
    ∃ s', exec (.fetchwAnswer id) s = .next s' ∧ SameRegisters s s' ∧ s'.mem = s.mem ∧ s'.fetches.find? id = none ∧
      s'.gangs = s.gangs ∧ s'.spadNat f.gang f.la 4 = 2 ∧ ∀ i, i < 28 → s'.spadByte f.gang (f.la + 4 + i) = 0 := by
  have hexec := exec_fetchwAnswer_noTask h hfirst hhere hnone
  rw [writeMailbox_none (s := { s with fetches := s.fetches.erase id }) 0 hspad] at hexec
  obtain ⟨hregs, hmem, hfetches, hgangs, hbytes⟩ := spadWrite_settled { s with fetches := s.fetches.erase id } f.gang f.la emptyMailbox
  obtain ⟨hstatus, hrest⟩ := mailbox_reads { s with fetches := s.fetches.erase id } f.gang f.la
  refine ⟨_, hexec, hregs, hmem, ?_, hgangs, ?_, fun i hi => ?_⟩
  · rw [hfetches, FMap.find?_erase, if_pos rfl]
  · rw [State.spadNat_congr hbytes, hstatus]
  · rw [State.spadByte_congr hbytes, hrest i hi]

end Sys2Proof.Machine

/-! SUPPORT. Service batches as they are sent: one that joins its die's queue, and one that is answered at once (R353, R354, R400, R402,
R417). -/

namespace Sys2Proof.Machine

/-- A key that is listed is found. -/
theorem isSome_find?_of_mem {α : Type} {m : FMap α} {kv : Nat × α} (h : kv ∈ m) : (m.find? kv.1).isSome = true := by
  induction m with
  | nil => exact absurd h List.not_mem_nil
  | cons x m ih =>
    obtain ⟨k, v⟩ := x
    rw [FMap.find?]
    split
    · rfl
    · rename_i hne
      rcases List.mem_cons.mp h with rfl | hm
      · exact absurd rfl hne
      · exact ih hm

namespace State

/-! ## A service event, R400 -/

theorem discard_onlyCaches (s : State) (core scope : Nat) : OnlyCaches s (s.discard core scope) :=
  OnlyCaches.foldl _ (fun s u => OnlyCaches.foldl _ (fun s x => discardLine_onlyCaches _ s u x) _ s) _ s

/-- Nothing but threads differs, and pre-emption stops none that it did not stop. -/
structure OnlyWakes (s t : State) : Prop where
  only : t = { s with threads := t.threads }
  there : ∀ u, (t.threads.find? u).isSome = (s.threads.find? u).isSome
  goes : ∀ u, t.goesOn u = s.goesOn u

theorem OnlyWakes.refl (s : State) : OnlyWakes s s := ⟨rfl, fun _ => rfl, fun _ => rfl⟩

theorem OnlyWakes.trans {s t u : State} (h : OnlyWakes s t) (k : OnlyWakes t u) : OnlyWakes s u := by
  refine ⟨?_, fun v => (k.there v).trans (h.there v), fun v => (k.goes v).trans (h.goes v)⟩
  have hk := k.only
  rw [h.only] at hk
  exact hk

theorem updThread_onlyWakes {s : State} {t : Nat} {f : Thread → Thread} (hex : (s.threads.find? t).isSome = true)
    (hf : ∀ h, (f h).inSave = h.inSave) : OnlyWakes s (s.updThread t f) :=
  ⟨rfl, fun u => find?_updThread s t u f, fun u => goesOn_updThread u hex hf⟩

/-- A halted thread that goes on at its event. -/
theorem wake_onlyWakes {s : State} {t : Nat} (n pc : Nat) (hex : (s.threads.find? t).isSome = true) (hgo : s.goesOn t = true) :
    OnlyWakes s ((s.updThread t fun h => { h with seen := n }).boundary t pc) := by
  have hseen : OnlyWakes s (s.updThread t fun h => { h with seen := n }) := updThread_onlyWakes hex fun _ => rfl
  rw [boundary_goesOn pc ((hseen.goes t).trans hgo)]
  exact hseen.trans (updThread_onlyWakes ((hseen.there t).trans hex) fun _ => goOn_inSave _ _ _ _)

/-- The threads of a list that an event wakes, each of which goes on. -/
theorem wakes_onlyWakes (die n : Nat) (ths : List (Nat × Thread)) (s : State)
    (hex : ∀ th ∈ ths, (s.threads.find? th.1).isSome = true) (hgo : ∀ th ∈ ths, th.2.stat = .halted → s.goesOn th.1 = true) :
    OnlyWakes s (ths.foldl (fun s th =>
      if th.2.stat == .halted && s.coreOf th.1 / 96 == die then
        (s.updThread th.1 fun h => { h with seen := n }).boundary th.1 (th.2.pc + 4)
      else s) s) := by
  induction ths generalizing s with
  | nil => exact .refl s
  | cons th ths ih =>
    rw [List.foldl_cons]
    have hone : OnlyWakes s (if th.2.stat == .halted && s.coreOf th.1 / 96 == die then
        (s.updThread th.1 fun h => { h with seen := n }).boundary th.1 (th.2.pc + 4) else s) := by
      split
      · rename_i hwake
        have hhalted : th.2.stat = .halted := beq_iff_eq.mp (Bool.and_eq_true_iff.mp hwake).1
        exact wake_onlyWakes n _ (hex th (by simp)) (hgo th (by simp) hhalted)
      · exact .refl s
    refine hone.trans (ih _ (fun x hx => (hone.there x.1).trans (hex x (by simp [hx]))) fun x hx hh => ?_)
    exact (hone.goes x.1).trans (hgo x (by simp [hx]) hh)

theorem serviceEvent_onlyWakes {s : State} (die : Nat) (hgo : ∀ th ∈ s.threads, th.2.stat = .halted → s.goesOn th.1 = true) :
    OnlyWakes { s with regs := { s.regs with evtSeq := s.regs.evtSeq.put die (s.lastEvent + 1) } } (s.serviceEvent die) := by
  refine wakes_onlyWakes die (s.lastEvent + 1) s.threads _ (fun th hth => ?_) hgo
  exact isSome_find?_of_mem hth

/-! ## An answer to a lone caller, R353 -/

theorem crewOf_lane {c l : Nat} (hl : l < 32) : crewOf (c * 32 + l) = c ∧ laneOf (c * 32 + l) = l := by
  unfold crewOf laneOf; omega

/-- The two writes of an answer. -/
def answerWrites (l : Nat) (c : BitVec 32) : List RegWrite := [⟨l, 8, c, 0, 0⟩, ⟨l, 9, 0, 0, 0⟩]

section Answer

variable {s : State} {crew l : Nat} {c : BitVec 32} (hl : l < 32)

include hl

theorem answer_row {d v : Nat} (hv : v < 32) : (s.writeRegs crew (answerWrites l c)).row d v =
    if d = crew ∧ v ∈ [8, 9] then (s.row crew v).write ((answerWrites l c).filter fun w => w.reg == v) else s.row d v := by
  refine writeRegs_row s crew (answerWrites l c) d v (fun x hx => ?_) hv
  rcases List.mem_cons.mp hx with rfl | hx
  · exact ⟨(by decide : 8 < 32), hl⟩
  · rw [List.mem_singleton.mp hx]
    exact ⟨(by decide : 9 < 32), hl⟩

/-- A register of the caller that an answer writes: it takes the word, and waits for nothing any more, R39. -/
theorem answer_written {v : Nat} {w : BitVec 32} (hv : v < 32) (hfilter : ((answerWrites l c).filter fun w => w.reg == v) = [⟨l, v, w, 0, 0⟩]) :
    (s.writeRegs crew (answerWrites l c)).pending (crew * 32 + l) v = [] ∧ (s.writeRegs crew (answerWrites l c)).reg (crew * 32 + l) v = w := by
  obtain ⟨hcrew, hlane⟩ := crewOf_lane (c := crew) hl
  have hmem : v ∈ [8, 9] := by
    have hin : (⟨l, v, w, 0, 0⟩ : RegWrite) ∈ answerWrites l c := List.mem_of_mem_filter (hfilter ▸ List.mem_singleton_self _)
    exact List.mem_map_of_mem (f := (·.reg)) hin
  have hrow := answer_row (s := s) (crew := crew) (c := c) hl (d := crew) hv
  rw [if_pos ⟨rfl, hmem⟩, hfilter] at hrow
  constructor
  · unfold pending
    rw [hcrew, hlane, hrow]
    exact (FMap.get_erase _ _ _ _).trans (if_pos rfl)
  · have hseen := Row.seen_write (s.row crew v) [⟨l, v, w, 0, 0⟩] ⟨l, v, w, 0, 0⟩
      ((s.writeRegs crew (answerWrites l c)).freeOf (crew * 32 + l) v) (List.mem_singleton_self _) hl (List.nodup_singleton _)
    have hreg := (s.writeRegs crew (answerWrites l c)).seen_eq (crew * 32 + l) v
    rw [hcrew, hlane, hrow, hseen] at hreg
    exact (congrArg Prod.snd hreg).symm

/-- Every other register reads as before. -/
theorem answer_other {u v : Nat} (hv : v < 32) (h : u ≠ crew * 32 + l ∨ (v ≠ 8 ∧ v ≠ 9)) :
    (s.writeRegs crew (answerWrites l c)).reg u v = s.reg u v := by
  have hfree : (s.writeRegs crew (answerWrites l c)).freeOf u v = s.freeOf u v := by unfold freeOf; rw [writeRegs_rows]
  have h1 := (s.writeRegs crew (answerWrites l c)).seen_eq u v
  have h2 := s.seen_eq u v
  have hrow := answer_row (s := s) (crew := crew) (c := c) hl (d := crewOf u) hv
  suffices hsame : (((s.writeRegs crew (answerWrites l c)).row (crewOf u) v).seen (laneOf u) (s.freeOf u v)).2 =
      ((s.row (crewOf u) v).seen (laneOf u) (s.freeOf u v)).2 by
    rw [hfree] at h1
    rw [h1, h2] at hsame
    exact hsame
  rw [hrow]
  by_cases hin : crewOf u = crew ∧ v ∈ [8, 9]
  · have hlane : laneOf u ≠ l := fun hlu => by
      have hut : u = crew * 32 + l := by
        unfold crewOf at hin; unfold laneOf at hlu; omega
      have hv89 : v = 8 ∨ v = 9 := by simpa using hin.2
      omega
    rw [if_pos hin, hin.1]
    refine Row.seen_write_other _ _ _ _ (laneOf_lt u) fun hm => ?_
    obtain ⟨w, hw, hwl⟩ := List.mem_map.mp hm
    have hwlane : w.lane = l := by
      rcases List.mem_cons.mp (List.mem_of_mem_filter hw) with rfl | hw
      · rfl
      · rw [List.mem_singleton.mp hw]
    exact hlane (hwl.symm.trans hwlane)
  · rw [if_neg hin]

end Answer

theorem unpend_of_nil {s : State} {t v : Nat} (id : Nat) (h : s.pending t v = []) : s.unpend t id v = s := by
  unfold unpend
  dsimp only
  rw [h]
  rfl

/-- What an answer gives its lone caller: both registers, and the next run. -/
structure Answered (s s' : State) (t : Nat) (c : BitVec 32) : Prop where
  batches : s'.batches = s.batches
  others : KeepsOthers s s' t
  first : s'.reg t 8 = c
  second : s'.reg t 9 = 0
  rest : ∀ u v, v < 32 → u ≠ t ∨ (v ≠ 8 ∧ v ≠ 9) → s'.reg u v = s.reg u v
  thread : s'.thread t = (s.thread t).goOn true s.clock (s.thread t).pc

theorem reply_lone {s : State} {id l tid : Nat} {b : Batch} {args : List (BitVec 32)} (c : BitVec 32) (hcallers : b.callers = [(l, tid, args)])
    (hl : l < 32) (hstat : (s.thread (b.crew * 32 + l)).stat = .svc id) (hgo : s.goesOn (b.crew * 32 + l) = true) :
    Answered s (s.reply id b fun _ => some (c, 0)) (b.crew * 32 + l) c := by
  let t := b.crew * 32 + l
  let s1 := s.writeRegs b.crew (answerWrites l c)
  have hrows : s1 = { s with rows := s1.rows, valid := s1.valid } := writeRegs_rows s b.crew _
  obtain ⟨hfirst, hfirstVal⟩ := answer_written (s := s) (crew := b.crew) (c := c) hl (v := 8) (w := c) (by decide) rfl
  obtain ⟨hsecond, hsecondVal⟩ := answer_written (s := s) (crew := b.crew) (c := c) hl (v := 9) (w := 0) (by decide) rfl
  have hpend : (s1.unpend t id 8).unpend t id 9 = s1 := by rw [unpend_of_nil id hfirst, unpend_of_nil id hsecond]
  have hthreads : s1.threads = s.threads := by rw [hrows]
  have hthread (u : Nat) : s1.thread u = s.thread u := by unfold thread; rw [hthreads]
  obtain ⟨s2, hcache, hreply⟩ : ∃ s2, OnlyCaches s1 s2 ∧ s.reply id b (fun _ => some (c, 0)) = s2.boundary t (s.thread t).pc := by
    let home := (s1.gangs.find? (b.crew / 512)).any fun g => decide (g.stat = GStat.resident)
    refine ⟨if home then s1.discard (s1.coreOf t) 3 else s1, ?_, ?_⟩
    · split
      · exact discard_onlyCaches _ _ _
      · exact .refl s1
    · have hhere : ((b.callers.map (·.1)).filter fun l => (s.thread (b.crew * 32 + l)).stat == .svc id) = [l] := by
        rw [hcallers]
        exact List.filter_cons_of_pos (beq_iff_eq.mpr hstat)
      unfold reply
      dsimp only
      rw [hhere]
      have hlone (w : State) (hw : (s1.unpend t id 8).unpend t id 9 = w) :
          (if home then State.discard ((s1.unpend t id 8).unpend t id 9) (((s1.unpend t id 8).unpend t id 9).coreOf t) 3
            else (s1.unpend t id 8).unpend t id 9).boundary t (s1.thread t).pc =
          (if home then w.discard (w.coreOf t) 3 else w).boundary t (s.thread t).pc := by
        rw [hw, hthread]
      exact hlone s1 hpend
  have hs2 : s2.threads = s.threads ∧ s2.gangs = s.gangs ∧ s2.rows = s1.rows ∧ s2.freeCtr = s.freeCtr ∧ s2.clock = s.clock ∧
      s2.batches = s.batches := by
    rw [hcache, hrows]
    exact ⟨rfl, rfl, rfl, rfl, rfl, rfl⟩
  obtain ⟨hthreads2, hgangs2, hrows2, hfree2, hclock2, hbatches2⟩ := hs2
  have hthread2 (u : Nat) : s2.thread u = s.thread u := by unfold thread; rw [hthreads2]
  have hgo2 : s2.goesOn t = true := by
    unfold goesOn preemptOf at hgo ⊢
    rw [hthread2, hgangs2]
    exact hgo
  have hex : (s2.threads.find? t).isSome = true := by
    rw [hthreads2]
    exact isSome_of_stat fun hexited => by rw [hstat] at hexited; cases hexited
  rw [hreply, boundary_goesOn _ hgo2, hclock2]
  have hreg (u v : Nat) : (s2.updThread t fun h => h.goOn true s.clock (s.thread t).pc).reg u v = s1.reg u v :=
    (SameReg.of_rows (s := s1) (t := s2.updThread t fun h => h.goOn true s.clock (s.thread t).pc) hrows2
      (hfree2.trans (by rw [hrows])) u v).2
  have hmoved (u : Nat) := thread_updThread s2 t u (fun h => h.goOn true s.clock (s.thread t).pc) hex
  refine ⟨hbatches2, fun u hu => ?_, ?_, ?_, fun u v hv hother => ?_, ?_⟩
  · rw [hmoved, if_neg hu, hthread2]
  · rw [hreg]; exact hfirstVal
  · rw [hreg]; exact hsecondVal
  · rw [hreg]; exact answer_other hl hv hother
  · rw [hmoved, if_pos rfl, hthread2]

end State

/-! ## The batch that is sent -/

section Send

variable {s : State} {id : Nat} {b : Batch} (h : s.batches.find? id = some b)

include h

/-- A batch whose service context has failed is answered so, R402. -/
theorem exec_svcBatchSend_aborted (haborted : b.aborted = true) :
    exec (.svcBatchSend id) s = .next (State.reply { s with batches := s.batches.erase id } id b fun _ => some (0x80000004, 0)) := by
  have hrun : exec (.svcBatchSend id) s = execSvcBatchSend id s := rfl
  rw [hrun]
  unfold execSvcBatchSend
  rw [h]
  dsimp only
  rw [if_pos haborted]

end Send

/-- The state once what its callers have written is pushed to the TENANT point, R353. -/
def callersPushed (s : State) (b : Batch) : State := (b.callers.map fun c => b.crew * 32 + c.1).foldl (fun s t => s.push (s.coreOf t) 3) s

theorem callersPushed_onlyCaches (s : State) (b : Batch) : State.OnlyCaches s (callersPushed s b) :=
  State.OnlyCaches.foldl _ (fun s t => s.push_onlyCaches (s.coreOf t) 3 (by decide)) _ s

section Send

variable {s : State} {id : Nat} {b : Batch} (h : s.batches.find? id = some b) (hsent : b.sent = none) (haborted : b.aborted = false)
  (hops : ∀ c ∈ b.callers, ∀ o ∈ s.ops.values, o.thread = b.crew * 32 + c.1 → fenceWaits o.kind = false) (hdirty : s.dirtyRewriting = false)

include h hsent haborted hops hdirty

/-- A batch that has nothing left to wait for, R353, R354, R417. -/
theorem exec_svcBatchSend_ready : exec (.svcBatchSend id) s = .next (
    let s1 := callersPushed s b
    if b.num = 1 ∨ b.num = 2 ∨ b.num = 3 then
      let bad := b.callers.filter fun c => bufferDenied s (b.crew / 512) b.num c.2.2
      let good := b.callers.filter fun c => !bufferDenied s (b.crew / 512) b.num c.2.2
      let s2 := if good.isEmpty then { s1 with batches := s1.batches.erase id }
        else State.serviceEvent { s1 with
          batches := s1.batches.put id { b with callers := good, sent := some s1.nextId }, nextId := s1.nextId + 1 } b.die
      s2.reply id { b with callers := bad } fun _ => some (0x80000002, 0)
    else State.reply { s1 with batches := s1.batches.erase id } id b fun _ => some (0x80000001, 0)) := by
  have hwaits : (s.ops.values.any fun o => (b.callers.map fun c => b.crew * 32 + c.1).contains o.thread && fenceWaits o.kind) = false := by
    rw [List.any_eq_false]
    intro o ho hwait
    obtain ⟨hin, hfence⟩ := Bool.and_eq_true_iff.mp hwait
    obtain ⟨c, hc, hthread⟩ := List.mem_map.mp (List.contains_iff_mem.mp hin)
    rw [hops c hc o ho hthread.symm] at hfence
    exact absurd hfence (by decide)
  have hrun : exec (.svcBatchSend id) s = execSvcBatchSend id s := rfl
  rw [hrun]
  unfold execSvcBatchSend
  rw [h]
  dsimp only
  rw [haborted, hsent, hwaits, hdirty]
  rfl

/-- A batch whose number a service is bound to, and none of whose callers is refused, joins its die's queue, R353. -/
theorem exec_svcBatchSend_queued (hnum : b.num = 1 ∨ b.num = 2 ∨ b.num = 3) (hcallers : b.callers ≠ [])
    (hbuffers : ∀ c ∈ b.callers, bufferDenied s (b.crew / 512) b.num c.2.2 = false) :
    exec (.svcBatchSend id) s = .next (State.serviceEvent { callersPushed s b with
      batches := (callersPushed s b).batches.put id { b with sent := some (callersPushed s b).nextId }
      nextId := (callersPushed s b).nextId + 1 } b.die) := by
  have hbad : (b.callers.filter fun c => bufferDenied s (b.crew / 512) b.num c.2.2) = [] :=
    List.filter_eq_nil_iff.mpr fun c hc => by rw [hbuffers c hc]; decide
  have hgood : (b.callers.filter fun c => !bufferDenied s (b.crew / 512) b.num c.2.2) = b.callers :=
    List.filter_eq_self.mpr fun c hc => by rw [hbuffers c hc]; rfl
  have hsome : b.callers.isEmpty = false := List.isEmpty_eq_false_iff.mpr hcallers
  rw [exec_svcBatchSend_ready h hsent haborted hops hdirty]
  dsimp only
  rw [if_pos hnum, hbad, hgood, hsome]
  rfl

/-- A lone caller whose batch is answered when it would be sent: no service is bound to its number, or its buffer lies outside its lease. -/
theorem exec_svcBatchSend_refused {l tid : Nat} {args : List (BitVec 32)} {c : BitVec 32} (hlone : b.callers = [(l, tid, args)])
    (hwhy : (b.num ≠ 1 ∧ b.num ≠ 2 ∧ b.num ≠ 3 ∧ c = 0x80000001) ∨
      ((b.num = 1 ∨ b.num = 2 ∨ b.num = 3) ∧ bufferDenied s (b.crew / 512) b.num args = true ∧ c = 0x80000002)) :
    exec (.svcBatchSend id) s = .next (State.reply { callersPushed s b with batches := (callersPushed s b).batches.erase id } id b
      fun _ => some (c, 0)) := by
  rw [exec_svcBatchSend_ready h hsent haborted hops hdirty]
  dsimp only
  rcases hwhy with ⟨h1, h2, h3, rfl⟩ | ⟨hnum, hdenied, rfl⟩
  · rw [if_neg fun hnum => hnum.elim h1 fun hnum => hnum.elim h2 h3]
  · have hbad : (b.callers.filter fun c => bufferDenied s (b.crew / 512) b.num c.2.2) = b.callers :=
      List.filter_eq_self.mpr fun c hc => by rw [hlone] at hc; rw [List.mem_singleton.mp hc, hdenied]
    have hgood : (b.callers.filter fun c => !bufferDenied s (b.crew / 512) b.num c.2.2) = [] :=
      List.filter_eq_nil_iff.mpr fun c hc => by rw [hlone] at hc; rw [List.mem_singleton.mp hc, hdenied]; decide
    rw [if_pos hnum, hbad, hgood]
    rfl

end Send

/-- A state that differs in no register, thread or clock. -/
structure SameStanding (s t : State) : Prop where
  threads : t.threads = s.threads
  gangs : t.gangs = s.gangs
  rows : t.rows = s.rows
  free : t.freeCtr = s.freeCtr
  clock : t.clock = s.clock

theorem SameStanding.thread {s t : State} (h : SameStanding s t) (u : Nat) : t.thread u = s.thread u := by
  unfold State.thread
  rw [h.threads]

theorem SameStanding.goesOn {s t : State} (h : SameStanding s t) (u : Nat) : t.goesOn u = s.goesOn u := by
  unfold State.goesOn State.preemptOf
  rw [h.thread, h.gangs]

theorem callersPushed_standing (s : State) (b : Batch) : SameStanding s (callersPushed s b) := by
  rw [callersPushed_onlyCaches s b]
  exact ⟨rfl, rfl, rfl, rfl, rfl⟩

/-- A batch with a service joins its die's queue, and the event wakes halted threads alone. -/
theorem svcBatchSend_queues (s : State) (id : Nat) (b : Batch) (h : s.batches.find? id = some b) (hsent : b.sent = none)
    (haborted : b.aborted = false)
    (hops : ∀ c ∈ b.callers, ∀ o ∈ s.ops.values, o.thread = b.crew * 32 + c.1 → fenceWaits o.kind = false)
    (hnum : b.num = 1 ∨ b.num = 2 ∨ b.num = 3) (hdirty : s.dirtyRewriting = false) (hcallers : b.callers ≠ [])
    (hbuffers : ∀ c ∈ b.callers, bufferDenied s (b.crew / 512) b.num c.2.2 = false)
    (hhalted : ∀ th ∈ s.threads, th.2.stat = .halted → s.goesOn th.1 = true) :
    ∃ s', exec (.svcBatchSend id) s = .next s' ∧ SameRegisters s s' ∧ s'.spad = s.spad ∧
      s'.batches.find? id = some { b with sent := some s.nextId } ∧ s'.regs.evtSeq.get 0 b.die = s.lastEvent + 1 := by
  refine ⟨_, exec_svcBatchSend_queued h hsent haborted hops hdirty hnum hcallers hbuffers, ?_⟩
  have hstand := callersPushed_standing s b
  have hmore : (callersPushed s b).spad = s.spad ∧ (callersPushed s b).regs = s.regs ∧ (callersPushed s b).nextId = s.nextId := by
    rw [callersPushed_onlyCaches s b]
    exact ⟨rfl, rfl, rfl⟩
  obtain ⟨hspad, hregs, hnext⟩ := hmore
  generalize callersPushed s b = s1 at hstand hspad hregs hnext
  have hlast : s1.lastEvent = s.lastEvent := by unfold State.lastEvent; rw [hregs]
  let queued : State := { s1 with batches := s1.batches.put id { b with sent := some s1.nextId }, nextId := s1.nextId + 1 }
  have hwakes : State.OnlyWakes { queued with regs := { queued.regs with evtSeq := queued.regs.evtSeq.put b.die (queued.lastEvent + 1) } }
      (queued.serviceEvent b.die) := by
    refine State.serviceEvent_onlyWakes b.die fun th hth hh => ?_
    have hin : th ∈ s.threads := hstand.threads ▸ hth
    exact (hstand.goesOn th.1).trans (hhalted th hin hh)
  have honly := hwakes.only
  refine ⟨State.sameRegisters_of ?_ ?_, ?_, ?_, ?_⟩
  · rw [honly]; exact hstand.rows
  · rw [honly]; exact hstand.free
  · rw [honly]; exact hspad
  · rw [honly, ← hnext]
    exact (FMap.find?_put _ _ _ _).trans (if_pos rfl)
  · rw [honly, ← hlast]
    exact (FMap.get_put _ _ _ _ _).trans (if_pos rfl)

/-- What an answer leaves, seen from a state in which nothing that it touches differs. -/
theorem State.Answered.seenFrom {s s0 s' : State} {t : Nat} {c : BitVec 32} (h : State.Answered s0 s' t c) (hs : SameStanding s s0) :
    KeepsOthers s s' t ∧ s'.reg t 8 = c ∧ s'.reg t 9 = 0 ∧
      (∀ u v, v < 32 → u ≠ t ∨ (v ≠ 8 ∧ v ≠ 9) → s'.reg u v = s.reg u v) ∧
      s'.thread t = (s.thread t).goOn true s.clock (s.thread t).pc := by
  refine ⟨fun u hu => (h.others u hu).trans (hs.thread u), h.first, h.second, fun u v hv hother => ?_, ?_⟩
  · exact (h.rest u v hv hother).trans (State.SameReg.of_rows hs.rows hs.free u v).2
  · rw [h.thread, hs.thread, hs.clock]

/-- A lone caller is answered at once. -/
theorem svcBatchSend_answers (s : State) (id l tid : Nat) (b : Batch) (args : List (BitVec 32)) (c : BitVec 32) (h : s.batches.find? id = some b)
    (hlone : b.callers = [(l, tid, args)]) (hl : l < 32)
    (hwhy : (b.aborted = true ∧ c = 0x80000004) ∨ (b.aborted = false ∧ b.sent = none ∧ s.dirtyRewriting = false ∧
      (∀ o ∈ s.ops.values, o.thread = b.crew * 32 + l → fenceWaits o.kind = false) ∧
      ((b.num ≠ 1 ∧ b.num ≠ 2 ∧ b.num ≠ 3 ∧ c = 0x80000001) ∨
       ((b.num = 1 ∨ b.num = 2 ∨ b.num = 3) ∧ bufferDenied s (b.crew / 512) b.num args = true ∧ c = 0x80000002))))
    (hstat : (s.thread (b.crew * 32 + l)).stat = .svc id) (hgo : s.goesOn (b.crew * 32 + l) = true) :
    ∃ s', exec (.svcBatchSend id) s = .next s' ∧ s'.batches.find? id = none ∧ KeepsOthers s s' (b.crew * 32 + l) ∧
      s'.reg (b.crew * 32 + l) 8 = c ∧ s'.reg (b.crew * 32 + l) 9 = 0 ∧
      (∀ u v, v < 32 → u ≠ b.crew * 32 + l ∨ (v ≠ 8 ∧ v ≠ 9) → s'.reg u v = s.reg u v) ∧
      s'.thread (b.crew * 32 + l) = (s.thread (b.crew * 32 + l)).goOn true s.clock (s.thread (b.crew * 32 + l)).pc := by
  obtain ⟨s0, hs0, hgone, hexec⟩ : ∃ s0, SameStanding s s0 ∧ s0.batches.find? id = none ∧
      exec (.svcBatchSend id) s = .next (s0.reply id b fun _ => some (c, 0)) := by
    have herased (m : FMap Batch) : (m.erase id).find? id = none := (FMap.find?_erase _ _ _).trans (if_pos rfl)
    rcases hwhy with ⟨haborted, rfl⟩ | ⟨haborted, hsent, hdirty, hops, hwhy⟩
    · exact ⟨{ s with batches := s.batches.erase id }, ⟨rfl, rfl, rfl, rfl, rfl⟩, herased _, exec_svcBatchSend_aborted h haborted⟩
    · have hops : ∀ c ∈ b.callers, ∀ o ∈ s.ops.values, o.thread = b.crew * 32 + c.1 → fenceWaits o.kind = false := by
        rw [hlone]
        intro c hc
        rw [List.mem_singleton.mp hc]
        exact hops
      obtain ⟨hth, hg, hr, hf, hc⟩ := callersPushed_standing s b
      exact ⟨{ callersPushed s b with batches := (callersPushed s b).batches.erase id }, ⟨hth, hg, hr, hf, hc⟩, herased _,
        exec_svcBatchSend_refused h hsent haborted hops hdirty hlone hwhy⟩
  have hanswered := State.reply_lone (s := s0) (id := id) c hlone hl (by rw [hs0.thread]; exact hstat) ((hs0.goesOn _).trans hgo)
  refine ⟨_, hexec, ?_, hanswered.seenFrom hs0⟩
  rw [hanswered.batches]
  exact hgone

/-- Settles O46: batches by what is sent or answered at once, submissions by the lanes that submit together, and requests by the mailbox. -/
theorem callsAnswered : Obligations.CallsAnswered := by
  unfold Obligations.CallsAnswered
  refine ⟨svcBatchSend_queues, svcBatchSend_answers, tlaunchSubmit_answers, tlaunchSubmit_ends, ?launch, fun s t va h => launch_unread h,
    State.recordHot_aliases, fetchwAnswer_noTask⟩
  case launch =>
    intro s t va r q s1 hread hq hworld hrun
    by_cases hfull : 65535 ≤ s.openTasks r.queue
    · rw [if_pos hfull, launch_readable hread hq hworld hrun, if_pos hfull]
    · rw [if_neg hfull]
      exact launch_submitted hread hq hworld hrun hfull

end Sys2Proof.Machine

/-! SUPPORT. The floating-point, conversion and L6 forms are carried out by the lanes of their instructions (R26, R99, R113 to R122). -/

namespace Sys2Proof.Machine

/-! ## Registers that are read and written in pairs and groups, R102 -/

theorem span_lt {a n : Nat} (h : a + n ≤ 32) : ∀ v ∈ span a n, v < 32 := fun v hv => by
  have := mem_span.mp hv
  omega

theorem even_fits {r : BitVec 5} (h : WellFormed.even r = true) : r.toNat + 2 ≤ 32 := by
  have hlt := r.isLt
  have heven : r.toNat % 2 = 0 := beq_iff_eq.mp h
  omega

/-- Writes of registers that follow each other. -/
theorem FitWrites.of_span {ws : List (Nat × BitVec 32 × BitVec 4 × BitVec 7)} {d n : Nat} (hws : ws.map (·.1) = span d n) (h : d + n ≤ 32) :
    FitWrites ws := by
  refine ⟨fun w hw => span_lt h _ (hws ▸ List.mem_map_of_mem hw), ?_⟩
  rw [hws, span_eq_range']
  exact List.nodup_range' ..

theorem FitWrites.pair {d : BitVec 5} (h : WellFormed.even d = true) (x y : BitVec 32 × BitVec 4 × BitVec 7) :
    FitWrites [(d.toNat, x), (d.toNat + 1, y)] := .of_span (n := 2) rfl (even_fits h)

theorem State.readable_append {s : State} {t : Nat} {xs ys : List (Nat × (BitVec 4 → Bool))} :
    s.readable t (xs ++ ys) = true ↔ s.readable t xs = true ∧ s.readable t ys = true := by
  unfold readable
  rw [List.all_append, Bool.and_eq_true]

/-- Registers that are read only where an operand is used. -/
theorem State.readable_used {s : State} {t : Nat} {use : Bool} {vs : List Nat} {acc : BitVec 4 → Bool} :
    s.readable t ((if use then vs else []).map fun v => (v, acc)) = true ↔ (use = true → s.readable t (vs.map fun v => (v, acc)) = true) := by
  cases use
  · exact ⟨fun _ h => (nomatch h), fun _ => rfl⟩
  · exact ⟨fun h _ => h, fun h => h rfl⟩

theorem bind_of_ok {α β : Type} {r : Rd α} {v : α} {f : α → Rd β} (h : r = .ok v) : (r >>= f) = f v := by rw [h]; rfl

/-- An operand that is read only where it is used, and has a fixed value elsewhere. -/
theorem bind_used {α β : Type} {r : Rd α} {v w : α} {f : α → Rd β} (use : Bool) (h : use = true → r = .ok v) :
    (if use then r >>= f else .ok w >>= f) = f (if use then v else w) := by
  cases use
  · rfl
  · exact bind_of_ok (h rfl)

/-- The sources of a form with optional operands are among a crew's registers. -/
theorem sources_lt {useS useD : Bool} {as bs ds : List Nat} (ha : ∀ v ∈ as, v < 32) (hb : ∀ v ∈ bs, v < 32) (hd : ∀ v ∈ ds, v < 32) :
    ∀ v ∈ as ++ (if useS then bs else []) ++ (if useD then ds else []), v < 32 := by
  intro v hv
  rcases List.mem_append.mp hv with hv | hv
  · rcases List.mem_append.mp hv with hv | hv
    · exact ha v hv
    · exact hb v (List.mem_ite_nil_right.mp hv).2
  · exact hd v (List.mem_ite_nil_right.mp hv).2

/-! ## Lanes that raise flags, R99 -/

theorem flagLane_ok {s : State} {t : Nat} {d : Done} {r : Rd (Done × BitVec 32)} {fl : BitVec 32} (hr : r = .ok (d, fl))
    (h : s.rowCheck t (d.writes.map (·.1)) = none) : flagLane s t r = (s.raise t fl, .done d) := by
  subst hr
  unfold flagLane
  dsimp only
  rw [State.finishLane_ok h]

/-- The registers of sources that all accept the same formats. -/
theorem map_accepting (acc : BitVec 4 → Bool) (vs : List Nat) : (vs.map fun v => (v, acc)).map (·.1) = vs := by
  rw [List.map_map]
  exact List.map_id _

/-- A lane that reads registers, writes registers and raises flags carries out its form, whatever further checks that makes. -/
theorem Form.flagged_carriedOut {ct : Ctl} {len : Nat} {srcs : List (Nat × (BitVec 4 → Bool))} {vs : List Nat} {l : Bool}
    {writes : State → Nat → List (Nat × BitVec 32 × BitVec 4 × BitVec 7)} {flags : State → Nat → BitVec 32} {ok : State → Nat → Bool}
    {cs : State → Nat → List Check} {r : State → Nat → Rd (Machine.Done × BitVec 32)} (hsrcs : srcs.map (·.1) = vs) (hvs : ∀ v ∈ vs, v < 32)
    (hw : ∀ s t, FitWrites (writes s t))
    (hrun : ∀ s t, ok s t = true → r s t = .ok (⟨writes s t, [], if l then vs else [], none, .ready⟩, flags s t)) :
    Form.CarriedOut { (Form.regs ct len srcs l writes).flagged flags with ok := ok, checks := cs } fun s t => flagLane s t (r s t) := by
  subst hsrcs
  refine ⟨fun s t hok hrow => flagLane_ok (hrun s t hok) hrow, fun s t _ => (hw s t).shape ?kills⟩
  cases l with
  | true => exact hvs
  | false => exact fun _ hv => nomatch hv

section Float

variable {i : Instr} {d a b : BitVec 5} {l : Bool} {ct : Ctl} {len : Nat}

/-! ## F32 forms, R114, R115 -/

theorem f32Form_ok (op : FOp) {useS useD : Bool} {d a b : Nat} (l : Bool) {s : State} {t : Nat}
    (h : s.readable t (([a] ++ (if useS then [b] else []) ++ if useD then [d] else []).map fun v => (v, Acc.f32)) = true) :
    f32Form op useS useD d a b l s t =
      let r := fElem f32 op (rmOf s t) (s.reg t a).toNat (if useS then (s.reg t b).toNat else 0) (if useD then (s.reg t d).toNat else 0)
      .ok (oneReg d (BitVec.ofNat 32 r.1) 2 0 l ([a] ++ (if useS then [b] else []) ++ if useD then [d] else []), r.2) := by
  rw [List.map_append, List.map_append, State.readable_append, State.readable_append, State.readable_used, State.readable_used] at h
  obtain ⟨⟨ha, hb⟩, hd⟩ := h
  have hzero (use : Bool) (x : BitVec 32) : (if use then x else 0).toNat = if use then x.toNat else 0 := apply_ite BitVec.toNat _ _ _
  rw [← hzero, ← hzero]
  exact (bind_of_ok (State.readSrc_ok ha)).trans
    ((bind_used useS fun hS => State.readSrc_ok (hb hS)).trans (bind_used useD fun hD => State.readSrc_ok (hd hD)))

theorem f32_completes (op : FOp) (useS useD : Bool) (h : ∀ s, exec i s = .next (fExec op useS useD d a b l ct len s)) :
    (Form.f32 op useS useD d a b l ct len).Completes i :=
  Form.CarriedOut.completes h fun _ => Form.flagged_carriedOut (map_accepting _ _)
    (sources_lt (span_lt (n := 1) a.isLt) (span_lt (n := 1) b.isLt) (span_lt (n := 1) d.isLt))
    (fun _ _ => .single d _) fun _ _ hread => f32Form_ok op l hread

/-! ## F64 forms, R114, R115 -/

theorem pairWrites_ofNat (d n : Nat) (fmt : BitVec 4) :
    pairWrites d (BitVec.ofNat 64 n) fmt = [(d, BitVec.ofNat 32 n, fmt, 0), (d + 1, BitVec.ofNat 32 (n / 2 ^ 32), fmt, 0)] := by
  have hlow : (BitVec.ofNat 64 n).extractLsb' 0 32 = BitVec.ofNat 32 n := by
    apply BitVec.eq_of_toNat_eq
    rw [BitVec.extractLsb'_toNat, BitVec.toNat_ofNat, BitVec.toNat_ofNat, Nat.shiftRight_zero]
    omega
  have hhigh : (BitVec.ofNat 64 n).extractLsb' 32 32 = BitVec.ofNat 32 (n / 2 ^ 32) := by
    apply BitVec.eq_of_toNat_eq
    rw [BitVec.extractLsb'_toNat, BitVec.toNat_ofNat, BitVec.toNat_ofNat, Nat.shiftRight_eq_div_pow]
    omega
  rw [pairWrites, hlow, hhigh]

theorem f64Form_ok (op : FOp) {useS useD : Bool} {d a b : Nat} (l : Bool) {s : State} {t : Nat}
    (h : s.readable t (([a, a + 1] ++ (if useS then [b, b + 1] else []) ++ if useD then [d, d + 1] else []).map fun v => (v, Acc.f64)) = true) :
    f64Form op useS useD d a b l s t =
      let r := fElem f64 op (rmOf s t) (pairBits s t a) (if useS then pairBits s t b else 0) (if useD then pairBits s t d else 0)
      .ok (⟨[(d, BitVec.ofNat 32 r.1, 3, 0), (d + 1, BitVec.ofNat 32 (r.1 / 2 ^ 32), 3, 0)], [],
        if l then [a, a + 1] ++ (if useS then [b, b + 1] else []) ++ (if useD then [d, d + 1] else []) else [], none, .ready⟩, r.2) := by
  rw [List.map_append, List.map_append, State.readable_append, State.readable_append, State.readable_used, State.readable_used] at h
  obtain ⟨⟨ha, hb⟩, hd⟩ := h
  have hzero (use : Bool) (v : Nat) : (if use then s.reg t (v + 1) ++ s.reg t v else 0).toNat = if use then pairBits s t v else 0 := by
    rw [apply_ite BitVec.toNat, pairBits_decode]; rfl
  dsimp only
  rw [← hzero, ← hzero, ← pairBits_decode, ← pairWrites_ofNat]
  exact (bind_of_ok (State.readPair_ok ha)).trans
    ((bind_used useS fun hS => State.readPair_ok (hb hS)).trans (bind_used useD fun hD => State.readPair_ok (hd hD)))

theorem f64_completes (op : FOp) (useS useD : Bool) (h : ∀ s, exec i s = .next (dExec op useS useD d a b l ct s))
    (heven : wellFormed i = true → WellFormed.even d = true ∧ WellFormed.even a = true ∧ WellFormed.even b = true) :
    (Form.f64 op useS useD d a b l ct).Completes i := by
  refine Form.CarriedOut.completes h fun hwf => ?_
  obtain ⟨hd, ha, hb⟩ := heven hwf
  exact Form.flagged_carriedOut (map_accepting _ _)
    (sources_lt (span_lt (even_fits ha)) (span_lt (even_fits hb)) (span_lt (even_fits hd)))
    (fun _ _ => .pair hd _ _) fun _ _ hread => f64Form_ok op l hread

/-! ## Packed forms, R96, R114, R115 -/

theorem pack_halves (x y : Nat) : Fmt.pack 16 [x, y] = BitVec.ofNat 32 (x % 2 ^ 16 + y % 2 ^ 16 * 2 ^ 16) := by
  simp only [Fmt.pack, List.foldr_cons, List.foldr_nil, Nat.zero_mul, Nat.zero_add, Nat.add_comm]

theorem half_zero (i : Nat) : half 0 i = 0 := by rw [half, BitVec.ofNat_eq_ofNat, BitVec.toNat_zero, Nat.zero_div, Nat.zero_mod]

/-- The format that is fixed after a source whose format is RAW or that of the form. -/
def fmtAfter (s : State) (t : Nat) (p : BitVec 4) (sofar : Option (BitVec 4)) (v : Nat) : Option (BitVec 4) :=
  if s.fmtOf t v = 0 then sofar else some p

theorem fmtAfter_agrees {s : State} {t v : Nat} {p : BitVec 4} {sofar : Option (BitVec 4)} (h : sofar.getD p = p) :
    (fmtAfter s t p sofar v).getD p = p := by
  unfold fmtAfter
  split
  · exact h
  · rfl

/-- A packed source that agrees with the format of the form. -/
theorem readPacked_ok {s : State} {t v : Nat} {p : BitVec 4} {sofar : Option (BitVec 4)} (hread : s.readable t [(v, Acc.packed)] = true)
    (hfmt : (s.fmtOf t v == 0 || s.fmtOf t v == p) = true) (hsofar : sofar.getD p = p) :
    readPacked s t v sofar = .ok (s.reg t v, fmtAfter s t p sofar v) := by
  refine (Checks.readPacked s t v fun hne => ?agree).passes ?pass
  case agree =>
    obtain rfl : s.fmtOf t v = p := (by simpa using hfmt : _ ∨ _).resolve_left hne
    exact hsofar
  case pass =>
    rw [firstFailure_append, firstFailure_sourceChecks hread, firstFailure_cons, if_neg]
    · rfl
    · rw [bne, bne, ← Bool.not_or, hfmt]
      exact Bool.false_ne_true

/-- After the sources a format is fixed where one of them is not RAW. -/
theorem foldl_fmtAfter (s : State) (t : Nat) (p : BitVec 4) (srcs : List Nat) (sofar : Option (BitVec 4)) :
    srcs.foldl (fmtAfter s t p) sofar = if ∀ v ∈ srcs, s.fmtOf t v = 0 then sofar else some p := by
  induction srcs generalizing sofar with
  | nil => exact (if_pos fun _ hv => nomatch hv).symm
  | cons v vs ih =>
    rw [List.foldl_cons, ih]
    simp only [List.forall_mem_cons, fmtAfter]
    by_cases hv : s.fmtOf t v = 0
    · simp only [hv, if_true, true_and]
    · simp only [hv, if_false, false_and, ite_self]

theorem packedFmt_raw {s : State} {t : Nat} {srcs : List Nat} (h : ∀ v ∈ srcs, s.fmtOf t v = 0) : packedFmt s t srcs = 4 := by
  induction srcs with
  | nil => rfl
  | cons v vs ih =>
    obtain ⟨hv, hvs⟩ := List.forall_mem_cons.mp h
    rw [packedFmt_cons, if_pos hv, ih hvs]

/-- After its sources the format of a packed form is fixed, or they are all RAW and it is F16x2, R96. -/
theorem packedFmt_fixed (s : State) (t : Nat) (srcs : List Nat) :
    (srcs.foldl (fmtAfter s t (packedFmt s t srcs)) none).getD 4 = packedFmt s t srcs := by
  rw [foldl_fmtAfter]
  split
  next hraw => exact (packedFmt_raw hraw).symm
  next => rfl

theorem packedForm_ok (op : FOp) {useD : Bool} {d a b : Nat} (l : Bool) {s : State} {t : Nat} {srcs : List Nat}
    (hsrcs : srcs = [a, b] ++ if useD then [d] else []) (h : s.readable t (srcs.map fun v => (v, Acc.packed)) = true)
    (hfmt : (srcs.all fun v => s.fmtOf t v == 0 || s.fmtOf t v == packedFmt s t srcs) = true) :
    packedForm op useD d a b l s t =
      let r (i : Nat) := fElem (if packedFmt s t srcs = 5 then b16 else f16) op (rmOf s t) (half (s.reg t a) i) (half (s.reg t b) i)
        (if useD then half (s.reg t d) i else 0)
      .ok (oneReg d (BitVec.ofNat 32 ((r 0).1 % 2 ^ 16 + (r 1).1 % 2 ^ 16 * 2 ^ 16)) (packedFmt s t srcs) 0 l srcs, (r 0).2 ||| (r 1).2) := by
  have hfixed := packedFmt_fixed s t srcs
  generalize packedFmt s t srcs = p at *
  subst hsrcs
  rw [List.map_append, State.readable_append, State.readable_used, List.map_cons, State.readable_cons] at h
  rw [List.all_append, Bool.and_eq_true, List.all_cons, Bool.and_eq_true] at hfmt
  obtain ⟨⟨ha, hb⟩, hd⟩ := h
  obtain ⟨⟨hfa, hfb⟩, hfd⟩ := hfmt
  have hagree := fmtAfter_agrees (s := s) (t := t) (v := a) (p := p) (sofar := none) rfl
  refine (bind_of_ok (readPacked_ok ha hfa rfl)).trans ?_
  refine (bind_of_ok (readPacked_ok hb (by simpa using hfb) hagree)).trans ?_
  refine (bind_used useD fun hD => readPacked_ok (hd hD) (by simpa [hD] using hfd) (fmtAfter_agrees hagree)).trans ?_
  cases useD with
  | true =>
    have hfixed : (fmtAfter s t p (fmtAfter s t p (fmtAfter s t p none a) b) d).getD 4 = p := hfixed
    simp only [if_true, hfixed, pack_halves]
  | false =>
    have hfixed : (fmtAfter s t p (fmtAfter s t p none a) b).getD 4 = p := hfixed
    simp only [Bool.false_eq_true, if_false, hfixed, half_zero, pack_halves]

theorem packed_completes (op : FOp) (useD : Bool) (h : ∀ s, exec i s = .next (hExec op useD d a b l ct s)) :
    (Form.packed op useD d a b l ct).Completes i := by
  have hlt : ∀ v ∈ [a.toNat, b.toNat] ++ (if useD then [d.toNat] else []), v < 32 :=
    sources_lt (useS := true) (span_lt (n := 1) a.isLt) (span_lt (n := 1) b.isLt) (span_lt (n := 1) d.isLt)
  refine Form.CarriedOut.completes h fun _ => Form.flagged_carriedOut (map_accepting _ _) hlt (fun _ _ => .single d _) fun s t hok => ?_
  obtain ⟨hread, hfmt⟩ := Bool.and_eq_true_iff.mp hok
  exact packedForm_ok op l rfl hread hfmt

end Float

/-- The fields of a well-formed instruction hold values that the opcode map assigns. -/
theorem fields_of_wellFormed {i : Instr} (h : wellFormed i = true) : WellFormed.fields i = true := (Bool.and_eq_true_iff.mp h).1

theorem pairs_even {g : Bool} {d a b : BitVec 5} (h : (g && WellFormed.even d && WellFormed.even a && WellFormed.even b) = true) :
    WellFormed.even d = true ∧ WellFormed.even a = true ∧ WellFormed.even b = true := by
  simp only [Bool.and_eq_true] at h
  obtain ⟨⟨⟨-, hd⟩, ha⟩, hb⟩ := h
  exact ⟨hd, ha, hb⟩

theorem floatForm_completes {i : Instr} {f : Form} (h : floatForm i = some f) : f.Completes i := by
  cases i with
  | fadd | fsub | fmul | ffma | fmin | fmax | fdiv | fsqrt | fadd16 | fsub16 | fmul16 | fmin16 | fmax16 =>
    cases h; exact f32_completes _ _ _ fun _ => rfl
  | dadd | dsub | dmul | dfma | dmin | dmax | ddiv =>
    cases h; exact f64_completes _ _ _ (fun _ => rfl) fun hwf => pairs_even (fields_of_wellFormed hwf)
  | dsqrt =>
    cases h; exact f64_completes _ _ _ (fun _ => rfl) fun hwf => pairs_even (Bool.and_eq_true_iff.mpr ⟨fields_of_wellFormed hwf, rfl⟩)
  | hadd | hsub | hmul | hfma | hmin | hmax => cases h; exact packed_completes _ _ fun _ => rfl
  | _ => cases h

/-! ## Sign forms, R55, R116 -/

section Sign

variable {i : Instr} {g : Bool → Bool} {d a : BitVec 5} {l : Bool} {ct : Ctl} {s : State} {t : Nat}

/-- What the checks of a sign form say where its source is F64. -/
theorem sign_wide (h : (Form.sign g d a l ct).ok s t = true) (h3 : s.fmtOf t a.toNat = 3) :
    WellFormed.even d = true ∧ WellFormed.even a = true ∧ s.readable t [(a.toNat + 1, Acc.f64)] = true := by
  obtain ⟨-, hwide⟩ := Bool.and_eq_true_iff.mp h
  simp only [h3, beq_self_eq_true, Bool.not_true, Bool.false_or, Bool.and_eq_true] at hwide
  obtain ⟨⟨hd, ha⟩, hhigh⟩ := hwide
  exact ⟨hd, ha, hhigh⟩

theorem signForm_ok (h : (Form.sign g d a l ct).ok s t = true) :
    signForm g d.toNat a.toNat l s t = .ok (s.finishLane t
      ⟨(Form.sign g d a l ct).writes s t, [], (Form.sign g d a l ct).kills s t, none, .ready⟩) := by
  refine (bind_of_ok (State.readSrc_ok (Bool.and_eq_true_iff.mp h).1)).trans ?_
  dsimp only [Form.sign, Form.regs]
  by_cases h3 : s.fmtOf t a.toNat = 3
  · obtain ⟨hd, ha, hhigh⟩ := sign_wide h h3
    simp only [h3, if_true, beq_self_eq_true]
    refine (bind_of_ok (widthCheck_ok ?even)).trans ((bind_of_ok (State.readSrc_ok hhigh)).trans ?done)
    case even => simpa using And.intro (beq_iff_eq.mp hd) (beq_iff_eq.mp ha)
    case done => cases l <;> rfl
  · simp only [h3, if_false, beq_eq_false_iff_ne.mpr h3]
    split <;> cases l <;> rfl

theorem sign_completes (h : ∀ s, exec i s = .next (s.issue ct 4 (State.pureLane fun s t => State.lane (signForm g d.toNat a.toNat l s t)))) :
    (Form.sign g d a l ct).Completes i := by
  refine Form.CarriedOut.completes h fun _ => ⟨fun s t hok hrow => ?run, fun s t hok => FitWrites.shape ?writes ?kills⟩
  case run =>
    rw [State.pureLane, signForm_ok hok]
    exact Prod.ext rfl (State.finishLane_ok hrow)
  case writes =>
    dsimp only [Form.sign, Form.regs]
    by_cases h3 : s.fmtOf t a.toNat = 3
    · rw [if_pos h3]
      exact .pair (sign_wide hok h3).1 _ _
    · rw [if_neg h3]
      split <;> exact .single d _
  case kills =>
    dsimp only [Form.sign]
    cases l with
    | false => exact fun _ hv => nomatch hv
    | true =>
      by_cases h3 : s.fmtOf t a.toNat = 3
      · rw [if_pos (beq_iff_eq.mpr h3)]
        exact span_lt (even_fits (sign_wide hok h3).2.1)
      · rw [if_neg (mt beq_iff_eq.mp h3)]
        exact span_lt (n := 1) a.isLt

end Sign

/-! ## Rounding and L6 forms, R118, R121, R122 -/

theorem frnd_completes (d a m : BitVec 5) (l : Bool) (ct : Ctl) {f : Form} (h : convertForm (.frnd d a m l ct) = some f) :
    f.Completes (.frnd d a m l ct) := by
  cases h
  refine Form.CarriedOut.completes (fun _ => rfl) fun _ => Form.flagged_carriedOut rfl (span_lt (n := 1) a.isLt) (fun _ _ => .single d _)
    fun s t hread => (bind_of_ok (State.readSrc_ok hread)).trans ?_
  have hmode : m = 4 ↔ m.toNat = 4 := BitVec.toNat_inj.symm
  simp only [hmode]
  rfl

theorem lmul_completes (d a x : BitVec 5) (l : Bool) (ct : Ctl) {f : Form} (h : convertForm (.lmul d a x l ct) = some f) :
    f.Completes (.lmul d a x l ct) := by
  cases h
  refine Form.CarriedOut.completes (fun _ => rfl) fun _ => Form.flagged_carriedOut rfl (by simpa using ⟨a.isLt, x.isLt⟩)
    (fun _ _ => .single d _) fun s t hok => ?_
  simp only [Bool.and_eq_true, decide_eq_true_eq] at hok
  obtain ⟨⟨hread, hlow⟩, hhigh⟩ := hok
  obtain ⟨ha, hx⟩ := State.readable_cons.mp hread
  refine (bind_of_ok (State.readSrc_ok ha)).trans ((bind_of_ok (State.readSrc_ok hx)).trans ((bind_of_ok (if_neg ?_)).trans ?_))
  · simp only [Bool.or_eq_true, decide_eq_true_eq]
    omega
  · rfl

theorem ldot_completes (d a x : BitVec 5) (l : Bool) (ct : Ctl) {f : Form} (h : convertForm (.ldot d a x l ct) = some f) :
    f.Completes (.ldot d a x l ct) := by
  cases h
  refine Form.CarriedOut.completes (fun _ => rfl) fun _ => Form.flagged_carriedOut rfl (by simpa using ⟨a.isLt, x.isLt, d.isLt⟩)
    (fun _ _ => .single d _) fun s t hread => ?_
  obtain ⟨ha, hread⟩ := State.readable_cons.mp hread
  obtain ⟨hx, hd⟩ := State.readable_cons.mp hread
  exact (bind_of_ok (State.readSrc_ok ha)).trans ((bind_of_ok (State.readSrc_ok hx)).trans (bind_of_ok (State.readSrc_ok hd)))

/-! ## Conversions, R44, R119 -/

/-- How many registers an `fcvt` selector writes and how many it reads, R44. -/
def cvtCounts (sel : Nat) : Nat × Nat :=
  match sel with
  | 0 | 1 | 2 | 3 | 8 | 9 | 10 | 11 => (1, 1)
  | 4 | 7 | 12 | 13 => (1, 2)
  | 5 | 6 => (2, 1)
  | 14 | 15 | 16 | 17 | 22 => (1, 4)
  | 20 => (1, 5)
  | 21 => (5, 1)
  | _ => (4, 1)

theorem exists_of_bind_ok {α β : Type} {r : Rd α} {f : α → β} {y : β} (h : (r >>= fun v => .ok (f v)) = .ok y) : ∃ v, f v = y := by
  cases r with
  | error e => cases h
  | ok v => cases h; exact ⟨v, rfl⟩

/-- An `fcvt` that completes writes the registers that follow its first destination, and reads those that follow its first source. -/
theorem cvtForm_regs {sel d a : Nat} {s : State} {t : Nat} {y : List (Nat × BitVec 32 × BitVec 4 × BitVec 7) × List Nat × BitVec 32}
    (h : cvtForm sel d a s t = .ok y) : y.1.map (·.1) = span d (cvtCounts sel).1 ∧ y.2.1 = span a (cvtCounts sel).2 :=
  match sel, h with
  | 0, h | 1, h | 2, h | 3, h | 4, h | 5, h | 6, h | 7, h | 8, h | 9, h | 10, h | 11, h | 12, h | 13, h | 14, h | 15, h | 16, h | 17, h
  | 18, h | 19, h | 20, h | 21, h | 22, h | _ + 23, h => by
    obtain ⟨v, rfl⟩ := exists_of_bind_ok h
    exact ⟨rfl, rfl⟩

theorem cvtCounts_fit {x d a : BitVec 5} (h : WellFormed.fcvtGroups x d a = true) :
    d.toNat + (cvtCounts x.toNat).1 ≤ 32 ∧ a.toNat + (cvtCounts x.toNat).2 ≤ 32 := by
  have hd : d.toNat + 1 ≤ 32 := d.isLt
  have ha : a.toNat + 1 ≤ 32 := a.isLt
  unfold WellFormed.fcvtGroups at h
  generalize x.toNat = sel at *
  match sel, h with
  | 0, _ | 1, _ | 2, _ | 3, _ | 8, _ | 9, _ | 10, _ | 11, _ => exact ⟨hd, ha⟩
  | 4, h | 7, h | 12, h | 13, h => exact ⟨hd, even_fits h⟩
  | 5, h | 6, h => exact ⟨even_fits h, ha⟩
  | 14, h | 15, h | 16, h | 17, h | 22, h | 20, h => exact ⟨hd, of_decide_eq_true h⟩
  | 18, h | 19, h | 23, h | 21, h => exact ⟨of_decide_eq_true h, ha⟩
  | _ + 24, h => exact absurd h Bool.false_ne_true

theorem exists_of_isOk {α : Type} {r : Rd α} (h : r.isOk = true) : ∃ v, r = .ok v := by
  cases r with
  | error e => cases h
  | ok v => exact ⟨v, rfl⟩

theorem fcvt_completes (d a x : BitVec 5) (l : Bool) (ct : Ctl) {f : Form} (h : convertForm (.fcvt d a x l ct) = some f) :
    f.Completes (.fcvt d a x l ct) := by
  cases h
  refine Form.CarriedOut.completes (fun _ => rfl) fun hwf => ⟨fun s t hok hrow => ?run, fun s t hok => ?shape⟩
  case run =>
    obtain ⟨y, hr⟩ : ∃ y, cvtForm x.toNat d.toNat a.toNat s t = .ok y := exists_of_isOk hok
    dsimp only at hrow ⊢
    rw [hr] at hrow ⊢
    exact flagLane_ok rfl hrow
  case shape =>
    obtain ⟨y, hr⟩ : ∃ y, cvtForm x.toNat d.toNat a.toNat s t = .ok y := exists_of_isOk hok
    obtain ⟨hwrites, hreads⟩ := cvtForm_regs hr
    obtain ⟨hd, ha⟩ := cvtCounts_fit (Bool.and_eq_true_iff.mp (fields_of_wellFormed hwf)).2
    dsimp only
    rw [hr]
    refine (FitWrites.of_span hwrites hd).shape ?_
    dsimp only
    rw [hreads]
    cases l with
    | true => exact span_lt ha
    | false => exact fun _ hv => nomatch hv

theorem convertForm_completes {i : Instr} {f : Form} (h : convertForm i = some f) : f.Completes i := by
  cases i with
  | fcpys => cases h; exact alu2_completes (fun _ => rfl) fun _ _ => rfl
  | fclass => cases h; exact alu1_completes (fun _ => rfl) fun _ => rfl
  | fneg | fabs => cases h; exact sign_completes fun _ => rfl
  | frnd d a m l ct => exact frnd_completes d a m l ct h
  | fcvt d a x l ct => exact fcvt_completes d a x l ct h
  | lmul d a x l ct => exact lmul_completes d a x l ct h
  | ldot d a x l ct => exact ldot_completes d a x l ct h
  | _ => cases h

/-- Settles O11: each lane reads its sources, writes its operation's result and raises its flags, and the registers that it names are those of
its crew. -/
theorem floatForms : Obligations.FloatForms := by
  unfold Obligations.FloatForms
  rintro i f (h | h)
  · exact floatForm_completes h
  · exact convertForm_completes h

end Sys2Proof.Machine

/-! SUPPORT. The forms of the matrix engine and the accumulator ring are carried out by the lanes of their instructions (R133, R152, R153, R159
to R163). -/

namespace Sys2Proof.Machine

/-! ## Blocks and ring tiles that pass their checks -/

/-- A block that can be read gives its bytes, R153, R163. -/
theorem readBlock_ok {s : State} {t k n : Nat} (h : s.blockFit t k n = true) :
    s.readBlock t k n (· == 1) (fun c => c.r && c.e) = .ok (blockBytes s t k n) := by
  simp only [State.blockFit, Bool.and_eq_true, Bool.not_eq_true'] at h
  obtain ⟨⟨⟨⟨hclean, hcap⟩, hown⟩, hacq⟩, hpoison⟩ := h
  simp only [State.readBlock, State.capPoison_ok hclean, State.capChecks_ok hcap, hown, hacq, hpoison, failIf, bind, Except.bind]
  rfl

/-- An offset below the ring's length names the tile that far from the tail, R159. -/
theorem ringTile_ok {s : State} {t : Nat} {o : BitVec 3} (h : o.toNat < s.ringC (gangOf t)) :
    ringTile s t o.toNat = .ok (s.ringTail (gangOf t) (s.quadOf t) + o.toNat) := by
  refine (Checks.ringTile s t o).passes (firstFailure_eq_none.mpr fun c hc => ?_)
  rw [List.mem_singleton.mp hc]
  exact decide_eq_false (Nat.not_le.mpr h)

/-! ## Requests, R133, R152, R153 -/

/-- A lane of `mms` or `mmp` whose block is sound enters its request. -/
theorem matrixLane_carriedOut (mms : Bool) (c : BitVec 3) (r : BitVec 2) (ct : Ctl) (cs : State → Nat → List Check) :
    ((Form.acting ct (fun s t => s.blockFit t c.toNat 64 && (s.blockBad (gangOf t) mms (blockBytes s t c.toNat 64)).isNone &&
      decide ((s.thread t).tl < 63)) [] fun s t => s.enterRequest t r.toNat (Block.dec (blockBytes s t c.toNat 64))).checking cs).CarriedOut
      (State.matrixLane mms c.toNat r.toNat) := by
  refine (Form.acting_carriedOut (by simp) fun s t hok => ?_).relist _ _
  simp only [Bool.and_eq_true, decide_eq_true_eq, Option.isNone_iff_eq_none] at hok
  obtain ⟨⟨hblock, hfields⟩, hroom⟩ := hok
  simp only [State.matrixLane, readBlock_ok hblock, hfields, State.roomIn_ok hroom, bind, Except.bind]
  rfl

theorem repi_completes (c : BitVec 3) (ct : Ctl) {f : Form} (h : matrixForm (.repi c ct) = some f) : f.Completes (.repi c ct) := by
  cases h
  refine Form.CarriedOut.completes (fun _ => rfl) fun _ => (Form.acting_carriedOut (by simp) fun s t hok => ?_).relist _ _
  simp only [Bool.and_eq_true, decide_eq_true_eq, Option.isNone_iff_eq_none] at hok
  obtain ⟨⟨hblock, hfields⟩, hroom⟩ := hok
  simp only [readBlock_ok hblock, hfields, State.roomIn_ok hroom, bind, Except.bind]
  rfl

/-! ## The ring, R159, R160 -/

theorem rrel_completes (ct : Ctl) {f : Form} (h : matrixForm (.rrel ct) = some f) : f.Completes (.rrel ct) := by
  cases h
  refine Form.CarriedOut.completes (fun _ => rfl) fun _ => Form.acting_carriedOut (by simp) fun s t hroom => ?_
  simp only [State.roomIn_ok (of_decide_eq_true hroom), bind, Except.bind]
  rfl

theorem rclr_completes (ct : Ctl) {f : Form} (h : matrixForm (.rclr ct) = some f) : f.Completes (.rclr ct) := by
  cases h
  refine Form.CarriedOut.completes (fun _ => rfl) fun _ => Form.acting_carriedOut (by simp) fun s t hroom => ?_
  simp only [State.roomIn_ok (of_decide_eq_true hroom), bind, Except.bind]
  rfl

theorem rld_completes (d : BitVec 5) (o : BitVec 3) (v : BitVec 5) (ct : Ctl) {f : Form} (h : matrixForm (.rld d o v ct) = some f) :
    f.Completes (.rld d o v ct) := by
  cases h
  refine Form.CarriedOut.completes (fun _ => rfl) fun _ => (Form.acting_carriedOut (by simp) fun s t hok => ?_).relist _ _
  simp only [Bool.and_eq_true, decide_eq_true_eq] at hok
  obtain ⟨⟨⟨hread, htile⟩, hrows⟩, hroom⟩ := hok
  simp only [State.readSrc_ok hread, ringTile_ok htile, State.rowsFor_ok hrows, State.roomIn_ok hroom, bind, Except.bind]
  rfl

theorem rst_completes (x : BitVec 5) (o : BitVec 3) (v : BitVec 5) (ct : Ctl) {f : Form} (h : matrixForm (.rst x o v ct) = some f) :
    f.Completes (.rst x o v ct) := by
  cases h
  refine Form.CarriedOut.completes (fun _ => rfl) fun _ => (Form.acting_carriedOut (by simp) fun s t hok => ?_).relist _ _
  simp only [Bool.and_eq_true, decide_eq_true_eq] at hok
  obtain ⟨⟨hread, htile⟩, hroom⟩ := hok
  obtain ⟨hdata, hslot⟩ := State.readable_cons.mp hread
  simp only [State.readSrc_ok hdata, State.readSrc_ok hslot, ringTile_ok htile, State.roomIn_ok hroom, bind, Except.bind]
  rfl

/-- Settles O17: each lane passes its checks, and its request enters the stream or its ring access is listed. -/
theorem matrixForms : Obligations.MatrixForms := by
  unfold Obligations.MatrixForms
  intro i f h
  cases i with
  | mms c r ct => cases h; exact Form.CarriedOut.completes (fun _ => rfl) fun _ => matrixLane_carriedOut true c r ct _
  | mmp c r ct => cases h; exact Form.CarriedOut.completes (fun _ => rfl) fun _ => matrixLane_carriedOut false c r ct _
  | repi c ct => exact repi_completes c ct h
  | rrel ct => exact rrel_completes ct h
  | rclr ct => exact rclr_completes ct h
  | rld d o v ct => exact rld_completes d o v ct h
  | rst x o v ct => exact rst_completes x o v ct h
  | _ => cases h

end Sys2Proof.Machine

/-! SUPPORT. The arbiter of the matrix engine and its permits: what a grant, its reservation and a permit do (R132, R134, R135, R384, R417). -/

namespace Sys2Proof.Machine

/-! ## The first of the greatest of a list, R134 -/

section Greatest

variable {α : Type} (key : α → Nat)

theorem foldl_greatest_some (cs : List α) (b : α) :
    ∃ c, cs.foldl (bestStep fun c b => decide (key b < key c)) (some b) = some c ∧ ((c = b ∧ ∀ y ∈ cs, key y ≤ key b) ∨
      ∃ pre post, cs = pre ++ c :: post ∧ key b < key c ∧ (∀ y ∈ pre, key y < key c) ∧ ∀ y ∈ post, key y ≤ key c) := by
  induction cs generalizing b with
  | nil => exact ⟨b, rfl, .inl ⟨rfl, fun _ h => absurd h List.not_mem_nil⟩⟩
  | cons x cs ih =>
    rw [List.foldl_cons, bestStep]
    by_cases hx : key b < key x
    · rw [if_pos (decide_eq_true hx)]
      obtain ⟨c, hc, ⟨rfl, hall⟩ | ⟨pre, post, rfl, hlt, hpre, hpost⟩⟩ := ih x
      · exact ⟨c, hc, .inr ⟨[], cs, rfl, hx, fun _ h => absurd h List.not_mem_nil, hall⟩⟩
      · refine ⟨c, hc, .inr ⟨x :: pre, post, rfl, hx.trans hlt, fun y hy => ?_, hpost⟩⟩
        rcases List.mem_cons.mp hy with rfl | hy
        · exact hlt
        · exact hpre y hy
    · rw [if_neg (by simpa using hx)]
      obtain ⟨c, hc, ⟨rfl, hall⟩ | ⟨pre, post, rfl, hlt, hpre, hpost⟩⟩ := ih b
      · refine ⟨c, hc, .inl ⟨rfl, fun y hy => ?_⟩⟩
        rcases List.mem_cons.mp hy with rfl | hy
        · exact not_lt.mp hx
        · exact hall y hy
      · refine ⟨c, hc, .inr ⟨x :: pre, post, rfl, hlt, fun y hy => ?_, hpost⟩⟩
        rcases List.mem_cons.mp hy with rfl | hy
        · exact (not_lt.mp hx).trans_lt hlt
        · exact hpre y hy

/-- Of the greatest of a list, the first is found. -/
theorem foldl_greatest {cs : List α} (hne : cs ≠ []) : ∃ pre c post, cs = pre ++ c :: post ∧
    cs.foldl (bestStep fun c b => decide (key b < key c)) none = some c ∧ (∀ y ∈ pre, key y < key c) ∧ ∀ y ∈ post, key y ≤ key c := by
  obtain ⟨b, cs, rfl⟩ := List.exists_cons_of_ne_nil hne
  obtain ⟨c, hc, ⟨rfl, hall⟩ | ⟨pre, post, rfl, hlt, hpre, hpost⟩⟩ := foldl_greatest_some key cs b
  · exact ⟨[], c, cs, rfl, hc, fun _ h => absurd h List.not_mem_nil, hall⟩
  · refine ⟨b :: pre, c, post, rfl, hc, fun y hy => ?_, hpost⟩
    rcases List.mem_cons.mp hy with rfl | hy
    · exact hlt
    · exact hpre y hy

end Greatest

/-! ## Grants, R132, R134, R384 -/

/-- A request that takes the shadow reservation when it is granted: a load, or a saved shadow plane, R132, R384. -/
def ReqKind.takesShadow : ReqKind → Bool
  | .load _ => true
  | .restore _ act => !act
  | _ => false

/-- A request whose SWAP ends its crew's reservation: so does a saved active plane, R132, R384. -/
def ReqKind.endsShadow : ReqKind → Bool
  | .pass b _ _ => b.swap
  | .restore _ act => act
  | _ => false

namespace State

/-- What a grant writes into its entry, as grant number `n`. -/
def grantEntry (n : Nat) (r : Req) : Req := { r with granted := some n, readyAt := none, fed := r.kind.isRestore }

/-- The entries of a quad that the arbiter may grant now. -/
def ableOn (s : State) (quad : Nat) : FMap Req := s.reqs.filter fun kr => kr.2.quad == quad && s.entryReady kr.1 kr.2

/-- The arbiter takes the first of the entries of the highest priority, R134. -/
theorem pickEntry_first (s : State) (quad : Nat) (hne : s.ableOn quad ≠ []) : ∃ pre id r post, s.ableOn quad = pre ++ (id, r) :: post ∧
    s.pickEntry quad = some (id, r) ∧ (∀ y ∈ pre, s.reqPrio y.2 < s.reqPrio r) ∧ ∀ y ∈ post, s.reqPrio y.2 ≤ s.reqPrio r := by
  have hfold : s.pickEntry quad = (s.ableOn quad).foldl (bestStep fun c b => decide (s.reqPrio b.2 < s.reqPrio c.2)) none := by
    refine congrArg (fun step => (s.ableOn quad).foldl step none) ?_
    funext best c
    cases best
    · rfl
    · unfold bestStep; simp only [decide_eq_true_eq]
  obtain ⟨pre, ⟨id, r⟩, post, hsplit, hpick, hpre, hpost⟩ := foldl_greatest (fun kr : Nat × Req => s.reqPrio kr.2) hne
  exact ⟨pre, id, r, post, hsplit, hfold.trans hpick, hpre, hpost⟩

/-! What a grant does to the reservations, by its request. -/

section Reserve

variable (s : State) {r : Req}

theorem reserve_only (r : Req) : s.reserve r = { s with resv := (s.reserve r).resv } := by
  have hif (c : Bool) {p q : State} (hp : p = { s with resv := p.resv }) (hq : q = { s with resv := q.resv }) :
      (if c then p else q) = { s with resv := (if c then p else q).resv } := by cases c; exacts [hq, hp]
  unfold reserve
  cases r.kind with
  | load b => exact hif _ rfl rfl
  | restore p act => exact hif act (hif _ rfl rfl) (hif _ rfl rfl)
  | pass b pos epi => exact hif b.swap (hif _ rfl rfl) rfl
  | drain e => rfl
  | release => rfl
  | clear pos none_ => rfl

theorem reserve_takes (h : r.kind.takesShadow = true) : (s.reserve r).resv =
    if (s.crews.find? (crewOf r.thread)).any (fun c => !c.retired) then s.resv.put r.quad (crewOf r.thread) else s.resv := by
  unfold reserve
  cases hk : r.kind with
  | load b => dsimp only; split <;> rfl
  | restore p act =>
    obtain rfl : act = false := by simpa [hk, ReqKind.takesShadow] using h
    dsimp only
    rw [if_neg (by decide)]
    split <;> rfl
  | _ => simp [hk, ReqKind.takesShadow] at h

theorem reserve_ends (h : r.kind.endsShadow = true) : (s.reserve r).resv =
    if s.resv.find? r.quad = some (crewOf r.thread) then s.resv.erase r.quad else s.resv := by
  have hif (p q : State) (hp : p.resv = s.resv.erase r.quad) (hq : q.resv = s.resv) :
      (if s.resv.find? r.quad == some (crewOf r.thread) then p else q).resv =
        if s.resv.find? r.quad = some (crewOf r.thread) then s.resv.erase r.quad else s.resv := by
    simp only [beq_iff_eq]
    split
    · exact hp
    · exact hq
  unfold reserve
  cases hk : r.kind with
  | pass b pos epi =>
    have hb : b.swap = true := by simpa [hk, ReqKind.endsShadow] using h
    dsimp only
    rw [if_pos hb]
    exact hif _ _ rfl rfl
  | restore p act =>
    obtain rfl : act = true := by simpa [hk, ReqKind.endsShadow] using h
    dsimp only
    rw [if_pos rfl]
    exact hif _ _ rfl rfl
  | _ => simp [hk, ReqKind.endsShadow] at h

theorem reserve_neither (ht : r.kind.takesShadow = false) (he : r.kind.endsShadow = false) : (s.reserve r).resv = s.resv := by
  unfold reserve
  cases hk : r.kind with
  | load b => simp [hk, ReqKind.takesShadow] at ht
  | pass b pos epi =>
    have hb : b.swap = false := by simpa [hk, ReqKind.endsShadow] using he
    dsimp only
    rw [if_neg (by simp [hb])]
  | restore p act => cases act <;> simp [hk, ReqKind.takesShadow, ReqKind.endsShadow] at ht he
  | _ => rfl

/-- The reservations of other quads stay. -/
theorem reserve_otherQuad {p : Nat} (h : p ≠ r.quad) : (s.reserve r).resv.find? p = s.resv.find? p := by
  by_cases ht : r.kind.takesShadow = true
  · rw [reserve_takes s ht]
    split
    · rw [FMap.find?_put, if_neg h]
    · rfl
  · by_cases he : r.kind.endsShadow = true
    · rw [reserve_ends s he]
      split
      · rw [FMap.find?_erase, if_neg h]
      · rfl
    · rw [reserve_neither s (by simpa using ht) (by simpa using he)]

end Reserve

/-- The state after the grant of an entry. -/
def granted (s : State) (id : Nat) (r : Req) : State :=
  { s.updReq id (grantEntry s.nextId) with nextId := s.nextId + 1 }.reserve r

theorem granted_only (s : State) (id : Nat) (r : Req) :
    s.granted id r = { s with reqs := (s.granted id r).reqs, nextId := s.nextId + 1, resv := (s.granted id r).resv } := by
  unfold granted
  rw [reserve_only]
  rfl

theorem granted_reqs (s : State) (id : Nat) (r : Req) : (s.granted id r).reqs = s.reqs.adjust id (grantEntry s.nextId) := by
  unfold granted
  rw [reserve_only]
  rfl

end State

theorem exec_matrixGrant {s : State} {q id : Nat} {r : Req} (h : s.pickEntry q = some (id, r)) :
    exec (.matrixGrant q) s = .next (s.granted id r) := by
  have hexec : exec (.matrixGrant q) s = execMatrixGrant q s := rfl
  rw [hexec, execMatrixGrant, h]
  rfl

/-! ## Permits, R135, R417 -/

namespace State

/-- The granted passes of a quad that wait for their permit. -/
def awaitingPermit (s : State) (quad : Nat) : FMap Req := s.reqs.filter fun kr =>
  kr.2.quad == quad && kr.2.granted.isSome && !kr.2.permit && (match kr.2.kind with | .pass _ _ _ => true | _ => false)

/-- The oldest granted pass that waits takes the permit, and the wait is counted. -/
theorem exec_currentPermit_engine (s : State) (q n : Nat) (hne : s.awaitingPermit q ≠ []) :
    ∃ x ∈ s.awaitingPermit q, (∀ y ∈ s.awaitingPermit q, x.2.granted.getD 0 ≤ y.2.granted.getD 0) ∧
      exec (.currentPermit (.engine q) n) s = .next { s with
        reqs := s.reqs.adjust x.1 fun r => { r with permit := true }
        regs := { s.regs with pmtWait := s.regs.pmtWait.set 0 q (s.regs.pmtWait.get 0 q + BitVec.ofNat 64 n) } } := by
  let step (best : Option (Nat × Req)) (kr : Nat × Req) : Option (Nat × Req) :=
    match best with
    | none => some kr
    | some b => if kr.2.granted.getD 0 < b.2.granted.getD 0 then some kr else best
  have hstep : step = bestStep fun c b => decide (c.2.granted.getD 0 < b.2.granted.getD 0) := by
    funext best c
    cases best
    · rfl
    · unfold bestStep; simp only [decide_eq_true_eq]; rfl
  obtain ⟨x, hx, hmem, hall⟩ := foldl_bestStep (better := fun c b : Nat × Req => decide (c.2.granted.getD 0 < b.2.granted.getD 0))
    (r := fun d c => c.2.granted.getD 0 ≤ d.2.granted.getD 0) (fun _ => le_refl _) (fun h h' => h'.trans h)
    (fun h => (of_decide_eq_true h).le) (fun h => not_lt.mp (of_decide_eq_false h)) hne
  rw [← hstep] at hx
  refine ⟨x, hmem, hall, ?_⟩
  have hexec : exec (.currentPermit (.engine q) n) s = .next (match (s.awaitingPermit q).foldl step none with
      | none => s
      | some kr => { s.updReq kr.1 fun r => { r with permit := true } with
          regs := { s.regs with pmtWait := s.regs.pmtWait.set 0 q (s.regs.pmtWait.get 0 q + BitVec.ofNat 64 n) } }) := rfl
  rw [hexec, hx]
  rfl

end State

theorem exec_matrixEntryAgeing {s : State} {id a : Nat} {r : Req} (hr : s.reqs.find? id = some r) (ha : r.readyAt = some a)
    (h : 8192 ≤ s.clock - a) : ∃ s', exec (.matrixEntryAgeing id) s = .next s' ∧ s' = { s with reqs := s'.reqs } ∧
      ∀ k, s'.reqs.find? k = if k = id then some { r with aged := true } else s.reqs.find? k := by
  refine ⟨_, rfl, rfl, fun k => ?_⟩
  rw [State.updReq, FMap.find?_adjust, hr]
  simp only [ha, h, if_true, Option.map_some]

theorem exec_currentPermit_ferry (s : State) (die n : Nat) : exec (.currentPermit (.ferry die) n) s = .next { s with
    regs := { s.regs with pmtDie := s.regs.pmtDie.set 0 die (s.regs.pmtDie.get 0 die + BitVec.ofNat 64 n) } } := rfl

/-- Settles O42: the arbiter's choice and the permit's are the first of a list in their order; the rest is what each event writes. -/
theorem matrixGrants : Obligations.MatrixGrants := by
  unfold Obligations.MatrixGrants
  refine ⟨?_, ?_, fun s id a r hr ha h => exec_matrixEntryAgeing hr ha h, ?_, ?_⟩
  · intro s q able hne
    obtain ⟨pre, id, r, post, hsplit, hpick, hpre, hpost⟩ := s.pickEntry_first q hne
    have hmem : (id, r) ∈ s.ableOn q := by rw [hsplit]; simp
    obtain rfl : r.quad = q := beq_iff_eq.mp (Bool.and_eq_true_iff.mp (List.mem_filter.mp hmem).2).1
    refine ⟨pre, id, r, post, hsplit, hpre, hpost, ?_⟩
    intro crew takes swaps
    have htakes : takes = r.kind.takesShadow := by unfold takes; cases r.kind <;> rfl
    have hswaps : swaps = r.kind.endsShadow := by unfold swaps; cases r.kind <;> rfl
    rw [htakes, hswaps]
    let s1 : State := { s.updReq id (State.grantEntry s.nextId) with nextId := s.nextId + 1 }
    refine ⟨s.granted id r, exec_matrixGrant hpick, s.granted_only id r, fun r0 hr0 k => ?_, fun ht hc => ?_, fun ht hc => ?_, fun he hc => ?_,
      fun ht he => ?_, fun p hp => s1.reserve_otherQuad hp⟩
    · rw [s.granted_reqs, FMap.find?_adjust, hr0]
      rfl
    · exact (congrArg (FMap.find? · r.quad) ((s1.reserve_takes ht).trans (if_pos hc))).trans (FMap.find?_put_self _ _ _)
    · exact (s1.reserve_takes ht).trans (if_neg (ne_true_of_eq_false hc))
    · refine (congrArg (FMap.find? · r.quad) ((s1.reserve_ends he).trans (if_pos hc))).trans ?_
      rw [FMap.find?_erase, if_pos rfl]
    · cases hs : r.kind.endsShadow with
      | false => exact s1.reserve_neither ht hs
      | true => exact (s1.reserve_ends hs).trans (if_neg (he.resolve_left (by simp [hs])))
  · intro s r a ha h
    unfold State.reqPrio
    rw [if_pos]
    simp [ha, h]
  · intro s q n waits hne
    obtain ⟨x, hmem, hall, hexec⟩ := s.exec_currentPermit_engine q n hne
    obtain ⟨r, hr⟩ := Option.isSome_iff_exists.mp (isSome_find?_of_mem (List.mem_of_mem_filter hmem))
    refine ⟨x, hmem, hall, _, hexec, rfl, ?_, ?_⟩
    · rw [FMap.find?_adjust, if_pos rfl, hr]
      rfl
    · rw [FMap.get_set, if_pos rfl]
  · intro s die n
    refine ⟨_, exec_currentPermit_ferry s die n, rfl, fun d => ?_⟩
    rw [FMap.get_set]
    by_cases hd : d = die
    · rw [if_pos hd, if_pos hd, hd]
    · rw [if_neg hd, if_neg hd]
      exact (BitVec.add_zero _).symm

end Sys2Proof.Machine

/-! SUPPORT. The matrix operand fault: what a kill leaves of the threads, the numbers and the queues, a gang queued again, R150, R151. -/

namespace Sys2Proof.Machine

/-- Whether the task record asks for relaunches. -/
abbrev Task.asksRelaunch (k : Task) : Bool := k.record.flags.getLsbD 0

namespace State

/-- A charge changes nothing of a queue but its deficit. -/
theorem charge_ahead (s : State) (gang n q : Nat) :
    ((s.charge gang n).queues.find? q).map (·.ahead) = (s.queues.find? q).map (·.ahead) := by
  unfold charge
  split
  · rfl
  · split
    · rfl
    · rw [updQueue, FMap.find?_adjust]
      split
      · subst q; rw [Option.map_map]; rfl
      · rfl

theorem charge_nextId (s : State) (gang n : Nat) : (s.charge gang n).nextId = s.nextId := by
  rcases charge_cases s gang n with h | ⟨q, f, h⟩ <;> rw [h]
  exact updQueue_nextId s q f

theorem killGang_nextId (s : State) (gang : Nat) : (s.killGang gang).nextId = s.nextId := by
  obtain ⟨s0, batches, fetches, f, h0, h⟩ := killGang_cases s gang
  have h1 : s0.nextId = s.nextId := by
    rcases h0 with rfl | ⟨n, rfl⟩
    · rfl
    · exact charge_nextId s gang n
  rw [h, updGang_nextId]
  exact h1

theorem killGang_ahead (s : State) (gang q : Nat) :
    ((s.killGang gang).queues.find? q).map (·.ahead) = (s.queues.find? q).map (·.ahead) := by
  obtain ⟨s0, batches, fetches, f, h0, h⟩ := killGang_cases s gang
  have h1 : (s0.queues.find? q).map (·.ahead) = (s.queues.find? q).map (·.ahead) := by
    rcases h0 with rfl | ⟨n, rfl⟩
    · rfl
    · exact charge_ahead s gang n q
  rw [h, updGang_queues]
  exact h1

/-- No thread of a killed gang is listed any more. -/
theorem killGang_thread (s : State) (gang : Nat) {t : Nat} (ht : gangOf t = gang) : ((s.killGang gang).thread t).stat = .exited := by
  obtain ⟨s0, batches, fetches, f, -, h⟩ := killGang_cases s gang
  have hthreads : (s.killGang gang).threads = s0.threads.splice (gang * 16384) ((gang + 1) * 16384) [] := by rw [h]; rfl
  have hin : gang * 16384 ≤ t ∧ t < (gang + 1) * 16384 := by
    unfold gangOf at ht
    omega
  rw [thread, hthreads, FMap.get_spliceNil, if_pos hin]

/-- A killed gang queued again: under the next number it is pending, ahead in its task's queue, and the task has one relaunch more. -/
theorem relaunch_spec {s : State} {gang : Nat} {g : Gang} {k : Task} (hg : s.gangs.find? gang = some g) (hk : s.tasks.find? g.task = some k) :
    (s.relaunch gang).mem = s.mem ∧ (s.relaunch gang).poolMem = s.poolMem ∧ (s.relaunch gang).threads = s.threads ∧
    (gang ≠ s.nextId → g.stat = .retired → ((s.relaunch gang).gangs.find? gang).map (·.stat) = some .retired) ∧
    ((s.relaunch gang).tasks.find? g.task).map (·.relaunches) = some (k.relaunches + 1) ∧
    ((s.relaunch gang).gangs.find? s.nextId).map (fun x => (x.task, x.gx, x.gy, x.gz, x.stat)) =
      some (g.task, g.gx, g.gy, g.gz, .pending) ∧
    ((s.relaunch gang).queues.find? k.queue).map (·.ahead) = (s.queues.find? k.queue).map (·.ahead ++ [s.nextId]) := by
  have hqueue (f : Task → Task) (hf : (f k).queue = k.queue) :
      (((s.tasks.adjust g.task f).find? g.task).map (·.queue)).getD 0 = k.queue := by
    rw [FMap.find?_adjust, if_pos rfl, hk]
    exact hf
  unfold relaunch
  rw [hg]
  refine ⟨rfl, rfl, rfl, fun hn hr => ?_, ?_, ?_, ?_⟩
  · simp [updTask, updQueue, FMap.find?_mapVals, FMap.find?_put, hn, hg, hr]
  · simp [updTask, updQueue, FMap.find?_adjust, hk]
  · simp [updTask, updQueue, FMap.find?_mapVals]
  · simp only [updTask, updQueue]
    rw [hqueue _ rfl, FMap.find?_adjust, if_pos rfl, Option.map_map]
    rfl

/-- An operand fault kills the gang; its task is relaunched, or doomed with one of the two codes of R151. -/
theorem operandFault_eq {s : State} {gang : Nat} {g : Gang} {k : Task} (hg : s.gangs.find? gang = some g) (hk : s.tasks.find? g.task = some k) :
    s.operandFault gang = if k.asksRelaunch then
        if k.relaunches < k.record.rlimit then (s.killGang gang).relaunch gang
        else (s.killGang gang).updTask g.task fun k => { k with doomed := k.doomed.or (some .relaunchLimit) }
      else (s.killGang gang).updTask g.task fun k => { k with doomed := k.doomed.or (some .matrixOperand) } := by
  unfold operandFault
  rw [hg]
  dsimp only
  rw [hk]

/-- A task that nothing has doomed takes the code. -/
theorem doom_doomed {s : State} {id : Nat} {k : Task} (code : EndCode) (hk : s.tasks.find? id = some k) (hdoom : k.doomed = none) :
    ((s.updTask id fun k => { k with doomed := k.doomed.or (some code) }).tasks.find? id).map (·.doomed) = some (some code) := by
  rw [updTask, FMap.find?_adjust, if_pos rfl, hk]
  exact congrArg (fun d => some (d.or (some code))) hdoom

end State

theorem exec_matrixOperandFault {s : State} {id : Nat} {r : Req} (hr : s.reqs.find? id = some r) (hfails : s.operandFails r = true) :
    exec (.matrixOperandFault id) s = .next (s.operandFault r.gang) := by
  have hexec : exec (.matrixOperandFault id) s = execMatrixOperandFault id s := rfl
  rw [hexec, execMatrixOperandFault, hr]
  simp only [hfails, if_true]

/-- Settles O44: the gang is killed, and the three ways on of R151 start from the killed state. -/
theorem operandFaultKills : Obligations.OperandFaultKills := by
  unfold Obligations.OperandFaultKills
  intro s id r g k q hr hfails hg hk hq hdoom
  have hkeeps := s.killGang_dropsOps r.gang
  have hgkill : (s.killGang r.gang).gangs.find? r.gang = some { g with stat := .retired, preempt := none, wake := none } := by
    rw [State.killGang_gangs, if_pos rfl, hg]
    rfl
  have hkkill : (s.killGang r.gang).tasks.find? g.task = some k := by rw [State.killGang_tasks, hk]
  have hqkill := s.killGang_ahead r.gang k.queue
  have hgone : ∀ t, gangOf t = r.gang → ((s.killGang r.gang).thread t).stat = .exited := fun t ht => s.killGang_thread r.gang ht
  have hretired : ((s.killGang r.gang).gangs.find? r.gang).map (·.stat) = some .retired := by rw [hgkill]; rfl
  refine ⟨_, exec_matrixOperandFault hr hfails, ?_⟩
  rw [State.operandFault_eq hg hk]
  cases hasks : k.asksRelaunch
  · rw [if_neg Bool.false_ne_true]
    have hno : ¬k.record.flags.getLsbD 0 = true := ne_true_of_eq_false hasks
    refine ⟨hkeeps.mem, hkeeps.pool, fun _ => hretired, hgone, fun _ => State.doom_doomed _ hkkill hdoom,
      fun ha => absurd ha hno, fun ha => absurd ha hno⟩
  · rw [if_pos rfl]
    have hno : ¬k.record.flags.getLsbD 0 = false := ne_false_of_eq_true hasks
    by_cases hleft : k.relaunches < k.record.rlimit
    · rw [if_pos hleft]
      obtain ⟨hmem, hpool, hthreads, hold, hcount, hfresh, hahead⟩ := State.relaunch_spec hgkill hkkill
      rw [State.killGang_nextId] at hold hfresh hahead
      refine ⟨hmem.trans hkeeps.mem, hpool.trans hkeeps.pool, fun hn => hold hn rfl, fun t ht => ?_, fun ha => absurd ha hno,
        fun _ hle => absurd hleft hle.not_gt, fun _ _ => ⟨hcount, hfresh, ?_⟩⟩
      · have := hgone t ht
        rwa [State.thread, ← hthreads] at this
      · rw [hahead, show (fun x : Queue => x.ahead ++ [s.nextId]) = (· ++ [s.nextId]) ∘ (·.ahead) from rfl, ← Option.map_map, hqkill, hq]
        rfl
    · rw [if_neg hleft]
      exact ⟨hkeeps.mem, hkeeps.pool, fun _ => hretired, hgone, fun ha => absurd ha hno, fun _ _ => State.doom_doomed _ hkkill hdoom,
        fun _ hlt => absurd hlt hleft⟩

end Sys2Proof.Machine

/-! SUPPORT. A pass whose request lists a spoilt slot outside its tile: the statement on passes leaves the listing's range open, R138, R148. -/

namespace Sys2Proof.Machine

namespace State

/-- A slot that is written reads as the value written. -/
theorem slot_setSlot_self (s : State) (gang quad count n : Nat) (v : BitVec 32) :
    (s.setSlot gang quad count n v).slot gang quad count n = v := by
  have hring : (s.setSlot gang quad count n v).ring = s.ring.set 0 (slotKey gang quad (count % s.ringC gang) n) v := rfl
  have hC : (s.setSlot gang quad count n v).ringC gang = s.ringC gang := rfl
  rw [slot, hring, hC, FMap.get_set, if_pos rfl]

/-- The tiles of a ring follow each other: slot 16,384 of one is slot 0 of the next. -/
theorem slotKey_next (gang quad i : Nat) : slotKey gang quad i 16384 = slotKey gang quad (i + 1) 0 := by
  unfold slotKey tileKey
  omega

/-- Where a gang holds no ring the counts are not reduced, so that the slot after a tile's last is the first of the next count. -/
theorem slot_next {s : State} {gang : Nat} (hC : s.ringC gang = 0) (quad count : Nat) :
    s.slot gang quad count 16384 = s.slot gang quad (count + 1) 0 := by
  simp only [slot, hC, Nat.mod_zero, slotKey_next]

/-- A request that is over leaves the ring and the gangs as they are, where it makes no arrival and holds no reserved entry. -/
theorem finishReq_rest {s : State} {r : Req} (id : Nat) (h : r.tabled = false) :
    s.finishReq id r 0 = { s with threads := (s.finishReq id r 0).threads, reqs := (s.finishReq id r 0).reqs } := by
  have harrive : s.engineArrive r.gang 0 = s := if_pos (.inl rfl)
  have hover : s.finishReq id r 0 = State.decTl { s with reqs := s.reqs.erase id } r.thread := by
    unfold finishReq
    rw [harrive]
    exact if_neg (ne_true_of_eq_false h)
  rw [hover, decTl, settleWait_threads]
  rfl

/-- A pass whose request lists one spoilt slot leaves a free value there, R148. -/
theorem runPass_spoilt {s : State} {r : Req} {b : Block} {path : MatPath} (pos : Nat) {count n : Nat}
    (hpath : MatPath.of b.afmt b.bfmt = some path) (hsp : r.spoilt = [(count, n)]) :
    (s.runPass r b pos).slot r.gang r.quad count n = Config.freeWord (s.freeCtr * 65536 + 33792) := by
  unfold runPass
  rw [hpath, hsp]
  simp only [List.zipIdx_cons, List.zipIdx_nil, List.foldl_cons, List.foldl_nil, Nat.zero_mod, Nat.add_zero]
  exact slot_setSlot_self _ _ _ _ _ _

theorem foldl_gangs {α : Type} (g : State → α → State) (h : ∀ s x, (g s x).gangs = s.gangs) (xs : List α) (s : State) :
    (xs.foldl g s).gangs = s.gangs := by
  induction xs generalizing s with
  | nil => rfl
  | cons x xs ih => rw [List.foldl_cons, ih, h]

theorem setRingElem_gangs (s : State) (gang quad pos kind i j v : Nat) : (s.setRingElem gang quad pos kind i j v).gangs = s.gangs := by
  unfold setRingElem
  split <;> rfl

/-- A pass writes no gang. -/
theorem runPass_gangs (s : State) (r : Req) (b : Block) (pos : Nat) : (s.runPass r b pos).gangs = s.gangs := by
  unfold runPass
  split
  · rfl
  · dsimp only
    refine (foldl_gangs _ ?_ _ _).trans ?_
    · exact fun _ _ => rfl
    have hrows (act : Plane) (own : Bool) (path : MatPath) (s1 : State) : ((span 0 b.m).foldl (fun s' i => (span 0 b.n).foldl (fun s' j =>
        s'.setRingElem r.gang r.quad pos path.kind i j (s1.passElem r b path pos own act i j)) s') s1).gangs = s1.gangs :=
      foldl_gangs _ (fun s' i => foldl_gangs _ (fun s' j => setRingElem_gangs _ _ _ _ _ _ _ _) _ s') _ s1
    split
    · split
      · exact hrows _ _ _ _
      · exact hrows _ _ _ _
    · exact hrows _ _ _ _

end State

theorem exec_pass {s : State} {id : Nat} {r : Req} {b : Block} {pos : Nat} (hr : s.reqs.find? id = some r) (hfed : r.fed = true)
    (hpassed : r.passed = false) (hturn : s.turnOf r = true) (hkind : r.kind = .pass b pos none) :
    exec (.matrixRequestComplete id) s = .next ((s.runPass r b pos).finishReq id r b.done) := by
  have hexec : exec (.matrixRequestComplete id) s = execMatrixRequestComplete id s := rfl
  rw [hexec, execMatrixRequestComplete, hr]
  simp only [hfed, hpassed, hturn, hkind, Bool.not_true, Bool.or_self, Bool.false_eq_true, if_false]

/-! ## The counterexample -/

namespace SpoiltPass

/-- A pass of one I8 element that adds to the tile at count 1. -/
def block : Block :=
  { op := 2, afmt := 9, bfmt := 9, acc := true, sat := false, newTile := false, swap := false, epi := false, m := 1, n := 1, k := 1
    scla := 0, sclb := 0, tile := 0, qtr := 0, aoff := 0, astr := 0, aswz := 0, boff := 0, bstr := 0, bswz := 0, consumed := 0, done := 0 }

/-- Its request has read its operands, and lists slot 16,384 of the tile at count 0, which is slot 0 of the tile at count 1. -/
def req : Req :=
  { gang := 0, quad := 0, thread := 0, kind := .pass block 1 none, prio := 0, tabled := false, readyAt := none, aged := false
    permit := true, granted := some 0, fed := true, passed := false, aBits := [[0]], bBits := [], bias := [], sectors := []
    spoilt := [(0, 16384)], epiNo := none }

/-- The ring holds `old` where the pass adds, and no plane is loaded, so that the pass adds zero. -/
def start (old : BitVec 32) : State :=
  { State.reset with
    reqs := [(0, req)]
    threads := [(0, { Thread.fresh 0 with tl := 1 })]
    ring := [(slotKey 0 0 1 0, old)] }

/-- The free value of the listed slot. -/
def free : BitVec 32 := Config.freeWord (State.reset.freeCtr * 65536 + 33792)

/-- After the pass the element is the free value of the listed slot. -/
theorem ringElem_after (old : BitVec 32) :
    (((start old).runPass req block 1).finishReq 0 req 0).ringElem 0 0 1 2 0 0 = free.toNat := by
  rw [State.finishReq_rest 0 rfl]
  have hC : ((start old).runPass req block 1).ringC 0 = 0 := by rw [State.ringC, State.runPass_gangs]; rfl
  have hpass : ((start old).runPass req block 1).slot 0 0 0 16384 = free :=
    State.runPass_spoilt (s := start old) (r := req) (b := block) (path := .int8) 1 rfl rfl
  rw [State.slot_next hC] at hpass
  exact congrArg BitVec.toNat hpass

/-- The pass adds nothing to the element it reads. -/
theorem passElem_start (old : BitVec 32) : (start old).passElem req block .int8 1 false ⟨none, 0, []⟩ 0 0 = old.toNat := by
  have hslot : (start old).slot 0 0 1 0 = old := by
    rw [State.slot, show (start old).ringC 0 = 0 from rfl, Nat.mod_zero]
    simp [start, FMap.get, FMap.find?]
  exact congrArg BitVec.toNat hslot

end SpoiltPass

/-- Refutes O43: the clause on passes lets a request list a spoilt slot of any number, and one from 16,384 up is a slot of the next tile.
The request of `SpoiltPass.start` lists slot 16,384 of the tile before its own: its only element is left undefined (R148), where the clause
asks for the element's old value. The same free value would then be 0 and 1. No `rst` lists such a slot: `execRst` reduces its slot
number by 16,384, so this is a premise that the statement lacks. -/
theorem not_matrixCompletes : ¬ Obligations.MatrixCompletes := by
  unfold Obligations.MatrixCompletes
  rintro ⟨-, -, -, -, -, hpass, -, -, -⟩
  have hold (old : BitVec 32) : SpoiltPass.free.toNat = old.toNat := by
    obtain ⟨s', hexec, -, -, helem, -⟩ := hpass (SpoiltPass.start old) 0 1 SpoiltPass.req SpoiltPass.block .int8 none rfl rfl rfl rfl rfl rfl
      (by decide) rfl rfl (by decide) (by decide) rfl
    rw [exec_pass (r := SpoiltPass.req) rfl rfl rfl rfl rfl] at hexec
    obtain rfl := Host.Outcome.next.inj hexec
    have hclause := helem 0 0 (by decide) (by decide) (by simp [SpoiltPass.req])
    calc SpoiltPass.free.toNat
        = (SpoiltPass.start old).passElem SpoiltPass.req SpoiltPass.block .int8 1 false ⟨none, 0, []⟩ 0 0 % 2 ^ 32 :=
          (SpoiltPass.ringElem_after old).symm.trans hclause
      _ = old.toNat := by rw [SpoiltPass.passElem_start, Nat.mod_eq_of_lt old.isLt]
  exact absurd ((hold 0).symm.trans (hold 1)) (by decide)

end Sys2Proof.Machine

/-! SUPPORT. The end of a task: what write-back and landing leave of the worlds, what a write at the home slices does where nothing is
aliased, and what is reported, R242, R306, R307, R308, R378, R379, R403. -/

namespace Sys2Proof.Machine

namespace State

/-! ## Worlds under write-back, R235 -/

/-- What a world's end count and window read as. -/
def windowOf (s : State) (w : Nat) : Option (List Nat × Nat) := (s.worlds.find? w).map fun x => (x.window, x.completions)

/-- Windows and end counts are kept, and no redirect appears where there is none: what leaves their table changes quotas alone. -/
structure KeepsWindows (s t : State) : Prop where
  window : ∀ w, t.windowOf w = s.windowOf w
  noAlias : s.alias_ = [] → t.alias_ = []

namespace KeepsWindows

theorem of_eq {s t : State} (hw : t.worlds = s.worlds) (ha : t.alias_ = s.alias_) : KeepsWindows s t :=
  ⟨fun w => by rw [windowOf, hw, windowOf], fun h => ha.trans h⟩

theorem refl (s : State) : KeepsWindows s s := of_eq rfl rfl

theorem trans {s t u : State} (h : KeepsWindows s t) (k : KeepsWindows t u) : KeepsWindows s u :=
  ⟨fun w => (k.window w).trans (h.window w), fun e => k.noAlias (h.noAlias e)⟩

theorem foldl {α : Type} (g : State → α → State) (h : ∀ s x, KeepsWindows s (g s x)) (xs : List α) (s : State) :
    KeepsWindows s (xs.foldl g s) := by
  induction xs generalizing s with
  | nil => exact refl s
  | cons x xs ih => exact (h s x).trans (ih _)

end KeepsWindows

/-- A quota that is given back. -/
theorem windowOf_refund (s : State) (es : List AliasEntry) (w : Nat) : (s.refund es).windowOf w = s.windowOf w := by
  have hfold : ∀ m : FMap World,
      (FMap.find? (es.foldl (fun (m : FMap World) e => m.adjust e.world fun w => { w with used := w.used - 1 }) m) w).map
        (fun x => (x.window, x.completions)) = (m.find? w).map fun x => (x.window, x.completions) := by
    induction es with
    | nil => exact fun _ => rfl
    | cons e es ih =>
      intro m
      rw [List.foldl_cons, ih, FMap.find?_adjust]
      split
      · subst w
        rw [Option.map_map]
        rfl
      · rfl
  exact hfold s.worlds

theorem putLanded_keepsWindows (s : State) (x : Nat) (d : LineData) : KeepsWindows s (s.putLanded x d) := by
  refine ⟨fun w => windowOf_refund _ _ w, fun h => ?_⟩
  have hhit : (s.putLanded x d).alias_ = ((s.alias_.mapVals fun _ e => if e.covers x then
      { e with landed := setBit (setBit e.landed (x * 128 % 4096 / 64) true) (x * 128 % 4096 / 64 + 1) true } else e).keep
        fun _ e => !(e.landed == BitVec.allOnes 64)) := rfl
  rw [hhit, h]
  rfl

theorem landLine_keepsWindows (s : State) (x : Nat) : KeepsWindows s (s.landLine x) :=
  KeepsWindows.foldl _ (fun s (yd : Nat × LineData) => putLanded_keepsWindows s yd.1 yd.2) _ s

theorem beforeWrite_keepsWindows (s : State) (x : Nat) : KeepsWindows s (s.beforeWrite x) := by
  unfold beforeWrite
  extract_lets s1
  have h1 : KeepsWindows s s1 := by
    unfold s1
    split
    · exact landLine_keepsWindows s x
    · exact .refl s
  split
  · exact (h1.trans (KeepsWindows.foldl landLine landLine_keepsWindows _ s1)).trans (.of_eq rfl rfl)
  · exact h1

theorem homeWrite1_keepsWindows (s : State) (pa : Nat) (bs : List (BitVec 8)) (tag : Bool) : KeepsWindows s (s.homeWrite1 pa bs tag) :=
  (beforeWrite_keepsWindows s _).trans (.of_eq rfl rfl)

theorem homeWrite_keepsWindows (s : State) (pa : Nat) (bs : List (BitVec 8)) (tag : Bool) : KeepsWindows s (s.homeWrite pa bs tag) :=
  KeepsWindows.foldl _ (fun s (q : Nat × List (BitVec 8)) => homeWrite1_keepsWindows s q.1 q.2 tag) _ s

theorem useFrame_keepsWindows (s : State) (pa : Nat) : KeepsWindows s (s.useFrame pa) := by
  unfold useFrame
  split
  · exact .of_eq rfl rfl
  · exact .refl s

theorem mergeHome_keepsWindows (s : State) (x : Nat) (ds : List (Nat × BitVec 8)) (tags : BitVec 8) (poison : Bool) :
    KeepsWindows s (s.mergeHome x ds tags poison) := by
  have hruns := KeepsWindows.foldl (fun s (r : Nat × List (BitVec 8)) => s.rawWrite r.1 r.2) (fun _ _ => .of_eq rfl rfl) (runs ds) (s.beforeWrite x)
  have hmeta {t : State} {f : LineMeta → LineMeta} : KeepsWindows t (t.setMeta x f) := .of_eq rfl rfl
  exact ((beforeWrite_keepsWindows s x).trans hruns).trans (hmeta.trans (useFrame_keepsWindows _ _))

theorem setCMeta_keepsWindows (s : State) (u x : Nat) (f : CMeta → CMeta) : KeepsWindows s (s.setCMeta u x f) := by
  unfold setCMeta
  dsimp only
  split
  · exact .of_eq rfl rfl
  · exact .of_eq rfl rfl

theorem cleanLine_keepsWindows (s : State) (u x : Nat) (ds : List (Nat × BitVec 8)) : KeepsWindows s (s.cleanLine u x ds) := by
  unfold cleanLine
  refine KeepsWindows.trans ?_ (setCMeta_keepsWindows _ u x _)
  exact .of_eq rfl rfl

theorem mergeCache_keepsWindows (s : State) (u x w : Nat) (ds : List (Nat × BitVec 8)) (tags : BitVec 8) (poison : Bool) :
    KeepsWindows s (s.mergeCache u x w ds tags poison) := by
  unfold mergeCache
  refine KeepsWindows.trans ?_ (setCMeta_keepsWindows _ u x _)
  exact .of_eq rfl rfl

theorem pushQuad_keepsWindows (p : Nat → Bool) (s : State) (u x : Nat) : KeepsWindows s (State.pushQuad p s u x) := by
  unfold pushQuad
  dsimp only
  split
  · exact .refl s
  · exact (cleanLine_keepsWindows _ _ _ _).trans (mergeHome_keepsWindows _ _ _ _ _)

theorem yieldQuad_keepsWindows (s : State) (u x : Nat) : KeepsWindows s (s.yieldQuad u x) :=
  (pushQuad_keepsWindows _ s u x).trans (.of_eq rfl rfl)

theorem claimQuad_keepsWindows (s : State) (u x tag : Nat) : KeepsWindows s (s.claimQuad u x tag) := by
  unfold claimQuad roomQuad
  split
  · split
    · exact .refl s
    · exact yieldQuad_keepsWindows _ _ _
  · split
    · exact .refl s
    · exact yieldQuad_keepsWindows _ _ _

theorem pushLine_keepsWindows (p : Nat → Bool) (s : State) (u x : Nat) : KeepsWindows s (State.pushLine p s u x) := by
  unfold pushLine
  dsimp only
  split
  · split
    · exact .refl s
    · split
      · exact ((cleanLine_keepsWindows _ _ _ _).trans (claimQuad_keepsWindows _ _ _ _)).trans (mergeCache_keepsWindows _ _ _ _ _ _ _)
      · split
        · exact .refl s
        · exact (cleanLine_keepsWindows _ _ _ _).trans (mergeHome_keepsWindows _ _ _ _ _)
  · exact pushQuad_keepsWindows p s u x

theorem pushWorld_keepsWindows (s : State) (w : Nat) : KeepsWindows s (s.pushWorld w) :=
  (KeepsWindows.foldl (fun s (l : Nat × Nat) => State.pushLine (fun _ => true) s l.1 l.2) (fun s l => pushLine_keepsWindows _ s l.1 l.2) _ s).trans
    (KeepsWindows.foldl (fun s (l : Nat × Nat) => State.pushLine (fun _ => true) s l.1 l.2) (fun s l => pushLine_keepsWindows _ s l.1 l.2) _ _)

theorem pushWorld_onlyCaches (s : State) (w : Nat) : OnlyCaches s (s.pushWorld w) :=
  (OnlyCaches.foldl (fun s (l : Nat × Nat) => State.pushLine (fun _ => true) s l.1 l.2) (fun s l => pushLine_onlyCaches _ s l.1 l.2) _ s).trans
    (OnlyCaches.foldl (fun s (l : Nat × Nat) => State.pushLine (fun _ => true) s l.1 l.2) (fun s l => pushLine_onlyCaches _ s l.1 l.2) _ _)

/-! ## Home slices with nothing aliased, R241, R242 -/

section NoAlias

variable {s : State} (h : s.alias_ = [])

include h

theorem supplier_noAlias (pa : Nat) : s.supplier pa = none := by
  unfold supplier
  rw [h]
  rfl

theorem aliasRead_noAlias (pa : Nat) : s.aliasRead pa = s.homeByte pa := by
  unfold aliasRead
  rw [h]
  rfl

theorem dependents_noAlias (x : Nat) : s.dependents x = [] := by
  unfold dependents
  rw [h]
  rfl

theorem sources_noAlias (x : Nat) : s.sources x = [] := by
  unfold sources
  rw [h]
  rfl

omit h in
theorem reach_nil {next : Nat → List Nat} (hnext : ∀ x, next x = []) (n : Nat) (seen front : List Nat) : reach next n seen front = seen := by
  cases n with
  | zero => rfl
  | succ n =>
    rw [reach]
    have hfront : front.flatMap next = [] := List.flatMap_eq_nil_iff.mpr fun x _ => hnext x
    rw [hfront]
    rfl

theorem landers_noAlias (x : Nat) : s.landers x = [x] := reach_nil (dependents_noAlias h) _ _ _

theorem aliasPoison_noAlias (x : Nat) : s.aliasPoison x = (s.lineMeta x).poison := by
  have hfeeders : s.feeders x = [x] := reach_nil (sources_noAlias h) _ _ _
  unfold aliasPoison
  rw [hfeeders]
  simp only [List.any_cons, List.any_nil, Bool.or_false, supplier_noAlias h, Option.isNone_none]
  have hline : ((span (x * 128) 128).any fun _ => true) = true := List.any_eq_true.mpr ⟨x * 128, mem_span.mpr ⟨by omega, by omega⟩, rfl⟩
  rw [hline, Bool.and_true]

end NoAlias

theorem lineMeta_setMeta (s : State) (x y : Nat) (f : LineMeta → LineMeta) :
    (s.setMeta x f).lineMeta y = if y = x then f (s.lineMeta x) else s.lineMeta y := FMap.get_set _ _ _ _ _

/-- Nothing is aliased, and every byte and poison mark reads at home as it did. -/
structure SameHome (s t : State) : Prop where
  noAlias : t.alias_ = []
  byte : ∀ a, t.homeByte a = s.homeByte a
  poison : ∀ x, (t.lineMeta x).poison = (s.lineMeta x).poison

theorem SameHome.trans {s t u : State} (h : SameHome s t) (k : SameHome t u) : SameHome s u :=
  ⟨k.noAlias, fun a => (k.byte a).trans (h.byte a), fun x => (k.poison x).trans (h.poison x)⟩

/-- A line that lands where nothing is aliased takes what it holds. -/
theorem landLine_sameHome {s : State} (h : s.alias_ = []) (x : Nat) : SameHome s (s.landLine x) := by
  have hland : s.landLine x = s.putLanded x (s.readAliased x) := by
    unfold landLine
    rw [landers_noAlias h]
    rfl
  rw [hland]
  refine ⟨(putLanded_keepsWindows s x _).noAlias h, fun a => ?_, fun y => ?_⟩
  · have hbyte : (s.putLanded x (s.readAliased x)).homeByte a = (s.rawWrite (x * 128) ((span (x * 128) 128).map s.aliasRead)).homeByte a := rfl
    rw [hbyte, homeByte_rawWrite]
    split
    · rename_i hin
      obtain ⟨hlo, hhi⟩ := hin
      rw [List.length_map, length_span] at hhi
      have hread : ((span (x * 128) 128).map s.aliasRead).getD (a - x * 128) 0 = s.aliasRead a := by
        rw [span_eq_range', List.getD_eq_getElem _ _ (by simp; omega)]
        simp only [List.getElem_map, List.getElem_range', Nat.one_mul]
        rw [Nat.add_sub_cancel' hlo]
      rw [hread, aliasRead_noAlias h]
    · rfl
  · have hmeta : (s.putLanded x (s.readAliased x)).lineMeta y = (s.setMeta x fun m =>
        { m.setPoison (s.aliasPoison x) (s.freeCtr + 1) with tags := (s.readAliased x).tags, alias_ := false }).lineMeta y := rfl
    rw [hmeta, lineMeta_setMeta]
    split
    · subst y
      exact aliasPoison_noAlias h x
    · rfl

theorem beforeWrite_sameHome {s : State} (h : s.alias_ = []) (x : Nat) : SameHome s (s.beforeWrite x) := by
  unfold beforeWrite
  extract_lets s1
  have h1 : SameHome s s1 := by
    unfold s1
    split
    · exact landLine_sameHome h x
    · exact ⟨h, fun _ => rfl, fun _ => rfl⟩
  split
  · rw [dependents_noAlias h1.noAlias]
    refine h1.trans ⟨h1.noAlias, fun _ => rfl, fun y => ?_⟩
    rw [List.foldl_nil, lineMeta_setMeta]
    split
    · subst y
      rfl
    · rfl
  · exact h1

/-- A write of part of a line where nothing is aliased: its bytes are there, every other byte and every poison mark is as before. -/
theorem homeWrite_noAlias {s : State} (h : s.alias_ = []) {pa : Nat} {bs : List (BitVec 8)} (hline : pa % 128 + bs.length ≤ 128)
    (hpart : bs.length < 128) (tag : Bool) :
    (s.homeWrite pa bs tag).alias_ = [] ∧
    (∀ a, (s.homeWrite pa bs tag).homeByte a = if pa ≤ a ∧ a < pa + bs.length then bs.getD (a - pa) 0 else s.homeByte a) ∧
    ∀ x, ((s.homeWrite pa bs tag).lineMeta x).poison = (s.lineMeta x).poison := by
  unfold homeWrite
  rw [pieces_oneLine hline]
  split
  · rename_i hnil
    subst hnil
    refine ⟨h, fun a => ?_, fun _ => rfl⟩
    rw [if_neg (by simp)]
    rfl
  · have hbefore := beforeWrite_sameHome h (pa / 128)
    refine ⟨hbefore.noAlias, fun a => ?_, fun x => ?_⟩
    · rw [← hbefore.byte a]
      exact homeByte_rawWrite _ pa a bs
    · rw [← hbefore.poison x, List.foldl_cons, List.foldl_nil, homeWrite1, lineMeta_setMeta]
      split
      · subst x
        have hne : decide (bs.length ≠ 128) = true := decide_eq_true (by omega)
        rw [hne]
        exact Bool.and_true _
      · rfl

/-! ## The completion object, R306, R307 -/

/-- What a write of a number leaves, as it reads. -/
theorem homeNat_written {t : State} {pa n : Nat} {bs : List (BitVec 8)} (hlen : bs.length = n)
    (h : ∀ a, pa ≤ a → a < pa + n → t.homeByte a = bs.getD (a - pa) 0) : t.homeNat pa n = leNat bs := by
  have hbytes : (span pa n).map t.homeByte = bs := by
    refine List.ext_getElem (by rw [List.length_map, length_span, hlen]) fun i hi hi' => ?_
    simp only [span_eq_range', List.getElem_map, List.getElem_range', Nat.one_mul]
    rw [h (pa + i) (by omega) (by omega), Nat.add_sub_cancel_left, List.getD_eq_getElem _ _ hi']
  rw [homeNat, hbytes]

theorem homeNat_congr {s t : State} {pa n : Nat} (h : ∀ a, pa ≤ a → a < pa + n → t.homeByte a = s.homeByte a) :
    t.homeNat pa n = s.homeNat pa n := by
  unfold homeNat
  exact congrArg leNat (List.map_congr_left fun a ha => h a (mem_span.mp ha).1 (mem_span.mp ha).2)

theorem writeCompletion_cases (s : State) (k : Task) (code : Nat) (P : State → Prop) (hsame : P s)
    (hwrite : ∀ x : Walked, let s2 := (s.homeWrite (x.pa + 8) (leBytes 8 (k.relaunches % 256 * 2 ^ 16 + code)) false).beforeWrite (x.pa / 128)
      P s2 ∧ P (s2.homeWrite x.pa (leBytes 4 (leNat (s2.homeRead x.pa 4).1 + 1)) false)) : P (s.writeCompletion k code) := by
  unfold writeCompletion
  split
  · exact hsame
  · split
    · exact hsame
    · rename_i x _
      dsimp only
      split
      · exact hsame
      · split
        · exact (hwrite x).1
        · exact (hwrite x).2

theorem writeCompletion_onlyCaches (s : State) (k : Task) (code : Nat) : OnlyCaches s (s.writeCompletion k code) := by
  refine writeCompletion_cases s k code (OnlyCaches s) (.refl s) fun x => ?_
  have hs2 := (homeWrite_onlyCaches s (x.pa + 8) (leBytes 8 (k.relaunches % 256 * 2 ^ 16 + code)) false).trans
    (beforeWrite_onlyCaches _ (x.pa / 128))
  exact ⟨hs2, hs2.trans (homeWrite_onlyCaches _ _ _ _)⟩

theorem writeCompletion_keepsWindows (s : State) (k : Task) (code : Nat) : KeepsWindows s (s.writeCompletion k code) := by
  refine writeCompletion_cases s k code (KeepsWindows s) (.refl s) fun x => ?_
  have hs2 := (homeWrite_keepsWindows s (x.pa + 8) (leBytes 8 (k.relaunches % 256 * 2 ^ 16 + code)) false).trans
    (beforeWrite_keepsWindows _ (x.pa / 128))
  exact ⟨hs2, hs2.trans (homeWrite_keepsWindows _ _ _ _)⟩

/-- STATUS is written, and COUNT rises where it is not poisoned. -/
theorem writeCompletion_home {s : State} {k : Task} {x : Walked} {code : Nat} (halias : s.alias_ = []) (hdone : k.record.doneOk = true)
    (hwalk : s.walk k.world k.record.done.cap.cursor = some x) (huse : s.mayUse k.world x.pa = true) (haligned : x.pa % 16 = 0)
    (hcode : code < 2 ^ 16) :
    (s.writeCompletion k code).homeNat (x.pa + 8) 8 = k.relaunches % 256 * 2 ^ 16 + code ∧
    ((s.lineMeta (x.pa / 128)).poison = false → (s.writeCompletion k code).homeNat x.pa 4 = (s.homeNat x.pa 4 + 1) % 2 ^ 32) := by
  obtain ⟨status, hdef⟩ : ∃ status, status = leBytes 8 (k.relaunches % 256 * 2 ^ 16 + code) := ⟨_, rfl⟩
  have hslen : status.length = 8 := by rw [hdef, length_leBytes]
  have hstatus : leNat status = k.relaunches % 256 * 2 ^ 16 + code := by
    rw [hdef, leNat_leBytes, Nat.mod_eq_of_lt (by omega)]
  obtain ⟨halias1, hbyte1, hpoison1⟩ := homeWrite_noAlias halias (pa := x.pa + 8) (bs := status) (by omega) (by omega) false
  obtain ⟨s2, hs2⟩ : ∃ s2, s2 = (s.homeWrite (x.pa + 8) status false).beforeWrite (x.pa / 128) := ⟨_, rfl⟩
  have hsame : SameHome (s.homeWrite (x.pa + 8) status false) s2 := hs2 ▸ beforeWrite_sameHome halias1 _
  have hpoison : (s2.homeRead x.pa 4).2 = (s.lineMeta (x.pa / 128)).poison := by
    have hline : ∀ a ∈ span x.pa 4, s2.aliasPoison (a / 128) = (s.lineMeta (x.pa / 128)).poison := fun a ha => by
      obtain ⟨hlo, hhi⟩ := mem_span.mp ha
      have ha : a / 128 = x.pa / 128 := by omega
      rw [aliasPoison_noAlias hsame.noAlias, hsame.poison, hpoison1, ha]
    unfold homeRead
    rw [Bool.eq_iff_iff, List.any_eq_true]
    constructor
    · rintro ⟨a, ha, hp⟩
      exact (hline a ha).symm.trans hp
    · intro hp
      have hmem : x.pa ∈ span x.pa 4 := mem_span.mpr ⟨le_rfl, by omega⟩
      exact ⟨x.pa, hmem, (hline x.pa hmem).trans hp⟩
  have hcount : leNat (s2.homeRead x.pa 4).1 = s.homeNat x.pa 4 := by
    unfold homeRead homeNat
    refine congrArg leNat (List.map_congr_left fun a ha => ?_)
    obtain ⟨hlo, hhi⟩ := mem_span.mp ha
    rw [aliasRead_noAlias hsame.noAlias, hsame.byte, hbyte1, if_neg (by omega)]
  have hkept : ∀ a, x.pa + 8 ≤ a → a < x.pa + 8 + 8 → s2.homeByte a = status.getD (a - (x.pa + 8)) 0 := fun a hlo hhi => by
    rw [hsame.byte, hbyte1, if_pos ⟨hlo, by omega⟩]
  have hresult : s.writeCompletion k code =
      if (s.lineMeta (x.pa / 128)).poison then s2 else s2.homeWrite x.pa (leBytes 4 (s.homeNat x.pa 4 + 1)) false := by
    rw [← hpoison, ← hcount]
    unfold writeCompletion
    rw [hdone, if_neg (by simp), hwalk]
    dsimp only
    rw [huse, if_neg (by simp), hs2, hdef]
  rw [hresult]
  cases hp : (s.lineMeta (x.pa / 128)).poison
  · have hclen : (leBytes 4 (s.homeNat x.pa 4 + 1)).length = 4 := length_leBytes _ _
    obtain ⟨-, hbyte3, -⟩ := homeWrite_noAlias hsame.noAlias (pa := x.pa) (bs := leBytes 4 (s.homeNat x.pa 4 + 1)) (by omega) (by omega) false
    rw [if_neg Bool.false_ne_true]
    refine ⟨(homeNat_written hslen fun a hlo hhi => ?_).trans hstatus, fun _ => ?_⟩
    · rw [hbyte3, if_neg (by omega)]
      exact hkept a hlo hhi
    · exact (homeNat_written hclen fun a hlo hhi => by rw [hbyte3, if_pos ⟨hlo, by omega⟩]).trans (leNat_leBytes 4 _)
  · rw [if_pos rfl]
    exact ⟨(homeNat_written hslen hkept).trans hstatus, fun h => by simp at h⟩

/-! ## What is noted and reported of an end, R403, R416 -/

/-- A report where every halted thread goes on: the fault log takes the word, and threads wake. -/
theorem report_spec {s : State} (die : Nat) (w : BitVec 32) (hgo : ∀ th ∈ s.threads, th.2.stat = .halted → s.goesOn th.1 = true) :
    s.report die w = { s with regs := (s.report die w).regs, threads := (s.report die w).threads } ∧
    ((s.regs.faultLog.get [] die).length < 256 →
      (s.report die w).regs.faultLog.get [] die = s.regs.faultLog.get [] die ++ [w]) := by
  unfold report
  dsimp only
  have hwakes := (serviceEvent_onlyWakes (s := { s with regs := { s.regs with
    faultLog := s.regs.faultLog.put die
      ((if decide (256 ≤ (s.regs.faultLog.get [] die).length) then (s.regs.faultLog.get [] die).drop 1 else s.regs.faultLog.get [] die) ++ [w])
    faultLost := if decide (256 ≤ (s.regs.faultLog.get [] die).length) then s.regs.faultLost.set false die true else s.regs.faultLost } })
    die hgo).only
  refine ⟨?_, fun hroom => ?_⟩
  · rw [hwakes]
  · rw [hwakes]
    dsimp only
    rw [FMap.get_put, if_pos rfl, decide_eq_false (by omega), if_neg Bool.false_ne_true]

/-- What is noted and reported where a task ended with a code. -/
def endNoted (s : State) (k : Task) : State :=
  match k.code with
  | none => s
  | some c => (s.noteEnd k c).report 0 (faultWord 3 3 k.world k.queue)

theorem endNoted_spec {s : State} (k : Task)
    (hgo : k.code = none ∨ ∀ th ∈ s.threads, th.2.stat = .halted → s.goesOn th.1 = true) :
    s.endNoted k = { s with regs := (s.endNoted k).regs, threads := (s.endNoted k).threads, queues := (s.endNoted k).queues } ∧
    (∀ c q, k.code = some c → s.queues.find? k.queue = some q →
      ((s.endNoted k).queues.find? k.queue).map (fun q => (q.lasth, q.code)) = some (k.handle, BitVec.ofNat 8 (EndCode.num c))) ∧
    (∀ c, k.code = some c → (s.regs.faultLog.get [] 0).length < 256 →
      (s.endNoted k).regs.faultLog.get [] 0 = s.regs.faultLog.get [] 0 ++ [faultWord 3 3 k.world k.queue]) := by
  unfold endNoted
  cases hcode : k.code with
  | none =>
    refine ⟨rfl, fun c q hc => ?_, fun c hc => ?_⟩
    · simp at hc
    · simp at hc
  | some c =>
    have hgo' := hgo.resolve_left (by rw [hcode]; simp)
    obtain ⟨honly, hlog⟩ := report_spec (s := s.noteEnd k c) 0 (faultWord 3 3 k.world k.queue) hgo'
    refine ⟨?_, fun c' q hc hq => ?_, fun c' hc => ?_⟩
    · dsimp only
      rw [honly]
      rfl
    · obtain rfl := Option.some.inj hc
      have hnoted : (s.noteEnd k c).queues.find? k.queue = some { q with
          lasth := k.handle, code := BitVec.ofNat 8 (EndCode.num c), cause := (k.fault.getD (0, 0, 0)).1.setWidth 8
          tpc := (k.fault.getD (0, 0, 0)).2.1, tval := (k.fault.getD (0, 0, 0)).2.2 } := by
        rw [noteEnd, updQueue, FMap.find?_adjust, if_pos rfl, hq]
        rfl
      dsimp only
      rw [honly]
      dsimp only
      rw [hnoted]
      rfl
    · exact hlog

/-! ## Leaving the window, R308 -/

theorem unpins_frames (ps : List Nat) (s : State) :
    ps.foldl (fun s p => s.pin p false) s = { s with frames := (ps.foldl (fun s p => s.pin p false) s).frames } := by
  induction ps generalizing s with
  | nil => rfl
  | cons p ps ih =>
    rw [List.foldl_cons, ih]
    rfl

/-- A task leaves its world's window and its queue, its translations go, and it has completed; `n` numbers the end. -/
def leaveWindow (s : State) (n task : Nat) (k : Task) : State :=
  let s4 := k.pins.foldl (fun s p => s.pin p false) s
  let s5 := s4.updWorld k.world fun w =>
    { w with window := w.window.filter (· != task), completions := w.completions + 1 }
  let waits := ((s5.queues.find? k.queue).map (·.waiting)).getD []
  let s6 := s5.updQueue k.queue fun q =>
    { q with waiting := q.waiting.filter (· != task), headAt := if waits.head? = some task then n else q.headAt }
  let s7 := { s6 with
    tlb := s6.tlb.filter fun e => e.task != task
    ahead := s6.ahead.filter fun e => e.task != task
    nextId := s6.nextId + 1 }
  s7.updTask task fun t => { t with stage := .completed, lease := [], pins := [] }

theorem leaveWindow_only (s : State) (n task : Nat) (k : Task) :
    s.leaveWindow n task k = { s with
      frames := (s.leaveWindow n task k).frames
      worlds := s.worlds.adjust k.world fun w => { w with window := w.window.filter (· != task), completions := w.completions + 1 }
      queues := (s.leaveWindow n task k).queues
      tlb := s.tlb.filter fun e => e.task != task
      ahead := s.ahead.filter fun e => e.task != task
      tasks := s.tasks.adjust task fun t => { t with stage := .completed, lease := [], pins := [] }
      nextId := s.nextId + 1 } := by
  unfold leaveWindow
  rw [unpins_frames]
  rfl

/-- What a queue reports of the last end stays as it is. -/
theorem leaveWindow_noted (s : State) (n task : Nat) (k : Task) (q : Nat) :
    ((s.leaveWindow n task k).queues.find? q).map (fun q => (q.lasth, q.code)) = (s.queues.find? q).map fun q => (q.lasth, q.code) := by
  unfold leaveWindow
  rw [unpins_frames]
  dsimp only [updTask, updQueue, updWorld]
  rw [FMap.find?_adjust]
  split
  · subst q
    rw [Option.map_map]
    rfl
  · rfl

/-- The completion object written, with every dirty byte of the world at home. -/
def completionWritten (s : State) (k : Task) : State := (s.pushWorld k.world).writeCompletion k ((k.code.map EndCode.num).getD 0)

theorem completionWritten_onlyCaches (s : State) (k : Task) : OnlyCaches s (s.completionWritten k) :=
  (pushWorld_onlyCaches s k.world).trans (writeCompletion_onlyCaches _ k _)

theorem completionWritten_keepsWindows (s : State) (k : Task) : KeepsWindows s (s.completionWritten k) :=
  (pushWorld_keepsWindows s k.world).trans (writeCompletion_keepsWindows _ k _)

end State

theorem exec_taskCompletion {s : State} {t : Nat} {k : Task} (hk : s.tasks.find? t = some k) (hstage : k.stage ≠ .completed)
    (hwhy : (k.stage = .leased ∧ k.doomed = none ∧ k.next = k.record.gangCount) ∨ k.code.isSome = true) (hover : s.gangsOver k = true)
    (hbusy : s.taskBusy t = false) (hheld : s.completionHeld k = false) :
    exec (.taskCompletion t) s = .next (((s.completionWritten k).endNoted k).leaveWindow s.nextId t k) := by
  have hexec : exec (.taskCompletion t) s = execTaskCompletion t s := rfl
  have hran : (k.code.isSome || (k.stage == .leased && k.doomed.isNone && decide (k.next = k.record.gangCount))) = true := by
    rcases hwhy with ⟨hleased, hdoomed, hnext⟩ | hcode
    · simp [hleased, hdoomed, hnext]
    · simp [hcode]
  rw [hexec, execTaskCompletion, hk]
  dsimp only
  rw [hran, hover, hbusy, hheld, if_neg (by simpa using hstage)]
  rfl

theorem EndCode.num_lt (c : Option EndCode) : (c.map EndCode.num).getD 0 < 2 ^ 16 := by
  cases c with
  | none => decide
  | some c => cases c <;> decide

/-! ## A task that ends, R151, R198, R379 -/

/-- Whether a thread's state lets its task be ended with WORLD_POISON. -/
def TStat.endable : TStat → Bool
  | .stopped | .exited | .saved | .svc _ | .fetchw _ _ => true
  | _ => false

namespace State

/-- A task that has WORLD_POISON already keeps it, and its gangs stop. -/
theorem endTask_again {s : State} {id : Nat} {k : Task} (hk : s.tasks.find? id = some k) (hcode : k.code = some .worldPoison)
    (hstage : k.stage ≠ .completed) : EndedWith s (s.endTask id .worldPoison none) id k .worldPoison k.fault := by
  have hkeeps := endTask_dropsOps s id .worldPoison none
  have hend : ∃ queues, s.endTask id .worldPoison none = { k.gangs.foldl stopGang s with queues := queues } := by
    unfold endTask
    rw [hk]
    dsimp only
    rw [if_neg (by simp [hcode, hstage]), if_pos (by rw [hcode]; rfl)]
    exact ⟨_, rfl⟩
  obtain ⟨queues, hend⟩ := hend
  refine ⟨?_, hkeeps.mem, hkeeps.pool, fun g hg x hx => ?_⟩
  · rw [hend]
    dsimp only
    rw [stopGangs_tasks, hk, ← hcode]
  · rw [hend] at hx
    exact stopGangs_stopped k.gangs s g hg x hx

end State

theorem exec_taskEnd_worldPoison {s : State} {t : Nat} {k : Task} {w : World} (hk : s.tasks.find? t = some k)
    (hw : s.worlds.find? k.world = some w) (herr : w.tdisp = .error ∨ w.stopping = true)
    (hstopped : ∀ th ∈ s.threads, s.taskOf th.1 = t →
      (s.gangs.find? (gangOf th.1)).any (fun g => decide (g.stat = .resident)) = true → th.2.stat.endable = true) :
    exec (.taskEnd t .worldPoison) s = .next (s.endTask t .worldPoison none) := by
  have hexec : exec (.taskEnd t .worldPoison) s = execTaskEnd t .worldPoison s := rfl
  have herror : (s.worlds.find? k.world).any (fun w => decide (w.tdisp = .error) || w.stopping) = true := by
    rw [hw]
    rcases herr with h | h
    · simp [h]
    · simp [h]
  have hall : (s.threads.all fun th => s.taskOf th.1 != t ||
      !((s.gangs.find? (gangOf th.1)).any fun g => decide (g.stat = GStat.resident)) || th.2.stat.endable) = true := by
    rw [List.all_eq_true]
    intro th hth
    by_cases htask : s.taskOf th.1 = t
    · cases hres : (s.gangs.find? (gangOf th.1)).any fun g => decide (g.stat = GStat.resident)
      · simp
      · simp [hstopped th hth htask hres]
    · simp [htask]
  rw [hexec, execTaskEnd, hk]
  dsimp only
  rw [herror]
  exact congrArg Host.Outcome.next (if_pos hall)

theorem exec_taskEnd_doomed {s : State} {t : Nat} {k : Task} {c : EndCode} (hk : s.tasks.find? t = some k) (hdoom : k.doomed = some c)
    (hc : c ≠ .worldPoison) (hover : s.gangsOver k = true) : exec (.taskEnd t c) s = .next (s.endTask t c none) := by
  have hexec : exec (.taskEnd t c) s = execTaskEnd t c s := rfl
  rw [hexec, execTaskEnd, hk]
  cases c with
  | worldPoison => exact absurd rfl hc
  | _ => exact congrArg Host.Outcome.next (if_pos ⟨hdoom, hover⟩)

/-- Settles O50: an end is the write of the completion object, what is noted and reported of a code, and the leaving of the window. -/
theorem tasksEnd : Obligations.TasksEnd := by
  unfold Obligations.TasksEnd
  refine ⟨?completes, ?poisoned, ?doomed⟩
  case completes =>
    intro s t x k w hk hw hstage hwhy hgo hover hbusy hheld
    have hcaches := s.completionWritten_onlyCaches k
    have hwindows := s.completionWritten_keepsWindows k
    obtain ⟨s2, hs2⟩ : ∃ s2, s2 = s.completionWritten k := ⟨_, rfl⟩
    rw [← hs2] at hcaches hwindows
    have hgo2 : k.code = none ∨ ∀ th ∈ s2.threads, th.2.stat = .halted → s2.goesOn th.1 = true := by
      rw [hcaches]
      exact hgo
    obtain ⟨hnoted, hqueue, hlog⟩ := s2.endNoted_spec k hgo2
    obtain ⟨s3, hs3⟩ : ∃ s3, s3 = s2.endNoted k := ⟨_, rfl⟩
    rw [← hs3] at hnoted hqueue hlog
    have hleft := s3.leaveWindow_only s.nextId t k
    have hleftNoted := s3.leaveWindow_noted s.nextId t k k.queue
    obtain ⟨s', hs'⟩ : ∃ s', s' = s3.leaveWindow s.nextId t k := ⟨_, rfl⟩
    rw [← hs'] at hleft hleftNoted
    have hmem : s'.mem = s2.mem := by rw [hleft, hnoted]
    have hworld : ∃ w2, s3.worlds.find? k.world = some w2 ∧ w2.window = w.window ∧ w2.completions = w.completions := by
      have hkept := hwindows.window k.world
      unfold State.windowOf at hkept
      rw [hw] at hkept
      obtain ⟨w2, hw2, heq⟩ := Option.map_eq_some_iff.mp hkept
      refine ⟨w2, ?_, congrArg Prod.fst heq, congrArg Prod.snd heq⟩
      rw [hnoted]
      exact hw2
    obtain ⟨w2, hw2, hwin, hcomp⟩ := hworld
    refine ⟨s', ?exec, State.sameRegisters_of ?rows ?free, ?spad, ?task,
      ⟨{ w2 with window := w2.window.filter (· != t), completions := w2.completions + 1 }, ?world, ?_, ?_⟩,
      ?tlb, ?ahead, ?queue, ?log, ?_⟩
    case exec => rw [exec_taskCompletion hk hstage hwhy hover hbusy hheld, hs', hs3, hs2]
    case rows => rw [hleft, hnoted, hcaches]
    case free => rw [hleft, hnoted, hcaches]
    case spad => rw [hleft, hnoted, hcaches]
    case task =>
      rw [hleft, hnoted, hcaches]
      dsimp only
      rw [FMap.find?_adjust, if_pos rfl, hk]
      rfl
    case world =>
      rw [hleft]
      dsimp only
      rw [FMap.find?_adjust, if_pos rfl, hw2]
      rfl
    · simp
    · exact congrArg (· + 1) hcomp
    case tlb =>
      rw [hleft]
      exact fun e he => by simpa using (List.mem_filter.mp he).2
    case ahead =>
      rw [hleft]
      exact fun e he => by simpa using (List.mem_filter.mp he).2
    case queue =>
      intro c q hc hq
      rw [hleftNoted]
      refine hqueue c q hc ?_
      rw [hcaches]
      exact hq
    case log =>
      intro c hc hroom
      have hregs : s2.regs = s.regs := by rw [hcaches]
      rw [hleft]
      rw [← hregs] at hroom ⊢
      exact hlog c hc hroom
    intro p halias hdone hwalk huse haligned
    have hhome := State.writeCompletion_home (k := k) ((s.pushWorld_keepsWindows k.world).noAlias halias) hdone hwalk huse haligned
      (EndCode.num_lt k.code)
    have hnat (a n : Nat) : s'.homeNat a n = (p.writeCompletion k ((k.code.map EndCode.num).getD 0)).homeNat a n :=
      State.homeNat_congr fun b _ _ => congrArg (FMap.get 0 · b) (hmem.trans (congrArg State.mem hs2))
    rw [hnat, hnat]
    exact hhome
  case poisoned =>
    intro s t k w hk hw herr hstopped hcode hstage
    refine ⟨_, exec_taskEnd_worldPoison hk hw herr fun th hth htask hres => ?_, ?_⟩
    · rcases hstopped th hth htask hres with h | h | h | ⟨b, h⟩ | ⟨la, b, h⟩
      all_goals rw [h]; rfl
    · rcases hcode with hc | hc
      · rw [if_pos hc]
        exact State.endTask_endedWith .worldPoison none hk hc hstage
      · rw [if_neg (by rw [hc]; simp)]
        exact State.endTask_again hk hc hstage
  case doomed =>
    intro s t c k hk hdoom hc hover hcode hstage
    refine ⟨_, exec_taskEnd_doomed hk hdoom hc hover, (State.endTask_dropsOps s t c none).mem, ?_⟩
    obtain ⟨hended, -⟩ := State.endTask_endedWith c none hk hcode hstage
    rw [hended]
    rfl

end Sys2Proof.Machine

/-! SUPPORT. What each derivation of a capability leaves of its fields (R166 to R169, R177, R186). -/

namespace Sys2Proof.Machine

theorem extractLsb'_within {n a m start len : Nat} (x : BitVec n) (h : start + len ≤ m) :
    (x.extractLsb' a m).extractLsb' start len = x.extractLsb' (a + start) len := by
  ext i hi
  simp only [BitVec.getElem_extractLsb', BitVec.getLsbD_extractLsb']
  rw [decide_eq_true (by omega), Bool.true_and, Nat.add_assoc]

namespace Cap

/-- The fields that `sound` asks for decide it. -/
theorem sound_congr {p q : Cap} (htop : q.bits.extractLsb' 124 4 = p.bits.extractLsb' 124 4) (hkind : q.kind = p.kind)
    (hperm : p.perm.getLsbD 7 = false → q.perm.getLsbD 7 = false) (h : p.sound = true) : q.sound = true := by
  unfold sound at h ⊢
  simp only [Bool.and_eq_true, Bool.not_eq_true'] at h ⊢
  rw [htop, hkind]
  exact ⟨h.1, hperm h.2⟩

section Derived

variable (p : Cap)

/-! ## Another PERM -/

theorem withPerm_low (m : BitVec 8) {start len : Nat} (h : start + len ≤ 112) :
    (p.withPerm m).extractLsb' start len = p.bits.extractLsb' start len := by
  unfold withPerm
  rw [BitVec.extractLsb'_append_eq_of_add_le h, extractLsb'_within _ h, Nat.zero_add]

theorem withPerm_high (m : BitVec 8) {start len : Nat} (h : 120 ≤ start) (hlen : start + len ≤ 128) :
    (p.withPerm m).extractLsb' start len = p.bits.extractLsb' start len := by
  unfold withPerm
  rw [BitVec.extractLsb'_append_eq_of_le (by omega), BitVec.extractLsb'_append_eq_of_le (by omega), extractLsb'_within _ (by omega)]
  congr 1
  omega

@[simp] theorem withPerm_perm (m : BitVec 8) : (⟨p.withPerm m⟩ : Cap).perm = m := by
  unfold perm withPerm
  rw [BitVec.extractLsb'_append_eq_of_le (le_refl 112), BitVec.extractLsb'_append_eq_right]

@[simp] theorem withPerm_kind (m : BitVec 8) : (⟨p.withPerm m⟩ : Cap).kind = p.kind :=
  congrArg BitVec.toNat (withPerm_high p m (by decide) (by decide))

@[simp] theorem withPerm_base (m : BitVec 8) : (⟨p.withPerm m⟩ : Cap).base = p.base :=
  congrArg BitVec.toNat (withPerm_low p m (by decide))

@[simp] theorem withPerm_length (m : BitVec 8) : (⟨p.withPerm m⟩ : Cap).length = p.length := by
  unfold length lm le
  rw [withPerm_low p m (by decide), withPerm_low p m (by decide)]

@[simp] theorem withPerm_offset (m : BitVec 8) : (⟨p.withPerm m⟩ : Cap).offset = p.offset :=
  congrArg BitVec.toNat (withPerm_low p m (by decide))

/-! ## Another OFFSET -/

theorem withOffset_high (o : Nat) {start len : Nat} (h : 40 ≤ start) (hlen : start + len ≤ 128) :
    (p.withOffset o).extractLsb' start len = p.bits.extractLsb' start len := by
  unfold withOffset
  rw [BitVec.extractLsb'_append_eq_of_le h, extractLsb'_within _ (by omega), Nat.add_sub_cancel' h]

@[simp] theorem withOffset_perm (o : Nat) : (⟨p.withOffset o⟩ : Cap).perm = p.perm := withOffset_high p o (by decide) (by decide)

@[simp] theorem withOffset_kind (o : Nat) : (⟨p.withOffset o⟩ : Cap).kind = p.kind :=
  congrArg BitVec.toNat (withOffset_high p o (by decide) (by decide))

@[simp] theorem withOffset_base (o : Nat) : (⟨p.withOffset o⟩ : Cap).base = p.base :=
  congrArg BitVec.toNat (withOffset_high p o (by decide) (by decide))

@[simp] theorem withOffset_length (o : Nat) : (⟨p.withOffset o⟩ : Cap).length = p.length := by
  unfold length lm le
  rw [withOffset_high p o (by decide) (by decide), withOffset_high p o (by decide) (by decide)]

theorem withOffset_offset {o : Nat} (h : o < 2 ^ 40) : (⟨p.withOffset o⟩ : Cap).offset = o := by
  unfold offset withOffset
  rw [BitVec.extractLsb'_append_eq_right, BitVec.toNat_ofNat, Nat.mod_eq_of_lt h]

/-! ## Another region -/

variable (lm le : Nat)

theorem narrowed_high {start len : Nat} (h : 112 ≤ start) (hlen : start + len ≤ 128) :
    (p.narrowed lm le).extractLsb' start len = p.bits.extractLsb' start len := by
  unfold narrowed
  rw [BitVec.extractLsb'_append_eq_of_le (by omega), BitVec.extractLsb'_append_eq_of_le (by omega),
    BitVec.extractLsb'_append_eq_of_le (by omega), BitVec.extractLsb'_append_eq_of_le (by omega), extractLsb'_within _ (by omega)]
  congr 1
  omega

@[simp] theorem narrowed_perm : (⟨p.narrowed lm le⟩ : Cap).perm = p.perm := narrowed_high p lm le (by decide) (by decide)

@[simp] theorem narrowed_kind : (⟨p.narrowed lm le⟩ : Cap).kind = p.kind :=
  congrArg BitVec.toNat (narrowed_high p lm le (by decide) (by decide))

@[simp] theorem narrowed_offset : (⟨p.narrowed lm le⟩ : Cap).offset = 0 := by
  unfold offset narrowed
  rw [BitVec.extractLsb'_append_eq_right]
  rfl

/-- BASE has 56 bits. -/
theorem narrowed_base (h : p.cursor < 2 ^ 56) : (⟨p.narrowed lm le⟩ : Cap).base = p.cursor := by
  unfold base narrowed
  rw [BitVec.extractLsb'_append_eq_of_le (le_refl 40), BitVec.extractLsb'_append_eq_right, BitVec.toNat_ofNat, Nat.mod_eq_of_lt h]

/-- LM has 10 bits and LE has 6. -/
theorem narrowed_length {lm le : Nat} (hlm : lm < 2 ^ 10) (hle : le < 2 ^ 6) : (⟨p.narrowed lm le⟩ : Cap).length = lm * 2 ^ le := by
  have hm : (⟨p.narrowed lm le⟩ : Cap).lm = lm := by
    unfold Cap.lm narrowed
    rw [BitVec.extractLsb'_append_eq_of_le (by omega), BitVec.extractLsb'_append_eq_of_le (by omega), BitVec.extractLsb'_append_eq_right,
      BitVec.toNat_ofNat, Nat.mod_eq_of_lt hlm]
  have he : (⟨p.narrowed lm le⟩ : Cap).le = le := by
    unfold Cap.le narrowed
    rw [BitVec.extractLsb'_append_eq_of_le (by omega), BitVec.extractLsb'_append_eq_of_le (by omega),
      BitVec.extractLsb'_append_eq_of_le (by omega), BitVec.extractLsb'_append_eq_right, BitVec.toNat_ofNat, Nat.mod_eq_of_lt hle]
  rw [length, hm, he]

end Derived

end Cap

/-! ## RoundLen, R169 -/

/-- A length that the largest mantissa at the last exponent reaches is rounded up, to a mantissa and an exponent that fit their fields. -/
theorem roundLenFrom_covers (len n e : Nat) (h : len ≤ 1023 * 2 ^ (e + n)) :
    len ≤ (roundLenFrom len n e).1 * 2 ^ (roundLenFrom len n e).2 ∧ (roundLenFrom len n e).1 ≤ 1023 ∧ (roundLenFrom len n e).2 ≤ e + n := by
  have hround (e : Nat) (he : len ≤ 1023 * 2 ^ e) : len ≤ (len + 2 ^ e - 1) / 2 ^ e * 2 ^ e ∧ (len + 2 ^ e - 1) / 2 ^ e ≤ 1023 := by
    rw [← Nat.ceilDiv_eq_add_pred_div, mul_comm _ (2 ^ e)]
    exact ⟨(ceilDiv_le_iff_le_mul (Nat.two_pow_pos e)).mp le_rfl, (ceilDiv_le_iff_le_mul (Nat.two_pow_pos e)).mpr (by rwa [mul_comm])⟩
  induction n generalizing e with
  | zero => exact ⟨(hround e h).1, (hround e h).2, le_rfl⟩
  | succ n ih =>
    rw [roundLenFrom]
    split
    · rename_i he
      exact ⟨(hround e he).1, (hround e he).2, by omega⟩
    · obtain ⟨hcovers, hlm, hle⟩ := ih (e + 1) (by rwa [Nat.add_right_comm])
      exact ⟨hcovers, hlm, by omega⟩

/-- Every 32-bit length has a rounding, which fits the fields. -/
theorem roundLen_covers {len : Nat} (h : len < 2 ^ 32) :
    len ≤ (roundLen len).1 * 2 ^ (roundLen len).2 ∧ (roundLen len).1 < 2 ^ 10 ∧ (roundLen len).2 < 2 ^ 6 := by
  obtain ⟨hcovers, hlm, hle⟩ := roundLenFrom_covers len 63 0 (by omega)
  exact ⟨hcovers, Nat.lt_succ_of_le hlm, by unfold roundLen; omega⟩

/-- A length that the mantissa holds is exact. -/
theorem roundLen_exact {len : Nat} (h : len ≤ 1023) : roundLen len = (len, 0) := by
  unfold roundLen
  rw [roundLenFrom, if_pos (by omega)]
  simp

/-- Settles O60: each derivation by the fields that it leaves, and `cbnd` by what RoundLen covers. -/
theorem capDerivationsNarrow : Obligations.CapDerivationsNarrow := by
  unfold Obligations.CapDerivationsNarrow
  intro p
  refine ⟨fun m => ?perm, fun o ho => ?offset, fun n => ?region⟩
  case perm =>
    refine ⟨p.withPerm_kind _, p.withPerm_base _, p.withPerm_length _, p.withPerm_offset _, p.withPerm_perm _, ?_⟩
    refine Cap.sound_congr (p.withPerm_high _ (by decide) (by decide)) (p.withPerm_kind _) fun h => ?_
    rw [p.withPerm_perm, BitVec.getLsbD_and, h, Bool.false_and]
  case offset =>
    refine ⟨p.withOffset_kind o, p.withOffset_base o, p.withOffset_length o, p.withOffset_perm o, p.withOffset_offset ho, ?_⟩
    exact Cap.sound_congr (p.withOffset_high o (by decide) (by decide)) (p.withOffset_kind o) fun h => (p.withOffset_perm o).symm ▸ h
  case region =>
    dsimp only
    intro hcursor hfits
    obtain ⟨hcovers, hlm, hle⟩ := roundLen_covers n.isLt
    have hbase := p.narrowed_base (roundLen n.toNat).1 (roundLen n.toNat).2 hcursor
    have hlength := p.narrowed_length hlm hle
    refine ⟨p.narrowed_kind _ _, p.narrowed_perm _ _, hbase, p.narrowed_offset _ _, ?_, ?_, hlength ▸ hcovers, fun hsmall => ?_, ?_⟩
    · rw [hbase]
      exact Nat.le_add_right _ _
    · rw [Cap.top, hbase, hlength]
      exact hfits
    · rw [hlength, roundLen_exact hsmall, Nat.pow_zero, Nat.mul_one]
    · exact Cap.sound_congr (p.narrowed_high _ _ (by decide) (by decide)) (p.narrowed_kind _ _) fun h => (p.narrowed_perm _ _).symm ▸ h

end Sys2Proof.Machine

/-! SUPPORT. The walk of a sweep, its report, and a service event: what loses its tag or its validity, and what stays as it was (R180 to R182,
R197, R400, R401). -/

namespace Sys2Proof.Machine

/-! ## Bits and listings that are rewritten one by one -/

/-- Bits that are rewritten one after the other, each at its own place: each listed bit becomes what is made of it. -/
theorem getLsbD_foldl_bits {w : Nat} {F : BitVec w → Nat → BitVec w} {φ : Nat → Bool → Bool}
    (hF : ∀ x i j, j < w → (F x i).getLsbD j = if j = i then φ i (x.getLsbD i) else x.getLsbD j) {is : List Nat} (hnd : is.Nodup)
    (x : BitVec w) {j : Nat} (hj : j < w) : (is.foldl F x).getLsbD j = if j ∈ is then φ j (x.getLsbD j) else x.getLsbD j := by
  induction is generalizing x with
  | nil => rfl
  | cons i is ih =>
    obtain ⟨hi, hnd⟩ := List.nodup_cons.mp hnd
    rw [List.foldl_cons, ih hnd, hF x i j hj]
    by_cases hji : j = i
    · subst hji
      rw [if_neg hi, if_pos rfl, if_pos List.mem_cons_self]
    · simp only [hji, if_false, List.mem_cons, false_or]

/-- A set bit is cleared where it is marked. -/
theorem getLsbD_clearMarked {w : Nat} (marked : Nat → Bool) (x : BitVec w) (i j : Nat) (hj : j < w) :
    (if x.getLsbD i && marked i then setBit x i false else x).getLsbD j =
      if j = i then x.getLsbD i && !marked i else x.getLsbD j := by
  split
  · rename_i h
    obtain ⟨-, hm⟩ := Bool.and_eq_true_iff.mp h
    rw [setBit_getLsbD _ _ _ _ hj, hm, Bool.not_true, Bool.and_false]
  · rename_i h
    split
    · rename_i hji
      subst hji
      revert h
      cases x.getLsbD j <;> cases marked j <;> simp
    · rfl

/-- The bits of a mask that stay once those that are marked have been cleared. -/
theorem getLsbD_clearsMarked {w : Nat} (marked : Nat → Bool) (x : BitVec w) (n : Nat) {j : Nat} (hw : j < w) (hn : j < n) :
    ((span 0 n).foldl (fun x i => if x.getLsbD i && marked i then setBit x i false else x) x).getLsbD j = (x.getLsbD j && !marked j) := by
  rw [getLsbD_foldl_bits (φ := fun i b => b && !marked i) (getLsbD_clearMarked marked) (span_nodup 0 n) x hw,
    if_pos (mem_span.mpr ⟨Nat.zero_le j, by omega⟩)]

namespace FMap

variable {α : Type}

/-- A first listing that is kept is found. -/
theorem find?_keep {m : FMap α} {p : Nat → α → Bool} {k : Nat} {v : α} (h : m.find? k = some v) (hp : p k v = true) :
    (m.keep p).find? k = some v := by
  induction m with
  | nil => exact absurd h (by simp [find?])
  | cons a m ih =>
    obtain ⟨k', v'⟩ := a
    rw [find?] at h
    split at h
    · rename_i hk
      obtain rfl := Option.some.inj h
      subst hk
      rw [keep, List.filter_cons, if_pos hp, find?, if_pos rfl]
    · rename_i hk
      unfold keep at ih ⊢
      rw [List.filter_cons]
      split
      · rw [find?, if_neg hk]
        exact ih h
      · exact ih h

/-- What is found among kept listings of rewritten values is a rewritten value. -/
theorem mem_of_find?_keep_mapVals {m : FMap α} {f : Nat → α → α} {p : Nat → α → Bool} {k : Nat} {v : α}
    (h : ((m.mapVals f).keep p).find? k = some v) : ∃ u, (k, u) ∈ m ∧ v = f k u :=
  mem_mapVals (List.mem_of_mem_filter (mem_of_find? h))

/-- A listing of a map whose keys rise is the one that is found. -/
theorem find?_of_mem {b : Option Nat} {m : FMap α} (hm : rising b m = true) {kv : Nat × α} (h : kv ∈ m) : m.find? kv.1 = some kv.2 := by
  induction m generalizing b with
  | nil => exact absurd h List.not_mem_nil
  | cons a m ih =>
    obtain ⟨k, v⟩ := a
    have htail := ((rising_cons b k v m).mp hm).2
    rw [find?]
    rcases List.mem_cons.mp h with rfl | h
    · rw [if_pos rfl]
    · rw [if_neg (rising_lt htail kv h).ne]
      exact ih htail h

theorem rising_nodup {b : Option Nat} {m : FMap α} (hm : rising b m = true) : (m.map (·.1)).Nodup := by
  induction m generalizing b with
  | nil => exact List.nodup_nil
  | cons a m ih =>
    obtain ⟨k, v⟩ := a
    have htail := ((rising_cons b k v m).mp hm).2
    refine List.nodup_cons.mpr ⟨fun hk => ?_, ih htail⟩
    obtain ⟨kv, hkv, he⟩ := List.mem_map.mp hk
    exact absurd he (rising_lt htail kv hkv).ne'

end FMap

namespace State

/-! ## Memory tags, R181 -/

/-- The metadata of a line once a walk has passed it. -/
def sweptLine (marks : List (BitVec 8) → Bool) (mine : Nat → Bool) (byte : Nat → BitVec 8) (x : Nat) (l : LineMeta) : LineMeta :=
  if mine x then
    { l with tags := (span 0 8).foldl (fun t i =>
        if t.getLsbD i && marks ((span (x * 128 + i * 16) 16).map byte) then setBit t i false else t) l.tags }
  else l

theorem sweptLine_tag (marks : List (BitVec 8) → Bool) (mine : Nat → Bool) (byte : Nat → BitVec 8) (x : Nat) (l : LineMeta) {i : Nat}
    (hi : i < 8) :
    (sweptLine marks mine byte x l).tags.getLsbD i =
      (l.tags.getLsbD i && !(mine x && marks ((span (x * 128 + i * 16) 16).map byte))) := by
  unfold sweptLine
  cases hm : mine x
  · rw [if_neg Bool.false_ne_true, Bool.false_and, Bool.not_false, Bool.and_true]
  · rw [if_pos rfl, Bool.true_and]
    exact getLsbD_clearsMarked (fun i => marks ((span (x * 128 + i * 16) 16).map byte)) l.tags 8 hi hi

theorem sweepTags_eq (marks : List (BitVec 8) → Bool) (mine : Nat → Bool) (byte : Nat → BitVec 8) (m : FMap LineMeta) :
    sweepTags marks mine byte m = (m.mapVals (sweptLine marks mine byte)).keep fun _ l => l != LineMeta.clear := rfl

section Tags

variable {marks : List (BitVec 8) → Bool} {mine : Nat → Bool} {byte : Nat → BitVec 8} {m : FMap LineMeta} {x i : Nat} (hi : i < 8)

include hi

/-- No granule that the walk has passed is tagged and marked. -/
theorem sweepTags_marked (h : ((sweepTags marks mine byte m).get LineMeta.clear x).tags.getLsbD i = true) (hx : mine x = true) :
    marks ((span (x * 128 + i * 16) 16).map byte) = false := by
  rw [sweepTags_eq, FMap.get] at h
  cases hf : FMap.find? ((m.mapVals (sweptLine marks mine byte)).keep fun _ l => l != LineMeta.clear) x with
  | none =>
    rw [hf] at h
    exact absurd h (by simp [LineMeta.clear])
  | some l =>
    obtain ⟨l0, -, rfl⟩ := FMap.mem_of_find?_keep_mapVals hf
    rw [hf, Option.getD_some, sweptLine_tag _ _ _ _ _ hi, hx] at h
    simpa using (Bool.and_eq_true_iff.mp h).2

/-- A tag stays where the walk does not pass, or finds nothing marked. -/
theorem sweepTags_kept (h : (m.get LineMeta.clear x).tags.getLsbD i = true)
    (hkept : marks ((span (x * 128 + i * 16) 16).map byte) = false ∨ mine x = false) :
    ((sweepTags marks mine byte m).get LineMeta.clear x).tags.getLsbD i = true := by
  cases hf : m.find? x with
  | none =>
    rw [FMap.get, hf] at h
    exact absurd h (by simp [LineMeta.clear])
  | some l =>
    rw [FMap.get, hf, Option.getD_some] at h
    have htag : (sweptLine marks mine byte x l).tags.getLsbD i = true := by
      rw [sweptLine_tag _ _ _ _ _ hi, h]
      rcases hkept with hm | hm <;> simp [hm]
    have hlisted : (sweptLine marks mine byte x l != LineMeta.clear) = true := by
      refine bne_iff_ne.mpr fun hclear => ?_
      rw [hclear] at htag
      exact absurd htag (by simp [LineMeta.clear])
    have hfound : FMap.find? (m.mapVals (sweptLine marks mine byte)) x = some (sweptLine marks mine byte x l) := by
      rw [FMap.find?_mapVals, hf]
      rfl
    rw [sweepTags_eq, FMap.get, FMap.find?_keep hfound hlisted]
    exact htag

end Tags

/-- A scratchpad granule's tag after the walk. -/
theorem sweepSpad_get (marks : List (BitVec 8) → Bool) (mine : Nat → Bool) (byte : Nat → BitVec 8) (m : FMap Bool) (g : Nat) :
    (sweepSpad marks mine byte m).get false g = (m.get false g && !(mine (g / 2 ^ 20) && marks ((span (g * 16) 16).map byte))) := by
  unfold sweepSpad FMap.get FMap.keep
  rw [FMap.find?_filterKey fun g => !(mine (g / 2 ^ 20) && marks ((span (g * 16) 16).map byte))]
  split
  · rename_i h
    rw [h, Bool.and_true]
  · rename_i h
    rw [Bool.not_eq_true] at h
    rw [h, Bool.and_false]
    rfl

/-! ## Capabilities in registers, R181 -/

/-- The capability that a walk reads in a lane of a crew's rows. -/
def sweptBytes (rows : FMap Row) (k l : Nat) : List (BitVec 8) :=
  (span 0 4).flatMap fun i =>
    leBytes 4 ((((rows.find? (k / 8 * 32 + 4 * (k % 8) + i)).map fun r => r.vals.get 0 l)).getD 0 : BitVec 32).toNat

/-- The valid lanes of a capability group once a walk has passed it. -/
def sweptValid (marks : List (BitVec 8) → Bool) (mine : Nat → Bool) (rows : FMap Row) (k : Nat) (v : BitVec 32) : BitVec 32 :=
  if mine (k / 8 / 512) then
    (span 0 32).foldl (fun v l => if v.getLsbD l && marks (sweptBytes rows k l) then setBit v l false else v) v
  else v

theorem sweepValid_eq (marks : List (BitVec 8) → Bool) (mine : Nat → Bool) (rows : FMap Row) (m : FMap (BitVec 32)) :
    sweepValid marks mine rows m = (m.mapVals (sweptValid marks mine rows)).keep fun _ v => v != 0 := rfl

/-- No lane of a group that the walk has passed is valid and marked. -/
theorem sweepValid_marked {marks : List (BitVec 8) → Bool} {mine : Nat → Bool} {rows : FMap Row} {m : FMap (BitVec 32)} {k l : Nat} (hl : l < 32)
    (h : ((sweepValid marks mine rows m).get 0 k).getLsbD l = true) (hk : mine (k / 8 / 512) = true) : marks (sweptBytes rows k l) = false := by
  rw [sweepValid_eq, FMap.get] at h
  cases hf : FMap.find? ((m.mapVals (sweptValid marks mine rows)).keep fun _ v => v != 0) k with
  | none =>
    rw [hf] at h
    exact absurd h (by simp)
  | some v =>
    obtain ⟨v0, -, rfl⟩ := FMap.mem_of_find?_keep_mapVals hf
    rw [hf, Option.getD_some, sweptValid, if_pos hk,
      getLsbD_clearsMarked (fun l => marks (sweptBytes rows k l)) v0 32 hl hl] at h
    simpa using (Bool.and_eq_true_iff.mp h).2

/-- A lane whose register is tagged and waits for nothing is live: it reads what its row holds. -/
theorem reg_of_tagged {s : State} {t v : Nat} (hp : (s.pending t v).isEmpty = true) (htag : (s.tagOf t v).1 = 11) :
    s.reg t v = ((s.rows.find? (crewOf t * 32 + v)).map fun r => r.vals.get 0 (laneOf t)).getD 0 := by
  have hnil : s.pending t v = [] := List.isEmpty_iff.mp hp
  unfold tagOf at htag
  unfold reg
  rw [hnil] at htag ⊢
  dsimp only at htag ⊢
  split at htag
  · rename_i hlive
    rw [if_pos hlive]
    unfold row
    rw [FMap.get.eq_1 Row.empty]
    cases s.rows.find? (crewOf t * 32 + v) <;> rfl
  · exact absurd htag (by decide)

/-- The number that four registers' bytes hold, least first. -/
theorem leNat_words (a b c d : BitVec 32) :
    leNat (leBytes 4 a.toNat ++ (leBytes 4 b.toNat ++ (leBytes 4 c.toNat ++ (leBytes 4 d.toNat ++ [])))) = (d ++ c ++ b ++ a).toNat := by
  have hword (x : BitVec 32) (bs : List (BitVec 8)) : leNat (leBytes 4 x.toNat ++ bs) = x.toNat + 2 ^ 32 * leNat bs := by
    have := x.isLt
    simp only [leBytes, List.cons_append, List.nil_append, leNat, BitVec.toNat_ofNat]
    omega
  have hcat {n : Nat} (x : BitVec n) (y : BitVec 32) : (x ++ y).toNat = y.toNat + 2 ^ 32 * x.toNat := by
    rw [BitVec.toNat_append, Nat.shiftLeft_eq, Nat.mul_comm, Nat.add_comm, ← Nat.two_pow_add_eq_or_of_lt y.isLt, Nat.add_comm]
  rw [hword, hword, hword, hword, hcat, hcat, hcat]
  rfl

/-- The bytes that the walk reads are those of the lane's capability, where it is valid. -/
theorem sweptBytes_capGroup {s : State} {t k : Nat} (hk : k < 8)
    (h : ∀ v ∈ span (4 * k) 4, (s.pending t v).isEmpty = true ∧ (s.tagOf t v).1 = 11) :
    leNat (sweptBytes s.rows (crewOf t * 8 + k) (laneOf t)) = (s.capGroup t k).bits.toNat := by
  have hcrew : (crewOf t * 8 + k) / 8 = crewOf t := by omega
  have hgroup : (crewOf t * 8 + k) % 8 = k := by omega
  have hreg (i : Nat) (hi : i < 4) :
      ((s.rows.find? (crewOf t * 32 + 4 * k + i)).map fun r => r.vals.get 0 (laneOf t)).getD 0 = s.reg t (4 * k + i) := by
    obtain ⟨hp, htag⟩ := h (4 * k + i) (mem_span.mpr ⟨by omega, by omega⟩)
    rw [reg_of_tagged hp htag, Nat.add_assoc]
  unfold sweptBytes capGroup
  rw [hcrew, hgroup]
  simp only [span, List.flatMap_cons, List.flatMap_nil]
  rw [hreg 0 (by decide), hreg 1 (by decide), hreg 2 (by decide), hreg 3 (by decide)]
  exact leNat_words _ _ _ _

/-- Whether a sweep marks the capability that bytes hold, by its KIND and BASE. -/
theorem marksCap_eq (s : State) (w : Nat) {bs : List (BitVec 8)} {c : Cap} (h : leNat bs = c.bits.toNat) :
    s.marksCap w bs = (c.kind != 1 && s.marked w c.base) := by
  have hkind : leNat bs / 2 ^ 120 % 16 = c.kind := by
    rw [h, Cap.kind, BitVec.extractLsb'_toNat, Nat.shiftRight_eq_div_pow]
  have hbase : capBaseOf bs = c.base := by
    rw [capBaseOf, h, Cap.base, BitVec.extractLsb'_toNat, Nat.shiftRight_eq_div_pow]
  rw [marksCap, hkind, hbase]

/-- Once the walk has passed a world's registers, none of its valid capabilities but LOCAL ones is marked. -/
theorem capValid_swept {s s' : State} {w t k : Nat} (hrows : s'.rows = s.rows)
    (hvalid : s'.valid = sweepValid (s.marksCap w) (fun g => s.gangWorld g == w) s.rows s.valid) (hk : k < 8) (hw : s.worldOf t = w)
    (h : s'.capValid t k = true) (hkind : (s.capGroup t k).kind ≠ 1) : s.marked w (s.capGroup t k).base = false := by
  have hpending (v : Nat) : s'.pending t v = s.pending t v := by rw [pending, row, hrows, pending, row]
  have htag (v : Nat) : s'.tagOf t v = s.tagOf t v := by rw [tagOf, hpending, row, hrows, tagOf, row]
  unfold capValid at h
  obtain ⟨h, -⟩ := Bool.and_eq_true_iff.mp h
  obtain ⟨hbit, htags⟩ := Bool.and_eq_true_iff.mp h
  have htagged : ∀ v ∈ span (4 * k) 4, (s.pending t v).isEmpty = true ∧ (s.tagOf t v).1 = 11 := fun v hv => by
    have hone := List.all_eq_true.mp htags v hv
    rw [hpending, htag] at hone
    exact (Bool.and_eq_true_iff.mp hone).imp_right beq_iff_eq.mp
  have hmine : (s.gangWorld ((crewOf t * 8 + k) / 8 / 512) == w) = true := by
    have hgang : (crewOf t * 8 + k) / 8 / 512 = gangOf t := by unfold crewOf gangOf; omega
    rw [hgang]
    exact beq_iff_eq.mpr hw
  rw [validBit, hvalid] at hbit
  have hmarks := sweepValid_marked (l := laneOf t) (Nat.mod_lt t (by decide)) hbit hmine
  rw [marksCap_eq s w (sweptBytes_capGroup hk htagged), bne_iff_ne.mpr hkind, Bool.true_and] at hmarks
  exact hmarks

/-! ## What the walk passes, R181 -/

/-- Whether a walk for a world passes a line: its own memory, its snapshot area, and frames that are still to be swept. -/
def walksLine (s : State) (w x : Nat) : Bool :=
  s.listed w (x * 128) || (((s.snaps.find? w).map (·.frames)).getD []).contains (x / 512) || s.unswept.contains (x / 512)

theorem walksLine_iff (s : State) (w x : Nat) : s.walksLine w x = true ↔
    s.listed w (x * 128) = true ∨ x / 512 ∈ ((s.snaps.find? w).map (·.frames)).getD [] ∨ x / 512 ∈ s.unswept := by
  unfold walksLine
  rw [Bool.or_eq_true, Bool.or_eq_true, List.contains_iff_mem, List.contains_iff_mem, or_assoc]

theorem sweepWalk_lineMeta (s : State) (w x : Nat) :
    (s.sweepWalk w).lineMeta x = (sweepTags (s.marksCap w) (s.walksLine w) s.homeByte s.meta_).get LineMeta.clear x := rfl

theorem sweepWalk_spadTag (s : State) (w : Nat) :
    (s.sweepWalk w).spadTag = sweepSpad (s.marksCap w) (fun g => s.gangWorld g == w) (s.spad.get 0) s.spadTag := rfl

theorem sweepWalk_valid (s : State) (w : Nat) :
    (s.sweepWalk w).valid = sweepValid (s.marksCap w) (fun g => s.gangWorld g == w) s.rows s.valid := rfl

end State

theorem exec_revocationWalk {s : State} {w : Nat} {r : Sweep} (h : s.sweeps.find? w = some r) :
    exec (.revocationWalk w) s = .next { s.sweepWalk w with sweeps := s.sweeps.put w { r with walked := true } } := by
  have hrun : exec (.revocationWalk w) s = execRevocationWalk w s := rfl
  rw [hrun, execRevocationWalk, h]

namespace State

/-! ## A service event, R400 -/

/-- The threads that an event of a die wakes. -/
def haltedOn (s : State) (die : Nat) : List Nat :=
  (s.threads.filter fun th => th.2.stat == .halted && s.coreOf th.1 / 96 == die).map (·.1)

/-- A halted thread that goes on: it has seen the event, and its next run begins after its `halt`. -/
def wakened (s : State) (n t : Nat) (h : Thread) : Thread := { h with seen := n }.goOn true s.clock ((s.thread t).pc + 4)

/-- Listed threads that an event wakes go on one by one, each as the state before the event says. -/
theorem foldl_wakes {s : State} (die n : Nat) (ths : List (Nat × Thread)) (m : State) (hgangs : m.gangs = s.gangs) (hclock : m.clock = s.clock)
    (hex : ∀ th ∈ ths, (m.threads.find? th.1).isSome = true) (hgo : ∀ th ∈ ths, th.2.stat = .halted → m.goesOn th.1 = true)
    (hrec : ∀ th ∈ ths, s.thread th.1 = th.2) :
    ths.foldl (fun m th =>
      if th.2.stat == .halted && m.coreOf th.1 / 96 == die then
        (m.updThread th.1 fun h => { h with seen := n }).boundary th.1 (th.2.pc + 4)
      else m) m =
    m.placeAll ((ths.filter fun th => th.2.stat == .halted && s.coreOf th.1 / 96 == die).map (·.1)) (s.wakened n) := by
  induction ths generalizing m with
  | nil => rfl
  | cons th ths ih =>
    have hcore : m.coreOf th.1 = s.coreOf th.1 := by rw [coreOf, hgangs, coreOf]
    rw [List.foldl_cons, hcore, List.filter_cons]
    split
    · rename_i hwake
      have hhalted : th.2.stat = .halted := beq_iff_eq.mp (Bool.and_eq_true_iff.mp hwake).1
      have hone : (m.updThread th.1 fun h => { h with seen := n }).boundary th.1 (th.2.pc + 4) = m.updThread th.1 (s.wakened n th.1) := by
        have hseen := goesOn_updThread th.1 (f := fun h => { h with seen := n }) (hex th (by simp)) fun _ => rfl
        rw [boundary_goesOn _ (hseen.trans (hgo th (by simp) hhalted)), updThread_comp]
        unfold wakened
        rw [hrec th (by simp), ← hclock]
        rfl
      have hwakes := wake_onlyWakes n (th.2.pc + 4) (hex th (by simp)) (hgo th (by simp) hhalted)
      rw [List.map_cons, placeAll_cons, ← hone]
      refine ih _ ?_ ?_ (fun x hx => ?_) (fun x hx hh => ?_) fun x hx => hrec x (by simp [hx])
      · rw [hone]; exact hgangs
      · rw [hone]; exact hclock
      · exact (hwakes.there x.1).trans (hex x (by simp [hx]))
      · exact (hwakes.goes x.1).trans (hgo x (by simp [hx]) hh)
    · exact ih m hgangs hclock (fun x hx => hex x (by simp [hx])) (fun x hx hh => hgo x (by simp [hx]) hh) fun x hx => hrec x (by simp [hx])

/-- A listed thread is the one that is found, where keys rise. -/
theorem thread_of_mem {s : State} (hrising : FMap.rising none s.threads = true) {th : Nat × Thread} (h : th ∈ s.threads) :
    s.thread th.1 = th.2 := by
  rw [thread, FMap.get, FMap.find?_of_mem hrising h, Option.getD_some]

theorem haltedOn_nodup {s : State} (hrising : FMap.rising none s.threads = true) (die : Nat) : (s.haltedOn die).Nodup :=
  (FMap.rising_nodup hrising).sublist (List.filter_sublist.map _)

theorem mem_haltedOn {s : State} (hrising : FMap.rising none s.threads = true) (die t : Nat) :
    t ∈ s.haltedOn die ↔ (s.thread t).stat = .halted ∧ s.coreOf t / 96 = die := by
  unfold haltedOn
  rw [List.mem_map]
  constructor
  · rintro ⟨th, hth, rfl⟩
    obtain ⟨hlisted, hwake⟩ := List.mem_filter.mp hth
    rw [thread_of_mem hrising hlisted]
    exact (Bool.and_eq_true_iff.mp hwake).imp beq_iff_eq.mp beq_iff_eq.mp
  · rintro ⟨hhalted, hcore⟩
    obtain ⟨h, hfind⟩ := Option.isSome_iff_exists.mp (isSome_of_stat (s := s) (t := t) (by rw [hhalted]; decide))
    have hthread : s.thread t = h := by rw [thread, FMap.get, hfind, Option.getD_some]
    rw [hthread] at hhalted
    refine ⟨(t, h), List.mem_filter.mpr ⟨FMap.mem_of_find? hfind, ?_⟩, rfl⟩
    exact Bool.and_eq_true_iff.mpr ⟨beq_iff_eq.mpr hhalted, beq_iff_eq.mpr hcore⟩

/-- A service event where every halted thread goes on: its number is the next one, and the halted threads of its die go on. -/
theorem serviceEvent_placeAll {s : State} (die : Nat) (hrising : FMap.rising none s.threads = true)
    (hgo : ∀ th ∈ s.threads, th.2.stat = .halted → s.goesOn th.1 = true) :
    s.serviceEvent die = { s with regs := { s.regs with evtSeq := s.regs.evtSeq.put die (s.lastEvent + 1) } }.placeAll (s.haltedOn die)
      (s.wakened (s.lastEvent + 1)) :=
  foldl_wakes die (s.lastEvent + 1) s.threads _ rfl rfl (fun _ hth => isSome_find?_of_mem hth) hgo fun _ hth => thread_of_mem hrising hth

/-! ## Events that may stop or end what they wake, R381 -/

/-- What a sweep's report is read from: the home slices, the registers, the sweeps and the durable checkpoints are as before. -/
structure KeepsReport (s t : State) : Prop where
  mem : t.mem = s.mem
  regs : t.regs = s.regs
  sweeps : t.sweeps = s.sweeps
  durable : t.durable = s.durable

theorem KeepsReport.refl (s : State) : KeepsReport s s := ⟨rfl, rfl, rfl, rfl⟩

theorem KeepsReport.trans {s t u : State} (h : KeepsReport s t) (k : KeepsReport t u) : KeepsReport s u :=
  ⟨k.mem.trans h.mem, k.regs.trans h.regs, k.sweeps.trans h.sweeps, k.durable.trans h.durable⟩

theorem KeepsReport.foldl {α : Type} (g : State → α → State) (h : ∀ s x, KeepsReport s (g s x)) (xs : List α) (s : State) :
    KeepsReport s (xs.foldl g s) := by
  induction xs generalizing s with
  | nil => exact .refl s
  | cons x xs ih => exact (h s x).trans (ih _)

theorem killGang_keepsReport (s : State) (gang : Nat) : KeepsReport s (s.killGang gang) := by
  obtain ⟨s0, batches, fetches, f, h0, h⟩ := killGang_cases s gang
  have hcharged : KeepsReport s s0 := by
    rcases h0 with rfl | ⟨n, rfl⟩
    · exact .refl s0
    · rcases charge_cases s gang n with h | ⟨q, f, h⟩
      · rw [h]; exact .refl s
      · rw [h]; exact ⟨rfl, rfl, rfl, rfl⟩
  have hfreed : KeepsReport s0 (s0.freeGang gang) := ⟨rfl, rfl, rfl, rfl⟩
  have haborted : KeepsReport (s0.freeGang gang) ((s0.freeGang gang).abortBatches fun t => gangOf t == gang) := ⟨rfl, rfl, rfl, rfl⟩
  have hdropped (m : State) (p : Op → Bool) : KeepsReport m (m.dropOps p) := ⟨rfl, rfl, rfl, rfl⟩
  have hstopped := (hcharged.trans (hfreed.trans haborted)).trans (hdropped _ fun o => gangOf o.thread == gang && dies o)
  rw [h]
  exact hstopped.trans ⟨rfl, rfl, rfl, rfl⟩

theorem stopGang_keepsReport (s : State) (g : Nat) : KeepsReport s (s.stopGang g) := by
  rcases stopGang_cases s g with h | h
  · rw [h]; exact .refl s
  · rw [h]; exact killGang_keepsReport s g

theorem endTask_keepsReport (s : State) (id : Nat) (code : EndCode) (why : Option (BitVec 32 × BitVec 32 × BitVec 32)) :
    KeepsReport s (s.endTask id code why) := by
  rcases endTask_cases s id code why with ⟨h, -⟩ | ⟨k, s1, queues, -, -, h1, h⟩
  · rw [h]; exact .refl s
  · have hcoded : KeepsReport s s1 := by
      rcases h1 with ⟨-, rfl⟩ | ⟨-, rfl⟩
      · exact .refl s1
      · exact ⟨rfl, rfl, rfl, rfl⟩
    have hstopped := KeepsReport.foldl stopGang stopGang_keepsReport k.gangs s1
    rw [h]
    exact (hcoded.trans hstopped).trans ⟨rfl, rfl, rfl, rfl⟩

theorem boundary_keepsReport (s : State) (t pc : Nat) : KeepsReport s (s.boundary t pc) := by
  unfold boundary
  split
  · unfold stopThread
    split
    · split
      · exact .refl s
      · split
        · exact ⟨rfl, rfl, rfl, rfl⟩
        · exact endTask_keepsReport s _ _ _
    · exact ⟨rfl, rfl, rfl, rfl⟩
  · exact ⟨rfl, rfl, rfl, rfl⟩

theorem serviceEvent_keepsReport (s : State) (die : Nat) :
    KeepsReport { s with regs := { s.regs with evtSeq := s.regs.evtSeq.put die (s.lastEvent + 1) } } (s.serviceEvent die) := by
  refine KeepsReport.foldl _ (fun m th => ?_) s.threads _
  split
  · have hseen : KeepsReport m (m.updThread th.1 fun h => { h with seen := s.lastEvent + 1 }) := ⟨rfl, rfl, rfl, rfl⟩
    exact hseen.trans (boundary_keepsReport _ _ _)
  · exact .refl m

/-! ## The report of a sweep, R197, R216, R401 -/

theorem OnlyCaches.mayUse {s t : State} (h : OnlyCaches s t) (w pa : Nat) : t.mayUse w pa = s.mayUse w pa := by
  rw [h]; rfl

theorem reportWord_onlyCaches (s : State) (pa v : Nat) : OnlyCaches s (s.reportWord pa v) := by
  unfold reportWord
  split
  · exact homeWrite_onlyCaches s _ _ _
  · exact .refl s

/-- A word of a report, where nothing is aliased: it is in memory if world 0 may use its frame, and every other byte is as it was. -/
theorem reportWord_noAlias {s : State} (h : s.alias_ = []) {pa : Nat} (v : Nat) (hpa : pa % 4 = 0) :
    (s.reportWord pa v).alias_ = [] ∧
    ∀ a, (s.reportWord pa v).homeByte a =
      if s.mayUse 0 pa = true ∧ pa ≤ a ∧ a < pa + 4 then (leBytes 4 v).getD (a - pa) 0 else s.homeByte a := by
  unfold reportWord
  split
  · rename_i huse
    have hlen : (leBytes 4 v).length = 4 := length_leBytes 4 v
    obtain ⟨halias, hbyte, -⟩ := homeWrite_noAlias h (pa := pa) (bs := leBytes 4 v) (by omega) (by omega) false
    refine ⟨halias, fun a => ?_⟩
    rw [hbyte, hlen]
    simp only [huse, true_and]
  · rename_i huse
    exact ⟨h, fun a => (if_neg fun h => huse h.1).symm⟩

theorem sweepReport_keepsReport (s : State) (pa die restarts state_ : Nat) :
    let s2 := (s.reportWord (pa + 12) restarts).reportWord (pa + 8) state_
    KeepsReport { s with mem := s2.mem, regs := { s.regs with evtSeq := s.regs.evtSeq.put die (s.lastEvent + 1) } }
      (s.sweepReport (pa, die) restarts state_) := by
  intro s2
  have hcaches : OnlyCaches s s2 := (reportWord_onlyCaches s _ _).trans (reportWord_onlyCaches _ _ _)
  have hregs : s2.regs = s.regs := by rw [hcaches]
  have hsweeps : s2.sweeps = s.sweeps := by rw [hcaches]
  have hdurable : s2.durable = s.durable := by rw [hcaches]
  have hlast : s2.lastEvent = s.lastEvent := by rw [lastEvent, hregs, lastEvent]
  have hevent := serviceEvent_keepsReport s2 die
  rw [hlast, hregs] at hevent
  exact ⟨hevent.mem, hevent.regs, hevent.sweeps.trans hsweeps, hevent.durable.trans hdurable⟩

/-- A sweep's report where nothing is aliased: its two words, where world 0 may use their frame, and no other byte. -/
theorem sweepReport_home {s : State} (h : s.alias_ = []) {pa : Nat} (die restarts state_ : Nat) (hpa : pa % 16 = 0) :
    (s.mayUse 0 (pa + 8) = true → (s.sweepReport (pa, die) restarts state_).homeNat (pa + 8) 4 = state_ % 2 ^ 32) ∧
    (s.mayUse 0 (pa + 12) = true → (s.sweepReport (pa, die) restarts state_).homeNat (pa + 12) 4 = restarts % 2 ^ 32) ∧
    ∀ a, a < pa + 8 ∨ pa + 16 ≤ a ∨ s.mayUse 0 (a / 4 * 4) = false →
      (s.sweepReport (pa, die) restarts state_).homeByte a = s.homeByte a := by
  have hmem := (sweepReport_keepsReport s pa die restarts state_).mem
  obtain ⟨halias, hfirst⟩ := reportWord_noAlias h (pa := pa + 12) restarts (by omega)
  obtain ⟨-, hsecond⟩ := reportWord_noAlias halias (pa := pa + 8) state_ (by omega)
  have hbyte (a : Nat) : (s.sweepReport (pa, die) restarts state_).homeByte a =
      if s.mayUse 0 (pa + 8) = true ∧ pa + 8 ≤ a ∧ a < pa + 8 + 4 then (leBytes 4 state_).getD (a - (pa + 8)) 0
      else if s.mayUse 0 (pa + 12) = true ∧ pa + 12 ≤ a ∧ a < pa + 12 + 4 then (leBytes 4 restarts).getD (a - (pa + 12)) 0
      else s.homeByte a := by
    rw [← hfirst a, ← (reportWord_onlyCaches s (pa + 12) restarts).mayUse 0 (pa + 8), ← hsecond a]
    exact congrArg (FMap.get 0 · a) hmem
  refine ⟨fun huse => ?_, fun huse => ?_, fun a ha => ?_⟩
  · rw [homeNat_written (length_leBytes 4 state_) fun a hlo hhi => by rw [hbyte, if_pos ⟨huse, hlo, hhi⟩]]
    exact leNat_leBytes 4 state_
  · rw [homeNat_written (length_leBytes 4 restarts) fun a hlo hhi => by rw [hbyte, if_neg (by omega), if_pos ⟨huse, hlo, hhi⟩]]
    exact leNat_leBytes 4 restarts
  · have hunused {p : Nat} (hp : p % 4 = 0) (hin : pa + 8 ≤ p ∧ p < pa + 16) : ¬ (s.mayUse 0 p = true ∧ p ≤ a ∧ a < p + 4) := by
      rintro ⟨huse, hlo, hhi⟩
      have hword : a / 4 * 4 = p := by omega
      rcases ha with h | h | h
      · omega
      · omega
      · rw [hword, huse] at h
        exact absurd h (by decide)
    rw [hbyte, if_neg (hunused (by omega) (by omega)), if_neg (hunused (by omega) (by omega))]

end State

theorem exec_sweepComplete {s : State} {w pa die : Nat} {r : Sweep} (h : s.sweeps.find? w = some r) (hwalked : r.walked = true)
    (hdescs : r.descs = [(pa, die)]) (hheld : s.reportHeld r.descs = false) :
    let s1 := s.sweepReport (pa, die) r.restarts 2
    let keep (p : Snapshot) : Snapshot := { p with revoked := p.revoked ++ r.ranges }
    exec (.sweepComplete w) s = .next { s1 with
      sweeps := s1.sweeps.erase w, snaps := s1.snaps.adjust w keep, durable := s1.durable.adjust w keep } := by
  have hrun : exec (.sweepComplete w) s = execSweepComplete w s := rfl
  rw [hrun, execSweepComplete, h]
  dsimp only
  rw [hwalked, hheld, hdescs]
  rfl

/-- Settles O53: the walk by what it leaves of each tag and each valid lane, the report by its two words, and a service event by the halted
threads that it places. -/
theorem sweepsRevoke : Obligations.SweepsRevoke := by
  unfold Obligations.SweepsRevoke
  refine ⟨?walk, ?complete, ?doorbell⟩
  case walk =>
    intro s w r hsweep
    refine ⟨_, exec_revocationWalk hsweep, ⟨rfl, rfl, rfl, rfl⟩, rfl, rfl, FMap.find?_put_self _ _ _, fun x i hi => ⟨?_, ?_⟩, fun g => ?_,
      fun t k hk hw hvalid hkind => ?_⟩
    · exact fun htag hwalks => State.sweepTags_marked hi htag ((s.walksLine_iff w x).mpr hwalks)
    · refine fun htag hkept => State.sweepTags_kept hi htag (hkept.imp_right fun hno => ?_)
      exact Bool.eq_false_iff.mpr fun hwalks => hno ((s.walksLine_iff w x).mp hwalks)
    · exact (congrArg (FMap.get false · g) (s.sweepWalk_spadTag w)).trans (State.sweepSpad_get _ _ _ _ g)
    · refine State.capValid_swept ?_ ?_ hk hw hvalid hkind
      · rfl
      · exact s.sweepWalk_valid w
  case complete =>
    intro s w pa die r hsweep hwalked hdescs halias hheld hpa
    have hreport := s.sweepReport_keepsReport pa die r.restarts 2
    obtain ⟨hstate, hrestarts, hother⟩ := State.sweepReport_home halias die r.restarts 2 hpa
    refine ⟨_, exec_sweepComplete hsweep hwalked hdescs hheld, ?_, hstate, hrestarts, ?_, hother, ?_⟩
    · exact (FMap.find?_erase _ _ _).trans (if_pos rfl)
    · refine (congrArg (fun regs : DevRegs => regs.evtSeq.get 0 die) hreport.regs).trans ?_
      exact (FMap.get_put _ _ _ _ _).trans (if_pos rfl)
    · dsimp only
      rw [hreport.durable, FMap.find?_adjust, if_pos rfl, Option.map_map]
      rfl
  case doorbell =>
    intro s die hlists hgo
    have hrising : FMap.rising none s.threads = true := (Bool.and_eq_true_iff.mp hlists).1
    have hevent := State.serviceEvent_placeAll die hrising hgo
    refine ⟨s.serviceEvent die, rfl, ?_, fun d => ?_, fun t => ?_⟩
    · rw [hevent, State.placeAll_threads]
    · rw [hevent, State.placeAll_threads]
      exact FMap.get_put _ _ _ _ _
    · rw [hevent, State.thread_placeAll (State.haltedOn_nodup hrising die) fun u hu => ?_]
      · simp only [State.mem_haltedOn hrising]
        rfl
      · exact State.isSome_of_stat (s := s) (by rw [((State.mem_haltedOn hrising die u).mp hu).1]; decide)

end Sys2Proof.Machine

/-! SUPPORT. Writes of any length at the home slices where nothing is aliased, slots that are taken from a queue's ring, and accesses of the host
(R165, R171, R195, R205, R262, R414, R415, R424). -/

namespace Sys2Proof.Machine

namespace State

/-! ## Home slices where nothing is aliased: lines and tags, R171, R242 -/

/-- Nothing but the home slices and their metadata differs. -/
def OnlyHome (s t : State) : Prop := t = { s with mem := t.mem, meta_ := t.meta_ }

theorem OnlyHome.refl (s : State) : OnlyHome s s := rfl

theorem OnlyHome.trans {s t u : State} (h : OnlyHome s t) (k : OnlyHome t u) : OnlyHome s u := by
  unfold OnlyHome at h k ⊢
  rw [h] at k
  exact k

theorem OnlyHome.noAlias {s t : State} (h : OnlyHome s t) (halias : s.alias_ = []) : t.alias_ = [] := by
  rw [h]; exact halias

/-- Nothing but the home slices and the metadata of one line differs. -/
structure OnlyLine (s t : State) (x : Nat) : Prop where
  only : OnlyHome s t
  other : ∀ y, y ≠ x → t.lineMeta y = s.lineMeta y

theorem OnlyLine.refl (s : State) (x : Nat) : OnlyLine s s x := ⟨.refl s, fun _ _ => rfl⟩

theorem OnlyLine.trans {s t u : State} {x : Nat} (h : OnlyLine s t x) (k : OnlyLine t u x) : OnlyLine s u x :=
  ⟨h.only.trans k.only, fun y hy => (k.other y hy).trans (h.other y hy)⟩

theorem rawWrite_onlyLine (s : State) (pa x : Nat) (bs : List (BitVec 8)) : OnlyLine s (s.rawWrite pa bs) x := ⟨rfl, fun _ _ => rfl⟩

theorem setMeta_onlyLine (s : State) (x : Nat) (f : LineMeta → LineMeta) : OnlyLine s (s.setMeta x f) x :=
  ⟨rfl, fun y hy => (lineMeta_setMeta s x y f).trans (if_neg hy)⟩

theorem markLanded_noAlias {s : State} (h : s.alias_ = []) (x : Nat) : s.markLanded x = s := by
  have hnone : s.markLanded x = { s with alias_ := [] } := by
    unfold markLanded
    rw [h]
    rfl
  rw [hnone, ← h]

theorem landLine_onlyLine {s : State} (h : s.alias_ = []) (x : Nat) : OnlyLine s (s.landLine x) x := by
  have hland : s.landLine x = s.putLanded x (s.readAliased x) := by
    unfold landLine
    rw [landers_noAlias h]
    rfl
  rw [hland, putLanded, markLanded_noAlias]
  · exact (rawWrite_onlyLine s _ x _).trans (setMeta_onlyLine _ x _)
  · exact h

theorem beforeWrite_onlyLine {s : State} (h : s.alias_ = []) (x : Nat) : OnlyLine s (s.beforeWrite x) x := by
  unfold beforeWrite
  extract_lets s1
  have h1 : OnlyLine s s1 x := by
    unfold s1
    split
    · exact landLine_onlyLine h x
    · exact .refl s x
  split
  · rw [dependents_noAlias (h1.only.noAlias h)]
    exact h1.trans (setMeta_onlyLine s1 x _)
  · exact h1

/-- The tags of a line after some of its bytes are written: a granule of which a byte is written is tagged where the write is a tagged one of
all its bytes. -/
theorem tagsAfter_getLsbD (t : BitVec 8) (o n : Nat) (tag : Bool) {i : Nat} (hi : i < 8) : (tagsAfter t o n tag).getLsbD i =
    if o < i * 16 + 16 ∧ i * 16 < o + n then tag && decide (o ≤ i * 16) && decide (i * 16 + 16 ≤ o + n) else t.getLsbD i := by
  unfold tagsAfter
  rw [getLsbD_foldl_bits (φ := fun i b =>
      if o < i * 16 + 16 ∧ i * 16 < o + n then tag && decide (o ≤ i * 16) && decide (i * 16 + 16 ≤ o + n) else b) _ (span_nodup 0 8) t hi,
    if_pos (mem_span.mpr ⟨Nat.zero_le i, by omega⟩)]
  intro t j k hk
  split
  · exact setBit_getLsbD _ _ _ _ hk
  · split
    · rename_i e; rw [e]
    · rfl

/-- A write within one line. -/
theorem homeWrite1_noAlias {s : State} (h : s.alias_ = []) (pa : Nat) (bs : List (BitVec 8)) (tag : Bool) :
    OnlyLine s (s.homeWrite1 pa bs tag) (pa / 128) ∧
    (∀ a, (s.homeWrite1 pa bs tag).homeByte a = if pa ≤ a ∧ a < pa + bs.length then bs.getD (a - pa) 0 else s.homeByte a) ∧
    ∀ i, i < 8 → pa % 128 < i * 16 + 16 → i * 16 < pa % 128 + bs.length →
      ((s.homeWrite1 pa bs tag).lineMeta (pa / 128)).tags.getLsbD i =
        (tag && decide (pa % 128 ≤ i * 16) && decide (i * 16 + 16 ≤ pa % 128 + bs.length)) := by
  have hbefore := beforeWrite_onlyLine h (pa / 128)
  refine ⟨(hbefore.trans (rawWrite_onlyLine _ pa _ bs)).trans ?_, fun a => ?_, fun i hi hlo hhi => ?_⟩
  · unfold homeWrite1
    exact setMeta_onlyLine _ _ _
  · rw [← (beforeWrite_sameHome h (pa / 128)).byte a]
    exact homeByte_rawWrite _ pa a bs
  · rw [homeWrite1, lineMeta_setMeta, if_pos rfl]
    dsimp only
    rw [tagsAfter_getLsbD _ _ _ _ hi, if_pos ⟨hlo, hhi⟩]

/-- What an untagged write of any length leaves: its bytes are there, their granules are untagged, and no line before it has changed. -/
structure Written (s t : State) (pa : Nat) (bs : List (BitVec 8)) : Prop where
  only : OnlyHome s t
  byte : ∀ a, t.homeByte a = if pa ≤ a ∧ a < pa + bs.length then bs.getD (a - pa) 0 else s.homeByte a
  untagged : ∀ a, pa ≤ a → a < pa + bs.length → (t.lineMeta (a / 128)).tags.getLsbD (a % 128 / 16) = false
  before : ∀ y, y < pa / 128 → t.lineMeta y = s.lineMeta y

theorem Written.nil (s : State) (pa : Nat) : Written s s pa [] :=
  ⟨.refl s, fun a => (if_neg (by simp)).symm, fun a hlo hhi => absurd hhi (by simpa using hlo), fun _ _ => rfl⟩

/-- A write up to the end of its line, and the rest of it after that. -/
theorem Written.cons {s t : State} (h : s.alias_ = []) {pa : Nat} {bs : List (BitVec 8)}
    (hrest : Written (s.homeWrite1 pa (bs.take (128 - pa % 128)) false) t (pa + (128 - pa % 128)) (bs.drop (128 - pa % 128))) :
    Written s t pa bs := by
  obtain ⟨k, hk⟩ : ∃ k, k = 128 - pa % 128 := ⟨_, rfl⟩
  rw [← hk] at hrest
  obtain ⟨hline, hbyte, htags⟩ := homeWrite1_noAlias h pa (bs.take k) false
  have htake : (bs.take k).length = min k bs.length := List.length_take
  have hdrop : (bs.drop k).length = bs.length - k := List.length_drop
  refine ⟨hline.only.trans hrest.only, fun a => ?_, fun a hlo hhi => ?_, fun y hy => ?_⟩
  · rw [hrest.byte, hbyte, htake, hdrop]
    by_cases hin : pa ≤ a ∧ a < pa + bs.length
    · rw [if_pos hin]
      by_cases hfirst : a < pa + k
      · rw [if_neg (by omega), if_pos (by omega), List.getD_eq_getElem?_getD, List.getElem?_take_of_lt (by omega),
          ← List.getD_eq_getElem?_getD]
      · rw [if_pos (by omega), List.getD_eq_getElem?_getD, List.getElem?_drop, ← List.getD_eq_getElem?_getD]
        congr 1
        omega
    · rw [if_neg hin, if_neg (by omega), if_neg (by omega)]
  · by_cases hfirst : a < pa + k
    · have hx : a / 128 = pa / 128 := by omega
      rw [hx, hrest.before (pa / 128) (by omega), htags (a % 128 / 16) (by omega) (by omega) (by omega), Bool.false_and, Bool.false_and]
    · exact hrest.untagged a (by omega) (by omega)
  · rw [hrest.before y (by omega)]
    exact hline.other y (by omega)

theorem foldl_pieces_written (n : Nat) {s : State} (h : s.alias_ = []) (pa : Nat) (bs : List (BitVec 8)) (hn : bs.length < n) :
    Written s ((pieces n pa bs).foldl (fun s p => s.homeWrite1 p.1 p.2 false) s) pa bs := by
  induction n generalizing s pa bs with
  | zero => exact absurd hn (Nat.not_lt_zero _)
  | succ n ih =>
    cases bs with
    | nil => exact .nil s pa
    | cons b bs =>
      refine .cons h (ih ((homeWrite1_noAlias h _ _ _).1.only.noAlias h) _ _ ?_)
      rw [List.length_drop]
      rw [List.length_cons] at hn ⊢
      omega

/-- An untagged write of any length where nothing is aliased. -/
theorem homeWrite_written {s : State} (h : s.alias_ = []) (pa : Nat) (bs : List (BitVec 8)) : Written s (s.homeWrite pa bs false) pa bs :=
  foldl_pieces_written _ h pa bs (Nat.lt_succ_self _)

/-! ## Granules that firmware mints, R165, R171, R415, R424 -/

/-- Whether the bits of a granule are minted for a world. -/
def mints (s : State) (w : Nat) (bits : BitVec 128) : Bool := s.mintable w bits && !s.marksCap w (leBytes 16 bits.toNat)

/-- The bits that stand in a granule, as they are read. -/
def granuleBits (s : State) (pa : Nat) : BitVec 128 := BitVec.ofNat 128 (leNat (s.homeRead pa 16).1)

theorem mintAt_eq (w : Nat) (s : State) (pa : Nat) : mintAt w s pa =
    if s.mints w (s.granuleBits pa) then s.homeWrite pa (leBytes 16 (s.granuleBits pa &&& ~~~BitVec.twoPow 128 119).toNat) true else s := rfl

theorem mintAt_onlyCaches (w : Nat) (s : State) (pa : Nat) : OnlyCaches s (mintAt w s pa) := by
  rw [mintAt_eq]
  split
  · exact homeWrite_onlyCaches s _ _ _
  · exact .refl s

theorem mintField_onlyCaches (w va : Nat) (s : State) (o : Nat) : OnlyCaches s (mintField w va s o) := by
  unfold mintField
  split
  · exact .refl s
  · split
    · exact mintAt_onlyCaches w s _
    · exact .refl s

theorem mintRecord_onlyCaches (s : State) (w va : Nat) (r : TaskRec) : OnlyCaches s (s.mintRecord w va r) :=
  OnlyCaches.foldl _ (mintField_onlyCaches w va) _ s

/-- A granule that is minted where nothing is aliased: it is tagged and holds its bits without PERM[7], and no other byte has changed. -/
theorem mintAt_minted {s : State} (h : s.alias_ = []) {w pa : Nat} (hpa : pa % 16 = 0) (hmints : s.mints w (s.granuleBits pa) = true) :
    OnlyHome s (mintAt w s pa) ∧ ((mintAt w s pa).lineMeta (pa / 128)).tags.getLsbD (pa % 128 / 16) = true ∧
    (mintAt w s pa).homeNat pa 16 = (s.granuleBits pa &&& ~~~BitVec.twoPow 128 119).toNat ∧
    ∀ a, a < pa ∨ pa + 16 ≤ a → (mintAt w s pa).homeByte a = s.homeByte a := by
  obtain ⟨bits, hbits⟩ : ∃ bits, bits = s.granuleBits pa &&& ~~~BitVec.twoPow 128 119 := ⟨_, rfl⟩
  have hlen : (leBytes 16 bits.toNat).length = 16 := length_leBytes 16 _
  have hmint : mintAt w s pa = s.homeWrite1 pa (leBytes 16 bits.toNat) true := by
    rw [mintAt_eq, if_pos hmints, ← hbits, homeWrite, pieces_oneLine (by omega), if_neg (by rw [← List.length_eq_zero_iff, hlen]; decide)]
    rfl
  obtain ⟨hline, hbyte, htags⟩ := homeWrite1_noAlias h pa (leBytes 16 bits.toNat) true
  rw [hmint, ← hbits]
  refine ⟨hline.only, ?_, ?_, fun a ha => ?_⟩
  · rw [htags (pa % 128 / 16) (by omega) (by omega) (by omega), hlen, decide_eq_true (by omega), decide_eq_true (by omega)]
    rfl
  · rw [homeNat_written hlen fun a hlo hhi => by rw [hbyte, if_pos ⟨hlo, by omega⟩], leNat_leBytes]
    exact Nat.mod_eq_of_lt bits.isLt
  · rw [hbyte, if_neg (by omega)]

/-! ## Queues and redirects, R241 -/

/-- What a byte is read as depends on no queue. -/
theorem aliasByte_queues (s : State) (qs : FMap Queue) (n pa : Nat) :
    State.aliasByte n { s with queues := qs } pa = State.aliasByte n s pa := by
  induction n generalizing pa with
  | zero => rfl
  | succ n ih =>
    have hsup : ({ s with queues := qs } : State).supplier pa = s.supplier pa := rfl
    unfold State.aliasByte
    rw [hsup]
    cases s.supplier pa with
    | none => rfl
    | some e =>
      have hmap : (e.srcsOf pa).map (State.aliasByte n { s with queues := qs }) = (e.srcsOf pa).map (State.aliasByte n s) :=
        List.map_congr_left fun a _ => ih a
      dsimp only
      rw [hmap, ih]

theorem homeRead_queues (s : State) (qs : FMap Queue) (pa n : Nat) : ({ s with queues := qs } : State).homeRead pa n = s.homeRead pa n := by
  have hbytes : (span pa n).map ({ s with queues := qs } : State).aliasRead = (span pa n).map s.aliasRead :=
    List.map_congr_left fun a _ => aliasByte_queues s qs _ a
  unfold homeRead
  rw [hbytes]
  rfl

theorem raiseHot_queues (s : State) (qs : FMap Queue) (x : Nat) :
    ({ s with queues := qs } : State).raiseHot x = { s.raiseHot x with queues := qs } := by
  have hmeta : (({ s with queues := qs } : State).lineMeta x).alias_ = (s.lineMeta x).alias_ := rfl
  unfold raiseHot
  rw [hmeta]
  split
  · rfl
  · rfl

theorem updQueue_put {s : State} {q : Nat} {x : Queue} (h : s.queues.find? q = some x) (f : Queue → Queue) :
    s.updQueue q f = { s with queues := s.queues.put q (f x) } := by
  unfold updQueue FMap.adjust
  rw [h]

/-! ## Slots that are taken, R414, R415 -/

/-- The number that stands in the next slot of a queue's ring. -/
def slotNat (s : State) (x : Queue) : Nat := leNat (s.homeRead (x.slotAt 0) 16).1

/-- A slot that its queue's world reads and has consumed. -/
def consumed (s : State) (q : Nat) (x : Queue) : State :=
  { s.raiseHot (x.slotAt 0 / 128) with queues := s.queues.put q { x with consumed := x.consumed + 1 } }

/-- A slot that is skipped and counted; its read may have raised HOT. -/
def skipped (s : State) (q : Nat) (x : Queue) (al : FMap AliasEntry) : State :=
  { s with alias_ := al, queues := s.queues.put q { x with consumed := x.consumed + 1, denied := x.denied + 1 } }

/-- The state from which a record is submitted: its reads have been counted and its capabilities minted. -/
def minted (s : State) (w slot : Nat) (r : TaskRec) : State := (s.recordHot w slot).mintRecord w slot r

section Slot

variable {s : State} {q : Nat} {x : Queue} (hq : s.queues.find? q = some x)

include hq

theorem updQueue_consumed : (s.raiseHot (x.slotAt 0 / 128)).updQueue q (fun q => { q with consumed := q.consumed + 1 }) = s.consumed q x := by
  have hqueues : (s.raiseHot (x.slotAt 0 / 128)).queues = s.queues := by rw [raiseHot_aliases]
  rw [updQueue_put (hqueues ▸ hq), hqueues]
  rfl

/-- A slot that names no record, or lies where the queue's world may not read it, is skipped and counted. -/
theorem takeSlot_skips (hbad : s.mayUse x.world (x.slotAt 0) = false ∨ 2 ^ 56 ≤ s.slotNat x ∨ s.slotNat x % 16 ≠ 0 ∨
      (s.consumed q x).readRecord x.world (s.slotNat x) = none) : ∃ al, takeSlot q s = s.skipped q x al := by
  have hskip {m : State} (al : FMap AliasEntry) (hm : m = { s with alias_ := al, queues := s.queues.put q { x with consumed := x.consumed + 1 } }) :
      m.updQueue q (fun q => { q with denied := q.denied + 1 }) = s.skipped q x al := by
    rw [hm, updQueue_put (x := { x with consumed := x.consumed + 1 }) (FMap.find?_put_self _ _ _)]
    dsimp only
    rw [FMap.put_put]
    rfl
  have hread : s.consumed q x = { s with
      alias_ := (s.raiseHot (x.slotAt 0 / 128)).alias_, queues := s.queues.put q { x with consumed := x.consumed + 1 } } := by
    rw [consumed, raiseHot_aliases]
  unfold slotNat at hbad
  unfold takeSlot
  rw [hq]
  dsimp only
  by_cases huse : s.mayUse x.world (x.slotAt 0) = true
  · rw [huse, if_pos rfl, updQueue_consumed hq]
    refine ⟨(s.raiseHot (x.slotAt 0 / 128)).alias_, ?_⟩
    split
    · exact hskip _ hread
    · rename_i hgood
      simp only [Bool.not_true, Bool.false_or, Bool.or_eq_true, decide_eq_true_eq, not_or] at hgood
      rcases hbad with h | h | h | h
      · exact absurd huse (by rw [h]; decide)
      · exact absurd h hgood.1
      · exact absurd h hgood.2
      · rw [h]
        exact hskip _ hread
  · rw [Bool.not_eq_true] at huse
    rw [huse, if_neg Bool.false_ne_true]
    exact ⟨s.alias_, hskip _ (updQueue_put hq _)⟩

/-- A slot that names a record that can be read submits it, with its capabilities minted. -/
theorem takeSlot_submits {r0 r : TaskRec} (huse : s.mayUse x.world (x.slotAt 0) = true) (hlow : s.slotNat x < 2 ^ 56)
    (haligned : s.slotNat x % 16 = 0) (hread : (s.consumed q x).readRecord x.world (s.slotNat x) = some r0)
    (hminted : ((s.consumed q x).minted x.world (s.slotNat x) r0).readRecord x.world (s.slotNat x) = some r) :
    takeSlot q s = (((s.consumed q x).minted x.world (s.slotNat x) r0).submit q (s.slotNat x) r r.prio).1 := by
  unfold slotNat at hlow haligned hread hminted ⊢
  unfold minted at hminted ⊢
  unfold takeSlot
  rw [hq]
  dsimp only
  rw [huse, if_pos rfl, updQueue_consumed hq, if_neg, hread]
  · dsimp only
    rw [hminted]
  · simp only [Bool.not_true, Bool.false_or, Bool.or_eq_true, decide_eq_true_eq, not_or]
    exact ⟨Nat.not_le.mpr hlow, not_not.mpr haligned⟩

end Slot

/-- A record that is submitted is the last of its queue. -/
theorem submit_queued {s : State} {q : Nat} {x : Queue} (hq : s.queues.find? q = some x) (va : Nat) (r : TaskRec) (cls : Nat) :
    ((s.submit q va r cls).1.tasks.find? s.nextId).map (fun k => (k.record, k.world, k.queue, k.cls, k.stage)) =
      some (r, x.world, q, cls, .queued) ∧
    ((s.submit q va r cls).1.queues.find? q).map (fun y => (y.tail, y.consumed, y.denied, y.waiting)) =
      some (x.tail, x.consumed, x.denied, x.waiting ++ [s.nextId]) := by
  have hentry : (s.entryHot x.world r).queues.find? q = some x := by rw [entryHot_aliases]; exact hq
  unfold submit
  rw [hq]
  dsimp only [updQueue]
  constructor
  · rw [FMap.find?_put_self]
    rfl
  · rw [FMap.find?_adjust, if_pos rfl, hentry]
    rfl

/-- Nothing but the home slices, the caches, redirects, the quotas of worlds, tasks, queues and the next number differs. -/
def OnlyTakes (s t : State) : Prop :=
  t = { s with
    mem := t.mem, meta_ := t.meta_, alias_ := t.alias_, worlds := t.worlds, cbytes := t.cbytes, cmeta := t.cmeta, frames := t.frames
    tasks := t.tasks, queues := t.queues, nextId := t.nextId }

theorem OnlyTakes.trans {s t u : State} (h : OnlyTakes s t) (k : OnlyTakes t u) : OnlyTakes s u := by
  unfold OnlyTakes at h k ⊢
  rw [h] at k
  exact k

theorem OnlyCaches.takes {s t : State} (h : OnlyCaches s t) : OnlyTakes s t := by
  rw [h]; rfl

theorem OnlySubmits.takes {s t : State} (h : OnlySubmits s t) : OnlyTakes s t := by
  rw [h]; rfl

theorem consumed_takes (s : State) (q : Nat) (x : Queue) : OnlyTakes s (s.consumed q x) := by
  rw [consumed, raiseHot_aliases]; rfl

theorem minted_takes (s : State) (w slot : Nat) (r : TaskRec) : OnlyTakes s (s.minted w slot r) :=
  (recordHot_onlySubmits s w slot).takes.trans (mintRecord_onlyCaches _ w slot r).takes

theorem minted_kept (s : State) (w slot : Nat) (r : TaskRec) : (s.minted w slot r).queues = s.queues ∧ (s.minted w slot r).nextId = s.nextId := by
  have hhot := s.recordHot_aliases w slot
  have hmint := (s.recordHot w slot).mintRecord_onlyCaches w slot r
  unfold minted
  rw [hmint, hhot]
  exact ⟨rfl, rfl⟩

/-- TAIL as a notify write sets it. -/
def tailed (s : State) (q : Nat) (x : Queue) (tail : BitVec 16) : State := { s with queues := s.queues.put q { x with tail := tail } }

theorem tailed_consumed (s : State) (q : Nat) (x : Queue) (tail : BitVec 16) :
    (s.tailed q x tail).consumed q { x with tail := tail } =
      { s.raiseHot (x.slotAt 0 / 128) with queues := s.queues.put q { x with tail := tail, consumed := x.consumed + 1 } } := by
  unfold consumed tailed
  rw [raiseHot_queues]
  dsimp only
  rw [FMap.put_put]
  rfl

theorem tailed_slotNat (s : State) (q : Nat) (x : Queue) (tail : BitVec 16) :
    (s.tailed q x tail).slotNat { x with tail := tail } = s.slotNat x :=
  congrArg (fun r : List (BitVec 8) × Bool => leNat r.1) (homeRead_queues s _ _ _)

theorem tailed_skipped (s : State) (q : Nat) (x : Queue) (tail : BitVec 16) (al : FMap AliasEntry) :
    (s.tailed q x tail).skipped q { x with tail := tail } al = { s with
      alias_ := al, queues := s.queues.put q { x with tail := tail, consumed := x.consumed + 1, denied := x.denied + 1 } } := by
  unfold skipped tailed
  dsimp only
  rw [FMap.put_put]

end State

/-! ## Notify writes, R195, R198, R414 -/

section Notify

variable {s : State} {w q : Nat} {x : Queue} (tail : BitVec 16) (hq : s.queues.find? q = some x)

include hq

/-- A notify write of another world, or where the queue's interface does not run, changes nothing. -/
theorem exec_notifyWrite_refused (h : x.world ≠ w ∨ (w ≠ 0 ∧ (s.worlds.find? w).any (·.running) = false)) :
    exec (.notifyWrite w q tail) s = .next s := by
  have hrun : exec (.notifyWrite w q tail) s = execNotifyWrite w q tail s := rfl
  rw [hrun, execNotifyWrite, hq]
  dsimp only
  rw [if_pos]
  rcases h with h | ⟨h0, hstopped⟩
  · simp [h]
  · simp [h0, hstopped]

/-- A notify write that is accepted sets TAIL and takes the slots up to it. -/
theorem exec_notifyWrite_accepted (hw : x.world = w) (hopen : w = 0 ∨ (s.worlds.find? w).any (·.running) = true) {n : Nat}
    (hn : (tail.toNat + 2 ^ 32 - x.consumed.toNat) % 2 ^ x.size = n) (hfree : n = 0 ∨ s.reenc = []) :
    exec (.notifyWrite w q tail) s = .next ((span 0 n).foldl (fun s _ => State.takeSlot q s) (s.tailed q x tail)) := by
  have hheld : (!s.reenc.isEmpty && (span 0 n).any (s.slotHeld x)) = false := by
    rcases hfree with h | h
    · rw [h]; exact Bool.and_false _
    · rw [h]; rfl
  have hopen' : (decide (w = 0) || (s.worlds.find? w).any (·.running)) = true := by simpa using hopen
  have hrun : exec (.notifyWrite w q tail) s = execNotifyWrite w q tail s := rfl
  rw [hrun, execNotifyWrite, hq]
  dsimp only
  rw [hn, hheld, hopen', decide_eq_false (not_not.mpr hw), if_neg (by simp), State.updQueue_put hq]
  rfl

/-- The one slot up to TAIL names no record. -/
theorem exec_notifyWrite_skips (hw : x.world = w) (hopen : w = 0 ∨ (s.worlds.find? w).any (·.running) = true)
    (hn : (tail.toNat + 2 ^ 32 - x.consumed.toNat) % 2 ^ x.size = 1) (hreenc : s.reenc = [])
    (hbad : s.mayUse w (x.slotAt 0) = false ∨ 2 ^ 56 ≤ s.slotNat x ∨ s.slotNat x % 16 ≠ 0 ∨
      ((s.tailed q x tail).consumed q { x with tail := tail }).readRecord w (s.slotNat x) = none) :
    ∃ al, exec (.notifyWrite w q tail) s = .next { s with
      alias_ := al, queues := s.queues.put q { x with tail := tail, consumed := x.consumed + 1, denied := x.denied + 1 } } := by
  subst hw
  have htailed : (s.tailed q x tail).queues.find? q = some { x with tail := tail } := FMap.find?_put_self _ _ _
  rw [← State.tailed_slotNat s q x tail] at hbad
  obtain ⟨al, hskip⟩ := State.takeSlot_skips htailed hbad
  refine ⟨al, (exec_notifyWrite_accepted tail hq rfl hopen hn (.inr hreenc)).trans (congrArg Host.Outcome.next ?_)⟩
  exact hskip.trans (State.tailed_skipped s q x tail al)

/-- The one slot up to TAIL names a record that can be read: it is a task at the tail of the queue. -/
theorem exec_notifyWrite_submits (hw : x.world = w) (hopen : w = 0 ∨ (s.worlds.find? w).any (·.running) = true)
    (hn : (tail.toNat + 2 ^ 32 - x.consumed.toNat) % 2 ^ x.size = 1) (hreenc : s.reenc = []) {r0 r : TaskRec}
    (huse : s.mayUse w (x.slotAt 0) = true) (hlow : s.slotNat x < 2 ^ 56) (haligned : s.slotNat x % 16 = 0)
    (hread : ((s.tailed q x tail).consumed q { x with tail := tail }).readRecord w (s.slotNat x) = some r0)
    (hminted : (((s.tailed q x tail).consumed q { x with tail := tail }).minted w (s.slotNat x) r0).readRecord w (s.slotNat x) = some r) :
    ∃ s', exec (.notifyWrite w q tail) s = .next s' ∧ State.OnlyTakes s s' ∧
      (s'.tasks.find? s.nextId).map (fun k => (k.record, k.world, k.queue, k.cls, k.stage)) = some (r, w, q, r.prio, .queued) ∧
      (s'.queues.find? q).map (fun y => (y.tail, y.consumed, y.denied, y.waiting)) =
        some (tail, x.consumed + 1, x.denied, x.waiting ++ [s.nextId]) := by
  subst hw
  have htailed : (s.tailed q x tail).queues.find? q = some { x with tail := tail } := FMap.find?_put_self _ _ _
  rw [← State.tailed_slotNat s q x tail] at hlow haligned hread hminted
  have htake := State.takeSlot_submits htailed huse hlow haligned hread hminted
  obtain ⟨m, hm⟩ : ∃ m, m = ((s.tailed q x tail).consumed q { x with tail := tail }).minted x.world
    ((s.tailed q x tail).slotNat { x with tail := tail }) r0 := ⟨_, rfl⟩
  obtain ⟨hqueues, hnext⟩ := State.minted_kept ((s.tailed q x tail).consumed q { x with tail := tail }) x.world
    ((s.tailed q x tail).slotNat { x with tail := tail }) r0
  rw [← hm] at htake hqueues hnext
  have hnext' : m.nextId = s.nextId := hnext.trans (by rw [State.tailed_consumed, State.raiseHot_aliases])
  have hfound : m.queues.find? q = some { x with tail := tail, consumed := x.consumed + 1 } := by
    rw [hqueues]
    exact FMap.find?_put_self _ _ _
  obtain ⟨htask, hqueue⟩ := State.submit_queued hfound ((s.tailed q x tail).slotNat { x with tail := tail }) r r.prio
  rw [hnext'] at htask hqueue
  refine ⟨_, (exec_notifyWrite_accepted tail hq rfl hopen hn (.inr hreenc)).trans (congrArg Host.Outcome.next htake), ?_, htask, hqueue⟩
  have htakes : State.OnlyTakes (s.tailed q x tail) m :=
    hm ▸ (State.consumed_takes (s.tailed q x tail) q { x with tail := tail }).trans (State.minted_takes _ _ _ _)
  exact (State.OnlyTakes.trans (show State.OnlyTakes s (s.tailed q x tail) from rfl) htakes).trans (State.submit_onlySubmits m q _ r _).takes

end Notify

/-! ## Accesses of the host, R195, R262, R424 -/

/-- An access that reaches no frame of its world has no effect. -/
theorem exec_hostAccess_unreached {s : State} {a : HostAccess} (h : s.hostReach a.fixup a.world a.pa a.data.length = false) :
    exec (.hostAccess a) s = .next s := by
  have hrun : exec (.hostAccess a) s = execHostAccess a s := rfl
  rw [hrun, execHostAccess]
  dsimp only
  rw [h]
  rfl

/-- A read raises HOT in redirects alone. -/
theorem exec_hostAccess_read {s : State} {a : HostAccess} (h : s.hostReach false a.world a.pa a.data.length = true) (hfixup : a.fixup = false)
    (hwrite : a.write = false) : ∃ xs : List Nat, exec (.hostAccess a) s = .next (xs.foldl State.raiseHot s) := by
  have hrun : exec (.hostAccess a) s = execHostAccess a s := rfl
  rw [hrun, execHostAccess]
  dsimp only
  rw [hfixup, hwrite, h]
  exact ⟨_, rfl⟩

theorem exec_hostAccess_write {s : State} {a : HostAccess} (h : s.hostReach false a.world a.pa a.data.length = true) (hfixup : a.fixup = false)
    (hwrite : a.write = true) (hheld : s.rangeHeld a.pa a.data.length = false) :
    exec (.hostAccess a) s = .next (s.homeWrite a.pa a.data false) := by
  have hrun : exec (.hostAccess a) s = execHostAccess a s := rfl
  rw [hrun, execHostAccess]
  dsimp only
  rw [hfixup, hwrite, h, hheld]
  rfl

/-- A fix-up of one granule. -/
theorem exec_hostAccess_fixup {s : State} {a : HostAccess} (h : s.hostReach true a.world a.pa a.data.length = true) (hfixup : a.fixup = true)
    (hlen : a.data.length = 16) (hpa : a.pa % 16 = 0) (hheld : s.rangeHeld a.pa 16 = false) :
    exec (.hostAccess a) s = .next (State.mintAt a.world s a.pa) := by
  have hgranule : a.pa / 16 * 16 = a.pa := by omega
  have hmint : State.mintAt a.world s (a.pa / 16 * 16) = State.mintAt a.world s a.pa := by rw [hgranule]
  have hrun : exec (.hostAccess a) s = execHostAccess a s := rfl
  rw [hrun, execHostAccess]
  dsimp only
  rw [hlen] at h ⊢
  rw [hfixup, h, hheld, hpa]
  exact congrArg Host.Outcome.next hmint

/-! ## Bounce-buffer channels, R205 -/

section Channel

variable {s : State} {w c : Nat} {b : IdeBlock} {x : Chan} (hx : s.chans.find? (chanKey w c) = some x) (hopen : x.state = 1)
  (hfree : s.hostReach false w b.pa b.data.length = false ∨ s.rangeHeld b.pa b.data.length = false)

include hx hopen hfree

/-- What an open channel makes of a block: one that fails the IDE check or comes out of order aborts it, and the next one is accepted, and
written where the world's function reaches. -/
theorem exec_channelBlock_open : exec (.channelBlock w c b) s = .next (
    let s1 := if s.hostReach false w b.pa b.data.length then s.homeWrite b.pa b.data false else s
    if b.ideOk = false then { s with chans := s.chans.put (chanKey w c) { x with state := 2, cause := 2 } }
    else if b.ctr ≠ x.last + 1 then { s with chans := s.chans.put (chanKey w c) { x with state := 2, cause := 1 } }
    else { s1 with
      chans := s1.chans.put (chanKey w c) (if b.ctr = BitVec.allOnes 64 then ⟨b.ctr, 0, 3⟩ else { x with last := b.ctr }) }) := by
  have hheld : (s.hostReach false w b.pa b.data.length && s.rangeHeld b.pa b.data.length) = false := Bool.and_eq_false_iff.mpr hfree
  have hrun : exec (.channelBlock w c b) s = execChannelBlock w c b s := rfl
  rw [hrun, execChannelBlock, hx]
  dsimp only
  rw [hheld, decide_eq_false (not_not.mpr hopen), if_neg (by decide)]
  simp only [Bool.not_eq_true']
  by_cases hlast : b.ctr = BitVec.allOnes 64
  · rw [if_pos hlast, if_pos hlast]
  · rw [if_neg hlast, if_neg hlast]

end Channel

/-- Settles O57: a slot by what its record reads as, an access of the host by the law of a write at the home slices, and a block by its
counter. -/
theorem hostActs : Obligations.HostActs := by
  unfold Obligations.HostActs
  refine ⟨?notify, ?refused, ?unreached, ?read, ?write, ?fixup, ?keying, ?block⟩
  case notify =>
    intro s w q tail x hq hw hopen
    dsimp only
    rw [← State.tailed_consumed]
    refine ⟨fun hn => exec_notifyWrite_accepted tail hq hw hopen hn (.inl rfl), fun hn hreenc => ⟨fun hbad => ?_, ?_⟩⟩
    · obtain ⟨al, hskip⟩ := exec_notifyWrite_skips tail hq hw hopen hn hreenc hbad
      exact ⟨_, hskip, rfl⟩
    · intro r0 r huse hlow haligned hread hminted
      obtain ⟨s', hexec, honly, htask, hqueue⟩ := exec_notifyWrite_submits tail hq hw hopen hn hreenc huse hlow haligned hread hminted
      have hrows : s'.rows = s.rows := by rw [honly]
      have hfree : s'.freeCtr = s.freeCtr := by rw [honly]
      exact ⟨s', hexec, State.sameRegisters_of hrows hfree, by rw [honly], by rw [honly], htask, hqueue⟩
  case refused =>
    exact fun s w q tail x hq h => exec_notifyWrite_refused tail hq h
  case unreached =>
    exact fun s a h => exec_hostAccess_unreached h
  case read =>
    intro s a h hfixup hwrite
    obtain ⟨xs, hread⟩ := exec_hostAccess_read h hfixup hwrite
    exact ⟨_, hread, State.raiseHots_aliases xs s⟩
  case write =>
    intro s a h hfixup hwrite halias hheld
    have hwritten := State.homeWrite_written halias a.pa a.data
    exact ⟨_, exec_hostAccess_write h hfixup hwrite hheld, hwritten.only, fun pa => ⟨hwritten.byte pa, hwritten.untagged pa⟩⟩
  case fixup =>
    intro s a h hfixup hlen hpa halias hheld
    have hexec := exec_hostAccess_fixup h hfixup hlen hpa hheld
    refine ⟨fun hnot => ?_, fun hmints => ⟨_, hexec, State.mintAt_minted halias hpa hmints⟩⟩
    have hnone : s.mints a.world (s.granuleBits a.pa) = false := hnot
    rw [hexec, State.mintAt_eq, hnone]
    rfl
  case keying =>
    intro s w c
    have hrun : exec (.channelKeying w c) s = execChannelKeying w c s := rfl
    rw [hrun, execChannelKeying]
    simp only [Bool.and_eq_true]
  case block =>
    intro s w c b x hx hopen hfree
    have hexec := exec_channelBlock_open hx hopen hfree
    refine ⟨fun hide => ?_, fun hide hctr => ?_, fun hide hctr hout => ?_, fun hide hctr hin halias => ?_⟩
    · rw [hexec, if_pos hide]
    · rw [hexec, if_neg (by rw [hide]; decide), if_pos hctr]
    · rw [hexec, if_neg (by rw [hide]; decide), if_neg (not_not.mpr hctr), hout]
      rfl
    · rw [if_neg (by rw [hide]; decide), if_neg (not_not.mpr hctr), hin] at hexec
      exact ⟨_, hexec, FMap.find?_put_self _ _ _, (State.homeWrite_written halias b.pa b.data).byte⟩

end Sys2Proof.Machine

/-! SUPPORT. The derivations of a capability are carried out by the lanes of their instructions (R185 to R187). -/

namespace Sys2Proof.Machine

/-! ## WriteCap, R185 -/

/-- The four rows of a capability group. -/
theorem FitWrites.group (d : BitVec 3) (x : Nat → BitVec 32 × BitVec 4 × BitVec 7) :
    FitWrites ((List.range 4).map fun i => (4 * d.toNat + i, x i)) := by
  have hd := d.isLt
  constructor
  · simp only [List.mem_map, List.mem_range, forall_exists_index, and_imp]
    rintro _ i hi rfl
    dsimp only
    omega
  · rw [List.map_map]
    exact List.nodup_range.map fun i j hij => Nat.add_left_cancel hij

/-- A lane that passes its checks and then writes a capability. -/
theorem Form.capability_carriedOut {ct : Ctl} {d : BitVec 3} {ok : State → Nat → Bool} {bits : State → Nat → BitVec 128}
    {valid : State → Nat → Bool} {op : State → Nat → State × LaneRes}
    (hrun : ∀ s t, ok s t = true → op s t = (s, writeCap s t d.toNat (bits s t) (valid s t))) :
    (Form.capability ct d ok bits valid).CarriedOut op where
  run s t hok hrow := by
    rw [hrun s t hok]
    exact Prod.ext rfl (State.finishLane_ok hrow)
  shape s t _ :=
    have hrows := FitWrites.group d fun i => ((bits s t).extractLsb' (32 * i) 32, 11, 0)
    { writes := hrows.1, kills := by simp [Form.capability], nodup := hrows.2,
      caps := by simpa [Form.capability] using d.isLt, single := by simp [Form.capability] }

/-- An instruction whose lanes do that completes, whatever checks its form lists. -/
theorem capability_completes {i : Instr} {ct : Ctl} {d : BitVec 3} {ok : State → Nat → Bool} {bits : State → Nat → BitVec 128}
    {valid : State → Nat → Bool} {cs : State → Nat → List Check} {lane : State → Nat → LaneRes}
    (hexec : ∀ s, exec i s = .next (s.issue ct 4 (State.pureLane lane)))
    (hlane : ∀ s t, ok s t = true → lane s t = writeCap s t d.toNat (bits s t) (valid s t)) :
    ((Form.capability ct d ok bits valid).checking cs).Completes i :=
  Form.CarriedOut.completes hexec fun _ =>
    (Form.capability_carriedOut fun s t hok => congrArg (Prod.mk s) (hlane s t hok)).relist _ _

/-! ## Derivations and `capr`, R186, R187 -/

theorem failIf_ok {c : Bool} (h : c = false) (cause tval : BitVec 32) : failIf c cause tval = .ok () := by
  rw [h]
  rfl

/-- A parent that is valid raises no CAP_TAG. -/
theorem capTag_ok {s : State} {t k : Nat} (h : s.capValid t k = true) (tval : BitVec 32) :
    failIf (!s.capValid t k) Cause.capTag tval = .ok () := failIf_ok (congrArg not h) _ _

theorem cadd_completes (d f : BitVec 3) (v : BitVec 5) (ct : Ctl) {g : Form} (h : capabilityForm (.cadd d f v ct) = some g) :
    g.Completes (.cadd d f v ct) := by
  cases h
  refine capability_completes (fun _ => rfl) fun s t hok => ?_
  simp only [Bool.and_eq_true] at hok
  obtain ⟨⟨hclean, hread⟩, hvalid⟩ := hok
  simp only [State.capPoison_ok hclean, State.readSrc_ok hread, capTag_ok hvalid, bind, Except.bind]
  rfl

/-- A region that stays within its parent's raises no CAP_BOUNDS. -/
theorem boundedRegion_ok {p : Cap} {n : Nat} (h : p.cursor + boundLength n ≤ p.top) (tval : BitVec 32) :
    failIf (decide (p.top < p.cursor + (roundLen n).1 * 2 ^ (roundLen n).2)) Cause.capBounds tval = .ok () :=
  failIf_ok (decide_eq_false (Nat.not_lt.mpr h)) _ _

/-- Nor does a region whose length is the one asked for, or one that `.x` does not ask to be exact. -/
theorem exactRegion_ok {x : Bool} {n : Nat} (h : (!x || boundLength n == n) = true) (tval : BitVec 32) :
    failIf (x && decide ((roundLen n).1 * 2 ^ (roundLen n).2 ≠ n)) Cause.capBounds tval = .ok () := by
  refine failIf_ok ?_ _ _
  cases x with
  | false => rfl
  | true => simpa [boundLength] using h

theorem cbnd_completes (d f : BitVec 3) (v : BitVec 5) (x : Bool) (ct : Ctl) {g : Form} (h : capabilityForm (.cbnd d f v x ct) = some g) :
    g.Completes (.cbnd d f v x ct) := by
  cases h
  refine capability_completes (fun _ => rfl) fun s t hok => ?_
  simp only [Bool.and_eq_true, decide_eq_true_eq] at hok
  obtain ⟨⟨⟨⟨hclean, hread⟩, hvalid⟩, hfits⟩, hexact⟩ := hok
  simp only [State.capPoison_ok hclean, State.readSrc_ok hread, capTag_ok hvalid, boundedRegion_ok hfits, exactRegion_ok hexact, bind,
    Except.bind]
  rfl

theorem cprm_completes (d f : BitVec 3) (m : BitVec 7) (ct : Ctl) {g : Form} (h : capabilityForm (.cprm d f m ct) = some g) :
    g.Completes (.cprm d f m ct) := by
  cases h
  refine capability_completes (fun _ => rfl) fun s t hok => ?_
  obtain ⟨hclean, hvalid⟩ := Bool.and_eq_true_iff.mp hok
  simp only [State.capPoison_ok hclean, capTag_ok hvalid, bind, Except.bind]
  rfl

theorem cmov_completes (d f : BitVec 3) (ct : Ctl) {g : Form} (h : capabilityForm (.cmov d f ct) = some g) : g.Completes (.cmov d f ct) := by
  cases h
  refine capability_completes (fun _ => rfl) fun s t hclean => ?_
  simp only [State.capPoison_ok hclean, bind, Except.bind]
  rfl

theorem capr_completes (d : BitVec 5) (c : BitVec 3) (x : BitVec 4) (ct : Ctl) {g : Form} (h : capabilityForm (.capr d c x ct) = some g) :
    g.Completes (.capr d c x ct) := by
  cases h
  refine Form.CarriedOut.completes (fun _ => rfl) fun _ =>
    ⟨fun s t hclean hrow => ?_, fun s t _ => (FitWrites.single d _).shape (by simp [Form.regs])⟩
  simp only [State.pureLane, State.capPoison_ok hclean, bind, Except.bind]
  exact Prod.ext rfl (State.finishLane_ok hrow)

/-- Settles O14: each lane reads a parent without poison, passes the checks of R186 on it, and writes the derived capability; `capr` writes the
field of R187. -/
theorem capabilityForms : Obligations.CapabilityForms := by
  unfold Obligations.CapabilityForms
  intro i f h
  cases i with
  | cadd d c v ct => exact cadd_completes d c v ct h
  | cbnd d c v x ct => exact cbnd_completes d c v x ct h
  | cprm d c m ct => exact cprm_completes d c m ct h
  | cmov d c ct => exact cmov_completes d c ct h
  | capr d c x ct => exact capr_completes d c x ct h
  | _ => cases h

end Sys2Proof.Machine

/-! SUPPORT. The state right after reset, and teams and gangs that retire (R202, R298, R305, R410). -/

namespace Sys2Proof.Machine

/-! ## Right after reset, R203, R236, R390, R410, R411 -/

/-- Settles O5: the registers by the values that `Boot.reset` and `DevRegs.reset` list, and every memory, register and table by its listing
nothing. -/
theorem resetState : Obligations.ResetState := by
  unfold Obligations.ResetState
  have hdead (t : Nat) : ¬(0 : BitVec 32).getLsbD (laneOf t) = true := by simp
  have hregs (t v : Nat) : State.reset.reg t v = 0 ∧ State.reset.tagOf t v = (0, 0) := ⟨if_neg (hdead t), if_neg (hdead t)⟩
  have hvalid (t k : Nat) : State.reset.validBit t k = false := Bool.eq_false_of_not_eq_true (hdead t)
  exact ⟨rfl, rfl, rfl, rfl, rfl, rfl, fun _ => rfl, fun _ => rfl, fun _ => rfl, fun _ _ => rfl, hregs, hvalid, fun _ => rfl,
    rfl, rfl, rfl, rfl, rfl, rfl, rfl, rfl, rfl, rfl, rfl, rfl, rfl, rfl⟩

/-! ## A team that retires, R298, R305 -/

namespace State

/-- A charge is kept in the queues alone, R309. -/
theorem charge_only (s : State) (gang n : Nat) : s.charge gang n = { s with queues := (s.charge gang n).queues } := by
  rcases charge_cases s gang n with h | ⟨q, f, h⟩ <;> rw [h]
  rfl

/-- A team that retires gives up its scratchpad and the operations that its threads left; its gang counts it as gone, and threads that stood
at its objects may go on. -/
theorem freeTeam_only (s : State) (gang team : Nat) : s.freeTeam gang team = { s with
    spad := s.spad.splice (spadKey gang (team * 2 ^ 20)) (spadKey gang (team * 2 ^ 20) + 2 ^ 20) []
    gangs := s.gangs.adjust gang fun x => { x with deadTeams := setBit x.deadTeams team true }
    ops := (s.freeTeam gang team).ops, accs := (s.freeTeam gang team).accs, spadTag := (s.freeTeam gang team).spadTag
    spadPoison := (s.freeTeam gang team).spadPoison, threads := (s.freeTeam gang team).threads } := by
  have hsettled (u : State) : u.settleObjects gang =
      { u with spad := u.spad, gangs := u.gangs, ops := (u.settleObjects gang).ops, accs := (u.settleObjects gang).accs
               spadTag := (u.settleObjects gang).spadTag, spadPoison := (u.settleObjects gang).spadPoison
               threads := (u.settleObjects gang).threads } := by
    have h := (settleObjects_onlyStands u gang).only
    generalize u.settleObjects gang = v at h
    rw [h]
  exact hsettled _

/-- The scratchpad of a team erased: a byte of another team or another gang stays. -/
theorem spadByte_eraseTeam {s t : State} {gang team : Nat} (hteam : team < 16)
    (h : t.spad = s.spad.splice (spadKey gang (team * 2 ^ 20)) (spadKey gang (team * 2 ^ 20) + 2 ^ 20) []) (g : Nat) {a : Nat} (ha : a < 2 ^ 24) :
    t.spadByte g a = if g = gang ∧ a / 2 ^ 20 = team then 0 else s.spadByte g a := by
  have hkey : (spadKey gang (team * 2 ^ 20) ≤ spadKey g a ∧ spadKey g a < spadKey gang (team * 2 ^ 20) + 2 ^ 20) ↔
      g = gang ∧ a / 2 ^ 20 = team := by
    unfold spadKey
    omega
  rw [spadByte, h, FMap.get_spliceNil]
  simp only [hkey]
  rfl

end State

/-- A team whose threads have exited and that has nothing in flight retires, and its task is charged for it, R298, R309. -/
theorem exec_teamRetire {s : State} {g i : Nat} {x : Gang} {k : Task} (hg : s.gangs.find? g = some x) (hk : s.tasks.find? x.task = some k)
    (hres : x.stat = .resident) (hteam : i < k.record.teams) (hlive : x.deadTeams.getLsbD i = false)
    (hexited : ∀ th ∈ s.threads, gangOf th.1 = g → teamIdx th.1 = i → th.2.stat = .exited)
    (hops : s.gangOps (fun t => gangOf t == g && teamIdx t == i) = [])
    (hreqs : ∀ r ∈ s.reqs.values, gangOf r.thread = g → teamIdx r.thread = i → r.kind.isRestore = true) :
    exec (.teamRetire g i) s = .next ((s.charge g 1).freeTeam g i) := by
  have hexec : exec (.teamRetire g i) s = execTeamRetire g i s := rfl
  have hthreads : (s.threads.any fun th => (gangOf th.1 == g && teamIdx th.1 == i) && th.2.stat != .exited) = false := by
    rw [List.any_eq_false]
    intro th hth
    have := hexited th hth
    simp only [Bool.and_eq_true, beq_iff_eq, bne_iff_ne]
    tauto
  have hidle : (s.reqs.values.any fun r => (gangOf r.thread == g && teamIdx r.thread == i) && !r.kind.isRestore) = false := by
    rw [List.any_eq_false]
    intro r hr
    have := hreqs r hr
    simp only [Bool.and_eq_true, beq_iff_eq, Bool.not_eq_true']
    rintro ⟨⟨h1, h2⟩, h3⟩
    exact absurd (this h1 h2) (ne_true_of_eq_false h3)
  rw [hexec, execTeamRetire, hg]
  simp only [hk, hthreads, hops, hidle]
  simp [hres, hteam, hlive]

/-! ## A gang that retires, R202, R305 -/

/-- A gang that has retired: what it held is freed, its operations and its requests for work are gone, R305. -/
def State.gangRetired (s : State) (g : Nat) : State :=
  let s1 := (s.freeGang g).dropOps fun o => gangOf o.thread == g
  { s1 with fetches := s1.fetches.keep fun _ f => f.gang != g }.updGang g fun x => { x with stat := .retired, preempt := none }

/-- A gang whose teams are gone and that has nothing in flight retires, R298, R305. -/
theorem exec_gangRetire {s : State} {g : Nat} {x : Gang} (hg : s.gangs.find? g = some x) (hres : x.stat = .resident) (hteams : s.liveTeams g = 0)
    (hops : s.gangOps (fun t => gangOf t == g) = []) (hreqs : ∀ r ∈ s.reqs.values, r.gang = g → r.kind.isRestore = true) :
    exec (.gangRetire g) s = .next (s.gangRetired g) := by
  have hexec : exec (.gangRetire g) s = execGangRetire g s := rfl
  have hidle : (s.reqs.values.filter fun r => r.gang == g && !r.kind.isRestore) = [] := by
    rw [List.filter_eq_nil_iff]
    intro r hr
    have := hreqs r hr
    simp only [Bool.and_eq_true, beq_iff_eq, Bool.not_eq_true']
    rintro ⟨h1, h2⟩
    exact absurd (this h1) (ne_true_of_eq_false h2)
  rw [hexec, execGangRetire, hg]
  simp only [hops, hidle]
  simp [hres, hteams, State.gangRetired]

namespace State

theorem thread_gangRetired (s : State) (g t : Nat) :
    (s.gangRetired g).thread t = if gangOf t = g then { Thread.fresh 0 with stat := .exited } else s.thread t := by
  have hkey : (g * 16384 ≤ t ∧ t < (g + 1) * 16384) ↔ gangOf t = g := by
    unfold gangOf
    omega
  have hthreads : (s.gangRetired g).threads = s.threads.splice (g * 16384) ((g + 1) * 16384) [] := rfl
  rw [thread, hthreads, FMap.get_spliceNil]
  simp only [hkey]
  rfl

theorem reg_gangRetired (s : State) {g t v : Nat} (ht : gangOf t = g) (hv : v < 32) : (s.gangRetired g).reg t v = 0 := by
  have hkey : g * 16384 ≤ crewOf t * 32 + v ∧ crewOf t * 32 + v < (g + 1) * 16384 := by
    unfold gangOf at ht
    unfold crewOf
    omega
  have hrows : (s.gangRetired g).rows = s.rows.splice (g * 16384) ((g + 1) * 16384) [] := rfl
  have hrow : (s.gangRetired g).row (crewOf t) v = Row.empty := by
    rw [row, hrows, FMap.get_spliceNil, if_pos hkey]
  rw [reg, pending, hrow]
  exact if_neg (by simp [Row.empty])

theorem spadByte_gangRetired (s : State) (g : Nat) {a : Nat} (ha : a < 2 ^ 24) : (s.gangRetired g).spadByte g a = 0 := by
  have hkey : g * 2 ^ 24 ≤ spadKey g a ∧ spadKey g a < (g + 1) * 2 ^ 24 := by
    unfold spadKey
    omega
  have hspad : (s.gangRetired g).spad = s.spad.splice (g * 2 ^ 24) ((g + 1) * 2 ^ 24) [] := rfl
  rw [spadByte, hspad, FMap.get_spliceNil, if_pos hkey]

end State

/-- Settles O49: a team by the scratchpad that it gives up, a gang by the ranges of its threads, rows and scratchpads. -/
theorem gangsRetire : Obligations.GangsRetire := by
  unfold Obligations.GangsRetire
  refine ⟨?team, ?gang⟩
  case team =>
    intro s g i x k hg hk hres hi hteam hlive hexited hops hreqs
    have hfreed := State.freeTeam_only (s.charge g 1) g i
    have hcharged := State.charge_only s g 1
    have hgangs : ((s.charge g 1).freeTeam g i).gangs = s.gangs.adjust g fun x => { x with deadTeams := setBit x.deadTeams i true } := by
      rw [hfreed, hcharged]
    have hbyte := State.spadByte_eraseTeam (s := s) (t := (s.charge g 1).freeTeam g i) (gang := g) hi (by rw [hfreed, hcharged])
    refine ⟨_, exec_teamRetire hg hk hres hteam hlive hexited hops hreqs, ?_, ?_, fun a ha => ?_, fun h a ha hne => ?_⟩
    · rw [hfreed, hcharged]
    · rw [hgangs, FMap.find?_adjust, if_pos rfl, hg]
      simp [setBit_getLsbD _ i i true hi]
    · rw [hbyte g (by omega), if_pos ⟨rfl, by omega⟩]
    · rw [hbyte h ha, if_neg (by tauto)]
  case gang =>
    intro s g x hg hres hteams hops hreqs
    refine ⟨_, exec_gangRetire hg hres hteams hops hreqs, ⟨rfl, rfl, rfl, rfl⟩, ?_, fun t ht => ⟨?_, fun v hv => s.reg_gangRetired ht hv⟩,
      fun a ha => s.spadByte_gangRetired g ha, fun t ht => ?_⟩
    · exact (FMap.find?_adjust _ g g _).trans (by rw [if_pos rfl]; exact congrArg _ hg)
    · rw [s.thread_gangRetired, if_pos ht]
    · rw [s.thread_gangRetired, if_neg ht]

end Sys2Proof.Machine

/-! SUPPORT. The gangs of a world that halt at their run boundaries (R198, R381). -/

namespace Sys2Proof.Machine

theorem FMap.rising_adjust {α : Type} {m : FMap α} (k : Nat) (f : α → α) (h : FMap.rising none m = true) :
    FMap.rising none (m.adjust k f) = true := by
  unfold FMap.adjust
  split
  · exact FMap.rising_put k _ h (by simp)
  · exact h

namespace State

/-! ## A thread that halts -/

/-- A thread of a gang that halts leaves its save handler, and has stopped if it stands at a run boundary, R198. -/
def halted (s : State) (t : Nat) (h : Thread) : Thread :=
  if s.atBoundary t h = true then { h with inSave := false, stat := .stopped, cont := 0, runLen := 0 } else { h with inSave := false }

theorem atBoundary_congr {s s' : State} (hs : s'.slots = s.slots) (t : Nat) (h : Thread) : s'.atBoundary t h = s.atBoundary t h := by
  unfold atBoundary
  rw [hs]

theorem halted_congr {s s' : State} (hs : s'.slots = s.slots) : s'.halted = s.halted := by
  funext t h
  unfold halted
  rw [atBoundary_congr hs]

/-- A thread that has halted stays as it is. -/
theorem halted_halted (s : State) (t : Nat) (h : Thread) : s.halted t (s.halted t h) = s.halted t h := by
  unfold halted
  by_cases hb : s.atBoundary t h = true
  · rw [if_pos hb, if_neg (by simp [atBoundary])]
  · have hb' : ¬s.atBoundary t { h with inSave := false } = true := hb
    rw [if_neg hb, if_neg hb']

/-- `haltGangs` at one thread, which is listed as `th`. -/
def haltThread (s : State) (th : Nat × Thread) : State :=
  let s2 := s.updThread th.1 fun h => { h with inSave := false }
  if s.atBoundary th.1 th.2 then s2.stopThread th.1 th.2.pc false else s2

theorem haltThread_only (s : State) (th : Nat × Thread) : s.haltThread th = { s with threads := (s.haltThread th).threads } := by
  unfold haltThread
  dsimp only
  split
  · rfl
  · rfl

theorem find?_haltThread {s : State} {th : Nat × Thread} (h : s.threads.find? th.1 = some th.2) (u : Nat) :
    (s.haltThread th).threads.find? u = if u = th.1 then some (s.halted th.1 th.2) else s.threads.find? u := by
  unfold haltThread halted
  by_cases hb : s.atBoundary th.1 th.2 = true
  · rw [if_pos hb, if_pos hb, stopThread, if_neg (by decide), updThread_comp, updThread, FMap.find?_adjust, h]
    rfl
  · rw [if_neg hb, if_neg hb, updThread, FMap.find?_adjust, h]
    rfl

theorem rising_haltThread {s : State} (th : Nat × Thread) (h : FMap.rising none s.threads = true) :
    FMap.rising none (s.haltThread th).threads = true := by
  unfold haltThread
  dsimp only
  split
  · exact FMap.rising_adjust _ _ (FMap.rising_adjust _ _ h)
  · exact FMap.rising_adjust _ _ h

/-- Threads that are listed once each halt one after the other. -/
theorem foldl_haltThread {s : State} {ths : FMap Thread} (hths : (ths.map (·.1)).Nodup) (hlisted : ∀ th ∈ ths, s.threads.find? th.1 = some th.2) :
    ths.foldl haltThread s = { s with threads := (ths.foldl haltThread s).threads } ∧
    ∀ u, (ths.foldl haltThread s).threads.find? u =
      if u ∈ ths.map (·.1) then (s.threads.find? u).map (s.halted u) else s.threads.find? u := by
  induction ths generalizing s with
  | nil => exact ⟨rfl, fun _ => rfl⟩
  | cons th ths ih =>
    obtain ⟨hnew, hrest⟩ := List.nodup_cons.mp hths
    have honly := s.haltThread_only th
    have hhead := find?_haltThread (hlisted th List.mem_cons_self)
    have hslots : (s.haltThread th).slots = s.slots := by rw [honly]
    obtain ⟨ihonly, ihfind⟩ := ih (s := s.haltThread th) hrest fun x hx => by
      have hne : x.1 ≠ th.1 := fun e => hnew (List.mem_map.mpr ⟨x, hx, e⟩)
      rw [hhead, if_neg hne]
      exact hlisted x (List.mem_cons_of_mem th hx)
    rw [List.foldl_cons]
    refine ⟨ihonly.trans (by rw [honly]), fun u => ?_⟩
    rw [ihfind, hhead, halted_congr hslots, List.map_cons]
    by_cases hu : u = th.1
    · subst hu
      rw [if_neg hnew, if_pos rfl, if_pos List.mem_cons_self, hlisted th List.mem_cons_self]
      rfl
    · simp only [List.mem_cons, hu, false_or, if_false]

/-! ## A gang that halts -/

/-- `haltGangs` at one gang. -/
def haltGang (s : State) (g : Nat) : State :=
  let s1 := s.updGang g fun x => { x with preempt := some false }
  (s1.gangThreads g).foldl haltThread s1

theorem haltGang_only (s : State) (g : Nat) : s.haltGang g = { s with
    gangs := s.gangs.adjust g fun x => { x with preempt := some false }, threads := (s.haltGang g).threads } := by
  have hfold (ths : List (Nat × Thread)) (u : State) : ths.foldl haltThread u = { u with threads := (ths.foldl haltThread u).threads } := by
    induction ths generalizing u with
    | nil => rfl
    | cons th ths ih => rw [List.foldl_cons]; exact (ih _).trans (by rw [u.haltThread_only th])
  exact hfold _ _

theorem rising_haltGang {s : State} (g : Nat) (h : FMap.rising none s.threads = true) : FMap.rising none (s.haltGang g).threads = true := by
  have hfold (ths : List (Nat × Thread)) (u : State) (hu : FMap.rising none u.threads = true) :
      FMap.rising none (ths.foldl haltThread u).threads = true := by
    induction ths generalizing u with
    | nil => exact hu
    | cons th ths ih => exact ih _ (rising_haltThread th hu)
  exact hfold _ _ h

theorem find?_haltGang {s : State} (g : Nat) (h : FMap.rising none s.threads = true) (u : Nat) :
    (s.haltGang g).threads.find? u = if gangOf u = g then (s.threads.find? u).map (s.halted u) else s.threads.find? u := by
  have hslice : FMap.rising none (s.gangThreads g) = true := FMap.rising_filter _ h
  have hin : u ∈ (s.gangThreads g).map (·.1) ↔ gangOf u = g ∧ (s.threads.find? u).isSome = true := by
    have hrange : (g * 16384 ≤ u ∧ u < (g + 1) * 16384) ↔ gangOf u = g := by
      unfold gangOf
      omega
    have hfind := FMap.find?_slice s.threads (g * 16384) ((g + 1) * 16384) u
    rw [← hrange]
    constructor
    · intro hu
      obtain ⟨th, hth, rfl⟩ := List.mem_map.mp hu
      have hsome := FMap.find?_of_mem hslice hth
      rw [gangThreads, hfind] at hsome
      split at hsome
      · rename_i hr
        exact ⟨hr, by rw [hsome]; rfl⟩
      · cases hsome
    · rintro ⟨hr, hu⟩
      obtain ⟨h', hh⟩ := Option.isSome_iff_exists.mp hu
      rw [if_pos hr, hh] at hfind
      exact List.mem_map.mpr ⟨(u, h'), FMap.mem_of_find? hfind, rfl⟩
  have hfold := (foldl_haltThread (s := s.updGang g fun x => { x with preempt := some false }) (FMap.rising_nodup hslice) fun th hth =>
    FMap.find?_of_mem h (List.mem_of_mem_filter hth)).2 u
  refine hfold.trans ?_
  by_cases hg : gangOf u = g
  · rw [if_pos hg]
    cases hu : s.threads.find? u with
    | none => rw [updGang_threads, hu, Option.map_none, Option.map_none, ite_self]
    | some h' => rw [if_pos (hin.mpr ⟨hg, by rw [hu]; rfl⟩), updGang_threads, hu]; rfl
  · rw [if_neg hg, if_neg fun hu => hg (hin.mp hu).1]
    rfl

/-! ## The gangs of a world -/

/-- The resident gangs of a world. -/
def residentsOf (s : State) (w : Nat) : List Nat :=
  (s.residents.filter fun g => ((s.tasks.find? g.2.1.task).map (·.world)) == some w).map (·.1)

theorem haltGangs_eq (s : State) (w : Nat) : s.haltGangs w = (s.residentsOf w).foldl haltGang s := by
  rw [residentsOf, List.foldl_map]
  rfl

/-- A gang that is resident and whose task is of a world. -/
def isResidentOf (s : State) (w g : Nat) : Bool :=
  (s.gangs.find? g).any fun x => decide (x.stat = .resident) && (s.tasks.find? x.task).any (·.world == w)

theorem mem_residentsOf {s : State} (h : FMap.rising none s.gangs = true) (w g : Nat) : g ∈ s.residentsOf w ↔ s.isResidentOf w g = true := by
  simp only [residentsOf, residents, isResidentOf, List.mem_map, List.mem_filter, List.mem_filterMap, Option.any_eq_true, Bool.and_eq_true,
    decide_eq_true_eq, beq_iff_eq]
  constructor
  · rintro ⟨⟨g', x, r⟩, ⟨⟨⟨g'', x'⟩, hmem, hres⟩, hworld⟩, rfl⟩
    split at hres
    · rename_i hstat
      obtain ⟨k, hk, he⟩ := Option.map_eq_some_iff.mp hres
      obtain ⟨rfl, rfl, rfl⟩ : g'' = g' ∧ x' = x ∧ k.record = r := by simpa using he
      rw [hk] at hworld
      exact ⟨x', FMap.find?_of_mem h hmem, hstat, k, hk, by simpa using hworld⟩
    · cases hres
  · rintro ⟨x, hx, hstat, k, hk, hw⟩
    exact ⟨(g, x, k.record), ⟨⟨(g, x), FMap.mem_of_find? hx, by rw [if_pos hstat, hk]; rfl⟩, by rw [hk, Option.map_some, hw]⟩, rfl⟩

/-- Gangs that halt one after the other, each with its threads. -/
theorem foldl_haltGang (gs : List Nat) (s : State) :
    gs.foldl haltGang s = { s with gangs := (gs.foldl haltGang s).gangs, threads := (gs.foldl haltGang s).threads } ∧
    (∀ g, (gs.foldl haltGang s).gangs.find? g =
      if g ∈ gs then (s.gangs.find? g).map fun x => { x with preempt := some false } else s.gangs.find? g) ∧
    (FMap.rising none s.threads = true → ∀ u, (gs.foldl haltGang s).threads.find? u =
      if gangOf u ∈ gs then (s.threads.find? u).map (s.halted u) else s.threads.find? u) := by
  induction gs generalizing s with
  | nil => exact ⟨rfl, fun _ => rfl, fun _ _ => rfl⟩
  | cons a gs ih =>
    have honly := s.haltGang_only a
    have hgangs : (s.haltGang a).gangs = s.gangs.adjust a fun x => { x with preempt := some false } := by rw [honly]
    have hslots : (s.haltGang a).slots = s.slots := by rw [honly]
    obtain ⟨ihonly, ihgangs, ihthreads⟩ := ih (s.haltGang a)
    rw [List.foldl_cons]
    refine ⟨ihonly.trans (by rw [honly]), fun g => ?_, fun hrising u => ?_⟩
    · rw [ihgangs, hgangs, FMap.find?_adjust]
      by_cases hg : g = a
      · subst hg
        cases s.gangs.find? g <;> simp
      · simp only [List.mem_cons, hg, false_or, if_false]
    · rw [ihthreads (rising_haltGang a hrising), find?_haltGang a hrising, halted_congr hslots]
      by_cases hu : gangOf u = a
      · rw [if_pos hu, if_pos (List.mem_cons.mpr (.inl hu))]
        cases s.threads.find? u with
        | none => exact ite_self _
        | some h => simp only [Option.map_some, halted_halted, ite_self]
      · simp only [List.mem_cons, hu, false_or, if_false]

theorem haltGangs_only (s : State) (w : Nat) :
    s.haltGangs w = { s with gangs := (s.haltGangs w).gangs, threads := (s.haltGangs w).threads } := by
  rw [haltGangs_eq]
  exact (foldl_haltGang _ s).1

/-- The task of each gang is as before. -/
theorem haltGangs_task (s : State) (w g : Nat) : ((s.haltGangs w).gangs.find? g).map (·.task) = (s.gangs.find? g).map (·.task) := by
  rw [haltGangs_eq, (foldl_haltGang _ s).2.1]
  split
  · cases s.gangs.find? g <;> rfl
  · rfl

end State

/-- A world halts where the gangs that are resident for it are to be pre-empted and their threads halt. -/
theorem worldHalts_iff {s s' : State} {w : Nat} : WorldHalts s s' w ↔
    (∀ g, s'.gangs.find? g =
      if s.isResidentOf w g = true then (s.gangs.find? g).map fun x => { x with preempt := some false } else s.gangs.find? g) ∧
    ∀ t, s'.thread t = if s.isResidentOf w (gangOf t) = true then s.halted t (s.thread t) else s.thread t := by
  refine and_congr Iff.rfl (forall_congr' fun t => ?_)
  have hlisted : (s.threads.find? t).isSome = true ∧ s.atBoundary t (s.thread t) = true ↔ s.atBoundary t (s.thread t) = true := by
    refine and_iff_right_of_imp fun hb => ?_
    cases ht : s.threads.find? t with
    | none => simp [State.thread, FMap.get, ht, State.atBoundary] at hb
    | some h => rfl
  simp only [hlisted]
  rfl

/-- The resident gangs of a world halt, R198. -/
theorem worldHalts_haltGangs {s : State} (w : Nat) (hlists : s.listsForm = true) (hgangs : FMap.rising none s.gangs = true) :
    WorldHalts s (s.haltGangs w) w := by
  obtain ⟨hthreads, -⟩ := Bool.and_eq_true_iff.mp hlists
  obtain ⟨-, hg, ht⟩ := State.foldl_haltGang (s.residentsOf w) s
  rw [State.haltGangs_eq, worldHalts_iff]
  simp only [← State.mem_residentsOf hgangs]
  refine ⟨hg, fun t => ?_⟩
  unfold State.thread FMap.get
  rw [ht hthreads]
  split
  · cases s.threads.find? t <;> rfl
  · rfl

/-- Whether a world halts depends on the gangs, the threads, the slots and the worlds of the tasks. -/
theorem WorldHalts.congr {s0 s s' : State} {w : Nat} (hgangs : s0.gangs = s.gangs) (hthreads : s0.threads = s.threads) (hslots : s0.slots = s.slots)
    (htasks : ∀ k, (s0.tasks.find? k).map (·.world) = (s.tasks.find? k).map (·.world)) (h : WorldHalts s0 s' w) : WorldHalts s s' w := by
  have hmine : s0.isResidentOf w = s.isResidentOf w := by
    funext g
    have hany (k : Nat) : (s0.tasks.find? k).any (·.world == w) = (s.tasks.find? k).any (·.world == w) := by
      have := congrArg (Option.any (· == w)) (htasks k)
      rwa [Option.any_map, Option.any_map] at this
    simp only [State.isResidentOf, hgangs, hany]
  have hthread : s0.thread = s.thread := by
    funext t
    rw [State.thread, hthreads, State.thread]
  rw [worldHalts_iff] at h ⊢
  rwa [hmine, hgangs, hthread, State.halted_congr hslots] at h

end Sys2Proof.Machine

/-! SUPPORT. Redirects that fade as lines land, and the frames of a world that are taken back (R198, R235, R242). -/

namespace Sys2Proof.Machine

/-! ## Redirects that fade, R235, R242 -/

/-- An entry after some landings: more of its sectors have landed, and nothing else has changed. -/
def AliasEntry.FadesTo (e e' : AliasEntry) : Prop :=
  ∃ l : BitVec 64, e' = { e with landed := l } ∧ ∀ i, e.landed.getLsbD i = true → l.getLsbD i = true

namespace AliasEntry.FadesTo

theorem refl (e : AliasEntry) : e.FadesTo e := ⟨e.landed, rfl, fun _ h => h⟩

theorem trans {e f g : AliasEntry} (h : e.FadesTo f) (k : f.FadesTo g) : e.FadesTo g := by
  obtain ⟨l, rfl, hl⟩ := h
  obtain ⟨m, rfl, hm⟩ := k
  exact ⟨m, rfl, fun i hi => hm i (hl i hi)⟩

/-- What an entry supplies after landings it has supplied before. -/
theorem supplies {e e' : AliasEntry} (h : e.FadesTo e') {pa : Nat} (hs : e'.supplies pa = true) : e.supplies pa = true := by
  obtain ⟨l, rfl, hl⟩ := h
  simp only [AliasEntry.supplies, Bool.and_eq_true, Bool.not_eq_true'] at hs ⊢
  exact ⟨hs.1, Bool.eq_false_iff.mpr fun hi => Bool.eq_false_iff.mp hs.2 (hl _ hi)⟩

theorem shows {e e' : AliasEntry} (h : e.FadesTo e') {x : Nat} (hs : e'.shows x = true) : e.shows x = true := by
  obtain ⟨pa, hpa, hsup⟩ := List.any_eq_true.mp hs
  exact List.any_eq_true.mpr ⟨pa, hpa, h.supplies hsup⟩

end AliasEntry.FadesTo

/-- The two sectors of a line have landed in an entry that covers it, R235. -/
def AliasEntry.landedAt (x : Nat) (e : AliasEntry) : AliasEntry :=
  if e.covers x then
    { e with landed := setBit (setBit e.landed (x * 128 % 4096 / 64) true) (x * 128 % 4096 / 64 + 1) true }
  else e

theorem AliasEntry.landedAt_fades (x : Nat) (e : AliasEntry) : e.FadesTo (e.landedAt x) := by
  unfold AliasEntry.landedAt
  split
  · refine ⟨_, rfl, fun i hi => ?_⟩
    have hlt : i < 64 := BitVec.lt_of_getLsbD hi
    rw [setBit_getLsbD _ _ _ _ hlt, setBit_getLsbD _ _ _ _ hlt, hi, ite_self, ite_self]
  · exact .refl e

/-- A line that has landed is shown by no entry. -/
theorem AliasEntry.landedAt_shows (x : Nat) (e : AliasEntry) : (e.landedAt x).shows x = false := by
  refine List.any_eq_false.mpr fun pa hpa hs => ?_
  obtain ⟨hlo, hhi⟩ := mem_span.mp hpa
  have hold := (e.landedAt_fades x).supplies hs
  simp only [AliasEntry.supplies, AliasEntry.inRange, Bool.and_eq_true, decide_eq_true_eq] at hold
  obtain ⟨⟨hstate, hstart, hend⟩, -⟩ := hold
  have hcovers : e.covers x = true := by
    simp only [AliasEntry.covers, Bool.and_eq_true, decide_eq_true_eq]
    exact ⟨⟨hstate, by omega⟩, by omega⟩
  have hsector : pa % 4096 / 64 = x * 128 % 4096 / 64 ∨ pa % 4096 / 64 = x * 128 % 4096 / 64 + 1 := by omega
  rw [AliasEntry.landedAt, if_pos hcovers, AliasEntry.supplies, Bool.and_eq_true] at hs
  have hbit := hs.2
  rw [setBit_getLsbD _ _ _ _ (by omega), setBit_getLsbD _ _ _ _ (by omega)] at hbit
  rcases hsector with h | h <;> simp [h] at hbit

namespace State

/-- Every redirect of a state was there before, with less landed; worlds have had quota given back. -/
structure Fades (s t : State) : Prop where
  entries : ∀ e' ∈ t.alias_.values, ∃ e ∈ s.alias_.values, e.FadesTo e'
  worlds : ∀ w x, s.worlds.find? w = some x → ∃ u, t.worlds.find? w = some { x with used := u }

theorem Fades.refl (s : State) : Fades s s := ⟨fun e h => ⟨e, h, .refl e⟩, fun _ x h => ⟨x.used, h⟩⟩

theorem Fades.trans {s t u : State} (h : Fades s t) (k : Fades t u) : Fades s u := by
  refine ⟨fun e he => ?_, fun w x hx => ?_⟩
  · obtain ⟨e1, h1, f1⟩ := k.entries e he
    obtain ⟨e2, h2, f2⟩ := h.entries e1 h1
    exact ⟨e2, h2, f2.trans f1⟩
  · obtain ⟨u1, h1⟩ := h.worlds w x hx
    obtain ⟨u2, h2⟩ := k.worlds w _ h1
    exact ⟨u2, h2⟩

theorem Fades.foldl {α : Type} (g : State → α → State) (h : ∀ s a, Fades s (g s a)) (xs : List α) (s : State) : Fades s (xs.foldl g s) := by
  induction xs generalizing s with
  | nil => exact .refl s
  | cons x xs ih => exact (h s x).trans (ih _)

/-- No redirect supplies a byte of a line. -/
def Hides (s : State) (x : Nat) : Prop := ∀ e ∈ s.alias_.values, e.shows x = false

theorem Fades.hides {s t : State} (h : Fades s t) {x : Nat} (hx : s.Hides x) : t.Hides x := by
  intro e' he'
  obtain ⟨e, he, hf⟩ := h.entries e' he'
  exact Bool.eq_false_iff.mpr fun hs => Bool.eq_false_iff.mp (hx e he) (hf.shows hs)

/-- A line that one of several steps hides stays hidden. -/
theorem foldl_hides {α : Type} (g : State → α → State) (h : ∀ s a, Fades s (g s a)) {a : α} {x : Nat} (ha : ∀ s, (g s a).Hides x) (xs : List α)
    (hmem : a ∈ xs) (s : State) : (xs.foldl g s).Hides x := by
  induction xs generalizing s with
  | nil => cases hmem
  | cons b xs ih =>
    rcases List.mem_cons.mp hmem with rfl | hmem
    · exact (Fades.foldl g h xs _).hides (ha s)
    · exact ih hmem _

theorem putLanded_alias (s : State) (x : Nat) (d : LineData) : (s.putLanded x d).alias_ =
    (s.alias_.mapVals fun _ => AliasEntry.landedAt x).keep fun _ e => !(e.landed == BitVec.allOnes 64) := rfl

/-- Each redirect after a landing is one from before, in which the line has landed. -/
theorem mem_putLanded {s : State} {x : Nat} {d : LineData} {e' : AliasEntry} (h : e' ∈ (s.putLanded x d).alias_.values) :
    ∃ e ∈ s.alias_.values, e' = e.landedAt x := by
  obtain ⟨ke, hke, rfl⟩ := List.mem_map.mp h
  rw [putLanded_alias] at hke
  obtain ⟨e, he, heq⟩ := FMap.mem_mapVals (List.mem_of_mem_filter hke)
  exact ⟨e, List.mem_map.mpr ⟨_, he, rfl⟩, heq⟩

theorem refund_worlds (s : State) (es : List AliasEntry) {w : Nat} {x : World} (h : s.worlds.find? w = some x) :
    ∃ u, (s.refund es).worlds.find? w = some { x with used := u } := by
  have hfold (m : FMap World) (u : Nat) (hm : m.find? w = some { x with used := u }) :
      ∃ u', (es.foldl (fun (m : FMap World) e => m.adjust e.world fun w => { w with used := w.used - 1 }) m).find? w =
        some { x with used := u' } := by
    induction es generalizing m u with
    | nil => exact ⟨u, hm⟩
    | cons e es ih =>
      by_cases he : w = e.world
      · exact ih _ (u - 1) (by rw [FMap.find?_adjust, if_pos he, ← he, hm]; rfl)
      · exact ih _ u (by rw [FMap.find?_adjust, if_neg he, hm])
  exact hfold s.worlds x.used h

theorem putLanded_fades (s : State) (x : Nat) (d : LineData) : Fades s (s.putLanded x d) := by
  refine ⟨fun e' he' => ?_, fun w y hy => refund_worlds _ _ hy⟩
  obtain ⟨e, he, rfl⟩ := mem_putLanded he'
  exact ⟨e, he, e.landedAt_fades x⟩

theorem putLanded_hides (s : State) (x : Nat) (d : LineData) : (s.putLanded x d).Hides x := by
  intro e' he'
  obtain ⟨e, -, rfl⟩ := mem_putLanded he'
  exact e.landedAt_shows x

theorem landLine_fades (s : State) (x : Nat) : Fades s (s.landLine x) :=
  Fades.foldl _ (fun s (yd : Nat × LineData) => putLanded_fades s yd.1 yd.2) _ s

theorem mem_reach_seen (next : Nat → List Nat) {x : Nat} (n : Nat) (seen front : List Nat) (h : x ∈ seen) : x ∈ reach next n seen front := by
  induction n generalizing seen front with
  | zero => exact h
  | succ n ih =>
    unfold reach
    split
    · exact h
    · exact ih _ _ (List.mem_append_left _ h)

/-- A line that lands is shown by no redirect. -/
theorem landLine_hides (s : State) (x : Nat) : (s.landLine x).Hides x :=
  foldl_hides (fun s (yd : Nat × LineData) => s.putLanded yd.1 yd.2) (fun s yd => putLanded_fades s yd.1 yd.2) (a := (x, s.readAliased x))
    (fun s => putLanded_hides s x _) _
    (List.mem_map.mpr ⟨x, mem_reach_seen _ _ _ _ List.mem_cons_self, rfl⟩) s

/-! ## The frames of a world that are taken back, R198, R203 -/

theorem mem_poolShown {s : State} {w x : Nat} : x ∈ s.poolShown w ↔ ∃ e ∈ s.alias_.values, (e.world = w ∧ isPool e.start = true) ∧
    x ∈ span (e.start / 128) ((e.start + e.len - 1) / 128 + 1 - e.start / 128) ∧ e.shows x = true := by
  simp only [poolShown, List.mem_eraseDups, List.mem_flatMap, List.mem_filter, Bool.and_eq_true, beq_iff_eq, and_assoc]

/-- Once the lines of the Pool that a world's entries supply have landed, they supply none. -/
theorem poolShown_landed (s : State) (w : Nat) : ((s.poolShown w).foldl landLine s).poolShown w = [] := by
  refine List.eq_nil_iff_forall_not_mem.mpr fun x hx => ?_
  obtain ⟨e', he', hworld, hspan, hshows⟩ := mem_poolShown.mp hx
  obtain ⟨e, he, hfade⟩ := (Fades.foldl landLine landLine_fades (s.poolShown w) s).entries e' he'
  have hold : x ∈ s.poolShown w := by
    refine mem_poolShown.mpr ⟨e, he, ?_⟩
    have hshown := hfade.shows hshows
    obtain ⟨l, rfl, -⟩ := hfade
    exact ⟨hworld, hspan, hshown⟩
  have hhidden := foldl_hides landLine landLine_fades (fun s => landLine_hides s x) (s.poolShown w) hold s e' he'
  rw [hshows] at hhidden
  cases hhidden

/-- The landings of a world that is taken back. -/
def poolLanded (s : State) (w : Nat) : State := (s.poolShown w).foldl landLine s

theorem poolLanded_onlyCaches (s : State) (w : Nat) : OnlyCaches s (s.poolLanded w) := OnlyCaches.foldl landLine landLine_onlyCaches _ s

/-- A world that is taken back keeps what its landings leave of memory, redirects and worlds; its frames are to be swept. -/
theorem takeBack_only (s : State) (w : Nat) : s.takeBack w = { s.poolLanded w with
    unswept := (s.takeBack w).unswept, shared := (s.takeBack w).shared, tlb := (s.takeBack w).tlb, ahead := (s.takeBack w).ahead
    cbytes := (s.takeBack w).cbytes, cmeta := (s.takeBack w).cmeta } := rfl

theorem mem_unswept_takeBack {s : State} {w f : Nat} (h : s.owner.find? f = some w) : f ∈ (s.takeBack w).unswept := by
  have howner : (s.poolLanded w).owner = s.owner := by rw [s.poolLanded_onlyCaches w]
  have hunswept : (s.takeBack w).unswept = (s.poolLanded w).unswept ++ (((s.poolLanded w).owner.filter fun f => f.2 == w).map (·.1)).filter
      fun f => !(s.poolLanded w).unswept.contains f := rfl
  have hmine : f ∈ ((s.poolLanded w).owner.filter fun f => f.2 == w).map (·.1) :=
    List.mem_map.mpr ⟨(f, w), List.mem_filter.mpr ⟨howner ▸ FMap.mem_of_find? h, beq_self_eq_true w⟩, rfl⟩
  rw [hunswept, List.mem_append, List.mem_filter]
  by_cases hf : f ∈ (s.poolLanded w).unswept
  · exact .inl hf
  · exact .inr ⟨hmine, by simpa using hf⟩

end State

end Sys2Proof.Machine

/-! SUPPORT. Requests to a tenant interface, and writes to its configuration block (R194 to R201). -/

namespace Sys2Proof.Machine

section Interface

variable {s : State} {w : Nat} {x : World}

/-! ## One world rewritten -/

theorem find?_updWorld (hw : s.worlds.find? w = some x) (f : World → World) (v : Nat) :
    (s.updWorld w f).worlds.find? v = if v = w then some (f x) else s.worlds.find? v := by
  rw [State.updWorld, FMap.find?_adjust, hw]
  rfl

/-! ## Requests, R198, R201 -/

theorem exec_lockInterface_locks (hw : s.worlds.find? w = some x) (hne : w ≠ 0) (hstate : x.tdisp = .unlocked)
    (hquota : x.quota + s.lockedQuota w ≤ Config.aliasTotal) (hconf : x.conf = true → s.boot.featAccept.getLsbD 5 = true) :
    exec (.lockInterface w) s = .next (s.updWorld w fun y => { y with tdisp := .locked, measure := some (s.measured w y) }) := by
  have hexec : exec (.lockInterface w) s = execLockInterface w s := rfl
  rw [hexec, execLockInterface, hw]
  refine congrArg Host.Outcome.next (if_neg ?_)
  cases hc : x.conf
  · simp [hne, hstate, hquota]
  · simp [hne, hstate, hquota, hconf hc]

theorem exec_lockInterface_refuses (hw : s.worlds.find? w = some x) (hne : w ≠ 0)
    (h : Config.aliasTotal < x.quota + s.lockedQuota w ∨ x.tdisp ≠ .unlocked) : exec (.lockInterface w) s = .next (s.refuse w) := by
  have hexec : exec (.lockInterface w) s = execLockInterface w s := rfl
  have hbad : (decide (w = 0) || decide (x.tdisp ≠ .unlocked) || decide (Config.aliasTotal < x.quota + s.lockedQuota w)
      || (x.conf && !s.boot.featAccept.getLsbD 5)) = true := by
    rcases h with h | h <;> simp [h]
  rw [hexec, execLockInterface, hw]
  exact congrArg Host.Outcome.next ((if_pos hbad).trans (if_neg hne))

theorem exec_startInterface (hw : s.worlds.find? w = some x) (hne : w ≠ 0) :
    exec (.startInterface w) s = .next (if x.tdisp ≠ .locked then s.refuse w else s.updWorld w fun y => { y with tdisp := .run }) := by
  have hexec : exec (.startInterface w) s = execStartInterface w s := rfl
  rw [hexec, execStartInterface, hw]
  exact congrArg Host.Outcome.next (if_neg hne)

theorem exec_stopInterface_refuses (hw : s.worlds.find? w = some x) (hne : w ≠ 0) (h : x.tdisp = .unlocked) :
    exec (.stopInterface w) s = .next (s.refuse w) := by
  have hexec : exec (.stopInterface w) s = execStopInterface w s := rfl
  rw [hexec, execStopInterface, hw]
  exact congrArg Host.Outcome.next ((if_neg hne).trans (if_pos h))

/-! ## A stop, R198 -/

/-- The state in which a world is being stopped: its gangs halt when the stop is first asked for. -/
def State.stopped (s : State) (w : Nat) (x : World) : State :=
  if x.stopping = true then s else (s.updWorld w fun y => { y with stopping := true }).haltGangs w

theorem State.stopped_only (s : State) (w : Nat) (x : World) : s.stopped w x =
    { s with worlds := (s.stopped w x).worlds, gangs := (s.stopped w x).gangs, threads := (s.stopped w x).threads } := by
  unfold State.stopped
  split
  · rfl
  · have honly := State.haltGangs_only (s.updWorld w fun y => { y with stopping := true }) w
    generalize (s.updWorld w fun y => { y with stopping := true }).haltGangs w = t at honly ⊢
    rw [honly]
    rfl

theorem State.stopped_world (hw : s.worlds.find? w = some x) : (s.stopped w x).worlds.find? w = some { x with stopping := true } := by
  unfold State.stopped
  split
  · rename_i h
    rw [hw, ← h]
  · rw [State.haltGangs_only]
    exact (find?_updWorld hw _ w).trans (if_pos rfl)

theorem State.stopped_task (s : State) (w : Nat) (x : World) (g : Nat) :
    ((s.stopped w x).gangs.find? g).map (·.task) = (s.gangs.find? g).map (·.task) := by
  unfold State.stopped
  split
  · rfl
  · exact State.haltGangs_task _ w g

/-- The world of a gang is that of its task. -/
theorem State.gangWorld_eq (s : State) (g : Nat) :
    s.gangWorld g = (((s.gangs.find? g).map (·.task)).bind fun t => (s.tasks.find? t).map (·.world)).getD 0 := by
  unfold State.gangWorld
  cases s.gangs.find? g with
  | none => rfl
  | some x => cases hk : s.tasks.find? x.task <;> simp [hk]

/-- A halt moves nothing to or from rest. -/
theorem State.stopped_atRest (s : State) (w : Nat) (x : World) : (s.stopped w x).atRest w = s.atRest w := by
  have honly := s.stopped_only w x
  have htasks : (s.stopped w x).tasks = s.tasks := by rw [honly]
  have hops : (s.stopped w x).ops = s.ops := by rw [honly]
  have hworld : (s.stopped w x).worldOf = s.worldOf := by
    funext t
    rw [State.worldOf, State.gangWorld_eq, State.stopped_task, htasks, ← State.gangWorld_eq, State.worldOf]
  rw [State.atRest, htasks, hops, hworld, State.atRest]

/-- A halt leaves the redirects, and what a re-enciphering holds, as they are. -/
theorem State.stopped_poolHeld (s : State) (w : Nat) (x : World) :
    ((s.stopped w x).poolShown w).any (s.stopped w x).lineHeld = (s.poolShown w).any s.lineHeld := by
  rw [s.stopped_only w x]
  rfl

/-- The state in which a world that is being stopped has come to rest: one that has left LOCKED gives up its frames, R203. -/
def State.rested (s : State) (w : Nat) (x : World) : State :=
  if x.tdisp = .locked then s.stopped w x else (s.stopped w x).takeBack w

theorem State.stopped_poolShown (s : State) (w : Nat) (x : World) : (s.stopped w x).poolShown w = s.poolShown w := by
  rw [s.stopped_only w x]
  rfl

theorem State.rested_owner (s : State) (w : Nat) (x : World) : (s.rested w x).owner = s.owner := by
  unfold State.rested
  split
  · rw [s.stopped_only w x]
  · rw [State.takeBack_only, (s.stopped w x).poolLanded_onlyCaches w, s.stopped_only w x]

theorem State.rested_world (hw : s.worlds.find? w = some x) :
    ∃ u, (s.rested w x).worlds.find? w = some { x with stopping := true, used := u } := by
  unfold State.rested
  split
  · exact ⟨x.used, State.stopped_world hw⟩
  · exact (State.Fades.foldl State.landLine State.landLine_fades ((s.stopped w x).poolShown w) _).worlds w _ (State.stopped_world hw)

theorem State.rested_mem (h : x.tdisp = .locked ∨ s.poolShown w = []) : (s.rested w x).mem = s.mem := by
  have hstopped : (s.stopped w x).mem = s.mem := by rw [s.stopped_only w x]
  unfold State.rested
  split
  · exact hstopped
  · rename_i hlocked
    have hshown : (s.stopped w x).poolShown w = [] := (s.stopped_poolShown w x).trans (h.resolve_left hlocked)
    rw [State.takeBack_only, State.poolLanded, hshown]
    exact hstopped

theorem State.rested_poolShown (h : x.tdisp ≠ .locked) : (s.rested w x).poolShown w = [] := by
  rw [State.rested, if_neg h]
  exact (s.stopped w x).poolShown_landed w

theorem State.rested_unswept (h : x.tdisp ≠ .locked) {f : Nat} (hf : s.owner.find? f = some w) : f ∈ (s.rested w x).unswept := by
  rw [State.rested, if_neg h]
  exact State.mem_unswept_takeBack (by rwa [s.stopped_only w x])

/-- An interface whose world has come to rest returns to CONFIG_UNLOCKED once no returned frame is left to sweep. -/
def State.unlocked (s : State) (w : Nat) : State :=
  if s.unswept.isEmpty = true
  then s.updWorld w fun y => { y with tdisp := .unlocked, stopping := false, measure := none, trigger := false } else s

theorem exec_stopInterface (hw : s.worlds.find? w = some x) (hne : w ≠ 0) (h : x.tdisp ≠ .unlocked) : exec (.stopInterface w) s = .next
    (if (!s.atRest w || (s.poolShown w).any s.lineHeld) = true then s.stopped w x else (s.rested w x).unlocked w) := by
  have hexec : exec (.stopInterface w) s = execStopInterface w s := rfl
  rw [hexec, execStopInterface, hw, ← s.stopped_atRest w x, ← s.stopped_poolHeld w x]
  exact congrArg Host.Outcome.next ((if_neg hne).trans (if_neg h))

theorem State.unlocked_only (s : State) (w : Nat) : s.unlocked w = { s with worlds := (s.unlocked w).worlds } := by
  unfold State.unlocked
  split
  · rfl
  · rfl

theorem State.unlocked_swept (hw : s.worlds.find? w = some x) (h : s.unswept = []) : (s.unlocked w).worlds.find? w =
    some { x with tdisp := .unlocked, stopping := false, measure := none, trigger := false } := by
  rw [State.unlocked, if_pos (List.isEmpty_iff.mpr h)]
  exact (find?_updWorld hw _ w).trans (if_pos rfl)

theorem State.unlocked_unswept (h : s.unswept ≠ []) : s.unlocked w = s :=
  if_neg fun he => h (List.isEmpty_iff.mp he)

/-! ## Entry to ERROR, R198, R199 -/

theorem State.errorState_only (s : State) (w : Nat) : s.errorState w = { s with
    worlds := s.worlds.adjust w fun y => { y with tdisp := .error }
    tasks := s.tasks.mapVals fun _ k =>
      if k.world = w ∧ k.stage ≠ .completed ∧ k.code.isNone = true then { k with code := some .worldPoison } else k
    gangs := (s.errorState w).gangs, threads := (s.errorState w).threads } :=
  State.haltGangs_only _ w

theorem State.errorState_poisoned (s : State) (w : Nat) : Poisoned s (s.errorState w) w := by
  intro t
  rw [State.errorState_only, FMap.find?_mapVals]
  simp only [Option.isNone_iff_eq_none]

theorem State.errorState_halts (hlists : s.listsForm = true) (hgangs : FMap.rising none s.gangs = true) : WorldHalts s (s.errorState w) w := by
  refine WorldHalts.congr (s0 := (s.updWorld w fun x => { x with tdisp := .error }).poisonCodes w) rfl rfl rfl (fun k => ?_)
    (worldHalts_haltGangs w hlists hgangs)
  refine (congrArg (Option.map _) (FMap.find?_mapVals _ _ k)).trans ?_
  rw [State.updWorld_tasks]
  cases s.tasks.find? k with
  | none => rfl
  | some k' =>
    refine congrArg some ?_
    dsimp only
    split <;> rfl

theorem exec_configWrite_error (f : CfgField) (hw : s.worlds.find? w = some x) (hne : w ≠ 0) (h : x.tdisp = .locked ∨ x.tdisp = .run) :
    exec (.configWrite w f) s = .next (s.errorState w) := by
  have hexec : exec (.configWrite w f) s = execConfigWrite w f s := rfl
  rw [hexec, execConfigWrite, hw]
  rcases h with h | h <;> simp only [h, if_neg hne]

theorem exec_lockedRegisterWrite_error (hw : s.worlds.find? w = some x) (hne : w ≠ 0) (h : x.tdisp = .locked ∨ x.tdisp = .run) :
    exec (.lockedRegisterWrite w) s = .next (s.errorState w) := by
  have hexec : exec (.lockedRegisterWrite w) s = execLockedRegisterWrite w s := rfl
  rw [hexec, execLockedRegisterWrite, hw]
  rcases h with h | h <;> simp [h, hne]

theorem exec_configWrite_refuses (f : CfgField) (hw : s.worlds.find? w = some x) (h : x.tdisp = .error) :
    exec (.configWrite w f) s = .next (s.refuse w) := by
  have hexec : exec (.configWrite w f) s = execConfigWrite w f s := rfl
  rw [hexec, execConfigWrite, hw]
  simp only [h]

theorem exec_lockedRegisterWrite_refuses (hw : s.worlds.find? w = some x) (hne : w ≠ 0) (h : x.tdisp = .error) :
    exec (.lockedRegisterWrite w) s = .next (s.refuse w) := by
  have hexec : exec (.lockedRegisterWrite w) s = execLockedRegisterWrite w s := rfl
  rw [hexec, execLockedRegisterWrite, hw]
  simp [h, hne]

/-! ## An unlocked block, R194 to R201 -/

theorem exec_configWrite_unlocked (f : CfgField) (hw : s.worlds.find? w = some x) (h : x.tdisp = .unlocked) :
    exec (.configWrite w f) s = .next (s.configure w x f) := by
  have hexec : exec (.configWrite w f) s = execConfigWrite w f s := rfl
  rw [hexec, execConfigWrite, hw]
  simp only [h]

/-- A write to an unlocked block leaves a world as `y`, and beside it changes at most queues and translations. -/
def ConfigSets (s : State) (w : Nat) (f : CfgField) (y : World) : Prop :=
  ∃ s', exec (.configWrite w f) s = .next s' ∧ s'.worlds.find? w = some y ∧
    s' = { s with worlds := s'.worlds, queues := s'.queues, tlb := s'.tlb, ahead := s'.ahead }

/-- A field that rewrites its world alone. -/
theorem sets_updWorld {f : CfgField} {g : World → World} (hw : s.worlds.find? w = some x) (h : x.tdisp = .unlocked)
    (hf : s.configure w x f = s.updWorld w g) : ConfigSets s w f (g x) :=
  ⟨_, exec_configWrite_unlocked f hw h, by rw [hf, find?_updWorld hw, if_pos rfl], by rw [hf]; rfl⟩

theorem sets_quota (n : Nat) (hw : s.worlds.find? w = some x) (h : x.tdisp = .unlocked) :
    ConfigSets s w (.quota n) (if n ≤ Config.aliasTotal ∧ (w ≠ 0 ∨ x.used ≤ n) then { x with quota := n } else x) := by
  by_cases hn : n ≤ Config.aliasTotal ∧ (w ≠ 0 ∨ x.used ≤ n)
  · rw [if_pos hn]
    exact sets_updWorld (g := fun y => { y with quota := n }) hw h (if_pos hn)
  · rw [if_neg hn]
    have hf : s.configure w x (.quota n) = s := if_neg hn
    exact ⟨_, exec_configWrite_unlocked _ hw h, by rw [hf, hw], by rw [hf]⟩

theorem sets_partitions {m : BitVec 40} (hw : s.worlds.find? w = some x) (h : x.tdisp = .unlocked)
    (hfree : ∀ y ∈ s.worlds, y.1 ≠ 0 → y.1 ≠ w → y.2.mask &&& m = 0) :
    ConfigSets s w (.partitions m) { x with mask := m, pointer := if x.mask = m then x.pointer else none } := by
  have hnone : (s.worlds.any fun y => y.1 != 0 && y.1 != w && y.2.mask &&& m != 0) = false := by
    rw [List.any_eq_false]
    intro y hy
    have := hfree y hy
    simp only [Bool.and_eq_true, bne_iff_ne]
    tauto
  have hf : ∃ tlb ahead, s.configure w x (.partitions m) = { s.updWorld w (fun x =>
      { x with mask := m, pointer := if x.mask = m then x.pointer else none }) with tlb := tlb, ahead := ahead } :=
    ⟨_, _, if_neg (ne_true_of_eq_false hnone)⟩
  obtain ⟨tlb, ahead, hf⟩ := hf
  exact ⟨_, exec_configWrite_unlocked _ hw h, by rw [hf]; exact (find?_updWorld hw _ w).trans (if_pos rfl), by rw [hf]; rfl⟩

theorem sets_bindQueue {q size : Nat} (base : Nat) (hw : s.worlds.find? w = some x) (h : x.tdisp = .unlocked)
    (hfree : ∀ y ∈ s.worlds, y.1 ≠ w → q ∉ y.2.queues) (hpos : 0 < size) (hsize : size ≤ 16) (hq : q < 4096) (hopen : s.openTasks q = 0)
    (hnew : q ∉ x.queues) : ConfigSets s w (.bindQueue q base size) { x with queues := x.queues ++ [q] } := by
  have hnone : (s.worlds.any fun y => y.1 != w && y.2.queues.contains q) = false := by
    rw [List.any_eq_false]
    intro y hy
    have := hfree y hy
    simp only [Bool.and_eq_true, bne_iff_ne, List.contains_iff_mem]
    tauto
  have hf : s.configure w x (.bindQueue q base size) = { s with queues := s.queues.put q (Queue.bound q w base size) }.updWorld w fun x =>
      { x with queues := if x.queues.contains q then x.queues else x.queues ++ [q] } := by
    refine if_neg ?_
    rw [hnone]
    simp only [Bool.false_or, Bool.or_eq_true, decide_eq_true_eq]
    omega
  refine ⟨_, exec_configWrite_unlocked _ hw h, ?_, by rw [hf]; rfl⟩
  rw [hf]
  refine (find?_updWorld (s := { s with queues := s.queues.put q (Queue.bound q w base size) }) hw _ w).trans ?_
  rw [if_pos rfl, if_neg (by simpa using hnew)]

theorem exec_configWrite_share_foreign {f : Nat} (ws : List Nat) (hw : s.worlds.find? w = some x) (h : x.tdisp = .unlocked)
    (ho : s.frameOwner (f * 65536) ≠ some w) : exec (.configWrite w (.share f ws)) s = .next s := by
  rw [exec_configWrite_unlocked _ hw h]
  refine congrArg Host.Outcome.next (if_pos ?_)
  simp [ho]

theorem exec_configWrite_share {f : Nat} (ws : List Nat) (hw : s.worlds.find? w = some x) (h : x.tdisp = .unlocked)
    (ho : s.frameOwner (f * 65536) = some w) (hb : s.rangeBusy (f * 65536) (f * 65536 + 65536) = false) :
    exec (.configWrite w (.share f ws)) s =
      .next { s.forgetFrame f with shared := if ws.isEmpty then s.shared.erase f else s.shared.put f ws } := by
  rw [exec_configWrite_unlocked _ hw h]
  refine congrArg Host.Outcome.next (if_neg ?_)
  simp [ho, hb]

end Interface

/-- Settles O55: each request by the equation of its event, a stop by what the halt, the landings and the sweep leave, an entry to ERROR by what
it poisons and halts, and each field by its own write. -/
theorem interfacesLock : Obligations.InterfacesLock := by
  unfold Obligations.InterfacesLock
  refine ⟨?lock, ?refused, ?start, ?stopping, ?stop, ?error, ?fields, ?share⟩
  case lock =>
    intro s w x hw hne hstate hquota hconf
    exact ⟨_, exec_lockInterface_locks hw hne hstate hquota hconf, rfl, by rw [find?_updWorld hw, if_pos rfl],
      fun v hv => by rw [find?_updWorld hw, if_neg hv]⟩
  case refused =>
    intro s w x f hw hne refuses
    have hrefuses {i : Instr} (hi : exec i s = .next (s.refuse w)) : refuses i := ⟨_, hi, rfl, find?_updWorld hw _⟩
    refine ⟨fun h => hrefuses (exec_lockInterface_refuses hw hne h), fun h => hrefuses ?_,
      fun h => hrefuses (exec_stopInterface_refuses hw hne h),
      fun h => ⟨hrefuses (exec_configWrite_refuses f hw h), hrefuses (exec_lockedRegisterWrite_refuses hw hne h)⟩⟩
    rw [exec_startInterface hw hne, if_pos h]
  case start =>
    intro s w x hw hne hstate
    refine ⟨s.updWorld w fun y => { y with tdisp := .run }, ?_, rfl, by rw [find?_updWorld hw, if_pos rfl],
      fun v hv => by rw [find?_updWorld hw, if_neg hv]⟩
    rw [exec_startInterface hw hne, if_neg (not_not_intro hstate)]
  case stopping =>
    intro s w x hw hne hstate hrest
    refine ⟨s.stopped w x, ?_, s.stopped_only w x, State.stopped_world hw, fun hfirst hlists hgangs => ?_⟩
    · rw [exec_stopInterface hw hne hstate, hrest]
      rfl
    · rw [State.stopped, if_neg (ne_true_of_eq_false hfirst)]
      exact WorldHalts.congr (s0 := s.updWorld w fun y => { y with stopping := true }) rfl rfl rfl (fun _ => rfl)
        (worldHalts_haltGangs w hlists hgangs)
  case stop =>
    intro s w x hw hne hstate hrest hheld
    have honly := (s.rested w x).unlocked_only w
    have hunswept : ((s.rested w x).unlocked w).unswept = (s.rested w x).unswept := by rw [honly]
    obtain ⟨u, hu⟩ := State.rested_world hw
    refine ⟨(s.rested w x).unlocked w, ?_, ?_, fun h => ?_, fun hlocked => ⟨?_, fun f hf => ?_⟩, fun h => ?_, fun h => ?_⟩
    · rw [exec_stopInterface hw hne hstate, hrest, hheld]
      rfl
    · rw [honly, State.rested_owner]
    · rw [honly, State.rested_mem h]
    · rw [honly]
      exact State.rested_poolShown hlocked
    · have hmem : f ∈ ((s.rested w x).unlocked w).unswept := hunswept ▸ State.rested_unswept hlocked hf
      exact ⟨hmem, State.mayUse_unswept hmem⟩
    · exact ⟨u, State.unlocked_swept hu (hunswept.symm.trans h)⟩
    · rw [State.unlocked_unswept (fun he => h (hunswept.trans he))]
      exact ⟨u, hu⟩
  case error =>
    intro s w x f hw hne hstate
    have herror := s.errorState_only w
    refine ⟨⟨_, exec_configWrite_error f hw hne hstate, ?_, ?_, fun v hv => ?_, s.errorState_poisoned w, State.errorState_halts⟩, ?_⟩
    · rw [herror]
    · rw [herror, FMap.find?_adjust, if_pos rfl, hw]
      rfl
    · rw [herror, FMap.find?_adjust, if_neg hv]
    · rw [exec_lockedRegisterWrite_error hw hne hstate, exec_configWrite_error f hw hne hstate]
  case fields =>
    intro s w pa n q base size b v m x hw hstate
    exact ⟨sets_updWorld (g := fun y => { y with root := pa }) hw hstate rfl, sets_updWorld (g := fun y => { y with conf := b }) hw hstate rfl,
      sets_updWorld (g := fun y => { y with devScope := v.getLsbD 0, sysScope := v.getLsbD 1 }) hw hstate rfl, sets_quota n hw hstate,
      sets_partitions hw hstate, sets_bindQueue base hw hstate⟩
  case share =>
    intro s w f ws x hw hstate
    refine ⟨exec_configWrite_share_foreign ws hw hstate, fun ho hb => ⟨_, exec_configWrite_share ws hw hstate ho hb,
      s.forgetFrame_forgotten f, rfl, fun g => ?_⟩⟩
    cases ws with
    | nil => exact FMap.find?_erase _ f g
    | cons y ys => exact FMap.find?_put _ f g _

end Sys2Proof.Machine

/-! SUPPORT. A restore where an extent holds a part of a page (R197, R252, R392, R409). -/

namespace Sys2Proof.Machine

/-! ## The counterexample: page 2^35 of the Pool, of which an extent of world 3 holds all but the first line -/

namespace SplitPage

/-- A snapshot of world 3 that holds nothing but lines shipped with their bytes. -/
def snapshot (frames shipped : List Nat) (mem : Memory) : Snapshot :=
  { number := 0, frames := frames, todo := [], shipped := shipped, mem := mem, meta_ := [], world := World.fresh, queues := [], tasks := []
    gangs := [], rows := [], valid := [], threads := [], ports := [], spad := [], spadTag := [], spadPoison := [], ringH := [], ringT := []
    ring := [], tiles := [], epi := [], revoked := [], batches := [], fetches := [] }

/-- World 3 is to be restored to a checkpoint in which the second line of the page begins with 7. Its extent begins at that line, and an
unfinished snapshot of the world has the page in its area. -/
def start : State := { State.reset with
  extents := [(0, ⟨3, 2 ^ 51 + 128, 65408, none⟩)]
  worlds := [(3, { World.fresh with restoring := true })]
  snaps := [(3, snapshot [2 ^ 35] [] [])]
  durable := [(3, snapshot [] [2 ^ 44 + 1] [(2 ^ 51 + 128, 7)])] }

/-- The restore gives the area up, whose page is then to be swept, and does not write the line. -/
theorem restore_skips : ∃ s', exec (.restore 3) start = .next s' ∧ s'.homeByte (2 ^ 51 + 128) = 0 := ⟨_, rfl, by decide +kernel⟩

end SplitPage

/-- Refutes O58: nothing says that an extent holds whole pages (R409). The clause on restores asks that the world may not use the frames of
the area of its unfinished snapshot, but at their first addresses alone. In `SplitPage.start` an extent of the world begins inside such a
frame, and the world may use a later line of it until the restore gives the area up. The restore then leaves this line as it is, where the
clause has it return to the checkpoint. No event makes such an extent: `execExtentAdd` takes whole pages, so this is a premise that the
statement lacks. -/
theorem not_checkpointsRestore : ¬ Obligations.CheckpointsRestore := by
  unfold Obligations.CheckpointsRestore
  rintro ⟨-, -, -, hrestore, -⟩
  have harea : ∀ q, SplitPage.start.snaps.find? 3 = some q → ∀ f ∈ q.frames, SplitPage.start.mayUse 3 (f * 65536) = false := by
    rintro q hq f hf
    obtain rfl := Option.some.inj hq
    obtain rfl := List.mem_singleton.mp hf
    decide +kernel
  obtain ⟨s1, h1, -, hbytes, -⟩ := hrestore SplitPage.start 3 _ _ rfl (by decide) rfl (by decide +kernel) rfl rfl rfl rfl harea
    (by decide +kernel) (fun q hq => absurd hq List.not_mem_nil)
  obtain ⟨s2, h2, hskipped⟩ := SplitPage.restore_skips
  obtain rfl : s1 = s2 := Host.Outcome.next.inj (h1.symm.trans h2)
  have hreturned : s1.homeByte (2 ^ 51 + 128) = 7 := (hbytes (2 ^ 51 + 128)).trans (if_pos ⟨by decide, by decide +kernel⟩)
  rw [hskipped] at hreturned
  exact absurd hreturned (by decide)

end Sys2Proof.Machine

/-! SUPPORT. A load whose data returns with that of a lane which is held: nothing is filled (R69, R71, R254). -/

namespace Sys2Proof.Machine

/-- The data of a load that may not return yet changes nothing. -/
theorem exec_loadDataReturn_held {s : State} {id : Nat} {o : Op} (h : s.ops.find? id = some o) (hheld : s.mayReturn id o = false) :
    exec (.loadDataReturn id) s = .next s := by
  have hexec : exec (.loadDataReturn id) s = execLoadDataReturn id s := rfl
  rw [hexec, execLoadDataReturn, h]
  simp only [hheld, Bool.not_false, if_true]

/-! ## The counterexample: two lanes that load one word, which one of them has stored before -/

namespace HeldLane

/-- Four bytes of page 2. -/
def word : Place := .global 0x20040

/-- The lane's load of the word, by instruction 7. -/
def load (thread : Nat) : Op := ⟨thread, 7, .load (.plain 4 false) word 4 [25]⟩

/-- The second lane has stored the word, and then both have loaded it. No cache holds a byte. -/
def start : State :=
  { State.reset with
    threads := [(0, { Thread.fresh 0 with ld := 1 }), (1, { Thread.fresh 0 with ld := 1, st := 1 })]
    ops := [(4, ⟨1, 6, .store word [1, 2, 3, 4] false⟩), (5, load 0), (6, load 1)] }

/-- The load of the first lane may be performed: the store is another thread's. -/
theorem first_mayPerform : start.mayPerform 5 (load 0) = true := by decide +kernel

/-- It may not return, as its data comes with that of the second lane, which waits for its own store. -/
theorem first_held : start.mayReturn 5 (load 0) = false := by decide +kernel

end HeldLane

/-- Refutes O39: the clause on loads asks that the load itself may be performed, but not that every lane which returns with it may
(`State.loadGroup`, log entry 22). In `HeldLane.start` two lanes of one instruction load a word that the second has stored before. The
first lane's load may be performed, and the second's waits for its own store (R71). Their data returns together, so the event changes
nothing, where the clause has the L1 hold every byte that the load reads. This is a premise that the statement lacks: its claim on loads
needs `mayReturn`, as a fill does. -/
theorem not_linesMove : ¬ Obligations.LinesMove := by
  unfold Obligations.LinesMove
  rintro ⟨-, -, -, hload, -⟩
  obtain ⟨s', hexec, -, hheld⟩ := hload HeldLane.start 5 0x20040 4 (.plain 4 false) [25] (HeldLane.load 0) rfl rfl
    HeldLane.first_mayPerform (by decide) (by decide) (by decide) rfl
  rw [exec_loadDataReturn_held rfl HeldLane.first_held] at hexec
  obtain rfl := Host.Outcome.next.inj hexec
  obtain ⟨hfirst, -⟩ := hheld 0x20040 (by decide) (by decide)
  exact absurd hfirst (by decide)

end Sys2Proof.Machine

/-! SUPPORT. Windows, leases with their Pool pages, and placement: how the gangs of a task come to stand at its entry (R210, R211, R218, R308
to R310). -/

namespace Sys2Proof.Machine

/-! ## The window, R308 -/

theorem exec_windowEntry {s : State} {q k : Nat} {x : Queue} {w : World} {rest : List Nat} (hq : s.queues.find? q = some x)
    (hwaiting : x.waiting = k :: rest) (hw : s.worlds.find? x.world = some w) (hroom : w.window.length < 256)
    (hfirst : ∀ kq ∈ s.queuesOf x.world, kq.2.waiting = [] ∨ x.headAt ≤ kq.2.headAt) :
    exec (.windowEntry q) s = .next { s with
      queues := s.queues.adjust q fun y => { y with waiting := rest, headAt := s.nextId }
      worlds := s.worlds.adjust x.world fun y => { y with window := y.window ++ [k] }
      tasks := s.tasks.adjust k fun t => { t with stage := .window }
      nextId := s.nextId + 1 } := by
  have hexec : exec (.windowEntry q) s = execWindowEntry q s := rfl
  have hall : ((s.queuesOf x.world).all fun kq => kq.2.waiting.isEmpty || decide (x.headAt ≤ kq.2.headAt)) = true :=
    List.all_eq_true.mpr fun kq hkq => by simpa using hfirst kq hkq
  rw [hexec, execWindowEntry]
  simp only [hq, hwaiting, hw, Option.getD_some, hall]
  rw [if_neg (by simpa using hroom)]
  rfl

/-! ## One fact about many steps -/

/-- What one of several steps brings about holds after all of them, where each keeps it and what it rests on. -/
theorem State.foldl_reaches {α : Type} {rests holds : State → Prop} {g : State → α → State} {xs : List α} {x : α} (hx : x ∈ xs)
    (hrests : ∀ s, ∀ y ∈ xs, rests s → rests (g s y)) (hkeeps : ∀ s, ∀ y ∈ xs, holds s → holds (g s y))
    (hreaches : ∀ s, rests s → holds (g s x)) {s : State} (hs : rests s) : holds (xs.foldl g s) := by
  obtain ⟨pre, post, rfl⟩ := List.append_of_mem hx
  rw [List.foldl_append, List.foldl_cons]
  have hbefore : rests (pre.foldl g s) := List.foldlRecOn pre g hs fun s h y hy => hrests s y (List.mem_append_left _ hy) h
  exact List.foldlRecOn post g (hreaches _ hbefore) fun s h y hy =>
    hkeeps s y (List.mem_append_right _ (List.mem_cons_of_mem _ hy)) h

/-! ## What the moves of pages and cache lines leave alone, R218, R223, R254 -/

namespace State

/-- Nothing but what the caches hold differs. -/
def OnlyHeld (s t : State) : Prop := t = { s with cbytes := t.cbytes, cmeta := t.cmeta }

theorem OnlyHeld.trans {s t u : State} (h : OnlyHeld s t) (k : OnlyHeld t u) : OnlyHeld s u := by
  unfold OnlyHeld at h k ⊢
  rw [h] at k
  exact k

theorem OnlyHeld.foldl {α : Type} (g : State → α → State) (h : ∀ s x, OnlyHeld s (g s x)) (xs : List α) (s : State) :
    OnlyHeld s (xs.foldl g s) :=
  List.foldlRecOn xs g rfl fun _ ht y _ => ht.trans (h _ y)

theorem setCMeta_onlyHeld (s : State) (u x : Nat) (f : CMeta → CMeta) : OnlyHeld s (s.setCMeta u x f) := by
  unfold setCMeta
  dsimp only
  split <;> rfl

theorem cleanLine_onlyHeld (s : State) (u x : Nat) (ds : List (Nat × BitVec 8)) : OnlyHeld s (s.cleanLine u x ds) := by
  unfold cleanLine
  refine OnlyHeld.trans ?_ (setCMeta_onlyHeld _ u x _)
  rfl

theorem mergeCache_onlyHeld (s : State) (u x w : Nat) (ds : List (Nat × BitVec 8)) (tags : BitVec 8) (poison : Bool) :
    OnlyHeld s (s.mergeCache u x w ds tags poison) := by
  unfold mergeCache
  refine OnlyHeld.trans ?_ (setCMeta_onlyHeld _ u x _)
  rfl

theorem discardLine_onlyHeld (p : Nat → Bool) (s : State) (u x : Nat) : OnlyHeld s (discardLine p s u x) := by
  unfold discardLine
  refine OnlyHeld.trans ?_ (setCMeta_onlyHeld _ u x _)
  rfl

theorem discardFor_onlyHeld (s : State) (spots : List Spot) : OnlyHeld s (s.discardFor spots) :=
  OnlyHeld.foldl _ (fun s u => OnlyHeld.foldl _ (fun s x => discardLine_onlyHeld _ s u x) (s.linesOf u) s) _ s

section WriteBack

variable {R : State → State → Prop} (hrefl : ∀ s, R s s) (htrans : ∀ {s t u}, R s t → R t u → R s u)
  (hheld : ∀ {s t}, OnlyHeld s t → R s t) (hmerge : ∀ s x ds tags poison, R s (s.mergeHome x ds tags poison))

include hrefl htrans hheld hmerge

theorem pushQuad_related (p : Nat → Bool) (s : State) (u x : Nat) : R s (pushQuad p s u x) := by
  unfold pushQuad
  dsimp only
  split
  · exact hrefl s
  · exact htrans (hheld (cleanLine_onlyHeld s u x _)) (hmerge _ x _ _ _)

theorem claimQuad_related (s : State) (u x tag : Nat) : R s (s.claimQuad u x tag) := by
  have hyield (y : Nat) : R s (s.yieldQuad u y) := htrans (pushQuad_related hrefl htrans hheld hmerge _ s u y) (hheld rfl)
  unfold claimQuad roomQuad
  split
  · split
    · exact hrefl s
    · exact hyield _
  · split
    · exact hrefl s
    · exact hyield _

/-- A write-back is made of what the caches hold and of merges at the home slices, so that what both keep it keeps, R223. -/
theorem pushLine_related (p : Nat → Bool) (s : State) (u x : Nat) : R s (pushLine p s u x) := by
  have hclean (ds : List (Nat × BitVec 8)) : R s (s.cleanLine u x ds) := hheld (cleanLine_onlyHeld s u x ds)
  unfold pushLine
  dsimp only
  split
  · split
    · exact hrefl s
    · split
      · exact htrans (htrans (hclean _) (claimQuad_related hrefl htrans hheld hmerge _ _ x _)) (hheld (mergeCache_onlyHeld _ _ x _ _ _ _))
      · split
        · exact hrefl s
        · exact htrans (hclean _) (hmerge _ x _ _ _)
  · exact pushQuad_related hrefl htrans hheld hmerge p s u x

end WriteBack

/-- The frames that Pool pages are in are the same, with the same pins. -/
def KeepsPins (s t : State) : Prop := ∀ p, (t.frames.find? p).map (·.pins) = (s.frames.find? p).map (·.pins)

namespace KeepsPins

theorem of_eq {s t : State} (h : t.frames = s.frames) : KeepsPins s t := fun p => by rw [h]

theorem trans {s t u : State} (h : KeepsPins s t) (k : KeepsPins t u) : KeepsPins s u := fun p => (k p).trans (h p)

theorem foldl {α : Type} (g : State → α → State) (h : ∀ s x, KeepsPins s (g s x)) (xs : List α) (s : State) : KeepsPins s (xs.foldl g s) :=
  List.foldlRecOn xs g (of_eq rfl) fun _ ht y _ => ht.trans (h _ y)

end KeepsPins

theorem landLine_keepsPins (s : State) (x : Nat) : KeepsPins s (s.landLine x) :=
  KeepsPins.foldl _ (fun s (yd : Nat × LineData) => .of_eq (show (s.putLanded yd.1 yd.2).frames = s.frames from rfl)) _ s

theorem beforeWrite_keepsPins (s : State) (x : Nat) : KeepsPins s (s.beforeWrite x) := by
  unfold beforeWrite
  extract_lets s1
  have h1 : KeepsPins s s1 := by
    unfold s1
    split
    · exact landLine_keepsPins s x
    · exact .of_eq rfl
  split
  · exact (h1.trans (KeepsPins.foldl landLine landLine_keepsPins _ s1)).trans (.of_eq rfl)
  · exact h1

theorem useFrame_keepsPins (s : State) (pa : Nat) : KeepsPins s (s.useFrame pa) := by
  unfold useFrame
  split
  · intro p
    rw [FMap.find?_adjust]
    split
    · subst p
      rw [Option.map_map]
      rfl
    · rfl
  · exact .of_eq rfl

theorem mergeHome_keepsPins (s : State) (x : Nat) (ds : List (Nat × BitVec 8)) (tags : BitVec 8) (poison : Bool) :
    KeepsPins s (s.mergeHome x ds tags poison) := by
  unfold mergeHome
  refine KeepsPins.trans ?_ (useFrame_keepsPins _ _)
  have hruns := KeepsPins.foldl (fun s (r : Nat × List (BitVec 8)) => s.rawWrite r.1 r.2) (fun _ _ => .of_eq rfl) (runs ds) (s.beforeWrite x)
  exact ((beforeWrite_keepsPins s x).trans hruns).trans (.of_eq rfl)

theorem pushLine_keepsPins (p : Nat → Bool) (s : State) (u x : Nat) : KeepsPins s (pushLine p s u x) :=
  pushLine_related (fun _ => .of_eq rfl) .trans (fun h => .of_eq (by rw [h])) mergeHome_keepsPins p s u x

/-- The push of a page's lines keeps what the push of a line keeps. -/
theorem pushRange_related {R : State → State → Prop} (hrefl : ∀ s, R s s) (htrans : ∀ {s t u}, R s t → R t u → R s u)
    (hpush : ∀ s u x, R s (pushLine (fun _ => true) s u x)) (s : State) (lo hi : Nat) : R s (s.pushRange lo hi) := by
  have hlines (ls : List (Nat × Nat)) (s : State) : R s (ls.foldl (fun s l => pushLine (fun _ => true) s l.1 l.2) s) :=
    List.foldlRecOn ls _ (hrefl s) fun _ h l _ => htrans h (hpush _ l.1 l.2)
  exact htrans (hlines _ s) (hlines _ _)

/-- What the moves of Pool pages may change: the caches and what lies behind them, and the memory behind the pool port, with its
counters. -/
def OnlyPages (s t : State) : Prop :=
  t = { s with
    mem := t.mem, meta_ := t.meta_, alias_ := t.alias_, worlds := t.worlds, cbytes := t.cbytes, cmeta := t.cmeta, frames := t.frames
    poolMem := t.poolMem, poolCtr := t.poolCtr }

theorem OnlyPages.refl (s : State) : OnlyPages s s := rfl

theorem OnlyPages.trans {s t u : State} (h : OnlyPages s t) (k : OnlyPages t u) : OnlyPages s u := by
  unfold OnlyPages at h k ⊢
  rw [h] at k
  exact k

theorem OnlyPages.foldl {α : Type} (g : State → α → State) (h : ∀ s x, OnlyPages s (g s x)) (xs : List α) (s : State) :
    OnlyPages s (xs.foldl g s) :=
  List.foldlRecOn xs g (.refl s) fun _ ht y _ => ht.trans (h _ y)

theorem OnlyPages.tasks {s t : State} (h : OnlyPages s t) : t.tasks = s.tasks := by rw [h]

theorem OnlyPages.spad {s t : State} (h : OnlyPages s t) : t.spad = s.spad := by rw [h]

theorem OnlyPages.sameRegisters {s t : State} (h : OnlyPages s t) : SameRegisters s t := sameRegisters_of (by rw [h]) (by rw [h])

theorem OnlyCaches.pages {s t : State} (h : OnlyCaches s t) : OnlyPages s t := by
  unfold OnlyCaches at h
  unfold OnlyPages
  rw [h]

/-- The lines of a page have moved home, and those elsewhere that take bytes from it have landed, R218, R242. -/
def pageHome (s : State) (page : Nat) : State :=
  let s1 := s.pushRange (page * 65536) (page * 65536 + 65536)
  (s1.takersOf (page * 65536) (page * 65536 + 65536)).foldl landLine s1

theorem pageHome_onlyCaches (s : State) (page : Nat) : OnlyCaches s (s.pageHome page) :=
  (pushRange_related .refl .trans (pushLine_onlyCaches _) s _ _).trans (OnlyCaches.foldl landLine landLine_onlyCaches _ _)

theorem pageHome_keepsPins (s : State) (page : Nat) : KeepsPins s (s.pageHome page) :=
  (pushRange_related (fun _ => .of_eq rfl) .trans (pushLine_keepsPins _) s _ _).trans (KeepsPins.foldl landLine landLine_keepsPins _ _)

theorem evictFrame_onlyPages (s : State) (page : Nat) : OnlyPages s (s.evictFrame page) := by
  have hleaves (t u : State) (pool : Memory) (cb : FMap CByte) (cm : FMap CMeta) (fr : FMap FrameEntry) (h : OnlyPages t u) :
      OnlyPages t { u with poolMem := pool, cbytes := cb, cmeta := cm, frames := fr } := h.trans rfl
  have hcounted := OnlyPages.foldl countLine (fun _ _ => rfl) ((span (page * 512) 512).filter (s.pageHome page).poolDirty) (s.pageHome page)
  exact hleaves _ _ _ _ _ _ ((pageHome_onlyCaches s page).pages.trans hcounted)

theorem evictFrame_frames (s : State) (page : Nat) : (s.evictFrame page).frames = (s.pageHome page).frames.erase page := rfl

end State

end Sys2Proof.Machine

/-! SUPPORT. A lease is had whole or not at all: its Pool pages come into their frames and are pinned there (R210, R211, R218). -/

namespace Sys2Proof.Machine

/-! ## Frames that are listed, R218 -/

namespace FMap

variable {α : Type}

/-- A listing more, or one in place of another. -/
theorem length_filterKey_put (p : Nat → Bool) (m : FMap α) (k : Nat) (v : α) :
    ((m.put k v).filter fun kv => p kv.1).length ≤ (m.filter fun kv => p kv.1).length + if p k = true then 1 else 0 := by
  induction m with
  | nil => cases hp : p k <;> simp [put, hp]
  | cons a m ih =>
    obtain ⟨k', v'⟩ := a
    simp only [put]
    by_cases hk : k' = k
    · subst hk
      cases hp : p k' <;> simp [hp]
    · rw [if_neg hk]
      by_cases hlt : k < k'
      · rw [if_pos hlt, List.filter_cons]
        cases hp : p k <;> simp
      · rw [if_neg hlt, List.filter_cons, List.filter_cons]
        cases hp : p k' <;> simp <;> omega

end FMap

namespace State

/-- A page of a lease comes into its frame, for which another may have to leave, and is pinned there, R211. -/
def takePage (pages : List Nat) (s : State) (page : Nat) : State := ((s.makeWay pages page).fillFrame page).pin page true

/-- A page stands pinned in a frame, R211. -/
def Pinned (s : State) (page : Nat) : Prop := ∃ f, s.frames.find? page = some f ∧ 0 < f.pins

/-! ## A page that comes in -/

/-- The page that leaves for one of a lease is none of the lease's, R211. -/
theorem victimFor_other {s : State} {pages : List Nat} {page v : Nat} (h : s.victimFor pages page = some v) : v ∉ pages := by
  let cs := s.frames.filter fun kf => s.poolSet kf.1 == s.poolSet page && !pages.contains kf.1 && s.evictable kf.1 kf.2
  have hbest : s.victimFor pages page =
      (cs.foldl (bestStep fun c b => decide (c.2.used < b.2.used)) (none : Option (Nat × FrameEntry))).map (·.1) := by
    unfold victimFor
    congr 2
    funext best kf
    cases best <;> simp [bestStep]
  rw [hbest] at h
  have hne : cs ≠ [] := by
    intro hnil
    rw [hnil] at h
    exact absurd h (by simp)
  obtain ⟨c, hc, hmem, -⟩ := foldl_bestStep (r := fun d c => c.2.used ≤ d.2.used) (fun _ => le_refl _) (fun h k => k.trans h)
    (fun h => (of_decide_eq_true h).le) (fun h => not_lt.mp (of_decide_eq_false h)) hne
  rw [hc] at h
  obtain rfl := Option.some.inj h
  have hkept := (List.mem_filter.mp hmem).2
  simp only [Bool.and_eq_true, Bool.not_eq_true', List.contains_eq_mem, decide_eq_false_iff_not] at hkept
  exact hkept.1.2

theorem KeepsPins.pinned {s t : State} (h : KeepsPins s t) {page : Nat} (hp : s.Pinned page) : t.Pinned page := by
  obtain ⟨f, hf, hpos⟩ := hp
  have hpins := h page
  rw [hf] at hpins
  obtain ⟨f', hf', he⟩ := Option.map_eq_some_iff.mp hpins
  exact ⟨f', hf', he ▸ hpos⟩

/-- What leaves for a page of a lease leaves the pinned pages of the lease where they are. -/
theorem makeWay_pinned {s : State} {pages : List Nat} (page : Nat) {q : Nat} (hq : q ∈ pages) (h : s.Pinned q) :
    (s.makeWay pages page).Pinned q := by
  unfold makeWay
  split
  · exact h
  · split
    · exact h
    · rename_i v hv
      have hne : q ≠ v := fun e => victimFor_other hv (e ▸ hq)
      obtain ⟨f, hf, hpos⟩ := (pageHome_keepsPins s v).pinned h
      exact ⟨f, by rw [evictFrame_frames, FMap.find?_erase, if_neg hne]; exact hf, hpos⟩

theorem fillFrame_there (s : State) (page : Nat) : ∃ f, (s.fillFrame page).frames.find? page = some f := by
  unfold fillFrame
  split
  · rename_i f h
    exact ⟨f, h⟩
  · exact ⟨_, FMap.find?_put_self _ _ _⟩

theorem fillFrame_pinned {s : State} (page : Nat) {q : Nat} (h : s.Pinned q) : (s.fillFrame page).Pinned q := by
  unfold fillFrame
  split
  · exact h
  · rename_i hnone
    obtain ⟨f, hf, hpos⟩ := h
    have hne : q ≠ page := fun e => by rw [e, hnone] at hf; exact absurd hf (by simp)
    exact ⟨f, by rw [FMap.find?_put, if_neg hne]; exact hf, hpos⟩

theorem pin_pinned {s : State} (page : Nat) {q : Nat} (h : s.Pinned q) : (s.pin page true).Pinned q := by
  obtain ⟨f, hf, hpos⟩ := h
  by_cases hq : q = page
  · subst hq
    exact ⟨_, by rw [pin, FMap.find?_adjust, if_pos rfl, hf]; rfl, Nat.succ_pos _⟩
  · exact ⟨f, by rw [pin, FMap.find?_adjust, if_neg hq]; exact hf, hpos⟩

/-- The page that comes in is pinned. -/
theorem takePage_pinned_self (s : State) (pages : List Nat) (page : Nat) : (s.takePage pages page).Pinned page := by
  obtain ⟨f, hf⟩ := (s.makeWay pages page).fillFrame_there page
  exact ⟨_, by rw [takePage, pin, FMap.find?_adjust, if_pos rfl, hf]; rfl, Nat.succ_pos _⟩

theorem takePage_pinned {s : State} {pages : List Nat} (page : Nat) {q : Nat} (hq : q ∈ pages) (h : s.Pinned q) :
    (s.takePage pages page).Pinned q :=
  pin_pinned page (fillFrame_pinned page (makeWay_pinned page hq h))

theorem takePage_onlyPages (s : State) (pages : List Nat) (page : Nat) : OnlyPages s (s.takePage pages page) := by
  have hway : OnlyPages s (s.makeWay pages page) := by
    unfold makeWay
    split
    · exact .refl s
    · split
      · exact .refl s
      · exact evictFrame_onlyPages s _
  have hfill (t : State) : OnlyPages t (t.fillFrame page) := by
    unfold fillFrame
    split <;> rfl
  exact (hway.trans (hfill _)).trans rfl

/-! ## The pages of a lease -/

theorem takePages_onlyPages (s : State) (pages : List Nat) : OnlyPages s (pages.foldl (takePage pages) s) :=
  OnlyPages.foldl _ (takePage_onlyPages · pages) pages s

/-- Every page of a lease is pinned in a frame once all have come in, R211. -/
theorem takePages_pinned (s : State) {pages : List Nat} {q : Nat} (hq : q ∈ pages) : (pages.foldl (takePage pages) s).Pinned q :=
  foldl_reaches (rests := fun _ => True) (holds := (Pinned · q)) hq (fun _ _ _ _ => trivial) (fun _ p _ h => takePage_pinned p hq h)
    (fun s _ => s.takePage_pinned_self pages q) trivial

/-- The pages in the frames of a page's set, R218. -/
def inSet (s : State) (page : Nat) : Nat := (s.frames.filter fun kf => s.poolSet kf.1 == s.poolSet page).length

/-- A page whose set has a free way comes in, and nothing has to leave. -/
theorem takePage_fits {s : State} {page : Nat} (pages : List Nat) (h : s.inSet page < 16) :
    ∃ f, s.takePage pages page = { s with frames := s.frames.put page f } := by
  have hway : s.makeWay pages page = s := if_pos (by
    have hlt : decide (s.inSet page < 16) = true := decide_eq_true h
    unfold inSet at hlt
    rw [hlt, Bool.or_true])
  unfold takePage
  rw [hway, fillFrame]
  split
  · rename_i f hf
    exact ⟨_, by unfold pin FMap.adjust; rw [hf]⟩
  · exact ⟨_, by unfold pin FMap.adjust; rw [FMap.find?_put_self]; dsimp only; rw [FMap.put_put]⟩

/-- Where every set has room for all of the pages, they come in and nothing has to leave, R211. -/
theorem takePages_fit (pages todo : List Nat) (s : State) (h : ∀ p ∈ todo, s.inSet p + s.mates todo p ≤ 16) :
    ∃ fr, todo.foldl (takePage pages) s = { s with frames := fr } := by
  induction todo generalizing s with
  | nil => exact ⟨s.frames, rfl⟩
  | cons p todo ih =>
    have hmates (q : Nat) : s.mates (p :: todo) q = s.mates todo q + if (s.poolSet p == s.poolSet q) = true then 1 else 0 := by
      unfold mates
      rw [List.filter_cons]
      split <;> rfl
    have hfree : s.inSet p < 16 := by
      have hp := h p List.mem_cons_self
      rw [hmates p, if_pos (beq_self_eq_true _)] at hp
      omega
    obtain ⟨f, hf⟩ := takePage_fits pages hfree
    rw [List.foldl_cons, hf]
    obtain ⟨fr, hfr⟩ := ih { s with frames := s.frames.put p f } fun q hq => by
      have hset : State.inSet { s with frames := s.frames.put p f } q ≤ s.inSet q + if (s.poolSet p == s.poolSet q) = true then 1 else 0 :=
        FMap.length_filterKey_put (fun k => s.poolSet k == s.poolSet q) s.frames p f
      have hroom := h q (List.mem_cons_of_mem _ hq)
      rw [hmates q] at hroom
      have hsame : State.mates { s with frames := s.frames.put p f } todo q = s.mates todo q := rfl
      omega
    exact ⟨fr, hfr⟩

/-! ## The answer to a task in the window -/

theorem exec_leaseEstablish_denied {s : State} {t : Nat} {k : Task} (hk : s.tasks.find? t = some k) (hstage : k.stage = .window)
    (hcode : k.code = none) (hfree : s.heldBack t k = false) (hdenied : s.leaseDenied k = true) :
    exec (.leaseEstablish t) s = .next (s.updTask t fun t => { t with code := some .leaseDenied }) := by
  have hexec : exec (.leaseEstablish t) s = execLeaseEstablish t s := rfl
  rw [hexec, execLeaseEstablish, hk]
  simp [hstage, hcode, hfree, hdenied]

/-- The device with the lease of a task had, and its Pool pages in. -/
def withLease (s : State) (t : Nat) (k : Task) : State :=
  let lease := s.leaseOf k.world k.record.cover
  let s1 := (poolPages lease).foldl (takePage (poolPages lease)) s
  (k.record.cover.foldl (fun s b => s.walkHot k.world (b.1 * 65536)) s1).updTask t fun k =>
    { k with stage := .leased, lease := lease, pins := poolPages lease }

theorem exec_leaseEstablish_granted {s : State} {t : Nat} {k : Task} (hk : s.tasks.find? t = some k) (hstage : k.stage = .window)
    (hcode : k.code = none) (hfree : s.heldBack t k = false) (hdenied : s.leaseDenied k = false) (hswept : s.leaseUnswept k = false)
    (hfit : s.setsFit (poolPages (s.leaseOf k.world k.record.cover)) = true) :
    exec (.leaseEstablish t) s = .next (s.withLease t k) := by
  have hexec : exec (.leaseEstablish t) s = execLeaseEstablish t s := rfl
  rw [hexec, execLeaseEstablish, hk]
  simp only [hstage, hcode, hfree, hdenied, hswept, hfit, ne_eq, not_true_eq_false, Option.isSome_none, Bool.false_eq_true, Bool.not_true,
    if_false]
  rfl

/-- Beside the pages that come in, a lease changes its task, and the walks of its translations raise HOT where they are redirected. -/
theorem withLease_eq (s : State) (t : Nat) (k : Task) :
    let lease := s.leaseOf k.world k.record.cover
    s.withLease t k = { (poolPages lease).foldl (takePage (poolPages lease)) s with
      alias_ := (s.withLease t k).alias_
      tasks := s.tasks.adjust t fun k => { k with stage := .leased, lease := lease, pins := poolPages lease } } := by
  intro lease
  have hpages : ((poolPages lease).foldl (takePage (poolPages lease)) s).tasks = s.tasks :=
    (takePages_onlyPages s (poolPages lease)).tasks
  have hwalks := walkHots_aliases k.world (fun b : Nat × Bool => b.1 * 65536) k.record.cover
    ((poolPages lease).foldl (takePage (poolPages lease)) s)
  unfold withLease updTask
  dsimp only
  rw [hwalks]
  dsimp only
  rw [hpages]

end State

end Sys2Proof.Machine

/-! SUPPORT. The distributor places a gang of a grid: its places, and the threads at the task's entry (R178, R298, R309, R310); and the
obligation on tasks that start. -/

namespace Sys2Proof.Machine

namespace State

/-! ## Threads at the task's entry, R178, R298 -/

/-- A thread at a task's entry, with its predicates and control register clear, R298. -/
def AtEntry (r : TaskRec) (h : Thread) : Prop :=
  h.pc = r.code.cap.base + r.entry ∧ h.stat = .ready ∧ h.handling = false ∧ h.preds = 0 ∧ h.fctl = 0

/-- One value listed at several keys. -/
theorem get_putAll {α : Type} (d v : α) (ks : List Nat) (m : FMap α) (j : Nat) :
    (ks.foldl (fun m k => FMap.put m k v) m).get d j = if j ∈ ks then v else m.get d j := by
  induction ks generalizing m with
  | nil => simp
  | cons k ks ih =>
    rw [List.foldl_cons, ih, FMap.get_put]
    by_cases hj : j = k <;> simp [hj]

/-- The threads of a crew are those of first placement, and every other is as it was. -/
theorem thread_freshThreads (s : State) (r : TaskRec) (crew t : Nat) : (s.freshThreads r crew).thread t =
    if t ∈ span (crew * 32) 32 then { Thread.fresh (r.code.cap.base + r.entry) with since := s.clock, seen := s.lastEvent }
    else s.thread t := by
  unfold freshThreads thread
  dsimp only
  rw [get_putAll]

/-- Nothing but crews with their registers and threads differs. -/
def OnlyCrews (s t : State) : Prop := t = { s with crews := t.crews, rows := t.rows, valid := t.valid, threads := t.threads }

theorem OnlyCrews.trans {s t u : State} (h : OnlyCrews s t) (k : OnlyCrews t u) : OnlyCrews s u := by
  unfold OnlyCrews at h k ⊢
  rw [h] at k
  exact k

theorem entryRegs_onlyCrews (s : State) (r : TaskRec) (crew : Nat) (lanes : BitVec 32) : OnlyCrews s (s.entryRegs r crew lanes) := by
  unfold entryRegs OnlyCrews
  dsimp only

theorem freshThreads_onlyCrews (s : State) (r : TaskRec) (crew : Nat) : OnlyCrews s (s.freshThreads r crew) := by
  unfold freshThreads OnlyCrews
  dsimp only

/-- The registers of a crew are no threads. -/
theorem thread_entryRegs (s : State) (r : TaskRec) (crew : Nat) (lanes : BitVec 32) (t : Nat) :
    (s.entryRegs r crew lanes).thread t = s.thread t := by
  unfold entryRegs thread
  dsimp only

/-- A gang stands on its cores. -/
def Stays (s : State) (g : Nat) : Prop := (s.gangs.find? g).any (fun x => decide (x.stat = GStat.resident)) = true

theorem OnlyCrews.stays {s t : State} (h : OnlyCrews s t) {g : Nat} (hg : s.Stays g) : t.Stays g := by
  unfold Stays
  rw [h]
  exact hg

/-- A crew of a gang that is placed for the first time takes its place, R310. -/
def enterCrew (g stamp : Nat) (r : TaskRec) (team : Nat) (s : State) (c : Nat × Nat × Nat) : State :=
  let crew := (g * 16 + team) * 32 + c.1
  if (s.gangs.find? g).any fun x => decide (x.stat = GStat.resident) then
    let seated := { s with crews := s.crews.put crew ⟨c.2.1, c.2.2, stamp, false⟩ }
    (seated.entryRegs r crew (BitVec.allOnes 32)).freshThreads r crew
  else s

/-- The crews of a team take their places. -/
def enterTeam (g stamp : Nat) (r : TaskRec) (s : State) (sp : Spot) : State := sp.crews.foldl (enterCrew g stamp r sp.team) s

section Entry

variable (g stamp : Nat) (r : TaskRec)

theorem enterCrew_onlyCrews (team : Nat) (s : State) (c : Nat × Nat × Nat) : OnlyCrews s (enterCrew g stamp r team s c) := by
  unfold enterCrew
  extract_lets crew seated
  split
  · exact (OnlyCrews.trans (rfl : OnlyCrews s seated) (entryRegs_onlyCrews seated r crew _)).trans (freshThreads_onlyCrews _ r crew)
  · rfl

theorem enterTeam_onlyCrews (s : State) (sp : Spot) : OnlyCrews s (enterTeam g stamp r s sp) :=
  List.foldlRecOn sp.crews _ (motive := OnlyCrews s) rfl fun _ h c _ => h.trans (enterCrew_onlyCrews g stamp r sp.team _ c)

theorem enterTeams_onlyCrews (s : State) (spots : List Spot) : OnlyCrews s (spots.foldl (enterTeam g stamp r) s) :=
  List.foldlRecOn spots _ (motive := OnlyCrews s) rfl fun _ h sp _ => h.trans (enterTeam_onlyCrews g stamp r _ sp)

variable {g stamp r}

/-- Each thread of a crew that takes its place stands at the entry. -/
theorem enterCrew_atEntry {team l : Nat} {s : State} {c : Nat × Nat × Nat} (hl : l < 32) (hg : s.Stays g) :
    AtEntry r ((enterCrew g stamp r team s c).thread (((g * 16 + team) * 32 + c.1) * 32 + l)) := by
  unfold enterCrew Stays at *
  extract_lets crew seated
  rw [if_pos hg, thread_freshThreads, if_pos (mem_span.mpr (by omega))]
  exact ⟨rfl, rfl, rfl, rfl, rfl⟩

/-- A thread at the entry stays there while other crews take their places. -/
theorem enterCrew_keepsEntry {team t : Nat} {s : State} (c : Nat × Nat × Nat) (h : AtEntry r (s.thread t)) :
    AtEntry r ((enterCrew g stamp r team s c).thread t) := by
  unfold enterCrew
  extract_lets crew seated
  split
  · rw [thread_freshThreads]
    split
    · exact ⟨rfl, rfl, rfl, rfl, rfl⟩
    · rw [thread_entryRegs]
      exact h
  · exact h

theorem enterTeam_keepsEntry {t : Nat} {s : State} (sp : Spot) (h : AtEntry r (s.thread t)) : AtEntry r ((enterTeam g stamp r s sp).thread t) :=
  List.foldlRecOn sp.crews _ (motive := fun s : State => AtEntry r (s.thread t)) h fun _ h c _ => enterCrew_keepsEntry c h

/-- Once a gang's crews have taken their places, each of their threads stands at the entry. -/
theorem enterTeams_atEntry {s : State} {spots : List Spot} (hg : s.Stays g) {sp : Spot} (hsp : sp ∈ spots) {c : Nat × Nat × Nat}
    (hc : c ∈ sp.crews) {l : Nat} (hl : l < 32) :
    AtEntry r ((spots.foldl (enterTeam g stamp r) s).thread (((g * 16 + sp.team) * 32 + c.1) * 32 + l)) := by
  refine foldl_reaches (rests := (Stays · g)) (holds := fun s : State => AtEntry r (s.thread _)) hsp
    (fun s y _ h => (enterTeam_onlyCrews g stamp r s y).stays h) (fun s y _ h => enterTeam_keepsEntry y h) (fun s hs => ?_) hg
  exact foldl_reaches (rests := (Stays · g)) (holds := fun s : State => AtEntry r (s.thread _)) hc
    (fun s y _ h => (enterCrew_onlyCrews g stamp r sp.team s y).stays h) (fun s y _ h => enterCrew_keepsEntry y h)
    (fun s h => enterCrew_atEntry hl h) hs

end Entry

/-! ## A gang's first placement, R309, R310 -/

/-- The device with a gang made resident on the cores of its places, before its crews take them. -/
def resided (s : State) (g : Nat) (spots : List Spot) : State :=
  ((State.updGang { s.discardFor spots with nextId := s.nextId + 1 } g fun x =>
    { x with
      stat := .resident, cores := spots.foldl (fun (m : FMap Nat) sp => m.put sp.team sp.core) [], preempt := none, wake := none
      planes := [], placed := s.nextId, placedAt := s.clock }).moveRing g [] spots)

/-- A gang that waits to be launched, and has been nowhere yet, takes its places. -/
theorem placeAt_first {s : State} {g : Nat} {x : Gang} (w q : Nat) (k : Task) (spots : List Spot) (hg : s.gangs.find? g = some x)
    (hstat : x.stat = .pending) (hcores : x.cores = []) (hplanes : x.planes = []) :
    s.placeAt w q g k spots = ((spots.foldl (enterTeam g s.nextId k.record) (s.resided g spots)).updQueue q fun y =>
      { y with ahead := y.ahead.filter (· != g) }).updWorld w fun y =>
        { y with pointer := (lastQuad (s.searchOrder w) spots).or y.pointer, lastQ := q } := by
  have hnone : ∀ (t : State) (b : Bool), t.restorePlanes g (if b = true then [] else []) = t := fun t b => by cases b <;> rfl
  unfold placeAt
  rw [hg]
  simp only [Option.map_some, Option.getD_some, hstat, hcores, hplanes]
  rw [hnone]
  rfl

/-- What a placement leaves as it was until the crews take their places. -/
theorem resided_rest (s : State) (g : Nat) (spots : List Spot) :
    (s.resided g spots).mem = s.mem ∧ (s.resided g spots).poolMem = s.poolMem ∧ (s.resided g spots).tasks = s.tasks := by
  have hheld := s.discardFor_onlyHeld spots
  unfold OnlyHeld at hheld
  unfold resided moveRing updGang
  dsimp only
  rw [hheld]
  exact ⟨rfl, rfl, rfl⟩

/-- The gang that is placed is resident, with its coordinates in its task's grid as they were. -/
theorem resided_gang {s : State} {g : Nat} {x : Gang} (spots : List Spot) (hg : s.gangs.find? g = some x) :
    ((s.resided g spots).gangs.find? g).map (fun y => (y.task, y.gx, y.gy, y.gz, y.stat)) = some (x.task, x.gx, x.gy, x.gz, .resident) := by
  have hheld := s.discardFor_onlyHeld spots
  unfold OnlyHeld at hheld
  unfold resided moveRing updGang
  dsimp only
  rw [FMap.find?_adjust, if_pos rfl, hheld, hg]
  rfl

theorem resided_stays {s : State} {g : Nat} {x : Gang} (spots : List Spot) (hg : s.gangs.find? g = some x) : (s.resided g spots).Stays g := by
  obtain ⟨y, hy, he⟩ := Option.map_eq_some_iff.mp (resided_gang spots hg)
  simp only [Prod.mk.injEq] at he
  simp [Stays, hy, he]

/-! ## The next gang of a task's grid, R309 -/

/-- The next gang of a task's grid, which waits to be launched and has been nowhere yet. -/
def waitingGang (t : Nat) (k : Task) : Gang :=
  let c := k.record.coords k.next
  { task := t, gx := c.1, gy := c.2.1, gz := c.2.2, stat := .pending, cores := [], rings := k.record.ring, preempt := none
    adopts := [], deadTeams := 0, wake := none, planes := [], placed := 0, placedAt := 0 }

/-- The device with that gang made. -/
def withGang (s : State) (t : Nat) (k : Task) : State :=
  State.updTask { s with gangs := s.gangs.put s.nextId (waitingGang t k), nextId := s.nextId + 1 } t fun k =>
    { k with next := k.next + 1, gangs := k.gangs ++ [s.nextId] }

theorem takeGang_pending {s : State} {t : Nat} {k : Task} (hk : s.tasks.find? t = some k) :
    s.takeGang t .pending = (s.withGang t k, s.nextId) := by
  unfold takeGang
  rw [hk]
  rfl

theorem withGang_gang (s : State) (t : Nat) (k : Task) : (s.withGang t k).gangs.find? s.nextId = some (waitingGang t k) :=
  FMap.find?_put_self _ _ _

/-- One queue that has a pending gang and a deficit is served without another quantum, R309. -/
theorem quanta_lone {s : State} {q : Nat} {x : Queue} (hq : s.queues.find? q = some x) (hdeficit : 0 < x.deficit) : s.quanta [q] = s :=
  if_pos (by simp [hq, hdeficit])

end State

theorem exec_placeGang_lone {s : State} {w cls q t : Nat} {k : Task} {x : Queue} {spots : List Spot} (hruns : s.placingStopped w = false)
    (hserved : s.servedClass w = some cls) (hpending : s.pendings w cls = [(q, t, k, none)]) (hq : s.queues.find? q = some x)
    (hdeficit : 0 < x.deficit) (hfits : s.fitPending w (t, k, none) = some spots) (hk : s.tasks.find? t = some k) :
    exec (.placeGang w) s = .next ((s.withGang t k).placeAt w q s.nextId k spots) := by
  have hexec : exec (.placeGang w) s = execPlaceGang w s := rfl
  have hturn (last : Nat) : State.fromTurn last [(q, t, k, none)] = [(q, t, k, none)] := by
    by_cases h : last < q <;> simp [State.fromTurn, h, not_le.mpr, not_lt.mp]
  rw [hexec, execPlaceGang, hruns, hserved]
  simp only [Bool.false_eq_true, if_false, hpending, List.map_cons, List.map_nil, State.quanta_lone hq hdeficit, hturn, hq, Option.any_some,
    hdeficit, decide_true, if_true, hfits, Option.map_some, List.filterMap_cons, List.filterMap_nil, State.takeGang_pending hk]

/-- A gang that is placed is resident, and each thread of its crews stands at the task's entry, R309, R310. -/
theorem placeGang_places (s : State) (w cls q t : Nat) (k : Task) (x : Queue) (spots : List Spot) (hruns : s.placingStopped w = false)
    (hserved : s.servedClass w = some cls) (hpending : s.pendings w cls = [(q, t, k, none)]) (hq : s.queues.find? q = some x)
    (hdeficit : 0 < x.deficit) (hfits : s.fitPending w (t, k, none) = some spots) (hk : s.tasks.find? t = some k) :
    ∃ s', exec (.placeGang w) s = .next s' ∧ s'.mem = s.mem ∧ s'.poolMem = s.poolMem ∧
      (s'.gangs.find? s.nextId).map (fun g => (g.task, g.gx, g.gy, g.gz, g.stat)) =
        some (t, (k.record.coords k.next).1, (k.record.coords k.next).2.1, (k.record.coords k.next).2.2, .resident) ∧
      (s'.tasks.find? t).map (·.next) = some (k.next + 1) ∧
      ∀ sp ∈ spots, ∀ c ∈ sp.crews, ∀ l, l < 32 → State.AtEntry k.record (s'.thread (((s.nextId * 16 + sp.team) * 32 + c.1) * 32 + l)) := by
  have hgang := s.withGang_gang t k
  let placed := (s.withGang t k).resided s.nextId spots
  obtain ⟨hmem, hpool, htasks⟩ := (s.withGang t k).resided_rest s.nextId spots
  have hcrews := State.enterTeams_onlyCrews s.nextId (s.withGang t k).nextId k.record placed spots
  unfold State.OnlyCrews at hcrews
  refine ⟨_, (exec_placeGang_lone hruns hserved hpending hq hdeficit hfits hk).trans
    (congrArg _ (State.placeAt_first w q k spots hgang rfl rfl rfl)), ?_, ?_, ?_, ?_, fun sp hsp c hc l hl => ?_⟩
  · simp only [State.updWorld_mem, State.updQueue_mem]
    rw [hcrews]
    exact hmem
  · simp only [State.updWorld_poolMem, State.updQueue_poolMem]
    rw [hcrews]
    exact hpool
  · simp only [State.updWorld_gangs, State.updQueue_gangs]
    rw [hcrews]
    exact State.resided_gang spots hgang
  · simp only [State.updWorld_tasks, State.updQueue_tasks]
    rw [hcrews]
    refine (congrArg (fun m => (FMap.find? m t).map (·.next)) htasks).trans ?_
    unfold State.withGang
    simp [State.updTask, FMap.find?_adjust, hk]
  · exact State.enterTeams_atEntry (State.resided_stays spots hgang) hsp hc hl

/-- Settles O48, by what each event does where it acts: the move into the window; the two answers to a task there, of which the lease brings
its Pool pages in one by one, each keeping those before it pinned; and the first placement of a gang, whose crews enter one by one. -/
theorem tasksStart : Obligations.TasksStart := by
  unfold Obligations.TasksStart
  refine ⟨?window, ?denied, ?granted, placeGang_places⟩
  case window =>
    intro s q k x w t rest hq hwaiting hw hk hroom hfirst
    refine ⟨_, exec_windowEntry hq hwaiting hw hroom hfirst, rfl, ?_, ?_, ?_⟩ <;> simp [FMap.find?_adjust, hq, hw, hk]
  case denied =>
    intro s t k hk hstage hcode hfree hdenied
    exact ⟨_, State.exec_leaseEstablish_denied hk hstage hcode hfree hdenied, rfl, by simp [State.updTask, FMap.find?_adjust, hk]⟩
  case granted =>
    intro s t k hk hstage hcode hfree hdenied hswept lease pages hfit
    have hpages := s.takePages_onlyPages pages
    refine ⟨_, (State.exec_leaseEstablish_granted hk hstage hcode hfree hdenied hswept hfit).trans (congrArg _ (s.withLease_eq t k)),
      hpages.sameRegisters, hpages.spad, ?_, fun p hp => s.takePages_pinned hp, fun hall => ?_⟩
    · exact (FMap.find?_adjust _ t t _).trans (by rw [if_pos rfl, hk]; rfl)
    · obtain ⟨fr, hfr⟩ := s.takePages_fit pages pages hall
      rw [hfr]

end Sys2Proof.Machine
